-- ==== Sys2Proof/Word.lean ====
section
/-! DEFINITION. The plain data the whole model is written in: bytes, words and texts. -/

namespace Sys2Proof

/-- One byte of page memory, of a link message or of a coded stream. -/
abbrev Byte := BitVec 8

/-- A 4-byte word of page memory: ring indices and sequence numbers, which count modulo 2^32. -/
abbrev Word := BitVec 32

/-- A text: dialled numbers, calling numbers and station IDs, as character codes (R199). -/
abbrev Text := List Byte

end Sys2Proof
end

