-- ==== Sys2Proof/Syntax.lean ====
section
/-! DEFINITION. The commands of the Menvaro 7420: one constructor of `Instr` for every row of
spec/opcode_table.json, with the operands that the row's message, access or event carries. -/

namespace Sys2Proof

/-- The four line units LU0 to LU3 (Chapter 6). -/
inductive UnitId where
  | lu0 | lu1 | lu2 | lu3
  deriving DecidableEq, Repr, Inhabited

/-- The two raster windows (R50). -/
inductive WindowId where
  | w0 | w1
  deriving DecidableEq, Repr, Inhabited

/-- The page memory sizes that the straps select (section 0.1). -/
inductive MemSize where
  | m16 | m32 | m64
  deriving DecidableEq, Repr, Inhabited

/-- The blocks that issue part-originated writes (R61) and post events (R79). -/
inductive Block where
  | pageCoder | printEngine | eventReporter | meter | orderIntake | dump | sendQueue | memoryPath
  | unit (u : UnitId) | pageStore | scannerPort | callerScreen
  deriving DecidableEq, Repr

/-- The requesters of the memory port (R62): the host, the eight blocks of the round-robin cycle,
and the stream request of each line unit. -/
inductive Requester where
  | host | pageCoder | printEngine | eventReporter | meter | orderIntake | dump | sendQueue
  | memoryPath | unit (u : UnitId)
  deriving DecidableEq, Repr

/-- One byte lane of a host write: a byte, or a lane whose byte enable is clear (R45). -/
abbrev Lane := Option Byte

/-- The fields of an OFFER frame as they stand on the link (Table 7-1, section 12.5): codes, not yet
checked against their sets (R116), and flags as bytes (R199). -/
structure OfferFields where
  station : Text
  maxRate : Byte
  forms : Byte
  fine : Byte
  maxWidth : Byte
  minLineTime : Byte
  ready : Byte
  deriving DecidableEq, Repr, Inhabited

/-- The fields of an ORDER frame as they stand on the link (Table 7-1, section 12.5). -/
structure OrderFields where
  station : Text
  rate : Byte
  form : Byte
  resolution : Byte
  width : Byte
  minLineTime : Byte
  pagesToCome : Byte
  deriving DecidableEq, Repr, Inhabited

/-- The two sounder patterns (R178). -/
inductive Pattern where
  | flash | paper
  deriving DecidableEq, Repr, Inhabited

/-- The commands. A host access carries its address and byte lanes; an order carries nothing, since
the part reads it from its slot in page memory (R66); a link, scanner or printer message carries its
fields; a timer or level event carries what tells it apart. A burn's verify and its limit carry the number
of the burn they belong to, counted from 0 as burns begin; the first burn where none is named. DESIGN CHOICE
(log entry 56). -/
inductive Instr where
  -- resets and host accesses
  | powerOnReset (straps : MemSize)
  | busReset (straps : MemSize)
  | hostRead (addr len : Nat)
  | hostWrite (addr : Nat) (lanes : List Lane)
  | setupPost (v : Word)
  | setupBlockReadDone
  | orderSlotPost (slot : Fin 32) (seq : Word)
  | eventConsumerWrite (v : Word)
  | chargeLogConsumerWrite (v : Word)
  | windowWriteFixed (addr : Nat) (lanes : List Lane)
  | windowWriteIndexed (addr : Nat) (lanes : List Lane)
  | holdTimeout (w : WindowId)
  | pendingWritePerformed (blk : Block)
  | portGrant (presented : List Requester)
  -- orders: the slot read returns and names this order
  | scan
  | openWindowPage
  | closeWindowPage
  | closeDocument
  | keep
  | release
  | deleteDocument
  | send
  | cancel
  | print
  | cancelPrint
  | screenAdd
  | screenRemove
  | screenClear
  | sweep
  | screenMode
  | setClock
  | loadTariff
  | setDesk
  | closePeriod
  | flushMeter
  | auditClear
  | lineMode
  | dump
  | dumpRecordWrite
  | restart
  | restartComplete
  | unknownOrder
  -- reports
  | eventPosting
  | holdOffExpiry
  -- Page Coder and scanner
  | coderLineService
  | coderSealService
  | line (dots : List Bool)
  | sheetEnd
  | modeAcknowledgement
  | sheetPresentChange (high : Bool)
  | jamChange (high : Bool)
  | stallTimerExpiry
  -- recoders
  | transmitLineRecode (u : UnitId)
  | linkSendData (u : UnitId) (n : Nat)
  | receiveDecode (u : UnitId)
  -- line link messages and call timers
  | ring (u : UnitId)
  | caller (u : UnitId) (number : Text)
  | dialTone (u : UnitId)
  | dialDone (u : UnitId)
  | busyTone (u : UnitId)
  | answerTone (u : UnitId)
  | seizeTimeout (u : UnitId)
  | dialLimitExpiry (u : UnitId)
  | answerTimeout (u : UnitId)
  | clearingGuardExpiry (u : UnitId)
  | ringTimerExpiry (u : UnitId)
  | lineFault (u : UnitId)
  | lineOk (u : UnitId)
  | unknownLinkMessage (u : UnitId) (type : Byte)
  | corruptFrame (u : UnitId)
  | offer (u : UnitId) (f : OfferFields)
  | orderFrame (u : UnitId) (f : OrderFields)
  | checkResult (u : UnitId) (good : Bool)
  | readyFrame (u : UnitId)
  | slower (u : UnitId)
  | pageEnd (u : UnitId) (kind : Byte)
  | good (u : UnitId)
  | redo (u : UnitId)
  | stopFrame (u : UnitId)
  | releaseFrame (u : UnitId)
  | data (u : UnitId) (bytes : List Byte)
  | dataEnd (u : UnitId)
  | carrierLost (u : UnitId)
  | replyWaitExpiry (u : UnitId)
  | offerWaitExpiry (u : UnitId)
  | notReadyWaitExpiry (u : UnitId)
  | idleLimitExpiry (u : UnitId)
  -- Send Queue, printer, screen, meter
  | entryCountdownExpiry
  | lineDone (temperature : Nat)
  | sheetDone
  | temp (temperature : Nat)
  | paperPresentChange (high : Bool)
  | coverClosedChange (high : Bool)
  | sounderPatternTimer (p : Pattern)
  | pacingPulse
  | ageTimerExpiry
  | sweepVisit
  | clockStep
  | meterUnitStart (u : UnitId)
  | burnVerify (burn : Nat := 0)
  | burnLimitExpiry (burn : Nat := 0)
  | supplyLevelChange (low : Bool)
  | powerWarningBegin
  | powerWarningEnd
  deriving DecidableEq, Repr

end Sys2Proof
end

