-- ==== Sys2Proof/Decode.lean ====
section
/-! DEFINITION. The commands that words spell. The table of this part gives no row any bits: a command is
an access, an order in page memory, a message or an event, not a word of a program. -/

namespace Sys2Proof

/-- The command that a word of `nbits` bits spells: none, since no row of the table has bits. -/
def decodeTableWord (_nbits _w : Nat) : Option Instr := none

end Sys2Proof
end

