-- ==== Sys2Proof/Config.lean ====
section
/-! DEFINITION. What is fixed for the part: sizes of its tables and buffers, the byte that unwritten
page memory reads as, and the free values where the manual states no value. -/

namespace Sys2Proof

/-- The call modes of a line unit (Table 6-2). -/
inductive UnitMode where
  | off | receive | send | both
  deriving DecidableEq, Repr, Inhabited

namespace Config

/-- What a byte of page memory that nothing has written reads as.
DESIGN CHOICE (log entry 1): the manual does not say what SDRAM holds after power is applied. -/
def unwrittenByte : Byte := 0

/-- FREE VALUE (log entry 2): the mode of a line unit whose Setup Block mode byte is none of the four
codes. R97 gives the unit a mode and R47 leaves other fields to their owner, which states none. -/
opaque unknownUnitMode : Byte → UnitMode

/-- Page records (R5). -/
def pageRecords : Nat := 1024
/-- Document records (Table 1-2). -/
def docRecords : Nat := 256
/-- Pages of one document (R5). -/
def docPages : Nat := 250
/-- Bytes of one pool block (R1). -/
def blockBytes : Nat := 2048
/-- The line cap of a page (R28). -/
def lineCap : Nat := 8191
/-- The byte cap of a page, END mark included (R28). -/
def byteCap : Nat := 8388608
/-- Bytes of a transmit or receive FIFO (R39, R42). -/
def fifoBytes : Nat := 1024
/-- Writes that the pending-write queue holds (R61). -/
def queueWrites : Nat := 16
/-- Bytes of one pending write (R61). -/
def writeBytes : Nat := 64
/-- Bytes of a page of memory that one write stays within (R61). -/
def memPage : Nat := 4096
/-- Destination entries (R137). -/
def destEntries : Nat := 512
/-- Screen Table entries (R154). -/
def screenEntries : Nat := 256
/-- Print Queue entries (R168). -/
def printEntries : Nat := 64
/-- Event Ring records (R79). -/
def ringRecords : Nat := 256
/-- Desk accounts (Table 11-5). -/
def desks : Nat := 16
/-- Half-seconds of a day (R180). -/
def dayHalves : Nat := 172800
/-- Half-seconds of a week (R149). -/
def weekHalves : Nat := 1209600
/-- The largest 32-bit count. -/
def max32 : Nat := 4294967295
/-- The largest 40-bit total (R188). -/
def max40 : Nat := 1099511627775
/-- The largest 24-bit count (R187). -/
def max24 : Nat := 16777215

end Config
end Sys2Proof
end

