-- ==== Sys2Proof/Machine/State.lean ====
section
/-! DEFINITION. The state of the Menvaro 7420, block by block as Table 0-2 divides the part, the state
after power-on reset, and the reasons a step can stop. -/

namespace Sys2Proof.Machine

open Sys2Proof

/-- A sparse table: numbered records in rising number; a number with no record is free or unused. -/
abbrev Table (α : Type) := List (Nat × α)

/-- Page memory: address and byte pairs in rising address, none equal to what an unlisted address
reads as. -/
abbrev Memory := List Host.Cell

/-- One value for each line unit. -/
structure Quad (α : Type) where
  u0 : α
  u1 : α
  u2 : α
  u3 : α
  deriving DecidableEq, Repr

/-- One value for each raster window. -/
structure Pair (α : Type) where
  w0 : α
  w1 : α
  deriving DecidableEq, Repr

/-- A Meter clock value: day, half-second and the unset flag (R180, R199). -/
structure Stamp where
  day : Nat
  half : Nat
  unset : Bool
  deriving DecidableEq, Repr

/-! ## Page Store (Chapter 1) -/

/-- The producer kinds (Table 1-1). -/
inductive Origin where
  | scan | window | received
  deriving DecidableEq, Repr

/-- The width classes (Table 1-1). -/
inductive Width where
  | narrow | standard | broad
  deriving DecidableEq, Repr

/-- The resolutions (Table 1-1). -/
inductive Resolution where
  | normal | fine
  deriving DecidableEq, Repr

/-- The states of a page record in use; a FREE record is absent from the table (Table 1-1). -/
inductive PageState where
  | filling | sealed
  deriving DecidableEq, Repr

/-- A page record (Table 1-1). -/
structure PageRec where
  state : PageState
  document : Nat
  position : Nat
  origin : Origin
  width : Width
  resolution : Resolution
  lines : Nat
  coded : Nat
  first : Nat
  last : Nat
  blocks : Nat
  clipped : Bool
  deriving DecidableEq, Repr

/-- The states of a document record in use; an unused record is absent (Table 1-2). -/
inductive DocState where
  | opened | closed
  deriving DecidableEq, Repr

/-- A document record (Table 1-2), with the attachment of R11. -/
structure Doc where
  state : DocState
  origin : Origin
  desk : Nat
  pages : List Nat
  keep : Bool
  sendRefs : Nat
  printRefs : Nat
  truncated : Bool
  notQueued : Bool
  deletePending : Bool
  created : Stamp
  station : Option Text
  total : Nat
  attached : Bool
  deriving DecidableEq, Repr

/-- The Page Store: pool, link table, free list, Page Table and Document Table (R1, R2). A block
absent from `links` has the entry "none". -/
structure PageStore where
  base : Nat
  blockCount : Nat
  free : List Nat
  links : Table Nat
  pages : Table PageRec
  docs : Table Doc
  deriving DecidableEq, Repr

/-! ## Page Coder (R29) -/

/-- The waiting condition of a source (R29). -/
inductive WaitCause where
  | block | pageRecord | documentFull
  deriving DecidableEq, Repr

/-- The unplaced bytes of a coded line, with the line's transition list, or of the END mark (R29). -/
structure Held where
  bytes : List Byte
  line : Option (List Nat)
  deriving DecidableEq, Repr

/-- What the Page Coder keeps for one source (R29). `queue` holds the numbers of the buffer lines or
slots whose complete lines wait to be coded, in the order in which they completed (R30). -/
structure Source where
  page : Option Nat
  document : Nat
  width : Width
  resolution : Resolution
  ref : List Nat
  held : Option Held
  wait : Option WaitCause
  continuation : Bool
  queue : List Nat
  endSignal : Bool
  deriving DecidableEq, Repr

/-- The Page Coder: its three sources and its round-robin marker (R29). -/
structure Coder where
  scan : Source
  win : Pair Source
  marker : WindowId
  deriving DecidableEq, Repr

/-- The three sources of the Page Coder. -/
inductive SourceId where
  | scan
  | win (w : WindowId)
  deriving DecidableEq, Repr

/-! ## Memory Path (Chapter 3) -/

/-- The part state (R46). -/
inductive PartState where
  | unconfigured | setup | running
  deriving DecidableEq, Repr

/-- The treatments of a region (Table 3-3). -/
inductive Treatment where
  | pass | guard | raster
  deriving DecidableEq, Repr

/-- A used Region Table entry (R50). -/
structure Region where
  base : Nat
  size : Nat
  treatment : Treatment
  deriving DecidableEq, Repr

/-- The areas that have a guard-hit record (R51). -/
inductive GuardArea where
  | region (i : Nat)
  | window (w : WindowId)
  | pool | eventRing | chargeLog | orderSlot | controlWord | outside
  deriving DecidableEq, Repr

/-- A pending guard-hit record: the Event Ring index of its GUARD_HIT record, and its count (R51). An idle
record is absent from `MemPath.guards`. -/
structure GuardRec where
  index : Word
  count : Nat
  deriving DecidableEq, Repr

/-- The states of a raster window (Table 3-4). -/
inductive WindowState where
  | idle | opened | holding
  deriving DecidableEq, Repr

/-- The modes of a raster window (Table 3-4). -/
inductive WindowMode where
  | fixed | indexed
  deriving DecidableEq, Repr

/-- The states of a line slot (Table 3-4). -/
inductive SlotState where
  | empty | filling | complete | coding
  deriving DecidableEq, Repr

/-- A line slot: in FIXED mode `bytes` holds the bytes placed so far; in INDEXED mode it holds the
whole line and `marks` the numbers of the marked words (R55, R56). -/
structure Slot where
  state : SlotState
  bytes : List Byte
  marks : List Nat
  deriving DecidableEq, Repr

/-- The two slots of a window. -/
inductive SlotId where
  | a | b
  deriving DecidableEq, Repr

/-- A raster window record (Table 3-4). The held write and its timer stand in `HostBus`. -/
structure Window where
  state : WindowState
  document : Option Nat
  pagesExpected : Nat
  pagesEnded : Nat
  page : Option Nat
  mode : WindowMode
  width : Width
  resolution : Resolution
  lineBytes : Nat
  linesExpected : Nat
  linesRemaining : Nat
  linesHanded : Nat
  sealPending : Bool
  slotA : Slot
  slotB : Slot
  next : SlotId
  deriving DecidableEq, Repr

/-- A run of lanes of a host write from one address on. -/
structure Seg where
  addr : Nat
  lanes : List Lane
  deriving DecidableEq, Repr

/-- The host's bus cycle: free; a read held behind pending writes; a write held behind them; or a
write held by a raster window with its 2 ms timer running (R59, R61). `err` says that a part of the
access has been refused. -/
inductive HostBus where
  | free
  | heldRead (addr len : Nat)
  | heldWrite (segs : List Seg) (err : Bool)
  | windowHold (w : WindowId) (seg : Seg) (rest : List Seg) (err : Bool)
  deriving DecidableEq, Repr

/-- How the host's latest bus cycle ended (R45). -/
inductive BusResult where
  | none
  | data (bytes : List Byte)
  | written
  | busError
  deriving DecidableEq, Repr

/-- A part-originated write that has been issued and not performed (R61). `clears` names the order
slot whose post word the write clears (R66). -/
structure PendingWrite where
  blk : Block
  addr : Nat
  bytes : List Byte
  clears : Option Nat
  deriving DecidableEq, Repr

/-- The Memory Path. `queue` is the pending-write queue; `waiting` holds the writes of blocks that
wait for room in it (R61). `urgent` and `cycle` are the arbiter's markers (R62). -/
structure MemPath where
  regions : Table Region
  posted : List Nat
  guards : List (GuardArea × GuardRec)
  win : Pair Window
  bus : HostBus
  result : BusResult
  queue : List PendingWrite
  waiting : List PendingWrite
  urgent : UnitId
  cycle : Nat
  granted : Option Requester
  deriving DecidableEq, Repr

/-! ## Orders and reports (Chapter 4) -/

/-- The take states (Table 4-2). -/
inductive TakeState where
  | waiting | reading | atOwner | finishing
  deriving DecidableEq, Repr

/-- The kinds of a DUMP (R73). -/
inductive DumpKind where
  | documents | pages | sendQueue | screenTable | desks | lineStatistics
  deriving DecidableEq, Repr

/-- A DUMP in progress (R74). -/
structure DumpState where
  kind : DumpKind
  clear : Bool
  purge : Bool
  addr : Nat
  total : Nat
  left : List Nat
  written : Nat
  purged : Nat
  deriving DecidableEq, Repr

/-- The order kinds (Table 4-4), in the order of their codes. -/
inductive OrderKind where
  | scan | openWindowPage | closeWindowPage | closeDocument | keep | release | deleteDocument
  | send | cancel | print | cancelPrint | screenAdd | screenRemove | screenClear | sweep
  | screenMode | setClock | loadTariff | setDesk | closePeriod | auditClear | flushMeter
  | lineMode | dump | restart
  deriving DecidableEq, Repr

/-- The result codes (Table 4-3). -/
inductive Result where
  | accepted | badOrder | full | noSuch | busy | state | already
  deriving DecidableEq, Repr

/-- What the take in FINISHING tells by its ORDER_DONE, while its clearing write has still to be issued (R67, R69). -/
structure TakeEnd where
  kind : Byte
  result : Result
  seq : Word
  values : List Nat
  deriving DecidableEq, Repr

/-- The Order Intake (R67): expected slot, take state, the end of the take that is FINISHING, the DUMP in
progress, and the RESTART in progress with the units that have counted (R77). -/
structure Intake where
  expected : Nat
  take : TakeState
  finish : Option TakeEnd
  dump : Option DumpState
  restart : Option (Quad Bool)
  deriving DecidableEq, Repr

/-- The two causes of a reset that READY carries (R83). -/
inductive ResetCause where
  | powerOn | busReset
  deriving DecidableEq, Repr

/-! ## Scanner Port (Chapter 5) -/

/-- The scan session states (Table 5-1). -/
inductive ScanState where
  | idle | feeding | scanning | paused | jammed
  deriving DecidableEq, Repr

/-- The SCAN targets (R86). -/
inductive ScanTarget where
  | sendReady | copy | store
  deriving DecidableEq, Repr

/-- The reasons of SCAN_STATE (Table 12-1). -/
inductive ScanReason where
  | done | memoryFull | docFull | jammed | restart | cleared
  deriving DecidableEq, Repr

/-- A buffer line of the scanner port (section 5.1). -/
inductive BufLine where
  | empty
  | held (dots : List Bool)
  | coding (dots : List Bool)
  deriving DecidableEq, Repr

/-- A message of the part to the scanner. -/
inductive ScannerMsg where
  | mode (w : Width) (r : Resolution)
  deriving DecidableEq, Repr

/-- The Scanner Port (section 5.2): session record, buffer, and the levels of its port. `before` is
the state a PAUSED session returns to (R85); `fullPause` and `ackPending` are the causes of feed pause
beside the hold (R85, R87). -/
structure Scanner where
  state : ScanState
  before : ScanState
  document : Option Nat
  desk : Nat
  target : ScanTarget
  copies : Nat
  width : Width
  resolution : Resolution
  sheetsBegun : Nat
  pagesSealed : Nat
  linesTaken : Nat
  widthFaults : Nat
  overruns : Nat
  beginPending : Bool
  endPending : Bool
  lastSheet : Bool
  hold : Bool
  fullPause : Bool
  ackPending : Bool
  buffer : List BufLine
  nextIn : Nat
  sheetPresent : Bool
  jam : Bool
  out : List ScannerMsg
  deriving DecidableEq, Repr

/-! ## Meter records (Chapter 11) -/

/-- The tariff bands (R184). -/
inductive Band where
  | peak | shoulder | night
  deriving DecidableEq, Repr

/-- One value for each band. -/
structure PerBand (α : Type) where
  peak : α
  shoulder : α
  night : α
  deriving DecidableEq, Repr

/-- A used zone record (Table 11-1). -/
structure Zone where
  digits : Text
  setup : Nat
  len : PerBand Nat
  price : PerBand Nat
  deriving DecidableEq, Repr

/-- The tariff: used zones, and the band map (Tables 11-1 and 11-2). -/
structure Tariff where
  zones : Table Zone
  weekend : Byte
  weekdayRow : List Band
  weekendRow : List Band
  deriving DecidableEq, Repr

/-- The meter record of a call being metered (Table 11-3). `due` holds the bands of the units whose start has been
reached by the clock and that are not yet charged, the earliest first. -/
structure MeterRec where
  zoneIndex : Nat
  zone : Zone
  desk : Nat
  entry : Nat
  orderSeq : Word
  number : Text
  answer : Stamp
  elapsed : Nat
  nextStart : Nat
  units : PerBand Nat
  charge : Nat
  due : List Band
  deriving DecidableEq, Repr

/-- The desk states (R188). -/
inductive DeskState where
  | opened | held | audit | closed
  deriving DecidableEq, Repr

/-- A desk account (Table 11-5). -/
structure Desk where
  state : DeskState
  audit : Bool
  closed : Bool
  ceiling : Nat
  spent : Nat
  working : Nat
  burned : Nat
  calls : Nat
  captured : Option (Nat × Nat)
  torn : Bool
  deriving DecidableEq, Repr

/-- A meter store cell (R193); `writing` marks a burn that has begun and not ended. -/
structure StoreCell where
  lifetime : Nat
  calls : Nat
  sequence : Nat
  torn : Bool
  writing : Bool
  deriving DecidableEq, Repr

/-- The reasons a desk is queued for a burn (R194). -/
inductive BurnReason where
  | threshold | closePeriod | flush | auditClear | power
  deriving DecidableEq, Repr

/-- The burn in progress (R195), with the number that its verify and its limit name (log entry 56). -/
structure Burn where
  number : Nat
  desk : Nat
  reason : BurnReason
  lifetime : Nat
  calls : Nat
  sequence : Nat
  deriving DecidableEq, Repr

/-- The causes of DESK_STATE (R188). -/
inductive DeskCause where
  | ceiling | setDesk | closePeriod | burnFailed | auditClear | cellTorn
  deriving DecidableEq, Repr

/-- The outcomes of METER_BURN (Table 12-6). -/
inductive BurnOutcome where
  | done | failed | torn
  deriving DecidableEq, Repr

/-- The clock (R180). -/
structure Clock where
  day : Nat
  half : Nat
  unset : Bool
  divider : Nat
  deriving DecidableEq, Repr

/-! ## Line Units and the page exchange (Chapters 6 and 7) -/

/-- The call states of a unit (Table 6-2). -/
inductive CallState where
  | off | idle | ringing | seizing | dialling | awaitAnswer | inSession | clearing | blocked
  deriving DecidableEq, Repr

/-- The side of a call (Table 6-2). -/
inductive Role where
  | caller | answerer
  deriving DecidableEq, Repr

/-- The attempt results (Table 12-1). -/
inductive AttemptResult where
  | success | noDialTone | dialFailed | busy | noAnswer | receiverNotReady | notFax | checkFailed
  | pageFailed | refused | lineLost | lineFault | aborted | glare | cancelled
  deriving DecidableEq, Repr

/-- The reasons of CALL_REFUSED (Table 9-2). -/
inductive RefuseReason where
  | denied | notListed | budget | noOrder | notReady | badOrder | noDocument
  deriving DecidableEq, Repr

/-- The ring verdict (Table 6-2). -/
inductive RingVerdict where
  | none | matched
  | refused (r : RefuseReason)
  deriving DecidableEq, Repr

/-- The ten counters of a unit (Table 6-7). -/
structure Stats where
  callsOut : Nat
  callsIn : Nat
  bytesSent : Nat
  fillBytes : Nat
  underruns : Nat
  pagesSent : Nat
  pagesReceived : Nat
  redosSent : Nat
  redosReceived : Nat
  badLines : Nat
  deriving DecidableEq, Repr

/-- The five rates (section 7.1). -/
inductive Rate where
  | r2400 | r4800 | r7200 | r9600 | r12000
  deriving DecidableEq, Repr

/-- The two coded forms (section 2). -/
inductive Form where
  | plain | full
  deriving DecidableEq, Repr

/-- The kinds of PAGE END (Table 7-1). -/
inductive PageEndKind where
  | more | mode | last
  deriving DecidableEq, Repr

/-- A checked ORDER: the page's mode, with the station ID and the pages to come (R120). -/
structure OrderMode where
  station : Text
  rate : Rate
  form : Form
  resolution : Resolution
  width : Width
  minLineTime : Nat
  pagesToCome : Nat
  deriving DecidableEq, Repr

/-- A checked OFFER (Table 7-1). -/
structure OfferMode where
  station : Text
  maxRate : Rate
  forms : Form
  fine : Bool
  maxWidth : Width
  minLineTime : Nat
  ready : Bool
  deriving DecidableEq, Repr

/-- The control frames the part sends (Table 7-1). -/
inductive Frame where
  | offer (o : OfferMode)
  | order (o : OrderMode)
  | ready | slower
  | pageEnd (k : PageEndKind)
  | good | redo | stop | release
  deriving DecidableEq, Repr

/-- The messages of the part to a codec (Table 6-1). -/
inductive LinkMsg where
  | seize | release
  | dial (digits : Text)
  | answer
  | setRate (r : Rate)
  | sendCheck
  | sendFrame (f : Frame)
  | sendData (bytes : List Byte)
  | stopData
  deriving DecidableEq, Repr

/-- The waits of a session (R117, R119, R128 and Table 7-4). -/
inductive Wait where
  | reply | offer | notReady | idleLimit
  deriving DecidableEq, Repr

/-- The caller phases (Table 7-3). -/
inductive CallerPhase where
  | awaitOffer | checking | sending | awaitVerdict
  deriving DecidableEq, Repr

/-- The answerer phases (Table 7-4). -/
inductive AnswererPhase where
  | offering | notReady | checkReply | receiving | verdict | awaitOrder | awaitRelease
  deriving DecidableEq, Repr

/-- The caller side of a session (Table 7-2). `withCheck` says that the order in force was followed by
a check, so that a repeat is followed by one again (R117). -/
structure CallerSession where
  phase : CallerPhase
  document : Nat
  total : Nat
  position : Nat
  confirmed : Nat
  offer : Option OfferMode
  ceiling : Rate
  order : Option OrderMode
  withCheck : Bool
  kind : PageEndKind
  resends : Nat
  sends : Nat
  wait : Option Wait
  deriving DecidableEq, Repr

/-- The two verdicts that an answerer may repeat (Table 7-2). -/
inductive Verdict where
  | good | redo
  deriving DecidableEq, Repr

/-- Where an accepted document goes (R160). -/
structure Route where
  desk : Nat
  copies : Nat
  flash : Bool
  deriving DecidableEq, Repr

/-- The refusal answers of the Page Store to a page open (R5). -/
inductive OpenRefusal where
  | docFull | docBusy | noPage | noBlock
  deriving DecidableEq, Repr

/-- The receive recoder's report "data ended" (R42). -/
structure RxReport where
  received : Nat
  bad : Nat
  longest : Nat
  endSeen : Bool
  noRoom : Option OpenRefusal
  deriving DecidableEq, Repr

/-- The answering side of a session (Table 7-2). `asked` is the ORDER awaiting its check (R130);
`report` is a "data ended" taken before PAGE END (R131). -/
structure AnswererSession where
  phase : AnswererPhase
  document : Option Nat
  order : Option OrderMode
  asked : Option OrderMode
  kind : Option PageEndKind
  sends : Nat
  wait : Option Wait
  route : Route
  lastVerdict : Option Verdict
  dataTaken : Bool
  report : Option RxReport
  deriving DecidableEq, Repr

/-- The transmit line recoder of a unit (R35 to R40): idle while `page` is none. `offset` is the
position in the stored stream, `linesLeft` the stored lines not yet decoded, `out` and `fill` the
output not yet in the FIFO, `ended` that the END mark has been produced, `begun` that the page's first
byte has been taken. -/
structure TxRecoder where
  page : Option Nat
  width : Width
  resolution : Resolution
  order : OrderMode
  minimum : Nat
  offset : Nat
  linesLeft : Nat
  storedRef : List Nat
  outRef : List Nat
  out : List Byte
  fill : Nat
  ended : Bool
  begun : Bool
  wire : Nat
  deriving DecidableEq, Repr

/-- An item of the receive FIFO (R42). -/
inductive RxItem where
  | byte (b : Byte)
  | gap | dataEnd | carrierLost
  deriving DecidableEq, Repr

/-- What the receive recoder is doing: no page begun, decoding a page, or a page whose data has ended
and which waits for the verdict (R41, R42). -/
inductive RxState where
  | idle | active | ended
  deriving DecidableEq, Repr

/-- The receive recoder of a unit (R41). `line` holds the bytes of the line being read. -/
structure RxRecoder where
  state : RxState
  page : Option Nat
  document : Nat
  width : Width
  ref : List Nat
  line : List Byte
  received : Nat
  bad : Nat
  run : Nat
  longest : Nat
  noRoom : Option OpenRefusal
  clippedOff : Bool
  deriving DecidableEq, Repr

/-- What the arbiter names when it hands an entry to a unit (R99, R144). -/
structure HandOver where
  number : Text
  document : Nat
  desk : Nat
  orderSeq : Word
  confirmed : Nat
  zoneIndex : Nat
  zone : Zone
  deriving DecidableEq, Repr

/-- A line unit: the record of Table 6-2, its hand-over, session, recoders, FIFOs, and the messages it
has issued on its link, oldest first. `timer` is the limit in ms of the running state timer. -/
structure LineUnit where
  mode : UnitMode
  pendingMode : Option UnitMode
  state : CallState
  role : Option Role
  entry : Option Nat
  lead : Text
  dialFailures : Nat
  ringCount : Nat
  caller : Option Text
  verdict : RingVerdict
  glare : Bool
  answered : Bool
  result : Option AttemptResult
  releaseTime : Stamp
  attemptBytes : Nat
  timer : Option Nat
  stats : Stats
  handOver : Option HandOver
  callerSession : Option CallerSession
  answerer : Option AnswererSession
  tx : TxRecoder
  txFifo : List Byte
  rx : RxRecoder
  rxFifo : List RxItem
  out : List LinkMsg
  deriving DecidableEq, Repr

/-! ## Send Queue (Chapter 8) -/

/-- The send priorities (Table 8-1). -/
inductive Priority where
  | flash | urgent | routine
  deriving DecidableEq, Repr

/-- The states of a destination entry in use; a free entry is absent (Table 8-1). -/
inductive EntryState where
  | waiting | ready | held | active | retryWait | done | failed | cancelled
  deriving DecidableEq, Repr

/-- A destination entry (Table 8-1); `attemptCharge` is the attempt's charge of R147. -/
structure DestEntry where
  orderSeq : Word
  document : Nat
  desk : Nat
  priority : Priority
  number : Text
  zone : Option Nat
  state : EntryState
  attempts : Nat
  maxAttempts : Nat
  retryInterval : Nat
  readyTime : Nat
  countdown : Nat
  nextAttempt : Stamp
  lastResult : Option AttemptResult
  confirmed : Nat
  unit : Option UnitId
  chargeTotal : Nat
  attemptCharge : Nat
  heldReported : Bool
  cancelPending : Bool
  deriving DecidableEq, Repr

/-- A unit's outcome report (R103, R148). -/
structure OutcomeReport where
  unit : UnitId
  entry : Nat
  result : AttemptResult
  answered : Bool
  releaseTime : Stamp
  confirmed : Nat
  bytes : Nat
  deriving DecidableEq, Repr

/-- The Send Queue (R137): entries, final list, the count that gives ready times, the keep-for-receive setting, and
the outcome reports that wait for a charge which the Meter has still to give (R61, R147). -/
structure SendQueue where
  entries : Table DestEntry
  finals : List Nat
  readySeq : Nat
  keepForReceive : Nat
  reports : List OutcomeReport
  deriving DecidableEq, Repr

/-! ## Caller Screen (Chapter 9) -/

/-- The key kinds (Table 9-1). -/
inductive KeyKind where
  | number | station
  deriving DecidableEq, Repr

/-- The kinds of a screen entry (Table 9-1). -/
inductive ScreenKind where
  | allow | deny | learned
  deriving DecidableEq, Repr

/-- An occupied screen entry (Table 9-1). -/
structure ScreenEntry where
  keyKind : KeyKind
  key : Text
  kind : ScreenKind
  desk : Nat
  copies : Nat
  flash : Bool
  budget : Nat
  budgetLeft : Nat
  touched : Bool
  calls : Nat
  lastCall : Option Stamp
  deriving DecidableEq, Repr

/-- The screening modes (R156). -/
inductive ScreenMode where
  | opened | denyListed | listedOnly
  deriving DecidableEq, Repr

/-- The sources of a sweep (R163). -/
inductive SweepSource where
  | timer | order
  deriving DecidableEq, Repr

/-- A sweep in progress (R163). -/
structure Sweep where
  cursor : Nat
  source : SweepSource
  removed : Nat
  deriving DecidableEq, Repr

/-- The Caller Screen (Chapter 9). A timer that is `none` is stopped. -/
structure Screen where
  entries : Table ScreenEntry
  mode : ScreenMode
  learn : Quad Bool
  ringMatch : Quad (Option (Nat × Text))
  pacingPeriod : Nat
  agePeriod : Nat
  pacing : Option Nat
  age : Option Nat
  sweep : Option Sweep
  fullReported : Bool
  deriving DecidableEq, Repr

/-! ## Print Engine (Chapter 10) -/

/-- The print priorities (Table 10-2). -/
inductive PrintPriority where
  | flash | ordinary
  deriving DecidableEq, Repr

/-- The states of a print entry in the queue (Table 10-2); a DONE entry is absent. -/
inductive PrintEntryState where
  | waiting | printing
  deriving DecidableEq, Repr

/-- A print entry (Table 10-2), with the sheets ejected for it (R171). -/
structure PrintEntry where
  document : Nat
  priority : PrintPriority
  arrival : Nat
  copiesLeft : Nat
  copiesPrinted : Nat
  state : PrintEntryState
  pageIndex : Nat
  stopRequested : Bool
  ejected : Nat
  deriving DecidableEq, Repr

/-- The sheet states (R168). -/
inductive SheetState where
  | noSheet | sheetStarted | lineInFlight | feedingOut
  deriving DecidableEq, Repr

/-- The printer states, in the order of R173. -/
inductive PrinterState where
  | coverOpen | paperOut | headHot | printing | ready
  deriving DecidableEq, Repr

/-- The reasons of PRINT_DONE (Table 12-1). -/
inductive PrintReason where
  | complete | cancelled | restart
  deriving DecidableEq, Repr

/-- The messages of the part to the printer (Table 10-1). -/
inductive PrinterMsg where
  | sheetStart
  | headLine (dots : List Bool) (duty : Nat)
  | sheetOut
  deriving DecidableEq, Repr

/-- The print decoder's place in the stored stream of the page being printed: the page and its form, the byte offset of
the next stored line, the stored lines not yet decoded, and whether the reference line is to be printed a second time
(R172). -/
structure PrintDecoder where
  page : Nat
  width : Width
  resolution : Resolution
  offset : Nat
  linesLeft : Nat
  again : Bool
  deriving DecidableEq, Repr

/-- The sounder (R178): the phase of the running FLASH pattern (0 to 4: burst, gap, burst, gap, burst),
whether the paper pattern is in its burst, and the reload values as used. -/
structure Sounder where
  flash : Option Nat
  paper : Option Bool
  flashReload : Nat
  paperReload : Nat
  deriving DecidableEq, Repr

/-- The Print Engine (R168). The line position within the current page and the print decoder's reference line are held
at all times, and `decoder` while a page is on paper. The line position counts head lines: DESIGN CHOICE (log entry
78). -/
structure PrintEngine where
  entries : Table PrintEntry
  arrivals : Nat
  current : Option Nat
  sheet : SheetState
  position : Nat
  ref : List Nat
  decoder : Option PrintDecoder
  temperature : Nat
  hot : Bool
  state : PrinterState
  draining : Bool
  sounder : Sounder
  strobeBase : Nat
  strobeSlope : Nat
  paperPresent : Bool
  coverClosed : Bool
  out : List PrinterMsg
  deriving DecidableEq, Repr

/-! ## Meter (Chapter 11) -/

/-- A charge record (R192, Table 12-7). -/
structure ChargeRecord where
  sequence : Nat
  orderSeq : Word
  answer : Stamp
  duration : Nat
  charge : Nat
  bytes : Nat
  entry : Nat
  units : PerBand Nat
  desk : Nat
  unit : UnitId
  zone : Nat
  result : Option AttemptResult
  confirmed : Nat
  number : Text
  deriving DecidableEq, Repr

/-- A call whose metering has stopped, as it stood at its release (R187). -/
structure MeteredCall where
  unit : UnitId
  record : MeterRec
  bytes : Nat
  result : Option AttemptResult
  confirmed : Nat
  deriving DecidableEq, Repr

/-- Work that other blocks have given to the Meter while a write of it waits for room in the queue (R61): the charge
of an answer, a release, or a host write of the Charge Log consumer index. -/
inductive MeterWork where
  | charge (desk amount : Nat)
  | release (c : MeteredCall)
  | consumer (v : Word)
  deriving DecidableEq, Repr

/-- The Meter (Chapter 11). `work` is what it has been given while a write of it waits, oldest first (R61). -/
structure Meter where
  clock : Clock
  tariff : Tariff
  recs : Quad (Option MeterRec)
  desks : Table Desk
  cells : Table StoreCell
  logBase : Nat
  logSize : Nat
  producer : Word
  consumer : Word
  recordSeq : Nat
  overflow : List ChargeRecord
  work : List MeterWork
  burnQueue : List (Nat × BurnReason)
  burn : Option Burn
  burnsBegun : Nat
  checkpoint : Nat
  burnLimit : Nat
  monitor : Bool
  supplyIndex : Nat
  supplyLow : Bool
  warning : Bool
  deriving DecidableEq, Repr

/-! ## Events (Table 12-6) -/

/-- The reasons of WINDOW_ABANDONED (Table 12-6). -/
inductive AbandonReason where
  | holdTimeout | docFull | restart
  deriving DecidableEq, Repr

/-- The reasons of LINE_STATE (Table 12-1). -/
inductive LineReason where
  | modeApplied | lineMode | noDialTone | lineFault | lineOk
  deriving DecidableEq, Repr

/-- The reasons of CALL_MISSED (Table 12-1). -/
inductive MissReason where
  | stopped | refused | restart | lineFault
  deriving DecidableEq, Repr

/-- The entry that a screening refusal names (R157, R159). -/
structure Refusing where
  keyKind : KeyKind
  entry : Nat
  deriving DecidableEq, Repr

/-- The events with the fields of Table 12-6. -/
inductive Event where
  | ready (cause : ResetCause) (mib blocks : Nat) (clockSet : Bool)
  | orderDone (slot : Nat) (kind : Byte) (result : Result) (seq : Word) (values : List Nat)
  | pageSealed (page document position : Nat) (clipped : Bool) (lines coded : Nat)
  | docClosed (document : Nat) (origin : Origin) (pages : Nat) (truncated notQueued : Bool) (total : Nat)
  | docFreed (document pages blocks : Nat)
  | windowAbandoned (w : WindowId) (reason : AbandonReason) (document : Nat) (page : Option Nat) (handed : Nat)
  | guardHit (area : GuardArea) (addr : Nat)
  | scanState (state : ScanState) (reason : ScanReason) (document : Option Nat)
      (sheets sealedPages lines faults overruns : Nat)
  | lineState (u : UnitId) (reason : LineReason) (state : CallState) (mode : UnitMode) (pend : Option UnitMode)
  | callIn (u : UnitId) (rings : Nat) (glare : Bool) (number : Option Text)
  | callMissed (u : UnitId) (reason : MissReason) (screening : Option RefuseReason) (rings : Nat) (number : Option Text)
  | callRefused (u : UnitId) (reason : RefuseReason) (refusing : Option Refusing) (number station : Option Text)
  | destResult (entry document desk attempts : Nat) (u : Option UnitId) (state : EntryState)
      (result : AttemptResult) (confirmed : Nat) (orderSeq : Word) (bytes charge total : Nat)
  | destHeld (entry desk : Nat) (state : DeskState) (zone : Nat) (orderSeq : Word)
  | printDone (entry document : Nat) (reason : PrintReason) (copies ejected : Nat)
  | printerState (state old : PrinterState) (temperature : Nat) (abandoned : Option (Nat × Nat × Nat))
  | screenSwept (source : SweepSource) (removed occupied : Nat)
  | screenFull (u : UnitId) (station : Text)
  | meterBurn (desk : Nat) (outcome : BurnOutcome) (reason : Option BurnReason) (lifetime calls sequence : Nat)
  | deskState (desk : Nat) (new old : DeskState) (cause : DeskCause) (spent ceiling : Nat)
  | power (warning : Bool)
  deriving DecidableEq, Repr

/-- An event that a block has asked the Event Reporter to post (R79). -/
structure Posting where
  blk : Block
  event : Event
  deriving DecidableEq, Repr

/-- The Event Reporter (R79 to R83). `holdOff` says that the hold-off timer is running; `postings` are
the events asked for and not yet taken, in the order they were asked for; `given` holds the host writes of the
consumer index that have come while a write of the Event Reporter waits for room in the queue (R61). -/
structure Reporter where
  producer : Word
  consumer : Word
  missed : Nat
  holdOff : Bool
  postings : List Posting
  given : List Word
  deriving DecidableEq, Repr

/-- The settings of the Setup Block that no other field holds (Table 12-2). -/
structure Settings where
  controlBase : Nat
  eventBase : Nat
  receiveReserve : Nat
  ringsToAnswer : Nat
  badPercent : Nat
  badRun : Nat
  holdOffMs : Nat
  station : Text
  deriving DecidableEq, Repr

/-- The whole part, and the commands that wait to be taken. -/
structure State where
  mem : Memory
  memSize : MemSize
  cause : ResetCause
  part : PartState
  settings : Settings
  path : MemPath
  intake : Intake
  reporter : Reporter
  store : PageStore
  coder : Coder
  scanner : Scanner
  units : Quad LineUnit
  sendq : SendQueue
  screen : Screen
  print : PrintEngine
  meter : Meter
  pending : List Instr
  deriving DecidableEq, Repr

/-- The reasons a step stops with a fault. The manual gives every command of this part an effect, so
no command faults and the type has no constructor (safe). -/
inductive Fault where
  deriving DecidableEq, Repr

/-- The reasons a step is refused. -/
inductive Refusal where
  /-- Raised by exec's arm of a command that has no meaning yet (safe). No arm of this model raises it. -/
  | notModelled (mnemonic : String)
  deriving DecidableEq, Repr

/-! ## Reset -/

/-- The same value for every line unit. -/
def Quad.all {α : Type} (a : α) : Quad α := ⟨a, a, a, a⟩

/-- The clock at power-on reset (R180). -/
def Clock.reset : Clock := { day := 0, half := 0, unset := true, divider := 0 }

/-- A clock value nothing has set. DESIGN CHOICE (log entry 3). -/
def Stamp.zero : Stamp := { day := 0, half := 0, unset := true }

/-- An empty line slot (R53). -/
def Slot.clear : Slot := { state := .empty, bytes := [], marks := [] }

/-- A raster window after reset (R53). -/
def Window.reset : Window :=
  { state := .idle, document := none, pagesExpected := 0, pagesEnded := 0, page := none,
    mode := .fixed, width := .narrow, resolution := .normal, lineBytes := 0, linesExpected := 0,
    linesRemaining := 0, linesHanded := 0, sealPending := false, slotA := Slot.clear,
    slotB := Slot.clear, next := .a }

/-- The Memory Path after reset (R63): a held host access ends with no data and no bus error, DESIGN CHOICE
(log entry 57). -/
def MemPath.reset : MemPath :=
  { regions := [], posted := [], guards := [], win := ⟨Window.reset, Window.reset⟩, bus := .free,
    result := .none, queue := [], waiting := [], urgent := .lu0, cycle := 0, granted := none }

/-- The Order Intake after reset (R72). -/
def Intake.reset : Intake := { expected := 0, take := .waiting, finish := none, dump := none, restart := none }

/-- The Event Reporter after reset (R83). -/
def Reporter.reset : Reporter :=
  { producer := 0, consumer := 0, missed := 0, holdOff := false, postings := [], given := [] }

/-- The Page Store after reset (R19). -/
def PageStore.reset : PageStore :=
  { base := 0, blockCount := 0, free := [], links := [], pages := [], docs := [] }

/-- A Page Coder source after reset (R29). -/
def Source.reset : Source :=
  { page := none, document := 0, width := .narrow, resolution := .normal, ref := [], held := none,
    wait := none, continuation := false, queue := [], endSignal := false }

/-- The Page Coder after reset (R29). -/
def Coder.reset : Coder := { scan := Source.reset, win := ⟨Source.reset, Source.reset⟩, marker := .w0 }

/-- The Scanner Port after reset (R95), with the levels of its port as given. -/
def Scanner.resetWith (sheetPresent jam : Bool) (out : List ScannerMsg) : Scanner :=
  { state := .idle, before := .idle, document := none, desk := 0, target := .store, copies := 0,
    width := .narrow, resolution := .normal, sheetsBegun := 0, pagesSealed := 0, linesTaken := 0,
    widthFaults := 0, overruns := 0, beginPending := false, endPending := false, lastSheet := false,
    hold := false, fullPause := false, ackPending := false,
    buffer := [.empty, .empty, .empty, .empty], nextIn := 0, sheetPresent := sheetPresent, jam := jam,
    out := out }

/-- Statistics at 0 (R114). -/
def Stats.zero : Stats :=
  { callsOut := 0, callsIn := 0, bytesSent := 0, fillBytes := 0, underruns := 0, pagesSent := 0,
    pagesReceived := 0, redosSent := 0, redosReceived := 0, badLines := 0 }

/-- An idle transmit line recoder, both references all white (R40); the figures of a page are not in use, and
stand at values of the model (log entry 3). -/
def TxRecoder.reset : TxRecoder :=
  { page := none, width := .narrow, resolution := .normal,
    order := { station := [], rate := .r2400, form := .plain, resolution := .normal, width := .narrow,
               minLineTime := 0, pagesToCome := 0 },
    minimum := 0, offset := 0, linesLeft := 0, storedRef := [], outRef := [], out := [], fill := 0,
    ended := false, begun := false, wire := 0 }

/-- An idle receive recoder (R41). -/
def RxRecoder.reset : RxRecoder :=
  { state := .idle, page := none, document := 0, width := .narrow, ref := [], line := [],
    received := 0, bad := 0, run := 0, longest := 0, noRoom := none, clippedOff := false }

/-- A line unit after reset (R114), with the messages its link has carried. -/
def LineUnit.resetWith (out : List LinkMsg) : LineUnit :=
  { mode := .off, pendingMode := none, state := .off, role := none, entry := none, lead := [],
    dialFailures := 0, ringCount := 0, caller := none, verdict := .none, glare := false,
    answered := false, result := none, releaseTime := Stamp.zero, attemptBytes := 0, timer := none,
    stats := Stats.zero, handOver := none, callerSession := none, answerer := none, tx := TxRecoder.reset,
    txFifo := [], rx := RxRecoder.reset, rxFifo := [], out := out }

/-- The Send Queue after reset (R137). -/
def SendQueue.reset : SendQueue := { entries := [], finals := [], readySeq := 0, keepForReceive := 0, reports := [] }

/-- The Caller Screen after reset (R167). -/
def Screen.reset : Screen :=
  { entries := [], mode := .opened, learn := Quad.all false, ringMatch := Quad.all none,
    pacingPeriod := 0, agePeriod := 0, pacing := none, age := none, sweep := none,
    fullReported := false }

/-- The Print Engine after reset (R168), with the levels of its port as given. The line position is 0 and the reference
line all white: DESIGN CHOICE (log entry 78). -/
def PrintEngine.resetWith (paperPresent coverClosed : Bool) (out : List PrinterMsg) : PrintEngine :=
  { entries := [], arrivals := 0, current := none, sheet := .noSheet, position := 0, ref := [], decoder := none,
    temperature := 25, hot := false, state := .ready, draining := false,
    sounder := { flash := none, paper := none, flashReload := 0, paperReload := 0 },
    strobeBase := 0, strobeSlope := 0, paperPresent := paperPresent, coverClosed := coverClosed,
    out := out }

/-- The empty tariff (R181). -/
def Tariff.empty : Tariff :=
  { zones := [(0, { digits := [], setup := 0, len := ⟨7200, 7200, 7200⟩, price := ⟨0, 0, 0⟩ })],
    weekend := 0, weekdayRow := List.replicate 24 Band.peak, weekendRow := List.replicate 24 Band.peak }

/-- The Meter after reset, with the clock, the nonvolatile cells and the supply level as given
(R180, R181, R187, R192, R194, R196, R197). -/
def Meter.resetWith (clock : Clock) (cells : Table StoreCell) (supplyLow : Bool) : Meter :=
  { clock := clock, tariff := Tariff.empty, recs := Quad.all none, desks := [], cells := cells,
    logBase := 0, logSize := 0, producer := 0, consumer := 0, recordSeq := 0, overflow := [],
    work := [], burnQueue := [], burn := none, burnsBegun := 0, checkpoint := 0, burnLimit := 0, monitor := false, supplyIndex := 0,
    supplyLow := supplyLow, warning := false }

/-- Settings before a Setup Block is taken. DESIGN CHOICE (log entry 3): the manual calls them unknown. -/
def Settings.reset : Settings :=
  { controlBase := 0, eventBase := 0, receiveReserve := 0, ringsToAnswer := 0, badPercent := 0,
    badRun := 0, holdOffMs := 0, station := [] }

/-- The part right after power-on reset: memory with nothing written, straps at 16 MiB, an empty tray,
paper loaded, the cover shut and the supply good (DESIGN CHOICE, log entry 4), RELEASE sent on each link
(R114), and no command waiting. -/
def State.reset : State :=
  { mem := [], memSize := .m16, cause := .powerOn, part := .unconfigured, settings := Settings.reset,
    path := MemPath.reset, intake := Intake.reset, reporter := Reporter.reset, store := PageStore.reset,
    coder := Coder.reset, scanner := Scanner.resetWith false false [],
    units := Quad.all (LineUnit.resetWith [.release]), sendq := SendQueue.reset, screen := Screen.reset,
    print := PrintEngine.resetWith true true [], meter := Meter.resetWith Clock.reset [] false,
    pending := [] }

end Sys2Proof.Machine
end

