-- ==== Sys2Proof/Machine/Bytes.lean ====
section
/-! DEFINITION. Byte order, text fields, body placement, and the small operations on numbers and
sparse tables that every block uses (section 12.1). -/

namespace Sys2Proof.Machine

open Sys2Proof

/-- A sum that stays at its largest value `cap` (Table 0-3, "saturating"). -/
def satAdd (cap a b : Nat) : Nat := min cap (a + b)

/-- The quotient rounded up. -/
def ceilDiv (a b : Nat) : Nat := (a + b - 1) / b

/-- The value brought into range (Table 0-3, "clamped"). -/
def clampTo (low high v : Nat) : Nat := max low (min high v)

/-- A value with 0 taken as `d` (R128, R194). -/
def zeroAs (d v : Nat) : Nat := if v = 0 then d else v

/-- One byte of a number. -/
def byteOf (v : Nat) : Byte := BitVec.ofNat 8 v

/-- A number of `n` bytes, least significant byte first (R199). -/
def leBytes : Nat → Nat → List Byte
  | 0, _ => []
  | n + 1, v => byteOf v :: leBytes n (v / 256)

/-- The number that bytes hold, least significant byte first (R199). -/
def leValue : List Byte → Nat
  | [] => 0
  | b :: t => b.toNat + 256 * leValue t

/-- `n` zero bytes. -/
def zeroBytes (n : Nat) : List Byte := List.replicate n 0

/-- Bytes cut or padded with 0 to length `n`. -/
def fitBytes (n : Nat) (bs : List Byte) : List Byte := bs.take n ++ zeroBytes (n - bs.length)

/-- A text field of width `w`: the text's length, then its characters, padded with 0 (R199). A text
longer than the field keeps its full length in the length byte, as event records require. -/
def textField (w : Nat) (t : Text) : List Byte := byteOf t.length :: fitBytes (w - 1) t

/-- The text of a text field of width `w`, or none where its length byte is above w − 1 (R199). -/
def readText (w : Nat) (bs : List Byte) : Option Text :=
  match bs with
  | [] => none
  | n :: t => if n.toNat ≤ w - 1 then some (t.take n.toNat) else none

/-- A flag byte (R199). -/
def flagByte (b : Bool) : List Byte := [if b then 1 else 0]

/-- One field of a body: a number of 1, 2, 4 or 8 bytes, or raw bytes with no alignment. -/
inductive Field where
  | num (size value : Nat)
  | raw (bytes : List Byte)

/-- Body fields placed one after another from offset `off`; a number of 2, 4 or 8 bytes begins at a
multiple of its size (R199, "Order and tariff bodies"). -/
def placeBody : Nat → List Field → List Byte
  | _, [] => []
  | off, .raw bs :: rest => bs ++ placeBody (off + bs.length) rest
  | off, .num n v :: rest =>
    let pad := (n - off % n) % n
    zeroBytes pad ++ leBytes n v ++ placeBody (off + pad + n) rest

/-- The clock word of R199. -/
def Stamp.word (t : Stamp) : Nat :=
  t.half % 262144 + (t.day % 8) * 16777216 + (if t.unset then 2147483648 else 0)

/-- The value the clock holds now (R180). -/
def Clock.stamp (c : Clock) : Stamp := { day := c.day, half := c.half, unset := c.unset }

/-! ## Sparse tables -/

/-- The record with a number, or none where the number is free. -/
def tget {α : Type} : Table α → Nat → Option α
  | [], _ => none
  | (k, v) :: t, n => if k = n then some v else tget t n

/-- The table with the record of one number set. -/
def tset {α : Type} : Table α → Nat → α → Table α
  | [], n, a => [(n, a)]
  | (k, v) :: t, n, a =>
    if n < k then (n, a) :: (k, v) :: t
    else if n = k then (n, a) :: t
    else (k, v) :: tset t n a

/-- The table with one number made free. -/
def tdel {α : Type} (t : Table α) (n : Nat) : Table α := t.filter (fun p => p.1 ≠ n)

/-- The record of one number changed where it is in use. -/
def tmod {α : Type} (t : Table α) (n : Nat) (f : α → α) : Table α :=
  t.map (fun p => if p.1 = n then (p.1, f p.2) else p)

/-- The lowest free number from `k` on, among `fuel` numbers. -/
def firstFree {α : Type} (t : Table α) : Nat → Nat → Option Nat
  | 0, _ => none
  | fuel + 1, k => match tget t k with
    | none => some k
    | some _ => firstFree t fuel (k + 1)

/-- The lowest free number below `limit`. -/
def lowestFree {α : Type} (limit : Nat) (t : Table α) : Option Nat := firstFree t limit 0

/-- A set of numbers, rising, with one more member. -/
def insertNum : Nat → List Nat → List Nat
  | n, [] => [n]
  | n, k :: t => if n < k then n :: k :: t else if n = k then k :: t else k :: insertNum n t

/-- A set of numbers less one member. -/
def dropNum (n : Nat) (t : List Nat) : List Nat := t.filter (fun k => k ≠ n)

/-- A list sorted by a strict order, equal elements kept in their order. -/
def insertBy {α : Type} (lt : α → α → Bool) (a : α) : List α → List α
  | [] => [a]
  | b :: t => if lt a b then a :: b :: t else b :: insertBy lt a t

/-- Insertion sort by a strict order. -/
def sortBy {α : Type} (lt : α → α → Bool) (l : List α) : List α := l.foldl (fun acc a => insertBy lt a acc) []

/-! ## One value for each unit and window -/

/-- The value of one unit. -/
def Quad.get {α : Type} (q : Quad α) : UnitId → α
  | .lu0 => q.u0
  | .lu1 => q.u1
  | .lu2 => q.u2
  | .lu3 => q.u3

/-- One unit's value set. -/
def Quad.set {α : Type} (q : Quad α) (u : UnitId) (a : α) : Quad α :=
  match u with
  | .lu0 => { q with u0 := a }
  | .lu1 => { q with u1 := a }
  | .lu2 => { q with u2 := a }
  | .lu3 => { q with u3 := a }

/-- The unit numbers (Table 6-2). -/
def unitNum : UnitId → Nat
  | .lu0 => 0
  | .lu1 => 1
  | .lu2 => 2
  | .lu3 => 3

/-- The unit of a number, or none above 3. -/
def unitOf : Nat → Option UnitId
  | 0 => some .lu0
  | 1 => some .lu1
  | 2 => some .lu2
  | 3 => some .lu3
  | _ => none

/-- Every unit, lowest first. -/
def allUnits : List UnitId := [.lu0, .lu1, .lu2, .lu3]

/-- The unit tried next after `u` (R62): unit 3 is followed by unit 0. -/
def unitAfter : UnitId → UnitId
  | .lu0 => .lu1
  | .lu1 => .lu2
  | .lu2 => .lu3
  | .lu3 => .lu0

/-- The value of one window. -/
def Pair.get {α : Type} (p : Pair α) : WindowId → α
  | .w0 => p.w0
  | .w1 => p.w1

/-- One window's value set. -/
def Pair.set {α : Type} (p : Pair α) (w : WindowId) (a : α) : Pair α :=
  match w with
  | .w0 => { p with w0 := a }
  | .w1 => { p with w1 := a }

/-- The window numbers (R50). -/
def windowNum : WindowId → Nat
  | .w0 => 0
  | .w1 => 1

/-- The other window (R31). -/
def otherWindow : WindowId → WindowId
  | .w0 => .w1
  | .w1 => .w0

/-- The value of one band. -/
def PerBand.get {α : Type} (p : PerBand α) : Band → α
  | .peak => p.peak
  | .shoulder => p.shoulder
  | .night => p.night

/-- One band's value set. -/
def PerBand.set {α : Type} (p : PerBand α) (b : Band) (a : α) : PerBand α :=
  match b with
  | .peak => { p with peak := a }
  | .shoulder => { p with shoulder := a }
  | .night => { p with night := a }

end Sys2Proof.Machine
end

