-- ==== Sys2Proof/Machine/Ops.lean ====
section
/-! DEFINITION. The named operations over page memory, the pending-write queue and the event postings,
and the accessors of the larger records. -/

namespace Sys2Proof.Machine

open Sys2Proof

/-! ## Page memory -/

/-- The byte at an address; an unlisted address reads as `Config.unwrittenByte`. -/
def Memory.read : Memory → Nat → Byte
  | [], _ => Config.unwrittenByte
  | (k, b) :: t, a => if k = a then b else Memory.read t a

/-- Page memory with one byte written, in canonical form. -/
def Memory.write : Memory → Nat → Byte → Memory
  | [], a, b => if b = Config.unwrittenByte then [] else [(a, b)]
  | (k, c) :: t, a, b =>
    if a < k then (if b = Config.unwrittenByte then (k, c) :: t else (a, b) :: (k, c) :: t)
    else if a = k then (if b = Config.unwrittenByte then t else (a, b) :: t)
    else (k, c) :: Memory.write t a b

/-- The canonical form above a bound: addresses strictly rising, no entry as an unlisted byte reads. -/
def Memory.wfFrom : Nat → Memory → Bool
  | _, [] => true
  | n, (k, b) :: t => decide (n ≤ k) && decide (b ≠ Config.unwrittenByte) && Memory.wfFrom (k + 1) t

/-- Page memory is in canonical form. -/
def Memory.wf (m : Memory) : Bool := Memory.wfFrom 0 m

/-- Bytes written from an address on. -/
def Memory.writeBytes : Memory → Nat → List Byte → Memory
  | m, _, [] => m
  | m, a, b :: t => Memory.writeBytes (Memory.write m a b) (a + 1) t

/-- The enabled lanes of a host write carried to page memory (R45). -/
def Memory.writeLanes : Memory → Nat → List Lane → Memory
  | m, _, [] => m
  | m, a, none :: t => Memory.writeLanes m (a + 1) t
  | m, a, some b :: t => Memory.writeLanes (Memory.write m a b) (a + 1) t

/-- `n` bytes from an address on. -/
def Memory.readBytes (m : Memory) : Nat → Nat → List Byte
  | _, 0 => []
  | a, n + 1 => Memory.read m a :: Memory.readBytes m (a + 1) n

/-- The bytes of page memory that the straps select (section 3.1). -/
def memBytes : MemSize → Nat
  | .m16 => 16777216
  | .m32 => 33554432
  | .m64 => 67108864

/-- The size in MiB that READY carries (R83). -/
def memMiB : MemSize → Nat
  | .m16 => 16
  | .m32 => 32
  | .m64 => 64

/-! ## The pending-write queue (R61) -/

/-- Two runs of bytes overlap. -/
def overlaps (a n b m : Nat) : Bool := decide (0 < n ∧ 0 < m ∧ a < b + m ∧ b < a + n)

/-- Every write issued and not performed, oldest first. -/
def MemPath.pendingWrites (p : MemPath) : List PendingWrite := p.queue ++ p.waiting

/-- A pending write overlaps a run of bytes. -/
def MemPath.blocked (p : MemPath) (a n : Nat) : Bool :=
  p.pendingWrites.any (fun w => overlaps a n w.addr w.bytes.length)

/-- The byte that pending writes will leave at an address, the latest issued last. -/
def overlay : List PendingWrite → Nat → Option Byte → Option Byte
  | [], _, r => r
  | w :: t, a, r =>
    overlay t a (if w.addr ≤ a then (match w.bytes[a - w.addr]? with | some b => some b | none => r) else r)

/-- A byte as a read of the part returns it. Such a read is held behind overlapping pending writes and
then returns the written data (R61), so its value is what memory holds once they are performed. -/
def State.readByte (s : State) (a : Nat) : Byte :=
  match overlay s.path.pendingWrites a none with
  | some b => b
  | none => Memory.read s.mem a

/-- `n` bytes as a read of the part returns them (R61). -/
def State.readThrough (s : State) : Nat → Nat → List Byte
  | _, 0 => []
  | a, n + 1 => s.readByte a :: s.readThrough (a + 1) n

/-- A number of `n` bytes at an address, as a read of the part returns it. -/
def State.readNum (s : State) (a n : Nat) : Nat := leValue (s.readThrough a n)

/-- One write placed in the queue, or behind the writes that wait for room (R61). -/
def MemPath.enqueue (p : MemPath) (w : PendingWrite) : MemPath :=
  if p.waiting = [] ∧ p.queue.length < Config.queueWrites then { p with queue := p.queue ++ [w] }
  else { p with waiting := p.waiting ++ [w] }

/-- Bytes cut into writes of up to 64 bytes within one 4 KiB page of memory (R61). -/
def splitWrite : Nat → Nat → List Byte → List (Nat × List Byte)
  | 0, _, _ => []
  | _ + 1, _, [] => []
  | fuel + 1, a, bs =>
    let n := min Config.writeBytes (Config.memPage - a % Config.memPage)
    (a, bs.take n) :: splitWrite fuel (a + n) (bs.drop n)

/-- A block issues a write of bytes at an address (R61). `clears` tags the write that clears an order
slot's post word. -/
def MemPath.issue (p : MemPath) (blk : Block) (a : Nat) (bs : List Byte) (clears : Option Nat) : MemPath :=
  (splitWrite bs.length a bs).foldl
    (fun q x => q.enqueue { blk := blk, addr := x.1, bytes := x.2, clears := clears }) p

/-- A block issues a write (R61). -/
def State.issue (s : State) (blk : Block) (a : Nat) (bs : List Byte) : State :=
  { s with path := s.path.issue blk a bs none }

/-- A block has a write that waits for room in the queue, and does nothing further until it has been
issued (R61). -/
def State.stalled (s : State) (blk : Block) : Bool := s.path.waiting.any (fun w => decide (w.blk = blk))

/-- The Meter waits (R61): a write of it waits for room, or it has still to do what it was given meanwhile. -/
def State.meterWaits (s : State) : Bool := s.stalled .meter || decide (s.meter.work ≠ [])

/-! ## Events -/

/-- A block asks the Event Reporter to post an event (R79). -/
def State.post (s : State) (blk : Block) (e : Event) : State :=
  { s with reporter := { s.reporter with postings := s.reporter.postings ++ [{ blk := blk, event := e }] } }

/-- The clock value (R180). -/
def State.now (s : State) : Stamp := s.meter.clock.stamp

/-! ## Accessors -/

/-- One line unit. -/
def State.unit (s : State) (u : UnitId) : LineUnit := s.units.get u

/-- One line unit changed. -/
def State.modUnit (s : State) (u : UnitId) (f : LineUnit → LineUnit) : State :=
  { s with units := s.units.set u (f (s.units.get u)) }

/-- A unit issues a message on its link (R96). -/
def State.sendLink (s : State) (u : UnitId) (m : LinkMsg) : State :=
  s.modUnit u (fun l => { l with out := l.out ++ [m] })

/-- One window changed. -/
def State.modWindow (s : State) (w : WindowId) (f : Window → Window) : State :=
  { s with path := { s.path with win := s.path.win.set w (f (s.path.win.get w)) } }

/-- One window. -/
def State.window (s : State) (w : WindowId) : Window := s.path.win.get w

/-- One source of the Page Coder. -/
def State.source (s : State) : SourceId → Source
  | .scan => s.coder.scan
  | .win w => s.coder.win.get w

/-- One source of the Page Coder changed. -/
def State.modSource (s : State) (i : SourceId) (f : Source → Source) : State :=
  match i with
  | .scan => { s with coder := { s.coder with scan := f s.coder.scan } }
  | .win w => { s with coder := { s.coder with win := s.coder.win.set w (f (s.coder.win.get w)) } }

/-- The document record of an id, or none where the id is unused. -/
def State.doc (s : State) (d : Nat) : Option Doc := tget s.store.docs d

/-- One document record changed. -/
def State.modDoc (s : State) (d : Nat) (f : Doc → Doc) : State :=
  { s with store := { s.store with docs := tmod s.store.docs d f } }

/-- The page record of a number, or none where it is FREE. -/
def State.page (s : State) (p : Nat) : Option PageRec := tget s.store.pages p

/-- One page record changed. -/
def State.modPage (s : State) (p : Nat) (f : PageRec → PageRec) : State :=
  { s with store := { s.store with pages := tmod s.store.pages p f } }

/-- A destination entry, or none where the id is free. -/
def State.entry (s : State) (i : Nat) : Option DestEntry := tget s.sendq.entries i

/-- One destination entry changed. -/
def State.modEntry (s : State) (i : Nat) (f : DestEntry → DestEntry) : State :=
  { s with sendq := { s.sendq with entries := tmod s.sendq.entries i f } }

/-- A print entry, or none where the number is free. -/
def State.printEntry (s : State) (i : Nat) : Option PrintEntry := tget s.print.entries i

/-- One print entry changed. -/
def State.modPrintEntry (s : State) (i : Nat) (f : PrintEntry → PrintEntry) : State :=
  { s with print := { s.print with entries := tmod s.print.entries i f } }

/-- A desk account, or none before the Setup Block is taken (R196). -/
def State.desk (s : State) (d : Nat) : Option Desk := tget s.meter.desks d

/-- One desk account changed. -/
def State.modDesk (s : State) (d : Nat) (f : Desk → Desk) : State :=
  { s with meter := { s.meter with desks := tmod s.meter.desks d f } }

/-- A meter store cell; a cell never written reads GOOD with all values 0 (R193). -/
def State.storeCell (s : State) (d : Nat) : StoreCell :=
  match tget s.meter.cells d with
  | some c => c
  | none => { lifetime := 0, calls := 0, sequence := 0, torn := false, writing := false }

/-- A meter store cell written. -/
def State.setCell (s : State) (d : Nat) (c : StoreCell) : State :=
  { s with meter := { s.meter with cells := tset s.meter.cells d c } }

/-- Folds an operation over a list of numbers. -/
def eachNum (l : List Nat) (f : Nat → State → State) (s : State) : State := l.foldl (fun t n => f n t) s

/-- Folds an operation over the units, lowest first. -/
def eachUnit (f : UnitId → State → State) (s : State) : State := allUnits.foldl (fun t u => f u t) s

end Sys2Proof.Machine
end

