-- ==== Sys2Proof/Machine/Flags.lean ====
section
/-! DEFINITION. The levels and states that follow from others: the interrupt line, feed pause, the
stall timer's running, a desk's state, the printer's state, and the free records of the rings. -/

namespace Sys2Proof.Machine

open Sys2Proof

/-- Unread records of the Event Ring, producer less consumer modulo 2^32 (R79). -/
def Reporter.unread (r : Reporter) : Nat := (r.producer - r.consumer).toNat

/-- The interrupt line: asserted while the ring holds unread records and the hold-off timer is not
running (R82). -/
def State.interruptLine (s : State) : Bool := decide (0 < s.reporter.unread) && !s.reporter.holdOff

/-- A session is active (Table 5-1). -/
def Scanner.active (c : Scanner) : Bool :=
  match c.state with
  | .feeding | .scanning | .paused => true
  | .idle | .jammed => false

/-- Feed pause (R85, R87): asserted while no session is active, for a full buffer, in the inter-sheet
hold, and until the scanner acknowledges the mode. -/
def Scanner.feedPause (c : Scanner) : Bool := !c.active || c.fullPause || c.hold || c.ackPending

/-- The EMPTY buffer lines (R85). -/
def Scanner.emptyLines (c : Scanner) : Nat := (c.buffer.filter (fun b => decide (b = .empty))).length

/-- The stall timer runs: feed pause is asserted by the full buffer or the hold, and the scanner source
waits for memory (R92). -/
def State.stallRunning (s : State) : Bool :=
  s.scanner.active && (s.scanner.fullPause || s.scanner.hold)
    && (s.scanner.beginPending || decide (s.coder.scan.wait = some .block)
        || decide (s.coder.scan.wait = some .pageRecord))

/-- A desk's state as its flags and totals give it (R188). -/
def Desk.derived (d : Desk) : DeskState :=
  if d.audit then .audit
  else if d.closed then .closed
  else if d.ceiling ≠ Config.max32 ∧ d.ceiling ≤ d.spent then .held
  else .opened

/-- The amount of a desk not yet in its cell or in its burn in progress (R194). -/
def Desk.pendingAmount (d : Desk) : Nat :=
  match d.captured with
  | some c => d.working - c.1
  | none => d.working - d.burned

/-- Unread records of the Charge Log (R192). -/
def Meter.unread (m : Meter) : Nat := (m.producer - m.consumer).toNat

/-- The Charge Log has a free record (R192). -/
def Meter.logRoom (m : Meter) : Bool := decide (m.unread < m.logSize)

/-- The printer state as the levels, the hot flag and the head give it (R173). -/
def PrintEngine.derived (p : PrintEngine) : PrinterState :=
  if !p.coverClosed then .coverOpen
  else if !p.paperPresent then .paperOut
  else if p.hot then .headHot
  else if p.current ≠ none ∨ p.draining then .printing
  else .ready

/-- The sounder's output: the pattern that owns it and its reload value, where it sounds (R178). -/
def Sounder.output (s : Sounder) : Option (Pattern × Nat) :=
  match s.flash with
  | some ph => if ph % 2 = 0 ∧ s.flashReload ≠ 0 then some (.flash, s.flashReload) else none
  | none => match s.paper with
    | some true => if s.paperReload ≠ 0 then some (.paper, s.paperReload) else none
    | _ => none

/-- The part is under a RESTART (R77, R78). -/
def State.restarting (s : State) : Bool := s.intake.restart.isSome

/-- The strobe duty from the strobe base, the slope and the last temperature (R176). -/
def strobeDuty (base slope temperature : Nat) : Nat :=
  let q := Int.tdiv (((temperature : Int) - 25) * slope) 16
  (max 20 (min 95 ((base : Int) - q))).toNat

/-- The band in force at a clock value (R184). -/
def Tariff.bandAt (t : Tariff) (c : Stamp) : Band :=
  if c.unset then .peak
  else
    let row := if t.weekend.getLsbD c.day then t.weekendRow else t.weekdayRow
    row.getD (c.half / 7200) .peak

/-- A zone with any price above 0 (R183). -/
def Zone.priced (z : Zone) : Bool :=
  decide (0 < z.setup ∨ 0 < z.price.peak ∨ 0 < z.price.shoulder ∨ 0 < z.price.night)

/-- The bytes that the receive FIFO holds; marks take no room (R42). -/
def fifoBytesHeld (q : List RxItem) : Nat :=
  (q.filter (fun x => match x with
    | .byte _ => true
    | _ => false)).length

end Sys2Proof.Machine
end

