-- ==== Sys2Proof/Machine/Codes.lean ====
section
/-! DEFINITION. The codes of the enumerations (R199, Table 12-1), their readings, and the checks of
frame fields (R116, R200). -/

namespace Sys2Proof.Machine

open Sys2Proof

/-- The result codes (Table 12-1). -/
def resultCode : Result → Nat
  | .accepted => 1
  | .badOrder => 2
  | .full => 3
  | .noSuch => 4
  | .busy => 5
  | .state => 6
  | .already => 7

/-- The order kind codes: the rows of Table 4-4. -/
def orderCode : OrderKind → Nat
  | .scan => 1
  | .openWindowPage => 2
  | .closeWindowPage => 3
  | .closeDocument => 4
  | .keep => 5
  | .release => 6
  | .deleteDocument => 7
  | .send => 8
  | .cancel => 9
  | .print => 10
  | .cancelPrint => 11
  | .screenAdd => 12
  | .screenRemove => 13
  | .screenClear => 14
  | .sweep => 15
  | .screenMode => 16
  | .setClock => 17
  | .loadTariff => 18
  | .setDesk => 19
  | .closePeriod => 20
  | .auditClear => 21
  | .flushMeter => 22
  | .lineMode => 23
  | .dump => 24
  | .restart => 25

/-- A treatment code (Table 12-1). -/
def treatmentOf (c : Nat) : Option Treatment :=
  if c = 1 then some .pass else if c = 2 then some .guard else if c = 3 then some .raster else none

/-- Width class codes. -/
def widthCode : Width → Nat
  | .narrow => 1
  | .standard => 2
  | .broad => 3

/-- A width class code read. -/
def widthOf (c : Nat) : Option Width :=
  if c = 1 then some .narrow else if c = 2 then some .standard else if c = 3 then some .broad else none

/-- Resolution codes. -/
def resolutionCode : Resolution → Nat
  | .normal => 1
  | .fine => 2

/-- A resolution code read. -/
def resolutionOf (c : Nat) : Option Resolution :=
  if c = 1 then some .normal else if c = 2 then some .fine else none

/-- Form codes. -/
def formCode : Form → Nat
  | .plain => 1
  | .full => 2

/-- A form code read. -/
def formOf (c : Nat) : Option Form := if c = 1 then some .plain else if c = 2 then some .full else none

/-- Rate codes. -/
def rateCode : Rate → Nat
  | .r2400 => 1
  | .r4800 => 2
  | .r7200 => 3
  | .r9600 => 4
  | .r12000 => 5

/-- A rate code read. -/
def rateOf (c : Nat) : Option Rate :=
  if c = 1 then some .r2400 else if c = 2 then some .r4800 else if c = 3 then some .r7200
  else if c = 4 then some .r9600 else if c = 5 then some .r12000 else none

/-- A rate in bit/s. -/
def rateBits : Rate → Nat
  | .r2400 => 2400
  | .r4800 => 4800
  | .r7200 => 7200
  | .r9600 => 9600
  | .r12000 => 12000

/-- The next rate below, or none below 2400 (section 7.1). -/
def rateBelow : Rate → Option Rate
  | .r2400 => none
  | .r4800 => some .r2400
  | .r7200 => some .r4800
  | .r9600 => some .r7200
  | .r12000 => some .r9600

/-- The lower of two rates (R120). -/
def rateMin (a b : Rate) : Rate := if rateCode a ≤ rateCode b then a else b

/-- The narrower of two width classes (R120). -/
def widthMin (a b : Width) : Width := if widthCode a ≤ widthCode b then a else b

/-- Band codes. -/
def bandOf (c : Nat) : Option Band :=
  if c = 1 then some .peak else if c = 2 then some .shoulder else if c = 3 then some .night else none

/-- Send priority codes. -/
def priorityCode : Priority → Nat
  | .flash => 1
  | .urgent => 2
  | .routine => 3

/-- A send priority code read. -/
def priorityOf (c : Nat) : Option Priority :=
  if c = 1 then some .flash else if c = 2 then some .urgent else if c = 3 then some .routine else none

/-- Print priority codes. -/
def printPriorityCode : PrintPriority → Nat
  | .flash => 1
  | .ordinary => 2

/-- A print priority code read. -/
def printPriorityOf (c : Nat) : Option PrintPriority :=
  if c = 1 then some .flash else if c = 2 then some .ordinary else none

/-- Unit mode codes. -/
def unitModeCode : UnitMode → Nat
  | .off => 1
  | .receive => 2
  | .send => 3
  | .both => 4

/-- A unit mode code read. -/
def unitModeOf (c : Nat) : Option UnitMode :=
  if c = 1 then some .off else if c = 2 then some .receive else if c = 3 then some .send
  else if c = 4 then some .both else none

/-- Attempt result codes (Table 12-1). -/
def attemptCode : AttemptResult → Nat
  | .success => 1
  | .noDialTone => 2
  | .dialFailed => 3
  | .busy => 4
  | .noAnswer => 5
  | .receiverNotReady => 6
  | .notFax => 7
  | .checkFailed => 8
  | .pageFailed => 9
  | .refused => 10
  | .lineLost => 11
  | .lineFault => 12
  | .aborted => 13
  | .glare => 14
  | .cancelled => 15

/-- Scan target codes (Table 12-5). -/
def scanTargetOf (c : Nat) : Option ScanTarget :=
  if c = 1 then some .sendReady else if c = 2 then some .copy else if c = 3 then some .store else none

/-- Window mode codes (Table 12-5). -/
def windowModeOf (c : Nat) : Option WindowMode :=
  if c = 1 then some .fixed else if c = 2 then some .indexed else none

/-- Screening mode codes (Table 12-5). -/
def screenModeOf (c : Nat) : Option ScreenMode :=
  if c = 1 then some .opened else if c = 2 then some .denyListed else if c = 3 then some .listedOnly else none

/-- Key kind codes (Table 12-5). -/
def keyKindCode : KeyKind → Nat
  | .number => 1
  | .station => 2

/-- A key kind code read. -/
def keyKindOf (c : Nat) : Option KeyKind :=
  if c = 1 then some .number else if c = 2 then some .station else none

/-- Screen entry kind codes (Table 12-5). -/
def screenKindCode : ScreenKind → Nat
  | .allow => 1
  | .deny => 2
  | .learned => 3

/-- A screen entry kind code read. -/
def screenKindOf (c : Nat) : Option ScreenKind :=
  if c = 1 then some .allow else if c = 2 then some .deny else if c = 3 then some .learned else none

/-- PAGE END kind codes (section 12.5). -/
def pageEndCode : PageEndKind → Nat
  | .more => 1
  | .mode => 2
  | .last => 3

/-- A PAGE END kind code read. -/
def pageEndOf (c : Nat) : Option PageEndKind :=
  if c = 1 then some .more else if c = 2 then some .mode else if c = 3 then some .last else none

/-- Dump kind codes (R73). -/
def dumpCode : DumpKind → Nat
  | .documents => 1
  | .pages => 2
  | .sendQueue => 3
  | .screenTable => 4
  | .desks => 5
  | .lineStatistics => 6

/-- A dump kind code read. -/
def dumpKindOf (c : Nat) : Option DumpKind :=
  if c = 1 then some .documents else if c = 2 then some .pages else if c = 3 then some .sendQueue
  else if c = 4 then some .screenTable else if c = 5 then some .desks
  else if c = 6 then some .lineStatistics else none

/-- Origin codes (Table 1-1). -/
def originCode : Origin → Nat
  | .scan => 1
  | .window => 2
  | .received => 3

/-- Page state codes; FREE is 1 (Table 1-1). -/
def pageStateCode : PageState → Nat
  | .filling => 2
  | .sealed => 3

/-- Document state codes; unused is 1 (Table 1-2). -/
def docStateCode : DocState → Nat
  | .opened => 2
  | .closed => 3

/-- Destination entry state codes; free is 1 (Table 8-1). -/
def entryStateCode : EntryState → Nat
  | .waiting => 2
  | .ready => 3
  | .held => 4
  | .active => 5
  | .retryWait => 6
  | .done => 7
  | .failed => 8
  | .cancelled => 9

/-- Desk state codes (Table 11-5). -/
def deskStateCode : DeskState → Nat
  | .opened => 1
  | .held => 2
  | .audit => 3
  | .closed => 4

/-- Unit state codes (Table 6-2). -/
def callStateCode : CallState → Nat
  | .off => 1
  | .idle => 2
  | .ringing => 3
  | .seizing => 4
  | .dialling => 5
  | .awaitAnswer => 6
  | .inSession => 7
  | .clearing => 8
  | .blocked => 9

/-- Role codes (Table 6-2). -/
def roleCode : Role → Nat
  | .caller => 1
  | .answerer => 2

/-- CALL_REFUSED reason codes (Table 9-2). -/
def refuseCode : RefuseReason → Nat
  | .denied => 1
  | .notListed => 2
  | .budget => 3
  | .noOrder => 4
  | .notReady => 5
  | .badOrder => 6
  | .noDocument => 7

/-- Burn reason codes (Table 12-1). -/
def burnReasonCode : BurnReason → Nat
  | .threshold => 1
  | .closePeriod => 2
  | .flush => 3
  | .auditClear => 4
  | .power => 5

/-- Setup fault codes: the checks of Table 3-3 in order. -/
inductive SetupFault where
  | badTreatment | badRegion | tooManyWindows | logSize | badBase | outside | overlapSetup
  | overlapRegions | overlapRings | overlapWindow
  deriving DecidableEq, Repr

/-- The code of a setup fault (Table 12-1). -/
def setupFaultCode : SetupFault → Nat
  | .badTreatment => 1
  | .badRegion => 2
  | .tooManyWindows => 3
  | .logSize => 4
  | .badBase => 5
  | .outside => 6
  | .overlapSetup => 7
  | .overlapRegions => 8
  | .overlapRings => 9
  | .overlapWindow => 10

/-- The code of a value that may be absent: 0 stands for absent (R199). -/
def optCode {α : Type} (f : α → Nat) : Option α → Nat
  | some a => f a
  | none => 0

/-- A one-byte id that may be none (R199). -/
def optId1 : Option Nat → Nat
  | some n => n
  | none => 0xFF

/-- A two-byte id that may be none (R199). -/
def optId2 : Option Nat → Nat
  | some n => n
  | none => 0xFFFF

/-! ## Character sets -/

/-- A digit 0 to 9. -/
def isDigit (c : Byte) : Bool := decide (0x30 ≤ c.toNat ∧ c.toNat ≤ 0x39)

/-- A dial character: a digit, `*`, `#` or the pause mark (section 0.6). -/
def isDial (c : Byte) : Bool := isDigit c || decide (c = 0x2A ∨ c = 0x23 ∨ c = 0x2C)

/-- The pause mark (section 0.6). -/
def pauseMark : Byte := 0x2C

/-- A character of a NUMBER key (R154). -/
def isNumberKey (c : Byte) : Bool := isDigit c || decide (c = 0x2A ∨ c = 0x23)

/-- A character of a STATION key (R154). -/
def isStationKey (c : Byte) : Bool := decide (0x20 ≤ c.toNat ∧ c.toNat ≤ 0x7E)

/-! ## Frame checks (R116) -/

/-- A min line time is one of the five values. -/
def lineTimeOk (b : Byte) : Bool := decide (b.toNat ∈ [0, 5, 10, 20, 40])

/-- A flag byte as the part reads it: any nonzero value is set (R199). -/
def flagOf (b : Byte) : Bool := decide (b ≠ 0)

/-- An OFFER whose fields all lie in their sets, or none: it is then treated as corrupt (R116). -/
def checkOffer (f : OfferFields) : Option OfferMode :=
  match rateOf f.maxRate.toNat, formOf f.forms.toNat, widthOf f.maxWidth.toNat with
  | some r, some p, some w =>
    if lineTimeOk f.minLineTime ∧ f.station.length ≤ 20 then
      some { station := f.station, maxRate := r, forms := p, fine := flagOf f.fine, maxWidth := w,
             minLineTime := f.minLineTime.toNat, ready := flagOf f.ready }
    else none
  | _, _, _ => none

/-- An ORDER whose fields all lie in their sets, or none: it is then treated as corrupt (R116). -/
def checkOrder (f : OrderFields) : Option OrderMode :=
  match rateOf f.rate.toNat, formOf f.form.toNat, resolutionOf f.resolution.toNat, widthOf f.width.toNat with
  | some r, some p, some v, some w =>
    if lineTimeOk f.minLineTime ∧ f.station.length ≤ 20 ∧ f.pagesToCome.toNat ≤ 250 then
      some { station := f.station, rate := r, form := p, resolution := v, width := w,
             minLineTime := f.minLineTime.toNat, pagesToCome := f.pagesToCome.toNat }
    else none
  | _, _, _, _ => none

end Sys2Proof.Machine
end

