-- ==== Sys2Proof/Machine/LineCode.lean ====
section
/-! DEFINITION. Line coding: transition lists, the coded forms SAME, SHIFT and RUNS, decoding, and the
reduce and crop-or-pad stages (Chapter 2, section 12.5). -/

namespace Sys2Proof.Machine

open Sys2Proof

/-- Dots per line of a width class (R21). -/
def widthDots : Width → Nat
  | .narrow => 1024
  | .standard => 1728
  | .broad => 2048

/-- Line bytes of a window line (R29). -/
def widthBytes : Width → Nat
  | .narrow => 128
  | .standard => 216
  | .broad => 256

/-! ## Transition lists (R21) -/

/-- The transitions from dot `i` on, when the dot to its left is `prev`. -/
def transitionsFrom : Nat → Bool → List Bool → List Nat
  | _, _, [] => []
  | i, prev, d :: t => if d = prev then transitionsFrom (i + 1) d t else i :: transitionsFrom (i + 1) d t

/-- The transition list of a row of dots; the dot left of dot 0 is white (R21). -/
def transitions (dots : List Bool) : List Nat := transitionsFrom 0 false dots

/-- `n` dots from dot `i` on, in colour `c` until the next listed position. -/
def dotsFrom : Nat → Nat → Bool → List Nat → List Bool
  | 0, _, _, _ => []
  | n + 1, i, c, [] => c :: dotsFrom n (i + 1) c []
  | n + 1, i, c, t :: ts => if t = i then (!c) :: dotsFrom n (i + 1) (!c) ts else c :: dotsFrom n (i + 1) c (t :: ts)

/-- The row of `w` dots that a transition list gives back (R21). -/
def lineDots (w : Nat) (ts : List Nat) : List Bool := dotsFrom w 0 false ts

/-- The eight dots of a window byte, most significant bit first; 1 is black (R29). -/
def byteDots (b : Byte) : List Bool :=
  [b.getLsbD 7, b.getLsbD 6, b.getLsbD 5, b.getLsbD 4, b.getLsbD 3, b.getLsbD 2, b.getLsbD 1, b.getLsbD 0]

/-- The dots of a window line given in bytes (R29). -/
def bytesDots (bs : List Byte) : List Bool := bs.flatMap byteDots

/-- A scan line brought to `w` dots: cut, or padded with white on the right (R84). -/
def fitDots (w : Nat) (dots : List Bool) : List Bool := dots.take w ++ List.replicate (w - dots.length) false

/-! ## Coding (R23 to R26) -/

/-- Every transition lies within 7 dots of the reference's of the same index (R24). -/
def shiftsFit : List Nat → List Nat → Bool
  | [], [] => true
  | t :: ts, r :: rs => decide (r ≤ t + 7 ∧ t ≤ r + 7) && shiftsFit ts rs
  | _, _ => false

/-- SHIFT is legal for the line (R24). -/
def shiftLegal (ref ts : List Nat) : Bool := decide (ref ≠ []) && shiftsFit ts ref

/-- The shift values, shift + 8 (R24). -/
def shiftValues (ref ts : List Nat) : List Nat := List.zipWith (fun t r => t + 8 - r) ts ref

/-- Two values to a byte, the first in the high 4 bits, an unused low half 0 (Table 12-8). -/
def packNibbles : List Nat → List Byte
  | [] => []
  | [v] => [byteOf (v * 16)]
  | v :: w :: t => byteOf (v * 16 + w) :: packNibbles t

/-- The run lengths from a position on (R25). -/
def runsFrom (w : Nat) : Nat → List Nat → List Nat
  | from_, [] => [w - from_]
  | from_, t :: ts => (t - from_) :: runsFrom w t ts

/-- One run length: 1 byte below 128, else 2 bytes (Table 12-8). -/
def runBytes (v : Nat) : List Byte := if v < 128 then [byteOf v] else [byteOf (128 + v / 256), byteOf v]

/-- The SAME form (R23). -/
def codeSame : List Byte := [0x01]

/-- The SHIFT form (R24). -/
def codeShift (ref ts : List Nat) : List Byte := 0x02 :: packNibbles (shiftValues ref ts)

/-- The RUNS form (R25). -/
def codeRuns (w : Nat) (ts : List Nat) : List Byte :=
  let k := ts.length + 1
  [byteOf (64 + k / 256), byteOf k] ++ (runsFrom w 0 ts).flatMap runBytes

/-- The FULL form: the cheapest legal code, SAME before SHIFT before RUNS (R26). -/
def codeFull (w : Nat) (ref ts : List Nat) : List Byte :=
  if ts = ref then codeSame
  else if shiftLegal ref ts ∧ (codeShift ref ts).length ≤ (codeRuns w ts).length then codeShift ref ts
  else codeRuns w ts

/-- A line coded in the form in force (R26, R37). -/
def codeLine (f : Form) (w : Nat) (ref ts : List Nat) : List Byte :=
  match f with
  | .full => codeFull w ref ts
  | .plain => codeRuns w ts

/-- The END mark (Table 12-8). -/
def endMark : List Byte := [0x0F, 0x00]

/-- The FILL code (Table 12-8). -/
def fillByte : Byte := 0x00

/-! ## Decoding (R23 to R25, R27, R43) -/

/-- What the first bytes of a stream hold where a line may begin: too few bytes to tell, a FILL, the
END tag, a good line with the bytes it takes, or a bad line with the bytes consumed. -/
inductive LineRead where
  | more
  | fill
  | endTag
  | good (line : List Nat) (used : Nat)
  | bad (used : Nat)
  deriving DecidableEq, Repr

/-- The two values of a byte. -/
def nibbles (b : Byte) : List Nat := [b.toNat / 16, b.toNat % 16]

/-- The positions that shift values form, or none where a value in use is 0, a position lies outside
the line, or the positions do not rise (R24). `low` is the least position still allowed. -/
def shiftLine (w : Nat) : Nat → List Nat → List Nat → Option (List Nat)
  | _, [], _ => some []
  | _, _ :: _, [] => none
  | low, r :: rs, v :: vs =>
    if v = 0 ∨ r + v < 8 then none
    else
      let p := r + v - 8
      if p < low ∨ w ≤ p then none
      else match shiftLine w (p + 1) rs vs with
        | some ts => some (p :: ts)
        | none => none

/-- `k` run lengths read from a stream, with the bytes they take; none where bytes are missing (R25). -/
def readRuns : Nat → List Byte → Option (List Nat × Nat)
  | 0, _ => some ([], 0)
  | _ + 1, [] => none
  | k + 1, b :: t =>
    if b.toNat < 128 then
      match readRuns k t with
      | some (rs, n) => some (b.toNat :: rs, n + 1)
      | none => none
    else match t with
      | [] => none
      | c :: t' =>
        match readRuns k t' with
        | some (rs, n) => some (((b.toNat - 128) * 256 + c.toNat) :: rs, n + 2)
        | none => none

/-- The positions that runs form: the sums of runs 0 to i, the last run left out (R25). -/
def runPositions : Nat → List Nat → List Nat
  | _, [] => []
  | _, [_] => []
  | from_, r :: rs => (from_ + r) :: runPositions (from_ + r) rs

/-- The runs give a line: they sum to the width and none after the first is 0 (R25). -/
def runsGood (w : Nat) (rs : List Nat) : Bool := decide (rs.sum = w) && rs.tail.all (fun r => decide (r ≠ 0))

/-- The line that begins a stream, decoded against its reference (R23 to R25, R43, Table 12-8). -/
def takeLine (w : Nat) (ref : List Nat) : List Byte → LineRead
  | [] => .more
  | b :: t =>
    if b = fillByte then .fill
    else if b = 0x01 then .good ref 1
    else if b = 0x02 then
      if ref = [] then .bad 1
      else
        let m := ceilDiv ref.length 2
        if t.length < m then .more
        else match shiftLine w 0 ref ((t.take m).flatMap nibbles) with
          | some ts => .good ts (1 + m)
          | none => .bad (1 + m)
    else if b = 0x0F then .endTag
    else if 64 ≤ b.toNat ∧ b.toNat < 80 then
      match t with
      | [] => .more
      | c :: r =>
        let k := (b.toNat - 64) * 256 + c.toNat
        if k = 0 ∨ w + 1 < k then .bad 2
        else match readRuns k r with
          | none => .more
          | some (rs, n) => if runsGood w rs then .good (runPositions 0 rs) (2 + n) else .bad (2 + n)
    else .bad 1

/-! ## Reduce, crop and pad (R36, R172) -/

/-- A dot is black when it is black in either of two lines (R36). -/
def mergeLines (w : Nat) (a b : List Nat) : List Nat :=
  transitions (List.zipWith (fun x y => x || y) (lineDots w a) (lineDots w b))

/-- A row of `wp` dots brought to `wo`: cropped or padded with white on both sides (R36). -/
def cropPad (wp wo : Nat) (dots : List Bool) : List Bool :=
  if wo < wp then (dots.drop ((wp - wo) / 2)).take wo
  else List.replicate ((wo - wp) / 2) false ++ dots ++ List.replicate (ceilDiv (wo - wp) 2) false

/-- A line's transition list brought from one width class to another (R36). -/
def fitLine (wp wo : Width) (ts : List Nat) : List Nat :=
  if wp = wo then ts else transitions (cropPad (widthDots wp) (widthDots wo) (lineDots (widthDots wp) ts))

/-- The minimum line size in bytes: the rate in bit/s times the line time in ms, over 8000, rounded
up (R38). -/
def minLineBytes (rate ms : Nat) : Nat := ceilDiv (rate * ms) 8000

end Sys2Proof.Machine
end

