-- ==== Sys2Proof/Machine/Formats.lean ====
section
/-! DEFINITION. The byte layouts that the part writes: event records, charge records, order results,
DUMP headers and records, and link messages (Chapter 12). -/

namespace Sys2Proof.Machine

open Sys2Proof

/-! ## Event records (section 12.4) -/

/-- A field of an event record: a number of some bytes. -/
def ev (n v : Nat) : List Byte := leBytes n v

/-- The fields placed in bytes 1 to 3 while each fits whole, and then from byte 12 on. -/
def packEvent (head : List Byte) : List (List Byte) → List Byte × List Byte
  | [] => (fitBytes 3 head, [])
  | f :: fs =>
    if head.length + f.length ≤ 3 then packEvent (head ++ f) fs
    else (fitBytes 3 head, (f :: fs).flatten)

/-- The 32 bytes of an event record (R79, section 12.4). -/
def eventBytes (kind : Nat) (number : Word) (time : Stamp) (fields : List (List Byte)) : List Byte :=
  let p := packEvent [] fields
  byteOf kind :: p.1 ++ leBytes 4 number.toNat ++ leBytes 4 time.word ++ fitBytes 20 p.2

/-- The area kind code of a GUARD_HIT (Table 12-1). -/
def guardKindCode : GuardArea → Nat
  | .region _ => 1
  | .window _ => 2
  | .pool => 3
  | .eventRing => 4
  | .chargeLog => 5
  | .orderSlot => 6
  | .controlWord => 7
  | .outside => 8

/-- The region or window number of a GUARD_HIT, or none. -/
def guardNumber : GuardArea → Option Nat
  | .region i => some i
  | .window w => some (windowNum w)
  | _ => none

/-- Codes of the event fields that no other table gives, by position (R199). -/
def abandonCode : AbandonReason → Nat
  | .holdTimeout => 1
  | .docFull => 2
  | .restart => 3

/-- SCAN_STATE state codes (Table 5-1). -/
def scanStateCode : ScanState → Nat
  | .idle => 1
  | .feeding => 2
  | .scanning => 3
  | .paused => 4
  | .jammed => 5

/-- SCAN_STATE reason codes (Table 12-1). -/
def scanReasonCode : ScanReason → Nat
  | .done => 1
  | .memoryFull => 2
  | .docFull => 3
  | .jammed => 4
  | .restart => 5
  | .cleared => 6

/-- LINE_STATE reason codes (Table 12-1). -/
def lineReasonCode : LineReason → Nat
  | .modeApplied => 1
  | .lineMode => 2
  | .noDialTone => 3
  | .lineFault => 4
  | .lineOk => 5

/-- CALL_MISSED reason codes (Table 12-1). -/
def missCode : MissReason → Nat
  | .stopped => 1
  | .refused => 2
  | .restart => 3
  | .lineFault => 4

/-- PRINT_DONE reason codes (Table 12-1). -/
def printReasonCode : PrintReason → Nat
  | .complete => 1
  | .cancelled => 2
  | .restart => 3

/-- Printer state codes (R173). -/
def printerStateCode : PrinterState → Nat
  | .coverOpen => 1
  | .paperOut => 2
  | .headHot => 3
  | .printing => 4
  | .ready => 5

/-- Sweep source codes (R163). -/
def sweepCode : SweepSource → Nat
  | .timer => 1
  | .order => 2

/-- METER_BURN outcome codes (Table 12-6). -/
def burnOutcomeCode : BurnOutcome → Nat
  | .done => 1
  | .failed => 2
  | .torn => 3

/-- DESK_STATE cause codes (R188). -/
def deskCauseCode : DeskCause → Nat
  | .ceiling => 1
  | .setDesk => 2
  | .closePeriod => 3
  | .burnFailed => 4
  | .auditClear => 5
  | .cellTorn => 6

/-- Four 4-byte result words, unused words 0 (Table 12-4). -/
def resultWords (vs : List Nat) : List Byte := fitBytes 16 (vs.flatMap (leBytes 4))

/-- The event kind codes: the rows of Table 4-7. -/
def eventCode : Event → Nat
  | .ready .. => 1
  | .orderDone .. => 2
  | .pageSealed .. => 3
  | .docClosed .. => 4
  | .docFreed .. => 5
  | .windowAbandoned .. => 6
  | .guardHit .. => 7
  | .scanState .. => 8
  | .lineState .. => 9
  | .callIn .. => 10
  | .callMissed .. => 11
  | .callRefused .. => 12
  | .destResult .. => 13
  | .destHeld .. => 14
  | .printDone .. => 15
  | .printerState .. => 16
  | .screenSwept .. => 17
  | .screenFull .. => 18
  | .meterBurn .. => 19
  | .deskState .. => 20
  | .power .. => 21

/-- A text that may be absent; an absent one is written as a text of length 0: DESIGN CHOICE (log entry 79). -/
def optText : Option Text → Text
  | some t => t
  | none => []

/-- The fields of an event in the order of Table 12-6. The page index of a PRINTER_STATE with no abandoned page, which
is a position and no id, is written 0xFF like the ids beside it: DESIGN CHOICE (log entry 75). The 5-byte lifetime and
the 3-byte calls of METER_BURN have their least significant byte first: DESIGN CHOICE (log entry 86). -/
def eventFields : Event → List (List Byte)
  | .ready c m b k => [ev 1 (match c with | .powerOn => 1 | .busReset => 2), ev 1 m, ev 2 b, flagByte k]
  | .orderDone slot kind r q vs => [ev 1 slot, [kind], ev 1 (resultCode r), ev 4 q.toNat, resultWords vs]
  | .pageSealed p d i c l n => [ev 2 p, ev 1 d, ev 1 i, flagByte c, ev 2 l, ev 4 n]
  | .docClosed d o p t q n => [ev 1 d, ev 1 (originCode o), ev 1 p, flagByte t, flagByte q, ev 4 n]
  | .docFreed d p b => [ev 1 d, ev 1 p, ev 2 b]
  | .windowAbandoned w r d p h => [ev 1 (windowNum w), ev 1 (abandonCode r), ev 1 d, ev 2 (optId2 p), ev 4 h]
  | .guardHit a n => [ev 2 1, ev 1 (guardKindCode a), ev 1 (optId1 (guardNumber a)), ev 4 n]
  | .scanState t r d b p l f o =>
    [ev 1 (scanStateCode t), ev 1 (scanReasonCode r), ev 2 (optId2 d), ev 2 b, ev 1 p, ev 4 l, ev 4 f, ev 4 o]
  | .lineState u r t m p =>
    [ev 1 (unitNum u), ev 1 (lineReasonCode r), ev 1 (callStateCode t), ev 1 (unitModeCode m),
     ev 1 (optCode unitModeCode p)]
  | .callIn u n g t => [ev 1 (unitNum u), ev 1 n, flagByte g, textField 20 (optText t)]
  | .callMissed u r q n t =>
    [ev 1 (unitNum u), ev 1 (missCode r), ev 1 (optCode refuseCode q), ev 1 n, textField 19 (optText t)]
  | .callRefused u r b n t =>
    [ev 1 (unitNum u), ev 1 (refuseCode r), ev 1 (optCode (fun x => keyKindCode x.keyKind) b),
     ev 1 (optId1 (b.map (fun x => x.entry))), textField 9 (optText n), textField 10 (optText t)]
  | .destResult i d k a u t r c q n h g =>
    [ev 2 i, ev 1 d, ev 1 (k % 16 + 16 * a), ev 1 ((match u with | some v => unitNum v | none => 7) + 16 * entryStateCode t),
     ev 1 (attemptCode r), ev 1 c, ev 4 q.toNat, ev 4 n, ev 4 h, ev 4 g]
  | .destHeld i k t z q => [ev 2 i, ev 1 k, ev 1 (deskStateCode t), ev 1 z, ev 4 q.toNat]
  | .printDone i d r c n => [ev 1 i, ev 1 d, ev 1 (printReasonCode r), ev 1 c, ev 2 n]
  | .printerState t o n a =>
    [ev 1 (printerStateCode t), ev 1 (printerStateCode o), ev 1 n, ev 1 (optId1 (a.map (fun x => x.1))),
     ev 2 (optId2 (a.map (fun x => x.2.1))), ev 1 (optId1 (a.map (fun x => x.2.2)))]
  | .screenSwept q r o => [ev 1 (sweepCode q), ev 2 r, ev 2 o]
  | .screenFull u t => [ev 1 (unitNum u), textField 20 t]
  | .meterBurn k o r l c q =>
    [ev 1 k, ev 1 (burnOutcomeCode o), ev 1 (optCode burnReasonCode r), ev 5 l, ev 3 c, ev 2 q]
  | .deskState k n o c p l =>
    [ev 1 k, ev 1 (deskStateCode n), ev 1 (deskStateCode o), ev 1 (deskCauseCode c), ev 4 p, ev 4 l]
  | .power w => [ev 1 (if w then 1 else 2)]

/-- The record of an event written at a producer index at a clock value (R79). -/
def Event.record (e : Event) (number : Word) (time : Stamp) : List Byte :=
  eventBytes (eventCode e) number time (eventFields e)

/-! ## Charge records (Table 12-7) -/

/-- The 64 bytes of a charge record. -/
def ChargeRecord.record (c : ChargeRecord) : List Byte :=
  leBytes 4 c.sequence ++ leBytes 4 c.orderSeq.toNat ++ leBytes 4 c.answer.word ++ leBytes 4 c.duration
    ++ leBytes 4 c.charge ++ leBytes 4 c.bytes ++ leBytes 2 c.entry
    ++ leBytes 2 c.units.peak ++ leBytes 2 c.units.shoulder ++ leBytes 2 c.units.night
    ++ [byteOf c.desk, byteOf (unitNum c.unit), byteOf c.zone, byteOf (optCode attemptCode c.result),
        byteOf c.confirmed] ++ [0, 0] ++ textField 25 c.number

/-! ## DUMP (R74, section 12.3) -/

/-- A record padded to a multiple of 4 bytes. -/
def padRecord (bs : List Byte) : List Byte := bs ++ zeroBytes ((4 - bs.length % 4) % 4)

/-- The length of a record of each kind, padding included (section 12.3). -/
def dumpLength : DumpKind → Nat
  | .documents => 548
  | .pages => 24
  | .sendQueue => 68
  | .screenTable => 40
  | .desks => 56
  | .lineStatistics => 100

/-- A clock value that may be absent. DESIGN CHOICE (log entry 5): absent is written with every bit set. -/
def optStamp : Option Stamp → Nat
  | some t => t.word
  | none => Config.max32

/-- The fields of a document record (Table 1-2). Each page number of the list begins at an even offset, so one pad
byte stands behind the list's count: DESIGN CHOICE (log entry 87). -/
def docFields (i : Nat) (d : Doc) : List Field :=
  [.num 1 i, .num 1 (docStateCode d.state), .num 1 (originCode d.origin), .num 1 d.desk,
   .num 1 d.pages.length]
  ++ (d.pages ++ List.replicate (Config.docPages - d.pages.length) 0).map (fun p => Field.num 2 p)
  ++ [.raw (flagByte d.keep), .num 2 d.sendRefs, .num 1 d.printRefs, .raw (flagByte d.truncated),
      .raw (flagByte d.notQueued), .raw (flagByte d.deletePending), .num 4 d.created.word,
      .raw (textField 21 (optText d.station)), .num 4 d.total]

/-- The fields of a page record behind its number (Table 1-1). -/
def pageFields (i : Nat) (p : PageRec) : List Field :=
  [.num 2 i, .num 1 (pageStateCode p.state), .num 1 p.document, .num 1 p.position, .num 1 (originCode p.origin),
   .num 1 (widthCode p.width), .num 1 (resolutionCode p.resolution), .num 2 p.lines, .num 4 p.coded,
   .num 2 p.first, .num 2 p.last, .num 2 p.blocks, .raw (flagByte p.clipped)]

/-- The fields of a destination entry (Table 8-1). An absent zone index, which is a position and no id, is written 0xFF:
DESIGN CHOICE (log entry 75). -/
def entryFields (i : Nat) (e : DestEntry) : List Field :=
  [.num 2 i, .num 4 e.orderSeq.toNat, .num 1 e.document, .num 1 e.desk, .num 1 (priorityCode e.priority),
   .raw (textField 25 e.number), .num 1 (optId1 e.zone), .num 1 (entryStateCode e.state), .num 1 e.attempts,
   .num 1 e.maxAttempts, .num 1 e.retryInterval, .num 4 e.readyTime, .num 4 e.countdown,
   .num 4 e.nextAttempt.word, .num 1 (optCode attemptCode e.lastResult), .num 1 e.confirmed,
   .num 1 (optId1 (e.unit.map unitNum)), .num 4 e.chargeTotal, .raw (flagByte e.heldReported),
   .raw (flagByte e.cancelPending)]

/-- The fields of a screen entry behind its number (Table 9-1). -/
def screenFields (i : Nat) (e : ScreenEntry) : List Field :=
  [.num 1 i, .num 1 1, .num 1 (keyKindCode e.keyKind), .raw (textField 21 e.key), .num 1 (screenKindCode e.kind),
   .num 1 e.desk, .num 1 e.copies, .raw (flagByte e.flash), .num 1 e.budget, .num 1 e.budgetLeft,
   .raw (flagByte e.touched), .num 2 e.calls, .num 4 (optStamp e.lastCall)]

/-- The fields of a desk account (Table 11-5). DESIGN CHOICE (log entry 5): captured is written as its
lifetime and its calls, with every bit set when there are none. -/
def deskFields (d : Desk) : List Field :=
  [.num 1 (deskStateCode d.state), .raw (flagByte d.audit), .raw (flagByte d.closed), .num 4 d.ceiling,
   .num 4 d.spent, .num 8 d.working, .num 8 d.burned, .num 4 d.calls,
   .num 8 (match d.captured with | some c => c.1 | none => 18446744073709551615),
   .num 4 (match d.captured with | some c => c.2 | none => Config.max32),
   .num 1 (if d.torn then 2 else 1)]

/-- The two bytes of a ring verdict: its kind and its reason. DESIGN CHOICE (log entry 5). -/
def verdictBytes : RingVerdict → List Byte
  | .none => [1, 0]
  | .matched => [2, 0]
  | .refused r => [3, byteOf (refuseCode r)]

/-- The fields of a unit record and its counters (Tables 6-2 and 6-7). -/
def unitFields (l : LineUnit) : List Field :=
  [.num 1 (unitModeCode l.mode), .num 1 (optCode unitModeCode l.pendingMode), .num 1 (callStateCode l.state),
   .num 1 (optCode roleCode l.role), .num 2 (optId2 l.entry), .raw (textField 9 l.lead), .num 1 l.dialFailures,
   .num 1 l.ringCount, .raw (textField 25 (optText l.caller)), .raw (verdictBytes l.verdict),
   .raw (flagByte l.glare), .raw (flagByte l.answered), .num 1 (optCode attemptCode l.result),
   .num 4 l.releaseTime.word, .num 4 l.attemptBytes, .num 4 (l.timer.getD 0), .num 4 l.stats.callsOut,
   .num 4 l.stats.callsIn, .num 4 l.stats.bytesSent, .num 4 l.stats.fillBytes, .num 4 l.stats.underruns,
   .num 4 l.stats.pagesSent, .num 4 l.stats.pagesReceived, .num 4 l.stats.redosSent,
   .num 4 l.stats.redosReceived, .num 4 l.stats.badLines]

/-- A record freed since the set was fixed: its state unused or FREE, its other fields 0 (R74). -/
def goneRecord (k : DumpKind) (i : Nat) : List Byte :=
  match k with
  | .documents => fitBytes (dumpLength k) [0, 1]
  | .pages => fitBytes (dumpLength k) (leBytes 2 i ++ [1])
  | .sendQueue => fitBytes (dumpLength k) (leBytes 2 i ++ zeroBytes 35 ++ [1])
  | .screenTable => fitBytes (dumpLength k) [byteOf i]
  | _ => zeroBytes (dumpLength k)

/-- A DUMP record as it stands in its table when it is written (R74). -/
def State.dumpRecord (s : State) (k : DumpKind) (i : Nat) : List Byte :=
  match k with
  | .documents => match s.doc i with
    | some d => padRecord (placeBody 0 (docFields i d))
    | none => goneRecord k i
  | .pages => match s.page i with
    | some p => padRecord (placeBody 0 (pageFields i p))
    | none => goneRecord k i
  | .sendQueue => match s.entry i with
    | some e => padRecord (placeBody 0 (entryFields i e))
    | none => goneRecord k i
  | .screenTable => match tget s.screen.entries i with
    | some e => padRecord (placeBody 0 (screenFields i e))
    | none => goneRecord k i
  | .desks => match s.desk i with
    | some d => padRecord (placeBody 0 (deskFields d))
    | none => goneRecord k i
  | .lineStatistics => match unitOf i with
    | some u => padRecord (placeBody 0 (unitFields (s.unit u)))
    | none => goneRecord k i

/-- The set of records of a DUMP, ascending (R74). -/
def State.dumpSet (s : State) : DumpKind → List Nat
  | .documents => s.store.docs.map (fun p => p.1)
  | .pages => s.store.pages.map (fun p => p.1)
  | .sendQueue => s.sendq.entries.map (fun p => p.1)
  | .screenTable => s.screen.entries.map (fun p => p.1)
  | .desks => List.range Config.desks
  | .lineStatistics => [0, 1, 2, 3]

/-- The 24 bytes of a DUMP header (section 12.3). -/
def State.dumpHeader (s : State) (k : DumpKind) (total fits : Nat) : List Byte :=
  fitBytes 24 ([byteOf (dumpCode k), 0, 0, 0] ++ leBytes 4 s.now.word ++ leBytes 4 s.store.blockCount
    ++ leBytes 4 s.store.free.length ++ leBytes 2 total ++ leBytes 2 fits ++ leBytes 2 (dumpLength k))

/-! ## Link messages (section 12.5) -/

/-- The bytes of a control frame: kind code and fields. -/
def Frame.bytes : Frame → List Byte
  | .offer o => 1 :: textField 21 o.station ++ [byteOf (rateCode o.maxRate), byteOf (formCode o.forms)]
      ++ flagByte o.fine ++ [byteOf (widthCode o.maxWidth), byteOf o.minLineTime] ++ flagByte o.ready
  | .order o => 2 :: textField 21 o.station ++ [byteOf (rateCode o.rate), byteOf (formCode o.form),
      byteOf (resolutionCode o.resolution), byteOf (widthCode o.width), byteOf o.minLineTime, byteOf o.pagesToCome]
  | .ready => [3]
  | .slower => [4]
  | .pageEnd k => [5, byteOf (pageEndCode k)]
  | .good => [6]
  | .redo => [7]
  | .stop => [8]
  | .release => [9]

/-- The bytes of a message of the part to a codec: type byte and fields. -/
def LinkMsg.bytes : LinkMsg → List Byte
  | .seize => [1]
  | .release => [2]
  | .dial t => 3 :: byteOf t.length :: t
  | .answer => [4]
  | .setRate r => [5, byteOf (rateCode r)]
  | .sendCheck => [6]
  | .sendFrame f => 7 :: f.bytes
  | .sendData bs => 8 :: byteOf bs.length :: bs
  | .stopData => [9]

end Sys2Proof.Machine
end

