-- ==== Sys2Proof/Machine/Store.lean ====
section
/-! DEFINITION. The Page Store: blocks, pages and documents (Chapter 1). -/

namespace Sys2Proof.Machine

open Sys2Proof

/-! ## The pool (R2 to R4) -/

/-- The chain of a page from a block on, as the link table gives it (R2). -/
def chainFrom (links : Table Nat) : Nat → Nat → List Nat
  | 0, _ => []
  | n + 1, b => b :: (match tget links b with
    | some c => chainFrom links n c
    | none => [])

/-- The blocks of a page, first to last. -/
def PageStore.chain (p : PageStore) (r : PageRec) : List Nat := chainFrom p.links r.blocks r.first

/-- The waiting condition of a source cleared where it is `c` (R32, R33). -/
def Source.wake (c : WaitCause) (x : Source) : Source :=
  if x.wait = some c then { x with wait := none } else x

/-- Every source that waits on `c` is woken (R32, R33). -/
def State.wakeAll (s : State) (c : WaitCause) : State :=
  { s with coder := { s.coder with scan := s.coder.scan.wake c,
                                   win := ⟨s.coder.win.w0.wake c, s.coder.win.w1.wake c⟩ } }

/-- Blocks return to the tail of the free list, each with link entry "none" (R4). -/
def State.returnBlocks (s : State) (bs : List Nat) : State :=
  if bs = [] then s
  else
    { s with store := { s.store with free := s.store.free ++ bs,
                                     links := bs.foldl (fun l b => tdel l b) s.store.links } }.wakeAll .block

/-- A page asks for a block (R3): the head of the free list becomes its last block, or none. -/
def State.allocBlock (s : State) (p : Nat) : Option State :=
  match s.store.free, s.page p with
  | b :: rest, some r =>
    let links := tdel s.store.links b
    let links := if r.blocks = 0 then links else tset links r.last b
    some { s with store :=
      { s.store with free := rest, links := links,
                     pages := tset s.store.pages p
                       { r with first := if r.blocks = 0 then b else r.first, last := b,
                                blocks := r.blocks + 1 } } }
  | _, _ => none

/-! ## Pages (R5 to R9) -/

/-- The FILLING page of a document, where it has one (R5). -/
def State.fillingPage (s : State) (d : Nat) : Option Nat :=
  match s.doc d with
  | none => none
  | some r => r.pages.find? (fun p => match s.page p with
    | some x => decide (x.state = .filling)
    | none => false)

/-- The answer to a page open: a refusal, or the page number and the new state (R5). -/
inductive OpenAnswer where
  | refused (r : OpenRefusal)
  | opened (page : Nat) (s : State)

/-- A page opens for a producer (R5). -/
def State.openPage (s : State) (d : Nat) (w : Width) (v : Resolution) : OpenAnswer :=
  match s.doc d with
  | none => .refused .docFull
  | some r =>
    if Config.docPages ≤ r.pages.length ∨ r.state = .closed then .refused .docFull
    else if (s.fillingPage d).isSome then .refused .docBusy
    else match lowestFree Config.pageRecords s.store.pages with
      | none => .refused .noPage
      | some p =>
        if s.store.free = [] then .refused .noBlock
        else
          let rec0 : PageRec :=
            { state := .filling, document := d, position := r.pages.length, origin := r.origin, width := w,
              resolution := v, lines := 0, coded := 0, first := 0, last := 0, blocks := 0, clipped := false }
          let s1 := { s with store := { s.store with
            pages := tset s.store.pages p rec0,
            docs := tmod s.store.docs d (fun x => { x with pages := x.pages ++ [p] }) } }
          match s1.allocBlock p with
          | some s2 => .opened p s2
          | none => .refused .noBlock

/-- The address of a byte of the pool (R1). -/
def PageStore.blockAddr (p : PageStore) (b off : Nat) : Nat := p.base + b * Config.blockBytes + off

/-- Bytes of a coded stream placed at the end of a FILLING page, block by block (R6). The bytes left
over are those that met an empty free list. -/
def placeBytes : Nat → Block → Nat → List Byte → State → List Byte × State
  | 0, _, _, bs, s => (bs, s)
  | _ + 1, _, _, [], s => ([], s)
  | fuel + 1, blk, p, b :: bs, s =>
    match s.page p with
    | none => (b :: bs, s)
    | some r0 =>
      let grown := if r0.coded = r0.blocks * Config.blockBytes then s.allocBlock p else some s
      match grown with
      | none => (b :: bs, s)
      | some s1 =>
        match s1.page p with
        | none => (b :: bs, s1)
        | some r =>
          let off := r.coded - (r.blocks - 1) * Config.blockBytes
          let n := min (Config.blockBytes - off) (b :: bs).length
          let s2 := s1.issue blk (s1.store.blockAddr r.last off) ((b :: bs).take n)
          let s3 := s2.modPage p (fun x => { x with coded := x.coded + n })
          placeBytes fuel blk p ((b :: bs).drop n) s3

/-- Bytes of a coded stream placed in a FILLING page by a block (R6). -/
def State.place (s : State) (blk : Block) (p : Nat) (bs : List Byte) : List Byte × State :=
  placeBytes (bs.length + 1) blk p bs s

/-- A line of `n` bytes fits the page under both caps (R28). -/
def PageRec.fits (r : PageRec) (n : Nat) : Bool :=
  decide (r.lines < Config.lineCap ∧ r.coded + n + 2 ≤ Config.byteCap)

/-- The END mark stands whole: the page is SEALED, its coded bytes count in its document, and
PAGE_SEALED is posted (R7). -/
def State.finishSeal (s : State) (p : Nat) : State :=
  match s.page p with
  | none => s
  | some r =>
    let s1 := s.modPage p (fun x => { x with state := .sealed })
    let s2 := s1.modDoc r.document (fun d => { d with total := satAdd Config.max32 d.total r.coded })
    s2.post .pageStore (.pageSealed p r.document r.position r.clipped r.lines r.coded)

/-- A FILLING page is abandoned (R8). -/
def State.abandonPage (s : State) (p : Nat) : State :=
  match s.page p with
  | none => s
  | some r =>
    let bs := s.store.chain r
    let s1 := s.returnBlocks bs
    let s2 := { s1 with store := { s1.store with
      pages := tdel s1.store.pages p,
      docs := tmod s1.store.docs r.document (fun d => { d with pages := dropNum p d.pages }) } }
    s2.wakeAll .pageRecord

/-- The answer to a read of a page (R9). -/
inductive PageAnswer where
  | isSealed (page : Nat) (r : PageRec)
  | notReady
  | noSuchPage

/-- A reader asks for the page at a position of a document (R9). -/
def State.readPage (s : State) (d i : Nat) : PageAnswer :=
  match s.doc d with
  | none => .noSuchPage
  | some r =>
    match r.pages[i]? with
    | some p =>
      match s.page p with
      | some x => if x.state = .sealed then .isSealed p x else .notReady
      | none => .notReady
    | none => if r.state = .opened then .notReady else .noSuchPage

/-- The byte of a page's coded stream at an offset (R6). -/
def State.streamByte (s : State) (chain : List Nat) (off : Nat) : Byte :=
  s.readByte (s.store.blockAddr (chain.getD (off / Config.blockBytes) 0) (off % Config.blockBytes))

/-- A read of `n` bytes of a page's coded stream is held: a pending write overlaps it (R61). -/
def State.streamHeld (s : State) (r : PageRec) (off n : Nat) : Bool :=
  let chain := s.store.chain r
  (List.range n).any (fun i =>
    s.path.blocked (s.store.blockAddr (chain.getD ((off + i) / Config.blockBytes) 0) ((off + i) % Config.blockBytes)) 1)

/-- The longest coded line in bytes (section 2.2, "Page Size"). -/
def longestLine : Nat := 4100

/-- The bytes of a page's coded stream from an offset on, as many as one line can take (R6, R35). -/
def State.streamFrom (s : State) (r : PageRec) (off : Nat) : List Byte :=
  let chain := s.store.chain r
  (List.range (min longestLine (r.coded - off))).map (fun i => s.streamByte chain (off + i))

/-- The read of the next stored line of a page is held behind a pending write (R61). -/
def State.lineHeld (s : State) (p : Nat) (w : Width) (ref : List Nat) (off : Nat) : Bool :=
  match s.page p with
  | none => false
  | some r =>
    match takeLine (widthDots w) ref (s.streamFrom r off) with
    | .good _ n => s.streamHeld r off n
    | _ => false

/-! ## Documents (R10 to R14) -/

/-- A document opens, or NO_DOC (R10). -/
def State.openDoc (s : State) (o : Origin) (desk : Nat) (station : Option Text) : Option (Nat × State) :=
  match lowestFree Config.docRecords s.store.docs with
  | none => none
  | some d =>
    let r : Doc :=
      { state := .opened, origin := o, desk := desk, pages := [], keep := false, sendRefs := 0,
        printRefs := 0, truncated := false, notQueued := false, deletePending := false, created := s.now,
        station := station, total := 0, attached := true }
    some (d, { s with store := { s.store with docs := tset s.store.docs d r } })

/-- The blocks of every page of a list, in list order, each page's in chain order (R4). -/
def State.blocksOf (s : State) (ps : List Nat) : List Nat :=
  ps.flatMap (fun p => match s.page p with
    | some r => s.store.chain r
    | none => [])

/-- A document is freed (R14): its pages' blocks return, its records become free, DOC_FREED is posted. -/
def State.freeDoc (s : State) (d : Nat) : State :=
  match s.doc d with
  | none => s
  | some r =>
    let bs := s.blocksOf r.pages
    let s1 := s.returnBlocks bs
    let s2 := { s1 with store := { s1.store with
      pages := r.pages.foldl (fun t p => tdel t p) s1.store.pages,
      docs := tdel s1.store.docs d } }
    let s3 := if r.pages = [] then s2 else s2.wakeAll .pageRecord
    s3.post .pageStore (.docFreed d r.pages.length bs.length)

/-- The four conditions of R14. -/
def Doc.freeable (r : Doc) : Bool :=
  decide (r.state = .closed ∧ r.sendRefs = 0 ∧ r.printRefs = 0 ∧ r.keep = false)

/-- The test for freeing (R14). -/
def State.testFree (s : State) (d : Nat) : State :=
  match s.doc d with
  | none => s
  | some r => if r.freeable then s.freeDoc d else s

/-- A destination entry of the document has reached a final state (R13). -/
def State.dropSendRef (s : State) (d : Nat) : State :=
  (s.modDoc d (fun r => { r with sendRefs := r.sendRefs - 1 })).testFree d

/-- A print entry of the document has reached DONE (R13). -/
def State.dropPrintRef (s : State) (d : Nat) : State :=
  (s.modDoc d (fun r => { r with printRefs := r.printRefs - 1 })).testFree d

/-- The document goes to CLOSED, its producer detached, and DOC_CLOSED is posted (R12). -/
def State.markClosed (s : State) (d : Nat) (truncated : Bool) : State :=
  match s.doc d with
  | none => s
  | some r =>
    let s1 := s.modDoc d (fun x => { x with state := .closed, truncated := truncated, attached := false })
    s1.post .pageStore (.docClosed d r.origin r.pages.length truncated r.notQueued r.total)

end Sys2Proof.Machine
end

