-- ==== Sys2Proof/Machine/Print.lean ====
section
/-! DEFINITION. The Print Engine's operations (Chapter 10), and the closing and sealing of documents
and pages with what the Print Engine does about them (R12, R169 to R171). -/

namespace Sys2Proof.Machine

open Sys2Proof

/-- The engine sends a message to the printer (Table 10-1). -/
def State.sendPrinter (s : State) (m : PrinterMsg) : State :=
  { s with print := { s.print with out := s.print.out ++ [m] } }

/-- The states whose entry and exit post PRINTER_STATE (R173). -/
def PrinterState.posts : PrinterState → Bool
  | .coverOpen | .paperOut | .headHot => true
  | .printing | .ready => false

/-- The printer state is worked out again (R173); `abandoned` names the entry, document and page index
of a page abandoned by the change (R174). -/
def State.recomputePrinter (s : State) (abandoned : Option (Nat × Nat × Nat)) : State :=
  let n := s.print.derived
  let o := s.print.state
  if n = o then s
  else
    let s1 := { s with print := { s.print with state := n } }
    if n.posts || o.posts then s1.post .printEngine (.printerState n o s.print.temperature abandoned) else s1

/-- The entry leaves the queue with PRINT_DONE, and then its reference is released (R168, R171, R177). -/
def State.printDone (s : State) (i : Nat) (reason : PrintReason) : State :=
  match s.printEntry i with
  | none => s
  | some e =>
    let s1 := { s with print := { s.print with
      entries := tdel s.print.entries i,
      current := if s.print.current = some i then none else s.print.current } }
    let s2 := s1.post .printEngine (.printDone i e.document reason e.copiesPrinted e.ejected)
    s2.dropPrintRef e.document

/-- A decoded line fitted to the head's 1728 dots (R172). -/
def headDots (w : Width) (ts : List Nat) : List Bool := cropPad (widthDots w) 1728 (lineDots (widthDots w) ts)

/-- The line to be sent next, which is the reference line from then on, with the decoder after it; none when the page
has no more (R172). -/
def State.nextHeadLine (s : State) (d : PrintDecoder) : Option (List Nat × PrintDecoder) :=
  if d.again then some (s.print.ref, { d with again := false })
  else if d.linesLeft = 0 then none
  else match s.page d.page with
    | none => none
    | some r =>
      match takeLine (widthDots d.width) s.print.ref (s.streamFrom r d.offset) with
      | .good ts n =>
        some (ts, { d with offset := d.offset + n, linesLeft := d.linesLeft - 1,
                           again := decide (d.resolution = .normal) })
      | _ => none

/-- The stream read of the next head line is held behind a pending write (R61). -/
def State.headHeld (s : State) (d : PrintDecoder) : Bool :=
  !d.again && decide (d.linesLeft ≠ 0) && s.lineHeld d.page d.width s.print.ref d.offset

/-- The sheet is cut and ejected: SHEET OUT (R172). -/
def State.sheetOut (s : State) : State :=
  { (s.sendPrinter .sheetOut) with print := { (s.sendPrinter .sheetOut).print with sheet := .feedingOut } }

/-- A line is sent as a HEAD LINE with its strobe duty (R172, R176): it is the reference line from then on, and the line
position moves. -/
def State.sendHeadLine (s : State) (ts : List Nat) (d : PrintDecoder) : State :=
  let p := s.print
  let s1 := s.sendPrinter (.headLine (headDots d.width ts) (strobeDuty p.strobeBase p.strobeSlope p.temperature))
  { s1 with print := { s1.print with
    sheet := .lineInFlight, position := p.position + 1, ref := ts, decoder := some d } }

/-- With a sheet started and no line in flight: the next HEAD LINE is sent, unless the head is paused or the
decoder's read is held, or SHEET OUT when the page has no more head lines (R61, R172, R173). -/
def State.advanceSheet (s : State) : State :=
  match s.print.decoder with
  | none => s
  | some d =>
    if s.headHeld d then s
    else match s.nextHeadLine d with
    | none => s.sheetOut
    | some (ts, d') => if s.print.state = .printing then s.sendHeadLine ts d' else s

/-- A sheet is begun on a SEALED page: SHEET START, the reference all white, the line position 0 (R171). -/
def State.startSheet (s : State) (p : Nat) (r : PageRec) : State :=
  let s1 := s.sendPrinter .sheetStart
  let s2 := { s1 with print := { s1.print with
    sheet := .sheetStarted, position := 0, ref := [],
    decoder := some { page := p, width := r.width, resolution := r.resolution, offset := 0,
                      linesLeft := r.lines, again := false } } }
  s2.advanceSheet

/-- An entry can start: the page at its page index is SEALED (R170). -/
def State.canStart (s : State) (e : PrintEntry) : Bool :=
  decide (e.state = .waiting) && (match s.readPage e.document e.pageIndex with
    | .isSealed _ _ => true
    | _ => false)

/-- One entry goes before another: FLASH before ORDINARY, then the earlier arrival (R170). -/
def printBefore (a b : Nat × PrintEntry) : Bool :=
  decide (printPriorityCode a.2.priority < printPriorityCode b.2.priority
    ∨ (a.2.priority = b.2.priority ∧ a.2.arrival < b.2.arrival))

/-- A selection (R170): with the head free and the printer READY, the first entry that can start becomes
the current entry and begins its copy. -/
def State.printSelect (s : State) : State :=
  if s.print.current ≠ none ∨ s.print.state ≠ .ready then s
  else match sortBy printBefore (s.print.entries.filter (fun x => s.canStart x.2)) with
    | [] => s
    | (i, e) :: _ =>
      let s1 := { s with print := { s.print with
        current := some i,
        entries := tmod s.print.entries i (fun x => { x with state := .printing }) } }
      let s2 := s1.recomputePrinter none
      match s2.readPage e.document e.pageIndex with
      | .isSealed p r => s2.startSheet p r
      | _ => s2

/-- A copy ends (R171): its count moves, the head is free, and the entry is DONE or waits again. -/
def State.endCopy (s : State) (i : Nat) : State :=
  match s.printEntry i with
  | none => s
  | some e =>
    let s1 := s.modPrintEntry i (fun x =>
      { x with copiesPrinted := x.copiesPrinted + 1, copiesLeft := x.copiesLeft - 1, state := .waiting, pageIndex := 0 })
    let s2 := { s1 with print := { s1.print with current := none } }
    let s3 := if e.copiesLeft ≤ 1 then s2.printDone i .complete else s2
    (s3.recomputePrinter none).printSelect

/-- The current entry begins the page at its page index (R171). -/
def State.beginPrintPage (s : State) : State :=
  match s.print.current with
  | none => s
  | some i =>
    match s.printEntry i with
    | none => s
    | some e =>
      match s.readPage e.document e.pageIndex with
      | .isSealed p r => if s.print.coverClosed && s.print.paperPresent then s.startSheet p r else s
      | .notReady => s
      | .noSuchPage => s.endCopy i

/-- The head goes on after the printer state has changed (R173 to R175): a paused sheet is continued, a
page is begun, or a selection is made. -/
def State.resumePrinter (s : State) : State :=
  match s.print.state with
  | .printing =>
    match s.print.sheet with
    | .sheetStarted => s.advanceSheet
    | .noSheet => s.beginPrintPage
    | _ => s
  | .ready => s.printSelect
  | _ => s

/-- A pending write has been performed, and a stream read of the print decoder that it held goes on (R61). -/
def State.resumePrintRead (s : State) : State :=
  if s.print.sheet = .sheetStarted ∧ s.print.state = .printing then s.advanceSheet else s

/-- An entry whose document is CLOSED with no pages: each of its copies ends at once (R169). -/
def State.finishEmpty (s : State) (i : Nat) : State :=
  (s.modPrintEntry i (fun x =>
    { x with copiesPrinted := x.copiesPrinted + x.copiesLeft, copiesLeft := 0 })).printDone i .complete

/-- A document is CLOSED with an empty page list. -/
def State.closedEmpty (s : State) (d : Nat) : Bool :=
  match s.doc d with
  | some r => decide (r.state = .closed ∧ r.pages = [])
  | none => false

/-- The current entry, whose read was answered "not ready", reads its page again when its document has sealed
the page `q`, or, with `q` none, has closed (R171). An entry whose page had been sealed before waits for the
printer state instead (R174). -/
def State.rereadCurrent (s : State) (d : Nat) (q : Option Nat) : State :=
  match s.print.current with
  | none => s
  | some i =>
    match s.printEntry i with
    | none => s
    | some e =>
      if e.document ≠ d ∨ s.print.sheet ≠ .noSheet then s
      else match s.readPage e.document e.pageIndex with
        | .isSealed p _ => if q = some p then s.beginPrintPage else s
        | .noSuchPage => s.beginPrintPage
        | .notReady => s

/-- A page has sealed: the END mark's work in the Page Store, then the Print Engine's (R7, R170, R171). -/
def State.sealPage (s : State) (p : Nat) : State :=
  match s.page p with
  | none => s
  | some r => ((s.finishSeal p).rereadCurrent r.document (some p)).printSelect

/-- The binding of a window ends when its document closes (R53). -/
def Window.unbind (d : Nat) (w : Window) : Window :=
  if w.document = some d then { w with document := none, pagesExpected := 0, pagesEnded := 0 } else w

/-- A document closes (R12): the record, the window bound to it, the print entries that can no longer
print (in ascending number, before the entry that holds the head: DESIGN CHOICE, log entry 58), the entry that
waits for its next page, a selection, and the test for freeing. -/
def State.closeDocument (s : State) (d : Nat) (truncated : Bool) : State :=
  let s1 := s.markClosed d truncated
  let s2 := { s1 with path := { s1.path with
    win := ⟨s1.path.win.w0.unbind d, s1.path.win.w1.unbind d⟩ } }
  let idle := (s2.print.entries.filter (fun x => decide (x.2.document = d ∧ x.2.state = .waiting ∧ x.2.pageIndex = 0))).map (fun x => x.1)
  let s3 := if s2.closedEmpty d then eachNum idle (fun i t => t.finishEmpty i) s2 else s2
  ((s3.rereadCurrent d none).printSelect).testFree d

/-- A print entry is made for a document (R169), or none when 64 entries occupy the queue. -/
def State.makePrintEntry (s : State) (d copies : Nat) (p : PrintPriority) : Option (Nat × State) :=
  match lowestFree Config.printEntries s.print.entries with
  | none => none
  | some i =>
    let e : PrintEntry :=
      { document := d, priority := p, arrival := s.print.arrivals + 1, copiesLeft := copies,
        copiesPrinted := 0, state := .waiting, pageIndex := 0, stopRequested := false, ejected := 0 }
    let s1 := { s with print := { s.print with
      arrivals := s.print.arrivals + 1, entries := tset s.print.entries i e } }
    let s2 := s1.modDoc d (fun r => { r with printRefs := r.printRefs + 1 })
    let s3 := if s2.closedEmpty d then s2.finishEmpty i else s2
    some (i, s3.printSelect)

/-- A print entry asked for by the Scanner Port or a line unit; a full queue sets not queued (R10, R169). -/
def State.requestPrint (s : State) (d copies : Nat) (p : PrintPriority) : State :=
  match s.makePrintEntry d copies p with
  | some (_, s1) => s1
  | none => s.modDoc d (fun r => { r with notQueued := true })

/-- An entry that ends at once (R177). -/
def State.endPrintNow (s : State) (i : Nat) : State :=
  ((s.printDone i .cancelled).recomputePrinter none).printSelect

/-- A print entry is ended as CANCEL PRINT ends it (R177). -/
def State.cancelPrintEntry (s : State) (i : Nat) : State :=
  match s.printEntry i with
  | none => s
  | some e =>
    if e.stopRequested then s
    else if e.state = .printing ∧ s.print.sheet ≠ .noSheet then
      let s1 := s.modPrintEntry i (fun x => { x with stopRequested := true })
      if s.print.sheet = .sheetStarted then s1.sheetOut else s1
    else s.endPrintNow i

/-- A head temperature is taken (R175): the last temperature and the hot flag. -/
def State.takeTemperature (s : State) (t : Nat) : State :=
  let hot := if 65 ≤ t then true else if t ≤ 55 then false else s.print.hot
  ({ s with print := { s.print with temperature := t, hot := hot } }).recomputePrinter none

/-- The current entry has been asked to stop (R177). -/
def State.stopAsked (s : State) : Bool :=
  match s.print.current with
  | none => false
  | some i => match s.printEntry i with
    | some e => e.stopRequested
    | none => false

/-- LINE DONE (R172, R175, R177, R179). While a line is in flight it is that line's, a late one of an abandoned sheet
(R174) included: DESIGN CHOICE (log entry 74). -/
def State.lineDone (s : State) (t : Nat) : State :=
  if s.part ≠ .running then s
  else if s.print.sheet = .lineInFlight then
    let s0 := { s with print := { s.print with sheet := .sheetStarted } }
    let s1 := s0.takeTemperature t
    if s1.print.draining || s1.stopAsked then s1.sheetOut else s1.advanceSheet
  else (s.takeTemperature t).resumePrinter

/-- TEMP (R175). -/
def State.takeTemp (s : State) (t : Nat) : State :=
  if s.part ≠ .running then s else (s.takeTemperature t).resumePrinter

/-- SHEET DONE (R171, R172, R177, R179). While a sheet feeds out it is that sheet's, a late one of an abandoned sheet
(R174) included: DESIGN CHOICE (log entry 74). -/
def State.sheetDone (s : State) : State :=
  if s.part ≠ .running ∨ s.print.sheet ≠ .feedingOut then s
  else
    let s1 := { s with print := { s.print with sheet := .noSheet, decoder := none } }
    if s.print.draining then
      (({ s1 with print := { s1.print with draining := false } }).recomputePrinter none).printSelect
    else match s.print.current with
      | none => s1
      | some i =>
        let s2 := s1.modPrintEntry i (fun e => { e with ejected := e.ejected + 1 })
        if s.stopAsked then s2.endPrintNow i
        else (s2.modPrintEntry i (fun e => { e with pageIndex := e.pageIndex + 1 })).beginPrintPage

/-- A level of the printer port has gone low: a sheet that is started is abandoned, or a drain ends, and the printer
state is worked out again (R174, R177, R179). Where the abandoned sheet's entry has stop requested, PRINTER_STATE is
asked for first and then PRINT_DONE: DESIGN CHOICE (log entry 84). -/
def State.printerLevelLow (s : State) : State :=
  if s.print.sheet = .noSheet then s.recomputePrinter none
  else
    let s1 := { s with print := { s.print with sheet := .noSheet, decoder := none, draining := false } }
    match s.print.current with
    | none => s1.recomputePrinter none
    | some i =>
      match s.printEntry i with
      | none => s1.recomputePrinter none
      | some e =>
        let s2 := s1.recomputePrinter (some (i, e.document, e.pageIndex))
        if e.stopRequested then s2.endPrintNow i else s2

/-- Paper present has changed (R173, R174, R178). -/
def State.paperChange (s : State) (high : Bool) : State :=
  if high = s.print.paperPresent then s
  else
    let s1 := { s with print := { s.print with paperPresent := high } }
    if s.part ≠ .running then s1
    else
      let s2 := { s1 with print := { s1.print with
        sounder := { s1.print.sounder with paper := if high then none else some true } } }
      if high then (s2.recomputePrinter none).resumePrinter else s2.printerLevelLow

/-- Cover closed has changed (R173, R174). -/
def State.coverChange (s : State) (high : Bool) : State :=
  if high = s.print.coverClosed then s
  else
    let s1 := { s with print := { s.print with coverClosed := high } }
    if s.part ≠ .running then s1
    else if high then (s1.recomputePrinter none).resumePrinter else s1.printerLevelLow

/-- The FLASH alert is asked for: the pattern starts, or starts again (R178). -/
def State.flashAlert (s : State) : State :=
  { s with print := { s.print with sounder := { s.print.sounder with flash := some 0 } } }

/-- A pattern's timer reaches the start or end of a burst, or the end of the FLASH pattern (R178). -/
def State.patternTimer (s : State) (p : Pattern) : State :=
  let d := s.print.sounder
  let d' := match p with
    | .flash => { d with flash := match d.flash with
        | some ph => if ph < 4 then some (ph + 1) else none
        | none => none }
    | .paper => { d with paper := d.paper.map (fun b => !b) }
  { s with print := { s.print with sounder := d' } }

/-- What RESTART does to the Print Engine (R179). -/
def State.restartPrint (s : State) : State :=
  let ids := s.print.entries.map (fun x => x.1)
  let s1 := eachNum ids (fun i t => t.printDone i .restart) s
  let s2 := { s1 with print := { s1.print with
    current := none, decoder := none, draining := decide (s.print.sheet ≠ SheetState.noSheet),
    sounder := { s1.print.sounder with flash := none, paper := none } } }
  let s3 := if s.print.sheet = .sheetStarted then s2.sheetOut else s2
  (s3.recomputePrinter none).printSelect

end Sys2Proof.Machine
end

