-- ==== Sys2Proof/Machine/Meter.lean ====
section
/-! DEFINITION. The Meter's operations that touch no other block: zone lookup, the Charge Log and its
overflow queue, and the burn queue (Chapter 11). -/

namespace Sys2Proof.Machine

open Sys2Proof

/-- A text begins with another. -/
def startsWith : Text → Text → Bool
  | _, [] => true
  | [], _ :: _ => false
  | a :: t, b :: p => decide (a = b) && startsWith t p

/-- The longest matching zone of a list, starting from the best so far (R183). -/
def bestZone (number : Text) (best : Nat × Zone) : Table Zone → Nat × Zone
  | [] => best
  | (i, z) :: t =>
    bestZone number
      (if startsWith number z.digits ∧ best.2.digits.length < z.digits.length then (i, z) else best) t

/-- The zone of a number: the used zone with the longest matching prefix, zone 0 when no other matches;
pause marks do not count (R183). -/
def Tariff.lookup (t : Tariff) (number : Text) : Nat × Zone :=
  let zero : Nat × Zone := match tget t.zones 0 with
    | some z => (0, z)
    | none => (0, { digits := [], setup := 0, len := ⟨7200, 7200, 7200⟩, price := ⟨0, 0, 0⟩ })
  bestZone (number.filter (fun c => decide (c ≠ pauseMark))) zero t.zones

/-- The answer of a lookup that a zone is chargeable; every zone is while the Charge Log has no free
record (R183). -/
def Meter.chargeable (m : Meter) (z : Zone) : Bool := z.priced || !m.logRoom

/-- The address of a Control Page word (Table 12-3). -/
def State.controlWord (s : State) (off : Nat) : Nat := s.settings.controlBase + off

/-! ## The Charge Log (R192) -/

/-- A charge record is written at the producer index's position, and then the index word (R192). -/
def State.writeCharge (s : State) (c : ChargeRecord) : State :=
  let m := s.meter
  let s1 := s.issue .meter (m.logBase + (m.producer.toNat % m.logSize) * 64) c.record
  let s2 := { s1 with meter := { s1.meter with producer := m.producer + 1 } }
  s2.issue .meter (s.controlWord 0x80C) (leBytes 4 (m.producer + 1).toNat)

/-- A charge record finds room in the log, or joins the overflow queue (R192). -/
def State.placeCharge (s : State) (c : ChargeRecord) : State :=
  if s.meter.overflow = [] ∧ s.meter.logRoom then s.writeCharge c
  else { s with meter := { s.meter with overflow := s.meter.overflow ++ [c] } }

/-- Records leave the overflow queue for the log, oldest first, while it has room (R192). -/
def drainOverflow : List ChargeRecord → State → State
  | [], s => { s with meter := { s.meter with overflow := [] } }
  | c :: t, s =>
    if s.meter.logRoom then drainOverflow t (s.writeCharge c)
    else { s with meter := { s.meter with overflow := c :: t } }

/-! ## Burns (R194, R195) -/

/-- The burn queue with a desk added: a desk already in it stays in its place with its first reason;
a desk in AUDIT is not queued, except by AUDIT CLEAR (R194). -/
def State.queueBurn (s : State) (d : Nat) (r : BurnReason) : State :=
  match s.desk d with
  | none => s
  | some k =>
    if s.meter.burnQueue.any (fun x => decide (x.1 = d)) ∨ (k.audit ∧ r ≠ .auditClear) then s
    else { s with meter := { s.meter with burnQueue := s.meter.burnQueue ++ [(d, r)] } }

/-- The next burn starts when none is in progress and the queue holds a desk (R195). -/
def State.startBurn (s : State) : State :=
  match s.meter.burn, s.meter.burnQueue with
  | none, (d, r) :: rest =>
    match s.desk d with
    | none => { s with meter := { s.meter with burnQueue := rest } }
    | some k =>
      let c := s.storeCell d
      let b : Burn := { number := s.meter.burnsBegun, desk := d, reason := r, lifetime := k.working, calls := k.calls,
                        sequence := (c.sequence + 1) % 65536 }
      let s1 := s.modDesk d (fun x => { x with captured := some (x.working, x.calls) })
      let s2 := { s1 with meter := { s1.meter with burnQueue := rest, burn := some b, burnsBegun := s1.meter.burnsBegun + 1 } }
      s2.setCell d { c with writing := true }
  | _, _ => s

/-- The tests of R194 that follow a charge: the checkpoint threshold, and the power warning. -/
def State.chargeTests (s : State) (d : Nat) : State :=
  match s.desk d with
  | none => s
  | some k =>
    let s1 := if s.meter.checkpoint ≤ k.pendingAmount ∧ k.captured = none then s.queueBurn d .threshold else s
    let s2 := if s.meter.warning then s1.queueBurn d .power else s1
    s2.startBurn

end Sys2Proof.Machine
end

