-- ==== Sys2Proof/Machine/SendQueue.lean ====
section
/-! DEFINITION. The Send Queue: READY and HELD entries, the line-assignment arbiter and its hand-over,
and the reports of a desk's state (R137 to R146, R188). -/

namespace Sys2Proof.Machine

open Sys2Proof

/-- The states that no longer hold the document (section 8.1). -/
def EntryState.final : EntryState → Bool
  | .done | .failed | .cancelled => true
  | _ => false

/-- The desk's state is OPEN (R188). -/
def State.deskOpen (s : State) (d : Nat) : Bool :=
  match s.desk d with
  | some k => decide (k.state = .opened)
  | none => false

/-- An entry becomes HELD; the first time, DEST_HELD is posted (R145). -/
def State.holdEntry (s : State) (i : Nat) : State :=
  match s.entry i with
  | none => s
  | some e =>
    let s1 := s.modEntry i (fun x => { x with state := .held, heldReported := true })
    if e.heldReported then s1
    else
      let st := match s.desk e.desk with
        | some k => k.state
        | none => .closed
      s1.post .sendQueue (.destHeld i e.desk st (s.meter.tariff.lookup e.number).1 e.orderSeq)

/-- A READY entry is tested against its desk with the tariff loaded (R145). -/
def State.testDesk (s : State) (i : Nat) : State :=
  match s.entry i with
  | none => s
  | some e =>
    if e.state = .ready ∧ s.meter.chargeable (s.meter.tariff.lookup e.number).2 ∧ s.deskOpen e.desk = false then
      s.holdEntry i
    else s

/-- An entry becomes READY with a new ready time, and is tested against its desk (R139, R141). -/
def State.becomeReady (s : State) (i : Nat) : State :=
  let s1 := s.modEntry i (fun e => { e with state := .ready, readyTime := s.sendq.readySeq, countdown := 0 })
  let s2 := { s1 with sendq := { s1.sendq with readySeq := s.sendq.readySeq + 1 } }
  s2.testDesk i

/-- The ids of the entries that satisfy a test, ascending. -/
def State.entryIds (s : State) (p : DestEntry → Bool) : List Nat :=
  (s.sendq.entries.filter (fun x => p x.2)).map (fun x => x.1)

/-! ## The arbiter (R142 to R144) -/

/-- One READY entry goes before another: priority, then ready time, then id (R143). -/
def sendBefore (a b : Nat × DestEntry) : Bool :=
  decide (priorityCode a.2.priority < priorityCode b.2.priority
    ∨ (a.2.priority = b.2.priority ∧ (a.2.readyTime < b.2.readyTime
        ∨ (a.2.readyTime = b.2.readyTime ∧ a.1 < b.1))))

/-- The unit takes outgoing calls: IDLE with mode SEND or BOTH (R97, R142). -/
def LineUnit.canSend (l : LineUnit) : Bool := decide (l.state = .idle ∧ (l.mode = .send ∨ l.mode = .both))

/-- The unit could take an incoming call: IDLE with mode RECEIVE or BOTH (R143). -/
def LineUnit.canReceive (l : LineUnit) : Bool := decide (l.state = .idle ∧ (l.mode = .receive ∨ l.mode = .both))

/-- The keep-for-receive test of a pass for unit `u` (R143). -/
def State.keepTest (s : State) (u : UnitId) : Bool :=
  decide (s.sendq.keepForReceive ≤ (allUnits.filter (fun v => decide (v ≠ u) && (s.unit v).canReceive)).length)

/-- An ACTIVE entry holds the number (R143). -/
def State.numberInUse (s : State) (n : Text) : Bool :=
  s.sendq.entries.any (fun x => decide (x.2.state = .active ∧ x.2.number = n))

/-- The unit takes the hand-over, and the call has started (R99, R144). -/
def State.handOver (s : State) (u : UnitId) (i : Nat) (e : DestEntry) : State :=
  let z := s.meter.tariff.lookup e.number
  let s1 := s.modUnit u (fun l =>
    { l with entry := some i, role := some .caller, answered := false, result := none, attemptBytes := 0,
             state := .seizing, timer := some 4000,
             handOver := some { number := e.number, document := e.document, desk := e.desk,
                                orderSeq := e.orderSeq, confirmed := e.confirmed, zoneIndex := z.1, zone := z.2 } })
  let s2 := s1.sendLink u .seize
  s2.modEntry i (fun x =>
    { x with state := .active, attempts := x.attempts + 1, zone := some z.1, unit := some u, countdown := 0,
             lastResult := none, attemptCharge := 0 })

/-- The arbiter considers READY entries in order and hands over the first that passes every test (R143). -/
def tryEntries (u : UnitId) : List Nat → State → State
  | [], s => s
  | i :: rest, s =>
    match s.entry i with
    | none => tryEntries u rest s
    | some e =>
      if s.numberInUse e.number then tryEntries u rest s
      else if !s.meter.chargeable (s.meter.tariff.lookup e.number).2 then s.handOver u i e
      else if !s.deskOpen e.desk then tryEntries u rest (s.holdEntry i)
      else if !s.meter.logRoom || s.meter.warning then tryEntries u rest s
      else s.handOver u i e

/-- The READY entries in the arbiter's order (R143). -/
def State.readyOrder (s : State) : List Nat :=
  (sortBy sendBefore (s.sendq.entries.filter (fun x => decide (x.2.state = .ready)))).map (fun x => x.1)

/-- One pass for a unit (R143). While the Meter waits it answers no lookup of a pass, and the pass is left until it
goes on (R61): DEDUCED (log entry 16). -/
def State.arbiterPass (s : State) (u : UnitId) : State :=
  if (s.unit u).canSend ∧ s.keepTest u ∧ s.meterWaits = false then tryEntries u s.readyOrder s else s

/-- The arbiter makes its passes, lowest unit first; it makes none before the part is RUNNING or while
it is RESTARTING (R142). -/
def State.arbiterPasses (s : State) : State :=
  if s.part = .running ∧ s.restarting = false then eachUnit (fun u t => t.arbiterPass u) s else s

/-! ## Desk reports (R145, R146, R188) -/

/-- HELD entries of a desk return to READY with their ready times unchanged (R146). -/
def State.returnHeld (s : State) (d : Nat) : State :=
  eachNum (s.entryIds (fun e => decide (e.state = .held ∧ e.desk = d)))
    (fun i t => t.modEntry i (fun e => { e with state := .ready })) s

/-- A desk's state is worked out again (R188). A change posts DESK_STATE and is reported to the Send
Queue, which tests or returns the desk's entries (R145, R146). -/
def State.deskRecompute (s : State) (d : Nat) (cause : DeskCause) : State :=
  match s.desk d with
  | none => s
  | some k =>
    let n := k.derived
    if n = k.state then s
    else
      let s1 := s.modDesk d (fun x => { x with state := n })
      let s2 := s1.post .meter (.deskState d n k.state cause k.spent k.ceiling)
      if n = .opened then (s2.returnHeld d).arbiterPasses
      else eachNum (s2.entryIds (fun e => decide (e.state = .ready ∧ e.desk = d))) (fun i t => t.testDesk i) s2

/-- A charge is added to a desk (R188), with the tests of R194. -/
def State.addCharge (s : State) (d amount : Nat) : State :=
  let s1 := s.modDesk d (fun k =>
    { k with spent := satAdd Config.max32 k.spent amount, working := satAdd Config.max40 k.working amount })
  (s1.deskRecompute d .ceiling).chargeTests d

/-- The Meter is given work while it waits (R61). -/
def State.giveMeter (s : State) (w : MeterWork) : State :=
  { s with meter := { s.meter with work := s.meter.work ++ [w] } }

/-- The Meter charges a desk, once it need no longer wait (R61, R188). -/
def State.chargeDesk (s : State) (d amount : Nat) : State :=
  if s.meterWaits then s.giveMeter (.charge d amount) else s.addCharge d amount

/-! ## Metering a call (R185 to R187) -/

/-- One unit's meter record set. -/
def State.setMeterRec (s : State) (u : UnitId) (r : Option MeterRec) : State :=
  { s with meter := { s.meter with recs := s.meter.recs.set u r } }

/-- Metering starts at the answer (R185). -/
def State.meterStart (s : State) (u : UnitId) : State :=
  match (s.unit u).handOver, (s.unit u).entry with
  | some h, some i =>
    let b := s.meter.tariff.bandAt s.now
    let amount := h.zone.setup + h.zone.price.get b
    let r : MeterRec :=
      { zoneIndex := h.zoneIndex, zone := h.zone, desk := h.desk, entry := i, orderSeq := h.orderSeq,
        number := h.number, answer := s.now, elapsed := 0, nextStart := h.zone.len.get b,
        units := (PerBand.mk 0 0 0).set b 1, charge := min Config.max32 amount, due := [] }
    (s.setMeterRec u (some r)).chargeDesk h.desk amount
  | _, _ => s

/-- The earliest unit due is charged to the call (R186). -/
def MeterRec.settle (r : MeterRec) : MeterRec :=
  match r.due with
  | [] => r
  | b :: rest =>
    { r with charge := satAdd Config.max32 r.charge (r.zone.price.get b),
             units := r.units.set b (satAdd 65535 (r.units.get b) 1), due := rest }

/-- A unit that has reached its start is charged (R186), once the Meter need not wait (R61). -/
def State.settleMeter (s : State) (u : UnitId) : State :=
  if s.meterWaits then s
  else match s.meter.recs.get u with
    | none => s
    | some r =>
      match r.due with
      | [] => s
      | b :: _ => (s.setMeterRec u (some r.settle)).addCharge r.desk (r.zone.price.get b)

/-- The pages confirmed of an entry, which a unit's session has written there with each GOOD (R123, R147). The release
and the outcome report of a unit carry this count: DEDUCED (log entry 88). -/
def State.pagesConfirmed (s : State) (i : Nat) : Nat :=
  match s.entry i with
  | some e => e.confirmed
  | none => 0

/-- The call of a unit as its release finds it: the record carries the result, the pages confirmed and the attempt
bytes of that moment (R187). -/
def State.meteredCall (s : State) (u : UnitId) (r : MeterRec) : MeteredCall :=
  { unit := u, record := r, bytes := (s.unit u).attemptBytes, result := (s.unit u).result,
    confirmed := s.pagesConfirmed r.entry }

/-- Every unit due charged to the call (R187). -/
def MeterRec.settled (r : MeterRec) : MeterRec := r.due.foldl (fun t _ => t.settle) r

/-- The charge record of a call (R187, R192). -/
def MeteredCall.charged (c : MeteredCall) (sequence : Nat) : ChargeRecord :=
  let r := c.record.settled
  { sequence := sequence, orderSeq := r.orderSeq, answer := r.answer, duration := r.elapsed, charge := r.charge,
    bytes := c.bytes, entry := r.entry, units := r.units, desk := r.desk, unit := c.unit, zone := r.zoneIndex,
    result := c.result, confirmed := c.confirmed, number := r.number }

/-- The units of a released call that are still due are charged to its desk (R187). -/
def State.chargeDue (s : State) (r : MeterRec) : State :=
  r.due.foldl (fun t b => t.addCharge r.desk (r.zone.price.get b)) s

/-- The three things that the Meter does at a release, in their order (R187): the desk's calls, the charge record, and
the charge given to the Send Queue (R147). -/
def State.formCharge (s : State) (c : MeteredCall) : State :=
  let r := c.record.settled
  let s1 := (s.chargeDue c.record).modDesk r.desk (fun k => { k with calls := satAdd Config.max24 k.calls 1 })
  let s2 := ({ s1 with meter := { s1.meter with recordSeq := s1.meter.recordSeq + 1 } }).placeCharge
    (c.charged s1.meter.recordSeq)
  s2.modEntry r.entry (fun e =>
    { e with chargeTotal := satAdd Config.max32 e.chargeTotal r.charge, attemptCharge := r.charge })

/-- Metering stops at the release of an answered call (R187). While the Meter waits, the release waits with the call
as it stood (R61). -/
def State.meterRelease (s : State) (u : UnitId) : State :=
  match s.meter.recs.get u with
  | none => s
  | some r =>
    let c := s.meteredCall u r
    if s.meterWaits then (s.setMeterRec u none).giveMeter (.release c)
    else (s.formCharge c).setMeterRec u none

end Sys2Proof.Machine
end

