-- ==== Sys2Proof/Machine/Calls.lean ====
section
/-! DEFINITION. The call around a session: entering IDLE, release, outcome report, glare return, abort
and cancellation (R97 to R115, R147 to R153). -/

namespace Sys2Proof.Machine

open Sys2Proof

/-- A unit that has stood in IDLE, OFF or BLOCKED counts towards a RESTART under way (R77). -/
def State.countRestart (s : State) (u : UnitId) : State :=
  match s.intake.restart with
  | none => s
  | some q => { s with intake := { s.intake with restart := some (q.set u true) } }

/-- A unit comes to rest in IDLE, OFF or BLOCKED with its timer stopped. -/
def State.restUnit (s : State) (u : UnitId) (st : CallState) : State :=
  (s.modUnit u (fun l => { l with state := st, timer := none })).countRestart u

/-- LINE_STATE with the unit as it stands (Table 12-6). -/
def State.postLineState (s : State) (u : UnitId) (r : LineReason) : State :=
  let l := s.unit u
  s.post (.unit u) (.lineState u r l.state l.mode l.pendingMode)

/-- A unit enters IDLE, applying any pending mode first (R97). -/
def State.enterIdle (s : State) (u : UnitId) : State :=
  match (s.unit u).pendingMode with
  | none => s.restUnit u .idle
  | some m =>
    let s1 := s.modUnit u (fun l => { l with mode := m, pendingMode := none })
    (s1.restUnit u (if m = .off then .off else .idle)).postLineState u .modeApplied

/-- The call record of a unit is cleared (R103): entry, role, hand-over, result, attempt bytes and the ringing
fields, for a caller and for an answerer alike, while the release time stays. DESIGN CHOICE (log entry 59). -/
def LineUnit.clearCall (l : LineUnit) : LineUnit :=
  { l with role := none, entry := none, handOver := none, answered := false, result := none, attemptBytes := 0,
           ringCount := 0, caller := none, verdict := .none, glare := false }

/-- The recoders of a unit are idle, their references white and their FIFOs empty (R40, R41). -/
def LineUnit.idleRecoders (l : LineUnit) : LineUnit :=
  { l with tx := TxRecoder.reset, txFifo := [], rx := RxRecoder.reset, rxFifo := [] }

/-- The receive FIFO holds the CARRIER LOST of a reception that it has ended, and the recoder has still to meet it
behind the bytes that came before (R42). -/
def LineUnit.carrierGone (l : LineUnit) : Bool := decide (RxItem.carrierLost ∈ l.rxFifo)

/-- The session of a unit is dropped and its recoders stop (R40, R135). After a CARRIER LOST the receive recoder
goes on, with no page, until it has met the mark (R42); at any other end what its FIFO holds is dropped, DESIGN
CHOICE (log entry 60). -/
def LineUnit.dropSession (l : LineUnit) : LineUnit :=
  let x := { l with callerSession := none, answerer := none }
  if l.carrierGone then { x with tx := TxRecoder.reset, txFifo := [], rx := { l.rx with page := none } }
  else x.idleRecoders

/-- RELEASE is sent and the release time recorded; for an answered outgoing call metering stops (R103). -/
def State.hangUp (s : State) (u : UnitId) : State :=
  let s1 := s.sendLink u .release
  let s2 := s1.modUnit u (fun l => { l with releaseTime := s.now })
  let s3 := if (s.unit u).answered then s2.meterRelease u else s2
  s3.modUnit u LineUnit.dropSession

/-- A unit releases a call and goes to CLEARING with the 2 s guard (R103). -/
def State.releaseCall (s : State) (u : UnitId) : State :=
  (s.hangUp u).modUnit u (fun l => { l with state := .clearing, timer := some 2000 })

/-- An outgoing call ends with a result (R103). -/
def State.endCall (s : State) (u : UnitId) (r : AttemptResult) : State :=
  (s.modUnit u (fun l => { l with result := some r })).releaseCall u

/-- A clock value as half-seconds of the week. -/
def Stamp.halves (t : Stamp) : Nat := t.day * Config.dayHalves + t.half

/-- The half-seconds from one clock value to another, modulo one week (R149). -/
def halvesBetween (a b : Stamp) : Nat := (b.halves + Config.weekHalves - a.halves) % Config.weekHalves

/-- A clock value some half-seconds on, with the day carried modulo 7 (R149); the unset flag is the first value's,
DESIGN CHOICE (log entry 61). -/
def Stamp.later (t : Stamp) (n : Nat) : Stamp :=
  { day := ((t.halves + n) / Config.dayHalves) % 7, half := (t.halves + n) % Config.dayHalves, unset := t.unset }

/-- The half-seconds of a retry interval (R149). -/
def retryHalves (e : DestEntry) : Nat := 120 * e.retryInterval

/-- The state that an outcome gives an entry (R148). -/
def outcomeState (e : DestEntry) (r : AttemptResult) : EntryState :=
  if e.cancelPending then .cancelled
  else match r with
    | .success => .done
    | .refused => .failed
    | _ => if e.attempts < e.maxAttempts then .retryWait else .failed

/-- An entry reaches a final state: it joins the final list and releases its document (R148). -/
def State.finishEntry (s : State) (i d : Nat) : State :=
  ({ s with sendq := { s.sendq with finals := s.sendq.finals ++ [i] } }).dropSendRef d

/-- An entry as an outcome report taken at a clock value leaves it (R148, R149): `e` is the entry that was reported
on. -/
def DestEntry.outcome (e : DestEntry) (c : OutcomeReport) (now : Stamp) (x : DestEntry) : DestEntry :=
  let st := outcomeState e c.result
  { x with unit := none, lastResult := some c.result, state := st, cancelPending := false,
           countdown := if st = .retryWait then retryHalves e - halvesBetween c.releaseTime now else 0,
           nextAttempt := if st = .retryWait then c.releaseTime.later (retryHalves e) else x.nextAttempt }

/-- The attempt's charge of a DEST_RESULT: an unanswered attempt has none (R147). -/
def OutcomeReport.charge (c : OutcomeReport) (e : DestEntry) : Nat := if c.answered then e.attemptCharge else 0

/-- The Send Queue takes an outcome report (R148, R149): DEST_RESULT carries the result, the pages confirmed and the
attempt bytes of the report. -/
def State.takeOutcome (s : State) (c : OutcomeReport) : State :=
  match s.entry c.entry with
  | none => s
  | some e =>
    let st := outcomeState e c.result
    let wait := retryHalves e - halvesBetween c.releaseTime s.now
    let s1 := s.modEntry c.entry (e.outcome c s.now)
    let s2 := s1.post .sendQueue
      (.destResult c.entry e.document e.desk e.attempts (some c.unit) st c.result c.confirmed e.orderSeq c.bytes
        (c.charge e) e.chargeTotal)
    if st.final then s2.finishEntry c.entry e.document
    else if wait = 0 then s2.becomeReady c.entry
    else s2

/-- The report of a unit on an entry: the result, the answered flag, the release time, the pages confirmed and the
attempt bytes (R103). -/
def State.outcomeReport (s : State) (u : UnitId) (i : Nat) : OutcomeReport :=
  let l := s.unit u
  { unit := u, entry := i, result := l.result.getD .aborted, answered := l.answered, releaseTime := l.releaseTime,
    confirmed := s.pagesConfirmed i, bytes := l.attemptBytes }

/-- A piece of the Meter's waiting work gives the charge of a call of an entry (R147). -/
def MeterWork.charges (i : Nat) : MeterWork → Bool
  | .release c => decide (c.record.entry = i)
  | _ => false

/-- The Send Queue takes a unit's outcome report, or keeps it until the Meter has given the call's charge (R147,
R148): the DEST_RESULT follows the charge, which waits while the Meter does (R61). -/
def State.outcome (s : State) (u : UnitId) : State :=
  match (s.unit u).entry with
  | none => s
  | some i =>
    let c := s.outcomeReport u i
    if s.meter.work.any (MeterWork.charges i) then
      { s with sendq := { s.sendq with reports := s.sendq.reports ++ [c] } }
    else s.takeOutcome c

/-- A report that was kept is taken: its entry is still ACTIVE on its unit, which names it no longer (R148). -/
def State.takeKept (s : State) (c : OutcomeReport) : State :=
  match s.entry c.entry with
  | some e =>
    if e.state = .active ∧ e.unit = some c.unit ∧ (s.unit c.unit).entry ≠ some c.entry then s.takeOutcome c else s
  | none => s

/-- The reports kept for an entry are taken (R147, R148). -/
def State.settleReports (s : State) (i : Nat) : State :=
  let mine := s.sendq.reports.filter (fun c => decide (c.entry = i))
  let others := s.sendq.reports.filter (fun c => decide (c.entry ≠ i))
  mine.foldl (fun t c => t.takeKept c) { s with sendq := { s.sendq with reports := others } }

/-- The Send Queue takes an entry back by glare (R150): READY again, it is tested against its desk (R145). -/
def State.glareReturn (s : State) (u : UnitId) : State :=
  match (s.unit u).entry with
  | none => s
  | some i =>
    match s.entry i with
    | none => s
    | some e =>
      let st : EntryState := if e.cancelPending then .cancelled else .ready
      let s1 := s.modEntry i (fun x =>
        { x with attempts := x.attempts - 1, unit := none, lastResult := some .glare, state := st, cancelPending := false })
      let s2 := s1.post .sendQueue
        (.destResult i e.document e.desk (e.attempts - 1) (some u) st .glare e.confirmed e.orderSeq 0 0 e.chargeTotal)
      if e.cancelPending then s2.finishEntry i e.document else s2.testDesk i

/-- The Send Queue aborts a unit's outgoing call (R104); in CLEARING and at rest it has no effect. -/
def State.abortUnit (s : State) (u : UnitId) : State :=
  match (s.unit u).state with
  | .seizing | .dialling | .awaitAnswer => s.endCall u .aborted
  | .inSession => if (s.unit u).role = some .caller then s.endCall u .aborted else s
  | _ => s

/-- The entry is not final and not yet cancelled, so that a cancellation reaches it (R151). -/
def DestEntry.cancellable (e : DestEntry) : Bool := !e.state.final && !e.cancelPending

/-- An entry is cancelled (R151): at once, or by cancel pending and an abort when it is ACTIVE. -/
def State.cancelEntry (s : State) (i : Nat) : State :=
  match s.entry i with
  | none => s
  | some e =>
    if !e.cancellable then s
    else if e.state = .active then
      let s1 := s.modEntry i (fun x => { x with cancelPending := true })
      match e.unit with
      | some u => s1.abortUnit u
      | none => s1
    else
      let s1 := s.modEntry i (fun x => { x with state := .cancelled, countdown := 0, lastResult := some .cancelled })
      let s2 := s1.post .sendQueue
        (.destResult i e.document e.desk e.attempts none .cancelled .cancelled e.confirmed e.orderSeq 0 0 e.chargeTotal)
      s2.finishEntry i e.document

/-- The 2 s guard expires (R103): IDLE or BLOCKED, the outcome report, and the arbiter's passes. -/
def State.clearingDone (s : State) (u : UnitId) : State :=
  if (s.unit u).state ≠ .clearing then s
  else
    let caller := decide ((s.unit u).role = some .caller)
    let s1 := if caller ∧ (s.unit u).dialFailures = 3 then (s.restUnit u .blocked).postLineState u .noDialTone
              else s.enterIdle u
    let s2 := if caller then s1.outcome u else s1
    (s2.modUnit u LineUnit.clearCall).arbiterPasses

end Sys2Proof.Machine
end

