-- ==== Sys2Proof/Machine/Scanner.lean ====
section
/-! DEFINITION. Beginning and abandoning a Page Coder source (R30, R34), and the Scanner Port: lines,
sheets, the end of a session, jams and the stall (Chapter 5). -/

namespace Sys2Proof.Machine

open Sys2Proof

/-! ## Beginning and abandoning a source -/

/-- The owner begins a page for a source: the refusal of the Page Store, or none on success (R30). The request is
answered at once, also while a write of the Page Coder waits for room: DESIGN CHOICE (log entry 76). -/
def State.beginSource (s : State) (i : SourceId) (d : Nat) (w : Width) (v : Resolution) :
    Option OpenRefusal × State :=
  match s.openPage d w v with
  | .refused r => (some r, s)
  | .opened p t =>
    (none, t.modSource i (fun x => { x with page := some p, document := d, width := w, resolution := v, ref := [] }))

/-- A source with its held line, waiting condition, pending open, lines and page dropped (R34). -/
def Source.drop (x : Source) : Source :=
  { x with page := none, ref := [], held := none, wait := none, continuation := false, queue := [],
           endSignal := false }

/-- The owner abandons a source's page (R34), at once, also while a write of the Page Coder waits for room: DESIGN
CHOICE (log entry 76). -/
def State.abandonSource (s : State) (i : SourceId) : State :=
  let s1 := match (s.source i).page with
    | some p => s.abandonPage p
    | none => s
  s1.modSource i Source.drop

/-! ## The session -/

/-- A message to the scanner. -/
def State.sendScanner (s : State) (m : ScannerMsg) : State :=
  { s with scanner := { s.scanner with out := s.scanner.out ++ [m] } }

/-- SCAN_STATE with a session's counts (R90). -/
def State.postScanState (s : State) (c : Scanner) (t : ScanState) (r : ScanReason) : State :=
  s.post .scannerPort
    (.scanState t r c.document c.sheetsBegun c.pagesSealed c.linesTaken c.widthFaults c.overruns)

/-- The four buffer lines, all EMPTY. -/
def emptyBuffer : List BufLine := [.empty, .empty, .empty, .empty]

/-- The session record of a port with no session: its flags, hold and buffer clear (R90). The turn of the buffer
lines starts again at line 0: DESIGN CHOICE (log entry 65). -/
def Scanner.close (c : Scanner) (t : ScanState) : Scanner :=
  { c with state := t, before := t, document := none, beginPending := false, endPending := false,
           lastSheet := false, hold := false, fullPause := false, ackPending := false,
           buffer := emptyBuffer, nextIn := 0 }

/-- A scan session ends (R90). -/
def State.endScan (s : State) (t : ScanState) (r : ScanReason) (truncated : Bool) : State :=
  let c := s.scanner
  let s1 := s.abandonSource .scan
  let s2 := { s1 with scanner := c.close t }
  let s3 := match c.document with
    | some d => s2.closeDocument d truncated
    | none => s2
  s3.postScanState c t r

/-- The answer to a sheet's begin is dealt with (R88). -/
def State.beginSheetPage (s : State) : State :=
  match s.scanner.document with
  | none => s
  | some d =>
    match s.beginSource .scan d s.scanner.width s.scanner.resolution with
    | (none, t) =>
      let t1 := if s.scanner.endPending then t.modSource .scan (fun x => { x with endSignal := true }) else t
      { t1 with scanner := { t1.scanner with beginPending := false, endPending := false } }
    | (some .docFull, t) => t.endScan .idle .docFull true
    | (some _, t) => { t with scanner := { t.scanner with beginPending := true } }

/-- A pending sheet begin is asked again once a block has returned or a page record is FREE (R88). -/
def State.scanRetry (s : State) : State :=
  if s.scanner.active && s.scanner.beginPending then s.beginSheetPage else s

/-- The number of the next EMPTY buffer line in turn, from `nextIn` on (R84). -/
def Scanner.nextEmpty (c : Scanner) : Option Nat :=
  ([0, 1, 2, 3].map (fun k => (c.nextIn + k) % 4)).find? (fun n => decide (c.buffer[n]? = some .empty))

/-- The buffer has become full: feed pause and PAUSED (R85). -/
def Scanner.pauseIfFull (c : Scanner) : Scanner :=
  if c.active ∧ c.emptyLines = 0 then
    { c with fullPause := true, before := if c.state = .paused then c.before else c.state, state := .paused }
  else c

/-- The session takes scan lines: it is active, the part is RUNNING and not RESTARTING (R84). -/
def State.scanOpen (s : State) : Bool := decide (s.part = .running) && !s.restarting && s.scanner.active

/-- A LINE goes into a buffer line and is HELD, complete for the Page Coder (R84). -/
def State.storeLine (s : State) (n : Nat) (dots : List Bool) : State :=
  let c := s.scanner
  let w := widthDots c.width
  let c1 := { c with buffer := c.buffer.set n (.held (fitDots w dots)), nextIn := (n + 1) % 4,
                     linesTaken := satAdd Config.max32 c.linesTaken 1,
                     widthFaults := if dots.length = w then c.widthFaults else satAdd Config.max32 c.widthFaults 1 }
  ({ s with scanner := c1 }).modSource .scan (fun x => { x with queue := x.queue ++ [n] })

/-- A sheet starts when a line is taken in FEEDING (R88). -/
def State.startSheetIfFeeding (s : State) : State :=
  if s.scanner.state = .feeding then
    ({ s with scanner := { s.scanner with
      state := .scanning, sheetsBegun := satAdd 65535 s.scanner.sheetsBegun 1 } }).beginSheetPage
  else s

/-- A discarded line counted as an overrun (R84). -/
def State.scanOverrun (s : State) : State :=
  { s with scanner := { s.scanner with overruns := satAdd Config.max32 s.scanner.overruns 1 } }

/-- A LINE message (R84, R85, R88). -/
def State.takeScanLine (s : State) (dots : List Bool) : State :=
  if !s.scanOpen then s
  else if s.scanner.hold then s.scanOverrun
  else match s.scanner.nextEmpty with
    | none => s.scanOverrun
    | some n =>
      let s1 := (s.storeLine n dots).startSheetIfFeeding
      { s1 with scanner := s1.scanner.pauseIfFull }

/-- A SHEET END message (R84, R89, R91). -/
def State.takeSheetEnd (s : State) : State :=
  if !s.scanOpen || s.scanner.hold then s
  else if s.scanner.state = .feeding then
    let s1 := { s with scanner := { s.scanner with sheetsBegun := satAdd 65535 s.scanner.sheetsBegun 1 } }
    if s.scanner.sheetPresent then s1 else s1.endScan .idle .done false
  else
    let c := s.scanner
    let s1 := { s with scanner := { c with
      lastSheet := !c.sheetPresent, state := .feeding, before := .feeding, hold := true,
      endPending := c.beginPending } }
    if c.beginPending then s1 else s1.modSource .scan (fun x => { x with endSignal := true })

/-- The mode acknowledgement releases the pause of a session's start (R87). While a session is active it is that
session's, a late one of an earlier session included: DESIGN CHOICE (log entry 77). -/
def State.takeModeAck (s : State) : State :=
  if s.scanner.active then { s with scanner := { s.scanner with ackPending := false } } else s

/-- The port leaves JAMMED for IDLE with reason CLEARED and no document (R94); that every count of it is 0 is a DESIGN
CHOICE (log entry 71). -/
def State.clearJammed (s : State) : State :=
  ({ s with scanner := s.scanner.close .idle }).post .scannerPort (.scanState .idle .cleared none 0 0 0 0 0)

/-- The sheet present level changes (R91, R94). -/
def State.sheetPresentChange (s : State) (high : Bool) : State :=
  let s1 := { s with scanner := { s.scanner with sheetPresent := high } }
  if high ∨ s.scanner.sheetPresent = false then s1
  else match s.scanner.state with
    | .feeding => if s.scanner.hold then s1 else s1.endScan .idle .done false
    | .jammed => s1.clearJammed
    | _ => s1

/-- The jam level changes (R94). Until the part is RUNNING only the level is kept. -/
def State.jamChange (s : State) (high : Bool) : State :=
  let s1 := { s with scanner := { s.scanner with jam := high } }
  if s.part ≠ .running ∨ high = s.scanner.jam then s1
  else if high then
    match s.scanner.state with
    | .feeding | .scanning | .paused => s1.endScan .jammed .jammed true
    | .idle => ({ s1 with scanner := s1.scanner.close .jammed }).post .scannerPort
        (.scanState .jammed .jammed none 0 0 0 0 0)
    | .jammed => s1
  else if s.scanner.state = .jammed ∧ s.scanner.sheetPresent = false then s1.clearJammed
  else s1

/-- The Page Coder frees a buffer line; the pause of a full buffer releases at two EMPTY lines (R85). -/
def State.freeBufferLine (s : State) (n : Nat) : State :=
  let c := { s.scanner with buffer := s.scanner.buffer.set n .empty }
  let c1 := if c.fullPause ∧ 2 ≤ c.emptyLines then
      { c with fullPause := false, state := if c.state = .paused then c.before else c.state }
    else c
  { s with scanner := c1 }

/-- A page of the scanner source has sealed (R89). `last` says that it was the sheet's last page; the
hold then ends, and with it the session when the feeder is empty (R91). -/
def State.scanSealed (s : State) (last : Bool) : State :=
  let c := { s.scanner with pagesSealed := s.scanner.pagesSealed + 1 }
  if !last then { s with scanner := c }
  else
    let s1 := { s with scanner := { c with hold := false } }
    if c.lastSheet || !c.sheetPresent then s1.endScan .idle .done false else s1

end Sys2Proof.Machine
end

