-- ==== Sys2Proof/Machine/Intake.lean ====
section
/-! DEFINITION. The Order Intake: the start and the finish of a take, and the fields of an order body
(R66 to R71, Tables 12-4 and 12-5). -/

namespace Sys2Proof.Machine

open Sys2Proof

/-- The address of an order slot (Table 12-3). -/
def State.slotAddr (s : State) (n : Nat) : Nat := s.controlWord (n * 64)

/-- The sequence number in a slot's post word, as the part reads it. -/
def State.slotSeq (s : State) (n : Nat) : Word := BitVec.ofNat 32 (s.readNum (s.slotAddr n + 4) 4)

/-- A take starts on the expected slot: the order-taken sequence word is written and the slot read is
issued (R67). -/
def State.startTake (s : State) : State :=
  let s1 := s.issue .orderIntake (s.controlWord 0x800) (leBytes 4 (s.slotSeq s.intake.expected).toNat)
  { s1 with intake := { s1.intake with take := .reading } }

/-- In WAITING a take starts as soon as the expected slot is posted (R67), and no write of the Order Intake waits for
room (R61). -/
def State.beginTake (s : State) : State :=
  if s.intake.take = .waiting ∧ s.intake.expected ∈ s.path.posted ∧ s.stalled .orderIntake = false then s.startTake else s

/-- The Order Intake is told that a slot is posted (R67). -/
def State.slotPosted (s : State) (n : Nat) : State := if s.intake.expected = n then s.beginTake else s

/-- The order stands at its owner: DUMP and RESTART hold the intake there (R70). -/
def State.holdAtOwner (s : State) : State := { s with intake := { s.intake with take := .atOwner } }

/-- The expected slot advances, and the next take begins when that slot is posted (R67). -/
def State.advanceSlot (s : State) : State :=
  ({ s with intake := { s.intake with expected := (s.intake.expected + 1) % 32, take := .waiting } }).beginTake

/-- The take that is FINISHING ends once its clearing write has been issued, and the expected slot advances (R67). -/
def State.settleTake (s : State) : State :=
  match s.intake.finish with
  | none => s
  | some _ =>
    if s.stalled .orderIntake then s
    else ({ s with intake := { s.intake with finish := none } }).advanceSlot

/-- A take finishes (R69): result, sequence field and cleared post word are issued in that order, ORDER_DONE is asked
for, and the take is FINISHING until the writes have been issued (R67). The request stands ahead of what follows from
the order (R70), and the Event Reporter takes it once the clearing write has been issued: DESIGN CHOICE (log entry
68). -/
def State.finishTake (s : State) (kind : Byte) (r : Result) (values : List Nat) : State :=
  let n := s.intake.expected
  let a := s.slotAddr n
  let q := s.slotSeq n
  let s1 := s.issue .orderIntake (a + 12) ([byteOf (resultCode r), 0, 0, 0] ++ resultWords values)
  let s2 := s1.issue .orderIntake (a + 8) (leBytes 4 q.toNat)
  let s3 := { s2 with path := s2.path.issue .orderIntake (a + 4) (leBytes 4 0) (some n) }
  let s4 := { s3 with intake := { s3.intake with
    take := .finishing, finish := some { kind := kind, result := r, seq := q, values := values } } }
  (s4.post .orderIntake (.orderDone n kind r q values)).settleTake

/-- The kind byte of the slot being taken. -/
def State.slotKind (s : State) : Byte := s.readByte (s.slotAddr s.intake.expected)

/-- The slot read has returned, and the Order Intake can go on with it: no pending write overlaps the slot, and
the intake has no write that waits for room in the queue (R61, R68). -/
def State.takeReady (s : State) : Bool :=
  decide (s.part = .running ∧ s.intake.take = .reading) && !s.stalled .orderIntake
    && !s.path.blocked (s.slotAddr s.intake.expected) 64

/-- The block that carries out an order, where it is one that issues writes of its own (Table 4-4). -/
def orderOwner : OrderKind → Block
  | .openWindowPage | .closeWindowPage => .memoryPath
  | .setClock | .loadTariff | .setDesk | .closePeriod | .auditClear | .flushMeter => .meter
  | _ => .orderIntake

/-- The slot read has returned an order of this kind, and its owner can take it: no write of the owner waits
for room (R61, R68). -/
def State.takes (s : State) (k : OrderKind) : Bool :=
  s.takeReady && decide (s.slotKind.toNat = orderCode k) && !s.stalled (orderOwner k)

/-- A field of `n` bytes at an offset of the order body (Table 12-5). -/
def State.body (s : State) (off n : Nat) : Nat := s.readNum (s.slotAddr s.intake.expected + 32 + off) n

/-- Raw bytes at an offset of the order body. -/
def State.bodyBytes (s : State) (off n : Nat) : List Byte :=
  s.readThrough (s.slotAddr s.intake.expected + 32 + off) n

/-- A take finishes with the result of an order of known kind. -/
def State.answer (s : State) (k : OrderKind) (r : Result) (values : List Nat) : State :=
  s.finishTake (byteOf (orderCode k)) r values

/-! ## The end of a DUMP (R74) -/

/-- A DUMP's result values: records in the set, records written, and with PURGE the entries freed (R74,
R75). -/
def DumpState.values (d : DumpState) : List Nat :=
  [d.total, d.written] ++ (if d.purge then [d.purged] else [])

/-- The DUMP is finished (R74). -/
def State.finishDump (s : State) (d : DumpState) : State :=
  ({ s with intake := { s.intake with dump := none } }).answer .dump .accepted d.values

/-- A DUMP with no record left to write finishes once its last write has been issued (R70, R74). -/
def State.settleDump (s : State) : State :=
  match s.intake.dump with
  | none => s
  | some d => if d.left = [] ∧ s.stalled .dump = false then s.finishDump d else s

end Sys2Proof.Machine
end

