-- ==== Sys2Proof/Machine/Path.lean ====
section
/-! DEFINITION. The Memory Path: areas and their treatment of host accesses, guard-hit records, raster
windows, host reads and writes, and the pending-write queue (Chapter 3). -/

namespace Sys2Proof.Machine

open Sys2Proof

/-! ## Areas (R45, R50, R52, Table 3-1) -/

/-- What a host access to an address meets. -/
inductive Area where
  | pass
  | setupPage
  | guarded (g : GuardArea)
  | window (w : WindowId)
  | slot (n : Nat)
  | eventConsumer
  | chargeConsumer
  deriving DecidableEq, Repr

/-- An address lies in a run of bytes. -/
def inRun (a base len : Nat) : Bool := decide (base ≤ a ∧ a < base + len)

/-- The used RASTER regions' numbers, lowest first (R50). -/
def MemPath.rasters (p : MemPath) : List Nat :=
  (p.regions.filter (fun r => decide (r.2.treatment = .raster))).map (fun r => r.1)

/-- The region of a raster window, or none where the number names no RASTER region (R50). -/
def MemPath.windowRegion (p : MemPath) (w : WindowId) : Option Region :=
  match p.rasters[windowNum w]? with
  | some i => tget p.regions i
  | none => none

/-- The area that the Region Table gives an address (R45, R50). -/
def MemPath.regionArea (p : MemPath) (a : Nat) : Area :=
  match p.regions.find? (fun r => inRun a r.2.base r.2.size) with
  | none => .pass
  | some (i, r) =>
    match r.treatment with
    | .pass => .pass
    | .guard => .guarded (.region i)
    | .raster => if p.rasters[0]? = some i then .window .w0 else .window .w1

/-- The area of an offset of the Control Page (Table 12-3, R52). Each order slot is an area of its own, although the
order ring has one guard-hit record (R51): DESIGN CHOICE (log entry 82). -/
def controlArea (off : Nat) : Area :=
  if off < 0x800 then .slot (off / 64)
  else if off < 0x814 then .guarded .controlWord
  else if inRun off 0x840 4 then .eventConsumer
  else if inRun off 0x844 4 then .chargeConsumer
  else .pass

/-- The area of an address while the part is RUNNING (R45). -/
def State.area (s : State) (a : Nat) : Area :=
  if a < 4096 then .setupPage
  else if inRun a s.store.base (s.store.blockCount * Config.blockBytes) then .guarded .pool
  else if inRun a s.settings.eventBase (Config.ringRecords * 32) then .guarded .eventRing
  else if inRun a s.meter.logBase (s.meter.logSize * 64) then .guarded .chargeLog
  else if inRun a s.settings.controlBase 4096 then controlArea (a - s.settings.controlBase)
  else s.path.regionArea a

/-- The area of an address in any part state: before RUNNING only the Setup Page is told apart (R45). -/
def State.hostArea (s : State) (a : Nat) : Area :=
  if s.part = .running then s.area a else if a < 4096 then .setupPage else .pass

/-! ## Refused writes (R51) -/

/-- The guard-hit record of an area; none while it is idle. -/
def guardOf : List (GuardArea × GuardRec) → GuardArea → Option GuardRec
  | [], _ => none
  | (h, r) :: t, g => if h = g then some r else guardOf t g

/-- The guard-hit records with one set. -/
def setGuard (g : GuardArea) (r : GuardRec) : List (GuardArea × GuardRec) → List (GuardArea × GuardRec)
  | [] => [(g, r)]
  | (h, q) :: t => if h = g then (g, r) :: t else (h, q) :: setGuard g r t

/-- The guard-hit records with one idle. -/
def dropGuard (g : GuardArea) (t : List (GuardArea × GuardRec)) : List (GuardArea × GuardRec) :=
  t.filter (fun x => decide (x.1 ≠ g))

/-- One guard-hit record set. -/
def State.putGuard (s : State) (g : GuardArea) (r : GuardRec) : State :=
  { s with path := { s.path with guards := setGuard g r s.path.guards } }

/-- The address of an Event Ring record (R79). -/
def State.ringAddr (s : State) (x : Word) : Nat := s.settings.eventBase + 32 * (x.toNat % Config.ringRecords)

/-- The Memory Path writes the count of a GUARD_HIT record already in the ring (R51). -/
def State.rewriteCount (s : State) (x : Word) (n : Nat) : State :=
  s.issue .memoryPath (s.ringAddr x + 1) (leBytes 2 n)

/-- A refused host write is reported through the guard-hit record of its area (R51): an idle record asks for
GUARD_HIT, and a pending one counts. -/
def State.guardHit (s : State) (g : GuardArea) (a : Nat) : State :=
  match guardOf s.path.guards g with
  | none => s.post .memoryPath (.guardHit g a)
  | some r =>
    let n := satAdd 65535 r.count 1
    (s.putGuard g { r with count := n }).rewriteCount r.index n

/-! ## Consumer index writes (R81, R192) -/

/-- The missed-event count word is written (R80). -/
def State.writeMissed (s : State) : State :=
  s.issue .eventReporter (s.controlWord 0x808) (leBytes 4 s.reporter.missed)

/-- The guard-hit records whose ring position the consumer index has passed become idle (R51). -/
def passGuards (r : Reporter) (t : List (GuardArea × GuardRec)) : List (GuardArea × GuardRec) :=
  t.filter (fun x => decide ((r.producer - x.2.index).toNat ≤ r.unread))

/-- A host write of the Event Ring consumer index reaches the Event Reporter (R81, R82). -/
def State.takeEventConsumer (s : State) (v : Word) : State :=
  let r := s.reporter
  if Config.ringRecords < (r.producer - v).toNat then s
  else
    let r1 := { r with consumer := v, holdOff := decide (0 < s.settings.holdOffMs),
                       missed := if v = r.producer then 0 else r.missed }
    let s1 := { s with reporter := r1, path := { s.path with guards := passGuards r1 s.path.guards } }
    if v = r.producer then s1.writeMissed else s1

/-- A host write of the Event Ring consumer index is given to the Event Reporter (R52), which takes it once no write of
it waits for room (R61). -/
def State.giveReporter (s : State) (v : Word) : State :=
  if s.stalled .eventReporter ∨ s.reporter.given ≠ [] then
    { s with reporter := { s.reporter with given := s.reporter.given ++ [v] } }
  else s.takeEventConsumer v

/-- The Event Reporter takes the consumer writes that it was given while it waited, until a write of it waits for room
again (R61). -/
def takeGiven : Nat → State → State
  | 0, s => s
  | fuel + 1, s =>
    match s.reporter.given with
    | [] => s
    | v :: rest =>
      if s.stalled .eventReporter then s
      else takeGiven fuel (({ s with reporter := { s.reporter with given := rest } }).takeEventConsumer v)

/-- A host write of the Charge Log consumer index reaches the Meter (R192): the overflow queue moves
into the log, and the arbiter makes its passes when the log has room (R142). -/
def State.takeChargeConsumer (s : State) (v : Word) : State :=
  if s.meter.logSize < (s.meter.producer - v).toNat then s
  else
    let s1 := { s with meter := { s.meter with consumer := v } }
    let s2 := drainOverflow s1.meter.overflow s1
    if s2.meter.logRoom ∧ s2.meter.overflow = [] then s2.arbiterPasses else s2

/-- A host write of the Charge Log consumer index is given to the Meter (R52), which takes it once it need not wait
(R61). -/
def State.giveConsumer (s : State) (v : Word) : State :=
  if s.meterWaits then s.giveMeter (.consumer v) else s.takeChargeConsumer v

/-- The Meter does one piece of the work that it was given while it waited (R61). -/
def State.doWork (s : State) : MeterWork → State
  | .charge d a => s.addCharge d a
  | .release c => s.formCharge c
  | .consumer v => s.takeChargeConsumer v

/-- The first piece of work is done and leaves the list; the charge of a call lets its outcome report be taken
(R147). -/
def State.finishWork (s : State) (w : MeterWork) : State :=
  let s1 := s.doWork w
  let s2 := { s1 with meter := { s1.meter with work := s1.meter.work.tail } }
  match w with
  | .release c => s2.settleReports c.record.entry
  | _ => s2

/-- The Meter does what it was given while it waited, in order, until a write of it waits for room again (R61). -/
def runWork : Nat → State → State
  | 0, s => s
  | fuel + 1, s =>
    match s.meter.work with
    | [] => s
    | w :: _ => if s.stalled .meter then s else runWork fuel (s.finishWork w)

/-! ## Raster windows (R55 to R60) -/

/-- One slot of a window. -/
def Window.slot (x : Window) : SlotId → Slot
  | .a => x.slotA
  | .b => x.slotB

/-- One slot of a window set. -/
def Window.setSlot (x : Window) (i : SlotId) (t : Slot) : Window :=
  match i with
  | .a => { x with slotA := t }
  | .b => { x with slotB := t }

/-- The other slot. -/
def otherSlot : SlotId → SlotId
  | .a => .b
  | .b => .a

/-- A slot's number in a source's queue. -/
def slotNum : SlotId → Nat
  | .a => 0
  | .b => 1

/-- The slot of a number in a source's queue. -/
def slotOf (n : Nat) : SlotId := if n = 0 then .a else .b

/-- A window page ends: the end signal is given, its seal is pending and the window is IDLE (R57). -/
def State.endWindowPage (s : State) (w : WindowId) : State :=
  (s.modWindow w (fun x => { x with sealPending := true, state := .idle })).modSource (.win w)
    (fun x => { x with endSignal := true })

/-- A slot's line is handed to the Page Coder, unwritten bytes white (R57, R58). -/
def State.handSlot (s : State) (w : WindowId) (i : SlotId) : State :=
  let x := s.window w
  let s1 := s.modWindow w (fun y => { (y.setSlot i
      { state := .coding, bytes := fitBytes y.lineBytes (y.slot i).bytes, marks := [] }) with
    next := otherSlot i, linesHanded := satAdd Config.max32 y.linesHanded 1,
    linesRemaining := if y.linesExpected = 0 then y.linesRemaining else y.linesRemaining - 1 })
  let s2 := s1.modSource (.win w) (fun y => { y with queue := y.queue ++ [slotNum i] })
  if x.linesExpected ≠ 0 ∧ x.linesRemaining ≤ 1 then s2.endWindowPage w else s2

/-- How a window has dealt with a write: taken whole, refused in whole or part, or held with what is
left of it. -/
inductive WindowAnswer where
  | taken (s : State)
  | refused (s : State)
  | held (left : Seg) (s : State)

/-- The bytes that a segment's enabled lanes carry. -/
def Seg.bytes (g : Seg) : List Byte := g.lanes.filterMap id

/-- A write to a FIXED window, byte by byte (R55). -/
def placeFixed (w : WindowId) (addr : Nat) : List Byte → State → WindowAnswer
  | [], s => .taken s
  | b :: t, s =>
    let x := s.window w
    if x.state = .idle then .refused (s.guardHit (.window w) addr)
    else
      let c := x.slot x.next
      if c.state = .complete ∨ c.state = .coding then
        .held { addr := addr, lanes := (b :: t).map some } (s.modWindow w (fun y => { y with state := .holding }))
      else
        let bs := c.bytes ++ [b]
        let s1 := s.modWindow w (fun y => y.setSlot y.next { state := .filling, bytes := bs, marks := [] })
        placeFixed w addr t (if x.lineBytes ≤ bs.length then s1.handSlot w x.next else s1)

/-- The slots and offsets that an INDEXED write's bytes fall in: offset from the region's base, byte. -/
def indexedBytes : Nat → List Lane → List (Nat × Byte)
  | _, [] => []
  | o, none :: t => indexedBytes (o + 1) t
  | o, some b :: t => (o, b) :: indexedBytes (o + 1) t

/-- A slot with bytes stored at offsets and every touched word marked (R56). -/
def storeIndexed (n : Nat) (bs : List (Nat × Byte)) (t : Slot) : Slot :=
  if bs = [] then t
  else
    let start := if t.state = .empty then zeroBytes n else t.bytes
    let marks := bs.foldl (fun m x => insertNum (x.1 / 4) m) t.marks
    { state := if n / 4 ≤ marks.length then .complete else .filling,
      bytes := bs.foldl (fun l x => l.set x.1 x.2) start, marks := marks }

/-- The COMPLETE slot whose turn it is, is handed; its fellow may follow (R56, R57). -/
def State.handTurns (s : State) (w : WindowId) : Nat → State
  | 0 => s
  | n + 1 =>
    let x := s.window w
    if x.state ≠ .idle ∧ (x.slot x.next).state = .complete then (s.handSlot w x.next).handTurns w n else s

/-- A slot still holds a line that the Page Coder has not freed (R56). -/
def Slot.busy (t : Slot) : Bool := decide (t.state = .complete ∨ t.state = .coding)

/-- A write to an INDEXED window (R56). -/
def placeIndexed (w : WindowId) (base : Nat) (g : Seg) (s : State) : WindowAnswer :=
  let x := s.window w
  let n := x.lineBytes
  let bs := indexedBytes (g.addr - base) g.lanes
  let toA := bs.filter (fun p => decide (p.1 < n))
  let toB := (bs.filter (fun p => decide (n ≤ p.1))).map (fun p => (p.1 - n, p.2))
  if bs.any (fun p => decide (2 * n ≤ p.1)) then .refused (s.guardHit (.window w) g.addr)
  else if (toA ≠ [] ∧ x.slotA.busy) ∨ (toB ≠ [] ∧ x.slotB.busy) then
    .held g (s.modWindow w (fun y => { y with state := .holding }))
  else
    let s1 := s.modWindow w (fun y =>
      { y with slotA := storeIndexed n toA y.slotA, slotB := storeIndexed n toB y.slotB })
    .taken (s1.handTurns w 2)

/-- A host write to a window's region (R53, R55, R56). A held write that is retried finds its window
OPEN again when nothing of it has to wait (R59). -/
def State.windowWrite (s : State) (w : WindowId) (g : Seg) : WindowAnswer :=
  let x := s.window w
  match x.state, s.path.windowRegion w with
  | .idle, _ => .refused (s.guardHit (.window w) g.addr)
  | _, none => .refused (s.guardHit (.window w) g.addr)
  | _, some r =>
    let s1 := s.modWindow w (fun y => { y with state := .opened })
    match x.mode with
    | .fixed => placeFixed w g.addr g.bytes s1
    | .indexed => placeIndexed w r.base g s1

/-! ## Host accesses (R45, R46, R52, R61) -/

/-- The status bytes of ALREADY RUNNING are written and the Setup post word is cleared (R49). -/
def State.alreadyRunning (s : State) : State :=
  (s.issue .memoryPath 4 [3, 0, 0, 0]).issue .memoryPath 0 (leBytes 4 0)

/-- A host write to the Setup Page has been performed: a Setup post word written and left nonzero is
taken (R46, R49). -/
def State.watchSetup (s : State) (g : Seg) : State :=
  if g.addr < 4 ∧ s.readNum 0 4 ≠ 0 then
    match s.part with
    | .unconfigured => { s with part := .setup }
    | .setup => s
    | .running => s.alreadyRunning
  else s

/-- A host write to an order slot has been performed: a post word left nonzero posts the slot (R52). -/
def State.watchSlot (s : State) (n : Nat) : State :=
  if s.readNum (s.slotAddr n + 4) 4 ≠ 0 then
    ({ s with path := { s.path with posted := insertNum n s.path.posted } }).slotPosted n
  else s

/-- What follows a host write once it has been performed (R46, R49, R52). -/
def State.watch (s : State) (a : Area) (g : Seg) : State :=
  match a with
  | .setupPage => s.watchSetup g
  | .slot n => s.watchSlot n
  | .eventConsumer => s.giveReporter (BitVec.ofNat 32 (s.readNum (s.controlWord 0x840) 4))
  | .chargeConsumer => s.giveConsumer (BitVec.ofNat 32 (s.readNum (s.controlWord 0x844) 4))
  | _ => s

/-- A write that passes is carried to page memory with its byte enables (R45). -/
def State.performHost (s : State) (a : Area) (g : Seg) : State :=
  ({ s with mem := s.mem.writeLanes g.addr g.lanes }).watch a g

/-- How one part of a host write has gone. -/
inductive SegAnswer where
  | done (s : State) (refused : Bool)
  | behind
  | held (w : WindowId) (left : Seg) (s : State)

/-- A host write to one area: passed, refused, held, or given to a window. It is held behind pending writes that
overlap it, and while a write of the Memory Path itself waits for room (R61). An access that passes the end of
page memory is refused (R45). -/
def State.hostSeg (s : State) (g : Seg) : SegAnswer :=
  let pass (a : Area) : SegAnswer :=
    if s.path.blocked g.addr g.lanes.length then .behind else .done (s.performHost a g) false
  if s.stalled .memoryPath then .behind
  else if memBytes s.memSize < g.addr + g.lanes.length then
    .done (if s.part = .running then s.guardHit .outside g.addr else s) true
  else match s.hostArea g.addr with
  | .pass => pass .pass
  | .setupPage => if s.part = .setup then .done s true else pass .setupPage
  | .guarded r => .done (s.guardHit r g.addr) true
  | .slot n => if n ∈ s.path.posted then .done (s.guardHit .orderSlot g.addr) true else pass (.slot n)
  | .eventConsumer => pass .eventConsumer
  | .chargeConsumer => pass .chargeConsumer
  | .window w => match s.windowWrite w g with
    | .taken t => .done t false
    | .refused t => .done t true
    | .held left t => .held w left t

/-- The host's bus cycle ends (R45). -/
def State.endCycle (s : State) (r : BusResult) : State :=
  { s with path := { s.path with bus := .free, result := r } }

/-- The host's bus cycle stays open (R59, R61). -/
def State.holdCycle (s : State) (b : HostBus) : State := { s with path := { s.path with bus := b } }

/-- The parts of a host write one after another; `err` says that one has been refused (R45). -/
def runSegs : List Seg → Bool → State → State
  | [], err, s => s.endCycle (if err then .busError else .written)
  | g :: rest, err, s =>
    match s.hostSeg g with
    | .done t bad => runSegs rest (err || bad) t
    | .behind => s.holdCycle (.heldWrite (g :: rest) err)
    | .held w left t => t.holdCycle (.windowHold w left rest err)

/-- A host write cut where it passes from one area to another (R45), each part with the lanes it covers;
`acc` holds the lanes of the part being gathered, last first. It is cut where one order slot ends and the next begins:
DESIGN CHOICE (log entry 82). -/
def cutSegs (area : Nat → Area) : Nat → List Lane → Nat → List Lane → List Seg
  | start, acc, _, [] => if acc = [] then [] else [{ addr := start, lanes := acc.reverse }]
  | start, acc, a, l :: t =>
    if acc = [] then cutSegs area a [l] (a + 1) t
    else if area a = area start then cutSegs area start (l :: acc) (a + 1) t
    else { addr := start, lanes := acc.reverse } :: cutSegs area a [l] (a + 1) t

/-- The parts of a host write, less those with no byte enabled (R45). -/
def State.segs (s : State) (a : Nat) (lanes : List Lane) : List Seg :=
  (cutSegs s.hostArea a [] a lanes).filter (fun g => decide (g.bytes ≠ []))

/-- A host write (R45). While a bus cycle is open the host issues no further access (R59). -/
def State.hostWrite (s : State) (a : Nat) (lanes : List Lane) : State :=
  if s.path.bus ≠ .free then s
  else if memBytes s.memSize < a + lanes.length then runSegs [{ addr := a, lanes := lanes }] false s
  else runSegs (s.segs a lanes) false s

/-- A host read has to wait: a pending write overlaps it, or a write of the Memory Path waits for room (R61). -/
def State.readWaits (s : State) (a n : Nat) : Bool := s.path.blocked a n || s.stalled .memoryPath

/-- A host read (R45, R61). -/
def State.hostRead (s : State) (a n : Nat) : State :=
  if s.path.bus ≠ .free then s
  else if memBytes s.memSize < a + n then s.endCycle .busError
  else if s.readWaits a n then s.holdCycle (.heldRead a n)
  else s.endCycle (.data (s.mem.readBytes a n))

/-- A held access that need no longer wait behind pending writes goes on (R61). A window's held write is tried
again too: it can be placed only where a slot was freed while a write of the Memory Path waited for room. -/
def State.resumeHost (s : State) : State :=
  match s.path.bus with
  | .heldRead a n => if s.readWaits a n then s else s.endCycle (.data (s.mem.readBytes a n))
  | .heldWrite gs err => runSegs gs err s
  | .windowHold _ g rest err => if s.stalled .memoryPath then s else runSegs (g :: rest) err s
  | .free => s

/-- A window's held write is retried (R59), unless a write of the Memory Path waits for room (R61). -/
def State.retryHeld (s : State) (w : WindowId) : State :=
  match s.path.bus with
  | .windowHold v g rest err => if v = w ∧ s.stalled .memoryPath = false then runSegs (g :: rest) err s else s
  | _ => s

/-- The Page Coder frees a slot of a window: EMPTY, white, no marks; a held write is retried (R57, R59). -/
def State.freeSlot (s : State) (w : WindowId) (i : SlotId) : State :=
  (s.modWindow w (fun x => x.setSlot i Slot.clear)).retryHeld w

/-- The window ends its page without a seal (R59, R60, R64): the source's page is abandoned, the slots
emptied, a held write ends with a bus error, and WINDOW_ABANDONED is posted. -/
def State.abandonWindow (s : State) (w : WindowId) (r : AbandonReason) : State :=
  let x := s.window w
  let s1 := s.abandonSource (.win w)
  let s2 := s1.modWindow w (fun y =>
    { y with slotA := Slot.clear, slotB := Slot.clear, state := .idle, sealPending := false, page := none })
  let d := x.document.getD 0
  let s3 := s2.modDoc d (fun y => { y with attached := false })
  let s4 := s3.post .memoryPath (.windowAbandoned w r d x.page x.linesHanded)
  match s.path.bus with
  | .windowHold v _ rest _ => if v = w then runSegs rest true s4 else s4
  | _ => s4

/-- A write is held by a window and its hold timer runs (R59). -/
def State.holdsWrite (s : State) (w : WindowId) : Bool :=
  match s.path.bus with
  | .windowHold v _ _ _ => decide (v = w)
  | _ => false

/-- A window's page has sealed (R57). `last` says that the window page ended with it; a continuation
does not count in pages ended. -/
def State.windowSealed (s : State) (w : WindowId) (last : Bool) : State :=
  if !last then s.modWindow w (fun x => { x with page := none })
  else
    let x := s.window w
    let s1 := s.modWindow w (fun y =>
      { y with sealPending := false, page := none, pagesEnded := min 250 (y.pagesEnded + 1) })
    match x.document with
    | none => s1
    | some d =>
      let s2 := s1.modDoc d (fun y => { y with attached := false })
      if x.pagesExpected ≠ 0 ∧ x.pagesEnded + 1 = x.pagesExpected then s2.closeDocument d false else s2

/-- RESTART's effect on a window (R64). -/
def State.restartWindow (s : State) (w : WindowId) : State :=
  let x := s.window w
  if x.state ≠ .idle ∨ x.sealPending then s.abandonWindow w .restart else s

/-! ## The pending-write queue (R61) -/

/-- The first write of a block in the queue, with the writes before it and after it. -/
def firstOf (blk : Block) : List PendingWrite → List PendingWrite → Option (List PendingWrite × PendingWrite × List PendingWrite)
  | _, [] => none
  | before, w :: t => if w.blk = blk then some (before.reverse, w, t) else firstOf blk (w :: before) t

/-- A write performed: its bytes reach page memory, and an order slot's posted flag clears with its post
word (R61, R66). -/
def State.perform (s : State) (w : PendingWrite) : State :=
  { s with
    mem := s.mem.writeBytes w.addr w.bytes,
    path := { s.path with posted := match w.clears with
      | some n => dropNum n s.path.posted
      | none => s.path.posted } }

/-- The oldest write that waits for room moves into the queue (R61). -/
def MemPath.admitWaiting (p : MemPath) : MemPath :=
  match p.waiting with
  | w :: t => if p.queue.length < Config.queueWrites then { p with queue := p.queue ++ [w], waiting := t } else p
  | [] => p

end Sys2Proof.Machine
end

