-- ==== Sys2Proof/Machine/Coder.lean ====
section
/-! DEFINITION. The Page Coder's services: choosing a source, coding and placing a line, sealing a page
and opening a continuation (R29 to R33). -/

namespace Sys2Proof.Machine

open Sys2Proof

/-- A source is eligible (R31). -/
def Source.eligible (x : Source) : Bool :=
  decide (x.wait = none ∧ ((x.page ≠ none ∧ (x.queue ≠ [] ∨ x.endSignal)) ∨ x.continuation))

/-- The source that the next service goes to (R31): the scanner first, then the window that the marker
names, then the other. -/
def State.pickSource (s : State) : Option SourceId :=
  let m := s.coder.marker
  if s.coder.scan.eligible then some .scan
  else if (s.coder.win.get m).eligible then some (.win m)
  else if (s.coder.win.get (otherWindow m)).eligible then some (.win (otherWindow m))
  else none

/-- After serving a window the marker names the other one (R31). -/
def State.turnMarker (s : State) : SourceId → State
  | .scan => s
  | .win w => { s with coder := { s.coder with marker := otherWindow w } }

/-- The dots of the line in a source's buffer line or slot (R29). -/
def State.lineAt (s : State) (i : SourceId) (n : Nat) : List Bool :=
  match i with
  | .scan => match s.scanner.buffer[n]? with
    | some (.held ds) => ds
    | some (.coding ds) => ds
    | _ => []
  | .win w => bytesDots ((s.window w).slot (slotOf n)).bytes

/-- The buffer line being coded is CODING; a slot has been since it was handed (R57, section 5.1). -/
def State.markCoding (s : State) (i : SourceId) (n : Nat) : State :=
  match i with
  | .scan => { s with scanner := { s.scanner with buffer := s.scanner.buffer.set n (.coding (s.lineAt .scan n)) } }
  | .win _ => s

/-- The buffer line or slot is freed back to its owner (R29). -/
def State.freeLine (s : State) (i : SourceId) (n : Nat) : State :=
  match i with
  | .scan => s.freeBufferLine n
  | .win w => s.freeSlot w (slotOf n)

/-- The owner is told that a page of its source has sealed (R57, R89). -/
def State.ownerSealed (s : State) (i : SourceId) (last : Bool) : State :=
  match i with
  | .scan => s.scanSealed last
  | .win w => s.windowSealed w last

/-- The owner is told that its document is full (R60, R93). -/
def State.ownerDocFull (s : State) (i : SourceId) : State :=
  match i with
  | .scan => s.endScan .idle .docFull true
  | .win w => s.abandonWindow w .docFull

/-- The window's page field follows the page attached (R57). -/
def State.ownerPage (s : State) (i : SourceId) (p : Option Nat) : State :=
  match i with
  | .scan => s
  | .win w => s.modWindow w (fun x => { x with page := p })

/-- The source waits (R32, R33). -/
def State.sourceWaits (s : State) (i : SourceId) (c : WaitCause) : State :=
  s.modSource i (fun x => { x with wait := some c })

/-- Bytes of a coded line are placed in the attached page (R32): the line is counted and its buffer line
or slot freed, or the rest is held and the source waits on block. -/
def State.placeLine (s : State) (i : SourceId) (p n : Nat) (bs : List Byte) (ts : List Nat) : State :=
  match s.place .pageCoder p bs with
  | ([], t) =>
    let t1 := t.modPage p (fun r => { r with lines := r.lines + 1 })
    let t2 := t1.modSource i (fun x => { x with ref := ts, held := none, queue := x.queue.tail })
    t2.freeLine i n
  | (left, t) =>
    (t.modSource i (fun x => { x with held := some { bytes := left, line := some ts } })).sourceWaits i .block

/-- The transition list of the line at the head of a source's queue (R32). -/
def State.headLine (s : State) (i : SourceId) (n : Nat) : List Nat := transitions (s.lineAt i n)

/-- The line at the head of the queue is coded in FULL form and placed (R32). -/
def State.codeHead (s : State) (i : SourceId) (p n : Nat) : State :=
  let x := s.source i
  let ts := s.headLine i n
  (s.markCoding i n).placeLine i p n (codeFull (widthDots x.width) x.ref ts) ts

/-- A continuation page is opened and the waiting line coded there, or the source waits (R33). -/
def State.openContinuation (s : State) (i : SourceId) (n : Nat) : State :=
  let x := s.source i
  match s.beginSource i x.document x.width x.resolution with
  | (none, t) =>
    let t1 := t.modSource i (fun y => { y with continuation := false })
    match (t1.source i).page with
    | some p => (t1.ownerPage i (some p)).codeHead i p n
    | none => t1
  | (some .docFull, t) => (t.sourceWaits i .documentFull).ownerDocFull i
  | (some .noPage, t) => t.sourceWaits i .pageRecord
  | (some _, t) => t.sourceWaits i .block

/-- The END mark, or what is left of it, is placed and the page sealed; or the rest is held (R30). The
flag says whether the page has sealed. -/
def State.placeEnd (s : State) (i : SourceId) (p : Nat) (bs : List Byte) : Bool × State :=
  match s.place .pageCoder p bs with
  | ([], t) =>
    (true, (t.sealPage p).modSource i (fun x => { x with page := none, held := none, ref := [] }))
  | (left, t) =>
    (false, (t.modSource i (fun x => { x with held := some { bytes := left, line := none } })).sourceWaits i .block)

/-- A full page seals, and its continuation opens (R33). -/
def State.sealAndContinue (s : State) (i : SourceId) (p n : Nat) (bs : List Byte) : State :=
  match s.placeEnd i p bs with
  | (false, t) => t
  | (true, t) =>
    ((t.modSource i (fun x => { x with continuation := true })).ownerSealed i false).openContinuation i n

/-- The line at the head of the queue fits the attached page under both caps (R28). -/
def State.headFits (s : State) (i : SourceId) (p n : Nat) : Bool :=
  let x := s.source i
  match s.page p with
  | some r => r.fits (codeFull (widthDots x.width) x.ref (s.headLine i n)).length
  | none => false

/-- One line service of a source (R32, R33). -/
def State.serveLine (s : State) (i : SourceId) (n : Nat) : State :=
  let x := s.source i
  match x.page, x.held with
  | none, _ => if x.continuation then s.openContinuation i n else s
  | some p, some h =>
    match h.line with
    | some ts => s.placeLine i p n h.bytes ts
    | none => s.sealAndContinue i p n h.bytes
  | some p, none => if s.headFits i p n then s.codeHead i p n else s.sealAndContinue i p n endMark

/-- One seal service of a source: the seal after its last line (R30). -/
def State.serveSeal (s : State) (i : SourceId) : State :=
  let x := s.source i
  match x.page with
  | none => s
  | some p =>
    let bs := match x.held with
      | some h => h.bytes
      | none => endMark
    match s.placeEnd i p bs with
    | (false, t) => t
    | (true, t) => (t.modSource i (fun y => { y with endSignal := false })).ownerSealed i true

/-- The Page Coder can go on: the part is RUNNING and none of its writes waits for room (R61). -/
def State.coderReady (s : State) : Bool := decide (s.part = .running) && !s.stalled .pageCoder

/-- A service that codes a line (R31, R32). -/
def State.lineService (s : State) : State :=
  if !s.coderReady then s
  else match s.pickSource with
    | none => s
    | some i => match (s.source i).queue with
      | [] => s
      | n :: _ => ((s.turnMarker i).serveLine i n).scanRetry

/-- A service that performs a seal (R30, R31). -/
def State.sealService (s : State) : State :=
  if !s.coderReady then s
  else match s.pickSource with
    | none => s
    | some i => match (s.source i).queue with
      | _ :: _ => s
      | [] => ((s.turnMarker i).serveSeal i).scanRetry

end Sys2Proof.Machine
end

