-- ==== Sys2Proof/Machine/Screen.lean ====
section
/-! DEFINITION. The Caller Screen: the lookups at ringing and at ORDER, learning, pacing, and the ageing
sweep (Chapter 9). -/

namespace Sys2Proof.Machine

open Sys2Proof

/-- The Caller Screen changed. -/
def State.modScreen (s : State) (f : Screen → Screen) : State := { s with screen := f s.screen }

/-- The entry with a key kind and key (R154). -/
def findKey (k : KeyKind) (key : Text) : Table ScreenEntry → Option (Nat × ScreenEntry)
  | [] => none
  | (i, e) :: t => if e.keyKind = k ∧ e.key = key then some (i, e) else findKey k key t

/-- A lookup of a key; a key with a character outside its kind's set, an empty one, or one of more than
20 characters matches no entry (R154). -/
def Screen.lookup (c : Screen) (k : KeyKind) (key : Text) : Option (Nat × ScreenEntry) :=
  let charOk := match k with
    | .number => key.all isNumberKey
    | .station => key.all isStationKey
  if key = [] ∨ 20 < key.length ∨ charOk = false then none else findKey k key c.entries

/-- One entry changed. -/
def Screen.modEntry (c : Screen) (i : Nat) (f : ScreenEntry → ScreenEntry) : Screen :=
  { c with entries := tmod c.entries i f }

/-- An entry counted by a call it governs or refuses (R157, R159, R160). -/
def ScreenEntry.count (now : Stamp) (e : ScreenEntry) : ScreenEntry :=
  { e with touched := true, calls := satAdd 65535 e.calls 1, lastCall := some now }

/-- A unit's ring-match record set (R158). -/
def Screen.setMatch (c : Screen) (u : UnitId) (m : Option (Nat × Text)) : Screen :=
  { c with ringMatch := c.ringMatch.set u m }

/-- The answer to the lookup at ringing: the unit's new ring verdict, and the entry that refused. -/
structure RingAnswer where
  verdict : RingVerdict
  refusing : Option Refusing
  deriving DecidableEq, Repr

/-- The lookup at ringing (R157). -/
def Screen.lookupRinging (c : Screen) (u : UnitId) (number : Text) (now : Stamp) : RingAnswer × Screen :=
  match c.lookup .number number with
  | none => (⟨.none, none⟩, c.setMatch u none)
  | some (i, e) =>
    match e.kind with
    | .deny => (⟨.refused .denied, some ⟨.number, i⟩⟩, (c.modEntry i (ScreenEntry.count now)).setMatch u none)
    | _ => (⟨.matched, none⟩, (c.modEntry i (fun x => { x with touched := true })).setMatch u (some (i, number)))

/-- The number match at ORDER: the ring-match record checked against the table as it stands (R158). -/
def Screen.numberMatch (c : Screen) (u : UnitId) : Option (Nat × ScreenEntry) :=
  match c.ringMatch.get u with
  | none => none
  | some (i, number) =>
    match tget c.entries i with
    | some e => if e.keyKind = .number ∧ e.key = number then some (i, e) else none
    | none => none

/-- The decision at ORDER (R159). -/
inductive Decision where
  | refused (r : RefuseReason) (by_ : Option Refusing)
  | accepted (governing : Option (Nat × ScreenEntry))
  deriving DecidableEq, Repr

/-- A match is of a kind. -/
def matchIs (k : ScreenKind) : Option (Nat × ScreenEntry) → Bool
  | some (_, e) => decide (e.kind = k)
  | none => false

/-- The entry that a refusal names. -/
def refusingOf (k : KeyKind) : Option (Nat × ScreenEntry) → Option Refusing
  | some (i, _) => some ⟨k, i⟩
  | none => none

/-- The decision of R159, in its order. -/
def decideOrder (mode : ScreenMode) (station number : Option (Nat × ScreenEntry)) : Decision :=
  if matchIs .deny station then .refused .denied (refusingOf .station station)
  else if matchIs .deny number then .refused .denied (refusingOf .number number)
  else if mode = .listedOnly ∧ matchIs .allow station = false ∧ matchIs .allow number = false then
    .refused .notListed none
  else
    let governing := match station with
      | some x => some x
      | none => number
    match governing with
    | some (i, e) =>
      if 0 < e.budget ∧ e.budgetLeft = 0 then .refused .budget (some ⟨e.keyKind, i⟩)
      else .accepted (some (i, e))
    | none => .accepted none

/-- The unit learns callers in the mode in force (R156). -/
def Screen.learns (c : Screen) (u : UnitId) : Bool :=
  match c.mode with
  | .opened => true
  | .denyListed => c.learn.get u
  | .listedOnly => false

/-- A learned entry (R161). -/
def learnedEntry (station : Text) (now : Stamp) : ScreenEntry :=
  { keyKind := .station, key := station, kind := .learned, desk := 0, copies := 1, flash := false,
    budget := 0, budgetLeft := 0, touched := true, calls := 1, lastCall := some now }

/-- Learning after an acceptance (R161). -/
def State.learnCaller (s : State) (u : UnitId) (station : Text) : State :=
  let c := s.screen
  if station = [] ∨ station.all isStationKey = false ∨ c.learns u = false then s
  else match lowestFree Config.screenEntries c.entries with
    | some i => s.modScreen (fun x => { x with entries := tset x.entries i (learnedEntry station s.now) })
    | none =>
      if c.fullReported then s
      else (s.modScreen (fun x => { x with fullReported := true })).post .callerScreen (.screenFull u station)

/-- The governing entry counted for an accepted call (R160). -/
def ScreenEntry.accept (now : Stamp) (e : ScreenEntry) : ScreenEntry :=
  { e.count now with budgetLeft := if 0 < e.budget then e.budgetLeft - 1 else e.budgetLeft }

/-- The route of an accepted call (R160). -/
def routeOf : Option (Nat × ScreenEntry) → Route
  | some (_, e) => { desk := e.desk, copies := e.copies, flash := e.flash }
  | none => { desk := 0, copies := 1, flash := false }

/-- The Caller Screen's answer at ORDER. -/
inductive OrderAnswer where
  | refused (r : RefuseReason) (by_ : Option Refusing)
  | accepted (r : Route)
  deriving DecidableEq, Repr

/-- The lookup at ORDER (R159 to R161). -/
def State.lookupOrder (s : State) (u : UnitId) (station : Text) : OrderAnswer × State :=
  let c := s.screen
  let st := c.lookup .station station
  let nm := c.numberMatch u
  match decideOrder c.mode st nm with
  | .refused .denied b =>
    let s1 := match b with
      | some x => s.modScreen (fun y => y.modEntry x.entry (ScreenEntry.count s.now))
      | none => s
    (.refused .denied b, s1.modScreen (fun y => y.setMatch u none))
  | .refused r b => (.refused r b, s.modScreen (fun y => y.setMatch u none))
  | .accepted g =>
    let s1 := match g with
      | some (i, _) => s.modScreen (fun y => y.modEntry i (ScreenEntry.accept s.now))
      | none => s
    let s2 := s1.modScreen (fun y => y.setMatch u none)
    (.accepted (routeOf g), if st = none then s2.learnCaller u station else s2)

/-! ## Pacing and ageing (R155, R162 to R164) -/

/-- The pacing period in half-seconds (R155). -/
def Screen.pacingHalves (c : Screen) : Nat := 120 * c.pacingPeriod

/-- The pacing pulse: every budget left is reloaded and the timer restarts (R162). -/
def State.pacingPulse (s : State) : State :=
  if s.screen.pacing = some 0 then
    s.modScreen (fun c =>
      { c with pacing := some c.pacingHalves,
               entries := c.entries.map (fun x => (x.1, { x.2 with budgetLeft := x.2.budget })) })
  else s

/-- The age period in half-seconds (R155). -/
def Screen.ageHalves (c : Screen) : Nat := 7200 * c.agePeriod

/-- A sweep starts where none is in progress (R163). -/
def Screen.startSweep (c : Screen) (q : SweepSource) : Screen :=
  if c.sweep = none then { c with sweep := some { cursor := 0, source := q, removed := 0 } } else c

/-- The age timer expires: it restarts, and a sweep starts unless one is in progress (R163). -/
def State.ageExpiry (s : State) : State :=
  if s.screen.age = some 0 then
    s.modScreen (fun c => ({ c with age := some c.ageHalves }).startSweep .timer)
  else s

/-- The visit of an entry: passed over, removed, or kept with touched clear (R163). -/
def Screen.visit (c : Screen) (i : Nat) : Screen × Nat :=
  match tget c.entries i with
  | none => (c, 0)
  | some e =>
    if e.kind = .learned ∧ e.touched = false then ({ c with entries := tdel c.entries i }, 1)
    else (c.modEntry i (fun x => { x with touched := false }), 0)

/-- One visit of a sweep; after the visit of entry 255 the sweep completes (R163, R164). -/
def State.sweepVisit (s : State) : State :=
  match s.screen.sweep with
  | none => s
  | some w =>
    let v := s.screen.visit w.cursor
    let removed := w.removed + v.2
    if w.cursor < 255 then
      { s with screen := { v.1 with sweep := some { w with cursor := w.cursor + 1, removed := removed } } }
    else
      let s1 := { s with screen := { v.1 with sweep := none, fullReported := false } }
      s1.post .callerScreen (.screenSwept w.source removed v.1.entries.length)

end Sys2Proof.Machine
end

