-- ==== Sys2Proof/Machine/Recode.lean ====
section
/-! DEFINITION. The transmit line recoder and the receive recoder of a line unit (R35 to R44). What they
report is handed to the session by the caller of these operations. -/

namespace Sys2Proof.Machine

open Sys2Proof

/-! ## Transmit (R35 to R40) -/

/-- The recoder of a unit starts a page (R35): nothing is started where the page is not SEALED. -/
def State.txStart (s : State) (u : UnitId) (d position : Nat) (o : OrderMode) : State :=
  match s.readPage d position with
  | .isSealed p r =>
    s.modUnit u (fun l => { l with
      txFifo := [],
      tx := { page := some p, width := r.width, resolution := r.resolution, order := o,
                   minimum := minLineBytes (rateBits o.rate) o.minLineTime, offset := 0,
                   linesLeft := r.lines, storedRef := [], outRef := [], out := [], fill := 0,
                   ended := false, begun := false, wire := 0 } })
  | _ => s.modUnit u (fun l => { l with tx := TxRecoder.reset, txFifo := [] })

/-- A unit's statistics changed. -/
def LineUnit.modStats (l : LineUnit) (f : Stats → Stats) : LineUnit := { l with stats := f l.stats }

/-- Output moves into the transmit FIFO while it has room: coded bytes first, then their fill; each FILL
written counts (R38, R39). -/
def LineUnit.pump (l : LineUnit) : LineUnit :=
  let t := l.tx
  let room := Config.fifoBytes - l.txFifo.length
  let n := min room t.out.length
  let k := min (room - n) t.fill
  let l1 := { l with txFifo := l.txFifo ++ t.out.take n ++ List.replicate k fillByte,
                     tx := { t with out := t.out.drop n, fill := t.fill - k } }
  l1.modStats (fun c => { c with fillBytes := satAdd Config.max32 c.fillBytes k })

/-- The recoder reads one stored line (stage 1, R35). -/
def State.txDecode (s : State) (t : TxRecoder) : Option (List Nat × TxRecoder) :=
  if t.linesLeft = 0 then none
  else match t.page.bind s.page with
    | none => none
    | some r =>
      match takeLine (widthDots t.width) t.storedRef (s.streamFrom r t.offset) with
      | .good ts n =>
        some (ts, { t with storedRef := ts, offset := t.offset + n, linesLeft := t.linesLeft - 1 })
      | _ => none

/-- The read of the next stored line is held behind a pending write (R61). -/
def State.decodeHeld (s : State) (t : TxRecoder) : Bool :=
  match t.page with
  | some p => decide (t.linesLeft ≠ 0) && s.lineHeld p t.width t.storedRef t.offset
  | none => false

/-- The reduce stage is at work: a FINE page is ordered NORMAL (R36). -/
def TxRecoder.reduces (t : TxRecoder) : Bool := decide (t.resolution = .fine ∧ t.order.resolution = .normal)

/-- The next line after the decode and reduce stages (R36). -/
def State.txLine (s : State) (t : TxRecoder) : Option (List Nat × TxRecoder) :=
  match s.txDecode t with
  | none => none
  | some (a, t1) =>
    if t.reduces then
      match s.txDecode t1 with
      | some (b, t2) => some (mergeLines (widthDots t.width) a b, t2)
      | none => some (a, t1)
    else some (a, t1)

/-- The recoder needs a line, and a stored line that it is formed from cannot yet be read (R36, R61). -/
def State.txHeld (s : State) (t : TxRecoder) : Bool :=
  decide (t.out = [] ∧ t.fill = 0) && !t.ended
    && (s.decodeHeld t || (t.reduces && (match s.txDecode t with
      | some (_, t1) => s.decodeHeld t1
      | none => false)))

/-- A line after the crop or pad, re-code and fill stages, added to the output (R36 to R38). -/
def TxRecoder.emit (t : TxRecoder) (ts : List Nat) : TxRecoder :=
  let o := fitLine t.width t.order.width ts
  let bs := codeLine t.order.form (widthDots t.order.width) t.outRef o
  { t with outRef := o, out := t.out ++ bs, fill := t.minimum - bs.length }

/-- The recoder forms its next output: a line, or the END mark after the last (R37, R38). -/
def State.txNext (s : State) (t : TxRecoder) : TxRecoder :=
  if t.ended then t
  else match s.txLine t with
    | some (ts, t1) => t1.emit ts
    | none => { t with out := t.out ++ endMark, ended := true }

/-- One step of a unit's transmit line recoder: it waits while the FIFO holds 1024 bytes or its read is held,
and forms a new line only when the one before it is wholly in the FIFO (R37 to R39, R61). -/
def State.transmitRecode (s : State) (u : UnitId) : State :=
  let l := s.unit u
  let t := l.tx
  if t.page = none ∨ Config.fifoBytes ≤ l.txFifo.length ∨ s.txHeld t then s
  else
    let t1 := if t.out = [] ∧ t.fill = 0 then s.txNext t else t
    s.modUnit u (fun x => ({ x with tx := t1 }).pump)

/-- SEND DATA is issued with bytes, each of which counts (R96, R110, R113). -/
def State.sendData (s : State) (u : UnitId) (bs : List Byte) : State :=
  (s.sendLink u (.sendData bs)).modUnit u (fun l =>
    ({ l with attemptBytes := satAdd Config.max32 l.attemptBytes bs.length }).modStats
      (fun c => { c with bytesSent := satAdd Config.max32 c.bytesSent bs.length }))

/-- The page's stream has ended: all its bytes have been taken (R39). -/
def TxRecoder.done (t : TxRecoder) (fifo : List Byte) : Bool := t.ended && decide (t.out = [] ∧ t.fill = 0 ∧ fifo = [])

/-- Bytes are taken from a FIFO that is not empty (R39). -/
def State.takeFifo (s : State) (u : UnitId) (t : TxRecoder) (n : Nat) : State :=
  let bs := (s.unit u).txFifo.take n
  let rest := (s.unit u).txFifo.drop n
  let t1 := { t with begun := true, wire := t.wire + bs.length }
  let dry := decide (rest = []) && !t1.done rest
  (s.sendData u bs).modUnit u (fun l => ({ l with txFifo := rest, tx := t1 }).modStats
    (fun c => if dry then { c with underruns := satAdd Config.max32 c.underruns 1 } else c))

/-- Underrun FILL: the FIFO is empty inside the page's stream (R39). -/
def State.sendFill (s : State) (u : UnitId) (t : TxRecoder) (n : Nat) : State :=
  (s.sendData u (List.replicate n fillByte)).modUnit u (fun l =>
    ({ l with tx := { t with wire := t.wire + n } }).modStats
      (fun c => { c with fillBytes := satAdd Config.max32 c.fillBytes n }))

/-- The link side takes up to `n` bytes, 1 to 64, for a SEND DATA message (R39). -/
def State.linkTake (s : State) (u : UnitId) (n : Nat) : State :=
  let l := s.unit u
  let t := l.tx
  let k := min n 64
  if t.page = none ∨ k = 0 then s
  else if l.txFifo ≠ [] then s.takeFifo u t k
  else if t.begun && !t.done [] then s.sendFill u t k
  else s

/-! ## Receive (R41 to R44) -/

/-- The session has the recoder begin a page (R41). -/
def State.rxBegin (s : State) (u : UnitId) (d : Nat) (w : Width) (v : Resolution) : State :=
  let fresh : RxRecoder := { RxRecoder.reset with state := .active, document := d, width := w }
  match s.openPage d w v with
  | .opened p t => t.modUnit u (fun l => { l with rx := { fresh with page := some p }, rxFifo := [] })
  | .refused r => s.modUnit u (fun l => { l with rx := { fresh with noRoom := some r }, rxFifo := [] })

/-- The FILLING page of a unit's recoder is abandoned (R8). After a CARRIER LOST the recoder goes on, with no page,
to the mark in its FIFO (R42). -/
def State.rxAbandon (s : State) (u : UnitId) : State :=
  let s1 := match (s.unit u).rx.page with
    | some p => s.abandonPage p
    | none => s
  s1.modUnit u (fun l => { l with rx := { l.rx with page := none, state := if l.carrierGone then l.rx.state else .idle } })

/-- One received byte enters the FIFO, or is discarded behind a gap mark (R42). -/
def pushByte (q : List RxItem) (b : Byte) : List RxItem :=
  if fifoBytesHeld q < Config.fifoBytes then q ++ [.byte b]
  else if q.getLast? = some .gap then q else q ++ [.gap]

/-- One decoded or repaired line is re-coded against the reference and stored (R44). -/
def State.rxStore (s : State) (u : UnitId) (ts : List Nat) : State :=
  let x := (s.unit u).rx
  match x.page with
  | none => s
  | some p =>
    match s.page p with
    | none => s
    | some r =>
      let bs := codeFull (widthDots x.width) x.ref ts
      if x.noRoom ≠ none ∨ x.clippedOff then s
      else if !r.fits bs.length then
        (s.modPage p (fun y => { y with clipped := true })).modUnit u
          (fun l => { l with rx := { l.rx with clippedOff := true } })
      else match s.place (.unit u) p bs with
        | ([], t) => t.modPage p (fun y => { y with lines := y.lines + 1 })
        | (_, t) => t.modUnit u (fun l => { l with rx := { l.rx with noRoom := some .noBlock } })

/-- A good line (R43). -/
def State.rxGood (s : State) (u : UnitId) (ts : List Nat) : State :=
  (s.rxStore u ts).modUnit u (fun l => { l with rx := { l.rx with
    ref := ts, line := [], received := satAdd 65535 l.rx.received 1, run := 0 } })

/-- A bad line: a copy of the reference stands in its place (R43). -/
def State.rxBad (s : State) (u : UnitId) : State :=
  (s.rxStore u (s.unit u).rx.ref).modUnit u (fun l =>
    ({ l with rx := { l.rx with
        line := [], received := satAdd 65535 l.rx.received 1, bad := satAdd 65535 l.rx.bad 1,
        run := satAdd 65535 l.rx.run 1, longest := max l.rx.longest (satAdd 65535 l.rx.run 1) } }).modStats
      (fun c => { c with badLines := satAdd Config.max32 c.badLines 1 }))

/-- The page's data has ended (R42): the report that the session receives. -/
def RxRecoder.report (x : RxRecoder) (endSeen : Bool) : RxReport :=
  { received := x.received, bad := x.bad, longest := x.longest, endSeen := endSeen, noRoom := x.noRoom }

/-- The recoder has met the end of the page's data. -/
def State.rxEnded (s : State) (u : UnitId) (endSeen : Bool) : Option RxReport × State :=
  (some ((s.unit u).rx.report endSeen),
   s.modUnit u (fun l => { l with rx := { l.rx with state := .ended, line := [] } }))

/-- A byte of the page's stream (R27, R42, R43). -/
def State.rxByte (s : State) (u : UnitId) (b : Byte) : Option RxReport × State :=
  let x := (s.unit u).rx
  let line := x.line ++ [b]
  match takeLine (widthDots x.width) x.ref line with
  | .more => (none, s.modUnit u (fun l => { l with rx := { l.rx with line := line } }))
  | .fill => (none, s.modUnit u (fun l => { l with rx := { l.rx with line := [] } }))
  | .endTag => s.rxEnded u true
  | .good ts _ => (none, s.rxGood u ts)
  | .bad _ => (none, s.rxBad u)

/-- An item of the receive FIFO met by the recoder (Table of R42). -/
def State.rxItem (s : State) (u : UnitId) : RxItem → Option RxReport × State
  | .byte b => s.rxByte u b
  | .gap => (none, s.rxBad u)
  | .dataEnd | .carrierLost =>
    if (s.unit u).rx.line = [] then s.rxEnded u false else (s.rxBad u).rxEnded u false

/-- The recoder takes the next item of its FIFO; where it has no page to decode, the item is discarded
(R41, R42). The report is there when the page's data has ended. -/
def State.rxTake (s : State) (u : UnitId) : Option RxReport × State :=
  match (s.unit u).rxFifo with
  | [] => (none, s)
  | i :: rest =>
    let s1 := s.modUnit u (fun l => { l with rxFifo := rest })
    if (s.unit u).rx.state = .active then s1.rxItem u i else (none, s1)

/-- The recoder seals its page on the verdict GOOD, or answers "no block" (R42). -/
def State.rxSeal (s : State) (u : UnitId) : Bool × State :=
  match (s.unit u).rx.page with
  | none => (false, s)
  | some p =>
    match s.place (.unit u) p endMark with
    | ([], t) =>
      (true, (t.sealPage p).modUnit u (fun l => { l with rx := { l.rx with page := none, state := .idle } }))
    | (_, t) => (false, t)

end Sys2Proof.Machine
end

