-- ==== Sys2Proof/Machine/Caller.lean ====
section
/-! DEFINITION. The calling side of the page exchange (R116 to R127). -/

namespace Sys2Proof.Machine

open Sys2Proof

/-- A control frame is sent (R116). -/
def State.sendFrame (s : State) (u : UnitId) (f : Frame) : State := s.sendLink u (.sendFrame f)

/-- The caller session of a unit that is IN SESSION as caller. -/
def State.caller (s : State) (u : UnitId) : Option CallerSession :=
  if (s.unit u).state = .inSession ∧ (s.unit u).role = some .caller then (s.unit u).callerSession else none

/-- The caller session changed. -/
def State.modCaller (s : State) (u : UnitId) (f : CallerSession → CallerSession) : State :=
  s.modUnit u (fun l => { l with callerSession := l.callerSession.map f })

/-- The resolution and width class that an ORDER gives a page (R120). -/
def orderShape (o : OfferMode) (r : PageRec) : Resolution × Width :=
  (if r.resolution = .fine ∧ o.fine = false then .normal else r.resolution, widthMin r.width o.maxWidth)

/-- The ORDER that the caller forms for the page at a position (R120). -/
def State.formOrder (s : State) (c : CallerSession) (position : Nat) : Option OrderMode :=
  match c.offer, s.readPage c.document position with
  | some o, .isSealed _ r =>
    let v := orderShape o r
    some { station := s.settings.station, rate := rateMin c.ceiling o.maxRate, form := o.forms,
           resolution := v.1, width := v.2, minLineTime := o.minLineTime, pagesToCome := c.total - position }
  | _, _ => none

/-- SET RATE and SEND CHECK follow an ORDER that carries a check (R120). -/
def State.sendCheckFor (s : State) (u : UnitId) (o : OrderMode) (check : Bool) : State :=
  if check then (s.sendLink u (.setRate o.rate)).sendLink u .sendCheck else s

/-- The caller forms and sends an ORDER for the page at its position and goes to CHECKING (R120). -/
def State.sendOrder (s : State) (u : UnitId) (c : CallerSession) (check : Bool) : State :=
  match s.formOrder c c.position with
  | none => s
  | some o =>
    ((s.sendFrame u (.order o)).sendCheckFor u o check).modUnit u (fun l =>
      { l with callerSession := some { c with
          phase := .checking, order := some o, withCheck := check, sends := 1, wait := some .reply } })

/-- The kind that follows the page at the caller's position (R122). -/
def State.pageKind (s : State) (c : CallerSession) (o : OrderMode) : PageEndKind :=
  if c.total ≤ c.position + 1 then .last
  else match s.formOrder c (c.position + 1) with
    | some n => if n.resolution ≠ o.resolution ∨ n.width ≠ o.width then .mode else .more
    | none => .more

/-- The caller begins the page at its position with the order in force (R122). -/
def State.beginCallerPage (s : State) (u : UnitId) (c : CallerSession) : State :=
  match c.order with
  | none => s
  | some o =>
    (s.txStart u c.document c.position o).modUnit u (fun l =>
      { l with callerSession := some { c with phase := .sending, kind := s.pageKind c o, wait := none } })

/-- The session has ended well: the RELEASE frame, and SUCCESS (R127). -/
def State.callerSuccess (s : State) (u : UnitId) : State := (s.sendFrame u .release).endCall u .success

/-- A call is answered and the caller side begins (R102, R118): with no page left to send it ends at once
(R119). Page end kind and sends stand at LAST and 1 until the first command: DESIGN CHOICE (log entry 72). -/
def State.startCaller (s : State) (u : UnitId) : State :=
  match (s.unit u).handOver with
  | none => s
  | some h =>
    let total := match s.doc h.document with
      | some d => d.pages.length
      | none => 0
    let c : CallerSession :=
      { phase := .awaitOffer, document := h.document, total := total, position := h.confirmed,
        confirmed := h.confirmed, offer := none, ceiling := .r12000, order := none, withCheck := false,
        kind := .last, resends := 0, sends := 1, wait := some .offer }
    let s1 := s.modUnit u (fun l => { l with callerSession := some c })
    if total ≤ h.confirmed then s1.callerSuccess u else s1

/-- An outgoing call is answered (R102): answered and calls out, metering, and the caller session. -/
def State.answered (s : State) (u : UnitId) : State :=
  let s1 := s.modUnit u (fun l => ({ l with timer := none, answered := true, state := .inSession }).modStats
    (fun c => { c with callsOut := satAdd Config.max32 c.callsOut 1 }))
  (s1.meterStart u).startCaller u

/-- A valid OFFER taken in AWAIT OFFER (R119). -/
def State.callerOffer (s : State) (u : UnitId) (c : CallerSession) (o : OfferMode) : State :=
  if o.ready then s.sendOrder u { c with offer := some o } true else s.endCall u .receiverNotReady

/-- A valid OFFER (R102, R119). -/
def State.takeOffer (s : State) (u : UnitId) (o : OfferMode) : State :=
  let s1 := if (s.unit u).state = .awaitAnswer then s.answered u else s
  match s1.caller u with
  | some c => if c.phase = .awaitOffer then s1.callerOffer u c o else s1
  | none => s1

/-- READY (R121, R122). -/
def State.callerReady (s : State) (u : UnitId) : State :=
  match s.caller u with
  | some c => if c.phase = .checking then s.beginCallerPage u c else s
  | none => s

/-- A rate step: the ceiling falls below the rate in force and the ORDER is formed again with a check
(R121, R124); at 2400 the call fails. -/
def State.rateStep (s : State) (u : UnitId) (c : CallerSession) (fail : AttemptResult) : State :=
  match c.order with
  | none => s
  | some o =>
    match rateBelow o.rate with
    | some r => s.sendOrder u { c with ceiling := r, resends := 0 } true
    | none => s.endCall u fail

/-- SLOWER (R121). -/
def State.callerSlower (s : State) (u : UnitId) : State :=
  match s.caller u with
  | some c => if c.phase = .checking then s.rateStep u c .checkFailed else s
  | none => s

/-- The page is confirmed, and the Send Queue writes the count into the entry (R123). -/
def State.confirmPage (s : State) (u : UnitId) (n : Nat) : State :=
  match (s.unit u).entry with
  | some i => s.modEntry i (fun e => { e with confirmed := n })
  | none => s

/-- GOOD in AWAIT VERDICT (R123, R127). -/
def State.callerGood (s : State) (u : UnitId) : State :=
  match s.caller u with
  | none => s
  | some c =>
    if c.phase ≠ .awaitVerdict then s
    else
      let c1 := { c with confirmed := c.confirmed + 1, position := c.position + 1, resends := 0, wait := none }
      let s1 := (s.confirmPage u c1.confirmed).modUnit u (fun l => { l with callerSession := some c1 })
      match c.kind with
      | .more => s1.beginCallerPage u c1
      | .mode => s1.sendOrder u c1 false
      | .last => s1.callerSuccess u

/-- REDO in AWAIT VERDICT (R124). -/
def State.callerRedo (s : State) (u : UnitId) : State :=
  match s.caller u with
  | none => s
  | some c =>
    if c.phase ≠ .awaitVerdict then s
    else
      let s1 := s.modUnit u (fun l => l.modStats (fun t => { t with redosReceived := satAdd Config.max32 t.redosReceived 1 }))
      if c.resends < 2 then s1.beginCallerPage u { c with resends := c.resends + 1 }
      else s1.rateStep u c .pageFailed

/-- A message that fails the call in any phase (R126). -/
def State.callerFails (s : State) (u : UnitId) (r : AttemptResult) : State :=
  match s.caller u with
  | some _ => s.endCall u r
  | none => s

/-- "Page sent": STOP DATA and PAGE END go out (R39, R122). -/
def State.pageSent (s : State) (u : UnitId) : State :=
  let s1 := s.modUnit u (fun l => ({ l with tx := { l.tx with page := none } }).modStats
    (fun t => { t with pagesSent := satAdd Config.max32 t.pagesSent 1 }))
  match s1.caller u with
  | none => s1
  | some c =>
    ((s1.sendLink u .stopData).sendFrame u (.pageEnd c.kind)).modCaller u (fun x =>
      { x with phase := .awaitVerdict, sends := 1, wait := some .reply })

/-- The link side takes bytes, and the page's end is reported when its last byte has gone (R39). -/
def State.linkSend (s : State) (u : UnitId) (n : Nat) : State :=
  match s.caller u with
  | none => s
  | some _ =>
    let s1 := s.linkTake u n
    let t := (s1.unit u).tx
    if t.page.isSome && t.begun && t.done (s1.unit u).txFifo then s1.pageSent u else s1

/-- The caller's 3 s wait expires (R117). -/
def State.callerWaitExpired (s : State) (u : UnitId) (c : CallerSession) : State :=
  match c.phase with
  | .checking =>
    if 3 ≤ c.sends then s.endCall u .checkFailed
    else match c.order with
      | none => s
      | some o => ((s.sendFrame u (.order o)).sendCheckFor u o c.withCheck).modCaller u
          (fun x => { x with sends := x.sends + 1 })
  | .awaitVerdict =>
    if 3 ≤ c.sends then s.endCall u .lineLost
    else (s.sendFrame u (.pageEnd c.kind)).modCaller u (fun x => { x with sends := x.sends + 1 })
  | _ => s

/-- 9 s pass with no valid OFFER taken (R119). -/
def State.offerWaitExpired (s : State) (u : UnitId) : State :=
  match s.caller u with
  | some c => if c.phase = .awaitOffer then s.endCall u .notFax else s
  | none => s

end Sys2Proof.Machine
end

