-- ==== Sys2Proof/Machine/Answerer.lean ====
section
/-! DEFINITION. The answering side of the page exchange (R128 to R136). -/

namespace Sys2Proof.Machine

open Sys2Proof

/-- The answering session of a unit that is IN SESSION as answerer. -/
def State.answering (s : State) (u : UnitId) : Option AnswererSession :=
  if (s.unit u).state = .inSession ∧ (s.unit u).role = some .answerer then (s.unit u).answerer else none

/-- The answering session set. -/
def State.setAnswerer (s : State) (u : UnitId) (a : AnswererSession) : State :=
  s.modUnit u (fun l => { l with answerer := some a })

/-- CALL_REFUSED by a unit (R129, Table 9-2). -/
def State.callRefused (s : State) (u : UnitId) (r : RefuseReason) (b : Option Refusing) (station : Option Text) : State :=
  s.post (.unit u) (.callRefused u r b (s.unit u).caller station)

/-- The ready flag of an OFFER (R128). -/
def State.readyFlag (s : State) : Bool :=
  decide (s.settings.receiveReserve ≤ s.store.free.length)
    && (lowestFree Config.docRecords s.store.docs).isSome && (lowestFree Config.pageRecords s.store.pages).isSome

/-- The part's OFFER (R116). -/
def State.ownOffer (s : State) : OfferMode :=
  { station := s.settings.station, maxRate := .r12000, forms := .full, fine := true, maxWidth := .broad,
    minLineTime := 0, ready := s.readyFlag }

/-- OFFER is sent for the `n`th time (R117, R128). -/
def State.sendOffer (s : State) (u : UnitId) (a : AnswererSession) (n : Nat) : State :=
  let phase : AnswererPhase := if s.readyFlag then .offering else .notReady
  let wait : Wait := if s.readyFlag then .reply else .notReady
  (s.sendFrame u (.offer s.ownOffer)).setAnswerer u { a with phase := phase, sends := n, wait := some wait }

/-- The answering side begins (R118, R128). -/
def State.startAnswerer (s : State) (u : UnitId) : State :=
  s.sendOffer u { phase := .offering, document := none, order := none, asked := none, kind := none, sends := 1,
                  wait := none, route := { desk := 0, copies := 0, flash := false }, lastVerdict := none,
                  dataTaken := false, report := none } 1

/-- The session ends with no document (R128, R129). -/
def State.refuseCall (s : State) (u : UnitId) (r : RefuseReason) (b : Option Refusing) (station : Option Text) : State :=
  (s.callRefused u r b station).releaseCall u

/-- STOP and the RELEASE frame are sent (R129, R132). -/
def State.sendStop (s : State) (u : UnitId) : State := (s.sendFrame u .stop).sendFrame u .release

/-- A reception is cut short: its FILLING page is abandoned and its document, while it is open, closes
truncated (R134, R135). -/
def State.cutReception (s : State) (u : UnitId) (a : AnswererSession) : State :=
  let s1 := s.rxAbandon u
  match a.document with
  | some d => if a.phase = .awaitRelease then s1 else s1.closeDocument d true
  | none => s1

/-- STOP in place of a verdict or a reply: the reception ends (R130, R132). -/
def State.stopReception (s : State) (u : UnitId) (a : AnswererSession) : State :=
  ((s.sendStop u).cutReception u a).releaseCall u

/-- The answerer begins a page with the order in force (R131). -/
def State.beginAnswererPage (s : State) (u : UnitId) (a : AnswererSession) : State :=
  match a.order, a.document with
  | some o, some d =>
    (s.rxBegin u d o.width o.resolution).setAnswerer u
      { a with phase := .receiving, kind := none, report := none, dataTaken := false, wait := some .idleLimit }
  | _, _ => s

/-- The ORDER carries the rate of the order in force (R130). -/
def AnswererSession.sameRate (a : AnswererSession) (o : OrderMode) : Bool :=
  match a.order with
  | some x => decide (x.rate = o.rate)
  | none => false

/-- An ORDER taken with the session's document open (R130). -/
def State.takeOrderMode (s : State) (u : UnitId) (a : AnswererSession) (o : OrderMode) : State :=
  if o.pagesToCome = 0 then s.stopReception u a
  else if a.sameRate o ∧ a.phase ≠ .checkReply then
    (s.sendFrame u .ready).beginAnswererPage u { a with order := some o, asked := none }
  else s.setAnswerer u { a with phase := .checkReply, asked := some o, wait := some .idleLimit }

/-- The document is open: the print entry and the FLASH alert that the route asks for (R129). -/
def State.routeDocument (s : State) (d : Nat) (r : Route) : State :=
  let p : PrintPriority := if r.flash then .flash else .ordinary
  let s1 := if 1 ≤ r.copies then s.requestPrint d r.copies p else s
  if r.flash then s1.flashAlert else s1

/-- The first ORDER (R129). -/
def State.firstOrder (s : State) (u : UnitId) (a : AnswererSession) (o : OrderMode) : State :=
  if o.pagesToCome = 0 then (s.sendStop u).refuseCall u .badOrder none (some o.station)
  else match s.lookupOrder u o.station with
    | (.refused r b, t) => (t.sendStop u).refuseCall u r b (some o.station)
    | (.accepted r, t) =>
      match t.openDoc .received r.desk (if o.station = [] then none else some o.station) with
      | none => (t.sendStop u).refuseCall u .noDocument none (some o.station)
      | some (d, t1) => (t1.routeDocument d r).takeOrderMode u { a with document := some d, route := r } o

/-- A valid ORDER, by the answerer's phase (R128 to R130). -/
def State.takeOrder (s : State) (u : UnitId) (o : OrderMode) : State :=
  match s.answering u with
  | none => s
  | some a =>
    match a.phase with
    | .offering => s.firstOrder u a o
    | .notReady => s.sendFrame u .stop
    | .checkReply | .awaitOrder => s.takeOrderMode u a o
    | .receiving => if a.dataTaken then s else (s.rxAbandon u).takeOrderMode u a o
    | .verdict | .awaitRelease => s

/-- CHECK RESULT in CHECK REPLY (R130). -/
def State.checkResult (s : State) (u : UnitId) (good : Bool) : State :=
  match s.answering u with
  | none => s
  | some a =>
    if a.phase ≠ .checkReply then s
    else if good then (s.sendFrame u .ready).beginAnswererPage u { a with order := a.asked, asked := none }
    else (s.sendFrame u .slower).setAnswerer u { a with phase := .awaitOrder, asked := none, wait := some .idleLimit }

/-- The verdict that a report draws before the seal is tried (R132). -/
inductive Judgement where
  | stop | redo | good
  deriving DecidableEq, Repr

/-- The tests of R132 in order. -/
def judge (badPercent badRun : Nat) (r : RxReport) : Judgement :=
  if r.noRoom ≠ none then .stop
  else if r.endSeen = false ∨ r.received * badPercent < r.bad * 100 ∨ badRun < r.longest then .redo
  else .good

/-- The frame of a verdict. -/
def verdictFrame : Verdict → Frame
  | .good => .good
  | .redo => .redo

/-- GOOD: the page is kept, and the answerer goes on by the kind of the PAGE END (R132). -/
def State.verdictGood (s : State) (u : UnitId) (a : AnswererSession) (k : PageEndKind) : State :=
  let s1 := s.modUnit u (fun l => l.modStats (fun t => { t with pagesReceived := satAdd Config.max32 t.pagesReceived 1 }))
  let s2 := s1.sendFrame u .good
  let a1 := { a with lastVerdict := some .good, report := none, kind := none, wait := some .idleLimit }
  match k with
  | .more => s2.beginAnswererPage u a1
  | .mode => s2.setAnswerer u { a1 with phase := .awaitOrder }
  | .last =>
    let s3 := s2.setAnswerer u { a1 with phase := .awaitRelease }
    match a.document with
    | some d => s3.closeDocument d false
    | none => s3

/-- REDO: the page is discarded and begun again (R132). -/
def State.verdictRedo (s : State) (u : UnitId) (a : AnswererSession) : State :=
  let s1 := (s.rxAbandon u).modUnit u (fun l =>
    l.modStats (fun t => { t with redosSent := satAdd Config.max32 t.redosSent 1 }))
  (s1.sendFrame u .redo).beginAnswererPage u { a with lastVerdict := some .redo }

/-- The verdict is given (R132). -/
def State.giveVerdict (s : State) (u : UnitId) (a : AnswererSession) (k : PageEndKind) (r : RxReport) : State :=
  match judge s.settings.badPercent s.settings.badRun r with
  | .stop => s.stopReception u a
  | .redo => s.verdictRedo u a
  | .good => match s.rxSeal u with
    | (true, t) => t.verdictGood u a k
    | (false, t) => t.stopReception u a

/-- The verdict is given once the PAGE END and the recoder's report have both been taken (R131), and no write of the
unit waits for room in the queue (R61). -/
def State.settleVerdict (s : State) (u : UnitId) : State :=
  match s.answering u with
  | none => s
  | some a =>
    match a.phase, a.kind, a.report with
    | .verdict, some k, some r => if s.stalled (.unit u) then s else s.giveVerdict u a k r
    | _, _, _ => s

/-- The recoder's report "data ended" is taken (R131). -/
def State.takeReport (s : State) (u : UnitId) (r : RxReport) : State :=
  match s.answering u with
  | none => s
  | some a =>
    match a.phase, a.kind with
    | .verdict, some _ | .receiving, _ => (s.setAnswerer u { a with report := some r }).settleVerdict u
    | _, _ => s

/-- The recoder has a page of this session begun: what arrives enters its FIFO (R41, R42). -/
def LineUnit.receiving (l : LineUnit) : Bool := decide (l.rx.state = .active) && !l.carrierGone

/-- A mark enters the receive FIFO behind the bytes already there (R42). -/
def State.pushMark (s : State) (u : UnitId) (m : RxItem) : State :=
  s.modUnit u (fun l => if l.receiving then { l with rxFifo := l.rxFifo ++ [m] } else l)

/-- PAGE END in RECEIVING (R131, R133). A verdict sent again adds nothing to REDOs sent, which counts the verdicts
given (R113): DESIGN CHOICE (log entry 63). -/
def State.pageEndReceiving (s : State) (u : UnitId) (a : AnswererSession) (k : PageEndKind) : State :=
  match a.dataTaken, a.lastVerdict with
  | false, some v => s.sendFrame u (verdictFrame v)
  | _, _ =>
    let s1 := s.setAnswerer u { a with phase := .verdict, kind := some k, wait := some .idleLimit }
    if a.report = none then s1.pushMark u .dataEnd else s1.settleVerdict u

/-- A valid PAGE END, by the answerer's phase (R131, R133). In AWAIT ORDER with no verdict given yet it is
discarded: DESIGN CHOICE (log entry 64). -/
def State.takePageEnd (s : State) (u : UnitId) (k : PageEndKind) : State :=
  match s.answering u with
  | none => s
  | some a =>
    match a.phase with
    | .receiving => s.pageEndReceiving u a k
    | .awaitOrder | .awaitRelease =>
      match a.lastVerdict with
      | some v => s.sendFrame u (verdictFrame v)
      | none => s
    | _ => s

/-- The caller's departure in a phase in which a reception can be cut (R134). -/
def State.departed (s : State) (u : UnitId) (a : AnswererSession) : State :=
  match a.phase with
  | .awaitRelease => s.releaseCall u
  | .checkReply | .receiving | .verdict | .awaitOrder => (s.cutReception u a).releaseCall u
  | .offering | .notReady => s

/-- The RELEASE frame taken by an answerer (R134). -/
def State.answererRelease (s : State) (u : UnitId) : State :=
  match s.answering u with
  | some a => s.departed u a
  | none => s

/-- CARRIER LOST taken by an answerer (R42, R128, R134). In NOT READY the CALL_REFUSED carries no station ID: DESIGN
CHOICE (log entry 73). -/
def State.answererCarrierLost (s : State) (u : UnitId) : State :=
  match s.answering u with
  | none => s
  | some a =>
    match a.phase with
    | .offering => s.refuseCall u .noOrder none none
    | .notReady => s.refuseCall u .notReady none none
    | _ => (s.pushMark u .carrierLost).departed u a

/-- DATA taken by an answerer (R42, R131): bytes that arrive while no page has begun are discarded. -/
def State.takeData (s : State) (u : UnitId) (bs : List Byte) : State :=
  match s.answering u with
  | none => s
  | some a =>
    if (s.unit u).receiving = false ∨ bs = [] then s
    else
      let q := (s.unit u).rxFifo
      let s1 := s.modUnit u (fun l => { l with rxFifo := bs.foldl pushByte l.rxFifo })
      if fifoBytesHeld q < Config.fifoBytes then s1.setAnswerer u { a with dataTaken := true } else s1

/-- DATA END taken by an answerer (R42, R110). -/
def State.takeDataEnd (s : State) (u : UnitId) : State :=
  match s.answering u with
  | some _ => s.pushMark u .dataEnd
  | none => s

/-- The receive recoder takes its next item, and reports the end of the page's data (R42, R131). -/
def State.receiveDecode (s : State) (u : UnitId) : State :=
  if s.stalled (.unit u) then s
  else match s.rxTake u with
    | (some r, t) => t.takeReport u r
    | (none, t) => t

/-- The 3 s wait of an OFFER expires (R117, R128). -/
def State.answererWaitExpired (s : State) (u : UnitId) (a : AnswererSession) : State :=
  if a.phase ≠ .offering then s
  else if 3 ≤ a.sends then s.refuseCall u .noOrder none none
  else s.sendOffer u a (a.sends + 1)

/-- A command's 3 s wait expires (R117). -/
def State.replyWaitExpired (s : State) (u : UnitId) : State :=
  match s.caller u, s.answering u with
  | some c, _ => if c.wait = some .reply then s.callerWaitExpired u c else s
  | none, some a => if a.wait = some .reply then s.answererWaitExpired u a else s
  | none, none => s

/-- The 3 s of NOT READY pass (R128). CALL_REFUSED carries no station ID, although an ORDER may have been answered STOP:
DESIGN CHOICE (log entry 73). -/
def State.notReadyExpired (s : State) (u : UnitId) : State :=
  match s.answering u with
  | some a => if a.phase = .notReady then s.refuseCall u .notReady none none else s
  | none => s

/-- The idle limit expires (R134). -/
def State.idleLimitExpired (s : State) (u : UnitId) : State :=
  match s.answering u with
  | some a => s.departed u a
  | none => s

end Sys2Proof.Machine
end

