-- ==== Sys2Proof/Machine/Units.lean ====
section
/-! DEFINITION. The line unit's call state machine: outgoing calls, glare, ringing, blocking, LINE MODE and
RESTART (Chapter 6). -/

namespace Sys2Proof.Machine

open Sys2Proof

/-- The unit takes incoming calls by its mode (R97). -/
def LineUnit.receives (l : LineUnit) : Bool := decide (l.mode = .receive ∨ l.mode = .both)

/-! ## Messages without effect (R96, R116, R200) -/

/-- A message that the unit discards: state, timers and counts do not change (R96, R200). -/
def State.discardMessage (s : State) (_u : UnitId) (_type : Byte) : State := s

/-- A frame that is corrupt, or treated as corrupt: the session's state and waits do not change (R116). -/
def State.ignoreFrame (s : State) (_u : UnitId) : State := s

/-! ## Outgoing calls (R100 to R103) -/

/-- The dial limit in ms of a string (R100). -/
def dialLimit (t : Text) : Nat := 20000 + 2000 * (t.filter (fun c => decide (c = pauseMark))).length

/-- DIAL TONE (R100). -/
def State.dialTone (s : State) (u : UnitId) : State :=
  let l := s.unit u
  match l.state, l.handOver with
  | .seizing, some h =>
    let t := l.lead ++ h.number
    (s.sendLink u (.dial t)).modUnit u (fun x =>
      { x with dialFailures := 0, state := .dialling, timer := some (dialLimit t) })
  | _, _ => s

/-- DIAL DONE (R101). -/
def State.dialDone (s : State) (u : UnitId) : State :=
  if (s.unit u).state = .dialling then
    s.modUnit u (fun l => { l with state := .awaitAnswer, timer := some 45000 })
  else s

/-- BUSY TONE (R101, R102). -/
def State.busyTone (s : State) (u : UnitId) : State :=
  match (s.unit u).state with
  | .dialling | .awaitAnswer => s.endCall u .busy
  | _ => s

/-- ANSWER TONE (R102). -/
def State.answerTone (s : State) (u : UnitId) : State :=
  if (s.unit u).state = .awaitAnswer then s.answered u else s

/-- The 4 s timer of SEIZING expires (R100). -/
def State.seizeTimeout (s : State) (u : UnitId) : State :=
  if (s.unit u).state = .seizing then
    (s.modUnit u (fun l => { l with dialFailures := min 3 (l.dialFailures + 1) })).endCall u .noDialTone
  else s

/-- The dial limit expires (R101). -/
def State.dialLimitExpired (s : State) (u : UnitId) : State :=
  if (s.unit u).state = .dialling then s.endCall u .dialFailed else s

/-- The 45 s timer expires (R102). -/
def State.answerTimeout (s : State) (u : UnitId) : State :=
  if (s.unit u).state = .awaitAnswer then s.endCall u .noAnswer else s

/-! ## Ringing (R105 to R109) -/

/-- The unit answers (R108). -/
def State.answerRing (s : State) (u : UnitId) : State :=
  let l := s.unit u
  let s1 := (s.sendLink u .answer).modUnit u (fun x =>
    ({ x with timer := none, role := some .answerer, state := .inSession }).modStats
      (fun c => { c with callsIn := satAdd Config.max32 c.callsIn 1 }))
  (s1.post (.unit u) (.callIn u l.ringCount l.glare l.caller)).startAnswerer u

/-- The verdict of a ringing is a refusal (R107). -/
def RingVerdict.refusal : RingVerdict → Option RefuseReason
  | .refused r => some r
  | _ => Option.none

/-- After each RING the count is checked against rings to answer (R106, R108). -/
def State.checkRings (s : State) (u : UnitId) : State :=
  let l := s.unit u
  if l.ringCount = s.settings.ringsToAnswer ∧ l.verdict.refusal = none then s.answerRing u else s

/-- A ringing begins with count 1 (R105, R106); the ring-match record is emptied (R158). -/
def State.beginRinging (s : State) (u : UnitId) (glare : Bool) : State :=
  (s.modUnit u (fun l =>
    { l with state := .ringing, timer := some 8000, ringCount := 1, caller := none, verdict := .none,
             glare := glare, role := none, entry := none })).modScreen (fun c => c.setMatch u none)

/-- RING in SEIZING on a unit of mode BOTH (R105, R150): the line is released and the entry returned. The unit's release
time stays as it was: DESIGN CHOICE (log entry 83). -/
def State.glare (s : State) (u : UnitId) : State :=
  let s1 := (s.sendLink u .release).glareReturn u
  let s2 := s1.modUnit u (fun l => { l with handOver := none, answered := false, result := none })
  ((s2.beginRinging u true).checkRings u).arbiterPasses

/-- RING (R97, R105, R106). -/
def State.ring (s : State) (u : UnitId) : State :=
  let l := s.unit u
  match l.state with
  | .idle => if l.receives then (s.beginRinging u false).checkRings u else s
  | .ringing =>
    if l.receives then
      (s.modUnit u (fun x => { x with ringCount := satAdd 255 x.ringCount 1, timer := some 8000 })).checkRings u
    else s
  | .seizing => if l.mode = .both then s.glare u else s
  | _ => s

/-- The first CALLER of a ringing (R107, R157). -/
def State.callerNumber (s : State) (u : UnitId) (number : Text) : State :=
  let l := s.unit u
  if l.state = .ringing ∧ l.caller = none then
    let a := s.screen.lookupRinging u number s.now
    let s1 := ({ s with screen := a.2 }).modUnit u (fun x => { x with caller := some number, verdict := a.1.verdict })
    match a.1.verdict with
    | .refused r => s1.callRefused u r a.1.refusing none
    | _ => s1
  else s

/-- CALL_MISSED (R109, R111, R115). -/
def State.callMissed (s : State) (u : UnitId) (r : MissReason) (screening : Option RefuseReason) : State :=
  s.post (.unit u) (.callMissed u r screening (s.unit u).ringCount (s.unit u).caller)

/-- The ringing fields are cleared (R109). -/
def LineUnit.clearRinging (l : LineUnit) : LineUnit :=
  { l with ringCount := 0, caller := none, verdict := .none, glare := false }

/-- The ring timer expires (R109). -/
def State.ringTimerExpired (s : State) (u : UnitId) : State :=
  if (s.unit u).state ≠ .ringing then s
  else
    let q := (s.unit u).verdict.refusal
    let s1 := s.callMissed u (if q.isSome then .refused else .stopped) q
    ((s1.modUnit u LineUnit.clearRinging).enterIdle u).arbiterPasses

/-! ## Blocking (R111, R112) -/

/-- What LINE FAULT ends in each state (R111). The CALL_MISSED of a RINGING unit carries no screening reason,
whatever the ring verdict: DESIGN CHOICE (log entry 62). -/
def State.faultEnds (s : State) (u : UnitId) : State :=
  let l := s.unit u
  let fail (t : State) : State := (t.modUnit u (fun x => { x with result := some .lineFault })).hangUp u
  match l.state with
  | .ringing => (s.callMissed u .lineFault none).modUnit u LineUnit.clearRinging
  | .seizing | .dialling | .awaitAnswer => fail s
  | .inSession =>
    match l.role, l.answerer with
    | some .caller, _ => fail s
    | _, some a => (s.cutReception u a).hangUp u
    | _, none => s.hangUp u
  | _ => s

/-- LINE FAULT (R111). -/
def State.lineFault (s : State) (u : UnitId) : State :=
  match (s.unit u).state with
  | .off | .blocked => s
  | _ =>
    let outgoing := decide ((s.unit u).role = some .caller)
    let s1 := ((s.faultEnds u).restUnit u .blocked).postLineState u .lineFault
    let s2 := if outgoing then s1.outcome u else s1
    (s2.modUnit u LineUnit.clearCall).arbiterPasses

/-- LINE OK (R112). -/
def State.lineOk (s : State) (u : UnitId) : State :=
  if (s.unit u).state ≠ .blocked then s
  else
    let s1 := (s.modUnit u (fun l => { l with dialFailures := 0 })).enterIdle u
    (s1.postLineState u .lineOk).arbiterPasses

/-! ## LINE MODE and RESTART (R98, R115) -/

/-- A mode change that takes effect at once (R98). -/
def State.setMode (s : State) (u : UnitId) (m : UnitMode) : State :=
  let s1 := s.modUnit u (fun l => { l with mode := m, pendingMode := none })
  (s1.restUnit u (if m = .off then .off else .idle)).postLineState u .lineMode

/-- LINE MODE on a unit (R98). -/
def State.lineMode (s : State) (u : UnitId) (m : UnitMode) : Result × State :=
  let l := s.unit u
  match l.state with
  | .off | .idle => if l.mode = m ∧ l.pendingMode = none then (.already, s) else (.accepted, s.setMode u m)
  | .blocked => (.accepted, (s.modUnit u (fun x => { x with dialFailures := 0 })).setMode u m)
  | _ => (.accepted, s.modUnit u (fun x => { x with pendingMode := some m }))

/-- What RESTART ends on a unit that is not in an outgoing call (R115); an outgoing call is aborted with its
entry. The CALL_MISSED of a RINGING unit carries no screening reason: DESIGN CHOICE (log entry 62). -/
def State.restartCall (s : State) (u : UnitId) : State :=
  let l := s.unit u
  match l.state with
  | .off | .idle | .blocked => s.countRestart u
  | .ringing =>
    ((s.callMissed u .restart none).modUnit u LineUnit.clearRinging).enterIdle u
  | .inSession =>
    match l.role, l.answerer with
    | some .answerer, some a => (s.cutReception u a).releaseCall u
    | some .answerer, none => s.releaseCall u
    | _, _ => s
  | _ => s

/-- RESTART on a unit: its call ends, and its recoders are idle (R40, R41, R115). -/
def State.restartUnit (s : State) (u : UnitId) : State := (s.restartCall u).modUnit u LineUnit.idleRecoders

end Sys2Proof.Machine
end

