-- ==== Sys2Proof/Machine/Charging.lean ====
section
/-! DEFINITION. The Meter with its neighbours: the clock step, burns, the power warning, and the tariff
load (Chapter 11), and the countdowns of the Send Queue (R141). -/

namespace Sys2Proof.Machine

open Sys2Proof

/-! ## The clock step (R180, R186, R141, R155) -/

/-- The clock one half-second on (R180). -/
def Clock.tick (c : Clock) : Clock :=
  if c.half + 1 < Config.dayHalves then { c with half := c.half + 1 }
  else { c with half := 0, day := if c.day < 6 then c.day + 1 else 0 }

/-- A meter record at a clock step: elapsed rises, and a unit whose start is reached becomes due in the
band in force at the clock value just reached; next start rises by that unit's length (R186), past 2^32 - 1 where it
must: DESIGN CHOICE (log entry 39). -/
def MeterRec.tick (b : Band) (r : MeterRec) : MeterRec :=
  if r.elapsed + 1 = r.nextStart then
    { r with elapsed := satAdd Config.max32 r.elapsed 1, nextStart := r.nextStart + r.zone.len.get b, due := r.due ++ [b] }
  else { r with elapsed := satAdd Config.max32 r.elapsed 1 }

/-- An entry counts down (R141). -/
def EntryState.counts : EntryState → Bool
  | .waiting | .retryWait => true
  | _ => false

/-- A countdown at a clock step (R141). -/
def DestEntry.tick (e : DestEntry) : DestEntry :=
  if e.state.counts then { e with countdown := e.countdown - 1 } else e

/-- An entry whose countdown has reached 0 (R141). -/
def DestEntry.due (e : DestEntry) : Bool := e.state.counts && decide (e.countdown = 0)

/-- The lowest entry whose countdown has reached 0 becomes READY, and the arbiter makes its passes
(R141, R142). -/
def State.countdownExpired (s : State) : State :=
  match s.entryIds DestEntry.due with
  | [] => s
  | i :: _ => (s.becomeReady i).arbiterPasses

/-- Every entry due becomes READY, in ascending id order (R141). -/
def State.settleEntries (s : State) : State :=
  eachNum (s.entryIds DestEntry.due) (fun _ t => t.countdownExpired) s

/-- Every unit of a call that is due is charged; while the Meter waits, none (R61, R186). -/
def State.settleUnits (s : State) (u : UnitId) : State :=
  match s.meter.recs.get u with
  | none => s
  | some r => r.due.foldl (fun t _ => t.settleMeter u) s

/-- What an earlier step left due and no command has yet carried out is carried out before the next step
(log entry 20). -/
def State.settleDue (s : State) : State :=
  ((eachUnit (fun u t => t.settleUnits u) s).settleEntries).pacingPulse.ageExpiry

/-- What the blocks that count in half-seconds see at the step (R180). -/
def State.countStep (s : State) : State :=
  let c := s.meter.clock.tick
  let b := s.meter.tariff.bandAt c.stamp
  let r := s.meter.recs
  { s with
    meter := { s.meter with
      clock := c, recs := ⟨r.u0.map (MeterRec.tick b), r.u1.map (MeterRec.tick b), r.u2.map (MeterRec.tick b),
                          r.u3.map (MeterRec.tick b)⟩ },
    sendq := { s.sendq with entries := s.sendq.entries.map (fun x => (x.1, x.2.tick)) },
    screen := { s.screen with pacing := s.screen.pacing.map (fun n => n - 1), age := s.screen.age.map (fun n => n - 1) } }

/-- The clock steps (R180). -/
def State.clockStep (s : State) : State := s.settleDue.countStep

/-! ## Burns (R194, R195) -/

/-- METER_BURN (Table 12-6). -/
def State.postBurn (s : State) (o : BurnOutcome) (b : Burn) : State :=
  s.post .meter (.meterBurn b.desk o (some b.reason) b.lifetime b.calls b.sequence)

/-- A successful burn may leave the pending amount at the threshold (R194). -/
def State.thresholdTest (s : State) (d : Nat) : State :=
  match s.desk d with
  | some k => if s.meter.checkpoint ≤ k.pendingAmount then s.queueBurn d .threshold else s
  | none => s

/-- The burn in progress, where it is the one of a number and the Meter can take its end: no write of the Meter
waits for room (R61, R195). -/
def State.burnOf (s : State) (n : Nat) : Option Burn :=
  match s.meter.burn with
  | none => none
  | some b => if b.number = n ∧ s.stalled .meter = false then some b else none

/-- The self-check verifies a burn: the one in progress, or one that has ended, whose verify is discarded (R195). -/
def State.burnVerified (s : State) (n : Nat) : State :=
  match s.burnOf n with
  | none => s
  | some b =>
    let s1 := s.modDesk b.desk (fun k => { k with burned := b.lifetime, torn := false, captured := none })
    let s2 := s1.setCell b.desk
      { lifetime := b.lifetime, calls := b.calls, sequence := b.sequence, torn := false, writing := false }
    let s3 := ({ s2 with meter := { s2.meter with burn := none } }).postBurn .done b
    (s3.thresholdTest b.desk).startBurn

/-- The burn limit of the burn in progress expires first: the burn fails (R195). -/
def State.burnFailed (s : State) (n : Nat) : State :=
  match s.burnOf n with
  | none => s
  | some b =>
    let s1 := s.modDesk b.desk (fun k => { k with torn := true, captured := none, audit := true })
    let s2 := s1.setCell b.desk { s.storeCell b.desk with torn := true, writing := false }
    let s3 := { s2 with meter := { s2.meter with
      burn := none, burnQueue := s2.meter.burnQueue.filter (fun x => decide (x.1 ≠ b.desk)) } }
    ((s3.postBurn .failed b).deskRecompute b.desk .burnFailed).startBurn

/-! ## The power warning (R197) -/

/-- The supply monitor's sensed level (R197). -/
def State.senseSupply (s : State) (low : Bool) : State := { s with meter := { s.meter with supplyLow := low } }

/-- The desks with a pending amount above 0, ascending (R194). -/
def State.pendingDesks (s : State) : List Nat :=
  (s.meter.desks.filter (fun x => decide (0 < x.2.pendingAmount))).map (fun x => x.1)

/-- The warning begins: the supply has been low for 1 ms (R197). -/
def State.warningBegins (s : State) : State :=
  if s.meter.monitor ∧ s.meter.supplyLow ∧ s.meter.warning = false ∧ s.stalled .meter = false then
    let s1 := ({ s with meter := { s.meter with warning := true } }).post .meter (.power true)
    (eachNum s1.pendingDesks (fun d t => t.queueBurn d .power) s1).startBurn
  else s

/-- The warning ends: the supply has been good for 1 ms (R197). -/
def State.warningEnds (s : State) : State :=
  if s.meter.monitor ∧ s.meter.supplyLow = false ∧ s.meter.warning ∧ s.stalled .meter = false then
    (({ s with meter := { s.meter with warning := false } }).post .meter (.power false)).arbiterPasses
  else s

/-! ## Loading a tariff (R182) -/

/-- A unit length in range, and whether it was clamped (R182). -/
def clampLength (v : Nat) : Nat × Nat := (clampTo 1 7200 v, if clampTo 1 7200 v = v then 0 else 1)

/-- A zone record read from an area: its prefix length byte, its prefix digits, and its prices and
lengths (section 12.3, "LOAD TARIFF area"). -/
structure ZoneRead where
  length : Nat
  digits : Text
  setup : Nat
  len : PerBand Nat
  price : PerBand Nat
  deriving DecidableEq, Repr

/-- A zone record's 24 bytes read. -/
def readZone (bs : List Byte) : ZoneRead :=
  let num (o n : Nat) : Nat := leValue ((bs.drop o).take n)
  { length := num 0 1, digits := (bs.drop 1).take (min 8 (num 0 1)), setup := num 10 2,
    len := ⟨num 12 2, num 16 2, num 20 2⟩, price := ⟨num 14 2, num 18 2, num 22 2⟩ }

/-- The zone records of an area, numbered. -/
def readZones : Nat → Nat → List Byte → List (Nat × ZoneRead)
  | 0, _, _ => []
  | n + 1, i, bs => (i, readZone (bs.take 24)) :: readZones n (i + 1) (bs.drop 24)

/-- A prefix of digits, at most 8 (R182). -/
def ZoneRead.prefixOk (z : ZoneRead) : Bool := decide (z.length ≤ 8) && z.digits.all isDigit

/-- The first record with the same prefix as an earlier used one (R182). Of the two records the later is the one found
wrong: DESIGN CHOICE (log entry 85). -/
def firstTwin : List Text → List (Nat × ZoneRead) → Option Nat
  | _, [] => none
  | seen, (i, z) :: t => if z.digits ≠ [] ∧ z.digits ∈ seen then some i else firstTwin (z.digits :: seen) t

/-- A zone with its lengths in range, and how many were clamped (R182). -/
def ZoneRead.zone (z : ZoneRead) : Zone × Nat :=
  let p := clampLength z.len.peak
  let q := clampLength z.len.shoulder
  let r := clampLength z.len.night
  ({ digits := z.digits, setup := z.setup, len := ⟨p.1, q.1, r.1⟩, price := z.price }, p.2 + q.2 + r.2)

/-- The bands of a row, or none where one is unknown. -/
def readBands : List Byte → Option (List Band)
  | [] => some []
  | b :: t => match bandOf b.toNat, readBands t with
    | some x, some r => some (x :: r)
    | _, _ => none

/-- A tariff area read: the zone index or map found wrong, or the tariff and the clamped lengths (R182). -/
def readTariff (bs : List Byte) : Nat ⊕ (Tariff × Nat) :=
  let zs := readZones 64 0 bs
  match zs.find? (fun x => !x.2.prefixOk) with
  | some (i, _) => .inl i
  | none =>
    if zs.any (fun x => decide (x.1 = 0 ∧ x.2.digits ≠ [])) then .inl 0
    else match firstTwin [] zs with
      | some i => .inl i
      | none =>
        match readBands ((bs.drop 1540).take 24), readBands ((bs.drop 1564).take 24) with
        | some wd, some we =>
          let used := (zs.filter (fun x => decide (x.1 = 0 ∨ x.2.digits ≠ []))).map (fun x => (x.1, x.2.zone))
          .inr ({ zones := used.map (fun x => (x.1, x.2.1)), weekend := bs.getD 1536 0, weekdayRow := wd, weekendRow := we },
                (zs.map (fun x => x.2.zone.2)).sum)
        | _, _ => .inl 64

/-- The HELD and READY entries are tested again after a tariff load (R146). -/
def State.retestEntries (s : State) : State :=
  let freed := s.entryIds (fun e => decide (e.state = .held) && !s.meter.chargeable (s.meter.tariff.lookup e.number).2)
  let ready := s.entryIds (fun e => decide (e.state = .ready))
  let s1 := eachNum freed (fun i t => t.modEntry i (fun e => { e with state := .ready })) s
  (eachNum ready (fun i t => t.testDesk i) s1).arbiterPasses

end Sys2Proof.Machine
end

