-- ==== Sys2Proof/Machine/Setup.lean ====
section
/-! DEFINITION. Start-up: the Setup Block read, its clamps and checks, going RUNNING, and the two resets
(R46 to R49, R63, R65, Table 12-2). -/

namespace Sys2Proof.Machine

open Sys2Proof

/-! ## Reading the Setup Block (Table 12-2) -/

/-- A Region Table entry as read: its treatment is still a code. -/
structure RawRegion where
  base : Nat
  size : Nat
  code : Nat
  deriving DecidableEq, Repr

/-- The Setup Block fields that the checks look at, already clamped (R47). -/
structure SetupRead where
  regions : List (Nat × RawRegion)
  controlBase : Nat
  eventBase : Nat
  logBase : Nat
  logSize : Nat
  poolBase : Nat
  poolCount : Nat
  deriving DecidableEq, Repr

/-- The used Region Table entries (R48). -/
def State.readRegions (s : State) : List (Nat × RawRegion) :=
  ((List.range 8).map (fun i =>
    (i, { base := s.readNum (0x40 + 12 * i) 4, size := s.readNum (0x44 + 12 * i) 4,
          code := s.readNum (0x48 + 12 * i) 1 : RawRegion }))).filter (fun x => decide (x.2.size ≠ 0))

/-- The fields of the Setup Block that R48 checks. -/
def State.readSetup (s : State) : SetupRead :=
  { regions := s.readRegions, controlBase := s.readNum 0xA0 4, eventBase := s.readNum 0xA4 4,
    logBase := s.readNum 0xA8 4, logSize := s.readNum 0xAC 4, poolBase := s.readNum 0xB0 4,
    poolCount := clampTo 256 16384 (s.readNum 0xB4 4) }

/-- One entry of the clamp report where the field changed: its code, the value read, the value used. -/
def clampEntry (code read used : Nat) : List (Nat × Nat × Nat) :=
  if read = used then [] else [(code, read, used)]

/-- The clamp report (R47, Table 3-2). -/
def State.clampReport (s : State) : List (Nat × Nat × Nat) :=
  let pool := s.readNum 0xB4 4
  let rings := s.readNum 0xBC 1
  let bad := s.readNum 0xC1 1
  clampEntry 1 pool (clampTo 256 16384 pool) ++ clampEntry 2 rings (clampTo 1 9 rings)
    ++ clampEntry 3 bad (min 15 bad)

/-! ## The checks (R48, Table 3-3) -/

/-- The implicit areas: base and extent of the Control Page, Event Ring, Charge Log and pool (R48). -/
def SetupRead.implicit (b : SetupRead) : List (Nat × Nat) :=
  [(b.controlBase, 4096), (b.eventBase, Config.ringRecords * 32), (b.logBase, b.logSize * 64),
   (b.poolBase, b.poolCount * Config.blockBytes)]

/-- The extents of the used regions. -/
def SetupRead.extents (b : SetupRead) : List (Nat × Nat) := b.regions.map (fun x => (x.2.base, x.2.size))

/-- Two extents overlap. -/
def extentsMeet (a b : Nat × Nat) : Bool := overlaps a.1 a.2 b.1 b.2

/-- Some two extents of a list overlap. -/
def anyMeet : List (Nat × Nat) → Bool
  | [] => false
  | a :: t => t.any (extentsMeet a) || anyMeet t

/-- A number is a multiple of 4 KiB. -/
def aligned4k (n : Nat) : Bool := decide (n % 4096 = 0)

/-- The used regions of RASTER treatment. -/
def SetupRead.rasters (b : SetupRead) : List (Nat × RawRegion) :=
  b.regions.filter (fun x => decide (treatmentOf x.2.code = some .raster))

/-- Whether a check of Table 3-3 holds. -/
def SetupRead.holds (b : SetupRead) (memSize : Nat) : SetupFault → Bool
  | .badTreatment => b.regions.all (fun x => (treatmentOf x.2.code).isSome)
  | .badRegion => b.regions.all (fun x => aligned4k x.2.base && aligned4k x.2.size)
  | .tooManyWindows => decide (b.rasters.length ≤ 2)
  | .logSize => decide (128 ≤ b.logSize ∧ b.logSize ≤ 4096)
  | .badBase => b.implicit.all (fun x => aligned4k x.1)
  | .outside => (b.extents ++ b.implicit).all (fun x => decide (x.1 + x.2 ≤ memSize))
  | .overlapSetup => (b.extents ++ b.implicit).all (fun x => !extentsMeet x (0, 4096))
  | .overlapRegions => !anyMeet b.extents
  | .overlapRings => !anyMeet b.implicit
  | .overlapWindow => b.rasters.all (fun x => !b.implicit.any (extentsMeet (x.2.base, x.2.size)))

/-- The checks in the order of Table 3-3. -/
def setupChecks : List SetupFault :=
  [.badTreatment, .badRegion, .tooManyWindows, .logSize, .badBase, .outside, .overlapSetup,
   .overlapRegions, .overlapRings, .overlapWindow]

/-- The first check that fails (R48). -/
def SetupRead.fault (b : SetupRead) (memSize : Nat) : Option SetupFault :=
  setupChecks.find? (fun c => !b.holds memSize c)

/-! ## The status word (R46, R49) -/

/-- The status bytes 0x004 to 0x03F: outcome, fault code, clamp report. -/
def statusBytes (outcome fault : Nat) (report : List (Nat × Nat × Nat)) : List Byte :=
  fitBytes 60 ([byteOf outcome, byteOf fault, byteOf report.length, 0]
    ++ report.flatMap (fun x => leBytes 2 x.1 ++ [0, 0] ++ leBytes 4 x.2.1 ++ leBytes 4 x.2.2))

/-- The status is written and the post word cleared (R46, R49). -/
def State.writeStatus (s : State) (outcome fault : Nat) : State :=
  (s.issue .memoryPath 4 (statusBytes outcome fault s.clampReport)).issue .memoryPath 0 (leBytes 4 0)

/-! ## Going RUNNING (R49, R65) -/

/-- The pool is built (R1, R2). -/
def PageStore.build (base count : Nat) : PageStore :=
  { base := base, blockCount := count, free := List.range count, links := [], pages := [], docs := [] }

/-- The Region Table as the checks have passed it (R50). -/
def SetupRead.table (b : SetupRead) : Table Region :=
  b.regions.filterMap (fun x => (treatmentOf x.2.code).map (fun t => (x.1, { base := x.2.base, size := x.2.size, treatment := t })))

/-- The characters before the first 0 byte, or all (Table 12-2). -/
def textToZero (bs : List Byte) : Text := bs.takeWhile (fun c => decide (c ≠ 0))

/-- The receive reserve as used (R128). -/
def reserveUsed (pool v : Nat) : Nat := min pool (zeroAs 64 v)

/-- The settings that their owners keep (R82, R97, R116, R128, R132). -/
def State.takeSettings (s : State) (b : SetupRead) : Settings :=
  { controlBase := b.controlBase, eventBase := b.eventBase,
    receiveReserve := reserveUsed b.poolCount (s.readNum 0xB8 2), ringsToAnswer := clampTo 1 9 (s.readNum 0xBC 1),
    badPercent := min 15 (s.readNum 0xC1 1), badRun := s.readNum 0xC2 1,
    holdOffMs := min 15 (s.readNum 0xC5 1), station := textToZero (s.readThrough 0xCC 20) }

/-- A unit's mode from its Setup Block byte; a code outside the four leaves a free value (log entry 2). -/
def setupMode (b : Byte) : UnitMode :=
  match unitModeOf b.toNat with
  | some m => m
  | none => Config.unknownUnitMode b

/-- A unit takes its mode and its dialling lead-in (R97). -/
def State.setupUnit (s : State) (u : UnitId) : State :=
  let a := 0xE0 + 12 * unitNum u
  let m := setupMode (s.readByte a)
  s.modUnit u (fun l =>
    { l with mode := m, pendingMode := none, state := if m = .off then .off else .idle, role := none,
             entry := none, lead := (s.readThrough (a + 4) 8).takeWhile isDial, dialFailures := 0,
             glare := false, answered := false, timer := none })

/-- The Caller Screen takes its settings; its table is empty (R154, R155). -/
def State.setupScreen (s : State) : State :=
  let period := zeroAs 1 (s.readNum 0xBF 1)
  let age := s.readNum 0xC0 1
  let flag (i : Nat) : Bool := decide (s.readByte (0xE1 + 12 * i) ≠ 0)
  s.modScreen (fun c =>
    { c with mode := (screenModeOf (s.readNum 0xBE 1)).getD .opened,
             learn := ⟨flag 0, flag 1, flag 2, flag 3⟩, ringMatch := Quad.all none, pacingPeriod := period,
             agePeriod := age, entries := [], pacing := some (120 * period),
             age := if age = 0 then none else some (7200 * age), sweep := none, fullReported := false })

/-- A reload value as used (R178). -/
def reloadUsed (v : Nat) : Nat := if v = 0 then 0 else max 4 v

/-- The Print Engine takes its settings and its levels; its queue is empty (R168, R178). -/
def State.setupPrint (s : State) : State :=
  let p := s.print
  { s with print := { p with
      entries := [], current := none,
      strobeBase := clampTo 40 95 (s.readNum 0xC8 1), strobeSlope := min 63 (s.readNum 0xC9 1),
      sounder := { flash := none, paper := if p.paperPresent then none else some true,
                   flashReload := reloadUsed (s.readNum 0xC6 1), paperReload := reloadUsed (s.readNum 0xC7 1) } } }

/-- The burn limit in ms as used (R195). -/
def burnLimitUsed (v : Nat) : Nat := if v = 2 ∨ v = 4 ∨ v = 8 ∨ v = 16 then v else 16

/-- A desk account as the Setup Block and its cell give it, before the audit of a TORN cell (R189, R196). -/
def loadedDesk (ceiling : Nat) (c : StoreCell) : Desk :=
  let k : Desk :=
    { state := .opened, audit := false, closed := false, ceiling := ceiling, spent := 0,
      working := c.lifetime, burned := c.lifetime, calls := c.calls, captured := none, torn := c.torn }
  { k with state := k.derived }

/-- The Meter takes its settings, the empty tariff, the desks and an empty Charge Log (R181, R189, R192,
R194 to R197). -/
def State.setupMeter (s : State) (b : SetupRead) : State :=
  { s with meter := { s.meter with
      tariff := Tariff.empty, recs := Quad.all none,
      desks := (List.range Config.desks).map (fun d => (d, loadedDesk (s.readNum (0x110 + 4 * d) 4) (s.storeCell d))),
      logBase := b.logBase, logSize := b.logSize, producer := 0, consumer := 0, recordSeq := 0, overflow := [],
      work := [], burnQueue := [], burn := none, burnsBegun := 0, checkpoint := zeroAs 500 (s.readNum 0xBA 2),
      burnLimit := burnLimitUsed (s.readNum 0xC3 1), monitor := true,
      supplyIndex := min 7 (s.readNum 0xC4 1), warning := false } }

/-- A TORN cell puts its desk in AUDIT, with METER_BURN and DESK_STATE (R196). -/
def State.loadCell (s : State) (d : Nat) : State :=
  let c := s.storeCell d
  if c.torn then
    let s1 := s.modDesk d (fun k => { k with audit := true })
    (s1.post .meter (.meterBurn d .torn none c.lifetime c.calls c.sequence)).deskRecompute d .cellTorn
  else s

/-- The Control Page is prepared (R65). Which words the Order Intake writes, which the Event Reporter, and in what
order: DESIGN CHOICE (log entry 70). -/
def State.prepareControl (s : State) : State :=
  let zero (blk : Block) (off : Nat) (t : State) : State := t.issue blk (t.controlWord off) (leBytes 4 0)
  let s1 := eachNum (List.range 32) (fun n t => zero .orderIntake (n * 64 + 4) t) s
  let s2 := zero .orderIntake 0x800 s1
  let s3 := [0x804, 0x808, 0x80C, 0x840, 0x844].foldl (fun t o => zero .eventReporter o t) s2
  s3.issue .orderIntake (s3.controlWord 0x810) (leBytes 4 1)

/-- The settings go to their owners (R49). -/
def State.handSettings (s : State) (b : SetupRead) : State :=
  let s1 := { s with
    settings := s.takeSettings b, store := PageStore.build b.poolBase b.poolCount,
    path := { s.path with regions := b.table },
    sendq := { SendQueue.reset with keepForReceive := min 3 (s.readNum 0xBD 1) } }
  ((eachUnit (fun u t => t.setupUnit u) (s1.setupMeter b)).setupScreen).setupPrint

/-- READY (R83). -/
def State.postReady (s : State) : State :=
  s.post .eventReporter (.ready s.cause (memMiB s.memSize) s.store.blockCount (!s.meter.clock.unset))

/-- The part goes RUNNING (R49): status, settings, Control Page, READY, and then what the loaded cells and
the printer's levels report (R168, R196). SETUP ends, and the Setup Page is open again, with the issue of the status and
the clearing write: DESIGN CHOICE (log entry 81). -/
def State.goRunning (s : State) (b : SetupRead) : State :=
  let s1 := s.handSettings b
  let s2 := ({ s1 with part := .running }).writeStatus 1 0
  let s3 := (s2.prepareControl).postReady
  let s4 := eachNum (List.range Config.desks) (fun d t => t.loadCell d) s3
  s4.recomputePrinter none

/-- The Memory Path can go on with the read of the Setup Block: no pending write overlaps the block, and none of
its own writes waits for room (R61). -/
def State.setupReady (s : State) : Bool :=
  decide (s.part = .setup) && !s.path.blocked 0x40 0x110 && !s.stalled .memoryPath

/-- The read of the Setup Block completes (R46 to R49). A refused Setup Block ends SETUP with the issue of the status and
the clearing write, before they are performed: DESIGN CHOICE (log entry 81). -/
def State.setupReadDone (s : State) : State :=
  if !s.setupReady then s
  else
    let b := s.readSetup
    match b.fault (memBytes s.memSize) with
    | some f => ({ s with part := .unconfigured }).writeStatus 2 (setupFaultCode f)
    | none => s.goRunning b

/-! ## The resets (R19, R63, R72, R83, R95, R114, R136, R137, R167, R168, R180, R193, R196) -/

/-- A burn that a reset cuts leaves its cell TORN with its last verified values (R193, R196). -/
def StoreCell.cut (c : StoreCell) : StoreCell :=
  if c.writing then { c with torn := true, writing := false } else c

/-- A unit's reset: RELEASE is sent and everything else dropped (R114). -/
def LineUnit.cutReset (l : LineUnit) : LineUnit := LineUnit.resetWith (l.out ++ [.release])

/-- Every block takes its reset value; page memory, the meter store and the levels of the ports stay as
they are. -/
def State.resetParts (s : State) (straps : MemSize) (cause : ResetCause) (clock : Clock) : State :=
  { s with
    memSize := straps, cause := cause, part := .unconfigured, settings := Settings.reset,
    path := MemPath.reset, intake := Intake.reset, reporter := Reporter.reset, store := PageStore.reset,
    coder := Coder.reset,
    scanner := Scanner.resetWith s.scanner.sheetPresent s.scanner.jam s.scanner.out,
    units := ⟨s.units.u0.cutReset, s.units.u1.cutReset, s.units.u2.cutReset, s.units.u3.cutReset⟩,
    sendq := SendQueue.reset, screen := Screen.reset,
    print := PrintEngine.resetWith s.print.paperPresent s.print.coverClosed s.print.out,
    meter := Meter.resetWith clock (s.meter.cells.map (fun x => (x.1, x.2.cut))) s.meter.supplyLow }

/-- Power-on reset: the clock restarts (R180). -/
def State.powerOnReset (s : State) (straps : MemSize) : State := s.resetParts straps .powerOn Clock.reset

/-- Bus reset: the clock goes on (R180). -/
def State.busReset (s : State) (straps : MemSize) : State := s.resetParts straps .busReset s.meter.clock

end Sys2Proof.Machine
end

