-- ==== Sys2Proof/Machine/Reports.lean ====
section
/-! DEFINITION. The Event Reporter: taking a posting, the missed-event count, and the hold-off timer (R79
to R83). -/

namespace Sys2Proof.Machine

open Sys2Proof

/-- The posting that has been taken leaves the line of postings. -/
def State.dropPosting (s : State) : State :=
  { s with reporter := { s.reporter with postings := s.reporter.postings.tail } }

/-- A missed event: the count rises, and a change of it is written to its word (R80). -/
def State.missEvent (s : State) : State :=
  let n := satAdd 65535 s.reporter.missed 1
  if n = s.reporter.missed then s
  else ({ s with reporter := { s.reporter with missed := n } }).writeMissed

/-- A GUARD_HIT was written at an index: its record is pending there with count 1 (R51). One that was not written
leaves its record as it is. -/
def State.guardWritten (s : State) (x : Word) : Event → State
  | .guardHit g _ => s.putGuard g { index := x, count := 1 }
  | _ => s

/-- The record and then the producer index word are written (R79). -/
def State.writeEvent (s : State) (e : Event) : State :=
  let x := s.reporter.producer
  let s1 := s.issue .eventReporter (s.ringAddr x) (e.record x s.now)
  let s2 := { s1 with reporter := { s1.reporter with producer := x + 1 } }
  s2.issue .eventReporter (s.controlWord 0x804) (leBytes 4 (x + 1).toNat)

/-- The posting is the ORDER_DONE of the take that is FINISHING: its clearing write has still to be issued (R69). -/
def State.untimely (s : State) : Event → Bool
  | .orderDone n _ _ _ _ => s.intake.finish.isSome && decide (n = s.intake.expected)
  | _ => false

/-- The Event Reporter takes the first posting (R79, R80); an ORDER_DONE waits for its take's clearing write (R69). -/
def State.takePosting (s : State) : State :=
  match s.reporter.postings with
  | [] => s
  | p :: _ =>
    if s.part ≠ .running ∨ s.stalled .eventReporter ∨ s.untimely p.event then s
    else
      let s1 := s.dropPosting
      if s1.reporter.unread < Config.ringRecords then
        (s1.writeEvent p.event).guardWritten s.reporter.producer p.event
      else s1.missEvent

/-- The hold-off timer expires (R82). -/
def State.holdOffExpired (s : State) : State := { s with reporter := { s.reporter with holdOff := false } }

end Sys2Proof.Machine
end

