-- ==== Sys2Proof/Machine/Orders.lean ====
section
/-! DEFINITION. What each order does at its owner: its checks in their order, its effect and its answer
(Chapters 1, 3, 5, 8 to 11; bodies and result values of Table 12-5). DUMP and RESTART stand in
Machine/IntakeOrders.lean. -/

namespace Sys2Proof.Machine

open Sys2Proof

/-! ## Scanner Port -/

/-- The target's action on a scan document (R87). -/
def State.applyTarget (s : State) (d copies : Nat) (t : ScanTarget) : State :=
  match t with
  | .copy => s.requestPrint d copies .ordinary
  | .sendReady | .store => s.modDoc d (fun r => { r with keep := true })

/-- The session that an accepted SCAN starts (R87). -/
def Scanner.begin_ (c : Scanner) (d desk copies : Nat) (t : ScanTarget) (w : Width) (v : Resolution) : Scanner :=
  { c with state := .feeding, before := .feeding, document := some d, desk := desk, target := t,
           copies := copies, width := w, resolution := v, sheetsBegun := 0, pagesSealed := 0,
           linesTaken := 0, widthFaults := 0, overruns := 0, beginPending := false, endPending := false,
           lastSheet := false, hold := false, fullPause := false, ackPending := true }

/-- An accepted SCAN (R87). -/
def State.startScan (s : State) (d desk copies : Nat) (t : ScanTarget) (w : Width) (v : Resolution) : State :=
  let s1 := { s with scanner := s.scanner.begin_ d desk copies t w v }
  (s1.sendScanner (.mode w v)).applyTarget d copies t

/-- A desk's state is CLOSED (R86). -/
def State.deskClosed (s : State) (d : Nat) : Bool :=
  match s.desk d with
  | some k => decide (k.state = .closed)
  | none => false

/-- SCAN (R86, R87). -/
def State.orderScan (s : State) : State :=
  let desk := s.body 0 1
  match widthOf (s.body 1 1), resolutionOf (s.body 2 1), scanTargetOf (s.body 3 1) with
  | some w, some v, some t =>
    if 15 < desk then s.answer .scan .badOrder []
    else if s.scanner.state ≠ .idle then s.answer .scan .state []
    else if s.scanner.jam ∨ s.scanner.sheetPresent = false then s.answer .scan .state []
    else if t = .sendReady ∧ s.deskClosed desk then s.answer .scan .state []
    else if lowestFree Config.pageRecords s.store.pages = none then s.answer .scan .full []
    else match s.openDoc .scan desk none with
      | none => s.answer .scan .full []
      | some (d, s1) => (s1.startScan d desk (clampTo 1 9 (s.body 4 1)) t w v).answer .scan .accepted [d]
  | _, _, _ => s.answer .scan .badOrder []

/-! ## Memory Path: windows (R54, R58) -/

/-- The window of a number that names a RASTER region (R54). -/
def State.namedWindow (s : State) (n : Nat) : Option WindowId :=
  let w : Option WindowId := if n = 0 then some .w0 else if n = 1 then some .w1 else none
  match w with
  | some x => if (s.path.windowRegion x).isSome then some x else none
  | none => none

/-- The fields of a window page (R54). -/
structure WindowOrder where
  document : Nat
  desk : Nat
  pages : Nat
  mode : WindowMode
  width : Width
  resolution : Resolution
  lines : Nat
  deriving DecidableEq, Repr

/-- The fields of OPEN WINDOW PAGE, or none where one is unknown or the desk is above 15 (R54). -/
def State.windowOrder (s : State) : Option WindowOrder :=
  match windowModeOf (s.body 6 1), widthOf (s.body 7 1), resolutionOf (s.body 8 1) with
  | some m, some w, some v =>
    if 15 < s.body 4 1 then none
    else some { document := s.body 2 2, desk := s.body 4 1, pages := min 250 (s.body 5 1), mode := m,
                width := w, resolution := v, lines := min 8191 (s.body 10 2) }
  | _, _, _ => none

/-- A window goes OPEN on an attached page (R54). -/
def Window.open_ (x : Window) (o : WindowOrder) (p : Option Nat) : Window :=
  { x with state := .opened, page := p, mode := o.mode, width := o.width, resolution := o.resolution,
           linesExpected := o.lines, linesRemaining := o.lines, lineBytes := widthBytes o.width,
           linesHanded := 0, slotA := Slot.clear, slotB := Slot.clear, next := .a }

/-- The page of a window is begun in its bound document (R54). -/
def State.beginWindowPage (s : State) (w : WindowId) (d : Nat) (o : WindowOrder) : State :=
  match s.beginSource (.win w) d o.width o.resolution with
  | (some _, t) => (t.modDoc d (fun r => { r with attached := false })).answer .openWindowPage .full [d]
  | (none, t) =>
    let p := (t.source (.win w)).page
    let t1 := t.modWindow w (fun x => x.open_ o p)
    (t1.modDoc d (fun r => { r with attached := true })).answer .openWindowPage .accepted (d :: p.toList)

/-- The window is bound to a new document (R53, R54). -/
def State.bindWindow (s : State) (w : WindowId) (d pages : Nat) : State :=
  s.modWindow w (fun x => { x with document := some d, pagesExpected := pages, pagesEnded := 0 })

/-- OPEN WINDOW PAGE (R54). -/
def State.orderOpenWindow (s : State) : State :=
  let no (r : Result) : State := s.answer .openWindowPage r []
  match s.namedWindow (s.body 0 1) with
  | none => no .noSuch
  | some w =>
    match s.windowOrder with
    | none => no .badOrder
    | some o =>
      let x := s.window w
      if x.state ≠ .idle ∨ x.sealPending then no .busy
      else if o.document = 0xFFFF then
        if x.document ≠ none then no .state
        else match s.openDoc .window o.desk none with
          | none => no .full
          | some (d, t) => (t.bindWindow w d o.pages).beginWindowPage w d o
      else if x.document ≠ some o.document then no .noSuch
      else s.beginWindowPage w o.document o

/-- A slot that is COMPLETE or partly filled is handed at CLOSE WINDOW PAGE, while the page has not ended
(R58). -/
def State.handPartial (s : State) (w : WindowId) (i : SlotId) : State :=
  let x := s.window w
  if x.state = .idle then s
  else match (x.slot i).state with
    | .complete | .filling => s.handSlot w i
    | _ => s

/-- The window page ends at CLOSE WINDOW PAGE (R58). -/
def State.closeWindowPage (s : State) (w : WindowId) : State :=
  let n := (s.window w).next
  ((s.handPartial w n).handPartial w (otherSlot n)).endWindowPage w

/-- CLOSE WINDOW PAGE (R58). -/
def State.orderCloseWindow (s : State) : State :=
  let no (r : Result) : State := s.answer .closeWindowPage r []
  match s.namedWindow (s.body 0 1) with
  | none => no .noSuch
  | some w =>
    match (s.window w).state with
    | .idle => no .state
    | .holding => no .busy
    | .opened => (s.closeWindowPage w).answer .closeWindowPage .accepted []

/-! ## Page Store (R15 to R18) -/

/-- CLOSE DOCUMENT (R16). -/
def State.orderCloseDocument (s : State) : State :=
  let d := s.body 0 1
  let no (r : Result) : State := s.answer .closeDocument r []
  match s.doc d with
  | none => no .noSuch
  | some r =>
    match r.state with
    | .closed => no .already
    | .opened => if r.attached then no .busy else (s.closeDocument d false).answer .closeDocument .accepted []

/-- KEEP (R15). -/
def State.orderKeep (s : State) : State :=
  let d := s.body 0 1
  let no (r : Result) : State := s.answer .keep r []
  match s.doc d with
  | none => no .noSuch
  | some r =>
    if r.deletePending then no .state
    else if r.keep then no .already
    else (s.modDoc d (fun x => { x with keep := true })).answer .keep .accepted []

/-- RELEASE (R15). -/
def State.orderRelease (s : State) : State :=
  let d := s.body 0 1
  let no (r : Result) : State := s.answer .release r []
  match s.doc d with
  | none => no .noSuch
  | some r =>
    if r.keep = false then no .already
    else ((s.modDoc d (fun x => { x with keep := false })).testFree d).answer .release .accepted []

/-- A forced deletion begins (R18): every send entry and every print entry of the document is ended, the print
entries in ascending number among themselves. DESIGN CHOICE (log entry 58). -/
def State.forceDelete (s : State) (d : Nat) : State :=
  let sends := s.entryIds (fun e => decide (e.document = d) && !e.state.final)
  let prints := (s.print.entries.filter (fun x => decide (x.2.document = d))).map (fun x => x.1)
  let s1 := s.modDoc d (fun x => { x with keep := false, deletePending := true })
  eachNum prints (fun i t => t.cancelPrintEntry i) (eachNum sends (fun i t => t.cancelEntry i) s1)

/-- DELETE DOCUMENT (R17). -/
def State.orderDelete (s : State) : State :=
  let d := s.body 0 1
  let force := decide (s.body 1 1 ≠ 0)
  let no (r : Result) : State := s.answer .deleteDocument r []
  match s.doc d with
  | none => no .noSuch
  | some r =>
    if r.state = .opened then no .state
    else if r.deletePending then no .already
    else if r.sendRefs = 0 ∧ r.printRefs = 0 then (s.freeDoc d).answer .deleteDocument .accepted []
    else if force then (s.forceDelete d).answer .deleteDocument .accepted []
    else no .busy

/-! ## Send Queue (R138 to R140, R151, R152) -/

/-- The fields of SEND, clamped (R138). -/
structure SendOrder where
  document : Nat
  desk : Nat
  priority : Priority
  maxAttempts : Nat
  retryInterval : Nat
  embargo : Nat
  orderSeq : Word
  deriving DecidableEq, Repr

/-- The number of a destination record, or none where it is malformed (R138). -/
def State.destination (s : State) (a : Nat) : Option Text :=
  match readText 25 (s.readThrough a 25) with
  | some t => if t ≠ [] ∧ t.all isDial then some t else none
  | none => none

/-- The numbers of consecutive records, or none where one is malformed. -/
def State.destinations (s : State) : Nat → Nat → Option (List Text)
  | _, 0 => some []
  | a, n + 1 => match s.destination a, s.destinations (a + 32) n with
    | some t, some r => some (t :: r)
    | _, _ => none

/-- A new destination entry (R139); its ready time is 0 until it first becomes READY, DESIGN CHOICE (log entry 66). -/
def SendOrder.entry (o : SendOrder) (number : Text) : DestEntry :=
  { orderSeq := o.orderSeq, document := o.document, desk := o.desk, priority := o.priority, number := number,
    zone := none, state := .waiting, attempts := 0, maxAttempts := o.maxAttempts,
    retryInterval := o.retryInterval, readyTime := 0, countdown := 120 * o.embargo, nextAttempt := Stamp.zero,
    lastResult := none, confirmed := 0, unit := none, chargeTotal := 0, attemptCharge := 0,
    heldReported := false, cancelPending := false }

/-- The entry that a new one takes: the lowest free one, or the head of the final list (R139, R140). -/
def SendQueue.place (q : SendQueue) : Option Nat :=
  match lowestFree Config.destEntries q.entries with
  | some i => some i
  | none => q.finals.head?

/-- One entry made (R139): WAITING under an embargo, else READY and tested against its desk. -/
def State.makeEntry (s : State) (o : SendOrder) (number : Text) : State :=
  match s.sendq.place with
  | none => s
  | some i =>
    let s1 := { s with sendq := { s.sendq with
      finals := dropNum i s.sendq.finals, entries := tset s.sendq.entries i (o.entry number) } }
    if o.embargo = 0 then s1.becomeReady i else s1

/-- The entries of an accepted SEND, in record order (R139). -/
def State.makeEntries (s : State) (o : SendOrder) (numbers : List Text) : State :=
  numbers.foldl (fun t n => t.makeEntry o n) s

/-- Entries that a SEND may take: the free ones and the final ones (R138). -/
def SendQueue.room (q : SendQueue) : Nat := Config.destEntries - q.entries.length + q.finals.length

/-- The final entries that a SEND of some entries overwrites (R139). -/
def SendQueue.overwrites (q : SendQueue) (n : Nat) : Nat := n - (Config.destEntries - q.entries.length)

/-- An accepted SEND (R139): the references, the entries, the answer, and the arbiter's passes. -/
def State.acceptSend (s : State) (o : SendOrder) (numbers : List Text) : State :=
  let n := numbers.length
  let s1 := s.modDoc o.document (fun r => { r with sendRefs := r.sendRefs + n })
  ((s1.makeEntries o numbers).answer .send .accepted [n, s.sendq.overwrites n]).arbiterPasses

/-- The order that SEND's fields give (R138). -/
def State.sendOrderOf (s : State) (p : Priority) : SendOrder :=
  { document := s.body 0 1, desk := s.body 1 1, priority := p, maxAttempts := clampTo 1 15 (s.body 3 1),
    retryInterval := clampTo 1 60 (s.body 4 1), embargo := min 1440 (s.body 6 2),
    orderSeq := s.slotSeq s.intake.expected }

/-- The checks of SEND that come before its destination records are read, in their order: the result of the first that
fails, or the order (R138). -/
def State.sendChecks (s : State) : Result ⊕ SendOrder :=
  let base := s.body 8 4
  let n := s.body 12 2
  match priorityOf (s.body 2 1) with
  | none => .inl .badOrder
  | some p =>
    if 15 < s.body 1 1 ∨ n = 0 ∨ 256 < n ∨ memBytes s.memSize < base + 32 * n then .inl .badOrder
    else match s.doc (s.body 0 1) with
      | none => .inl .noSuch
      | some r =>
        if r.state = .opened ∨ r.deletePending then .inl .state
        else if s.sendq.room < n then .inl .full
        else .inr (s.sendOrderOf p)

/-- The destination records of SEND cannot yet be read: a pending write overlaps them (R61). -/
def State.sendHeld (s : State) : Bool := s.path.blocked (s.body 8 4) (32 * s.body 12 2)

/-- SEND (R138). While a pending write overlaps its destination records, their read is held and the order waits
(R61). -/
def State.orderSend (s : State) : State :=
  match s.sendChecks with
  | .inl r => s.answer .send r []
  | .inr o =>
    if s.sendHeld then s
    else match s.destinations (s.body 8 4) (s.body 12 2) with
      | none => s.answer .send .badOrder []
      | some numbers => s.acceptSend o numbers

/-- The counts that CANCEL reports: entries cancelled at once, and entries set to cancel pending (R152). -/
def State.cancelCounts (s : State) (ids : List Nat) : List Nat :=
  let reached := ids.filterMap s.entry
  [(reached.filter (fun e => e.cancellable && decide (e.state ≠ .active))).length,
   (reached.filter (fun e => e.cancellable && decide (e.state = .active))).length]

/-- CANCEL by entry id (R151). -/
def State.cancelById (s : State) (i : Nat) : State :=
  match s.entry i with
  | none => s.answer .cancel .noSuch []
  | some e =>
    if e.state.final then s.answer .cancel .state []
    else if e.cancelPending then s.answer .cancel .already []
    else (s.cancelEntry i).answer .cancel .accepted (s.cancelCounts [i])

/-- CANCEL by order sequence (R152). -/
def State.cancelByOrder (s : State) (q : Word) : State :=
  match s.entryIds (fun e => decide (e.orderSeq = q)) with
  | [] => s.answer .cancel .noSuch []
  | ids => (eachNum ids (fun i t => t.cancelEntry i) s).answer .cancel .accepted (s.cancelCounts ids)

/-- CANCEL (R151, R152). -/
def State.orderCancel (s : State) : State :=
  if s.body 0 1 = 1 then s.cancelById (s.body 2 2)
  else if s.body 0 1 = 2 then s.cancelByOrder (BitVec.ofNat 32 (s.body 4 4))
  else s.answer .cancel .badOrder []

/-! ## Print Engine (R169, R177) -/

/-- PRINT (R169). -/
def State.orderPrint (s : State) : State :=
  let d := s.body 0 1
  let no (r : Result) : State := s.answer .print r []
  match printPriorityOf (s.body 2 1), s.doc d with
  | none, _ => no .badOrder
  | some _, none => no .noSuch
  | some p, some r =>
    if r.deletePending then no .state
    else match s.makePrintEntry d (clampTo 1 9 (s.body 1 1)) p with
      | none => no .full
      | some (i, t) => t.answer .print .accepted [i]

/-- CANCEL PRINT (R177). -/
def State.orderCancelPrint (s : State) : State :=
  let i := s.body 0 1
  match s.printEntry i with
  | none => s.answer .cancelPrint .noSuch []
  | some e =>
    if e.stopRequested then s.answer .cancelPrint .already []
    else (s.cancelPrintEntry i).answer .cancelPrint .accepted []

/-! ## Caller Screen (R163, R165, R166) -/

/-- The key of SCREEN ADD: 1 to 20 characters of its kind's set, or none (R165). -/
def screenKey (k : KeyKind) (bs : List Byte) : Option Text :=
  match readText 21 bs with
  | none => none
  | some t =>
    let ok : Bool := match k with
      | .number => t.all isNumberKey
      | .station => t.all isStationKey
    if t ≠ [] ∧ ok then some t else none

/-- An entry as SCREEN ADD replaces it (R165). -/
def ScreenEntry.replace (e : ScreenEntry) (k : ScreenKind) (desk copies : Nat) (flash : Bool) (budget : Nat) : ScreenEntry :=
  { e with kind := k, desk := desk, copies := copies, flash := flash, budget := budget,
           budgetLeft := if budget = e.budget then e.budgetLeft else budget }

/-- SCREEN ADD with its fields checked (R165). -/
def State.screenAdd (s : State) (kk : KeyKind) (key : Text) (k : ScreenKind) (desk copies : Nat) (flash : Bool)
    (budget : Nat) : State :=
  match findKey kk key s.screen.entries with
  | some (i, _) =>
    (s.modScreen (fun c => c.modEntry i (fun e => e.replace k desk copies flash budget))).answer
      .screenAdd .accepted [i, 1]
  | none =>
    match lowestFree Config.screenEntries s.screen.entries with
    | none => s.answer .screenAdd .full []
    | some i =>
      let e : ScreenEntry :=
        { keyKind := kk, key := key, kind := k, desk := desk, copies := copies, flash := flash, budget := budget,
          budgetLeft := budget, touched := false, calls := 0, lastCall := none }
      (s.modScreen (fun c => { c with entries := tset c.entries i e })).answer .screenAdd .accepted [i, 0]

/-- SCREEN ADD (R165). -/
def State.orderScreenAdd (s : State) : State :=
  let no : State := s.answer .screenAdd .badOrder []
  match keyKindOf (s.body 0 1), screenKindOf (s.body 1 1) with
  | some kk, some k =>
    match screenKey kk (s.bodyBytes 6 21) with
    | none => no
    | some key =>
      if k = .learned ∨ 15 < s.body 2 1 then no
      else s.screenAdd kk key k (s.body 2 1) (min 3 (s.body 3 1)) (decide (s.body 4 1 ≠ 0)) (s.body 5 1)
  | _, _ => no

/-- SCREEN REMOVE (R166). -/
def State.orderScreenRemove (s : State) : State :=
  match keyKindOf (s.body 0 1) with
  | none => s.answer .screenRemove .badOrder []
  | some kk =>
    let found := match readText 21 (s.bodyBytes 1 21) with
      | some key => findKey kk key s.screen.entries
      | none => none
    match found with
    | none => s.answer .screenRemove .noSuch []
    | some (i, _) =>
      (s.modScreen (fun c => { c with entries := tdel c.entries i })).answer .screenRemove .accepted [i]

/-- The entries that are not LEARNED. -/
def Screen.unlearned (c : Screen) : Table ScreenEntry := c.entries.filter (fun x => decide (x.2.kind ≠ .learned))

/-- SCREEN CLEAR (R166). -/
def State.orderScreenClear (s : State) : State :=
  let n := s.screen.entries.length
  let clear (kept : Table ScreenEntry) : State :=
    (s.modScreen (fun c => { c with entries := kept, fullReported := false })).answer
      .screenClear .accepted [n - kept.length]
  if s.body 0 1 = 1 then clear s.screen.unlearned
  else if s.body 0 1 = 2 then clear []
  else s.answer .screenClear .badOrder []

/-- SWEEP (R163). -/
def State.orderSweep (s : State) : State :=
  if s.screen.sweep = none then (s.modScreen (fun c => c.startSweep .order)).answer .sweep .accepted []
  else s.answer .sweep .already []

/-- The learn flags of SCREEN MODE: bit u for unit u, or 0xFF for those in force (R166). Bits 4 to 7 of any other
byte are ignored: DESIGN CHOICE (log entry 67). -/
def learnFlags (now : Quad Bool) (b : Byte) : Quad Bool :=
  if b = 0xFF then now else ⟨b.getLsbD 0, b.getLsbD 1, b.getLsbD 2, b.getLsbD 3⟩

/-- SCREEN MODE (R166). -/
def State.orderScreenMode (s : State) : State :=
  match screenModeOf (s.body 0 1) with
  | none => s.answer .screenMode .badOrder []
  | some m =>
    let flags := learnFlags s.screen.learn (byteOf (s.body 1 1))
    if m = s.screen.mode ∧ flags = s.screen.learn then s.answer .screenMode .already []
    else
      let kept := if m = .listedOnly then s.screen.unlearned else s.screen.entries
      (s.modScreen (fun c => { c with mode := m, learn := flags, entries := kept })).answer
        .screenMode .accepted [s.screen.entries.length - kept.length]

/-! ## Meter (R180, R182, R189 to R191) -/

/-- SET CLOCK (R180). -/
def State.orderSetClock (s : State) : State :=
  let day := s.body 0 1
  let half := s.body 4 4
  if 6 < day ∨ Config.dayHalves ≤ half then s.answer .setClock .badOrder []
  else
    let old := s.now.word
    ({ s with meter := { s.meter with
      clock := { s.meter.clock with day := day, half := half, unset := false } } }).answer .setClock .accepted [old]

/-- The length of a LOAD TARIFF area (section 12.3): 64 zone records and the band map. -/
def tariffBytes : Nat := 1588

/-- The area of LOAD TARIFF lies wholly below the memory size (R182). -/
def State.tariffFits (s : State) : Bool := decide (s.body 0 4 + tariffBytes ≤ memBytes s.memSize)

/-- The area of LOAD TARIFF cannot yet be read: a pending write overlaps it (R61). -/
def State.tariffHeld (s : State) : Bool := s.path.blocked (s.body 0 4) tariffBytes

/-- LOAD TARIFF (R182, R146). While a pending write overlaps its area, the read is held and the order waits (R61). -/
def State.orderLoadTariff (s : State) : State :=
  if !s.tariffFits then s.answer .loadTariff .badOrder [0, Config.max32]
  else if s.tariffHeld then s
  else match readTariff (s.readThrough (s.body 0 4) tariffBytes) with
    | .inl i => s.answer .loadTariff .badOrder [0, i]
    | .inr (t, n) =>
      (({ s with meter := { s.meter with tariff := t } }).answer .loadTariff .accepted [n, Config.max32]).retestEntries

/-- SET DESK (R189). -/
def State.orderSetDesk (s : State) : State :=
  let d := s.body 0 1
  if 15 < d then s.answer .setDesk .badOrder []
  else
    let s1 := s.modDesk d (fun k =>
      { k with ceiling := s.body 4 4, spent := s.body 8 4, closed := decide (s.body 1 1 = 0) })
    (s1.deskRecompute d .setDesk).answer .setDesk .accepted []

/-- The desks that a desk field names: one, all, or none where it is above 15 and not ALL (R190). -/
def namedDesks (v : Nat) : Option (List Nat) :=
  if v = 0xFF then some (List.range Config.desks) else if 15 < v then none else some [v]

/-- The desks of a list that are not AUDIT (R190). -/
def State.unaudited (s : State) (ds : List Nat) : List Nat :=
  ds.filter (fun d => match s.desk d with
    | some k => !k.audit
    | none => false)

/-- CLOSE PERIOD (R190). -/
def State.orderClosePeriod (s : State) : State :=
  match namedDesks (s.body 0 1) with
  | none => s.answer .closePeriod .badOrder []
  | some ds =>
    let close (d : Nat) (t : State) : State :=
      ((t.modDesk d (fun k => { k with spent := 0 })).deskRecompute d .closePeriod).queueBurn d .closePeriod
    ((eachNum ds close s).startBurn).answer .closePeriod .accepted [(s.unaudited ds).length]

/-- FLUSH METER (R190). -/
def State.orderFlushMeter (s : State) : State :=
  match namedDesks (s.body 0 1) with
  | none => s.answer .flushMeter .badOrder []
  | some ds =>
    ((eachNum ds (fun d t => t.queueBurn d .flush) s).startBurn).answer .flushMeter .accepted
      [(s.unaudited ds).length]

/-- AUDIT CLEAR (R191). -/
def State.orderAuditClear (s : State) : State :=
  let d := s.body 0 1
  let calls := s.body 4 4
  let life := s.body 8 8
  match s.desk d with
  | none => s.answer .auditClear .badOrder []
  | some k =>
    if 15 < d ∨ Config.max40 < life ∨ Config.max24 < calls then s.answer .auditClear .badOrder []
    else if k.state ≠ .audit then s.answer .auditClear .state []
    else
      let s1 := s.modDesk d (fun x => { x with working := life, burned := life, calls := calls, audit := false })
      let s2 := (s1.deskRecompute d .auditClear).queueBurn d .auditClear
      s2.startBurn.answer .auditClear .accepted []

/-! ## Line Units (R98) -/

/-- LINE MODE (R98). -/
def State.orderLineMode (s : State) : State :=
  match unitOf (s.body 0 1), unitModeOf (s.body 1 1) with
  | none, _ => s.answer .lineMode .noSuch []
  | some _, none => s.answer .lineMode .badOrder []
  | some u, some m =>
    let r := s.lineMode u m
    let s1 := r.2.answer .lineMode r.1 []
    if r.1 = .accepted then s1.arbiterPasses else s1

end Sys2Proof.Machine
end

