-- ==== Sys2Proof/Machine/IntakeOrders.lean ====
section
/-! DEFINITION. The orders that the Order Intake owns: DUMP, RESTART, and the answer to an unknown kind
(R68, R73 to R78). -/

namespace Sys2Proof.Machine

open Sys2Proof

/-! ## DUMP (R73 to R75) -/

/-- The options given are allowed for the kind: CLEAR with LINE STATISTICS, PURGE with SEND QUEUE (R73). -/
def dumpOptionsOk (k : DumpKind) (o : Byte) : Bool :=
  decide (o.toNat < 4) && (!o.getLsbD 0 || decide (k = .lineStatistics)) && (!o.getLsbD 1 || decide (k = .sendQueue))

/-- The extents that a DUMP area must not touch: the Setup Page, the implicit areas, and every region
that is not PASS (R73). -/
def State.keptOut (s : State) : List (Nat × Nat) :=
  [(0, 4096), (s.settings.controlBase, 4096), (s.settings.eventBase, Config.ringRecords * 32),
   (s.meter.logBase, s.meter.logSize * 64), (s.store.base, s.store.blockCount * Config.blockBytes)]
  ++ (s.path.regions.filter (fun x => decide (x.2.treatment ≠ .pass))).map (fun x => (x.2.base, x.2.size))

/-- The area of a DUMP may be written by the host itself (R73). -/
def State.dumpAreaOk (s : State) (base len : Nat) : Bool :=
  decide (base + len ≤ memBytes s.memSize) && s.keptOut.all (fun x => !extentsMeet (base, len) x)

/-- An accepted DUMP: the set is fixed and the header issued; with no record that fits, that is its last write
(R74). The output belongs to DUMP, a requester of its own in R62, and not to the Order Intake: DESIGN CHOICE (log entry
69). -/
def State.startDump (s : State) (k : DumpKind) (o : Byte) (base len : Nat) : State :=
  let set := s.dumpSet k
  let fits := min set.length ((len - 24) / dumpLength k)
  let s1 := s.issue .dump base (s.dumpHeader k set.length fits)
  let d : DumpState :=
    { kind := k, clear := o.getLsbD 0, purge := o.getLsbD 1, addr := base + 24, total := set.length,
      left := set.take fits, written := 0, purged := 0 }
  (({ s1 with intake := { s1.intake with dump := some d } }).holdAtOwner).settleDump

/-- DUMP (R73). -/
def State.orderDump (s : State) : State :=
  let o := byteOf (s.body 1 1)
  let base := s.body 4 4
  let len := s.body 8 4
  match dumpKindOf (s.body 0 1) with
  | none => s.answer .dump .badOrder []
  | some k =>
    if dumpOptionsOk k o ∧ s.dumpAreaOk base len ∧ 24 ≤ len then s.startDump k o base len
    else s.answer .dump .badOrder []

/-- CLEAR: the unit's counters are set to 0 once its record is written (R75). -/
def State.dumpClear (s : State) (d : DumpState) (i : Nat) : State :=
  if d.clear then
    match unitOf i with
    | some u => s.modUnit u (fun l => { l with stats := Stats.zero })
    | none => s
  else s

/-- PURGE: a final entry becomes free once its record is written (R75, R140). -/
def State.dumpPurge (s : State) (d : DumpState) (i : Nat) : Nat × State :=
  match s.entry i with
  | some e =>
    if d.purge && e.state.final then
      (1, { s with sendq := { s.sendq with entries := tdel s.sendq.entries i, finals := dropNum i s.sendq.finals } })
    else (0, s)
  | none => (0, s)

/-- One DUMP record is issued; after the last one the DUMP ends once all of it has been issued (R74, R75). -/
def State.dumpOne (s : State) (d : DumpState) (i : Nat) (rest : List Nat) : State :=
  let s1 := s.issue .dump d.addr (s.dumpRecord d.kind i)
  let p := (s1.dumpClear d i).dumpPurge d i
  let d1 := { d with addr := d.addr + dumpLength d.kind, left := rest, written := d.written + 1,
                     purged := d.purged + p.1 }
  ({ p.2 with intake := { p.2.intake with dump := some d1 } }).settleDump

/-- A DUMP record is written when the queue has room (R61, R74). -/
def State.dumpRecordWrite (s : State) : State :=
  match s.intake.dump with
  | none => s
  | some d =>
    if s.path.waiting ≠ [] ∨ Config.queueWrites ≤ s.path.queue.length then s
    else match d.left with
      | [] => s
      | i :: rest => s.dumpOne d i rest

/-! ## RESTART (R76 to R78) -/

/-- The part state word is written (R65): 1 RUNNING, 2 RESTARTING. -/
def State.writePartState (s : State) (v : Nat) : State := s.issue .orderIntake (s.controlWord 0x810) (leBytes 4 v)

/-- The scan session's part of RESTART (R95). -/
def State.restartScan (s : State) : State :=
  if s.scanner.active then s.endScan .idle .restart true else s

/-- The Send Queue's part of RESTART (R153). -/
def State.restartSends (s : State) : State :=
  eachNum (s.entryIds (fun e => !e.state.final)) (fun i t => t.cancelEntry i) s

/-- RESTART at its take (R76): RESTARTING, and every block stops its running work. The Print Queue is emptied first, so
that no document's close ends or begins an entry of it (R179); the order of the other stops, window 0 before window 1
among them, is a DESIGN CHOICE (log entry 46). -/
def State.orderRestart (s : State) : State :=
  let s1 := (s.writePartState 2).holdAtOwner
  let s2 := { s1 with intake := { s1.intake with restart := some (Quad.all false) } }
  let s3 := ((s2.restartPrint.restartScan).restartWindow .w0).restartWindow .w1
  eachUnit (fun u t => t.restartUnit u) s3.restartSends

/-- Every unit has counted (R77). -/
def Quad.every (q : Quad Bool) : Bool := q.u0 && q.u1 && q.u2 && q.u3

/-- RESTART completes (R77), once no outcome report waits to be dealt with: RUNNING is written, the take finishes, and
the arbiter makes its passes, after the request for ORDER_DONE: DEDUCED (log entry 40). -/
def State.restartDone (s : State) : State :=
  match s.intake.restart with
  | none => s
  | some q =>
    if q.every ∧ s.sendq.reports = [] ∧ s.stalled .orderIntake = false then
      let s1 := ({ s with intake := { s.intake with restart := none } }).writePartState 1
      (s1.answer .restart .accepted []).arbiterPasses
    else s

/-! ## An unknown kind (R68, R200) -/

/-- The kind byte of the slot names no order (R200). -/
def unknownKind (b : Byte) : Bool := decide (b.toNat = 0 ∨ 25 < b.toNat)

end Sys2Proof.Machine
end

