-- ==== Sys2Proof/Machine/DeviceCommands.lean ====
section
/-! DEFINITION. The commands of the Send Queue's countdowns, the printer, the Caller Screen's timers, and the Meter. -/

namespace Sys2Proof.Machine

open Sys2Proof

/-- ENTRY_COUNTDOWN_EXPIRY (R141). -/
def execEntryCountdownExpiry (s : State) : Host.Outcome State Fault Refusal :=
  .next (s.countdownExpired)

/-- LINE_DONE (R172, R175 to R177). -/
def execLineDone (temperature : Nat) (s : State) : Host.Outcome State Fault Refusal :=
  .next ((s.lineDone temperature).scanRetry)

/-- SHEET_DONE (R171, R172, R177, R179). -/
def execSheetDone (s : State) : Host.Outcome State Fault Refusal :=
  .next (s.sheetDone.scanRetry)

/-- TEMP (R175). -/
def execTemp (temperature : Nat) (s : State) : Host.Outcome State Fault Refusal :=
  .next ((s.takeTemp temperature).scanRetry)

/-- PAPER_PRESENT_CHANGE (R173, R174, R178). -/
def execPaperPresentChange (high : Bool) (s : State) : Host.Outcome State Fault Refusal :=
  .next ((s.paperChange high).scanRetry)

/-- COVER_CLOSED_CHANGE (R173, R174). -/
def execCoverClosedChange (high : Bool) (s : State) : Host.Outcome State Fault Refusal :=
  .next ((s.coverChange high).scanRetry)

/-- SOUNDER_PATTERN_TIMER (R178). -/
def execSounderPatternTimer (p : Pattern) (s : State) : Host.Outcome State Fault Refusal :=
  .next (s.patternTimer p)

/-- PACING_PULSE (R162). -/
def execPacingPulse (s : State) : Host.Outcome State Fault Refusal :=
  .next (s.pacingPulse)

/-- AGE_TIMER_EXPIRY (R163). -/
def execAgeTimerExpiry (s : State) : Host.Outcome State Fault Refusal :=
  .next (s.ageExpiry)

/-- SWEEP_VISIT (R163, R164). -/
def execSweepVisit (s : State) : Host.Outcome State Fault Refusal :=
  .next (s.sweepVisit)

/-- CLOCK_STEP (R180). -/
def execClockStep (s : State) : Host.Outcome State Fault Refusal :=
  .next (s.clockStep)

/-- METER_UNIT_START (R186, R188, R194). -/
def execMeterUnitStart (u : UnitId) (s : State) : Host.Outcome State Fault Refusal :=
  .next (s.settleMeter u)

/-- BURN_VERIFY (R195). -/
def execBurnVerify (s : State) (burn : Nat := 0) : Host.Outcome State Fault Refusal :=
  .next (s.burnVerified burn)

/-- BURN_LIMIT_EXPIRY (R195). -/
def execBurnLimitExpiry (s : State) (burn : Nat := 0) : Host.Outcome State Fault Refusal :=
  .next (s.burnFailed burn)

/-- SUPPLY_LEVEL_CHANGE (R197): the sensed level; the 1 ms counts are timed outside the model. -/
def execSupplyLevelChange (low : Bool) (s : State) : Host.Outcome State Fault Refusal :=
  .next (s.senseSupply low)

/-- POWER_WARNING_BEGIN (R194, R197). -/
def execPowerWarningBegin (s : State) : Host.Outcome State Fault Refusal :=
  .next (s.warningBegins)

/-- POWER_WARNING_END (R142, R197). -/
def execPowerWarningEnd (s : State) : Host.Outcome State Fault Refusal :=
  .next (s.warningEnds)

end Sys2Proof.Machine
end

