-- ==== Sys2Proof/Machine/Held.lean ====
section
/-! DEFINITION. The performing of a pending write, and what it lets go on in each block (R61, R66). -/

namespace Sys2Proof.Machine

open Sys2Proof

/-- What the Order Intake and DUMP can go on with: a DUMP and a take whose last write has now been issued, and the take
of a slot that has been posted (R61, R67, R74). -/
def State.resumeIntake (s : State) : State := s.settleDump.settleTake.beginTake

/-- What the Meter can go on with: the work that it was given while it waited; once it need no longer wait, the arbiter
makes the passes that were left (R61, R142). -/
def State.resumeMeter (s : State) (waited : Bool) : State :=
  let t := runWork s.meter.work.length s
  if waited && !t.meterWaits then t.arbiterPasses else t

/-- What the Event Reporter can go on with: the consumer writes that it was given while it waited (R61, R81). -/
def State.resumeReporter (s : State) : State := takeGiven s.reporter.given.length s

/-- What the line units can go on with: a verdict whose PAGE END and report have both been taken (R61, R131). -/
def State.resumeUnits (s : State) : State := eachUnit (fun u t => t.settleVerdict u) s

/-- What a performed write lets go on (R61), block by block; the scanner then asks again for a page that it could not
begin (R88), and last come the print decoder's held read and the host's held access. `waited` says that the Meter waited
before. The other blocks' held work goes on with its own commands. -/
def State.resumeHeld (s : State) (waited : Bool) : State :=
  (((s.resumeIntake).resumeMeter waited).resumeReporter).resumeUnits.scanRetry.resumePrintRead.resumeHost

/-- The oldest pending write of a block is performed, unless an older write of another block overlaps it
(R61); held work that need no longer wait then goes on. -/
def State.pendingPerformed (s : State) (blk : Block) : State :=
  match firstOf blk [] s.path.queue with
  | none => s
  | some (before, w, after) =>
    if before.any (fun x => overlaps w.addr w.bytes.length x.addr x.bytes.length) then s
    else
      let s1 := s.perform w
      ({ s1 with path := ({ s1.path with queue := before ++ after }).admitWaiting }).resumeHeld s.meterWaits

end Sys2Proof.Machine
end

