-- ==== Sys2Proof/Machine/Arbiter.lean ====
section
/-! DEFINITION. The memory-port arbiter: which requesters may present an access, and which one is granted
(R61, R62). -/

namespace Sys2Proof.Machine

open Sys2Proof

/-- A requester's place in the round-robin cycle (R62). -/
def cyclePlace : Requester → Option Nat
  | .host => none
  | .pageCoder => some 0
  | .printEngine => some 1
  | .eventReporter => some 2
  | .meter => some 3
  | .orderIntake => some 4
  | .dump => some 5
  | .sendQueue => some 6
  | .memoryPath => some 7
  | .unit u => some (8 + unitNum u)

/-- A unit's stream request is urgent (R62). -/
def LineUnit.urgent (l : LineUnit) : Bool :=
  match l.role with
  | some .caller => decide (l.txFifo.length < 256)
  | some .answerer => decide (768 < fifoBytesHeld l.rxFifo)
  | none => false

/-- A block's oldest pending write has to wait behind an older overlapping one (R61). -/
def State.writeWaits (s : State) (blk : Block) : Bool :=
  match firstOf blk [] s.path.queue with
  | none => false
  | some (before, w, _) => before.any (fun x => overlaps w.addr w.bytes.length x.addr x.bytes.length)

/-- A block has a pending write that may be performed (R61). -/
def State.writeReady (s : State) (blk : Block) : Bool :=
  (firstOf blk [] s.path.queue).isSome && !s.writeWaits blk

/-- The read that a block is making is held behind a pending write (R61): the print decoder's, the slot read, the
read of the Setup Block, that of SEND's destination records, that of LOAD TARIFF's area, and a transmit recoder's. -/
def State.readHeld (s : State) : Requester → Bool
  | .printEngine => decide (s.print.sheet = .sheetStarted ∧ s.print.state = .printing)
      && s.print.decoder.any (fun d => s.headHeld d)
  | .orderIntake => decide (s.intake.take = .reading) && s.path.blocked (s.slotAddr s.intake.expected) 64
  | .memoryPath => decide (s.part = .setup) && s.path.blocked 0x40 0x110
  | .sendQueue => s.takes .send && (match s.sendChecks with
    | .inl _ => false
    | .inr _ => s.sendHeld)
  | .meter => s.takes .loadTariff && s.tariffFits && s.tariffHeld
  | .unit u => decide ((s.unit u).role = some .caller) && s.txHeld (s.unit u).tx
  | _ => false

/-- The block whose writes a requester presents. -/
def requesterBlock : Requester → Block
  | .host | .memoryPath => .memoryPath
  | .pageCoder => .pageCoder
  | .printEngine => .printEngine
  | .eventReporter => .eventReporter
  | .meter => .meter
  | .orderIntake => .orderIntake
  | .dump => .dump
  | .sendQueue => .sendQueue
  | .unit u => .unit u

/-- A requester may present an access: the host where none of its accesses is held, a unit at work; and none
presents a read or a write that is held (R61, R62). -/
def State.mayPresent (s : State) (r : Requester) : Bool :=
  match r with
  | .host => decide (s.path.bus = .free)
  | .unit u => decide ((s.unit u).role ≠ none) && !s.readHeld r && !s.writeWaits (requesterBlock r)
  | _ => if s.readHeld r then s.writeReady (requesterBlock r) else !s.writeWaits (requesterBlock r)

/-- The first unit, from the urgent marker on, with an urgent request among those presented (R62). -/
def State.urgentGrant (s : State) (rs : List Requester) : Option UnitId :=
  let m := s.path.urgent
  [m, unitAfter m, unitAfter (unitAfter m), unitAfter (unitAfter (unitAfter m))].find?
    (fun u => decide (.unit u ∈ rs) && (s.unit u).urgent)

/-- The presented requester whose place comes first in the cycle, from a place on (R62). -/
def cycleGrant (rs : List Requester) : Nat → Nat → Option (Requester × Nat)
  | 0, _ => none
  | fuel + 1, k =>
    match rs.find? (fun r => decide (cyclePlace r = some (k % 12))) with
    | some r => some (r, k % 12)
    | none => cycleGrant rs fuel (k + 1)

/-- The arbiter grants the port to one of the requesters that present an access (R62). `cycle` is the
place that is tried first in the next cycle. -/
def State.grantPort (s : State) (presented : List Requester) : State :=
  let rs := presented.filter s.mayPresent
  match s.urgentGrant rs with
  | some u => { s with path := { s.path with urgent := unitAfter u, granted := some (.unit u) } }
  | none =>
    if .host ∈ rs then { s with path := { s.path with granted := some .host } }
    else match cycleGrant rs 12 s.path.cycle with
      | some (r, k) => { s with path := { s.path with cycle := (k + 1) % 12, granted := some r } }
      | none => s

end Sys2Proof.Machine
end

