-- ==== Sys2Proof/Machine/HostCommands.lean ====
section
/-! DEFINITION. The resets, the host's accesses, and the events of the Memory Path, one meaning for each command. -/

namespace Sys2Proof.Machine

open Sys2Proof

/-- POWER_ON_RESET (R19, R63, R72, R83, R95, R114, R136, R137, R167, R168, R180). -/
def execPowerOnReset (straps : MemSize) (s : State) : Host.Outcome State Fault Refusal :=
  .next (s.powerOnReset straps)

/-- BUS_RESET (R63): as power-on, but the clock keeps running (R180). -/
def execBusReset (straps : MemSize) (s : State) : Host.Outcome State Fault Refusal :=
  .next (s.busReset straps)

/-- HOST_READ (R45, R61). -/
def execHostRead (addr len : Nat) (s : State) : Host.Outcome State Fault Refusal :=
  .next (s.hostRead addr len)

/-- HOST_WRITE (R45, R51, R52). -/
def execHostWrite (addr : Nat) (lanes : List Lane) (s : State) : Host.Outcome State Fault Refusal :=
  .next (s.hostWrite addr lanes)

/-- SETUP_POST (R46, R49): a host write of the Setup post word. -/
def execSetupPost (v : Word) (s : State) : Host.Outcome State Fault Refusal :=
  .next (s.hostWrite 0 ((leBytes 4 v.toNat).map some))

/-- SETUP_BLOCK_READ_DONE (R46 to R49). -/
def execSetupBlockReadDone (s : State) : Host.Outcome State Fault Refusal :=
  .next (s.setupReadDone)

/-- ORDER_SLOT_POST (R52, R66, R67): a host write of a slot's post word; before RUNNING there are no slots. -/
def execOrderSlotPost (slot : Fin 32) (seq : Word) (s : State) : Host.Outcome State Fault Refusal :=
  .next (if s.part = .running then s.hostWrite (s.slotAddr slot.val + 4) ((leBytes 4 seq.toNat).map some) else s)

/-- EVENT_CONSUMER_WRITE (R52, R81): a host write of the Event Ring consumer index. -/
def execEventConsumerWrite (v : Word) (s : State) : Host.Outcome State Fault Refusal :=
  .next (if s.part = .running then s.hostWrite (s.controlWord 0x840) ((leBytes 4 v.toNat).map some) else s)

/-- CHARGE_LOG_CONSUMER_WRITE (R52, R192): a host write of the Charge Log consumer index. -/
def execChargeLogConsumerWrite (v : Word) (s : State) : Host.Outcome State Fault Refusal :=
  .next (if s.part = .running then s.hostWrite (s.controlWord 0x844) ((leBytes 4 v.toNat).map some) else s)

/-- WINDOW_WRITE_FIXED (R55): a host write that falls in a raster window's region. -/
def execWindowWriteFixed (addr : Nat) (lanes : List Lane) (s : State) : Host.Outcome State Fault Refusal :=
  .next (s.hostWrite addr lanes)

/-- WINDOW_WRITE_INDEXED (R56): a host write that falls in a raster window's region. -/
def execWindowWriteIndexed (addr : Nat) (lanes : List Lane) (s : State) : Host.Outcome State Fault Refusal :=
  .next (s.hostWrite addr lanes)

/-- HOLD_TIMEOUT (R59): it finds a write held by the window, or has no effect. -/
def execHoldTimeout (w : WindowId) (s : State) : Host.Outcome State Fault Refusal :=
  .next (if s.holdsWrite w then (s.abandonWindow w .holdTimeout).scanRetry else s)

/-- PENDING_WRITE_PERFORMED (R61, R66). -/
def execPendingWritePerformed (blk : Block) (s : State) : Host.Outcome State Fault Refusal :=
  .next (s.pendingPerformed blk)

/-- PORT_GRANT (R62). -/
def execPortGrant (presented : List Requester) (s : State) : Host.Outcome State Fault Refusal :=
  .next (s.grantPort presented)

end Sys2Proof.Machine
end

