-- ==== Sys2Proof/Machine/ImageCommands.lean ====
section
/-! DEFINITION. The commands of the Event Reporter, the Page Coder, the Scanner Port and the recoders. -/

namespace Sys2Proof.Machine

open Sys2Proof

/-- EVENT_POSTING (R79, R80). -/
def execEventPosting (s : State) : Host.Outcome State Fault Refusal :=
  .next (s.takePosting)

/-- HOLD_OFF_EXPIRY (R82). -/
def execHoldOffExpiry (s : State) : Host.Outcome State Fault Refusal :=
  .next (s.holdOffExpired)

/-- CODER_LINE_SERVICE (R31 to R33). -/
def execCoderLineService (s : State) : Host.Outcome State Fault Refusal :=
  .next (s.lineService)

/-- CODER_SEAL_SERVICE (R30, R31). -/
def execCoderSealService (s : State) : Host.Outcome State Fault Refusal :=
  .next (s.sealService)

/-- LINE (R84, R85, R88). -/
def execLine (dots : List Bool) (s : State) : Host.Outcome State Fault Refusal :=
  .next ((s.takeScanLine dots).scanRetry)

/-- SHEET_END (R89, R91). -/
def execSheetEnd (s : State) : Host.Outcome State Fault Refusal :=
  .next (s.takeSheetEnd)

/-- MODE_ACKNOWLEDGEMENT (R87). -/
def execModeAcknowledgement (s : State) : Host.Outcome State Fault Refusal :=
  .next (s.takeModeAck)

/-- SHEET_PRESENT_CHANGE (R91, R94). -/
def execSheetPresentChange (high : Bool) (s : State) : Host.Outcome State Fault Refusal :=
  .next (s.sheetPresentChange high)

/-- JAM_CHANGE (R94). -/
def execJamChange (high : Bool) (s : State) : Host.Outcome State Fault Refusal :=
  .next (s.jamChange high)

/-- STALL_TIMER_EXPIRY (R92): the timer runs, or nothing happens. -/
def execStallTimerExpiry (s : State) : Host.Outcome State Fault Refusal :=
  .next (if s.stallRunning then s.endScan .idle .memoryFull true else s)

/-- TRANSMIT_LINE_RECODE (R35 to R39). -/
def execTransmitLineRecode (u : UnitId) (s : State) : Host.Outcome State Fault Refusal :=
  .next (s.transmitRecode u)

/-- LINK_SEND_DATA (R39, R122). -/
def execLinkSendData (u : UnitId) (n : Nat) (s : State) : Host.Outcome State Fault Refusal :=
  .next (s.linkSend u n)

/-- RECEIVE_DECODE (R42 to R44, R131, R132). -/
def execReceiveDecode (u : UnitId) (s : State) : Host.Outcome State Fault Refusal :=
  .next ((s.receiveDecode u).scanRetry)

end Sys2Proof.Machine
end

