-- ==== Sys2Proof/Machine/LineCommands.lean ====
section
/-! DEFINITION. The line link messages, the call timers, and the waits of the page exchange. -/

namespace Sys2Proof.Machine

open Sys2Proof

/-- RING (R105, R106, R108). -/
def execRing (u : UnitId) (s : State) : Host.Outcome State Fault Refusal :=
  .next ((s.ring u).scanRetry)

/-- CALLER (R107, R157). -/
def execCaller (u : UnitId) (number : Text) (s : State) : Host.Outcome State Fault Refusal :=
  .next (s.callerNumber u number)

/-- DIAL_TONE (R100). -/
def execDialTone (u : UnitId) (s : State) : Host.Outcome State Fault Refusal :=
  .next (s.dialTone u)

/-- DIAL_DONE (R101). -/
def execDialDone (u : UnitId) (s : State) : Host.Outcome State Fault Refusal :=
  .next (s.dialDone u)

/-- BUSY_TONE (R101, R102). -/
def execBusyTone (u : UnitId) (s : State) : Host.Outcome State Fault Refusal :=
  .next (s.busyTone u)

/-- ANSWER_TONE (R102, R118). -/
def execAnswerTone (u : UnitId) (s : State) : Host.Outcome State Fault Refusal :=
  .next (s.answerTone u)

/-- SEIZE_TIMEOUT (R100). -/
def execSeizeTimeout (u : UnitId) (s : State) : Host.Outcome State Fault Refusal :=
  .next (s.seizeTimeout u)

/-- DIAL_LIMIT_EXPIRY (R101). -/
def execDialLimitExpiry (u : UnitId) (s : State) : Host.Outcome State Fault Refusal :=
  .next (s.dialLimitExpired u)

/-- ANSWER_TIMEOUT (R102). -/
def execAnswerTimeout (u : UnitId) (s : State) : Host.Outcome State Fault Refusal :=
  .next (s.answerTimeout u)

/-- CLEARING_GUARD_EXPIRY (R103, R148). -/
def execClearingGuardExpiry (u : UnitId) (s : State) : Host.Outcome State Fault Refusal :=
  .next ((s.clearingDone u).scanRetry)

/-- RING_TIMER_EXPIRY (R109). -/
def execRingTimerExpiry (u : UnitId) (s : State) : Host.Outcome State Fault Refusal :=
  .next (s.ringTimerExpired u)

/-- LINE_FAULT (R111). -/
def execLineFault (u : UnitId) (s : State) : Host.Outcome State Fault Refusal :=
  .next ((s.lineFault u).scanRetry)

/-- LINE_OK (R112). -/
def execLineOk (u : UnitId) (s : State) : Host.Outcome State Fault Refusal :=
  .next (s.lineOk u)

/-- UNKNOWN_LINK_MESSAGE (R96, R200): the unit discards it. -/
def execUnknownLinkMessage (u : UnitId) (type : Byte) (s : State) : Host.Outcome State Fault Refusal :=
  .next (s.discardMessage u type)

/-- CORRUPT_FRAME (R102, R116): the frame is ignored and the session's waits run on. -/
def execCorruptFrame (u : UnitId) (s : State) : Host.Outcome State Fault Refusal :=
  .next (s.ignoreFrame u)

/-- OFFER (R102, R116, R119). -/
def execOffer (u : UnitId) (f : OfferFields) (s : State) : Host.Outcome State Fault Refusal :=
  .next (match checkOffer f with
    | some o => s.takeOffer u o
    | none => s.ignoreFrame u)

/-- ORDER_FRAME (R116, R128 to R130). -/
def execOrderFrame (u : UnitId) (f : OrderFields) (s : State) : Host.Outcome State Fault Refusal :=
  .next (match checkOrder f with
    | some o => (s.takeOrder u o).scanRetry
    | none => s.ignoreFrame u)

/-- CHECK_RESULT (R130). -/
def execCheckResult (u : UnitId) (good : Bool) (s : State) : Host.Outcome State Fault Refusal :=
  .next (s.checkResult u good)

/-- READY_FRAME (R121, R122). -/
def execReadyFrame (u : UnitId) (s : State) : Host.Outcome State Fault Refusal :=
  .next (s.callerReady u)

/-- SLOWER (R121). -/
def execSlower (u : UnitId) (s : State) : Host.Outcome State Fault Refusal :=
  .next (s.callerSlower u)

/-- PAGE_END (R116, R131 to R133). -/
def execPageEnd (u : UnitId) (kind : Byte) (s : State) : Host.Outcome State Fault Refusal :=
  .next (match pageEndOf kind.toNat with
    | some k => (s.takePageEnd u k).scanRetry
    | none => s.ignoreFrame u)

/-- GOOD (R123, R127). -/
def execGood (u : UnitId) (s : State) : Host.Outcome State Fault Refusal :=
  .next (s.callerGood u)

/-- REDO (R124). -/
def execRedo (u : UnitId) (s : State) : Host.Outcome State Fault Refusal :=
  .next (s.callerRedo u)

/-- STOP_FRAME (R126): REFUSED in any caller phase; an answerer discards it (R133). -/
def execStopFrame (u : UnitId) (s : State) : Host.Outcome State Fault Refusal :=
  .next (s.callerFails u .refused)

/-- RELEASE_FRAME (R126, R134). -/
def execReleaseFrame (u : UnitId) (s : State) : Host.Outcome State Fault Refusal :=
  .next (((s.callerFails u .refused).answererRelease u).scanRetry)

/-- DATA (R42, R131). -/
def execData (u : UnitId) (bytes : List Byte) (s : State) : Host.Outcome State Fault Refusal :=
  .next (s.takeData u bytes)

/-- DATA_END (R42, R110). -/
def execDataEnd (u : UnitId) (s : State) : Host.Outcome State Fault Refusal :=
  .next (s.takeDataEnd u)

/-- CARRIER_LOST (R42, R126, R128, R134). -/
def execCarrierLost (u : UnitId) (s : State) : Host.Outcome State Fault Refusal :=
  .next (((s.callerFails u .lineLost).answererCarrierLost u).scanRetry)

/-- REPLY_WAIT_EXPIRY (R117). -/
def execReplyWaitExpiry (u : UnitId) (s : State) : Host.Outcome State Fault Refusal :=
  .next (s.replyWaitExpired u)

/-- OFFER_WAIT_EXPIRY (R119). -/
def execOfferWaitExpiry (u : UnitId) (s : State) : Host.Outcome State Fault Refusal :=
  .next (s.offerWaitExpired u)

/-- NOT_READY_WAIT_EXPIRY (R128). -/
def execNotReadyWaitExpiry (u : UnitId) (s : State) : Host.Outcome State Fault Refusal :=
  .next (s.notReadyExpired u)

/-- IDLE_LIMIT_EXPIRY (R134). -/
def execIdleLimitExpiry (u : UnitId) (s : State) : Host.Outcome State Fault Refusal :=
  .next ((s.idleLimitExpired u).scanRetry)

end Sys2Proof.Machine
end

