-- ==== Sys2Proof/Machine/OrderCommands.lean ====
section
/-! DEFINITION. The orders, one meaning for each: the slot read has returned an order of the kind, or nothing happens. -/

namespace Sys2Proof.Machine

open Sys2Proof

/-- SCAN (R86, R87). -/
def execScan (s : State) : Host.Outcome State Fault Refusal :=
  .next (if s.takes .scan then s.orderScan else s)

/-- OPEN WINDOW PAGE (R54). -/
def execOpenWindowPage (s : State) : Host.Outcome State Fault Refusal :=
  .next (if s.takes .openWindowPage then s.orderOpenWindow else s)

/-- CLOSE WINDOW PAGE (R58). -/
def execCloseWindowPage (s : State) : Host.Outcome State Fault Refusal :=
  .next (if s.takes .closeWindowPage then s.orderCloseWindow else s)

/-- CLOSE DOCUMENT (R16). -/
def execCloseDocument (s : State) : Host.Outcome State Fault Refusal :=
  .next (if s.takes .closeDocument then (s.orderCloseDocument).scanRetry else s)

/-- KEEP (R15). -/
def execKeep (s : State) : Host.Outcome State Fault Refusal :=
  .next (if s.takes .keep then s.orderKeep else s)

/-- RELEASE (R15). -/
def execRelease (s : State) : Host.Outcome State Fault Refusal :=
  .next (if s.takes .release then (s.orderRelease).scanRetry else s)

/-- DELETE DOCUMENT (R17, R18). -/
def execDeleteDocument (s : State) : Host.Outcome State Fault Refusal :=
  .next (if s.takes .deleteDocument then (s.orderDelete).scanRetry else s)

/-- SEND (R138, R139). -/
def execSend (s : State) : Host.Outcome State Fault Refusal :=
  .next (if s.takes .send then s.orderSend else s)

/-- CANCEL (R151, R152). -/
def execCancel (s : State) : Host.Outcome State Fault Refusal :=
  .next (if s.takes .cancel then (s.orderCancel).scanRetry else s)

/-- PRINT (R169). -/
def execPrint (s : State) : Host.Outcome State Fault Refusal :=
  .next (if s.takes .print then (s.orderPrint).scanRetry else s)

/-- CANCEL PRINT (R177). -/
def execCancelPrint (s : State) : Host.Outcome State Fault Refusal :=
  .next (if s.takes .cancelPrint then (s.orderCancelPrint).scanRetry else s)

/-- SCREEN ADD (R165). -/
def execScreenAdd (s : State) : Host.Outcome State Fault Refusal :=
  .next (if s.takes .screenAdd then s.orderScreenAdd else s)

/-- SCREEN REMOVE (R166). -/
def execScreenRemove (s : State) : Host.Outcome State Fault Refusal :=
  .next (if s.takes .screenRemove then s.orderScreenRemove else s)

/-- SCREEN CLEAR (R166). -/
def execScreenClear (s : State) : Host.Outcome State Fault Refusal :=
  .next (if s.takes .screenClear then s.orderScreenClear else s)

/-- SWEEP (R163). -/
def execSweep (s : State) : Host.Outcome State Fault Refusal :=
  .next (if s.takes .sweep then s.orderSweep else s)

/-- SCREEN MODE (R166). -/
def execScreenMode (s : State) : Host.Outcome State Fault Refusal :=
  .next (if s.takes .screenMode then s.orderScreenMode else s)

/-- SET CLOCK (R180). -/
def execSetClock (s : State) : Host.Outcome State Fault Refusal :=
  .next (if s.takes .setClock then s.orderSetClock else s)

/-- LOAD TARIFF (R182). -/
def execLoadTariff (s : State) : Host.Outcome State Fault Refusal :=
  .next (if s.takes .loadTariff then s.orderLoadTariff else s)

/-- SET DESK (R189). -/
def execSetDesk (s : State) : Host.Outcome State Fault Refusal :=
  .next (if s.takes .setDesk then s.orderSetDesk else s)

/-- CLOSE PERIOD (R190). -/
def execClosePeriod (s : State) : Host.Outcome State Fault Refusal :=
  .next (if s.takes .closePeriod then s.orderClosePeriod else s)

/-- FLUSH METER (R190). -/
def execFlushMeter (s : State) : Host.Outcome State Fault Refusal :=
  .next (if s.takes .flushMeter then s.orderFlushMeter else s)

/-- AUDIT CLEAR (R191). -/
def execAuditClear (s : State) : Host.Outcome State Fault Refusal :=
  .next (if s.takes .auditClear then s.orderAuditClear else s)

/-- LINE MODE (R98). -/
def execLineMode (s : State) : Host.Outcome State Fault Refusal :=
  .next (if s.takes .lineMode then s.orderLineMode else s)

/-- DUMP (R73, R74). -/
def execDump (s : State) : Host.Outcome State Fault Refusal :=
  .next (if s.takes .dump then s.orderDump else s)

/-- DUMP_RECORD_WRITE (R74, R75). -/
def execDumpRecordWrite (s : State) : Host.Outcome State Fault Refusal :=
  .next (s.dumpRecordWrite)

/-- RESTART (R76). -/
def execRestart (s : State) : Host.Outcome State Fault Refusal :=
  .next (if s.takes .restart then (s.orderRestart).scanRetry else s)

/-- RESTART_COMPLETE (R77). -/
def execRestartComplete (s : State) : Host.Outcome State Fault Refusal :=
  .next (s.restartDone)

/-- UNKNOWN_ORDER (R68, R200): BAD_ORDER with the kind byte as read. -/
def execUnknownOrder (s : State) : Host.Outcome State Fault Refusal :=
  .next (if s.takeReady ∧ unknownKind s.slotKind then s.finishTake s.slotKind .badOrder [] else s)

end Sys2Proof.Machine
end

