-- ==== Sys2Proof/Machine/Dispatch.lean ====
section
/-! DEFINITION. One arm for every command: the call of its meaning. -/

namespace Sys2Proof.Machine

open Sys2Proof

def exec (i : Instr) (s : State) : Host.Outcome State Fault Refusal :=
  match i with
  | .powerOnReset straps => Sys2Proof.Machine.execPowerOnReset straps s
  | .busReset straps => Sys2Proof.Machine.execBusReset straps s
  | .hostRead addr len => Sys2Proof.Machine.execHostRead addr len s
  | .hostWrite addr lanes => Sys2Proof.Machine.execHostWrite addr lanes s
  | .setupPost v => Sys2Proof.Machine.execSetupPost v s
  | .setupBlockReadDone => Sys2Proof.Machine.execSetupBlockReadDone s
  | .orderSlotPost slot seq => Sys2Proof.Machine.execOrderSlotPost slot seq s
  | .eventConsumerWrite v => Sys2Proof.Machine.execEventConsumerWrite v s
  | .chargeLogConsumerWrite v => Sys2Proof.Machine.execChargeLogConsumerWrite v s
  | .windowWriteFixed addr lanes => Sys2Proof.Machine.execWindowWriteFixed addr lanes s
  | .windowWriteIndexed addr lanes => Sys2Proof.Machine.execWindowWriteIndexed addr lanes s
  | .holdTimeout w => Sys2Proof.Machine.execHoldTimeout w s
  | .pendingWritePerformed blk => Sys2Proof.Machine.execPendingWritePerformed blk s
  | .portGrant presented => Sys2Proof.Machine.execPortGrant presented s
  | .scan => Sys2Proof.Machine.execScan s
  | .openWindowPage => Sys2Proof.Machine.execOpenWindowPage s
  | .closeWindowPage => Sys2Proof.Machine.execCloseWindowPage s
  | .closeDocument => Sys2Proof.Machine.execCloseDocument s
  | .keep => Sys2Proof.Machine.execKeep s
  | .release => Sys2Proof.Machine.execRelease s
  | .deleteDocument => Sys2Proof.Machine.execDeleteDocument s
  | .send => Sys2Proof.Machine.execSend s
  | .cancel => Sys2Proof.Machine.execCancel s
  | .print => Sys2Proof.Machine.execPrint s
  | .cancelPrint => Sys2Proof.Machine.execCancelPrint s
  | .screenAdd => Sys2Proof.Machine.execScreenAdd s
  | .screenRemove => Sys2Proof.Machine.execScreenRemove s
  | .screenClear => Sys2Proof.Machine.execScreenClear s
  | .sweep => Sys2Proof.Machine.execSweep s
  | .screenMode => Sys2Proof.Machine.execScreenMode s
  | .setClock => Sys2Proof.Machine.execSetClock s
  | .loadTariff => Sys2Proof.Machine.execLoadTariff s
  | .setDesk => Sys2Proof.Machine.execSetDesk s
  | .closePeriod => Sys2Proof.Machine.execClosePeriod s
  | .flushMeter => Sys2Proof.Machine.execFlushMeter s
  | .auditClear => Sys2Proof.Machine.execAuditClear s
  | .lineMode => Sys2Proof.Machine.execLineMode s
  | .dump => Sys2Proof.Machine.execDump s
  | .dumpRecordWrite => Sys2Proof.Machine.execDumpRecordWrite s
  | .restart => Sys2Proof.Machine.execRestart s
  | .restartComplete => Sys2Proof.Machine.execRestartComplete s
  | .unknownOrder => Sys2Proof.Machine.execUnknownOrder s
  | .eventPosting => Sys2Proof.Machine.execEventPosting s
  | .holdOffExpiry => Sys2Proof.Machine.execHoldOffExpiry s
  | .coderLineService => Sys2Proof.Machine.execCoderLineService s
  | .coderSealService => Sys2Proof.Machine.execCoderSealService s
  | .line dots => Sys2Proof.Machine.execLine dots s
  | .sheetEnd => Sys2Proof.Machine.execSheetEnd s
  | .modeAcknowledgement => Sys2Proof.Machine.execModeAcknowledgement s
  | .sheetPresentChange high => Sys2Proof.Machine.execSheetPresentChange high s
  | .jamChange high => Sys2Proof.Machine.execJamChange high s
  | .stallTimerExpiry => Sys2Proof.Machine.execStallTimerExpiry s
  | .transmitLineRecode u => Sys2Proof.Machine.execTransmitLineRecode u s
  | .linkSendData u n => Sys2Proof.Machine.execLinkSendData u n s
  | .receiveDecode u => Sys2Proof.Machine.execReceiveDecode u s
  | .ring u => Sys2Proof.Machine.execRing u s
  | .caller u number => Sys2Proof.Machine.execCaller u number s
  | .dialTone u => Sys2Proof.Machine.execDialTone u s
  | .dialDone u => Sys2Proof.Machine.execDialDone u s
  | .busyTone u => Sys2Proof.Machine.execBusyTone u s
  | .answerTone u => Sys2Proof.Machine.execAnswerTone u s
  | .seizeTimeout u => Sys2Proof.Machine.execSeizeTimeout u s
  | .dialLimitExpiry u => Sys2Proof.Machine.execDialLimitExpiry u s
  | .answerTimeout u => Sys2Proof.Machine.execAnswerTimeout u s
  | .clearingGuardExpiry u => Sys2Proof.Machine.execClearingGuardExpiry u s
  | .ringTimerExpiry u => Sys2Proof.Machine.execRingTimerExpiry u s
  | .lineFault u => Sys2Proof.Machine.execLineFault u s
  | .lineOk u => Sys2Proof.Machine.execLineOk u s
  | .unknownLinkMessage u type => Sys2Proof.Machine.execUnknownLinkMessage u type s
  | .corruptFrame u => Sys2Proof.Machine.execCorruptFrame u s
  | .offer u f => Sys2Proof.Machine.execOffer u f s
  | .orderFrame u f => Sys2Proof.Machine.execOrderFrame u f s
  | .checkResult u good => Sys2Proof.Machine.execCheckResult u good s
  | .readyFrame u => Sys2Proof.Machine.execReadyFrame u s
  | .slower u => Sys2Proof.Machine.execSlower u s
  | .pageEnd u kind => Sys2Proof.Machine.execPageEnd u kind s
  | .good u => Sys2Proof.Machine.execGood u s
  | .redo u => Sys2Proof.Machine.execRedo u s
  | .stopFrame u => Sys2Proof.Machine.execStopFrame u s
  | .releaseFrame u => Sys2Proof.Machine.execReleaseFrame u s
  | .data u bytes => Sys2Proof.Machine.execData u bytes s
  | .dataEnd u => Sys2Proof.Machine.execDataEnd u s
  | .carrierLost u => Sys2Proof.Machine.execCarrierLost u s
  | .replyWaitExpiry u => Sys2Proof.Machine.execReplyWaitExpiry u s
  | .offerWaitExpiry u => Sys2Proof.Machine.execOfferWaitExpiry u s
  | .notReadyWaitExpiry u => Sys2Proof.Machine.execNotReadyWaitExpiry u s
  | .idleLimitExpiry u => Sys2Proof.Machine.execIdleLimitExpiry u s
  | .entryCountdownExpiry => Sys2Proof.Machine.execEntryCountdownExpiry s
  | .lineDone temperature => Sys2Proof.Machine.execLineDone temperature s
  | .sheetDone => Sys2Proof.Machine.execSheetDone s
  | .temp temperature => Sys2Proof.Machine.execTemp temperature s
  | .paperPresentChange high => Sys2Proof.Machine.execPaperPresentChange high s
  | .coverClosedChange high => Sys2Proof.Machine.execCoverClosedChange high s
  | .sounderPatternTimer p => Sys2Proof.Machine.execSounderPatternTimer p s
  | .pacingPulse => Sys2Proof.Machine.execPacingPulse s
  | .ageTimerExpiry => Sys2Proof.Machine.execAgeTimerExpiry s
  | .sweepVisit => Sys2Proof.Machine.execSweepVisit s
  | .clockStep => Sys2Proof.Machine.execClockStep s
  | .meterUnitStart u => Sys2Proof.Machine.execMeterUnitStart u s
  | .burnVerify burn => Sys2Proof.Machine.execBurnVerify s burn
  | .burnLimitExpiry burn => Sys2Proof.Machine.execBurnLimitExpiry s burn
  | .supplyLevelChange low => Sys2Proof.Machine.execSupplyLevelChange low s
  | .powerWarningBegin => Sys2Proof.Machine.execPowerWarningBegin s
  | .powerWarningEnd => Sys2Proof.Machine.execPowerWarningEnd s

end Sys2Proof.Machine
end

