-- ==== Sys2Proof/WellFormed.lean ====
section
/-! DEFINITION. The commands that the part's ports can carry: the sizes and ranges of their operands as the
manual gives them. The part's meaning of a command does not look at this: it is total on every command. -/

namespace Sys2Proof

/-- What is wrong with a command's operands. -/
inductive OperandFault where
  /-- A host read of no byte. -/
  | emptyRead
  /-- A host write of no byte lane. -/
  | emptyWrite
  /-- A grant with no requester presenting an access (R62). -/
  | nothingPresented
  /-- A CALLER whose digit string is not 1 to 24 characters (Table 6-1). -/
  | callerLength
  /-- A DATA message of other than 1 to 64 bytes (Table 6-1). -/
  | dataLength
  /-- A SEND DATA of other than 1 to 64 bytes (R39). -/
  | sendLength
  /-- An unknown link message whose type is a row of Table 6-1 (R200). -/
  | knownMessage
  /-- A head temperature above 100 °C (Table 10-1). -/
  | temperatureRange
  deriving DecidableEq, Repr

/-- The rows of Table 6-1. -/
def linkMessageRows : Nat := 22

/-- The first thing wrong with a command's operands, or none. -/
def Instr.operandFault : Instr → Option OperandFault
  | .hostRead _ len => if len = 0 then some .emptyRead else none
  | .hostWrite _ lanes | .windowWriteFixed _ lanes | .windowWriteIndexed _ lanes =>
    if lanes = [] then some .emptyWrite else none
  | .portGrant presented => if presented = [] then some .nothingPresented else none
  | .caller _ number => if 1 ≤ number.length ∧ number.length ≤ 24 then none else some .callerLength
  | .data _ bytes => if 1 ≤ bytes.length ∧ bytes.length ≤ 64 then none else some .dataLength
  | .linkSendData _ n => if 1 ≤ n ∧ n ≤ 64 then none else some .sendLength
  | .unknownLinkMessage _ type =>
    if 1 ≤ type.toNat ∧ type.toNat ≤ linkMessageRows then some .knownMessage else none
  | .lineDone t | .temp t => if t ≤ 100 then none else some .temperatureRange
  | .powerOnReset _ | .busReset _ | .setupPost _ | .setupBlockReadDone | .orderSlotPost _ _
  | .eventConsumerWrite _ | .chargeLogConsumerWrite _ | .holdTimeout _ | .pendingWritePerformed _ => none
  | .scan | .openWindowPage | .closeWindowPage | .closeDocument | .keep | .release | .deleteDocument
  | .send | .cancel | .print | .cancelPrint | .screenAdd | .screenRemove | .screenClear | .sweep
  | .screenMode | .setClock | .loadTariff | .setDesk | .closePeriod | .flushMeter | .auditClear
  | .lineMode | .dump | .dumpRecordWrite | .restart | .restartComplete | .unknownOrder => none
  | .eventPosting | .holdOffExpiry | .coderLineService | .coderSealService | .line _ | .sheetEnd
  | .modeAcknowledgement | .sheetPresentChange _ | .jamChange _ | .stallTimerExpiry => none
  | .transmitLineRecode _ | .receiveDecode _ | .ring _ | .dialTone _ | .dialDone _ | .busyTone _
  | .answerTone _ | .seizeTimeout _ | .dialLimitExpiry _ | .answerTimeout _ | .clearingGuardExpiry _
  | .ringTimerExpiry _ | .lineFault _ | .lineOk _ | .corruptFrame _ | .offer _ _ | .orderFrame _ _
  | .checkResult _ _ | .readyFrame _ | .slower _ | .pageEnd _ _ | .good _ | .redo _ | .stopFrame _
  | .releaseFrame _ | .dataEnd _ | .carrierLost _ | .replyWaitExpiry _ | .offerWaitExpiry _
  | .notReadyWaitExpiry _ | .idleLimitExpiry _ => none
  | .entryCountdownExpiry | .sheetDone | .paperPresentChange _ | .coverClosedChange _
  | .sounderPatternTimer _ | .pacingPulse | .ageTimerExpiry | .sweepVisit | .clockStep
  | .meterUnitStart _ | .burnVerify _ | .burnLimitExpiry _ | .supplyLevelChange _ | .powerWarningBegin
  | .powerWarningEnd => none

/-- A command whose operands the port that brings it can carry. -/
abbrev Instr.WellFormed (i : Instr) : Prop := i.operandFault = none

end Sys2Proof
end

