-- ==== Sys2Proof/Safety.lean ====
section
/-! DEFINITION. What holds in every state that the part can be in: the canonical form of page memory, the
law of the pending-write queue, and the ranges of the fields that count. -/

namespace Sys2Proof.Machine

open Sys2Proof

/-- A pending write carries 1 to 64 bytes within one 4 KiB page of memory (R61). -/
def PendingWrite.Lawful (w : PendingWrite) : Prop :=
  1 ≤ w.bytes.length ∧ w.bytes.length ≤ 64 ∧ w.addr % 4096 + w.bytes.length ≤ 4096

/-- The pending-write queue holds at most 16 writes, a write waits for room only while it holds 16, and
every write is lawful (R61); the arbiter's cycle marker names one of its twelve places (R62). -/
def MemPath.Lawful (p : MemPath) : Prop :=
  p.queue.length ≤ 16 ∧ (p.waiting ≠ [] → p.queue.length = 16) ∧ (∀ w ∈ p.queue ++ p.waiting, w.Lawful)
    ∧ p.cycle < 12

/-- The clock holds a half-second of the day and a day of the week (R180). -/
def Clock.Lawful (c : Clock) : Prop := c.half < 172800 ∧ c.day < 7

/-- The Event Ring holds 0 to 256 unread records (R79), and the missed-event count has 16 bits (R80). -/
def Reporter.Lawful (r : Reporter) : Prop := (r.producer - r.consumer).toNat ≤ 256 ∧ r.missed ≤ 65535

/-- The numbers of a table rise, and each is below its limit. -/
def tableIn {α : Type} (limit : Nat) (t : Table α) : Prop :=
  (t.map Prod.fst).Pairwise (· < ·) ∧ ∀ x ∈ t, x.1 < limit

/-- Every pool block stands once in the free list or in the chain of one page (R2). -/
def PageStore.Partition (p : PageStore) : Prop :=
  (p.free ++ p.pages.flatMap (fun x => p.chain x.2)).Perm (List.range p.blockCount)

/-- A page's chain runs from its first block to its last, has as many blocks as its record counts, and ends with
link entry "none" (R2, Table 1-1). -/
def PageStore.ChainOk (p : PageStore) (r : PageRec) : Prop :=
  1 ≤ r.blocks ∧ (p.chain r).length = r.blocks ∧ (p.chain r).getLast? = some r.last ∧ tget p.links r.last = none

/-- A document's page list names each page once, at most 250 of them, and each names the document (R5, Table 1-2). -/
def PageStore.ListOk (p : PageStore) (d : Nat) (r : Doc) : Prop :=
  r.pages.Nodup ∧ r.pages.length ≤ 250 ∧ ∀ q ∈ r.pages, ∃ x, tget p.pages q = some x ∧ x.document = d

/-- The Page Store's laws: 1024 page records and 256 document records, the partition of the pool, the chains, link
entry "none" of every free block (R2), and the page lists (R5). -/
def PageStore.Lawful (p : PageStore) : Prop :=
  tableIn 1024 p.pages ∧ tableIn 256 p.docs ∧ p.Partition ∧ (∀ x ∈ p.pages, p.ChainOk x.2)
    ∧ (∀ b ∈ p.free, tget p.links b = none) ∧ ∀ x ∈ p.docs, p.ListOk x.1 x.2

/-- The print references that a document record counts; none where the record is unused (R13). -/
def printRefsOf (docs : Table Doc) (d : Nat) : Nat :=
  match tget docs d with
  | some r => r.printRefs
  | none => 0

/-- A document's print refs equal the number of its print entries, and none names an unused record (R13). -/
def PrintRefsOk (docs : Table Doc) (entries : Table PrintEntry) : Prop :=
  ∀ d, printRefsOf docs d = (entries.filter (fun x => decide (x.2.document = d))).length

/-- The Screen Table has 256 entries, no two with the same key kind and key, and while the mode is LISTED-ONLY
none is LEARNED (R154). -/
def Screen.Lawful (c : Screen) : Prop :=
  tableIn 256 c.entries ∧ (c.entries.map (fun x => (x.2.keyKind, x.2.key))).Nodup
    ∧ (c.mode = .listedOnly → ∀ x ∈ c.entries, x.2.kind ≠ .learned)

/-- The send references that a document record counts; none where the record is unused (R13). -/
def sendRefsOf (docs : Table Doc) (d : Nat) : Nat :=
  match tget docs d with
  | some r => r.sendRefs
  | none => 0

/-- The destination entries of a document that are not in a final state (R13). -/
def openEntries (entries : Table DestEntry) (d : Nat) : Nat :=
  (entries.filter (fun x => decide (x.2.document = d) && !x.2.state.final)).length

/-- What an operation that is under way still owes: the entries of a document that its references already count,
and the unit whose entry has been taken back. Between commands nothing is owed. -/
structure Owed where
  refs : Nat → Nat
  unit : Option UnitId

/-- Nothing is owed. -/
def Owed.nothing : Owed := { refs := fun _ => 0, unit := none }

/-- A document's send refs equal the number of its destination entries not in a final state (R13). -/
def SendRefsOk (o : Owed) (docs : Table Doc) (entries : Table DestEntry) : Prop :=
  ∀ d, sendRefsOf docs d = openEntries entries d + o.refs d

/-- The final list names the final entries, each once (R137). -/
def FinalsOk (q : SendQueue) : Prop :=
  q.finals.Nodup ∧ ∀ i, i ∈ q.finals ↔ ∃ e, tget q.entries i = some e ∧ e.state.final = true

/-- A unit that holds an entry holds one that is ACTIVE on that unit, so no two units hold one entry (R143). -/
def LinksOk (o : Owed) (units : Quad LineUnit) (entries : Table DestEntry) : Prop :=
  ∀ u i, some u ≠ o.unit → (units.get u).entry = some i →
    ∃ e, tget entries i = some e ∧ e.state = .active ∧ e.unit = some u

/-- The Send Queue's laws: 512 entries, the final list (R137), the send references (R13) and the units' entries
(R143). -/
def SendOk (o : Owed) (docs : Table Doc) (units : Quad LineUnit) (q : SendQueue) : Prop :=
  tableIn 512 q.entries ∧ FinalsOk q ∧ SendRefsOk o docs q.entries ∧ LinksOk o units q.entries

/-- The unit is in an outgoing call that is not yet answered (R99). -/
def LineUnit.calling (l : LineUnit) : Bool :=
  match l.state with
  | .seizing | .dialling | .awaitAnswer => true
  | _ => false

/-- The unit is in a call that has been answered (R99, R102). -/
def LineUnit.metered (l : LineUnit) : Bool := decide (l.state = .inSession) && l.answered

/-- The unit may still form a charge record: its call is not yet answered, or is metered (R192). -/
def mayCharge (units : Quad LineUnit) (recs : Quad (Option MeterRec)) (u : UnitId) : Bool :=
  (units.get u).calling || (recs.get u).isSome

/-- A piece of the Meter's waiting work will form a charge record (R187). -/
def MeterWork.forms : MeterWork → Bool
  | .release _ => true
  | _ => false

/-- The releases that wait for the Meter, each of which will form a charge record (R61, R187). -/
def Meter.releases (m : Meter) : Nat := (m.work.filter MeterWork.forms).length

/-- The Charge Log holds 0 to its size unread records; records wait in the overflow queue only while it is full; the
queue, with a place for each release that waits for the Meter and for each unit that may still form a record, never
holds more than 4 (R192); and only a call that has been answered is metered (R185). -/
def ChargeOk (units : Quad LineUnit) (m : Meter) : Prop :=
  (m.producer - m.consumer).toNat ≤ m.logSize ∧ (m.overflow ≠ [] → m.logRoom = false)
    ∧ m.overflow.length + m.releases + (allUnits.filter (mayCharge units m.recs)).length ≤ 4
    ∧ ∀ u, (m.recs.get u).isSome = true → (units.get u).metered = true

/-- The laws that do not speak of page memory or the clock, with what an operation under way still owes. -/
def State.Steady (s : State) (o : Owed) : Prop :=
  s.path.Lawful ∧ s.intake.expected < 32 ∧ s.reporter.Lawful ∧ s.scanner.buffer.length = 4 ∧ s.store.Lawful
    ∧ tableIn 64 s.print.entries ∧ PrintRefsOk s.store.docs s.print.entries ∧ s.screen.Lawful
    ∧ SendOk o s.store.docs s.units s.sendq ∧ ChargeOk s.units s.meter

/-- The ranges, forms and laws that every command keeps: page memory in canonical form, the clock's ranges (R180),
the pending-write law (R61), an expected slot of 32 (R67), the Event Ring (R79, R80), four buffer lines
(section 5.1), the Page Store (R2, R5), 64 print entries (R168) and the print references (R13), the Screen Table
(R154), the Send Queue (R13, R137, R143), and the Charge Log with its overflow queue (R192). -/
def State.Safe (s : State) : Prop := s.mem.wf = true ∧ s.meter.clock.Lawful ∧ s.Steady Owed.nothing

/-- The commands that can change a byte of page memory: host writes, the performing of a pending write,
and the three commands that can let a held host write go on (R45, R59, R61). -/
def touchesMemory : Instr → Bool
  | .hostWrite _ _ | .setupPost _ | .orderSlotPost _ _ | .eventConsumerWrite _ | .chargeLogConsumerWrite _
  | .windowWriteFixed _ _ | .windowWriteIndexed _ _ | .holdTimeout _ | .pendingWritePerformed _
  | .coderLineService | .restart => true
  | .powerOnReset _ | .busReset _ | .hostRead _ _ | .setupBlockReadDone | .portGrant _ => false
  | .scan | .openWindowPage | .closeWindowPage | .closeDocument | .keep | .release | .deleteDocument
  | .send | .cancel | .print | .cancelPrint | .screenAdd | .screenRemove | .screenClear | .sweep
  | .screenMode | .setClock | .loadTariff | .setDesk | .closePeriod | .flushMeter | .auditClear
  | .lineMode | .dump | .dumpRecordWrite | .restartComplete | .unknownOrder => false
  | .eventPosting | .holdOffExpiry | .coderSealService | .line _ | .sheetEnd
  | .modeAcknowledgement | .sheetPresentChange _ | .jamChange _ | .stallTimerExpiry => false
  | .transmitLineRecode _ | .linkSendData _ _ | .receiveDecode _ | .ring _ | .caller _ _ | .dialTone _
  | .dialDone _ | .busyTone _ | .answerTone _ | .seizeTimeout _ | .dialLimitExpiry _ | .answerTimeout _
  | .clearingGuardExpiry _ | .ringTimerExpiry _ | .lineFault _ | .lineOk _ | .unknownLinkMessage _ _
  | .corruptFrame _ | .offer _ _ | .orderFrame _ _ | .checkResult _ _ | .readyFrame _ | .slower _
  | .pageEnd _ _ | .good _ | .redo _ | .stopFrame _ | .releaseFrame _ | .data _ _ | .dataEnd _
  | .carrierLost _ | .replyWaitExpiry _ | .offerWaitExpiry _ | .notReadyWaitExpiry _
  | .idleLimitExpiry _ => false
  | .entryCountdownExpiry | .lineDone _ | .sheetDone | .temp _ | .paperPresentChange _
  | .coverClosedChange _ | .sounderPatternTimer _ | .pacingPulse | .ageTimerExpiry | .sweepVisit
  | .clockStep | .meterUnitStart _ | .burnVerify _ | .burnLimitExpiry _ | .supplyLevelChange _
  | .powerWarningBegin | .powerWarningEnd => false

/-- A write held by a raster window is open (R59). -/
def State.windowHeld (s : State) : Bool :=
  match s.path.bus with
  | .windowHold _ _ _ _ => true
  | _ => false

end Sys2Proof.Machine
end

