-- ==== Sys2Proof/Certificates/Slice0/Obligations.lean ====
section
/-! DEFINITION. The statements about the model that its provers settle. -/

open Sys2Proof Sys2Proof.Machine

/-! ## The step and the invariants -/

/-- A step carries out the command at the front of the queue with the queue's rest; with none waiting the
part idles, which is the model's choice (log entry 6). -/
def Obligations.StepRunsTheFrontCommand : Prop :=
  (∀ (c : Instr) (q : List Instr) (s : State), step (s.withPending (c :: q)) = exec c (s.withPending q))
  ∧ (∀ s : State, s.pending = [] → step s = .next s)

/-- The laws of `State.Safe` are kept by every step, whatever command it carries out: page memory in its canonical
form and the clock in range (R180), the pending-write queue (R61), the expected slot (R67), the Event Ring with at
most 256 unread records and a missed count of 16 bits (R79, R80), every pool block once in the free list or in a
page's chain (R2), print and send references equal to the entries they count (R13), 64 print entries (R168), 512
destination entries with their final list (R137), no entry in the calls of two units (R143), no two screen entries
with one key (R154), only an answered call metered (R185), and the Charge Log with an overflow queue of at most 4
records (R192). -/
def Obligations.EveryStepKeepsSafe : Prop :=
  ∀ s t : State, s.Safe → step s = .next t → t.Safe

/-- The state after power-on reset is safe. -/
def Obligations.ResetStateIsSafe : Prop := State.reset.Safe

/-- Only host writes, the performing of a pending write, and the commands that can let a held host write go on
change page memory: a part-originated write is only issued by the command that makes it (R61). -/
def Obligations.OnlyMemoryCommandsWriteMemory : Prop :=
  ∀ (c : Instr) (s t : State), touchesMemory c = false → exec c s = .next t →
    (∀ a : Nat, t.mem.read a = s.mem.read a) ∧ t.mem = s.mem

/-- Every command is answered with a next state, and leaves the queue of waiting commands alone.
Where the manual leaves it to the model: log entry 7. -/
def Obligations.EveryCommandCompletes : Prop :=
  ∀ (c : Instr) (s : State), ∃ t : State, exec c s = .next t ∧ t.pending = s.pending

/-- The memory size, the settings, the Region Table and the pool's place change only at a reset or when a
Setup Block is taken.
Where the manual leaves it to the model: log entry 7. -/
def Obligations.ConfigurationIsFixedWhileRunning : Prop :=
  ∀ (c : Instr) (s t : State), exec c s = .next t →
    (∀ m, c ≠ .powerOnReset m) → (∀ m, c ≠ .busReset m) → c ≠ .setupBlockReadDone →
    t.memSize = s.memSize ∧ t.settings = s.settings ∧ t.path.regions = s.path.regions
      ∧ t.store.base = s.store.base ∧ t.store.blockCount = s.store.blockCount

/-! ## Resets and start-up -/

/-- Both resets: every block takes its reset value; page memory, the meter store with a burn cut short, the
levels of the ports and the queue of commands stay; RELEASE goes out on each link; the clock restarts at
power-on and goes on over a bus reset.
Where the manual leaves it to the model: log entries 3, 42, 43, 57 and 78. -/
def Obligations.ResetsPutEveryBlockBack : Prop :=
  ∀ (m : MemSize) (s : State),
    let cells := s.meter.cells.map (fun x =>
      (x.1, if x.2.writing then { x.2 with torn := true, writing := false } else x.2))
    let unit (l : LineUnit) : LineUnit := LineUnit.resetWith (l.out ++ [.release])
    let t : State := { State.reset with
      mem := s.mem, memSize := m,
      scanner := Scanner.resetWith s.scanner.sheetPresent s.scanner.jam s.scanner.out,
      units := ⟨unit s.units.u0, unit s.units.u1, unit s.units.u2, unit s.units.u3⟩,
      print := PrintEngine.resetWith s.print.paperPresent s.print.coverClosed s.print.out,
      meter := Meter.resetWith Clock.reset cells s.meter.supplyLow, pending := s.pending }
    exec (.powerOnReset m) s = .next t
    ∧ exec (.busReset m) s = .next { t with
        cause := .busReset, meter := Meter.resetWith s.meter.clock cells s.meter.supplyLow }

/-- The Setup post word, written while the part is UNCONFIGURED, starts the read of the Setup Block; written
0, it is an ordinary write. In SETUP every write to the Setup Page is refused with a bus error and changes nothing
else. In RUNNING a post word written nonzero reaches memory, and the Memory Path issues the status ALREADY RUNNING
and then the cleared post word. Any other write within the Setup Page reaches memory too, outside SETUP; one that touches
the post word and leaves it nonzero does the same as a write of the whole word.
Where the manual leaves it to the model: log entries 16, 21 and 22. -/
def Obligations.SetupPostStartsTheRead : Prop :=
  ∀ s : State, s.Safe → s.path.bus = .free → s.stalled .memoryPath = false →
    let written (v : Word) : State := { s with
      mem := s.mem.writeBytes 0 (leBytes 4 v.toNat), path := { s.path with bus := .free, result := .written } }
    (∀ v : Word, s.part = .unconfigured → s.path.blocked 0 4 = false → exec (.setupPost v) s =
      .next { written v with part := if v = 0 then .unconfigured else .setup })
    ∧ (∀ (a : Nat) (lanes : List Lane), s.part = .setup → a + lanes.length ≤ 4096 → lanes.filterMap id ≠ [] →
      exec (.hostWrite a lanes) s = .next { s with path := { s.path with bus := .free, result := .busError } })
    ∧ (∀ v : Word, s.part = .running → s.path.blocked 0 4 = false →
      (v = 0 → exec (.setupPost v) s = .next (written v))
      ∧ (v ≠ 0 → exec (.setupPost v) s = .next { written v with
          path := ((written v).path.issue .memoryPath 4 [3, 0, 0, 0] none).issue .memoryPath 0 [0, 0, 0, 0] none }))
    ∧ (∀ (a : Nat) (lanes : List Lane), s.part ≠ .setup → a + lanes.length ≤ 4096 → lanes.filterMap id ≠ [] →
      s.path.blocked a lanes.length = false →
      let t : State := { s with
        mem := s.mem.writeLanes a lanes, path := { s.path with bus := .free, result := .written } }
      let posts : Prop := a < 4 ∧ t.readNum 0 4 ≠ 0
      (¬ posts → exec (.hostWrite a lanes) s = .next t)
      ∧ (posts → s.part = .unconfigured → exec (.hostWrite a lanes) s = .next { t with part := .setup })
      ∧ (posts → s.part = .running → exec (.hostWrite a lanes) s = .next { t with
          path := (t.path.issue .memoryPath 4 [3, 0, 0, 0] none).issue .memoryPath 0 [0, 0, 0, 0] none }))

/-- The fields of a Setup Block that its checks look at, the pool size clamped; the checks in their order, each area
within memory, clear of the Setup Page and of the others; and the clamp report, an entry for each field that the clamps
changed. A block that fails a check returns the part to UNCONFIGURED, and, in the same command by the model's choice,
the Memory Path issues the status with outcome 2 and the first failed check's code, and then the cleared post word.
While a pending write overlaps the block, or a write of the Memory Path waits for room, the read is held and nothing
happens (R61).
Where the manual leaves it to the model: log entries 7, 12, 16 and 81. -/
def Obligations.SetupRefusedReturnsToUnconfigured : Prop :=
  (∀ s : State, s.part ≠ .setup ∨ s.path.blocked 0x40 0x110 = true ∨ s.stalled .memoryPath = true →
    exec .setupBlockReadDone s = .next s)
  ∧ (∀ (s : State) (f : SetupFault), s.part = .setup → s.path.blocked 0x40 0x110 = false →
    s.stalled .memoryPath = false → s.readSetup.fault (memBytes s.memSize) = some f →
    exec .setupBlockReadDone s = .next { s with
      part := .unconfigured,
      path := (s.path.issue .memoryPath 4 (statusBytes 2 (setupFaultCode f) s.clampReport) none).issue
        .memoryPath 0 [0, 0, 0, 0] none })
  ∧ (∀ s : State,
    let b := s.readSetup
    let pool := s.readNum 0xB4 4
    let rings := s.readNum 0xBC 1
    let bad := s.readNum 0xC1 1
    b.controlBase = s.readNum 0xA0 4 ∧ b.eventBase = s.readNum 0xA4 4 ∧ b.logBase = s.readNum 0xA8 4
    ∧ b.logSize = s.readNum 0xAC 4 ∧ b.poolBase = s.readNum 0xB0 4 ∧ b.poolCount = max 256 (min 16384 pool)
    ∧ (∀ i r, (i, r) ∈ b.regions ↔ i < 8 ∧ r.base = s.readNum (0x40 + 12 * i) 4 ∧ r.size = s.readNum (0x44 + 12 * i) 4
        ∧ r.code = s.readNum (0x48 + 12 * i) 1 ∧ r.size ≠ 0)
    ∧ s.clampReport = [(1, pool, max 256 (min 16384 pool)), (2, rings, max 1 (min 9 rings)), (3, bad, min 15 bad)].filter
        (fun x => x.2.1 ≠ x.2.2))
  ∧ (∀ (b : SetupRead) (mem : Nat),
    let regions := b.regions.map (fun x => (x.2.base, x.2.size))
    let windows := (b.regions.filter (fun x => x.2.code = 3)).map (fun x => (x.2.base, x.2.size))
    let implicit := [(b.controlBase, 4096), (b.eventBase, 8192), (b.logBase, b.logSize * 64), (b.poolBase, b.poolCount * 2048)]
    let apart (x y : Nat × Nat) : Prop := x.2 = 0 ∨ y.2 = 0 ∨ x.1 + x.2 ≤ y.1 ∨ y.1 + y.2 ≤ x.1
    let passes : SetupFault → Prop
      | .badTreatment => ∀ x ∈ b.regions, 1 ≤ x.2.code ∧ x.2.code ≤ 3
      | .badRegion => ∀ x ∈ regions, x.1 % 4096 = 0 ∧ x.2 % 4096 = 0
      | .tooManyWindows => windows.length ≤ 2
      | .logSize => 128 ≤ b.logSize ∧ b.logSize ≤ 4096
      | .badBase => ∀ x ∈ implicit, x.1 % 4096 = 0
      | .outside => ∀ x ∈ regions ++ implicit, x.1 + x.2 ≤ mem
      | .overlapSetup => ∀ x ∈ regions ++ implicit, apart x (0, 4096)
      | .overlapRegions => regions.Pairwise apart
      | .overlapRings => implicit.Pairwise apart
      | .overlapWindow => ∀ x ∈ windows, ∀ y ∈ implicit, apart x y
    (b.fault mem = none ↔ ∀ f, passes f)
    ∧ ∀ f, b.fault mem = some f ↔ ¬ passes f ∧ ∀ g, setupFaultCode g < setupFaultCode f → passes g)
  ∧ ∀ (outcome code : Nat) (rep : List (Nat × Nat × Nat)), rep.length ≤ 3 →
    statusBytes outcome code rep = [byteOf outcome, byteOf code, byteOf rep.length, 0]
      ++ rep.flatMap (fun x => leBytes 2 x.1 ++ [0, 0] ++ leBytes 4 x.2.1 ++ leBytes 4 x.2.2)
      ++ List.replicate (56 - 12 * rep.length) 0

/-- The read of a Setup Block that passes every check: the part is RUNNING with the Region Table and the pool of the
block, its settings clamped and handed to their owners, empty document, page, entry and screen tables, every unit IDLE
or OFF by its mode, every desk with its ceiling and its cell's totals, in AUDIT where the cell is TORN, and an empty
Charge Log; page memory, the clock, the meter store and the queue stay. The Control Page is prepared in the model's
order, and READY is the first event asked for.
Where the manual leaves it to the model: log entries 2, 12, 16, 41, 70 and 81. -/
def Obligations.SetupAcceptedGoesRunning : Prop :=
  ∀ s : State, s.part = .setup → s.path.blocked 0x40 0x110 = false → s.stalled .memoryPath = false →
    s.readSetup.fault (memBytes s.memSize) = none →
    let b := s.readSetup
    let num (a : Nat) : Nat := s.readNum a 1
    let zero (v d : Nat) : Nat := if v = 0 then d else v
    let age := num 0xC0
    let reload (v : Nat) : Nat := if v = 0 then 0 else max 4 v
    let word (blk : Block) (off : Nat) (v : Byte) (p : MemPath) : MemPath :=
      p.issue blk (b.controlBase + off) [v, 0, 0, 0] none
    let status := (s.path.issue .memoryPath 4 (statusBytes 1 0 s.clampReport) none).issue .memoryPath 0 [0, 0, 0, 0] none
    let slots := (List.range 32).foldl (fun p n => word .orderIntake (n * 64 + 4) 0 p) status
    let words := [0x804, 0x808, 0x80C, 0x840, 0x844].foldl (fun p o => word .eventReporter o 0 p) (word .orderIntake 0x800 0 slots)
    ∃ t : State, exec .setupBlockReadDone s = .next t
      ∧ t.part = .running ∧ t.path.regions = b.table
      ∧ t.path = { word .orderIntake 0x810 1 words with regions := b.table }
      ∧ (∀ i r, (i, r) ∈ b.table ↔ ∃ x, (i, x) ∈ b.regions ∧ r.base = x.base ∧ r.size = x.size
          ∧ treatmentOf x.code = some r.treatment)
      ∧ t.store = { base := b.poolBase, blockCount := b.poolCount, free := List.range b.poolCount, links := [],
                    pages := [], docs := [] }
      ∧ t.settings =
        { controlBase := b.controlBase, eventBase := b.eventBase,
          receiveReserve := min b.poolCount (zero (s.readNum 0xB8 2) 64), ringsToAnswer := max 1 (min 9 (num 0xBC)),
          badPercent := min 15 (num 0xC1), badRun := num 0xC2, holdOffMs := min 15 (num 0xC5),
          station := (s.readThrough 0xCC 20).takeWhile (fun c => c ≠ 0) }
      ∧ (∀ u : UnitId,
          let a := 0xE0 + 12 * unitNum u
          (t.unit u).mode = setupMode (s.readByte a)
          ∧ (∀ m, unitModeOf (num a) = some m → (t.unit u).mode = m)
          ∧ (t.unit u).state = (if (t.unit u).mode = .off then .off else .idle)
          ∧ (t.unit u).lead = (s.readThrough (a + 4) 8).takeWhile isDial
          ∧ (t.screen.learn.get u = true ↔ s.readByte (a + 1) ≠ 0))
      ∧ t.screen = { t.screen with
          entries := [], mode := (screenModeOf (num 0xBE)).getD .opened, ringMatch := ⟨none, none, none, none⟩,
          pacingPeriod := zero (num 0xBF) 1, agePeriod := age, pacing := some (120 * zero (num 0xBF) 1),
          age := if age = 0 then none else some (7200 * age), sweep := none, fullReported := false }
      ∧ t.sendq = { SendQueue.reset with keepForReceive := min 3 (num 0xBD) }
      ∧ t.print = { s.print with
          entries := [], current := none, state := t.print.derived,
          strobeBase := max 40 (min 95 (num 0xC8)), strobeSlope := min 63 (num 0xC9),
          sounder := { flash := none, paper := if s.print.paperPresent then none else some true,
                       flashReload := reload (num 0xC6), paperReload := reload (num 0xC7) } }
      ∧ (∀ d, d < 16 →
          let c := s.storeCell d
          let ceiling := s.readNum (0x110 + 4 * d) 4
          t.desk d = some
            { state := if c.torn then .audit else if ceiling = 0 then .held else .opened, audit := c.torn, closed := false,
              ceiling := ceiling, spent := 0, working := c.lifetime, burned := c.lifetime, calls := c.calls,
              captured := none, torn := c.torn })
      ∧ t.meter = { s.meter with
          tariff := Tariff.empty, recs := ⟨none, none, none, none⟩, desks := t.meter.desks,
          logBase := b.logBase, logSize := b.logSize, producer := 0, consumer := 0, recordSeq := 0, overflow := [],
          work := [], burnQueue := [], burn := none, burnsBegun := 0, checkpoint := zero (s.readNum 0xBA 2) 500,
          burnLimit := if num 0xC3 ∈ [2, 4, 8, 16] then num 0xC3 else 16, monitor := true, supplyIndex := min 7 (num 0xC4),
          warning := false }
      ∧ t.mem = s.mem ∧ t.pending = s.pending ∧ t.intake = s.intake ∧ t.scanner = s.scanner ∧ t.coder = s.coder
      ∧ (s.reporter.postings = [] → ∃ rest, t.reporter.postings =
          ⟨.eventReporter, .ready s.cause (memMiB s.memSize) b.poolCount (!s.meter.clock.unset)⟩ :: rest)

/-! ## Host accesses -/

/-- A host read: bus error where it passes the end of memory, held while a pending write overlaps it
or a write of the Memory Path waits for room (R61), and otherwise the bytes of page memory, which it leaves as they are.
Where the manual leaves it to the model: log entries 13 and 16. -/
def Obligations.HostReadAnswersItsCase : Prop :=
  ∀ (s : State) (a n : Nat), s.path.bus = .free →
    (memBytes s.memSize < a + n → exec (.hostRead a n) s =
      .next { s with path := { s.path with bus := .free, result := .busError } })
    ∧ (a + n ≤ memBytes s.memSize → s.path.blocked a n = true ∨ s.stalled .memoryPath = true → exec (.hostRead a n) s =
      .next { s with path := { s.path with bus := .heldRead a n } })
    ∧ (a + n ≤ memBytes s.memSize → s.path.blocked a n = false → s.stalled .memoryPath = false → ∃ bs : List Byte,
      exec (.hostRead a n) s = .next { s with path := { s.path with bus := .free, result := .data bs } }
      ∧ bs.length = n ∧ ∀ i, i < n → bs[i]? = some (s.mem.read (a + i)))

/-- A host write whose every byte meets no guard. With no pending write in its way the enabled lanes reach page memory,
and no other byte of it changes, nor anything else of the part but the bus cycle. While a pending write overlaps it, or
a write of the Memory Path waits for room, it is held and nothing else changes (R61). A write that spans two areas, two
order slots among them by the model's choice, is two writes, one for each area, in address order, and the cycle ends
with a bus error when either is refused. Each part is dealt with by its own area: it reaches memory, and its word's or
its slot's owner is told; it is refused and, but in SETUP, reported; it is held behind a pending write; or its window
takes, refuses or holds it.
Where the manual leaves it to the model: log entries 13, 16, 22 and 82. -/
def Obligations.HostWriteReachesPageMemory : Prop :=
  (∀ (s : State) (a : Nat) (lanes : List Lane), s.Safe → s.path.bus = .free →
    a + lanes.length ≤ memBytes s.memSize → (∀ i, i < lanes.length → s.hostArea (a + i) = .pass) →
    (s.path.blocked a lanes.length = false → s.stalled .memoryPath = false →
      ∃ m : Memory, exec (.hostWrite a lanes) s =
          .next { s with mem := m, path := { s.path with bus := .free, result := .written } }
        ∧ m.wf = true
        ∧ ∀ x : Nat, m.read x =
            if a ≤ x then (match lanes[x - a]? with | some (some b) => b | _ => s.mem.read x) else s.mem.read x)
    ∧ (lanes.filterMap id ≠ [] → s.path.blocked a lanes.length = true ∨ s.stalled .memoryPath = true →
      exec (.hostWrite a lanes) s = .next { s with
        path := { s.path with bus := .heldWrite [{ addr := a, lanes := lanes }] false } }))
  ∧ (∀ (s : State) (a : Nat) (front back : List Lane) (x y : Area), s.path.bus = .free →
    a + (front ++ back).length ≤ memBytes s.memSize → front.filterMap id ≠ [] → back.filterMap id ≠ [] → x ≠ y →
    (∀ i, i < front.length → s.hostArea (a + i) = x) →
    (∀ i, i < back.length → s.hostArea (a + front.length + i) = y) →
    exec (.hostWrite a (front ++ back)) s = .next (runSegs
      [{ addr := a, lanes := front }, { addr := a + front.length, lanes := back }] false s))
  ∧ ∀ (s : State) (err : Bool),
    runSegs [] err s = { s with path := { s.path with bus := .free, result := if err then .busError else .written } }
    ∧ ∀ (g : Seg) (rest : List Seg), g.addr + g.lanes.length ≤ memBytes s.memSize → s.stalled .memoryPath = false →
      let area := s.hostArea g.addr
      let passes : Prop := area = .pass ∨ area = .eventConsumer ∨ area = .chargeConsumer
        ∨ (area = .setupPage ∧ s.part ≠ .setup) ∨ ∃ n, area = .slot n ∧ n ∉ s.path.posted
      let t : State := { s with mem := s.mem.writeLanes g.addr g.lanes }
      let goesOn (u : State) : Prop := runSegs (g :: rest) err s = runSegs rest err u
      let refused (u : State) : Prop := runSegs (g :: rest) err s = runSegs rest true u
      let held (u : State) (b : HostBus) : Prop := runSegs (g :: rest) err s = { u with path := { u.path with bus := b } }
      (passes → s.path.blocked g.addr g.lanes.length = true → held s (.heldWrite (g :: rest) err))
      ∧ (passes → s.path.blocked g.addr g.lanes.length = false →
        (area = .pass → goesOn t)
        ∧ (area = .setupPage → goesOn (t.watchSetup g))
        ∧ (∀ n, area = .slot n → goesOn (t.watchSlot n))
        ∧ (area = .eventConsumer → goesOn (t.giveReporter (BitVec.ofNat 32 (t.readNum (s.controlWord 0x840) 4))))
        ∧ (area = .chargeConsumer → goesOn (t.giveConsumer (BitVec.ofNat 32 (t.readNum (s.controlWord 0x844) 4)))))
      ∧ (area = .setupPage → s.part = .setup → refused s)
      ∧ (∀ r, area = .guarded r → refused (s.guardHit r g.addr))
      ∧ (∀ n, area = .slot n → n ∈ s.path.posted → refused (s.guardHit .orderSlot g.addr))
      ∧ (∀ w, area = .window w →
        ((s.window w).state = .idle → refused (s.guardHit (.window w) g.addr))
        ∧ (∀ u, s.windowWrite w g = .taken u → goesOn u)
        ∧ (∀ u, s.windowWrite w g = .refused u → refused u)
        ∧ (∀ left u, s.windowWrite w g = .held left u → held u (.windowHold w left rest err)))

/-- A host write to a guarded area, to an order slot whose posted flag is set, to the region of a window that is IDLE, or
while RUNNING one that passes the end of page memory: nothing reaches page memory and the cycle ends with a bus error.
An idle record of the area asks for GUARD_HIT with the access's address and stays idle; a pending one counts, up to
65535, and the count is written into its record of the Event Ring. Before RUNNING a write past the end ends with a bus
error alone. The Setup Page is told apart in every part state, all else only while RUNNING: first the pool, the Event
Ring, the Charge Log and the Control Page, with its slots, its guarded words and its two consumer words; then the
region that covers the address, the lower-numbered RASTER region being window 0 and the other one window 1; every other
address passes.
Where the manual leaves it to the model: log entries 11, 16 and 82. -/
def Obligations.GuardedHostWriteIsRefused : Prop :=
  (∀ (s : State) (a : Nat) (lanes : List Lane), s.path.bus = .free → s.stalled .memoryPath = false →
    let meets (area : Area) : Prop := a + lanes.length ≤ memBytes s.memSize ∧ lanes.filterMap id ≠ []
      ∧ ∀ i, i < lanes.length → s.hostArea (a + i) = area
    (∀ g : GuardArea,
      (g = .outside ∧ s.part = .running ∧ memBytes s.memSize < a + lanes.length)
        ∨ meets (.guarded g)
        ∨ (g = .orderSlot ∧ ∃ n ∈ s.path.posted, meets (.slot n))
        ∨ (∃ w, g = .window w ∧ (s.window w).state = .idle ∧ meets (.window w)) →
      (guardOf s.path.guards g = none → exec (.hostWrite a lanes) s = .next { s with
        path := { s.path with bus := .free, result := .busError },
        reporter := { s.reporter with postings := s.reporter.postings ++ [⟨.memoryPath, .guardHit g a⟩] } })
      ∧ ∀ r, guardOf s.path.guards g = some r →
        let n := min 65535 (r.count + 1)
        let p : MemPath := { s.path with guards := setGuard g { r with count := n } s.path.guards }
        exec (.hostWrite a lanes) s = .next { s with path :=
          { p.issue .memoryPath (s.settings.eventBase + 32 * (r.index.toNat % 256) + 1) (leBytes 2 n) none with
            bus := .free, result := .busError } })
    ∧ (s.part ≠ .running → memBytes s.memSize < a + lanes.length → exec (.hostWrite a lanes) s = .next { s with
        path := { s.path with bus := .free, result := .busError } }))
  ∧ ∀ (s : State) (a : Nat),
    let within (base len : Nat) : Prop := base ≤ a ∧ a < base + len
    let covers (x : Nat × Region) : Prop := within x.2.base x.2.size
    let pool : Prop := within s.store.base (s.store.blockCount * 2048)
    let ring : Prop := within s.settings.eventBase 8192
    let log : Prop := within s.meter.logBase (s.meter.logSize * 64)
    let page : Prop := within s.settings.controlBase 4096
    let o := a - s.settings.controlBase
    (a < 4096 → s.hostArea a = .setupPage)
    ∧ (4096 ≤ a → s.part ≠ .running → s.hostArea a = .pass)
    ∧ (4096 ≤ a → s.part = .running →
      (pool → s.hostArea a = .guarded .pool)
      ∧ (¬ pool → ring → s.hostArea a = .guarded .eventRing)
      ∧ (¬ pool → ¬ ring → log → s.hostArea a = .guarded .chargeLog)
      ∧ (¬ pool → ¬ ring → ¬ log → page →
        (∀ n, n < 32 → 64 * n ≤ o → o < 64 * n + 64 → s.hostArea a = .slot n)
        ∧ (0x800 ≤ o → o < 0x814 → s.hostArea a = .guarded .controlWord)
        ∧ (0x840 ≤ o → o < 0x844 → s.hostArea a = .eventConsumer)
        ∧ (0x844 ≤ o → o < 0x848 → s.hostArea a = .chargeConsumer)
        ∧ ((0x814 ≤ o ∧ o < 0x840) ∨ 0x848 ≤ o → s.hostArea a = .pass))
      ∧ (¬ pool → ¬ ring → ¬ log → ¬ page →
        ((∀ x ∈ s.path.regions, ¬ covers x) → s.hostArea a = .pass)
        ∧ ∀ i r, (i, r) ∈ s.path.regions → covers (i, r) → (∀ x ∈ s.path.regions, covers x → x = (i, r)) →
          (s.path.regions.map (fun x => x.1)).Pairwise (fun m n => m < n) →
          let below (j : Nat) : Prop := ∃ q, (j, q) ∈ s.path.regions ∧ q.treatment = .raster ∧ j < i
          (r.treatment = .pass → s.hostArea a = .pass)
          ∧ (r.treatment = .guard → s.hostArea a = .guarded (.region i))
          ∧ (r.treatment = .raster → (∀ j, ¬ below j) → s.hostArea a = .window .w0 ∧ s.path.windowRegion .w0 = some r)
          ∧ (∀ j, r.treatment = .raster → below j → (∀ k, below k → k = j) →
            s.hostArea a = .window .w1 ∧ s.path.windowRegion .w1 = some r)))

/-- A host write of a slot's post word with a sequence number posts the slot; where the Order Intake waits for
that slot, its take begins: the number is issued to the order-taken word and the slot read is under way. While a write
of the Order Intake waits for room, the take begins later (R61). Any write within a slot whose posted flag is clear
reaches memory: one that leaves the post word 0 leaves the flag clear, and one that leaves it nonzero posts the slot.
Where the manual leaves it to the model: log entries 16, 22 and 23. -/
def Obligations.OrderSlotPostStartsTheTake : Prop :=
  (∀ (s : State) (n : Fin 32) (q : Word), s.Safe → s.part = .running → s.path.bus = .free → s.stalled .memoryPath = false → q ≠ 0 →
    s.slotAddr n.val + 8 ≤ memBytes s.memSize →
    (∀ i, i < 4 → s.hostArea (s.slotAddr n.val + 4 + i) = .slot n.val) → n.val ∉ s.path.posted →
    s.path.blocked (s.slotAddr n.val + 4) 4 = false →
    let s1 : State := { s with
      mem := s.mem.writeBytes (s.slotAddr n.val + 4) (leBytes 4 q.toNat),
      path := { s.path with posted := insertNum n.val s.path.posted, bus := .free, result := .written } }
    (s.intake.take = .waiting → s.intake.expected = n.val → s.stalled .orderIntake = false → exec (.orderSlotPost n q) s = .next { s1 with
        intake := { s1.intake with take := .reading },
        path := s1.path.issue .orderIntake (s.controlWord 0x800) (leBytes 4 q.toNat) none })
    ∧ (s.intake.take ≠ .waiting ∨ s.intake.expected ≠ n.val ∨ s.stalled .orderIntake = true → exec (.orderSlotPost n q) s = .next s1))
  ∧ ∀ (s : State) (n a : Nat) (lanes : List Lane), s.part = .running → s.path.bus = .free →
    s.stalled .memoryPath = false → a + lanes.length ≤ memBytes s.memSize → lanes.filterMap id ≠ [] →
    (∀ i, i < lanes.length → s.hostArea (a + i) = .slot n) → n ∉ s.path.posted →
    s.path.blocked a lanes.length = false →
    let t : State := { s with
      mem := s.mem.writeLanes a lanes, path := { s.path with bus := .free, result := .written } }
    let q : Word := BitVec.ofNat 32 (t.readNum (s.settings.controlBase + 64 * n + 4) 4)
    let t1 : State := { t with path := { t.path with posted := insertNum n s.path.posted } }
    let starts : Prop := s.intake.take = .waiting ∧ s.intake.expected = n ∧ s.stalled .orderIntake = false
    (q = 0 → exec (.hostWrite a lanes) s = .next t)
    ∧ (q ≠ 0 → ¬ starts → exec (.hostWrite a lanes) s = .next t1)
    ∧ (q ≠ 0 → starts → exec (.hostWrite a lanes) s = .next { t1 with
        intake := { t1.intake with take := .reading },
        path := t1.path.issue .orderIntake (s.settings.controlBase + 0x800) (leBytes 4 q.toNat) none })

/-- A host write of the Event Ring consumer index always reaches its word. A value outside the ring's range
is ignored; one in range is held, starts the hold-off timer unless its length is 0, clears the guard-hit
records it has passed, and with the ring empty sets the missed-event count to 0 and issues its word. While a write of
the Event Reporter waits for room the value is given to it, and it takes it later (R61).
Where the manual leaves it to the model: log entry 16. -/
def Obligations.EventConsumerWriteIsJudged : Prop :=
  ∀ (s : State) (v : Word), s.Safe → s.part = .running → s.path.bus = .free →
    s.stalled .memoryPath = false →
    s.controlWord 0x844 ≤ memBytes s.memSize →
    (∀ i, i < 4 → s.hostArea (s.controlWord 0x840 + i) = .eventConsumer) →
    s.path.blocked (s.controlWord 0x840) 4 = false →
    let s1 : State := { s with
      mem := s.mem.writeBytes (s.controlWord 0x840) (leBytes 4 v.toNat),
      path := { s.path with bus := .free, result := .written } }
    let r : Reporter := { s.reporter with consumer := v, holdOff := decide (0 < s.settings.holdOffMs) }
    let p : MemPath := { s1.path with guards := s.path.guards.filter (fun y =>
      (s.reporter.producer - y.2.index).toNat ≤ (s.reporter.producer - v).toNat) }
    let waits : Prop := s.stalled .eventReporter = true ∨ s.reporter.given ≠ []
    (waits → exec (.eventConsumerWrite v) s = .next { s1 with
      reporter := { s.reporter with given := s.reporter.given ++ [v] } })
    ∧ (¬ waits → 256 < (s.reporter.producer - v).toNat → exec (.eventConsumerWrite v) s = .next s1)
    ∧ (¬ waits → (s.reporter.producer - v).toNat ≤ 256 → v ≠ s.reporter.producer →
        exec (.eventConsumerWrite v) s = .next { s1 with reporter := r, path := p })
    ∧ (¬ waits → v = s.reporter.producer → exec (.eventConsumerWrite v) s = .next { s1 with
        reporter := { r with missed := 0 },
        path := p.issue .eventReporter (s.controlWord 0x808) [0, 0, 0, 0] none })

/-- A host write of the Charge Log consumer index: outside the log's range it is ignored; in range it is held, the
overflow queue's records move into the log from the oldest on while it has room, and the arbiter makes its passes when
the log then has room and no record waits. A record moved is written at the producer index's position, and the
producer index is then written one up. While a write of the Meter waits for room, or it has still to do what it was
given meanwhile, the value is given to it, and it takes it later (R61).
Where the manual leaves it to the model: log entries 16, 23 and 40. -/
def Obligations.ChargeConsumerWriteIsJudged : Prop :=
  (∀ (s : State) (v : Word), s.Safe → s.part = .running → s.path.bus = .free → s.stalled .memoryPath = false →
    s.controlWord 0x848 ≤ memBytes s.memSize →
    (∀ i, i < 4 → s.hostArea (s.controlWord 0x844 + i) = .chargeConsumer) →
    s.path.blocked (s.controlWord 0x844) 4 = false →
    let s1 : State := { s with
      mem := s.mem.writeBytes (s.controlWord 0x844) (leBytes 4 v.toNat) }
    let s2 : State := drainOverflow s.meter.overflow { s1 with meter := { s.meter with consumer := v } }
    let room : Prop := (s2.meter.producer - v).toNat < s.meter.logSize ∧ s2.meter.overflow = []
    let waits : Prop := s.stalled .meter = true ∨ s.meter.work ≠ []
    (waits → exec (.chargeLogConsumerWrite v) s = .next (State.endCycle { s1 with
      meter := { s.meter with work := s.meter.work ++ [.consumer v] } } .written))
    ∧ (¬ waits → s.meter.logSize < (s.meter.producer - v).toNat →
      exec (.chargeLogConsumerWrite v) s = .next (s1.endCycle .written))
    ∧ (¬ waits → (s.meter.producer - v).toNat ≤ s.meter.logSize → room →
      exec (.chargeLogConsumerWrite v) s = .next (s2.arbiterPasses.endCycle .written))
    ∧ (¬ waits → (s.meter.producer - v).toNat ≤ s.meter.logSize → ¬ room →
      exec (.chargeLogConsumerWrite v) s = .next (s2.endCycle .written)))
  ∧ ∀ (s : State),
    (drainOverflow [] s = { s with meter := { s.meter with overflow := [] } })
    ∧ ∀ (c : ChargeRecord) (l : List ChargeRecord),
      ((s.meter.producer - s.meter.consumer).toNat < s.meter.logSize → drainOverflow (c :: l) s =
        drainOverflow l (State.issue
          { s.issue .meter (s.meter.logBase + (s.meter.producer.toNat % s.meter.logSize) * 64) c.record with
            meter := { s.meter with producer := s.meter.producer + 1 } } .meter (s.settings.controlBase + 0x80C)
          (leBytes 4 (s.meter.producer + 1).toNat)))
      ∧ (s.meter.logSize ≤ (s.meter.producer - s.meter.consumer).toNat → drainOverflow (c :: l) s =
        { s with meter := { s.meter with overflow := c :: l } })

/-- Bytes written to an OPEN window of mode FIXED go behind those already in the slot being filled; the byte that
completes the line hands the slot to the Page Coder, and the bytes after it go into the other slot. Bytes that find no
slot are held and the window goes HOLDING; bytes after a counted page's last line are dropped and reported. A held
write whose slot is freed is placed, the window is OPEN again, and the cycle ends. Lanes with a clear enable carry no
byte, which is the model's choice.
Where the manual leaves it to the model: log entries 16, 22 and 26. -/
def Obligations.FixedWindowWriteFillsTheSlot : Prop :=
  ∀ (s : State) (w : WindowId) (r : Region) (a : Nat) (lanes : List Lane), s.stalled .memoryPath = false →
    a + lanes.length ≤ memBytes s.memSize → (∀ i, i < lanes.length → s.hostArea (a + i) = .window w) →
    s.path.windowRegion w = some r → (s.window w).mode = .fixed → lanes.filterMap id ≠ [] →
    let x := s.window w
    let c := x.slot x.next
    let o := x.slot (otherSlot x.next)
    let new := lanes.filterMap id
    let bs := c.bytes ++ new
    let rest := bs.drop x.lineBytes
    let fill (t : State) (l : List Byte) : State :=
      t.modWindow w (fun y => y.setSlot y.next { state := .filling, bytes := l, marks := [] })
    let hold (t : State) (l : List Byte) : State := (t.modWindow w (fun y => { y with state := .holding })).holdCycle
      (.windowHold w { addr := a, lanes := l.map some } [] false)
    let last : Prop := x.linesExpected ≠ 0 ∧ x.linesRemaining ≤ 1
    let handed := (fill s (bs.take x.lineBytes)).handSlot w x.next
    (s.path.bus = .free → x.state = .opened → c.state = .empty ∨ c.state = .filling → c.bytes.length < x.lineBytes →
      (bs.length < x.lineBytes → exec (.windowWriteFixed a lanes) s = .next ((fill s bs).endCycle .written))
      ∧ (bs.length = x.lineBytes → exec (.windowWriteFixed a lanes) s = .next (handed.endCycle .written))
      ∧ (x.lineBytes < bs.length → last →
        exec (.windowWriteFixed a lanes) s = .next ((handed.guardHit (.window w) a).endCycle .busError))
      ∧ (x.lineBytes < bs.length → ¬ last → o.state = .empty ∨ o.state = .filling →
        (o.bytes ++ rest).length < x.lineBytes →
        exec (.windowWriteFixed a lanes) s = .next ((fill handed (o.bytes ++ rest)).endCycle .written))
      ∧ (x.lineBytes < bs.length → ¬ last → o.state = .complete ∨ o.state = .coding →
        exec (.windowWriteFixed a lanes) s = .next (hold handed rest)))
    ∧ (s.path.bus = .free → x.state = .opened → c.state = .complete ∨ c.state = .coding →
      exec (.windowWriteFixed a lanes) s = .next (hold s new))
    ∧ (∀ err, s.path.bus = .windowHold w { addr := a, lanes := lanes } [] err → x.state = .holding →
      new.length < x.lineBytes →
      s.freeSlot w x.next = (s.modWindow w (fun y => { y.setSlot y.next
        { state := .filling, bytes := new, marks := [] } with state := .opened })).endCycle
        (if err then .busError else .written))

/-- Bytes written to the two lines of an OPEN window of mode INDEXED are stored in their slots at their offsets and
mark their words, white where an empty slot holds nothing; a line with every word marked is complete, and is handed
when its slot's turn has come. A write with a byte beyond the two lines is refused whole and reported, and one that
touches a line not yet freed is held whole, until a freed slot lets it be taken.
Where the manual leaves it to the model: log entries 16 and 22. -/
def Obligations.IndexedWindowWriteMarksWords : Prop :=
  ∀ (s : State) (w : WindowId) (r : Region) (a : Nat) (lanes : List Lane), s.stalled .memoryPath = false →
    a + lanes.length ≤ memBytes s.memSize → (∀ i, i < lanes.length → s.hostArea (a + i) = .window w) →
    s.path.windowRegion w = some r → (s.window w).mode = .indexed → lanes.filterMap id ≠ [] → r.base ≤ a →
    let x := s.window w
    let n := x.lineBytes
    let bs := indexedBytes (a - r.base) lanes
    let toA := bs.filter (fun p => decide (p.1 < n))
    let toB := (bs.filter (fun p => decide (n ≤ p.1))).map (fun p => (p.1 - n, p.2))
    let store (l : List (Nat × Byte)) (t : Slot) : Slot :=
      let marks := l.foldl (fun m z => insertNum (z.1 / 4) m) t.marks
      if l = [] then t
      else { state := if n / 4 ≤ marks.length then .complete else .filling,
             bytes := l.foldl (fun k z => k.set z.1 z.2) (if t.state = .empty then List.replicate n 0x00 else t.bytes),
             marks := marks }
    let busy (t : Slot) : Prop := t.state = .complete ∨ t.state = .coding
    let waits (y : Window) : Prop := (toA ≠ [] ∧ busy y.slotA) ∨ (toB ≠ [] ∧ busy y.slotB)
    let stored (y : Window) : Window :=
      { y with state := .opened, slotA := store toA y.slotA, slotB := store toB y.slotB }
    (s.path.bus = .free → x.state = .opened →
      ((∃ p ∈ bs, 2 * n ≤ p.1) →
        exec (.windowWriteIndexed a lanes) s = .next ((s.guardHit (.window w) a).endCycle .busError))
      ∧ ((∀ p ∈ bs, p.1 < 2 * n) → waits x → exec (.windowWriteIndexed a lanes) s = .next
        ((s.modWindow w (fun y => { y with state := .holding })).holdCycle
          (.windowHold w { addr := a, lanes := lanes } [] false)))
      ∧ ((∀ p ∈ bs, p.1 < 2 * n) → ¬ waits x → exec (.windowWriteIndexed a lanes) s = .next
        (((s.modWindow w stored).handTurns w 2).endCycle .written)))
    ∧ (∀ err i, s.path.bus = .windowHold w { addr := a, lanes := lanes } [] err → x.state = .holding →
      (∀ p ∈ bs, p.1 < 2 * n) → ¬ waits (x.setSlot i Slot.clear) →
      s.freeSlot w i = ((s.modWindow w (fun y => stored (y.setSlot i Slot.clear))).handTurns w 2).endCycle
        (if err then .busError else .written))
    ∧ (∀ k, (x.slot x.next).state ≠ .complete → s.handTurns w k = s)
    ∧ (∀ k, x.state ≠ .idle → (x.slot x.next).state = .complete →
      s.handTurns w (k + 1) = (s.handSlot w x.next).handTurns w k)

/-- The hold timer of a window's write: the window's page is abandoned, its slots are emptied, its document is
detached, WINDOW_ABANDONED is asked for, the rest of the access is carried out, which is the model's choice, and the
cycle ends with a bus error. With no write held by the window nothing happens.
Where the manual leaves it to the model: log entries 7, 26, 28 and 76. -/
def Obligations.HoldTimeoutAbandonsTheWindowPage : Prop :=
  ∀ (s : State) (w : WindowId),
    (∀ (g : Seg) (rest : List Seg) (err : Bool) (d : Nat), s.path.bus = .windowHold w g rest err →
      (s.window w).document = some d →
      let t := (((s.abandonSource (.win w)).modWindow w (fun y =>
        { y with slotA := Slot.clear, slotB := Slot.clear, state := .idle, sealPending := false, page := none })).modDoc d
        (fun y => { y with attached := false })).post .memoryPath
        (.windowAbandoned w .holdTimeout d (s.window w).page (s.window w).linesHanded)
      exec (.holdTimeout w) s = .next (runSegs rest true t).scanRetry
      ∧ (rest = [] → exec (.holdTimeout w) s = .next (t.endCycle .busError).scanRetry))
    ∧ ((∀ v g rest err, s.path.bus = .windowHold v g rest err → v ≠ w) → exec (.holdTimeout w) s = .next s)

/-- The oldest pending write of a block, which no older write overlaps, is performed: its bytes reach page memory, it
leaves the queue, the oldest write that waits for room takes a place, and a slot whose post word it clears is no
longer posted. A write that an older one of another block overlaps stays. What the write held then goes on, in the
model's order: a DUMP whose last write has been issued, a take whose clearing write has, and the take of a slot posted
meanwhile; the work that the Meter was given while it waited, and then the arbiter's passes; the consumer writes given
to the Event Reporter; a verdict of a line unit; a sheet's begin; the print decoder's read; and the host's access, a
read, a write held behind pending writes or one held by a window. Bytes that a block issues are cut, in address order,
into pending writes of up to 64 bytes within one 4 KiB page, as long as they can be; they fill the queue up to 16
writes, and the others wait behind those that already wait.
Where the manual leaves it to the model: log entries 12, 13, 15, 16, 28 and 80. -/
def Obligations.PendingWriteReachesMemory : Prop :=
  (∀ (s : State) (before after : List PendingWrite) (w : PendingWrite),
    s.path.queue = before ++ w :: after → (∀ x ∈ before, x.blk ≠ w.blk) → s.path.queue.length ≤ 16 →
    let clear : Prop := ∀ x ∈ before, overlaps w.addr w.bytes.length x.addr x.bytes.length = false
    let t : State := { s with
      mem := s.mem.writeBytes w.addr w.bytes,
      path := { s.path with
        queue := before ++ after ++ s.path.waiting.take 1, waiting := s.path.waiting.drop 1,
        posted := match w.clears with
          | some n => s.path.posted.filter (fun k => k ≠ n)
          | none => s.path.posted } }
    let quiet : Prop := s.intake.dump = none ∧ s.intake.finish = none
      ∧ (s.intake.take ≠ .waiting ∨ s.intake.expected ∉ t.path.posted)
      ∧ s.stalled .meter = false ∧ s.meter.work = [] ∧ s.reporter.given = []
      ∧ (∀ u a, s.answering u = some a → a.report = none ∨ a.phase ≠ .verdict)
      ∧ (s.scanner.active = false ∨ s.scanner.beginPending = false)
      ∧ ¬ (s.print.sheet = .sheetStarted ∧ s.print.state = .printing)
    (¬ clear → exec (.pendingWritePerformed w.blk) s = .next s)
    ∧ (clear → exec (.pendingWritePerformed w.blk) s = .next (t.resumeHeld s.meterWaits))
    ∧ (quiet → t.resumeHeld s.meterWaits = t.resumeHost))
  ∧ (∀ s : State,
    let i := s.intake
    let waits (b : Block) : Prop := ∃ x ∈ s.path.waiting, x.blk = b
    (∀ b : Bool, s.resumeHeld b = ((((((s.settleDump.settleTake.beginTake).resumeMeter b).resumeReporter).resumeUnits).scanRetry).resumePrintRead).resumeHost)
    ∧ (i.dump = none → s.settleDump = s)
    ∧ (∀ d, i.dump = some d →
      (d.left ≠ [] ∨ waits .dump → s.settleDump = s)
      ∧ (d.left = [] → ¬ waits .dump → s.settleDump = s.finishDump d))
    ∧ (i.finish = none ∨ waits .orderIntake → s.settleTake = s)
    ∧ (i.finish ≠ none → ¬ waits .orderIntake → s.settleTake = State.beginTake { s with
        intake := { i with finish := none, take := .waiting, expected := (i.expected + 1) % 32 } })
    ∧ (i.take ≠ .waiting ∨ i.expected ∉ s.path.posted ∨ waits .orderIntake → s.beginTake = s)
    ∧ (i.take = .waiting → i.expected ∈ s.path.posted → ¬ waits .orderIntake → s.beginTake = { s with
        intake := { i with take := .reading },
        path := s.path.issue .orderIntake (s.settings.controlBase + 0x800) (leBytes 4 (s.slotSeq i.expected).toNat) none })
    ∧ (s.meterWaits = true ↔ waits .meter ∨ s.meter.work ≠ [])
    ∧ (∀ b : Bool,
      let t := runWork s.meter.work.length s
      (b = false ∨ t.meterWaits = true → s.resumeMeter b = t)
      ∧ (b = true → t.meterWaits = false → s.resumeMeter b = t.arbiterPasses))
    ∧ (∀ n, s.meter.work = [] ∨ waits .meter → runWork n s = s)
    ∧ (∀ n w rest, s.meter.work = w :: rest → ¬ waits .meter → runWork (n + 1) s = runWork n (s.finishWork w))
    ∧ s.resumeReporter = takeGiven s.reporter.given.length s
    ∧ (∀ n, s.reporter.given = [] ∨ waits .eventReporter → takeGiven n s = s)
    ∧ (∀ n v rest, s.reporter.given = v :: rest → ¬ waits .eventReporter → takeGiven (n + 1) s =
        takeGiven n (State.takeEventConsumer { s with reporter := { s.reporter with given := rest } } v))
    ∧ s.resumeUnits = [UnitId.lu0, .lu1, .lu2, .lu3].foldl (fun t u => t.settleVerdict u) s
    ∧ (s.print.sheet = .sheetStarted → s.print.state = .printing → s.resumePrintRead = s.advanceSheet)
    ∧ (s.print.sheet ≠ .sheetStarted ∨ s.print.state ≠ .printing → s.resumePrintRead = s)
    ∧ (s.path.bus = .free → s.resumeHost = s)
    ∧ (∀ a n, s.path.bus = .heldRead a n →
      (s.path.blocked a n = true ∨ waits .memoryPath → s.resumeHost = s)
      ∧ (s.path.blocked a n = false → ¬ waits .memoryPath → s.resumeHost = { s with
          path := { s.path with bus := .free, result := .data (s.mem.readBytes a n) } }))
    ∧ (∀ gs err, s.path.bus = .heldWrite gs err → s.resumeHost = runSegs gs err s)
    ∧ (∀ w g rest err, s.path.bus = .windowHold w g rest err →
      (waits .memoryPath → s.resumeHost = s)
      ∧ (¬ waits .memoryPath → s.resumeHost = runSegs (g :: rest) err s))
    ∧ (∀ err : Bool, runSegs [] err s = { s with
        path := { s.path with bus := .free, result := if err then .busError else .written } })
    ∧ ∀ (g : Seg) rest err, g.addr + g.lanes.length ≤ memBytes s.memSize → s.hostArea g.addr = .pass →
      (s.path.blocked g.addr g.lanes.length = true ∨ waits .memoryPath → runSegs (g :: rest) err s = { s with
        path := { s.path with bus := .heldWrite (g :: rest) err } })
      ∧ (s.path.blocked g.addr g.lanes.length = false → ¬ waits .memoryPath → runSegs (g :: rest) err s =
        runSegs rest err { s with mem := s.mem.writeLanes g.addr g.lanes }))
  ∧ ∀ (p : MemPath) (blk : Block) (a : Nat) (bs : List Byte) (c : Option Nat),
    let room := 16 - p.queue.length
    ∃ ws : List PendingWrite,
      (p.waiting = [] → p.issue blk a bs c = { p with queue := p.queue ++ ws.take room, waiting := ws.drop room })
      ∧ (p.waiting ≠ [] → p.issue blk a bs c = { p with waiting := p.waiting ++ ws })
      ∧ ws.flatMap (fun w => w.bytes) = bs
      ∧ ∀ before w after, ws = before ++ w :: after →
        let n := min 64 (4096 - w.addr % 4096)
        w.blk = blk ∧ w.clears = c ∧ w.addr = a + (before.flatMap (fun x => x.bytes)).length
        ∧ 1 ≤ w.bytes.length ∧ w.bytes.length ≤ n ∧ (after ≠ [] → w.bytes.length = n)

/-- Bytes written to page memory read back, and every other byte stays. -/
def Obligations.WrittenBytesReadBack : Prop :=
  ∀ (m : Memory) (a : Nat) (bs : List Byte), m.wf = true →
    (m.writeBytes a bs).wf = true
    ∧ (∀ i, i < bs.length → some ((m.writeBytes a bs).read (a + i)) = bs[i]?)
    ∧ (∀ x, x < a ∨ a + bs.length ≤ x → (m.writeBytes a bs).read x = m.read x)

/-- The arbiter's choice: an urgent unit stream first, from the urgent marker on, and the marker then names the
unit after it; otherwise the host; otherwise the next requester of the cycle; with nothing presented nothing
changes. A read that a pending write holds, and a write behind an older one that overlaps it, are not presented, and
neither is a host access that is held (R61). The reads that can be held are those of the slot, the Setup Block, SEND's
destination records, LOAD TARIFF's area, and the stored lines of the print decoder and of a caller's transmit recoder.
A caller's stream is urgent while its transmit FIFO holds fewer than 256 bytes, an answerer's while its receive FIFO
holds more than 768.
Where the manual leaves it to the model: log entries 12, 14, 16 and 69. -/
def Obligations.PortGrantFollowsTheArbiter : Prop :=
  ∀ (s : State) (rs : List Requester),
    let ps := rs.filter s.mayPresent
    let urgent (u : UnitId) : Prop := .unit u ∈ ps ∧ (s.unit u).urgent = true
    (∀ u,
      let l := s.unit u
      let held := l.rxFifo.countP (fun i => match i with
        | .byte _ => true
        | _ => false)
      l.urgent = true ↔ (l.role = some .caller ∧ l.txFifo.length < 256) ∨ (l.role = some .answerer ∧ 768 < held))
    ∧ (∀ u, urgent u →
      (∀ v, urgent v → (unitNum u + 4 - unitNum s.path.urgent) % 4 ≤ (unitNum v + 4 - unitNum s.path.urgent) % 4) →
      exec (.portGrant rs) s = .next { s with
        path := { s.path with urgent := unitAfter u, granted := some (.unit u) } })
    ∧ ((∀ u, ¬ urgent u) → .host ∈ ps →
      exec (.portGrant rs) s = .next { s with path := { s.path with granted := some .host } })
    ∧ ((∀ u, ¬ urgent u) → .host ∉ ps → ∀ r k, r ∈ ps → cyclePlace r = some k → s.path.cycle < 12 →
      (∀ r' k', r' ∈ ps → cyclePlace r' = some k' →
        (k + 12 - s.path.cycle) % 12 ≤ (k' + 12 - s.path.cycle) % 12) →
      exec (.portGrant rs) s = .next { s with
        path := { s.path with cycle := (k + 1) % 12, granted := some r } })
    ∧ (ps = [] → exec (.portGrant rs) s = .next s)
    ∧ (s.path.bus ≠ .free → .host ∉ ps)
    ∧ (∀ r ∈ ps, r ≠ .host → s.writeWaits (requesterBlock r) = false)
    ∧ (∀ u, .unit u ∈ ps → s.readHeld (.unit u) = false)
    ∧ (∀ r ∈ ps, s.readHeld r = true → s.writeReady (requesterBlock r) = true)
    ∧ (s.path.queue = [] → ∀ r ∈ ps, s.readHeld r = false)
    ∧ (s.readHeld .orderIntake = true ↔
        s.intake.take = .reading ∧ s.path.blocked (s.slotAddr s.intake.expected) 64 = true)
    ∧ (s.readHeld .memoryPath = true ↔ s.part = .setup ∧ s.path.blocked 0x40 0x110 = true)
    ∧ (s.readHeld .sendQueue = true ↔
        let n := s.body 12 2
        s.takes .send = true ∧ priorityOf (s.body 2 1) ≠ none ∧ s.body 1 1 ≤ 15 ∧ 1 ≤ n ∧ n ≤ 256
        ∧ s.body 8 4 + 32 * n ≤ memBytes s.memSize
        ∧ (∃ r, s.doc (s.body 0 1) = some r ∧ r.state = .closed ∧ r.deletePending = false)
        ∧ n ≤ 512 - s.sendq.entries.length + s.sendq.finals.length
        ∧ s.path.blocked (s.body 8 4) (32 * n) = true)
    ∧ (s.readHeld .meter = true ↔ s.takes .loadTariff = true ∧ s.body 0 4 + 1588 ≤ memBytes s.memSize
        ∧ s.path.blocked (s.body 0 4) 1588 = true)
    ∧ (s.readHeld .printEngine = true ↔ s.print.sheet = .sheetStarted ∧ s.print.state = .printing
        ∧ ∃ d, s.print.decoder = some d ∧ s.headHeld d = true)
    ∧ (∀ u, s.readHeld (.unit u) = true ↔ (s.unit u).role = some .caller ∧ s.txHeld (s.unit u).tx = true)
    ∧ (∀ r, r = .host ∨ r = .pageCoder ∨ r = .eventReporter ∨ r = .dump → s.readHeld r = false)

/-! ## Orders: the take and its answer -/

/-- A take finishes with the result and its values, then the sequence field, then the cleared post word, issued
in this order, and ORDER_DONE is asked for ahead of what follows from the order, which is the model's choice (log entry
68). The take is FINISHING until the clearing write has been issued (R61, R67); then the expected slot advances, and its
take begins if it is posted.
Where the manual leaves it to the model: log entries 16 and 68. -/
def Obligations.FinishedTakeWritesItsResult : Prop :=
  ∀ (s : State) (kind : Byte) (r : Result) (vs : List Nat),
    s.settings.controlBase % 4096 = 0 → s.intake.expected < 32 → s.path.waiting = [] →
    let n := s.intake.expected
    let q := s.slotSeq n
    let w (off : Nat) (bs : List Byte) (c : Option Nat) : PendingWrite :=
      { blk := .orderIntake, addr := s.settings.controlBase + 64 * n + off, bytes := bs, clears := c }
    let ws := [w 12 ([byteOf (resultCode r), 0, 0, 0] ++ resultWords vs) none, w 8 (leBytes 4 q.toNat) none,
      w 4 [0, 0, 0, 0] (some n)]
    let m := (n + 1) % 32
    let room := 16 - s.path.queue.length
    let asked : State := { s with
      path := { s.path with queue := s.path.queue ++ ws.take room, waiting := ws.drop room },
      reporter := { s.reporter with postings := s.reporter.postings ++ [⟨.orderIntake, .orderDone n kind r q vs⟩] } }
    let s1 : State := { asked with intake := { s.intake with expected := m, take := .waiting, finish := none } }
    (room < 3 → s.finishTake kind r vs = { asked with intake := { s.intake with
        take := .finishing, finish := some { kind := kind, result := r, seq := q, values := vs } } })
    ∧ (3 ≤ room → m ∉ s.path.posted → s.finishTake kind r vs = s1)
    ∧ (3 ≤ room → m ∈ s.path.posted → s.finishTake kind r vs = { s1 with
        intake := { s1.intake with take := .reading },
        path := s1.path.issue .orderIntake (s.settings.controlBase + 0x800) (leBytes 4 (s1.slotSeq m).toNat) none })

/-- An order of unknown kind is answered BAD_ORDER with the kind byte as read. An order command whose order is
not the one the slot read returned has no effect, which is the model's choice (log entry 10); nor has one whose slot
read is held behind a pending write (R61, log entry 12) or whose owner has a write that waits for room (R61, log entry
16). -/
def Obligations.OrdersActAtTheirTake : Prop :=
  (∀ s : State, s.takeReady = true → unknownKind s.slotKind = true →
    exec .unknownOrder s = .next (s.finishTake s.slotKind .badOrder []))
  ∧ (∀ s : State, s.takeReady = false ∨ unknownKind s.slotKind = false → exec .unknownOrder s = .next s)
  ∧ ∀ (s : State) (p : OrderKind × Instr),
    p ∈ [(OrderKind.scan, Instr.scan), (.openWindowPage, .openWindowPage), (.closeWindowPage, .closeWindowPage),
         (.closeDocument, .closeDocument), (.keep, .keep), (.release, .release),
         (.deleteDocument, .deleteDocument), (.send, .send), (.cancel, .cancel), (.print, .print),
         (.cancelPrint, .cancelPrint), (.screenAdd, .screenAdd), (.screenRemove, .screenRemove),
         (.screenClear, .screenClear), (.sweep, .sweep), (.screenMode, .screenMode), (.setClock, .setClock),
         (.loadTariff, .loadTariff), (.setDesk, .setDesk), (.closePeriod, .closePeriod),
         (.auditClear, .auditClear), (.flushMeter, .flushMeter), (.lineMode, .lineMode), (.dump, .dump),
         (.restart, .restart)] →
    s.takes p.1 = false → exec p.2 s = .next s

/-! ## Orders on documents -/

/-- KEEP, RELEASE, CLOSE DOCUMENT and DELETE DOCUMENT by the cases of their tables. A forced deletion clears keep,
marks the record, and ends the document's send entries and then its print entries, each in ascending number, which for
the print entries is the model's choice; a pending sheet begin is asked again after an order that may return blocks.
Where the manual leaves it to the model: log entries 28 and 58. -/
def Obligations.DocumentOrdersFollowTheirTables : Prop :=
  ∀ (s : State) (r : Doc),
    let d := s.body 0 1
    let keep (b : Bool) : State := s.modDoc d (fun x => { x with keep := b })
    (s.takes .keep = true →
      (s.doc d = none → exec .keep s = .next (s.answer .keep .noSuch []))
      ∧ (s.doc d = some r → r.deletePending = true → exec .keep s = .next (s.answer .keep .state []))
      ∧ (s.doc d = some r → r.deletePending = false → r.keep = true →
          exec .keep s = .next (s.answer .keep .already []))
      ∧ (s.doc d = some r → r.deletePending = false → r.keep = false →
          exec .keep s = .next ((keep true).answer .keep .accepted [])))
    ∧ (s.takes .release = true →
      (s.doc d = none → exec .release s = .next (s.answer .release .noSuch []).scanRetry)
      ∧ (s.doc d = some r → r.keep = false → exec .release s = .next (s.answer .release .already []).scanRetry)
      ∧ (s.doc d = some r → r.keep = true → r.state = .closed ∧ r.sendRefs = 0 ∧ r.printRefs = 0 →
          exec .release s = .next (((keep false).freeDoc d).answer .release .accepted []).scanRetry)
      ∧ (s.doc d = some r → r.keep = true → ¬ (r.state = .closed ∧ r.sendRefs = 0 ∧ r.printRefs = 0) →
          exec .release s = .next ((keep false).answer .release .accepted []).scanRetry))
    ∧ (s.takes .closeDocument = true →
      (s.doc d = none → exec .closeDocument s = .next (s.answer .closeDocument .noSuch []).scanRetry)
      ∧ (s.doc d = some r → r.state = .closed →
          exec .closeDocument s = .next (s.answer .closeDocument .already []).scanRetry)
      ∧ (s.doc d = some r → r.state = .opened → r.attached = true →
          exec .closeDocument s = .next (s.answer .closeDocument .busy []).scanRetry)
      ∧ (s.doc d = some r → r.state = .opened → r.attached = false →
          exec .closeDocument s = .next ((s.closeDocument d false).answer .closeDocument .accepted []).scanRetry))
    ∧ (s.takes .deleteDocument = true →
      let say (t : State) (v : Result) : Host.Outcome State Fault Refusal :=
        .next (t.answer .deleteDocument v []).scanRetry
      (s.doc d = none → exec .deleteDocument s = say s .noSuch)
      ∧ (s.doc d = some r → r.state = .opened → exec .deleteDocument s = say s .state)
      ∧ (s.doc d = some r → r.state = .closed → r.deletePending = true → exec .deleteDocument s = say s .already)
      ∧ (s.doc d = some r → r.state = .closed → r.deletePending = false → r.sendRefs ≠ 0 ∨ r.printRefs ≠ 0 →
          s.body 1 1 = 0 → exec .deleteDocument s = say s .busy)
      ∧ (s.doc d = some r → r.state = .closed → r.deletePending = false → r.sendRefs = 0 ∧ r.printRefs = 0 →
          exec .deleteDocument s = say (s.freeDoc d) .accepted)
      ∧ (s.doc d = some r → r.state = .closed → r.deletePending = false → r.sendRefs ≠ 0 ∨ r.printRefs ≠ 0 →
          s.body 1 1 ≠ 0 → exec .deleteDocument s = say (s.forceDelete d) .accepted))
    ∧ (∀ k : Nat,
      let sends := s.entryIds (fun e => decide (e.document = k) && !e.state.final)
      let prints := (s.print.entries.filter (fun x => decide (x.2.document = k))).map (fun x => x.1)
      let marked := s.modDoc k (fun x => { x with keep := false, deletePending := true })
      s.forceDelete k = prints.foldl (fun t i => t.cancelPrintEntry i) (sends.foldl (fun t i => t.cancelEntry i) marked))
    ∧ ∀ (i : Nat) (e : PrintEntry), s.printEntry i = some e →
      let stop := s.modPrintEntry i (fun x => { x with stopRequested := true })
      (e.stopRequested = true → s.cancelPrintEntry i = s)
      ∧ (e.stopRequested = false → e.state = .waiting ∨ s.print.sheet = .noSheet →
          s.cancelPrintEntry i = ((s.printDone i .cancelled).recomputePrinter none).printSelect)
      ∧ (e.stopRequested = false → e.state = .printing → s.print.sheet = .sheetStarted →
          s.cancelPrintEntry i = { stop with
            print := { stop.print with sheet := .feedingOut, out := stop.print.out ++ [.sheetOut] } })
      ∧ (e.stopRequested = false → e.state = .printing → s.print.sheet = .lineInFlight ∨ s.print.sheet = .feedingOut →
          s.cancelPrintEntry i = stop)

/-- A document that passes the test of R14 is freed: its record and its pages' records go, its blocks join the
tail of the free list in page order, with link entry "none", and DOC_FREED is asked for; one that does not pass
stays as it is. A document closes with DOC_CLOSED and its window unbound; where it has no pages, the print entries that
wait at their first page end with it, in ascending number, which is the model's choice; the current entry reads again, a
selection follows, and the document is tested for freeing. A page
that is abandoned leaves its document's list, its record is free, and its blocks join the tail of the free list.
Where the manual leaves it to the model: log entry 58. -/
def Obligations.DocumentClosesAndIsFreed : Prop :=
  (∀ (s : State) (p : Nat) (x : PageRec), s.page p = some x →
    let bs := s.store.chain x
    let t := s.abandonPage p
    (∀ q, t.page q = if q = p then none else s.page q)
    ∧ t.store.docs = tmod s.store.docs x.document (fun y => { y with pages := y.pages.filter (fun q => q ≠ p) })
    ∧ t.store.free = s.store.free ++ bs ∧ (∀ b ∈ bs, tget t.store.links b = none)
    ∧ (∀ b, b ∉ bs → tget t.store.links b = tget s.store.links b)
    ∧ t.store.base = s.store.base ∧ t.store.blockCount = s.store.blockCount
    ∧ (∀ i, let w := (s.source i).wait
        t.source i = { s.source i with
          wait := if w = some .pageRecord ∨ (w = some .block ∧ bs ≠ []) then none else w })
    ∧ t = { s with store := t.store, coder := t.coder } ∧ t.coder.marker = s.coder.marker)
  ∧ ∀ (s : State) (d : Nat) (r : Doc), s.doc d = some r →
    let bs := s.blocksOf r.pages
    let t := s.testFree d
    (r.freeable = false → t = s)
    ∧ (r.freeable = true →
      t.doc d = none ∧ (∀ e, e ≠ d → t.doc e = s.doc e)
      ∧ (∀ p, t.page p = if p ∈ r.pages then none else s.page p)
      ∧ t.store.free = s.store.free ++ bs ∧ (∀ b ∈ bs, tget t.store.links b = none)
      ∧ t.store.base = s.store.base ∧ t.store.blockCount = s.store.blockCount
      ∧ t = { s with store := t.store, coder := t.coder, reporter := { s.reporter with
          postings := s.reporter.postings ++ [⟨.pageStore, .docFreed d r.pages.length bs.length⟩] } })
    ∧ (∀ b : Bool,
      let off (x : Window) : Window :=
        if x.document = some d then { x with document := none, pagesExpected := 0, pagesEnded := 0 } else x
      let c := State.post { s with
        store := { s.store with docs := tmod s.store.docs d (fun x =>
          { x with state := .closed, truncated := b, attached := false }) },
        path := { s.path with win := ⟨off s.path.win.w0, off s.path.win.w1⟩ } } .pageStore
          (.docClosed d r.origin r.pages.length b r.notQueued r.total)
      let ends := (s.print.entries.filter (fun x => x.2.document = d ∧ x.2.state = .waiting ∧ x.2.pageIndex = 0)).map
        (fun x => x.1)
      (r.pages ≠ [] → s.closeDocument d b = ((c.rereadCurrent d none).printSelect).testFree d)
      ∧ (r.pages = [] → s.closeDocument d b =
        (((ends.foldl (fun t i => t.finishEmpty i) c).rereadCurrent d none).printSelect).testFree d)
      ∧ (s.print.entries = [] → s.print.current = none → s.closeDocument d b = c.testFree d))
    ∧ (∀ i, s.finishEmpty i = (s.modPrintEntry i (fun x =>
        { x with copiesPrinted := x.copiesPrinted + x.copiesLeft, copiesLeft := 0 })).printDone i .complete)
    ∧ (s.print.current = none → ∀ q, s.rereadCurrent d q = s)

/-- A page opens for a producer: refused when its document is full or closed, when the document has a page
FILLING, when no page record or no block is free; else the lowest free record is FILLING at the end of the
document's list, with the head of the free list as its first block. A CLOSED document is answered DOC_FULL, which is
the model's choice (log entry 54). -/
def Obligations.PageOpensWithItsFirstBlock : Prop :=
  ∀ (s : State) (d : Nat) (r : Doc) (w : Width) (v : Resolution), s.doc d = some r →
    (250 ≤ r.pages.length ∨ r.state = .closed → s.openPage d w v = .refused .docFull)
    ∧ (r.pages.length < 250 → r.state = .opened →
      (s.fillingPage d ≠ none → s.openPage d w v = .refused .docBusy)
      ∧ (s.fillingPage d = none → lowestFree 1024 s.store.pages = none → s.openPage d w v = .refused .noPage)
      ∧ (∀ p, s.fillingPage d = none → lowestFree 1024 s.store.pages = some p → s.store.free = [] →
          s.openPage d w v = .refused .noBlock)
      ∧ (∀ p b rest, s.fillingPage d = none → lowestFree 1024 s.store.pages = some p → s.store.free = b :: rest →
          ∃ t : State, s.openPage d w v = .opened p t
            ∧ t = { s with store := t.store } ∧ t.store.base = s.store.base
            ∧ t.store.blockCount = s.store.blockCount ∧ t.store.free = rest
            ∧ t.store.links = tdel s.store.links b
            ∧ t.store.docs = tmod s.store.docs d (fun x => { x with pages := x.pages ++ [p] })
            ∧ (∀ q, t.page q = if q = p then some
                { state := .filling, document := d, position := r.pages.length, origin := r.origin, width := w,
                  resolution := v, lines := 0, coded := 0, first := b, last := b, blocks := 1, clipped := false }
              else s.page q)))

/-! ## Orders that scan, print, and open windows -/

/-- SCAN by the cases of its table: an accepted one opens a document, starts the session in FEEDING with its
counts 0, sends the mode, and keeps the document or asks for its print entry. -/
def Obligations.ScanOpensASession : Prop :=
  ∀ s : State, s.takes .scan = true →
    let desk := s.body 0 1
    let copies := max 1 (min 9 (s.body 4 1))
    (widthOf (s.body 1 1) = none ∨ resolutionOf (s.body 2 1) = none ∨ scanTargetOf (s.body 3 1) = none ∨ 15 < desk →
      exec .scan s = .next (s.answer .scan .badOrder []))
    ∧ ∀ w v t, widthOf (s.body 1 1) = some w → resolutionOf (s.body 2 1) = some v →
      scanTargetOf (s.body 3 1) = some t → desk ≤ 15 →
      let open_ : Prop := s.scanner.state = .idle ∧ s.scanner.jam = false ∧ s.scanner.sheetPresent = true
        ∧ ¬ (t = .sendReady ∧ s.deskClosed desk = true)
      (¬ open_ → exec .scan s = .next (s.answer .scan .state []))
      ∧ (open_ → lowestFree 256 s.store.docs = none ∨ lowestFree 1024 s.store.pages = none →
          exec .scan s = .next (s.answer .scan .full []))
      ∧ (open_ → lowestFree 1024 s.store.pages ≠ none → ∀ d, lowestFree 256 s.store.docs = some d →
          let doc : Doc :=
            { state := .opened, origin := .scan, desk := desk, pages := [], keep := false, sendRefs := 0,
              printRefs := 0, truncated := false, notQueued := false, deletePending := false, created := s.now,
              station := none, total := 0, attached := true }
          let s1 : State := { s with
            store := { s.store with docs := tset s.store.docs d doc },
            scanner := { s.scanner with
              state := .feeding, before := .feeding, document := some d, desk := desk, target := t,
              copies := copies, width := w, resolution := v, sheetsBegun := 0, pagesSealed := 0,
              linesTaken := 0, widthFaults := 0, overruns := 0, beginPending := false, endPending := false,
              lastSheet := false, hold := false, fullPause := false, ackPending := true,
              out := s.scanner.out ++ [.mode w v] } }
          exec .scan s = .next ((if t = .copy then s1.requestPrint d copies .ordinary
            else s1.modDoc d (fun x => { x with keep := true })).answer .scan .accepted [d]))

/-- OPEN WINDOW PAGE by the cases of its table: NEW binds the window to a new document; an opened page makes
the window OPEN with the order's fields and empty slots; a refused open leaves the document detached. The fields stand
at their places in the slot's body; an unknown mode, width class or resolution, or a desk above 15, gives no order; the
pages expected and the lines expected are clamped; and a window number names a RASTER region where there are so many.
Where the manual leaves it to the model: log entries 35 and 76. -/
def Obligations.OpenWindowPageFollowsItsTable : Prop :=
  (∀ s : State,
    let f (off n : Nat) : Nat := s.readNum (s.settings.controlBase + 64 * s.intake.expected + 32 + off) n
    let mode : WindowMode → Nat
      | .fixed => 1
      | .indexed => 2
    let wide : Width → Nat
      | .narrow => 1
      | .standard => 2
      | .broad => 3
    let fine : Resolution → Nat
      | .normal => 1
      | .fine => 2
    (∀ off n, s.body off n = f off n)
    ∧ (∀ o, s.windowOrder = some o ↔ f 4 1 ≤ 15 ∧ f 6 1 = mode o.mode ∧ f 7 1 = wide o.width
      ∧ f 8 1 = fine o.resolution ∧ o.document = f 2 2 ∧ o.desk = f 4 1 ∧ o.pages = min 250 (f 5 1)
      ∧ o.lines = min 8191 (f 10 2))
    ∧ ∀ n w, s.namedWindow n = some w ↔
        n = windowNum w ∧ n < s.path.regions.countP (fun x => decide (x.2.treatment = .raster)))
  ∧ ∀ s : State, s.takes .openWindowPage = true →
    let say (t : State) (v : Result) (vs : List Nat) : Host.Outcome State Fault Refusal :=
      .next (t.answer .openWindowPage v vs)
    (s.namedWindow (s.body 0 1) = none → exec .openWindowPage s = say s .noSuch [])
    ∧ ∀ w, s.namedWindow (s.body 0 1) = some w →
      (s.windowOrder = none → exec .openWindowPage s = say s .badOrder [])
      ∧ ∀ o, s.windowOrder = some o →
        let x := s.window w
        let rest : Prop := x.state = .idle ∧ x.sealPending = false
        let begins (s1 : State) (d : Nat) : Prop :=
          (∀ e, s1.openPage d o.width o.resolution = .refused e → exec .openWindowPage s =
            say (s1.modDoc d (fun y => { y with attached := false })) .full [d])
          ∧ (∀ p t, s1.openPage d o.width o.resolution = .opened p t → exec .openWindowPage s =
            say (((t.modSource (.win w) (fun y => { y with
                page := some p, document := d, width := o.width, resolution := o.resolution, ref := [] })).modWindow w
              (fun y => { y with
                state := .opened, page := some p, mode := o.mode, width := o.width, resolution := o.resolution,
                lineBytes := match o.width with
                  | .narrow => 128
                  | .standard => 216
                  | .broad => 256,
                linesExpected := o.lines, linesRemaining := o.lines, linesHanded := 0,
                slotA := ⟨.empty, [], []⟩, slotB := ⟨.empty, [], []⟩, next := .a })).modDoc d
              (fun y => { y with attached := true })) .accepted [d, p])
        (¬ rest → exec .openWindowPage s = say s .busy [])
        ∧ (rest → o.document = 0xFFFF → x.document ≠ none → exec .openWindowPage s = say s .state [])
        ∧ (rest → o.document ≠ 0xFFFF → x.document ≠ some o.document → exec .openWindowPage s = say s .noSuch [])
        ∧ (rest → o.document = 0xFFFF → x.document = none → s.openDoc .window o.desk none = none →
            exec .openWindowPage s = say s .full [])
        ∧ (rest → o.document = 0xFFFF → x.document = none → ∀ d t, s.openDoc .window o.desk none = some (d, t) →
            begins (t.modWindow w (fun y => { y with document := some d, pagesExpected := o.pages, pagesEnded := 0 })) d)
        ∧ (rest → o.document ≠ 0xFFFF → x.document = some o.document → begins s o.document)

/-- CLOSE WINDOW PAGE by its cases; an OPEN window with no line begun ends its page at once. A line begun in the next
slot, whole or in part, is handed first, white behind its bytes, and then one begun in the other slot, while a counted
page has lines left; a whole line that stands in the other slot with none begun in the next is handed too, which is the
model's reading of a line out of turn.
Where the manual leaves it to the model: log entry 24. -/
def Obligations.CloseWindowPageHandsItsLine : Prop :=
  ∀ s : State, s.takes .closeWindowPage = true →
    (s.namedWindow (s.body 0 1) = none →
      exec .closeWindowPage s = .next (s.answer .closeWindowPage .noSuch []))
    ∧ ∀ w, s.namedWindow (s.body 0 1) = some w →
      let x := s.window w
      let i := x.next
      let j := otherSlot i
      let quiet (k : SlotId) : Prop := (x.slot k).state = .empty ∨ (x.slot k).state = .coding
      let begun (k : SlotId) : Prop := (x.slot k).state = .filling ∨ (x.slot k).state = .complete
      let last : Prop := x.linesExpected ≠ 0 ∧ x.linesRemaining ≤ 1
      let ended (t : State) : State := (t.modWindow w (fun y => { y with sealPending := true, state := .idle })).modSource
        (.win w) (fun y => { y with endSignal := true })
      let hand (k : SlotId) (t : State) : State := (t.modWindow w (fun y =>
        let z := y.setSlot k { state := .coding, bytes := fitBytes y.lineBytes (y.slot k).bytes, marks := [] }
        { z with
          next := otherSlot k, linesHanded := min 4294967295 (y.linesHanded + 1),
          linesRemaining := if y.linesExpected = 0 then y.linesRemaining else y.linesRemaining - 1 })).modSource
        (.win w) (fun y => { y with queue := y.queue ++ [slotNum k] })
      let closes (t : State) : Prop := exec .closeWindowPage s = .next ((ended t).answer .closeWindowPage .accepted [])
      (x.state = .idle → exec .closeWindowPage s = .next (s.answer .closeWindowPage .state []))
      ∧ (x.state = .holding → exec .closeWindowPage s = .next (s.answer .closeWindowPage .busy []))
      ∧ (x.state = .opened →
        (quiet i → quiet j → closes s)
        ∧ (begun i → quiet j ∨ last → closes (hand i s))
        ∧ (quiet i → begun j → closes (hand j s))
        ∧ (begun i → begun j → ¬ last → closes (hand j (hand i s))))

/-- PRINT and CANCEL PRINT by the cases of their tables: a new entry behind the others, the document's print
references one up; a started sheet is fed out first, any other entry ends at once. A pending sheet begin is asked
again at the order's end.
Where the manual leaves it to the model: log entry 28. -/
def Obligations.PrintOrdersFollowTheirTables : Prop :=
  ∀ s : State,
    (s.takes .print = true →
      let d := s.body 0 1
      let copies := max 1 (min 9 (s.body 1 1))
      let say (t : State) (v : Result) (vs : List Nat) : Host.Outcome State Fault Refusal :=
        .next (t.answer .print v vs).scanRetry
      (printPriorityOf (s.body 2 1) = none → exec .print s = say s .badOrder [])
      ∧ ∀ p, printPriorityOf (s.body 2 1) = some p →
        (s.doc d = none → exec .print s = say s .noSuch [])
        ∧ ∀ r, s.doc d = some r →
          (r.deletePending = true → exec .print s = say s .state [])
          ∧ (r.deletePending = false → lowestFree 64 s.print.entries = none → exec .print s = say s .full [])
          ∧ (∀ i, r.deletePending = false → lowestFree 64 s.print.entries = some i →
            let e : PrintEntry :=
              { document := d, priority := p, arrival := s.print.arrivals + 1, copiesLeft := copies,
                copiesPrinted := 0, state := .waiting, pageIndex := 0, stopRequested := false, ejected := 0 }
            let s1 : State := ({ s with print := { s.print with
              arrivals := s.print.arrivals + 1, entries := tset s.print.entries i e } }).modDoc d
              (fun x => { x with printRefs := x.printRefs + 1 })
            (r.state = .opened ∨ r.pages ≠ [] → exec .print s = say s1.printSelect .accepted [i])
            ∧ (r.state = .closed → r.pages = [] → exec .print s = say (s1.finishEmpty i).printSelect .accepted [i])))
    ∧ (s.takes .cancelPrint = true →
      let i := s.body 0 1
      let say (t : State) (v : Result) : Host.Outcome State Fault Refusal :=
        .next (t.answer .cancelPrint v []).scanRetry
      let stop := s.modPrintEntry i (fun x => { x with stopRequested := true })
      (s.printEntry i = none → exec .cancelPrint s = say s .noSuch)
      ∧ ∀ e, s.printEntry i = some e →
        (e.stopRequested = true → exec .cancelPrint s = say s .already)
        ∧ (e.stopRequested = false → e.state = .waiting ∨ s.print.sheet = .noSheet →
            exec .cancelPrint s = say (((s.printDone i .cancelled).recomputePrinter none).printSelect) .accepted)
        ∧ (e.stopRequested = false → e.state = .printing → s.print.sheet = .sheetStarted →
            exec .cancelPrint s = say { stop with
              print := { stop.print with sheet := .feedingOut, out := stop.print.out ++ [.sheetOut] } } .accepted)
        ∧ (e.stopRequested = false → e.state = .printing → s.print.sheet = .lineInFlight ∨ s.print.sheet = .feedingOut →
            exec .cancelPrint s = say stop .accepted))

/-! ## Send Queue -/

/-- SEND by the cases of its table: an accepted order raises the document's send references by the count, makes
its entries in record order, and is answered before the arbiter's passes. While a pending write overlaps its records
their read is held, and nothing happens (R61).
Where the manual leaves it to the model: log entries 12 and 40. -/
def Obligations.SendMakesItsEntries : Prop :=
  ∀ s : State, s.takes .send = true →
    let d := s.body 0 1
    let desk := s.body 1 1
    let base := s.body 8 4
    let n := s.body 12 2
    let say (v : Result) : Host.Outcome State Fault Refusal := .next (s.answer .send v [])
    let bad : Prop := 15 < desk ∨ n = 0 ∨ 256 < n ∨ memBytes s.memSize < base + 32 * n
    (priorityOf (s.body 2 1) = none ∨ bad → exec .send s = say .badOrder)
    ∧ ∀ p, priorityOf (s.body 2 1) = some p → ¬ bad →
      (s.doc d = none → exec .send s = say .noSuch)
      ∧ ∀ r, s.doc d = some r →
        (r.state = .opened ∨ r.deletePending = true → exec .send s = say .state)
        ∧ (r.state = .closed → r.deletePending = false →
          let free := 512 - s.sendq.entries.length
          (free + s.sendq.finals.length < n → exec .send s = say .full)
          ∧ (n ≤ free + s.sendq.finals.length → s.path.blocked base (32 * n) = true → exec .send s = .next s)
          ∧ (n ≤ free + s.sendq.finals.length → s.path.blocked base (32 * n) = false →
            (s.destinations base n = none → exec .send s = say .badOrder)
            ∧ ∀ numbers, s.destinations base n = some numbers →
              let o : SendOrder :=
                { document := d, desk := desk, priority := p, maxAttempts := max 1 (min 15 (s.body 3 1)),
                  retryInterval := max 1 (min 60 (s.body 4 1)), embargo := min 1440 (s.body 6 2),
                  orderSeq := s.slotSeq s.intake.expected }
              exec .send s = .next ((((s.modDoc d (fun x => { x with
                sendRefs := x.sendRefs + numbers.length })).makeEntries o numbers).answer .send .accepted
                [numbers.length, numbers.length - free]).arbiterPasses)
              ∧ (∀ t : State, t.makeEntries o [] = t ∧ ∀ x xs, t.makeEntries o (x :: xs) = (t.makeEntry o x).makeEntries o xs)
              ∧ numbers.length = n
              ∧ ∀ k, k < n → numbers[k]? = s.destination (base + 32 * k)))

/-- The number of a destination record is read as a text field of 25 bytes: 1 to 24 dial characters. An entry
takes the lowest free number or overwrites the head of the final list; with no embargo it is READY behind every
other and is tested against its desk, else it counts down 120 half-seconds a minute.
Where the manual leaves it to the model: log entries 3 and 66. -/
def Obligations.EntryIsMadeFromItsRecord : Prop :=
  (∀ (s : State) (o : SendOrder) (number : Text) (i : Nat),
    lowestFree 512 s.sendq.entries = some i
      ∨ (lowestFree 512 s.sendq.entries = none ∧ s.sendq.finals.head? = some i) →
    let e : DestEntry :=
      { orderSeq := o.orderSeq, document := o.document, desk := o.desk, priority := o.priority, number := number,
        zone := none, state := .waiting, attempts := 0, maxAttempts := o.maxAttempts,
        retryInterval := o.retryInterval, readyTime := 0, countdown := 120 * o.embargo, nextAttempt := Stamp.zero,
        lastResult := none, confirmed := 0, unit := none, chargeTotal := 0, attemptCharge := 0,
        heldReported := false, cancelPending := false }
    let q : SendQueue := { s.sendq with finals := s.sendq.finals.filter (fun k => k ≠ i) }
    (o.embargo ≠ 0 → s.makeEntry o number = { s with sendq := { q with entries := tset s.sendq.entries i e } })
    ∧ (o.embargo = 0 → s.makeEntry o number = State.testDesk { s with sendq := { q with
        entries := tmod (tset s.sendq.entries i e) i (fun x =>
          { x with state := .ready, readyTime := s.sendq.readySeq, countdown := 0 }),
        readySeq := s.sendq.readySeq + 1 } } i))
  ∧ ∀ (s : State) (a : Nat) (t : Text), s.destination a = some t ↔
      (s.readByte a).toNat ≤ 24 ∧ t = s.readThrough (a + 1) (s.readByte a).toNat ∧ t ≠ []
        ∧ ∀ c ∈ t, isDial c = true

/-- CANCEL by entry id and by order sequence: an entry at rest is CANCELLED at once with its DEST_RESULT, joins
the final list and releases its document; an ACTIVE one is marked and its unit aborts. By
order sequence, the result counts the entries cancelled at once and those set to cancel pending.
Where the manual leaves it to the model: log entries 28 and 35. -/
def Obligations.CancelReachesItsEntries : Prop :=
  ∀ s : State, s.takes .cancel = true →
    let say (t : State) (v : Result) (vs : List Nat) : Host.Outcome State Fault Refusal :=
      .next (t.answer .cancel v vs).scanRetry
    (s.body 0 1 ≠ 1 → s.body 0 1 ≠ 2 → exec .cancel s = say s .badOrder [])
    ∧ (s.body 0 1 = 1 →
      let i := s.body 2 2
      (s.entry i = none → exec .cancel s = say s .noSuch [])
      ∧ ∀ e, s.entry i = some e →
        (e.state.final = true → exec .cancel s = say s .state [])
        ∧ (e.state.final = false → e.cancelPending = true → exec .cancel s = say s .already [])
        ∧ (e.state = .waiting ∨ e.state = .ready ∨ e.state = .held ∨ e.state = .retryWait → e.cancelPending = false →
          let s1 := (s.modEntry i (fun x =>
              { x with state := .cancelled, countdown := 0, lastResult := some .cancelled })).post .sendQueue
            (.destResult i e.document e.desk e.attempts none .cancelled .cancelled e.confirmed e.orderSeq 0 0 e.chargeTotal)
          exec .cancel s = say ((State.modDoc { s1 with sendq := { s1.sendq with finals := s1.sendq.finals ++ [i] } }
            e.document (fun r => { r with sendRefs := r.sendRefs - 1 })).testFree e.document) .accepted [1, 0])
        ∧ (e.state = .active → e.cancelPending = false → ∀ u, e.unit = some u →
          exec .cancel s =
            say ((s.modEntry i (fun x => { x with cancelPending := true })).abortUnit u) .accepted [0, 1]))
    ∧ (s.body 0 1 = 2 →
      let ids := s.entryIds (fun e => decide (e.orderSeq = BitVec.ofNat 32 (s.body 4 4)))
      (ids = [] → exec .cancel s = say s .noSuch [])
      ∧ (ids ≠ [] → exec .cancel s =
          say (ids.foldl (fun t i => t.cancelEntry i) s) .accepted
            [ids.countP (fun i => (s.entry i).any (fun e => !e.state.final && !e.cancelPending && e.state != .active)),
             ids.countP (fun i => (s.entry i).any (fun e => !e.state.final && !e.cancelPending && e.state == .active))]))

/-- The arbiter makes its passes for the units in ascending number, and none before the part is RUNNING or while it is
RESTARTING; a pass is for an idle sending unit that leaves enough units for receiving, and it is left until the Meter
goes on while the Meter waits. The READY entries are considered by priority, then ready time, then id. One whose number
is in use is skipped. One whose zone is not chargeable is handed over, even under a power warning. One whose desk is
not OPEN goes HELD and is passed over. One whose desk is OPEN is skipped while the log has no room or a power warning
stands, and else handed over: the unit SEIZES, the entry is ACTIVE, and the pass ends.
Where the manual leaves it to the model: log entries 16 and 40. -/
def Obligations.ArbiterHandsOverTheFirstEntry : Prop :=
  ∀ s : State,
    ((s.sendq.entries.map (fun x => x.1)).Pairwise (fun i j => i < j) →
      s.readyOrder.Pairwise (fun i j => ∀ a b, s.entry i = some a → s.entry j = some b →
        priorityCode a.priority < priorityCode b.priority
        ∨ (a.priority = b.priority ∧ (a.readyTime < b.readyTime ∨ (a.readyTime = b.readyTime ∧ i < j))))
      ∧ ∀ i, i ∈ s.readyOrder ↔ ∃ e, s.entry i = some e ∧ e.state = .ready)
    ∧ (s.part ≠ .running ∨ s.intake.restart ≠ none → s.arbiterPasses = s)
    ∧ (s.part = .running → s.intake.restart = none → s.arbiterPasses =
        [UnitId.lu0, .lu1, .lu2, .lu3].foldl (fun t u => t.arbiterPass u) s)
    ∧ ∀ u : UnitId,
      let receivers := [UnitId.lu0, .lu1, .lu2, .lu3].countP (fun v => decide (v ≠ u ∧ (s.unit v).state = .idle
        ∧ ((s.unit v).mode = .receive ∨ (s.unit v).mode = .both)))
      let takes : Prop := (s.unit u).state = .idle ∧ ((s.unit u).mode = .send ∨ (s.unit u).mode = .both)
        ∧ s.sendq.keepForReceive ≤ receivers ∧ s.meterWaits = false
      (¬ takes → s.arbiterPass u = s)
      ∧ (takes → s.arbiterPass u = tryEntries u s.readyOrder s)
      ∧ tryEntries u [] s = s
      ∧ ∀ (i : Nat) (rest : List Nat) (e : DestEntry), s.entry i = some e →
        let z := s.meter.tariff.lookup e.number
        let l := s.unit u
        let inUse : Prop := ∃ x ∈ s.sendq.entries, x.2.state = .active ∧ x.2.number = e.number
        let room : Prop := (s.meter.producer - s.meter.consumer).toNat < s.meter.logSize
        let free : Prop := z.2.priced = false ∧ room
        let opened : Prop := ∃ k, s.desk e.desk = some k ∧ k.state = .opened
        let given : State := { s with
          units := s.units.set u { l with
            entry := some i, role := some .caller, answered := false, result := none, attemptBytes := 0,
            state := .seizing, timer := some 4000,
            handOver := some { number := e.number, document := e.document, desk := e.desk, orderSeq := e.orderSeq,
                               confirmed := e.confirmed, zoneIndex := z.1, zone := z.2 },
            out := l.out ++ [.seize] },
          sendq := { s.sendq with entries := tmod s.sendq.entries i (fun x =>
            { x with state := .active, attempts := x.attempts + 1, zone := some z.1, unit := some u,
                     countdown := 0, lastResult := none, attemptCharge := 0 }) } }
        (inUse → tryEntries u (i :: rest) s = tryEntries u rest s)
        ∧ (¬ inUse → free → tryEntries u (i :: rest) s = given)
        ∧ (¬ inUse → ¬ free → ¬ opened → tryEntries u (i :: rest) s = tryEntries u rest (s.holdEntry i))
        ∧ (¬ inUse → ¬ free → opened → ¬ room ∨ s.meter.warning = true →
            tryEntries u (i :: rest) s = tryEntries u rest s)
        ∧ (¬ inUse → ¬ free → opened → room → s.meter.warning = false → tryEntries u (i :: rest) s = given)
        ∧ (∀ k, s.desk e.desk = some k →
          let held := s.modEntry i (fun x => { x with state := .held, heldReported := true })
          (e.heldReported = true → s.holdEntry i = held)
          ∧ (e.heldReported = false → s.holdEntry i = held.post .sendQueue (.destHeld i e.desk k.state z.1 e.orderSeq)))

/-- The lowest waiting entry whose countdown is 0 becomes READY with a new ready time, is tested against its
desk, and the arbiter makes its passes; with no such entry nothing happens.
Where the manual leaves it to the model: log entry 20. -/
def Obligations.CountdownExpiryMakesAnEntryReady : Prop :=
  ∀ s : State,
    let due (e : DestEntry) : Prop := (e.state = .waiting ∨ e.state = .retryWait) ∧ e.countdown = 0
    ((∀ i e, (i, e) ∈ s.sendq.entries → ¬ due e) → exec .entryCountdownExpiry s = .next s)
    ∧ ∀ before i e after, s.sendq.entries = before ++ (i, e) :: after → due e → (∀ x ∈ before, ¬ due x.2) →
      exec .entryCountdownExpiry s = .next ((State.testDesk { s with sendq := { s.sendq with
        entries := tmod s.sendq.entries i (fun x =>
          { x with state := .ready, readyTime := s.sendq.readySeq, countdown := 0 }),
        readySeq := s.sendq.readySeq + 1 } } i).arbiterPasses)

/-! ## Caller Screen -/

/-- SCREEN ADD, REMOVE, CLEAR, MODE and SWEEP by their cases, each with its result values. The learn flags of SCREEN
MODE are bits 0 to 3 of their byte, or those in force for 0xFF; its other bits are ignored, which is the model's choice
(log entry 67). -/
def Obligations.ScreenOrdersEditTheTable : Prop :=
  ∀ s : State,
    let c := s.screen
    let put (x : Screen) : State := { s with screen := x }
    (s.takes .screenAdd = true →
      let say (t : State) (v : Result) (vs : List Nat) : Host.Outcome State Fault Refusal :=
        .next (t.answer .screenAdd v vs)
      let copies := min 3 (s.body 3 1)
      let flash := decide (s.body 4 1 ≠ 0)
      let budget := s.body 5 1
      (keyKindOf (s.body 0 1) = none ∨ screenKindOf (s.body 1 1) = none ∨ screenKindOf (s.body 1 1) = some .learned
          ∨ 15 < s.body 2 1 ∨ (∀ kk, keyKindOf (s.body 0 1) = some kk → screenKey kk (s.bodyBytes 6 21) = none) →
        exec .screenAdd s = say s .badOrder [])
      ∧ ∀ kk k key, keyKindOf (s.body 0 1) = some kk → screenKindOf (s.body 1 1) = some k → k ≠ .learned →
        s.body 2 1 ≤ 15 → screenKey kk (s.bodyBytes 6 21) = some key →
        (∀ i e, findKey kk key c.entries = some (i, e) → exec .screenAdd s =
          say (put { c with entries := tmod c.entries i (fun x =>
            { x with kind := k, desk := s.body 2 1, copies := copies, flash := flash, budget := budget,
                     budgetLeft := if budget = x.budget then x.budgetLeft else budget }) }) .accepted [i, 1])
        ∧ (findKey kk key c.entries = none → lowestFree 256 c.entries = none → exec .screenAdd s = say s .full [])
        ∧ (∀ i, findKey kk key c.entries = none → lowestFree 256 c.entries = some i →
          let e : ScreenEntry :=
            { keyKind := kk, key := key, kind := k, desk := s.body 2 1, copies := copies, flash := flash,
              budget := budget, budgetLeft := budget, touched := false, calls := 0, lastCall := none }
          exec .screenAdd s = say (put { c with entries := tset c.entries i e }) .accepted [i, 0]))
    ∧ (s.takes .screenRemove = true →
      let say (t : State) (v : Result) (vs : List Nat) : Host.Outcome State Fault Refusal :=
        .next (t.answer .screenRemove v vs)
      (keyKindOf (s.body 0 1) = none → exec .screenRemove s = say s .badOrder [])
      ∧ ∀ kk, keyKindOf (s.body 0 1) = some kk →
        (readText 21 (s.bodyBytes 1 21) = none → exec .screenRemove s = say s .noSuch [])
        ∧ ∀ key, readText 21 (s.bodyBytes 1 21) = some key →
          (findKey kk key c.entries = none → exec .screenRemove s = say s .noSuch [])
          ∧ ∀ i e, findKey kk key c.entries = some (i, e) →
            exec .screenRemove s = say (put { c with entries := c.entries.filter (fun x => x.1 ≠ i) }) .accepted [i])
    ∧ (s.takes .screenClear = true →
      let kept := c.entries.filter (fun x => x.2.kind ≠ .learned)
      let say (t : State) (v : Result) (vs : List Nat) : Host.Outcome State Fault Refusal :=
        .next (t.answer .screenClear v vs)
      (s.body 0 1 = 1 → exec .screenClear s = say (put { c with entries := kept, fullReported := false }) .accepted
          [c.entries.length - kept.length])
      ∧ (s.body 0 1 = 2 → exec .screenClear s = say (put { c with entries := [], fullReported := false }) .accepted
          [c.entries.length])
      ∧ (s.body 0 1 ≠ 1 → s.body 0 1 ≠ 2 → exec .screenClear s = say s .badOrder []))
    ∧ (s.takes .screenMode = true →
      let kept := c.entries.filter (fun x => x.2.kind ≠ .learned)
      let b := byteOf (s.body 1 1)
      let flags : Quad Bool := if b = 0xFF then c.learn else ⟨b.getLsbD 0, b.getLsbD 1, b.getLsbD 2, b.getLsbD 3⟩
      let say (t : State) (v : Result) (vs : List Nat) : Host.Outcome State Fault Refusal :=
        .next (t.answer .screenMode v vs)
      (screenModeOf (s.body 0 1) = none → exec .screenMode s = say s .badOrder [])
      ∧ ∀ m, screenModeOf (s.body 0 1) = some m →
        (m = c.mode ∧ flags = c.learn → exec .screenMode s = say s .already [])
        ∧ (¬ (m = c.mode ∧ flags = c.learn) → m ≠ .listedOnly →
            exec .screenMode s = say (put { c with mode := m, learn := flags }) .accepted [0])
        ∧ (¬ (m = c.mode ∧ flags = c.learn) → m = .listedOnly → exec .screenMode s =
            say (put { c with mode := m, learn := flags, entries := kept }) .accepted [c.entries.length - kept.length]))
    ∧ (s.takes .sweep = true →
      (c.sweep = none → exec .sweep s = .next
        ((put { c with sweep := some { cursor := 0, source := .order, removed := 0 } }).answer .sweep .accepted []))
      ∧ (c.sweep ≠ none → exec .sweep s = .next (s.answer .sweep .already [])))

/-- The pacing pulse reloads every budget and restarts the timer; the age timer restarts and starts a sweep
unless one runs; a sweep's visit removes an untouched LEARNED entry and clears touched on any other, and after
entry 255 the sweep is over and SCREEN_SWEPT is asked for.
A pulse or an expiry that is not due, and a visit with no sweep, change nothing, which is the model's choice.
Where the manual leaves it to the model: log entries 7 and 20. -/
def Obligations.ScreenTimersPaceAndAge : Prop :=
  ∀ s : State,
    let c := s.screen
    (c.pacing = some 0 → exec .pacingPulse s = .next { s with screen := { c with
      pacing := some (120 * c.pacingPeriod),
      entries := c.entries.map (fun x => (x.1, { x.2 with budgetLeft := x.2.budget })) } })
    ∧ (c.pacing ≠ some 0 → exec .pacingPulse s = .next s)
    ∧ (c.age = some 0 → exec .ageTimerExpiry s = .next { s with screen := { c with
      age := some (7200 * c.agePeriod),
      sweep := if c.sweep = none then some { cursor := 0, source := .timer, removed := 0 } else c.sweep } })
    ∧ (c.age ≠ some 0 → exec .ageTimerExpiry s = .next s)
    ∧ (c.sweep = none → exec .sweepVisit s = .next s)
    ∧ ∀ w, c.sweep = some w →
      let aged : Prop := ∃ e, tget c.entries w.cursor = some e ∧ e.kind = .learned ∧ e.touched = false
      let entries := tmod c.entries w.cursor (fun x => { x with touched := false })
      let gone := c.entries.filter (fun x => x.1 ≠ w.cursor)
      (w.cursor < 255 →
        (aged → exec .sweepVisit s = .next { s with screen := { c with
          entries := gone, sweep := some { w with cursor := w.cursor + 1, removed := w.removed + 1 } } })
        ∧ (¬ aged → exec .sweepVisit s = .next { s with screen := { c with
          entries := entries, sweep := some { w with cursor := w.cursor + 1 } } }))
      ∧ (255 ≤ w.cursor →
        (aged → exec .sweepVisit s = .next (State.post
          { s with screen := { c with entries := gone, sweep := none, fullReported := false } } .callerScreen
          (.screenSwept w.source (w.removed + 1) gone.length)))
        ∧ (¬ aged → exec .sweepVisit s = .next (State.post
          { s with screen := { c with entries := entries, sweep := none, fullReported := false } } .callerScreen
          (.screenSwept w.source w.removed entries.length))))

/-! ## Clock, tariff and desks -/

/-- SET CLOCK sets day and half-second and clears the unset flag, and answers with the clock value it replaced.
A clock step first carries out what an earlier one left due, the units' charges, the entries' countdowns, the pacing
pulse and the age timer in this order, which is the model's choice; it then moves the clock, the meters of calls, the
countdowns and the two timers. A unit whose start is reached falls due in the band at the clock value just reached, and
the next start rises by that unit's length. The elapsed time of a call stays at 2^32 - 1 once it is there and the next
start goes past it, which is the model's choice.
Where the manual leaves it to the model: log entries 16, 20 and 39. -/
def Obligations.ClockIsSetAndSteps : Prop :=
  ∀ s : State,
    (exec .clockStep s =
      .next (((([UnitId.lu0, .lu1, .lu2, .lu3].foldl (fun t u => t.settleUnits u) s).settleEntries).pacingPulse).ageExpiry).countStep)
    ∧ (∀ u, (s.meter.recs.get u = none → s.settleUnits u = s)
      ∧ (∀ r, s.meter.recs.get u = some r → s.settleUnits u = r.due.foldl (fun t _ => t.settleMeter u) s)
      ∧ exec (.meterUnitStart u) s = .next (s.settleMeter u))
    ∧ s.settleEntries = (s.sendq.entries.filter (fun x =>
        (x.2.state = .waiting ∨ x.2.state = .retryWait) ∧ x.2.countdown = 0)).foldl (fun t _ => t.countdownExpired) s
    ∧ exec .entryCountdownExpiry s = .next s.countdownExpired
    ∧ exec .pacingPulse s = .next s.pacingPulse ∧ exec .ageTimerExpiry s = .next s.ageExpiry
    ∧ (s.takes .setClock = true →
      let day := s.body 0 1
      let half := s.body 4 4
      (6 < day ∨ 172800 ≤ half → exec .setClock s = .next (s.answer .setClock .badOrder []))
      ∧ (day ≤ 6 → half < 172800 → exec .setClock s = .next (State.answer { s with meter := { s.meter with
          clock := { s.meter.clock with day := day, half := half, unset := false } } } .setClock .accepted
          [s.now.word])))
    ∧ (let k := s.meter.clock
      let c : Clock := { k with
        half := if k.half + 1 < 172800 then k.half + 1 else 0,
        day := if k.half + 1 < 172800 then k.day else if k.day < 6 then k.day + 1 else 0 }
      let b := s.meter.tariff.bandAt ⟨c.day, c.half, c.unset⟩
      let tick (r : Option MeterRec) : Option MeterRec := r.map (fun x =>
        let reached : Prop := x.elapsed + 1 = x.nextStart
        { x with elapsed := min 4294967295 (x.elapsed + 1),
                 nextStart := if reached then x.nextStart + x.zone.len.get b else x.nextStart,
                 due := if reached then x.due ++ [b] else x.due })
      let r := s.meter.recs
      s.countStep = { s with
        meter := { s.meter with clock := c, recs := ⟨tick r.u0, tick r.u1, tick r.u2, tick r.u3⟩ },
        sendq := { s.sendq with entries := s.sendq.entries.map (fun x =>
          (x.1, if x.2.state = .waiting ∨ x.2.state = .retryWait then { x.2 with countdown := x.2.countdown - 1 }
                else x.2)) },
        screen := { s.screen with pacing := s.screen.pacing.map (· - 1), age := s.screen.age.map (· - 1) } }
      ∧ ((∀ u x, r.get u = some x → x.due = []) →
        (∀ x ∈ s.sendq.entries, (x.2.state = .waiting ∨ x.2.state = .retryWait) → x.2.countdown ≠ 0) →
        s.screen.pacing ≠ some 0 → s.screen.age ≠ some 0 → exec .clockStep s = .next s.countStep))

/-- LOAD TARIFF: an area past the end of memory or one that fails a check is refused with the tariff kept; one that
passes is installed whole, answered with the clamped lengths, and the entries are then tested again. The area holds 64
zone records of 24 bytes and the band map. The first record whose prefix is too long or holds a character that is no
digit is named, then zone 0 with a prefix, then the first record that repeats an earlier one's prefix, which of the two
is the model's choice, then the map. A used zone's record gives its prefix, its setup price, and the length, clamped to
1 to 7200, and price of each band. While a pending write overlaps the area its read is held, and nothing happens (R61).
After the load the HELD entries whose zone is no longer chargeable are READY, those that were READY are tested against
their desks, and the arbiter makes its passes. A number's zone is the one whose prefix is the longest that begins the
number without its pause marks, and zone 0 where none but zone 0 does; a zone is chargeable when its setup price or a
unit price is above 0.
Where the manual leaves it to the model: log entries 12, 35, 47 and 85. -/
def Obligations.LoadTariffReplacesTheTariff : Prop :=
  (∀ s : State, s.takes .loadTariff = true →
    let base := s.body 0 4
    let area := s.readThrough base 1588
    (memBytes s.memSize < base + 1588 →
      exec .loadTariff s = .next (s.answer .loadTariff .badOrder [0, 4294967295]))
    ∧ (base + 1588 ≤ memBytes s.memSize → s.path.blocked base 1588 = true → exec .loadTariff s = .next s)
    ∧ (base + 1588 ≤ memBytes s.memSize → s.path.blocked base 1588 = false →
      (∀ i, readTariff area = .inl i → exec .loadTariff s = .next (s.answer .loadTariff .badOrder [0, i]))
      ∧ (∀ t n, readTariff area = .inr (t, n) → exec .loadTariff s = .next
          ((State.answer { s with meter := { s.meter with tariff := t } } .loadTariff .accepted [n, 4294967295]).retestEntries))))
  ∧ (∀ area : List Byte, area.length = 1588 →
    let num (o n : Nat) : Nat := leValue ((area.drop o).take n)
    let digits (i : Nat) : Text := (area.drop (24 * i + 1)).take (num (24 * i) 1)
    let bad (i : Nat) : Prop := 8 < num (24 * i) 1 ∨ ∃ c ∈ digits i, isDigit c = false
    let twin (i : Nat) : Prop := digits i ≠ [] ∧ ∃ j, j < i ∧ digits j = digits i
    let fit (v : Nat) : Nat := max 1 (min 7200 v)
    let zone (i : Nat) : Zone :=
      { digits := digits i, setup := num (24 * i + 10) 2,
        len := ⟨fit (num (24 * i + 12) 2), fit (num (24 * i + 16) 2), fit (num (24 * i + 20) 2)⟩,
        price := ⟨num (24 * i + 14) 2, num (24 * i + 18) 2, num (24 * i + 22) 2⟩ }
    let clamped (i : Nat) : Nat := [12, 16, 20].countP (fun o => fit (num (24 * i + o) 2) ≠ num (24 * i + o) 2)
    let band (b : Byte) : Band := if b = 1 then .peak else if b = 2 then .shoulder else .night
    let rows := (area.drop 1540).take 48
    let known : Prop := ∀ b ∈ rows, b = 1 ∨ b = 2 ∨ b = 3
    let sound : Prop := ∀ i, i < 64 → ¬ bad i
    let used := (List.range 64).filter (fun i => i = 0 ∨ digits i ≠ [])
    (∀ i, i < 64 → bad i → (∀ j, j < i → ¬ bad j) → readTariff area = .inl i)
    ∧ (sound → digits 0 ≠ [] → readTariff area = .inl 0)
    ∧ (∀ i, sound → digits 0 = [] → i < 64 → twin i → (∀ j, j < i → ¬ twin j) → readTariff area = .inl i)
    ∧ (sound → digits 0 = [] → (∀ i, i < 64 → ¬ twin i) →
      (¬ known → readTariff area = .inl 64)
      ∧ (known → readTariff area = .inr
        ({ zones := used.map (fun i => (i, zone i)), weekend := area.getD 1536 0,
           weekdayRow := (rows.take 24).map band, weekendRow := (rows.drop 24).map band },
         ((List.range 64).map clamped).sum))))
  ∧ (∀ s : State,
    let m := s.meter
    let charged (e : DestEntry) : Bool := (m.tariff.lookup e.number).2.priced
      || decide (m.logSize ≤ (m.producer - m.consumer).toNat)
    let freed := s.entryIds (fun e => e.state == .held && !charged e)
    let ready := s.entryIds (fun e => e.state == .ready)
    s.retestEntries = (ready.foldl (fun t i => t.testDesk i)
      (freed.foldl (fun t i => t.modEntry i (fun e => { e with state := .ready })) s)).arbiterPasses)
  ∧ (∀ z : Zone, z.priced = true ↔ z.setup ≠ 0 ∨ z.price.peak ≠ 0 ∨ z.price.shoulder ≠ 0 ∨ z.price.night ≠ 0)
  ∧ ∀ (t : Tariff) (z0 : Zone) (number : Text), tget t.zones 0 = some z0 → z0.digits = [] →
    let plain := number.filter (fun c => decide (c ≠ 0x2C))
    ((∀ x ∈ t.zones, x.2.digits <+: plain → x.2.digits = []) → t.lookup number = (0, z0))
    ∧ ∀ i z, (i, z) ∈ t.zones → z.digits ≠ [] → z.digits <+: plain →
      (∀ x ∈ t.zones, x.2.digits <+: plain → x = (i, z) ∨ x.2.digits.length < z.digits.length) → t.lookup number = (i, z)

/-- SET DESK, CLOSE PERIOD, FLUSH METER and AUDIT CLEAR: each changes its desk's fields, works the state out
again, queues its burn where it has one, and starts the next burn.
Where the manual leaves it to the model: log entry 37. -/
def Obligations.DeskOrdersChangeTheirDesk : Prop :=
  ∀ s : State,
    (s.takes .setDesk = true →
      let d := s.body 0 1
      (15 < d → exec .setDesk s = .next (s.answer .setDesk .badOrder []))
      ∧ (d ≤ 15 → exec .setDesk s = .next (((s.modDesk d (fun k =>
          { k with ceiling := s.body 4 4, spent := s.body 8 4, closed := decide (s.body 1 1 = 0) })).deskRecompute d
          .setDesk).answer .setDesk .accepted [])))
    ∧ (s.takes .closePeriod = true →
      (16 ≤ s.body 0 1 → s.body 0 1 ≠ 255 → exec .closePeriod s = .next (s.answer .closePeriod .badOrder []))
      ∧ ∀ ds, (s.body 0 1 ≤ 15 ∧ ds = [s.body 0 1]) ∨ (s.body 0 1 = 255 ∧ ds = List.range 16) →
        exec .closePeriod s = .next (((ds.foldl (fun t d => ((t.modDesk d (fun k => { k with spent := 0 })).deskRecompute d
          .closePeriod).queueBurn d .closePeriod) s).startBurn).answer .closePeriod .accepted
          [(ds.filter (fun d => (s.desk d).any (fun k => !k.audit))).length]))
    ∧ (s.takes .flushMeter = true →
      (16 ≤ s.body 0 1 → s.body 0 1 ≠ 255 → exec .flushMeter s = .next (s.answer .flushMeter .badOrder []))
      ∧ ∀ ds, (s.body 0 1 ≤ 15 ∧ ds = [s.body 0 1]) ∨ (s.body 0 1 = 255 ∧ ds = List.range 16) →
        exec .flushMeter s = .next (((ds.foldl (fun t d => t.queueBurn d .flush) s).startBurn).answer .flushMeter .accepted
          [(ds.filter (fun d => (s.desk d).any (fun k => !k.audit))).length]))
    ∧ (s.takes .auditClear = true →
      let d := s.body 0 1
      let calls := s.body 4 4
      let life := s.body 8 8
      let bad : Prop := 15 < d ∨ 2 ^ 40 ≤ life ∨ 2 ^ 24 ≤ calls
      (bad → exec .auditClear s = .next (s.answer .auditClear .badOrder []))
      ∧ ∀ k, ¬ bad → s.desk d = some k →
        (k.state ≠ .audit → exec .auditClear s = .next (s.answer .auditClear .state []))
        ∧ (k.state = .audit → exec .auditClear s = .next (((((s.modDesk d (fun x =>
            { x with working := life, burned := life, calls := calls, audit := false })).deskRecompute d
            .auditClear).queueBurn d .auditClear).startBurn).answer .auditClear .accepted [])))

/-- A desk's state is AUDIT, CLOSED, HELD or OPEN by the first test that holds. Working it out again changes
nothing when it is the same, and otherwise asks for DESK_STATE and tells the Send Queue: the READY entries of a
desk that has left OPEN are tested, the HELD ones of a desk that has come to OPEN return. -/
def Obligations.DeskStateFollowsItsTotals : Prop :=
  ∀ (s : State) (d : Nat) (k : Desk) (c : DeskCause), s.desk d = some k →
    (k.derived = .audit ↔ k.audit = true)
    ∧ (k.derived = .closed ↔ k.audit = false ∧ k.closed = true)
    ∧ (k.derived = .held ↔ k.audit = false ∧ k.closed = false ∧ k.ceiling ≠ 2 ^ 32 - 1 ∧ k.ceiling ≤ k.spent)
    ∧ (k.derived = k.state → s.deskRecompute d c = s)
    ∧ (k.derived ≠ k.state →
      let s1 := (s.modDesk d (fun x => { x with state := k.derived })).post .meter
        (.deskState d k.derived k.state c k.spent k.ceiling)
      (k.derived = .opened → s.deskRecompute d c = ((s.entryIds (fun e =>
          decide (e.state = .held ∧ e.desk = d))).foldl (fun t i => t.modEntry i (fun e => { e with state := .ready }))
          s1).arbiterPasses)
      ∧ (k.derived ≠ .opened → s.deskRecompute d c = (s.entryIds (fun e =>
          decide (e.state = .ready ∧ e.desk = d))).foldl (fun t i => t.testDesk i) s1))

/-- The band in force at a clock value: PEAK while the clock is unset, else the band that the day's row gives
for the hour, the half-second divided by 7200. -/
def Obligations.BandIsReadFromTheMap : Prop :=
  ∀ (t : Tariff) (c : Stamp), t.weekdayRow.length = 24 → t.weekendRow.length = 24 → c.day < 7 → c.half < 172800 →
    (c.unset = true → t.bandAt c = .peak)
    ∧ (c.unset = false → t.weekend.getLsbD c.day = true → t.weekendRow[c.half / 7200]? = some (t.bandAt c))
    ∧ (c.unset = false → t.weekend.getLsbD c.day = false → t.weekdayRow[c.half / 7200]? = some (t.bandAt c))

/-! ## Line modes, DUMP, RESTART and the Event Reporter -/

/-- LINE MODE by the cases of its table: at once in OFF, IDLE and BLOCKED, with LINE_STATE; pending in any other
state. The arbiter makes its passes after an accepted order.
Where the manual leaves it to the model: log entry 40. -/
def Obligations.LineModeFollowsItsTable : Prop :=
  ∀ s : State, s.takes .lineMode = true →
    let say (v : Result) : Host.Outcome State Fault Refusal := .next (s.answer .lineMode v [])
    (unitOf (s.body 0 1) = none → exec .lineMode s = say .noSuch)
    ∧ ∀ u, unitOf (s.body 0 1) = some u →
      (unitModeOf (s.body 1 1) = none → exec .lineMode s = say .badOrder)
      ∧ ∀ m, unitModeOf (s.body 1 1) = some m →
        let l := s.unit u
        let rest : Prop := l.state = .off ∨ l.state = .idle
        let st : CallState := if m = .off then .off else .idle
        let now (failures : Nat) : State :=
          State.post { s with
            units := s.units.set u { l with
              mode := m, pendingMode := none, state := st, timer := none, dialFailures := failures },
            intake := { s.intake with restart := s.intake.restart.map (fun q => q.set u true) } }
            (.unit u) (.lineState u .lineMode st m none)
        (rest → l.mode = m → l.pendingMode = none → exec .lineMode s = say .already)
        ∧ (rest → ¬ (l.mode = m ∧ l.pendingMode = none) →
            exec .lineMode s = .next ((now l.dialFailures).answer .lineMode .accepted []).arbiterPasses)
        ∧ (l.state = .blocked → exec .lineMode s = .next ((now 0).answer .lineMode .accepted []).arbiterPasses)
        ∧ (¬ rest → l.state ≠ .blocked → exec .lineMode s = .next (State.answer
            { s with units := s.units.set u { l with pendingMode := some m } } .lineMode .accepted []).arbiterPasses)

/-- DUMP is refused when its kind, an option, its area or its length is wrong; accepted, its header is written
and its records follow one command at a time while the queue has room, with CLEAR and PURGE done record by
record; after the last that fits, and once all of it has been issued, the take finishes with the counts (R61, R70). The
set is every record in use, ascending, or every desk or unit; the header and each record hold the fields of its table in
order, numbers at multiples of their size, absent values and padding in the model's form. A record that is gone is
written as unused. The area must keep clear of the Setup Page, the Control
Page, the rings, the pool and every region that is not PASS. With no DUMP under way DUMP_RECORD_WRITE changes nothing,
which is the model's choice.
Where the manual leaves it to the model: log entries 5, 7, 36, 69, 75, 79 and 87. -/
def Obligations.DumpWritesHeaderAndRecords : Prop :=
  ∀ s : State,
    (s.takes .dump = true →
      let o := byteOf (s.body 1 1)
      let base := s.body 4 4
      let len := s.body 8 4
      (dumpKindOf (s.body 0 1) = none → exec .dump s = .next (s.answer .dump .badOrder []))
      ∧ ∀ k, dumpKindOf (s.body 0 1) = some k →
        let good : Prop := o.toNat < 4 ∧ (o.getLsbD 0 = true → k = .lineStatistics)
          ∧ (o.getLsbD 1 = true → k = .sendQueue) ∧ base + len ≤ memBytes s.memSize
          ∧ (∀ x ∈ s.keptOut, overlaps base len x.1 x.2 = false) ∧ 24 ≤ len
        let set := s.dumpSet k
        let fits := min set.length ((len - 24) / dumpLength k)
        let s1 := s.issue .dump base (s.dumpHeader k set.length fits)
        let d : DumpState :=
          { kind := k, clear := o.getLsbD 0, purge := o.getLsbD 1, addr := base + 24, total := set.length,
            left := set.take fits, written := 0, purged := 0 }
        (¬ good → exec .dump s = .next (s.answer .dump .badOrder []))
        ∧ (good → fits ≠ 0 ∨ s1.stalled .dump = true → exec .dump s = .next { s1 with
            intake := { s1.intake with take := .atOwner, dump := some d } })
        ∧ (good → fits = 0 → s1.stalled .dump = false → exec .dump s = .next (State.answer { s1 with
            intake := { s1.intake with take := .atOwner, dump := none } } .dump .accepted
            ([set.length, 0] ++ if o.getLsbD 1 then [0] else []))))
    ∧ s.keptOut = [(0, 4096), (s.settings.controlBase, 4096), (s.settings.eventBase, 8192),
        (s.meter.logBase, s.meter.logSize * 64), (s.store.base, s.store.blockCount * 2048)]
      ++ (s.path.regions.filter (fun x => decide (x.2.treatment ≠ .pass))).map (fun x => (x.2.base, x.2.size))
    ∧ (∀ a n b m, overlaps a n b m = true ↔ n ≠ 0 ∧ m ≠ 0 ∧ a < b + m ∧ b < a + n)
    ∧ s.dumpSet .documents = s.store.docs.map (fun x => x.1) ∧ s.dumpSet .pages = s.store.pages.map (fun x => x.1)
    ∧ s.dumpSet .sendQueue = s.sendq.entries.map (fun x => x.1)
    ∧ s.dumpSet .screenTable = s.screen.entries.map (fun x => x.1)
    ∧ s.dumpSet .desks = List.range 16 ∧ s.dumpSet .lineStatistics = [0, 1, 2, 3]
    ∧ (∀ k total fits, s.dumpHeader k total fits =
        [byteOf (dumpCode k), 0, 0, 0] ++ leBytes 4 s.now.word ++ leBytes 4 s.store.blockCount
        ++ leBytes 4 s.store.free.length ++ leBytes 2 total ++ leBytes 2 fits ++ leBytes 2 (dumpLength k) ++ [0, 0])
    ∧ (∀ k i, (s.dumpRecord k i).length = dumpLength k ∨ ∃ d, s.doc i = some d ∧ 250 < d.pages.length)
    ∧ (∀ i d, s.doc i = some d → d.pages.length ≤ 250 → s.dumpRecord .documents i =
        [byteOf i, byteOf (docStateCode d.state), byteOf (originCode d.origin), byteOf d.desk, byteOf d.pages.length, 0]
        ++ d.pages.flatMap (fun p => leBytes 2 p) ++ List.replicate (2 * (250 - d.pages.length)) 0
        ++ flagByte d.keep ++ [0] ++ leBytes 2 d.sendRefs ++ [byteOf d.printRefs] ++ flagByte d.truncated
        ++ flagByte d.notQueued ++ flagByte d.deletePending ++ [0, 0] ++ leBytes 4 d.created.word
        ++ textField 21 (d.station.getD []) ++ [0, 0, 0] ++ leBytes 4 d.total)
    ∧ (∀ i p, s.page i = some p → s.dumpRecord .pages i =
        leBytes 2 i ++ [byteOf (pageStateCode p.state), byteOf p.document, byteOf p.position, byteOf (originCode p.origin),
          byteOf (widthCode p.width), byteOf (resolutionCode p.resolution)]
        ++ leBytes 2 p.lines ++ [0, 0] ++ leBytes 4 p.coded ++ leBytes 2 p.first ++ leBytes 2 p.last ++ leBytes 2 p.blocks
        ++ flagByte p.clipped ++ [0])
    ∧ (∀ i e, s.entry i = some e → s.dumpRecord .sendQueue i =
        leBytes 2 i ++ [0, 0] ++ leBytes 4 e.orderSeq.toNat
        ++ [byteOf e.document, byteOf e.desk, byteOf (priorityCode e.priority)] ++ textField 25 e.number
        ++ [byteOf (e.zone.getD 0xFF), byteOf (entryStateCode e.state), byteOf e.attempts, byteOf e.maxAttempts,
          byteOf e.retryInterval] ++ [0, 0, 0] ++ leBytes 4 e.readyTime ++ leBytes 4 e.countdown
        ++ leBytes 4 e.nextAttempt.word
        ++ [byteOf (e.lastResult.elim 0 attemptCode), byteOf e.confirmed, byteOf (e.unit.elim 0xFF unitNum), 0]
        ++ leBytes 4 e.chargeTotal ++ flagByte e.heldReported ++ flagByte e.cancelPending ++ [0, 0])
    ∧ (∀ i e, tget s.screen.entries i = some e → s.dumpRecord .screenTable i =
        [byteOf i, 1, byteOf (keyKindCode e.keyKind)] ++ textField 21 e.key
        ++ [byteOf (screenKindCode e.kind), byteOf e.desk, byteOf e.copies] ++ flagByte e.flash
        ++ [byteOf e.budget, byteOf e.budgetLeft] ++ flagByte e.touched ++ [0] ++ leBytes 2 e.calls ++ [0, 0]
        ++ leBytes 4 (e.lastCall.elim 4294967295 (fun t => t.word)))
    ∧ (∀ i k, s.desk i = some k → s.dumpRecord .desks i =
        [byteOf (deskStateCode k.state)] ++ flagByte k.audit ++ flagByte k.closed ++ [0] ++ leBytes 4 k.ceiling
        ++ leBytes 4 k.spent ++ [0, 0, 0, 0] ++ leBytes 8 k.working ++ leBytes 8 k.burned ++ leBytes 4 k.calls
        ++ [0, 0, 0, 0] ++ leBytes 8 (k.captured.elim (2 ^ 64 - 1) (fun c => c.1))
        ++ leBytes 4 (k.captured.elim (2 ^ 32 - 1) (fun c => c.2)) ++ [if k.torn then 2 else 1, 0, 0, 0])
    ∧ (∀ i u, unitOf i = some u →
      let l := s.unit u
      let c := l.stats
      s.dumpRecord .lineStatistics i =
        [byteOf (unitModeCode l.mode), byteOf (l.pendingMode.elim 0 unitModeCode), byteOf (callStateCode l.state),
          byteOf (l.role.elim 0 roleCode)] ++ leBytes 2 (l.entry.getD 0xFFFF) ++ textField 9 l.lead
        ++ [byteOf l.dialFailures, byteOf l.ringCount] ++ textField 25 (l.caller.getD []) ++ verdictBytes l.verdict
        ++ flagByte l.glare ++ flagByte l.answered ++ [byteOf (l.result.elim 0 attemptCode), 0]
        ++ leBytes 4 l.releaseTime.word ++ leBytes 4 l.attemptBytes ++ leBytes 4 (l.timer.getD 0)
        ++ [c.callsOut, c.callsIn, c.bytesSent, c.fillBytes, c.underruns, c.pagesSent, c.pagesReceived, c.redosSent,
            c.redosReceived, c.badLines].flatMap (leBytes 4))
    ∧ (∀ i,
      let gone (k : DumpKind) (head : List Byte) : Prop :=
        s.dumpRecord k i = head ++ List.replicate (dumpLength k - head.length) 0
      (s.doc i = none → gone .documents [0, 1]) ∧ (s.page i = none → gone .pages (leBytes 2 i ++ [1]))
      ∧ (s.entry i = none → gone .sendQueue (leBytes 2 i ++ List.replicate 35 0 ++ [1]))
      ∧ (tget s.screen.entries i = none → gone .screenTable [byteOf i]))
    ∧ (∀ d, s.intake.dump = some d → d.left = [] → exec .dumpRecordWrite s = .next s)
    ∧ (s.intake.dump = none ∨ s.path.waiting ≠ [] ∨ 16 ≤ s.path.queue.length → exec .dumpRecordWrite s = .next s)
    ∧ ∀ d i rest, s.intake.dump = some d → d.left = i :: rest → s.path.waiting = [] → s.path.queue.length < 16 →
      let s1 := s.issue .dump d.addr (s.dumpRecord d.kind i)
      let d1 (n : Nat) : DumpState := { d with
        addr := d.addr + dumpLength d.kind, left := rest, written := d.written + 1, purged := d.purged + n }
      let goes (t : State) (n : Nat) : Prop :=
        (rest ≠ [] ∨ s1.stalled .dump = true → exec .dumpRecordWrite s = .next { t with intake := { t.intake with dump := some (d1 n) } })
        ∧ (rest = [] → s1.stalled .dump = false → exec .dumpRecordWrite s = .next (State.answer
            { t with intake := { t.intake with dump := none } } .dump .accepted
            ([d.total, d.written + 1] ++ if d.purge then [d.purged + n] else [])))
      (d.clear = false → d.purge = false ∨ (∀ e, s.entry i = some e → e.state.final = false) → goes s1 0)
      ∧ (d.clear = true → d.purge = false → ∀ u, unitOf i = some u →
          goes (s1.modUnit u (fun l => { l with stats := ⟨0, 0, 0, 0, 0, 0, 0, 0, 0, 0⟩ })) 0)
      ∧ (d.clear = false → d.purge = true → ∀ e, s.entry i = some e → e.state.final = true →
          goes { s1 with sendq := { s1.sendq with
            entries := s1.sendq.entries.filter (fun x => x.1 ≠ i),
            finals := s1.sendq.finals.filter (fun k => k ≠ i) } } 1)

/-- RESTART writes RESTARTING, holds the take at its owner and stops the blocks in turn: the print entries first, for
R179, and then, in the model's order, the scan session, window 0, window 1, the send entries and the units. Every print
entry is DONE with reason RESTART, in ascending number, and a sheet under way drains. A window that is not IDLE, or
whose seal is pending, has its page abandoned, its slots emptied and its document detached, with WINDOW_ABANDONED, and a
write that it holds ends with a bus error, as at a full document; an IDLE one stays as it is. A unit at rest counts at
once; RINGING, with CALL_MISSED and no screening reason in it, which is the model's choice, goes to IDLE; a reception IN
SESSION is cut and released; an outgoing call is aborted with its entry; and every unit's recoders are idle. Every entry
not final is cancelled. When every unit has counted, and no outcome report waits for its charge, RUNNING is written, the
take finishes, and the arbiter makes its passes, in the model's order. While a write of the Order Intake waits for room
RESTART does not complete (R61), and with no RESTART under way its completion changes nothing. A pending sheet begin is
asked again at the order's end.
Where the manual leaves it to the model: log entries 7, 16, 26, 28, 40, 46, 62 and 76. -/
def Obligations.RestartStopsAndCompletes : Prop :=
  (∀ s : State, s.takes .restart = true →
    let s1 := s.issue .orderIntake (s.controlWord 0x810) [2, 0, 0, 0]
    let s2 : State := { s1 with intake := { s1.intake with take := .atOwner, restart := some ⟨false, false, false, false⟩ } }
    let s3 := s2.restartPrint
    let s4 := if s.scanner.active then s3.endScan .idle .restart true else s3
    let s5 := ((s4.restartWindow .w0).restartWindow .w1).restartSends
    exec .restart s = .next ([UnitId.lu0, .lu1, .lu2, .lu3].foldl (fun t u => t.restartUnit u) s5).scanRetry)
  ∧ (∀ (s : State) (w : WindowId),
    let x := s.window w
    (x.state = .idle → x.sealPending = false → s.restartWindow w = s)
    ∧ (x.state ≠ .idle ∨ x.sealPending = true → s.restartWindow w = s.abandonWindow w .restart)
    ∧ ∀ r d, x.document = some d →
      let a := match (s.source (.win w)).page with
        | some p => s.abandonPage p
        | none => s
      let b := a.modSource (.win w) (fun y => { y with
        page := none, ref := [], held := none, wait := none, continuation := false, queue := [], endSignal := false })
      let t := ((b.modWindow w (fun y => { y with
        slotA := ⟨.empty, [], []⟩, slotB := ⟨.empty, [], []⟩, state := .idle, sealPending := false, page := none })).modDoc d
        (fun y => { y with attached := false })).post .memoryPath (.windowAbandoned w r d x.page x.linesHanded)
      ((∀ g rest err, s.path.bus ≠ .windowHold w g rest err) → s.abandonWindow w r = t)
      ∧ ∀ g rest err, s.path.bus = .windowHold w g rest err → s.abandonWindow w r = runSegs rest true t
        ∧ (rest = [] → s.abandonWindow w r = { t with path := { t.path with bus := .free, result := .busError } }))
  ∧ (∀ (s : State) (u : UnitId),
      let l := s.unit u
      let put (x : LineUnit) : State := { s with units := s.units.set u x }
      let idle (t : State) : State := t.modUnit u (fun x => { x with
        tx := TxRecoder.reset, txFifo := [], rx := RxRecoder.reset, rxFifo := [] })
      (∀ q, s.intake.restart = some q → l.state = .off ∨ l.state = .idle ∨ l.state = .blocked →
        s.restartUnit u = idle { s with intake := { s.intake with restart := some (q.set u true) } })
      ∧ (l.state = .ringing → s.restartUnit u = idle (((put { l with
          ringCount := 0, caller := none, verdict := .none, glare := false }).post (.unit u)
          (.callMissed u .restart none l.ringCount l.caller)).enterIdle u))
      ∧ (∀ a, l.state = .inSession → l.role = some .answerer → l.answerer = some a →
        s.restartUnit u = idle ((s.cutReception u a).releaseCall u))
      ∧ (l.state = .inSession → l.role = some .answerer → l.answerer = none →
        s.restartUnit u = idle (s.releaseCall u))
      ∧ (l.state = .inSession → l.role ≠ some .answerer → s.restartUnit u = idle s)
      ∧ (l.state = .seizing ∨ l.state = .dialling ∨ l.state = .awaitAnswer ∨ l.state = .clearing →
        s.restartUnit u = idle s)
      ∧ (l.state = .seizing ∨ l.state = .dialling ∨ l.state = .awaitAnswer
          ∨ (l.state = .inSession ∧ l.role = some .caller) → s.abortUnit u = s.endCall u .aborted)
      ∧ (l.state = .off ∨ l.state = .idle ∨ l.state = .ringing ∨ l.state = .clearing ∨ l.state = .blocked
          ∨ (l.state = .inSession ∧ l.role ≠ some .caller) → s.abortUnit u = s))
  ∧ (∀ s : State,
      s.restartSends = (s.entryIds (fun e => !e.state.final)).foldl (fun t i => t.cancelEntry i) s
      ∧ ∀ i e, s.entry i = some e →
        (e.state.final = true ∨ e.cancelPending = true → s.cancelEntry i = s)
        ∧ (∀ u, e.state = .active → e.cancelPending = false → e.unit = some u →
          s.cancelEntry i = (s.modEntry i (fun x => { x with cancelPending := true })).abortUnit u)
        ∧ (e.state = .waiting ∨ e.state = .ready ∨ e.state = .held ∨ e.state = .retryWait → e.cancelPending = false →
          let s1 := (s.modEntry i (fun x =>
              { x with state := .cancelled, countdown := 0, lastResult := some .cancelled })).post .sendQueue
            (.destResult i e.document e.desk e.attempts none .cancelled .cancelled e.confirmed e.orderSeq 0 0 e.chargeTotal)
          s.cancelEntry i = (State.modDoc { s1 with sendq := { s1.sendq with finals := s1.sendq.finals ++ [i] } }
            e.document (fun r => { r with sendRefs := r.sendRefs - 1 })).testFree e.document))
  ∧ (∀ s : State,
      let p := s.print
      let s1 := (p.entries.map (fun x => x.1)).foldl (fun t i => t.printDone i .restart) s
      let s2 : State := { s1 with print := { s1.print with
        current := none, decoder := none, draining := decide (p.sheet ≠ .noSheet),
        sounder := { s1.print.sounder with flash := none, paper := none } } }
      let s3 : State := if p.sheet = .sheetStarted then
        { s2 with print := { s2.print with sheet := .feedingOut, out := s2.print.out ++ [.sheetOut] } } else s2
      s.restartPrint = (s3.recomputePrinter none).printSelect
      ∧ ∀ i e r, tget p.entries i = some e →
        s.printDone i r = (State.modDoc (State.post { s with print := { p with
          entries := p.entries.filter (fun x => x.1 ≠ i),
          current := if p.current = some i then none else p.current } } .printEngine
          (.printDone i e.document r e.copiesPrinted e.ejected)) e.document
          (fun x => { x with printRefs := x.printRefs - 1 })).testFree e.document)
  ∧ ∀ s : State,
    (s.intake.restart = none → exec .restartComplete s = .next s)
    ∧ ∀ q, s.intake.restart = some q →
      (q = ⟨true, true, true, true⟩ → s.sendq.reports = [] → s.stalled .orderIntake = false →
        let s1 := State.issue { s with intake := { s.intake with restart := none } } .orderIntake (s.controlWord 0x810)
          [1, 0, 0, 0]
        exec .restartComplete s = .next (s1.answer .restart .accepted []).arbiterPasses)
      ∧ (q ≠ ⟨true, true, true, true⟩ ∨ s.sendq.reports ≠ [] ∨ s.stalled .orderIntake = true → exec .restartComplete s = .next s)

/-- The Event Reporter takes the oldest event asked for: with room it writes the record and then the producer
index; with 256 unread it counts a missed event and writes the count. A GUARD_HIT that is written makes its area's
record pending at its index with count 1, and one that is missed leaves it idle. The interrupt line follows the ring
and the hold-off timer. A record is 32 bytes: the kind, the fields in order that fit whole in bytes 1 to 3, the record's
number, the clock value, and the other fields, with zeros behind them. With nothing asked for, with a write of the Event
Reporter that waits for room (R61), or while the first event is the ORDER_DONE of a take whose clearing write has still
to be issued, which is the model's choice, nothing happens.
Where the manual leaves it to the model: log entries 7, 9, 11, 16, 68, 75, 79 and 86. -/
def Obligations.EventIsWrittenOrMissed : Prop :=
  ∀ s : State,
    (s.interruptLine = true ↔ s.reporter.producer ≠ s.reporter.consumer ∧ s.reporter.holdOff = false)
    ∧ exec .holdOffExpiry s = .next { s with reporter := { s.reporter with holdOff := false } }
    ∧ (s.reporter.postings = [] ∨ s.part ≠ .running ∨ s.stalled .eventReporter = true →
        exec .eventPosting s = .next s)
    ∧ (∀ blk e rest, s.reporter.postings = ⟨blk, e⟩ :: rest → s.untimely e = true → exec .eventPosting s = .next s)
    ∧ (∀ e, s.untimely e = true ↔ s.intake.finish ≠ none ∧ ∃ k r q vs, e = .orderDone s.intake.expected k r q vs)
    ∧ (∀ (e : Event) (x : Word) (t : Stamp),
      let id1 (o : Option Nat) : Byte := byteOf (o.getD 0xFF)
      let text (o : Option Text) (n : Nat) : List Byte :=
        byteOf (o.getD []).length :: ((o.getD []).take n ++ List.replicate (n - (o.getD []).length) 0)
      let parts : Byte × List Byte × List Byte := match e with
        | .ready c m b k => (1, [if c = .powerOn then 1 else 2, byteOf m, 0], leBytes 2 b ++ flagByte k)
        | .orderDone n k r q vs => (2, [byteOf n, k, byteOf (resultCode r)], leBytes 4 q.toNat ++ (vs.flatMap (leBytes 4)).take 16)
        | .pageSealed p d i c l n => (3, leBytes 2 p ++ [byteOf d], [byteOf i] ++ flagByte c ++ leBytes 2 l ++ leBytes 4 n)
        | .docClosed d o p f g n => (4, [byteOf d, byteOf (originCode o), byteOf p], flagByte f ++ flagByte g ++ leBytes 4 n)
        | .docFreed d p b => (5, [byteOf d, byteOf p, 0], leBytes 2 b)
        | .windowAbandoned w r d p h =>
          (6, [byteOf (windowNum w), byteOf (abandonCode r), byteOf d], leBytes 2 (p.getD 0xFFFF) ++ leBytes 4 h)
        | .guardHit a n => (7, [1, 0, byteOf (guardKindCode a)], [id1 (guardNumber a)] ++ leBytes 4 n)
        | .scanState st r d b p l f o => (8, [byteOf (scanStateCode st), byteOf (scanReasonCode r), 0],
            leBytes 2 (d.getD 0xFFFF) ++ leBytes 2 b ++ [byteOf p] ++ leBytes 4 l ++ leBytes 4 f ++ leBytes 4 o)
        | .lineState u r st m p => (9, [byteOf (unitNum u), byteOf (lineReasonCode r), byteOf (callStateCode st)],
            [byteOf (unitModeCode m), byteOf (p.elim 0 unitModeCode)])
        | .callIn u n g c => (10, [byteOf (unitNum u), byteOf n] ++ flagByte g, text c 19)
        | .callMissed u r q n c => (11, [byteOf (unitNum u), byteOf (missCode r), byteOf (q.elim 0 refuseCode)],
            byteOf n :: text c 18)
        | .callRefused u r b n c => (12, [byteOf (unitNum u), byteOf (refuseCode r), byteOf (b.elim 0 (fun y => keyKindCode y.keyKind))],
            id1 (b.map (fun y => y.entry)) :: (text n 8 ++ text c 9))
        | .destResult i d k a u st r c q n h g => (13, leBytes 2 i ++ [byteOf d],
            [byteOf (k % 16 + 16 * a), byteOf (u.elim 7 unitNum + 16 * entryStateCode st), byteOf (attemptCode r), byteOf c]
            ++ leBytes 4 q.toNat ++ leBytes 4 n ++ leBytes 4 h ++ leBytes 4 g)
        | .destHeld i k st z q => (14, leBytes 2 i ++ [byteOf k], [byteOf (deskStateCode st), byteOf z] ++ leBytes 4 q.toNat)
        | .printDone i d r c n => (15, [byteOf i, byteOf d, byteOf (printReasonCode r)], byteOf c :: leBytes 2 n)
        | .printerState st o n a => (16, [byteOf (printerStateCode st), byteOf (printerStateCode o), byteOf n],
            [id1 (a.map (fun y => y.1))] ++ leBytes 2 ((a.map (fun y => y.2.1)).getD 0xFFFF) ++ [id1 (a.map (fun y => y.2.2))])
        | .screenSwept q r o => (17, [byteOf (sweepCode q)] ++ leBytes 2 r, leBytes 2 o)
        | .screenFull u c => (18, [byteOf (unitNum u), 0, 0], text (some c) 19)
        | .meterBurn k o r l c q => (19, [byteOf k, byteOf (burnOutcomeCode o), byteOf (r.elim 0 burnReasonCode)],
            leBytes 5 l ++ leBytes 3 c ++ leBytes 2 q)
        | .deskState k st o c p l => (20, [byteOf k, byteOf (deskStateCode st), byteOf (deskStateCode o)],
            byteOf (deskCauseCode c) :: (leBytes 4 p ++ leBytes 4 l))
        | .power w => (21, [if w then 1 else 2, 0, 0], [])
      e.record x t = parts.1 :: parts.2.1 ++ leBytes 4 x.toNat ++ leBytes 4 t.word ++ parts.2.2
          ++ List.replicate (20 - parts.2.2.length) 0
        ∧ (e.record x t).length = 32)
    ∧ ∀ blk e rest, s.reporter.postings = ⟨blk, e⟩ :: rest → s.part = .running → s.stalled .eventReporter = false →
      s.untimely e = false →
      let x := s.reporter.producer
      let p := s.path.issue .eventReporter (s.settings.eventBase + 32 * (x.toNat % 256)) (e.record x s.now) none
      let written : State := { s with
        path := p.issue .eventReporter (s.controlWord 0x804) (leBytes 4 (x + 1).toNat) none,
        reporter := { s.reporter with producer := x + 1, postings := rest } }
      let n := s.reporter.missed
      let missed : State := { s with
        path := if n < 65535 then s.path.issue .eventReporter (s.controlWord 0x808) (leBytes 4 (n + 1)) none else s.path,
        reporter := { s.reporter with missed := if n < 65535 then n + 1 else n, postings := rest } }
      let room : Prop := (s.reporter.producer - s.reporter.consumer).toNat < 256
      n ≤ 65535 →
      (room → (∀ g a, e ≠ .guardHit g a) → exec .eventPosting s = .next written)
      ∧ (room → ∀ g a, e = .guardHit g a → exec .eventPosting s = .next { written with path := { written.path with
          guards := setGuard g { index := x, count := 1 } s.path.guards } })
      ∧ (¬ room → exec .eventPosting s = .next missed)

/-! ## Page Coder and Scanner Port -/

/-- A source is eligible with no waiting condition and either a page with a line or a seal to come, or a continuation to
open; the scanner is chosen first, then the window that the marker names, then the other, and after a window the marker
names the other one. A service of a chosen source: a line that fits is coded in FULL form, placed and counted, and its buffer line or
slot freed; the END mark seals the page after its last line. Bytes are placed block by block, and a full last block is
followed by the head of the free list; with no block to be had the bytes left over are held, and the source waits until
it is served again with them. A line that does not fit seals its page, and its document's continuation page is opened
for it, or the source waits for the refusal's cause. With no eligible source, or while a write of the Page Coder waits for room
(R61), nothing happens.
Where the manual leaves it to the model: log entries 16 and 28. -/
def Obligations.CoderStoresLinesAndSeals : Prop :=
  ∀ s : State,
    (let m := s.coder.marker
      let eligible (i : SourceId) : Prop :=
        let x := s.source i
        x.wait = none ∧ ((x.page ≠ none ∧ (x.queue ≠ [] ∨ x.endSignal = true)) ∨ x.continuation = true)
      (eligible .scan → s.pickSource = some .scan)
      ∧ (¬ eligible .scan → eligible (.win m) → s.pickSource = some (.win m))
      ∧ (¬ eligible .scan → ¬ eligible (.win m) → ∀ w, w ≠ m →
        (eligible (.win w) → s.pickSource = some (.win w)) ∧ (¬ eligible (.win w) → s.pickSource = none)))
    ∧ s.turnMarker .scan = s
    ∧ (∀ w v, v ≠ w → s.turnMarker (.win w) = { s with coder := { s.coder with marker := v } })
    ∧ (∀ n,
      (∀ ds, s.scanner.buffer[n]? = some (.held ds) → s.lineAt .scan n = ds ∧ s.markCoding .scan n =
        { s with scanner := { s.scanner with buffer := s.scanner.buffer.set n (.coding ds) } })
      ∧ s.freeLine .scan n = s.freeBufferLine n)
    ∧ (∀ w n,
      let j : SlotId := if n = 0 then .a else .b
      s.lineAt (.win w) n = bytesDots ((s.window w).slot j).bytes ∧ s.markCoding (.win w) n = s
      ∧ s.freeLine (.win w) n = s.freeSlot w j)
    ∧ (∀ b, s.ownerSealed .scan b = s.scanSealed b) ∧ s.ownerDocFull .scan = s.endScan .idle .docFull true
    ∧ (∀ w,
      let x := s.window w
      let one := s.modWindow w (fun y => { y with
        sealPending := false, page := none, pagesEnded := min 250 (y.pagesEnded + 1) })
      s.ownerDocFull (.win w) = s.abandonWindow w .docFull
      ∧ s.ownerSealed (.win w) false = s.modWindow w (fun y => { y with page := none })
      ∧ (x.document = none → s.ownerSealed (.win w) true = one)
      ∧ (∀ d, x.document = some d →
        let t := one.modDoc d (fun y => { y with attached := false })
        s.ownerSealed (.win w) true =
          if x.pagesExpected ≠ 0 ∧ x.pagesEnded + 1 = x.pagesExpected then t.closeDocument d false else t))
    ∧ (∀ blk p, s.place blk p [] = ([], s))
    ∧ (∀ blk p r b bs, s.page p = some r → (r.blocks - 1) * 2048 ≤ r.coded → r.coded ≤ r.blocks * 2048 →
      let off := r.coded - (r.blocks - 1) * 2048
      let n := min (2048 - off) (bs.length + 1)
      (r.coded ≠ r.blocks * 2048 → s.place blk p (b :: bs) =
        ((s.issue blk (s.store.base + r.last * 2048 + off) ((b :: bs).take n)).modPage p (fun y =>
          { y with coded := y.coded + n })).place blk p ((b :: bs).drop n))
      ∧ (r.coded = r.blocks * 2048 → s.store.free = [] → s.place blk p (b :: bs) = (b :: bs, s))
      ∧ (∀ k rest, r.coded = r.blocks * 2048 → s.store.free = k :: rest → s.place blk p (b :: bs) =
        State.place { s with store := { s.store with
          free := rest,
          links := if r.blocks = 0 then tdel s.store.links k else tset (tdel s.store.links k) r.last k,
          pages := tset s.store.pages p { r with
            first := if r.blocks = 0 then k else r.first, last := k, blocks := r.blocks + 1 } } } blk p (b :: bs)))
    ∧ (∀ (i : SourceId) (p n : Nat),
      let x := s.source i
      let ts := transitions (s.lineAt i n)
      let bs := codeFull (widthDots x.width) x.ref ts
      let s1 := s.markCoding i n
      (∀ t, s1.place .pageCoder p bs = ([], t) → s.codeHead i p n = ((t.modPage p (fun y =>
          { y with lines := y.lines + 1 })).modSource i (fun y =>
          { y with ref := ts, held := none, queue := y.queue.tail })).freeLine i n)
      ∧ (∀ b left t, s1.place .pageCoder p bs = (b :: left, t) → s.codeHead i p n =
          t.modSource i (fun y => { y with held := some ⟨b :: left, some ts⟩, wait := some .block }))
      ∧ (∀ r, s.page p = some r → (s.headFits i p n = true ↔ r.lines < 8191 ∧ r.coded + bs.length + 2 ≤ 8388608)))
    ∧ (∀ (i : SourceId) (n : Nat),
      let x := s.source i
      let waits (c : WaitCause) : State := s.modSource i (fun y => { y with wait := some c })
      (s.openPage x.document x.width x.resolution = .refused .docFull →
        s.openContinuation i n = (waits .documentFull).ownerDocFull i)
      ∧ (s.openPage x.document x.width x.resolution = .refused .noPage → s.openContinuation i n = waits .pageRecord)
      ∧ (s.openPage x.document x.width x.resolution = .refused .noBlock
          ∨ s.openPage x.document x.width x.resolution = .refused .docBusy → s.openContinuation i n = waits .block)
      ∧ (∀ p t, s.openPage x.document x.width x.resolution = .opened p t →
        let t1 := t.modSource i (fun y => { y with
          page := some p, document := x.document, width := x.width, resolution := x.resolution, ref := [],
          continuation := false })
        s.openContinuation i n = (match i with
          | .scan => t1
          | .win w => t1.modWindow w (fun y => { y with page := some p })).codeHead i p n))
    ∧ (∀ (i : SourceId), s.part = .running → s.stalled .pageCoder = false → s.pickSource = some i →
      let x := s.source i
      let s0 := s.turnMarker i
      let run (t : State) : Prop := exec .coderLineService s = .next t.scanRetry
      let keeps (t : State) (h : Held) : State := t.modSource i (fun y => { y with held := some h, wait := some .block })
      let sealed (t : State) (p : Nat) (f : Source → Source) : State :=
        (t.sealPage p).modSource i (fun y => f { y with page := none, held := none, ref := [] })
      (∀ n rest, x.queue = n :: rest →
        (x.page = none → x.continuation = true → run (s0.openContinuation i n))
        ∧ ∀ p, x.page = some p →
          (x.held = none → s.headFits i p n = true → run (s0.codeHead i p n))
          ∧ (∀ bs ts, x.held = some ⟨bs, some ts⟩ →
            (∀ t, s0.place .pageCoder p bs = ([], t) → run (((t.modPage p (fun y =>
                { y with lines := y.lines + 1 })).modSource i (fun y =>
                { y with ref := ts, held := none, queue := y.queue.tail })).freeLine i n))
            ∧ (∀ b left t, s0.place .pageCoder p bs = (b :: left, t) → run (keeps t ⟨b :: left, some ts⟩)))
          ∧ (∀ bs, x.held = some ⟨bs, none⟩ ∨ (x.held = none ∧ s.headFits i p n = false ∧ bs = [0x0F, 0x00]) →
            (∀ t, s0.place .pageCoder p bs = ([], t) →
              run (((sealed t p (fun y => { y with continuation := true })).ownerSealed i false).openContinuation i n))
            ∧ (∀ b left t, s0.place .pageCoder p bs = (b :: left, t) → run (keeps t ⟨b :: left, none⟩))))
      ∧ ∀ p bs, x.queue = [] → x.page = some p → bs = x.held.elim [0x0F, 0x00] (fun h => h.bytes) →
        (∀ t, s0.place .pageCoder p bs = ([], t) → exec .coderSealService s =
          .next ((sealed t p (fun y => { y with endSignal := false })).ownerSealed i true).scanRetry)
        ∧ (∀ b left t, s0.place .pageCoder p bs = (b :: left, t) →
          exec .coderSealService s = .next (keeps t ⟨b :: left, none⟩).scanRetry))
    ∧ (s.pickSource = none ∨ s.part ≠ .running ∨ s.stalled .pageCoder = true →
      exec .coderLineService s = .next s ∧ exec .coderSealService s = .next s)
    ∧ ∀ (i : SourceId) (p : Nat) (r : PageRec), s.part = .running → s.stalled .pageCoder = false →
      s.pickSource = some i → (s.source i).page = some p → (s.source i).held = none → s.page p = some r →
      (r.blocks - 1) * 2048 ≤ r.coded →
      let x := s.source i
      let off := r.coded - (r.blocks - 1) * 2048
      let s0 := s.turnMarker i
      let stored (t : State) (bs : List Byte) : State :=
        (t.issue .pageCoder (s.store.base + r.last * 2048 + off) bs).modPage p (fun y =>
          { y with coded := y.coded + bs.length })
      (∀ n rest, x.queue = n :: rest →
        let ts := transitions (s.lineAt i n)
        let bs := codeFull (widthDots x.width) x.ref ts
        let s1 := s0.markCoding i n
        r.lines < 8191 → r.coded + bs.length + 2 ≤ 8388608 →
        (r.coded < r.blocks * 2048 → r.coded + bs.length ≤ r.blocks * 2048 →
          exec .coderLineService s = .next (((((stored s1 bs).modPage p (fun y =>
            { y with lines := y.lines + 1 })).modSource i (fun y =>
            { y with ref := ts, held := none, queue := rest })).freeLine i n).scanRetry))
        ∧ (r.coded = r.blocks * 2048 → s.store.free = [] →
          exec .coderLineService s = .next ((s1.modSource i (fun y =>
            { y with held := some { bytes := bs, line := some ts }, wait := some .block })).scanRetry)))
      ∧ (x.queue = [] → r.coded < r.blocks * 2048 → r.coded + 2 ≤ r.blocks * 2048 →
          exec .coderSealService s = .next (((((stored s0 [0x0F, 0x00]).sealPage p).modSource i (fun y =>
            { y with page := none, held := none, ref := [], endSignal := false })).ownerSealed i true).scanRetry))
      ∧ s.finishSeal p = ((s.modPage p (fun y => { y with state := .sealed })).modDoc r.document (fun d =>
          { d with total := min 4294967295 (d.total + r.coded) })).post .pageStore
          (.pageSealed p r.document r.position r.clipped r.lines r.coded)

/-- The Scanner Port: a LINE is kept in the next empty buffer line, a full buffer pauses the session, and a line
with no room or in the hold is an overrun; SHEET END ends the sheet and holds; the mode acknowledgement ends its
pause; the levels, a jam and the stall end the session. A sheet begins a page: it is opened, or the document is full and
the session ends, or the begin stays pending and is asked again. A page that seals is counted, and with the sheet's last
one the hold ends, and the session where the feeder is empty. A freed buffer line ends the pause of a full buffer once
two are empty. A session's end abandons the page of the scanner source, clears the record, closes the document and is
reported with the session's counts. Feed pause is asserted with no session active, with a full buffer, in the hold, and
until the mode is acknowledged. A late acknowledgement of an earlier session is taken as the current one's, and a sheet
is begun and a page abandoned also while a write of the Page Coder waits for room, which are the model's choices.
A pending sheet begin is asked again after a LINE, the buffer lines' turn begins again at line 0 with a session, and
CLEARED carries counts of 0, which are the model's choices, as is that an expiry with no stall timer running changes
nothing.
Where the manual leaves it to the model: log entries 7, 27, 28, 29, 65, 71, 76 and 77. -/
def Obligations.ScannerPortFollowsItsSession : Prop :=
  ∀ s : State,
    let c := s.scanner
    let put (x : Scanner) : State := { s with scanner := x }
    (s.scanOpen = true ↔ s.part = .running ∧ s.intake.restart = none
      ∧ (c.state = .feeding ∨ c.state = .scanning ∨ c.state = .paused))
    ∧ (s.stallRunning = true ↔ (c.state = .feeding ∨ c.state = .scanning ∨ c.state = .paused)
      ∧ (c.fullPause = true ∨ c.hold = true)
      ∧ (c.beginPending = true ∨ s.coder.scan.wait = some .block ∨ s.coder.scan.wait = some .pageRecord))
    ∧ (c.active = true ↔ c.state = .feeding ∨ c.state = .scanning ∨ c.state = .paused)
    ∧ (c.feedPause = true ↔ c.active = false ∨ c.fullPause = true ∨ c.hold = true ∨ c.ackPending = true)
    ∧ c.emptyLines = c.buffer.countP (fun b => b = .empty)
    ∧ (let empty (k : Nat) : Prop := k < 4 ∧ c.buffer[k]? = some .empty
      let turn (k : Nat) : Nat := (k + 4 - c.nextIn) % 4
      c.nextIn < 4 → (c.nextEmpty = none ↔ ∀ k, ¬ empty k)
        ∧ ∀ n, c.nextEmpty = some n ↔ empty n ∧ ∀ k, empty k → turn n ≤ turn k)
    ∧ (c.active = false ∨ c.emptyLines ≠ 0 → c.pauseIfFull = c)
    ∧ (c.active = true → c.emptyLines = 0 → c.pauseIfFull = { c with
      fullPause := true, before := if c.state = .paused then c.before else c.state, state := .paused })
    ∧ (let x := s.coder.scan
      let t : State := match x.page with
        | some p => s.abandonPage p
        | none => s
      s.abandonSource .scan = { t with coder := { t.coder with scan := { t.coder.scan with
        page := none, ref := [], held := none, wait := none, continuation := false, queue := [], endSignal := false } } })
    ∧ (∀ st r b,
      let t := s.abandonSource .scan
      let t1 : State := { t with scanner := { c with
        state := st, before := st, document := none, beginPending := false, endPending := false, lastSheet := false,
        hold := false, fullPause := false, ackPending := false, buffer := [.empty, .empty, .empty, .empty], nextIn := 0 } }
      let told (y : State) : State := y.post .scannerPort (.scanState st r c.document c.sheetsBegun c.pagesSealed
        c.linesTaken c.widthFaults c.overruns)
      (c.document = none → s.endScan st r b = told t1)
      ∧ (∀ d, c.document = some d → s.endScan st r b = told (t1.closeDocument d b)))
    ∧ (c.active = true → c.beginPending = true → s.scanRetry = s.beginSheetPage)
    ∧ (c.active = false ∨ c.beginPending = false → s.scanRetry = s)
    ∧ (c.document = none → s.beginSheetPage = s)
    ∧ (∀ d, c.document = some d →
      (∀ p t, s.openPage d c.width c.resolution = .opened p t → s.beginSheetPage = { t with
        coder := { t.coder with scan := { t.coder.scan with
          page := some p, document := d, width := c.width, resolution := c.resolution, ref := [],
          endSignal := c.endPending || t.coder.scan.endSignal } },
        scanner := { t.scanner with beginPending := false, endPending := false } })
      ∧ (s.openPage d c.width c.resolution = .refused .docFull → s.beginSheetPage = s.endScan .idle .docFull true)
      ∧ (∀ r, r ≠ .docFull → s.openPage d c.width c.resolution = .refused r →
        s.beginSheetPage = put { c with beginPending := true }))
    ∧ (let one : Scanner := { c with pagesSealed := c.pagesSealed + 1 }
      let t := put { one with hold := false }
      s.scanSealed false = put one
      ∧ (c.lastSheet = true ∨ c.sheetPresent = false → s.scanSealed true = t.endScan .idle .done false)
      ∧ (c.lastSheet = false → c.sheetPresent = true → s.scanSealed true = t))
    ∧ (∀ n,
      let y : Scanner := { c with buffer := c.buffer.set n .empty }
      let empty := y.buffer.countP (fun b => b = .empty)
      (c.fullPause = false ∨ empty < 2 → s.freeBufferLine n = put y)
      ∧ (c.fullPause = true → 2 ≤ empty → s.freeBufferLine n = put { y with
        fullPause := false, state := if c.state = .paused then c.before else c.state }))
    ∧ (s.scanOpen = false → ∀ ds, exec (.line ds) s = .next s.scanRetry ∧ exec .sheetEnd s = .next s)
    ∧ (s.scanOpen = true → ∀ ds,
      (c.hold = true ∨ c.nextEmpty = none →
        exec (.line ds) s = .next (put { c with overruns := min 4294967295 (c.overruns + 1) }).scanRetry)
      ∧ (∀ n, c.hold = false → c.nextEmpty = some n →
        let w := widthDots c.width
        let c1 : Scanner := { c with
          buffer := c.buffer.set n (.held (ds.take w ++ List.replicate (w - ds.length) false)),
          nextIn := (n + 1) % 4, linesTaken := min 4294967295 (c.linesTaken + 1),
          widthFaults := if ds.length = w then c.widthFaults else min 4294967295 (c.widthFaults + 1) }
        let c2 : Scanner := if c1.emptyLines = 0 then { c1 with
          fullPause := true, before := if c.state = .paused then c.before else c.state, state := .paused } else c1
        let queued (x : Scanner) : State := (put x).modSource .scan (fun x => { x with queue := x.queue ++ [n] })
        (c.state ≠ .feeding → exec (.line ds) s = .next (queued c2).scanRetry)
        ∧ (c.state = .feeding →
          let t := (queued { c1 with state := .scanning, sheetsBegun := min 65535 (c.sheetsBegun + 1) }).beginSheetPage
          exec (.line ds) s = .next (State.scanRetry { t with scanner := t.scanner.pauseIfFull }))))
    ∧ (s.scanOpen = true → c.hold = true → exec .sheetEnd s = .next s)
    ∧ (s.scanOpen = true → c.hold = false → c.state = .feeding →
      let t := put { c with sheetsBegun := min 65535 (c.sheetsBegun + 1) }
      exec .sheetEnd s = .next (if c.sheetPresent then t else t.endScan .idle .done false))
    ∧ (s.scanOpen = true → c.hold = false → c.state ≠ .feeding →
      let t := put { c with
        lastSheet := !c.sheetPresent, state := .feeding, before := .feeding, hold := true, endPending := c.beginPending }
      exec .sheetEnd s = .next (if c.beginPending then t else t.modSource .scan (fun x => { x with endSignal := true })))
    ∧ (c.active = true → exec .modeAcknowledgement s = .next (put { c with ackPending := false }))
    ∧ (c.active = false → exec .modeAcknowledgement s = .next s)
    ∧ (s.stallRunning = true → exec .stallTimerExpiry s = .next (s.endScan .idle .memoryFull true))
    ∧ (s.stallRunning = false → exec .stallTimerExpiry s = .next s)
    ∧ exec (.sheetPresentChange true) s = .next (put { c with sheetPresent := true })
    ∧ (c.sheetPresent = true →
      let t := put { c with sheetPresent := false }
      (c.state = .feeding → c.hold = false → exec (.sheetPresentChange false) s = .next (t.endScan .idle .done false))
      ∧ (c.state = .jammed → exec (.sheetPresentChange false) s = .next (State.post
          (put (Scanner.close { c with sheetPresent := false } .idle)) .scannerPort
          (.scanState .idle .cleared none 0 0 0 0 0)))
      ∧ (c.state ≠ .feeding ∨ c.hold = true → c.state ≠ .jammed → exec (.sheetPresentChange false) s = .next t))
    ∧ (s.part ≠ .running → ∀ b, exec (.jamChange b) s = .next (put { c with jam := b }))
    ∧ (s.part = .running → c.jam = false →
      let t := put { c with jam := true }
      (c.active = true → exec (.jamChange true) s = .next (t.endScan .jammed .jammed true))
      ∧ (c.state = .idle → exec (.jamChange true) s = .next (State.post
          (put (Scanner.close { c with jam := true } .jammed)) .scannerPort
          (.scanState .jammed .jammed none 0 0 0 0 0))))
    ∧ (s.part = .running → c.jam = true → c.state = .jammed →
      (c.sheetPresent = false → exec (.jamChange false) s = .next (State.post
          (put (Scanner.close { c with jam := false } .idle)) .scannerPort (.scanState .idle .cleared none 0 0 0 0 0)))
      ∧ (c.sheetPresent = true → exec (.jamChange false) s = .next (put { c with jam := false })))

/-! ## Recoders -/

/-- The transmit side. A unit with no page, or with a full FIFO, does nothing. With nothing left to place, the
recoder codes its next line in the form in force, or the END mark after the last line, and what fits of it and
of the FILL up to the minimum line size enters the FIFO; the next command goes on with what is left. A line is the next
stored one, or two merged where a FINE page is ordered NORMAL and two are left, a dot being black where it is black in
either; it is cropped to the ordered width or padded with white to it, half on each side. The link takes up to 64 bytes of the page; of an empty
FIFO inside the page's stream it takes FILL; with the page's last byte STOP DATA and PAGE END go out. While a pending
write overlaps the stored line that the recoder needs, its read is held, and the recoder does nothing (R61).
With no page, no session or nothing to take, the command changes nothing, which is the model's choice.
Where the manual leaves it to the model: log entries 7, 12, 31 and 32. -/
def Obligations.TransmitSideCodesAndSends : Prop :=
  ∀ (s : State) (u : UnitId),
    let l := s.unit u
    let t := l.tx
    (t.page = none ∨ 1024 ≤ l.txFifo.length ∨ s.txHeld t = true → exec (.transmitLineRecode u) s = .next s)
    ∧ (s.path.queue = [] → s.path.waiting = [] → s.txHeld t = false)
    ∧ (t.page ≠ none → l.txFifo.length < 1024 →
      let placed (x : TxRecoder) (bs : List Byte) (fill : Nat) : Prop :=
        let room := 1024 - l.txFifo.length
        let k := min (room - bs.length) fill
        exec (.transmitLineRecode u) s = .next { s with units := s.units.set u { l with
          txFifo := l.txFifo ++ bs.take room ++ List.replicate k 0x00,
          tx := { x with out := bs.drop room, fill := fill - k },
          stats := { l.stats with fillBytes := min 4294967295 (l.stats.fillBytes + k) } } }
      (t.out ≠ [] ∨ t.fill ≠ 0 → placed t t.out t.fill)
      ∧ (t.out = [] → t.fill = 0 → s.txHeld t = false →
        (∀ ts t1, t.ended = false → s.txLine t = some (ts, t1) →
          let line := fitLine t1.width t1.order.width ts
          let bs := codeLine t1.order.form (widthDots t1.order.width) t1.outRef line
          placed { t1 with outRef := line } bs (t1.minimum - bs.length))
        ∧ (t.ended = false → s.txLine t = none → placed { t with ended := true } [0x0F, 0x00] 0)
        ∧ (t.ended = true → placed t [] 0)))
    ∧ (∀ x : TxRecoder,
      let took (y : TxRecoder) (ts : List Nat) (n : Nat) : TxRecoder :=
        { y with storedRef := ts, offset := y.offset + n, linesLeft := y.linesLeft - 1 }
      (x.linesLeft = 0 → s.txLine x = none)
      ∧ ∀ p r ts n, x.page = some p → s.page p = some r → x.linesLeft ≠ 0 →
        takeLine (widthDots x.width) x.storedRef (s.streamFrom r x.offset) = .good ts n →
        let y := took x ts n
        let merged : Prop := x.resolution = .fine ∧ x.order.resolution = .normal
        (¬ merged ∨ x.linesLeft = 1 → s.txLine x = some (ts, y))
        ∧ (∀ ts2 n2, merged → 2 ≤ x.linesLeft →
          takeLine (widthDots x.width) ts (s.streamFrom r y.offset) = .good ts2 n2 →
          s.txLine x = some (mergeLines (widthDots x.width) ts ts2, took y ts2 n2)))
    ∧ (∀ w a b,
      let m := mergeLines w a b
      lineDots w m = List.zipWith (fun x y => x || y) (lineDots w a) (lineDots w b) ∧ transitions (lineDots w m) = m)
    ∧ (∀ c o ts,
      let wp := widthDots c
      let wo := widthDots o
      let row := lineDots wp ts
      let out := fitLine c o ts
      (c = o → out = ts)
      ∧ (c ≠ o → transitions (lineDots wo out) = out ∧ ∀ i, i < wo → (lineDots wo out)[i]? = some
        (if wo < wp then row.getD (i + (wp - wo) / 2) false
         else if (wo - wp) / 2 ≤ i then row.getD (i - (wo - wp) / 2) false else false)))
    ∧ (s.caller u = none → ∀ n, exec (.linkSendData u n) s = .next s)
    ∧ (t.page = none → ∀ n, exec (.linkSendData u n) s = .next s)
    ∧ ∀ c n, s.caller u = some c → t.page ≠ none → 1 ≤ n → n ≤ 64 →
      let bs := l.txFifo.take n
      let rest := l.txFifo.drop n
      let whole : Prop := t.ended = true ∧ t.out = [] ∧ t.fill = 0
      let sent (k : Nat) (m : LinkMsg) : LineUnit := { l with
        out := l.out ++ [m], attemptBytes := min 4294967295 (l.attemptBytes + k),
        stats := { l.stats with bytesSent := min 4294967295 (l.stats.bytesSent + k) } }
      let put (x : LineUnit) : State := { s with units := s.units.set u x }
      (rest ≠ [] → exec (.linkSendData u n) s = .next (put { sent bs.length (.sendData bs) with
          txFifo := rest, tx := { t with begun := true, wire := t.wire + bs.length } }))
      ∧ (bs ≠ [] → rest = [] → ¬ whole → exec (.linkSendData u n) s = .next (put
          (let x := sent bs.length (.sendData bs)
           { x with txFifo := [], tx := { t with begun := true, wire := t.wire + bs.length },
                    stats := { x.stats with underruns := min 4294967295 (l.stats.underruns + 1) } })))
      ∧ (bs ≠ [] → rest = [] → whole → exec (.linkSendData u n) s = .next (put
          (let x := sent bs.length (.sendData bs)
           { x with txFifo := [], tx := { t with begun := true, wire := t.wire + bs.length, page := none }, out := x.out ++ [.stopData, .sendFrame (.pageEnd c.kind)],
                    callerSession := some { c with phase := .awaitVerdict, sends := 1, wait := some .reply },
                    stats := { x.stats with pagesSent := min 4294967295 (l.stats.pagesSent + 1) } })))
      ∧ (l.txFifo = [] → t.begun = true → ¬ whole → exec (.linkSendData u n) s = .next (put
          (let x := sent n (.sendData (List.replicate n 0x00))
           { x with tx := { t with wire := t.wire + n },
                    stats := { x.stats with fillBytes := min 4294967295 (l.stats.fillBytes + n) } })))
      ∧ (l.txFifo = [] → t.begun = false → exec (.linkSendData u n) s = .next s)

/-- The receive side. DATA and the end marks enter the FIFO of an answering unit whose page is being decoded;
bytes beyond 1024 are lost behind one gap mark. The recoder takes one item at a time: a byte that completes no line, FILL,
a good line, a bad line and a gap, and the ends, which report the page's figures to the session. A line that CARRIER LOST
leaves open is bad too; after that mark nothing enters the FIFO. A line is coded again in FULL form and stored where the
page holds it under both caps; the first that it does not hold is dropped with those behind it, the page being clipped,
and with no block to be had nothing more is stored. A byte that is no line tag, FILL or END is a bad line of one byte. A
SHIFT line is bad against an all-white reference, which takes the tag alone, or where a value in use is 0 or its positions
do not rise within the line; a RUNS line is bad where its count is 0 or above the width and one more, which takes the head
alone, or where its runs do not sum to the width or one after the first is 0; a line wants more bytes until it is whole.
While a write of the unit waits for room the recoder does nothing (R61). A pending sheet begin is asked again after an item.
Where the manual leaves it to the model: log entries 16, 28 and 30. -/
def Obligations.ReceiveSideDecodesAndStores : Prop :=
  (∀ (s : State) (u : UnitId),
    let l := s.unit u
    let x := l.rx
    let put (y : LineUnit) : State := { s with units := s.units.set u y }
    let open_ : Prop := x.state = .active ∧ RxItem.carrierLost ∉ l.rxFifo
    (s.answering u = none → ∀ bs, exec (.data u bs) s = .next s ∧ exec (.dataEnd u) s = .next s)
    ∧ (∀ a, s.answering u = some a → ¬ open_ →
        ∀ bs, exec (.data u bs) s = .next s ∧ exec (.dataEnd u) s = .next s)
    ∧ (∀ a, s.answering u = some a → open_ →
      exec (.dataEnd u) s = .next (put { l with rxFifo := l.rxFifo ++ [.dataEnd] })
      ∧ (∀ bs, bs ≠ [] → fifoBytesHeld l.rxFifo + bs.length ≤ 1024 → exec (.data u bs) s = .next (put { l with
          rxFifo := l.rxFifo ++ bs.map RxItem.byte, answerer := some { a with dataTaken := true } }))
      ∧ (∀ bs, fifoBytesHeld l.rxFifo < 1024 → 1024 < fifoBytesHeld l.rxFifo + bs.length →
        exec (.data u bs) s = .next (put { l with
          rxFifo := l.rxFifo ++ (bs.take (1024 - fifoBytesHeld l.rxFifo)).map RxItem.byte ++ [.gap],
          answerer := some { a with dataTaken := true } }))
      ∧ (∀ bs, bs ≠ [] → fifoBytesHeld l.rxFifo = 1024 → exec (.data u bs) s = .next (put { l with
          rxFifo := if l.rxFifo.getLast? = some .gap then l.rxFifo else l.rxFifo ++ [.gap] })))
    ∧ (∀ ts,
      let bs := codeFull (widthDots x.width) x.ref ts
      (x.page = none ∨ x.noRoom ≠ none ∨ x.clippedOff = true → s.rxStore u ts = s)
      ∧ ∀ p r, x.page = some p → s.page p = some r → x.noRoom = none → x.clippedOff = false →
        let fits : Prop := r.lines < 8191 ∧ r.coded + bs.length + 2 ≤ 8388608
        (¬ fits → s.rxStore u ts = (s.modPage p (fun y => { y with clipped := true })).modUnit u
          (fun y => { y with rx := { y.rx with clippedOff := true } }))
        ∧ (∀ t, fits → s.place (.unit u) p bs = ([], t) →
          s.rxStore u ts = t.modPage p (fun y => { y with lines := y.lines + 1 }))
        ∧ (∀ b left t, fits → s.place (.unit u) p bs = (b :: left, t) →
          s.rxStore u ts = t.modUnit u (fun y => { y with rx := { y.rx with noRoom := some .noBlock } })))
    ∧ (s.stalled (.unit u) = true ∨ l.rxFifo = [] → exec (.receiveDecode u) s = .next s.scanRetry)
    ∧ s.rxBad u = (s.rxStore u x.ref).modUnit u (fun y => { y with
          rx := { y.rx with
            line := [], received := min 65535 (y.rx.received + 1), bad := min 65535 (y.rx.bad + 1),
            run := min 65535 (y.rx.run + 1), longest := max y.rx.longest (min 65535 (y.rx.run + 1)) },
          stats := { y.stats with badLines := min 4294967295 (y.stats.badLines + 1) } })
    ∧ ∀ m rest, s.stalled (.unit u) = false → l.rxFifo = m :: rest →
      let s1 := put { l with rxFifo := rest }
      let rx (y : RxRecoder) : State := put { l with rxFifo := rest, rx := y }
      (x.state ≠ .active → exec (.receiveDecode u) s = .next s1.scanRetry)
      ∧ (x.state = .active →
        (∀ b, m = .byte b →
          let got := takeLine (widthDots x.width) x.ref (x.line ++ [b])
          (got = .more → exec (.receiveDecode u) s = .next (rx { x with line := x.line ++ [b] }).scanRetry)
          ∧ (got = .fill → exec (.receiveDecode u) s = .next (rx { x with line := [] }).scanRetry)
          ∧ (∀ ts k, got = .good ts k → exec (.receiveDecode u) s = .next ((s1.rxStore u ts).modUnit u (fun y => { y with
              rx := { y.rx with ref := ts, line := [], received := min 65535 (y.rx.received + 1), run := 0 } })).scanRetry)
          ∧ (∀ k, got = .bad k → exec (.receiveDecode u) s = .next (s1.rxBad u).scanRetry)
          ∧ (got = .endTag → exec (.receiveDecode u) s =
              .next ((rx { x with state := .ended, line := [] }).takeReport u
                ⟨x.received, x.bad, x.longest, true, x.noRoom⟩).scanRetry))
        ∧ (m = .gap → exec (.receiveDecode u) s = .next (s1.rxBad u).scanRetry)
        ∧ (m = .dataEnd ∨ m = .carrierLost → x.line = [] → exec (.receiveDecode u) s =
            .next ((rx { x with state := .ended, line := [] }).takeReport u
              ⟨x.received, x.bad, x.longest, false, x.noRoom⟩).scanRetry)
        ∧ (m = .dataEnd ∨ m = .carrierLost → x.line ≠ [] →
          let t := s1.rxBad u
          let y := (t.unit u).rx
          exec (.receiveDecode u) s = .next ((t.modUnit u (fun z => { z with
            rx := { z.rx with state := .ended, line := [] } })).takeReport u
              ⟨y.received, y.bad, y.longest, false, y.noRoom⟩).scanRetry)))
  ∧ ∀ (w : Nat) (ref : List Nat),
    let read := takeLine w ref
    read [] = .more
    ∧ (∀ (b : Byte) rest, (b = 0x00 → read (b :: rest) = .fill) ∧ (b = 0x01 → read (b :: rest) = .good ref 1)
      ∧ (b = 0x0F → read (b :: rest) = .endTag)
      ∧ (b.toNat ∉ [0, 1, 2, 15] → b.toNat < 64 ∨ 80 ≤ b.toNat → read (b :: rest) = .bad 1))
    ∧ (∀ rest, ref = [] → read (0x02 :: rest) = .bad 1)
    ∧ (∀ body : List Byte, ref ≠ [] → body.length < (ref.length + 1) / 2 → read (0x02 :: body) = .more)
    ∧ (∀ body rest : List Byte, ref ≠ [] → body.length = (ref.length + 1) / 2 →
      let v (i : Nat) : Nat :=
        let b := (body.getD (i / 2) 0).toNat
        if i % 2 = 0 then b / 16 else b % 16
      let place (i : Nat) : Nat := ref.getD i 0 + v i - 8
      let sound : Prop := ∀ i, i < ref.length → v i ≠ 0 ∧ 8 ≤ ref.getD i 0 + v i ∧ place i < w
        ∧ (i + 1 < ref.length → place i < place (i + 1))
      (sound → read (0x02 :: body ++ rest) = .good ((List.range ref.length).map place) (1 + body.length))
      ∧ (¬ sound → read (0x02 :: body ++ rest) = .bad (1 + body.length)))
    ∧ ∀ b : Byte, 64 ≤ b.toNat → b.toNat < 80 →
      read [b] = .more
      ∧ ∀ c : Byte,
        let k := (b.toNat - 64) * 256 + c.toNat
        (∀ rest, k = 0 ∨ w + 1 < k → read (b :: c :: rest) = .bad 2)
        ∧ (1 ≤ k → k ≤ w + 1 → ∀ runs : List (List Byte), runs.length = k →
          (∀ r ∈ runs, (∃ d : Byte, r = [d] ∧ d.toNat < 128) ∨ ∃ d e : Byte, r = [d, e] ∧ 128 ≤ d.toNat) →
          let sizes : List Nat := runs.map (fun r => match r with
            | [d] => d.toNat
            | [d, e] => (d.toNat - 128) * 256 + e.toNat
            | _ => 0)
          let body := runs.flatten
          let sound : Prop := sizes.sum = w ∧ ∀ z ∈ sizes.drop 1, z ≠ 0
          (∀ n, n < body.length → read (b :: c :: body.take n) = .more)
          ∧ ∀ rest, (sound → read (b :: c :: body ++ rest) =
                .good ((List.range (k - 1)).map (fun i => (sizes.take (i + 1)).sum)) (2 + body.length))
              ∧ (¬ sound → read (b :: c :: body ++ rest) = .bad (2 + body.length)))

/-! ## Calls -/

/-- A ringing: RING in IDLE begins it, RING in RINGING counts, the ring that brings the count to rings to answer answers
with CALL_IN and the first OFFER unless the verdict is REFUSED; RING in SEIZING is glare on a unit of mode BOTH: it
leaves the release time as it was, which is the model's choice, and returns the entry, which is tested against its desk
again; the first CALLER is looked up; the ring timer ends it with CALL_MISSED. A unit that takes no incoming calls
discards RING. A pending sheet begin is asked again after RING.
Where the manual leaves it to the model: log entries 7, 17, 28, 40, 52 and 83. -/
def Obligations.RingingCountsAndAnswers : Prop :=
  ∀ (s : State) (u : UnitId),
    let l := s.unit u
    let put (x : LineUnit) : State := { s with units := s.units.set u x }
    let rung (t : State) : Prop := exec (.ring u) s = .next t.scanRetry
    let takes : Prop := l.mode = .receive ∨ l.mode = .both
    let begun : LineUnit := { l with
      state := .ringing, timer := some 8000, ringCount := 1, caller := none, verdict := .none, glare := false,
      role := none, entry := none }
    let began : State := { put begun with screen := { s.screen with ringMatch := s.screen.ringMatch.set u none } }
    let more : LineUnit := { l with ringCount := min 255 (l.ringCount + 1), timer := some 8000 }
    (¬ takes → l.state = .idle ∨ l.state = .ringing → rung s)
    ∧ (l.state = .seizing → l.mode ≠ .both → rung s)
    ∧ (l.state = .off ∨ l.state = .dialling ∨ l.state = .awaitAnswer ∨ l.state = .inSession ∨ l.state = .clearing
        ∨ l.state = .blocked → rung s)
    ∧ (takes → l.state = .idle →
      (s.settings.ringsToAnswer ≠ 1 → rung began)
      ∧ (s.settings.ringsToAnswer = 1 → rung (began.answerRing u)))
    ∧ (takes → l.state = .ringing →
      let refused : Prop := ∃ r, l.verdict = .refused r
      (refused ∨ more.ringCount ≠ s.settings.ringsToAnswer → rung (put more))
      ∧ (¬ refused → more.ringCount = s.settings.ringsToAnswer → rung ((put more).answerRing u)))
    ∧ (l.state = .seizing → l.mode = .both →
      let t := (s.sendLink u .release).glareReturn u
      let t1 : State := { t with
        units := t.units.set u { t.unit u with
          handOver := none, answered := false, result := none, state := .ringing, timer := some 8000,
          ringCount := 1, caller := none, verdict := .none, glare := true, role := none, entry := none },
        screen := { t.screen with ringMatch := t.screen.ringMatch.set u none } }
      (s.settings.ringsToAnswer ≠ 1 → rung t1.arbiterPasses)
      ∧ (s.settings.ringsToAnswer = 1 → rung (t1.answerRing u).arbiterPasses))
    ∧ (l.entry = none → s.glareReturn u = s)
    ∧ (∀ i e, l.entry = some i → s.entry i = some e →
      let st : EntryState := if e.cancelPending then .cancelled else .ready
      let s1 := (s.modEntry i (fun x => { x with
          attempts := x.attempts - 1, unit := none, lastResult := some .glare, state := st, cancelPending := false })).post
        .sendQueue (.destResult i e.document e.desk (e.attempts - 1) (some u) st .glare e.confirmed e.orderSeq 0 0
          e.chargeTotal)
      (e.cancelPending = false → s.glareReturn u = s1.testDesk i)
      ∧ (e.cancelPending = true → s.glareReturn u = (State.modDoc
          { s1 with sendq := { s1.sendq with finals := s1.sendq.finals ++ [i] } } e.document
          (fun r => { r with sendRefs := r.sendRefs - 1 })).testFree e.document))
    ∧ (∀ i e, s.entry i = some e →
      let z := s.meter.tariff.lookup e.number
      let held : Prop := e.state = .ready ∧ (z.2.priced = true ∨ s.meter.logRoom = false)
        ∧ ∃ k, s.desk e.desk = some k ∧ k.state ≠ .opened
      (held → e.heldReported = false → ∀ k, s.desk e.desk = some k → s.testDesk i = (s.modEntry i (fun x =>
          { x with state := .held, heldReported := true })).post .sendQueue (.destHeld i e.desk k.state z.1 e.orderSeq))
      ∧ (held → e.heldReported = true → s.testDesk i = s.modEntry i (fun x =>
          { x with state := .held, heldReported := true }))
      ∧ (¬ held → (s.desk e.desk).isSome → s.testDesk i = s))
    ∧ s.answerRing u = (State.post (put { l with
        out := l.out ++ [.answer], timer := none, role := some .answerer, state := .inSession,
        stats := { l.stats with callsIn := min 4294967295 (l.stats.callsIn + 1) } }) (.unit u)
        (.callIn u l.ringCount l.glare l.caller)).startAnswerer u
    ∧ (let ready : Bool := decide (s.settings.receiveReserve ≤ s.store.free.length)
          && (lowestFree 256 s.store.docs).isSome && (lowestFree 1024 s.store.pages).isSome
      let o : OfferMode :=
        { station := s.settings.station, maxRate := .r12000, forms := .full, fine := true, maxWidth := .broad,
          minLineTime := 0, ready := ready }
      s.startAnswerer u = put { l with
        out := l.out ++ [.sendFrame (.offer o)],
        answerer := some {
          phase := if ready then .offering else .notReady, document := none, order := none, asked := none, kind := none,
          sends := 1, wait := some (if ready then .reply else .notReady), route := ⟨0, 0, false⟩, lastVerdict := none,
          dataTaken := false, report := none } })
    ∧ (∀ number, l.state = .ringing → l.caller = none →
      let a := s.screen.lookupRinging u number s.now
      let t : State := { put { l with caller := some number, verdict := a.1.verdict } with screen := a.2 }
      (∀ r, a.1.verdict = .refused r → exec (.caller u number) s =
        .next (t.post (.unit u) (.callRefused u r a.1.refusing (some number) none)))
      ∧ ((∀ r, a.1.verdict ≠ .refused r) → exec (.caller u number) s = .next t))
    ∧ (∀ number,
      let c := s.screen
      let key : Prop := number ≠ [] ∧ number.length ≤ 20 ∧ ∀ x ∈ number, isNumberKey x = true
      let ans (v : RingVerdict) (b : Option Refusing) (es : Table ScreenEntry) (m : Option (Nat × Text)) : Prop :=
        c.lookupRinging u number s.now = (⟨v, b⟩, { c with entries := es, ringMatch := c.ringMatch.set u m })
      (¬ key ∨ findKey .number number c.entries = none → ans .none none c.entries none)
      ∧ (key → ∀ i e, findKey .number number c.entries = some (i, e) →
        (e.kind = .deny → ans (.refused .denied) (some ⟨.number, i⟩) (tmod c.entries i (fun x => { x with
          touched := true, calls := min 65535 (x.calls + 1), lastCall := some s.now })) none)
        ∧ (e.kind ≠ .deny → ans .matched none (tmod c.entries i (fun x => { x with touched := true }))
          (some (i, number)))))
    ∧ (∀ number, l.state ≠ .ringing ∨ l.caller ≠ none → exec (.caller u number) s = .next s)
    ∧ (l.state ≠ .ringing → exec (.ringTimerExpiry u) s = .next s)
    ∧ (l.state = .ringing →
      let t (r : MissReason) (q : Option RefuseReason) : State :=
        (put { l with ringCount := 0, caller := none, verdict := .none, glare := false }).post (.unit u)
          (.callMissed u r q l.ringCount l.caller)
      (∀ r, l.verdict = .refused r →
        exec (.ringTimerExpiry u) s = .next (((t .refused (some r)).enterIdle u).arbiterPasses))
      ∧ ((∀ r, l.verdict ≠ .refused r) →
        exec (.ringTimerExpiry u) s = .next (((t .stopped none).enterIdle u).arbiterPasses)))

/-- An outgoing call up to its answer: DIAL TONE dials the lead-in and the number, DIAL DONE waits 45 s, an
answer meters the call and starts the session, and each failure ends the call with its result. A message in a
state that gives it no handling has no effect. The session starts as caller, or ends with SUCCESS at once where no page
is left to send; its page end kind and sends at that moment are the model's choice. A call that ends sends RELEASE, records the time, stops its metering, drops its session with its
recoders and FIFOs, and stands in CLEARING for 2 s; the receive recoder alone goes on to a CARRIER LOST in its FIFO.
Where the manual leaves it to the model: log entries 7, 17, 60 and 72. -/
def Obligations.OutgoingCallStepsByState : Prop :=
  ∀ (s : State) (u : UnitId),
    let l := s.unit u
    let put (x : LineUnit) : State := { s with units := s.units.set u x }
    let dropped (x : LineUnit) : LineUnit := { x with
      callerSession := none, answerer := none, tx := TxRecoder.reset, txFifo := [],
      rx := if RxItem.carrierLost ∈ x.rxFifo then { x.rx with page := none } else RxRecoder.reset,
      rxFifo := if RxItem.carrierLost ∈ x.rxFifo then x.rxFifo else [] }
    (∀ h, l.state = .seizing → l.handOver = some h →
      let digits := l.lead ++ h.number
      exec (.dialTone u) s = .next (put { l with
        out := l.out ++ [.dial digits], dialFailures := 0, state := .dialling,
        timer := some (20000 + 2000 * digits.countP (fun c => c = 0x2C)) }))
    ∧ (l.state ≠ .seizing → exec (.dialTone u) s = .next s ∧ exec (.seizeTimeout u) s = .next s)
    ∧ (l.state = .seizing → exec (.seizeTimeout u) s =
        .next ((put { l with dialFailures := min 3 (l.dialFailures + 1) }).endCall u .noDialTone))
    ∧ (l.state = .dialling →
      exec (.dialDone u) s = .next (put { l with state := .awaitAnswer, timer := some 45000 })
      ∧ exec (.dialLimitExpiry u) s = .next (s.endCall u .dialFailed))
    ∧ (l.state ≠ .dialling → exec (.dialDone u) s = .next s ∧ exec (.dialLimitExpiry u) s = .next s)
    ∧ (l.state = .dialling ∨ l.state = .awaitAnswer → exec (.busyTone u) s = .next (s.endCall u .busy))
    ∧ (l.state ≠ .dialling → l.state ≠ .awaitAnswer → exec (.busyTone u) s = .next s)
    ∧ (l.state = .awaitAnswer →
      exec (.answerTimeout u) s = .next (s.endCall u .noAnswer)
      ∧ exec (.answerTone u) s = .next (((put { l with
          timer := none, answered := true, state := .inSession,
          stats := { l.stats with callsOut := min 4294967295 (l.stats.callsOut + 1) } }).meterStart u).startCaller u))
    ∧ (l.state ≠ .awaitAnswer → exec (.answerTimeout u) s = .next s ∧ exec (.answerTone u) s = .next s)
    ∧ (l.handOver = none → s.startCaller u = s)
    ∧ (∀ h, l.handOver = some h →
      let total := (s.doc h.document).elim 0 (fun d => d.pages.length)
      let s1 := put { l with callerSession := some {
        phase := .awaitOffer, document := h.document, total := total, position := h.confirmed, confirmed := h.confirmed,
        offer := none, ceiling := .r12000, order := none, withCheck := false, kind := .last, resends := 0, sends := 1,
        wait := some .offer } }
      (h.confirmed < total → s.startCaller u = s1)
      ∧ (total ≤ h.confirmed → s.startCaller u = (s1.sendLink u (.sendFrame .release)).endCall u .success))
    ∧ (let t := put { l with out := l.out ++ [.release], releaseTime := s.now }
      s.releaseCall u = (if l.answered then t.meterRelease u else t).modUnit u (fun x =>
        { dropped x with state := .clearing, timer := some 2000 }))
    ∧ (∀ r, s.endCall u r = (put { l with result := some r }).releaseCall u)
    ∧ (∀ type, exec (.unknownLinkMessage u type) s = .next s) ∧ exec (.corruptFrame u) s = .next s

/-- The guard's expiry takes a unit to IDLE, or to BLOCKED after three failures to get dial tone, and reports an
outgoing call's outcome; LINE FAULT blocks a unit from any state but OFF and BLOCKED, and LINE OK returns it. The report
carries the entry, the result, the answered flag, the release time, the pages confirmed and the attempt bytes. The
outcome gives the entry its new state and asks for DEST_RESULT, with the pages confirmed and the bytes of the report
and, for an answered attempt, its charge; where the Meter has still to give the call's charge it is kept until then, and
taken while the entry is still that unit's last call. LINE FAULT ends what it finds: a ringing with CALL_MISSED, an
outgoing call with LINE_FAULT, a reception cut short. The clearing of the call's fields on both sides, the CALL_MISSED
with no screening reason, what becomes of a receive FIFO, and that an expiry in no CLEARING unit changes nothing are the
model's choices.
Where the manual leaves it to the model: log entries 7, 16, 28, 34, 40, 59, 60, 61, 62 and 88. -/
def Obligations.CallsEndAndUnitsBlock : Prop :=
  ∀ (s : State) (u : UnitId),
    let l := s.unit u
    let count (t : State) : State := { t with
      intake := { t.intake with restart := t.intake.restart.map (fun q => q.set u true) } }
    let rest (st : CallState) : State := count { s with units := s.units.set u { l with state := st, timer := none } }
    let dropped (x : LineUnit) : LineUnit := { x with
      callerSession := none, answerer := none, tx := TxRecoder.reset, txFifo := [],
      rx := if RxItem.carrierLost ∈ x.rxFifo then { x.rx with page := none } else RxRecoder.reset,
      rxFifo := if RxItem.carrierLost ∈ x.rxFifo then x.rxFifo else [] }
    let hung (t : State) : State :=
      let x := t.unit u
      let t1 : State := { t with units := t.units.set u { x with out := x.out ++ [.release], releaseTime := t.now } }
      (if x.answered then t1.meterRelease u else t1).modUnit u dropped
    let clear (t : State) : State := t.modUnit u (fun x => { x with
      role := none, entry := none, handOver := none, answered := false, result := none, attemptBytes := 0,
      ringCount := 0, caller := none, verdict := .none, glare := false })
    let say (t : State) (r : LineReason) : State :=
      t.post (.unit u) (.lineState u r (t.unit u).state (t.unit u).mode (t.unit u).pendingMode)
    (l.pendingMode = none → s.enterIdle u = rest .idle)
    ∧ (∀ m, l.pendingMode = some m →
      let st : CallState := if m = .off then .off else .idle
      s.enterIdle u = (count { s with units := s.units.set u { l with
        mode := m, pendingMode := none, state := st, timer := none } }).post (.unit u)
        (.lineState u .modeApplied st m none))
    ∧ (l.state ≠ .clearing → exec (.clearingGuardExpiry u) s = .next s.scanRetry)
    ∧ (l.state = .clearing →
      (l.role ≠ some .caller →
        exec (.clearingGuardExpiry u) s = .next (clear (s.enterIdle u)).arbiterPasses.scanRetry)
      ∧ (l.role = some .caller → l.dialFailures ≠ 3 →
        exec (.clearingGuardExpiry u) s = .next (clear ((s.enterIdle u).outcome u)).arbiterPasses.scanRetry)
      ∧ (l.role = some .caller → l.dialFailures = 3 → exec (.clearingGuardExpiry u) s =
        .next (clear ((say (rest .blocked) .noDialTone).outcome u)).arbiterPasses.scanRetry))
    ∧ (l.state = .off ∨ l.state = .blocked → exec (.lineFault u) s = .next s.scanRetry)
    ∧ (l.state ≠ .off → l.state ≠ .blocked →
      let t := say ((s.faultEnds u).restUnit u .blocked) .lineFault
      exec (.lineFault u) s =
        .next (clear (if l.role = some .caller then t.outcome u else t)).arbiterPasses.scanRetry)
    ∧ (l.state = .idle ∨ l.state = .clearing → s.faultEnds u = s)
    ∧ (l.state = .ringing → s.faultEnds u = State.post { s with units := s.units.set u { l with
        ringCount := 0, caller := none, verdict := .none, glare := false } } (.unit u)
        (.callMissed u .lineFault none l.ringCount l.caller))
    ∧ (l.state = .seizing ∨ l.state = .dialling ∨ l.state = .awaitAnswer
        ∨ (l.state = .inSession ∧ l.role = some .caller) →
      s.faultEnds u = hung { s with units := s.units.set u { l with result := some .lineFault } })
    ∧ (∀ a, l.state = .inSession → l.role ≠ some .caller → l.answerer = some a →
      s.faultEnds u = hung (s.cutReception u a))
    ∧ (l.state = .inSession → l.role ≠ some .caller → l.answerer = none → s.faultEnds u = hung s)
    ∧ (l.state ≠ .blocked → exec (.lineOk u) s = .next s)
    ∧ (l.state = .blocked → exec (.lineOk u) s = .next
        ((say ((s.modUnit u (fun x => { x with dialFailures := 0 })).enterIdle u) .lineOk).arbiterPasses))
    ∧ (l.entry = none → s.outcome u = s)
    ∧ (∀ i, l.entry = some i →
      let told : OutcomeReport := { unit := u, entry := i, result := l.result.getD .aborted, answered := l.answered,
                                    releaseTime := l.releaseTime, bytes := l.attemptBytes,
                                    confirmed := (s.entry i).elim 0 (fun e => e.confirmed) }
      let owed : Prop := ∃ c, MeterWork.release c ∈ s.meter.work ∧ c.record.entry = i
      (owed → s.outcome u = { s with sendq := { s.sendq with reports := s.sendq.reports ++ [told] } })
      ∧ (¬ owed → s.outcome u = s.takeOutcome told))
    ∧ (∀ i, s.settleReports i = (s.sendq.reports.filter (fun c => c.entry = i)).foldl (fun t c => t.takeKept c)
        { s with sendq := { s.sendq with reports := s.sendq.reports.filter (fun c => c.entry ≠ i) } })
    ∧ (∀ (c : OutcomeReport),
      (∀ e, s.entry c.entry = some e → e.state = .active → e.unit = some c.unit → (s.unit c.unit).entry ≠ some c.entry →
        s.takeKept c = s.takeOutcome c)
      ∧ ((∀ e, s.entry c.entry = some e → ¬ (e.state = .active ∧ e.unit = some c.unit
        ∧ (s.unit c.unit).entry ≠ some c.entry)) → s.takeKept c = s))
    ∧ ∀ (c : OutcomeReport) i e r, c.entry = i → s.entry i = some e → c.result = r →
      let st : EntryState := if e.cancelPending then .cancelled else if r = .success then .done
        else if r = .refused then .failed else if e.attempts < e.maxAttempts then .retryWait else .failed
      let at_ := c.releaseTime.day * 172800 + c.releaseTime.half
      let due := at_ + 120 * e.retryInterval
      let d := (s.now.day * 172800 + s.now.half + 1209600 - at_) % 1209600
      let wait := 120 * e.retryInterval - d
      let s1 (again : Bool) : State := State.post (s.modEntry i (fun x => { x with
          unit := none, lastResult := some r, state := st, cancelPending := false,
          countdown := if again then wait else 0,
          nextAttempt := if again then { day := (due / 172800) % 7, half := due % 172800, unset := c.releaseTime.unset } else x.nextAttempt })) .sendQueue
        (.destResult i e.document e.desk e.attempts (some c.unit) st r c.confirmed e.orderSeq c.bytes
          (if c.answered = true then e.attemptCharge else 0) e.chargeTotal)
      (st ≠ .retryWait → s.takeOutcome c = State.dropSendRef { s1 false with
          sendq := { (s1 false).sendq with finals := (s1 false).sendq.finals ++ [i] } } e.document)
      ∧ (st = .retryWait → wait ≠ 0 → s.takeOutcome c = s1 true)
      ∧ (st = .retryWait → wait = 0 → s.takeOutcome c = (s1 true).becomeReady i)

/-! ## The page exchange -/

/-- The caller's session by its phases: the OFFER draws the first ORDER with its check, formed field by field from
the offer, the ceiling and the page; READY begins the page; SLOWER steps the rate; GOOD confirms and goes on by the
page's kind, with a new ORDER and no check where the mode changes; REDO resends or steps; STOP, RELEASE and CARRIER LOST fail the call. A frame that fails its checks, or
that the phase does not name, has no effect. An OFFER passes its checks when each field is one of its values and the
station has at most 20 characters. A pending sheet begin is asked again after RELEASE and CARRIER LOST.
Where the manual leaves it to the model: log entry 28. -/
def Obligations.CallerSessionFollowsItsPhases : Prop :=
  ∀ (s : State) (u : UnitId),
    let l := s.unit u
    let put (x : LineUnit) : State := { s with units := s.units.set u x }
    (let rate : Rate → Nat
        | .r2400 => 1
        | .r4800 => 2
        | .r7200 => 3
        | .r9600 => 4
        | .r12000 => 5
      let form : Form → Nat
        | .plain => 1
        | .full => 2
      let wide : Width → Nat
        | .narrow => 1
        | .standard => 2
        | .broad => 3
      ∀ f o, checkOffer f = some o ↔ f.maxRate.toNat = rate o.maxRate ∧ f.forms.toNat = form o.forms
        ∧ f.maxWidth.toNat = wide o.maxWidth ∧ f.minLineTime.toNat ∈ [0, 5, 10, 20, 40]
        ∧ o.minLineTime = f.minLineTime.toNat ∧ f.station.length ≤ 20 ∧ o.station = f.station
        ∧ (o.fine = true ↔ f.fine ≠ 0) ∧ (o.ready = true ↔ f.ready ≠ 0))
    ∧ (∀ f, checkOffer f = none → exec (.offer u f) s = .next s)
    ∧ (l.state = .awaitAnswer → ∀ f o, checkOffer f = some o →
      let t := s.answered u
      (t.caller u = none → exec (.offer u f) s = .next t)
      ∧ ∀ c, t.caller u = some c →
        (c.phase = .awaitOffer → exec (.offer u f) s = .next
          (if o.ready then t.sendOrder u { c with offer := some o } true else t.endCall u .receiverNotReady))
        ∧ (c.phase ≠ .awaitOffer → exec (.offer u f) s = .next t))
    ∧ (l.state ≠ .awaitAnswer → s.caller u = none → ∀ f, exec (.offer u f) s = .next s)
    ∧ (s.caller u = none → exec (.readyFrame u) s = .next s ∧ exec (.slower u) s = .next s
      ∧ exec (.good u) s = .next s ∧ exec (.redo u) s = .next s ∧ exec (.stopFrame u) s = .next s)
    ∧ ∀ c, s.caller u = some c →
      let sent (m : OrderMode) (check : Bool) (o : OfferMode) (ceiling : Rate) (resends : Nat) (x : LineUnit) : LineUnit :=
        { x with
          out := x.out ++ ([.sendFrame (.order m)] ++ if check then [.setRate m.rate, .sendCheck] else []),
          callerSession := some { c with
            phase := .checking, offer := some o, ceiling := ceiling, resends := resends, order := some m,
            withCheck := check, sends := 1, wait := some .reply } }
      let formed (o : OfferMode) (ceiling : Rate) (r : PageRec) : OrderMode :=
        { station := s.settings.station, rate := rateMin ceiling o.maxRate, form := o.forms,
          resolution := if r.resolution = .fine ∧ o.fine = false then .normal else r.resolution,
          width := widthMin r.width o.maxWidth, minLineTime := o.minLineTime, pagesToCome := c.total - c.position }
      let step (t : State) (o : OrderMode) (fail : AttemptResult) (result : State) : Prop :=
        (o.rate = .r2400 → result = t.endCall u fail)
        ∧ (∀ r q p y, rateBelow o.rate = some r → c.offer = some q →
            s.readPage c.document c.position = .isSealed p y →
            result = { t with units := t.units.set u (sent (formed q r y) true q r 0 (t.unit u)) })
      (c.phase ≠ .awaitOffer → ∀ f, exec (.offer u f) s = .next s)
      ∧ (c.phase = .awaitOffer → ∀ f o, checkOffer f = some o →
        (o.ready = false → exec (.offer u f) s = .next (s.endCall u .receiverNotReady))
        ∧ (o.ready = true → ∀ p r, s.readPage c.document c.position = .isSealed p r →
          exec (.offer u f) s = .next (put (sent (formed o c.ceiling r) true o c.ceiling c.resends l))))
      ∧ (c.phase ≠ .checking → exec (.readyFrame u) s = .next s ∧ exec (.slower u) s = .next s)
      ∧ (∀ o, c.phase = .checking → c.order = some o →
        exec (.readyFrame u) s = .next (s.beginCallerPage u c)
        ∧ step s o .checkFailed (s.callerSlower u) ∧ exec (.slower u) s = .next (s.callerSlower u))
      ∧ (∀ o p r, c.order = some o → s.readPage c.document c.position = .isSealed p r →
        s.beginCallerPage u c = put { l with
          txFifo := [],
          tx := { page := some p, width := r.width, resolution := r.resolution, order := o,
                       minimum := (rateBits o.rate * o.minLineTime + 7999) / 8000, offset := 0,
                       linesLeft := r.lines, storedRef := [], outRef := [], out := [], fill := 0,
                       ended := false, begun := false, wire := 0 },
          callerSession := some { c with phase := .sending, kind := s.pageKind c o, wait := none } }
        ∧ (c.total ≤ c.position + 1 → s.pageKind c o = .last)
        ∧ (c.position + 1 < c.total → ∀ q p' r', c.offer = some q →
          s.readPage c.document (c.position + 1) = .isSealed p' r' →
          s.pageKind c o = if (formed q c.ceiling r').resolution = o.resolution ∧ (formed q c.ceiling r').width = o.width
                           then .more else .mode))
      ∧ (c.phase ≠ .awaitVerdict → exec (.good u) s = .next s ∧ exec (.redo u) s = .next s)
      ∧ (c.phase = .awaitVerdict →
        let c1 : CallerSession :=
          { c with confirmed := c.confirmed + 1, position := c.position + 1, resends := 0, wait := none }
        let s1 : State := { s with
          units := s.units.set u { l with callerSession := some c1 },
          sendq := { s.sendq with entries := match l.entry with
            | some i => tmod s.sendq.entries i (fun e => { e with confirmed := c.confirmed + 1 })
            | none => s.sendq.entries } }
        let r1 := s1.unit u
        let redone : LineUnit := { l with
          stats := { l.stats with redosReceived := min 4294967295 (l.stats.redosReceived + 1) } }
        (c.kind = .more → exec (.good u) s = .next (s1.beginCallerPage u c1))
        ∧ (c.kind = .mode → exec (.good u) s = .next (s1.sendOrder u c1 false))
        ∧ (c.kind = .mode → ∀ q p r, c.offer = some q → s.readPage c.document (c.position + 1) = .isSealed p r →
          let m : OrderMode := { formed q c.ceiling r with pagesToCome := c.total - (c.position + 1) }
          s1.sendOrder u c1 false = { s1 with units := s1.units.set u { r1 with
            out := r1.out ++ [.sendFrame (.order m)],
            callerSession := some { c1 with
              phase := .checking, order := some m, withCheck := false, sends := 1, wait := some .reply } } })
        ∧ (c.kind = .last → exec (.good u) s = .next ((s1.sendLink u (.sendFrame .release)).endCall u .success))
        ∧ (c.resends < 2 →
            exec (.redo u) s = .next ((put redone).beginCallerPage u { c with resends := c.resends + 1 }))
        ∧ (2 ≤ c.resends → ∀ o, c.order = some o →
            step (put redone) o .pageFailed (s.callerRedo u) ∧ exec (.redo u) s = .next (s.callerRedo u)))
      ∧ exec (.stopFrame u) s = .next (s.endCall u .refused)
      ∧ exec (.releaseFrame u) s = .next (s.endCall u .refused).scanRetry
      ∧ exec (.carrierLost u) s = .next (s.endCall u .lineLost).scanRetry

/-- The answerer's session by its phases: the first ORDER is refused or opens its document, an ORDER waits for its
check or is answered READY at once, CHECK RESULT answers READY or SLOWER, PAGE END draws the verdict when the
recoder's report is there, once no write of the unit waits for room (R61), and repeats the last one where the page has already been judged, and the caller's
departure ends the call. The Caller Screen's answer at ORDER follows the station, then the number that matched at
ringing; an accepted call counts on its governing entry, takes its route, and may be learned. GOOD counts the page and
goes on by the kind, REDO abandons the page and begins it again; a reception cut short abandons its page and closes its
document truncated, and after CARRIER LOST the receive recoder goes on to the mark. A repeated REDO is not counted, a
PAGE END with no verdict to repeat is discarded, and a pending sheet begin is asked again at the command's end.
An ORDER passes its checks when each field is one of its values, the station has at most 20 characters, and at most 250
pages are to come.
Where the manual leaves it to the model: log entries 16, 28, 30, 33, 60, 63, 64 and 73. -/
def Obligations.AnswererSessionFollowsItsPhases : Prop :=
  ∀ (s : State) (u : UnitId),
    let l := s.unit u
    let say (f : Frame) (x : LineUnit) : LineUnit := { x with out := x.out ++ [.sendFrame f] }
    let open_ : Prop := l.rx.state = .active ∧ RxItem.carrierLost ∉ l.rxFifo
    let emptied (c : Screen) : Screen := { c with ringMatch := c.ringMatch.set u none }
    (let rate : Rate → Nat
        | .r2400 => 1
        | .r4800 => 2
        | .r7200 => 3
        | .r9600 => 4
        | .r12000 => 5
      let form : Form → Nat
        | .plain => 1
        | .full => 2
      let fine : Resolution → Nat
        | .normal => 1
        | .fine => 2
      let wide : Width → Nat
        | .narrow => 1
        | .standard => 2
        | .broad => 3
      ∀ f o, checkOrder f = some o ↔ f.rate.toNat = rate o.rate ∧ f.form.toNat = form o.form
        ∧ f.resolution.toNat = fine o.resolution ∧ f.width.toNat = wide o.width
        ∧ f.minLineTime.toNat ∈ [0, 5, 10, 20, 40] ∧ o.minLineTime = f.minLineTime.toNat
        ∧ f.station.length ≤ 20 ∧ o.station = f.station ∧ f.pagesToCome.toNat ≤ 250
        ∧ o.pagesToCome = f.pagesToCome.toNat)
    ∧ (∀ station,
      let c := s.screen
      let st := c.lookup .station station
      let nm := c.numberMatch u
      let is (k : ScreenKind) (x : Option (Nat × ScreenEntry)) : Prop := ∃ i e, x = some (i, e) ∧ e.kind = k
      let draws (a : OrderAnswer) (es : Table ScreenEntry) : Prop :=
        s.lookupOrder u station = (a, { s with screen := emptied { c with entries := es } })
      let counted (i : Nat) : Table ScreenEntry := tmod c.entries i (fun x =>
        { x with touched := true, calls := min 65535 (x.calls + 1), lastCall := some s.now })
      let learned (t : State) : State := if st = none then t.learnCaller u station else t
      (∀ i e, st = some (i, e) → e.kind = .deny → draws (.refused .denied (some ⟨.station, i⟩)) (counted i))
      ∧ (∀ i e, ¬ is .deny st → nm = some (i, e) → e.kind = .deny →
          draws (.refused .denied (some ⟨.number, i⟩)) (counted i))
      ∧ (¬ is .deny st → ¬ is .deny nm →
        (c.mode = .listedOnly → ¬ is .allow st → ¬ is .allow nm → draws (.refused .notListed none) c.entries)
        ∧ (c.mode ≠ .listedOnly ∨ is .allow st ∨ is .allow nm →
          (∀ i e, st = some (i, e) ∨ (st = none ∧ nm = some (i, e)) →
            (0 < e.budget → e.budgetLeft = 0 → draws (.refused .budget (some ⟨e.keyKind, i⟩)) c.entries)
            ∧ (¬ (0 < e.budget ∧ e.budgetLeft = 0) → s.lookupOrder u station =
              (.accepted ⟨e.desk, e.copies, e.flash⟩, learned { s with screen := emptied { c with
                entries := tmod c.entries i (fun x => { x with
                  touched := true, calls := min 65535 (x.calls + 1), lastCall := some s.now,
                  budgetLeft := if 0 < x.budget then x.budgetLeft - 1 else x.budgetLeft }) } })))
          ∧ (st = none → nm = none → s.lookupOrder u station =
              (.accepted ⟨0, 1, false⟩, learned { s with screen := emptied c }))))
      ∧ (c.ringMatch.get u = none → nm = none)
      ∧ (∀ i n, c.ringMatch.get u = some (i, n) →
        (∀ e, tget c.entries i = some e → e.keyKind = .number → e.key = n → nm = some (i, e))
        ∧ ((∀ e, tget c.entries i = some e → ¬ (e.keyKind = .number ∧ e.key = n)) → nm = none)))
    ∧ (∀ station,
      let c := s.screen
      let learns : Prop := station ≠ [] ∧ (∀ x ∈ station, isStationKey x = true)
        ∧ (c.mode = .opened ∨ (c.mode = .denyListed ∧ c.learn.get u = true))
      let e : ScreenEntry :=
        { keyKind := .station, key := station, kind := .learned, desk := 0, copies := 1, flash := false, budget := 0,
          budgetLeft := 0, touched := true, calls := 1, lastCall := some s.now }
      (¬ learns → s.learnCaller u station = s)
      ∧ (∀ i, learns → lowestFree 256 c.entries = some i →
        s.learnCaller u station = { s with screen := { c with entries := tset c.entries i e } })
      ∧ (learns → lowestFree 256 c.entries = none → c.fullReported = true → s.learnCaller u station = s)
      ∧ (learns → lowestFree 256 c.entries = none → c.fullReported = false → s.learnCaller u station =
        State.post { s with screen := { c with fullReported := true } } .callerScreen (.screenFull u station)))
    ∧ (∀ d (r : Route),
      let p : PrintPriority := if r.flash then .flash else .ordinary
      let printed : State := if 1 ≤ r.copies then (match s.makePrintEntry d r.copies p with
        | some (_, t) => t
        | none => s.modDoc d (fun x => { x with notQueued := true })) else s
      s.routeDocument d r = if r.flash then { printed with print := { printed.print with
        sounder := { printed.print.sounder with flash := some 0 } } } else printed)
    ∧ (let t : State := match l.rx.page with
        | some p => s.abandonPage p
        | none => s
      s.rxAbandon u = { t with units := t.units.set u { l with rx := { l.rx with
        page := none, state := if RxItem.carrierLost ∈ l.rxFifo then l.rx.state else .idle } } })
    ∧ (l.rx.page = none → s.rxSeal u = (false, s))
    ∧ (∀ p, l.rx.page = some p →
      (∀ t, s.place (.unit u) p [0x0F, 0x00] = ([], t) → s.rxSeal u = (true, (t.sealPage p).modUnit u (fun x =>
        { x with rx := { x.rx with page := none, state := .idle } })))
      ∧ (∀ b left t, s.place (.unit u) p [0x0F, 0x00] = (b :: left, t) → s.rxSeal u = (false, t)))
    ∧ (∀ f, checkOrder f = none → exec (.orderFrame u f) s = .next s)
    ∧ (∀ b, pageEndOf b.toNat = none → exec (.pageEnd u b) s = .next s)
    ∧ (s.answering u = none → s.settleVerdict u = s ∧ ∀ r, s.takeReport u r = s)
    ∧ (s.answering u = none → (∀ f o, checkOrder f = some o → exec (.orderFrame u f) s = .next s.scanRetry)
      ∧ (∀ g, exec (.checkResult u g) s = .next s)
      ∧ (∀ b k, pageEndOf b.toNat = some k → exec (.pageEnd u b) s = .next s.scanRetry)
      ∧ (s.caller u = none →
          exec (.releaseFrame u) s = .next s.scanRetry ∧ exec (.carrierLost u) s = .next s.scanRetry))
    ∧ ∀ a, s.answering u = some a →
      let goes (t : State) (x : LineUnit) (y : AnswererSession) : State :=
        { t with units := t.units.set u { x with answerer := some y } }
      let stops (t : State) (r : RefuseReason) (b : Option Refusing) (m : Option Text) : State :=
        let x := t.unit u
        (State.post { t with units := t.units.set u (say .release (say .stop x)) } (.unit u)
          (.callRefused u r b x.caller m)).releaseCall u
      let ends : State := s.stopReception u a
      (s.stopReception u a = (State.cutReception { s with units := s.units.set u { l with
        out := l.out ++ [.sendFrame .stop, .sendFrame .release] } } u a).releaseCall u)
      ∧ (∀ d, a.document = some d → a.phase ≠ .awaitRelease →
          s.cutReception u a = (s.rxAbandon u).closeDocument d true)
      ∧ (a.document = none ∨ a.phase = .awaitRelease → s.cutReception u a = s.rxAbandon u)
      ∧ (∀ (t : State) (b : AnswererSession) o d, b.order = some o → b.document = some d →
        let fresh : RxRecoder := { RxRecoder.reset with state := .active, document := d, width := o.width }
        let b1 : AnswererSession :=
          { b with phase := .receiving, kind := none, report := none, dataTaken := false, wait := some .idleLimit }
        (∀ p t1, t.openPage d o.width o.resolution = .opened p t1 → t.beginAnswererPage u b =
          goes t1 { t1.unit u with rx := { fresh with page := some p }, rxFifo := [] } b1)
        ∧ (∀ e, t.openPage d o.width o.resolution = .refused e → t.beginAnswererPage u b =
          goes t { t.unit u with rx := { fresh with noRoom := some e }, rxFifo := [] } b1))
      ∧ (∀ t : State,
        let x := t.unit u
        let counted : LineUnit := say .good { x with
          stats := { x.stats with pagesReceived := min 4294967295 (x.stats.pagesReceived + 1) } }
        let a1 : AnswererSession :=
          { a with lastVerdict := some .good, report := none, kind := none, wait := some .idleLimit }
        t.verdictGood u a .more = State.beginAnswererPage { t with units := t.units.set u counted } u a1
        ∧ t.verdictGood u a .mode = goes t counted { a1 with phase := .awaitOrder }
        ∧ (∀ d, a.document = some d →
          t.verdictGood u a .last = (goes t counted { a1 with phase := .awaitRelease }).closeDocument d false)
        ∧ (let y := t.rxAbandon u
          let z := y.unit u
          t.verdictRedo u a = State.beginAnswererPage { y with units := y.units.set u (say .redo { z with
            stats := { z.stats with redosSent := min 4294967295 (z.stats.redosSent + 1) } }) } u
            { a with lastVerdict := some .redo }))
      ∧       (∀ f o, checkOrder f = some o →
        let run (t : State) : Prop := exec (.orderFrame u f) s = .next t.scanRetry
        (a.phase = .offering →
          (o.pagesToCome = 0 → run (stops s .badOrder none (some o.station)))
          ∧ (o.pagesToCome ≠ 0 →
            (∀ r b t, s.lookupOrder u o.station = (.refused r b, t) → run (stops t r b (some o.station)))
            ∧ (∀ r t, s.lookupOrder u o.station = (.accepted r, t) →
              let station := if o.station = [] then none else some o.station
              (t.openDoc .received r.desk station = none → run (stops t .noDocument none (some o.station)))
              ∧ (∀ d t1, t.openDoc .received r.desk station = some (d, t1) →
                run ((t1.routeDocument d r).takeOrderMode u { a with document := some d, route := r } o)))))
        ∧ (a.phase = .notReady → run { s with units := s.units.set u (say .stop l) })
        ∧ (a.phase = .checkReply ∨ a.phase = .awaitOrder → run (s.takeOrderMode u a o))
        ∧ (a.phase = .receiving → a.dataTaken = false → run ((s.rxAbandon u).takeOrderMode u a o))
        ∧ (a.phase = .receiving → a.dataTaken = true → run s)
        ∧ (a.phase = .verdict ∨ a.phase = .awaitRelease → run s))
      ∧ (∀ (t : State) (o : OrderMode),
        (o.pagesToCome = 0 → t.takeOrderMode u a o = t.stopReception u a)
        ∧ (o.pagesToCome ≠ 0 →
          let held : Prop := ∃ x, a.order = some x ∧ x.rate = o.rate
          (held → a.phase ≠ .checkReply → t.takeOrderMode u a o =
            State.beginAnswererPage { t with units := t.units.set u (say .ready (t.unit u)) } u
              { a with order := some o, asked := none })
          ∧ (¬ held ∨ a.phase = .checkReply → t.takeOrderMode u a o =
            goes t (t.unit u) { a with phase := .checkReply, asked := some o, wait := some .idleLimit })))
      ∧ (a.phase ≠ .checkReply → ∀ g, exec (.checkResult u g) s = .next s)
      ∧ (a.phase = .checkReply →
        exec (.checkResult u true) s = .next (State.beginAnswererPage { s with units := s.units.set u (say .ready l) } u
          { a with order := a.asked, asked := none })
        ∧ exec (.checkResult u false) s = .next (goes s (say .slower l)
          { a with phase := .awaitOrder, asked := none, wait := some .idleLimit }))
      ∧ (∀ b k, pageEndOf b.toNat = some k →
        let run (t : State) : Prop := exec (.pageEnd u b) s = .next t.scanRetry
        let repeated (v : Verdict) : State := { s with
          units := s.units.set u (say (if v = .good then .good else .redo) l) }
        let fresh : Prop := a.dataTaken = true ∨ a.lastVerdict = none
        (∀ v, a.lastVerdict = some v → a.phase = .awaitOrder ∨ a.phase = .awaitRelease → run (repeated v))
        ∧ (∀ v, a.lastVerdict = some v → a.phase = .receiving → a.dataTaken = false → run (repeated v))
        ∧ (a.lastVerdict = none → a.phase = .awaitOrder ∨ a.phase = .awaitRelease → run s)
        ∧ (a.phase = .receiving → fresh → a.report = none →
          run (goes s (if open_ then { l with rxFifo := l.rxFifo ++ [.dataEnd] } else l)
            { a with phase := .verdict, kind := some k, wait := some .idleLimit }))
        ∧ (∀ r, a.phase = .receiving → fresh → a.report = some r →
          let a1 := { a with phase := .verdict, kind := some k, wait := some .idleLimit }
          (s.stalled (.unit u) = false → run ((goes s l a1).giveVerdict u a1 k r))
          ∧ (s.stalled (.unit u) = true → run (goes s l a1)))
        ∧ (a.phase = .offering ∨ a.phase = .notReady ∨ a.phase = .checkReply ∨ a.phase = .verdict → run s))
      ∧ (∀ r,
        let told : State := goes s l { a with report := some r }
        (a.phase = .receiving → s.takeReport u r = told)
        ∧ (∀ k, a.phase = .verdict → a.kind = some k → s.takeReport u r =
          if s.stalled (.unit u) = true then told else told.giveVerdict u { a with report := some r } k r)
        ∧ (a.phase ≠ .receiving → a.phase ≠ .verdict ∨ a.kind = none → s.takeReport u r = s))
      ∧ (∀ k r, a.phase = .verdict → a.kind = some k → a.report = some r →
        s.settleVerdict u = if s.stalled (.unit u) = true then s else s.giveVerdict u a k r)
      ∧ (a.phase ≠ .verdict ∨ a.kind = none ∨ a.report = none → s.settleVerdict u = s)
      ∧ (∀ k r,
        let bad : Prop := r.endSeen = false ∨ r.received * s.settings.badPercent < r.bad * 100
          ∨ s.settings.badRun < r.longest
        (r.noRoom ≠ none → s.giveVerdict u a k r = ends)
        ∧ (r.noRoom = none → bad → s.giveVerdict u a k r = s.verdictRedo u a)
        ∧ (r.noRoom = none → ¬ bad → ∀ t,
          (s.rxSeal u = (true, t) → s.giveVerdict u a k r = t.verdictGood u a k)
          ∧ (s.rxSeal u = (false, t) → s.giveVerdict u a k r = t.stopReception u a)))
      ∧ ∀ m, m = Instr.releaseFrame u ∨ m = .carrierLost u →
        (a.phase = .awaitRelease → m = .releaseFrame u → exec m s = .next (s.releaseCall u).scanRetry)
        ∧ (a.phase = .checkReply ∨ a.phase = .receiving ∨ a.phase = .verdict ∨ a.phase = .awaitOrder →
          m = .releaseFrame u → exec m s = .next ((s.cutReception u a).releaseCall u).scanRetry)
        ∧ (a.phase = .offering ∨ a.phase = .notReady → m = .releaseFrame u → exec m s = .next s.scanRetry)
        ∧ (a.phase = .offering → m = .carrierLost u → exec m s =
          .next ((s.post (.unit u) (.callRefused u .noOrder none l.caller none)).releaseCall u).scanRetry)
        ∧ (a.phase = .notReady → m = .carrierLost u → exec m s =
          .next ((s.post (.unit u) (.callRefused u .notReady none l.caller none)).releaseCall u).scanRetry)
        ∧ (let s1 : State := if open_ then
              { s with units := s.units.set u { l with rxFifo := l.rxFifo ++ [.carrierLost] } } else s
          (a.phase = .awaitRelease → m = .carrierLost u → exec m s = .next (s1.releaseCall u).scanRetry)
          ∧ (a.phase = .checkReply ∨ a.phase = .receiving ∨ a.phase = .verdict ∨ a.phase = .awaitOrder →
            m = .carrierLost u → exec m s = .next ((s1.cutReception u a).releaseCall u).scanRetry))

/-- The waits of a session: ORDER, PAGE END and OFFER are sent again at their first two expiries and end the session
at the third; 9 s without an OFFER and 3 s in NOT READY end it; the idle limit cuts a reception. An expiry with no
such wait running has no effect.
A pending sheet begin is asked again after the idle limit.
Where the manual leaves it to the model: log entries 7, 17, 28 and 73. -/
def Obligations.SessionWaitsResendAndFail : Prop :=
  ∀ (s : State) (u : UnitId),
    let l := s.unit u
    let put (x : LineUnit) : State := { s with units := s.units.set u x }
    let refused (r : RefuseReason) : State := (s.post (.unit u) (.callRefused u r none l.caller none)).releaseCall u
    (s.caller u = none → exec (.offerWaitExpiry u) s = .next s)
    ∧ (s.answering u = none → exec (.notReadyWaitExpiry u) s = .next s ∧ exec (.idleLimitExpiry u) s = .next s.scanRetry)
    ∧ (s.caller u = none → s.answering u = none → exec (.replyWaitExpiry u) s = .next s)
    ∧ (∀ c, s.caller u = some c →
      (c.phase = .awaitOffer → exec (.offerWaitExpiry u) s = .next (s.endCall u .notFax))
      ∧ (c.phase ≠ .awaitOffer → exec (.offerWaitExpiry u) s = .next s)
      ∧ (c.wait ≠ some .reply → exec (.replyWaitExpiry u) s = .next s)
      ∧ (c.wait = some .reply →
        let again (ms : List LinkMsg) : State := put { l with
          out := l.out ++ ms, callerSession := some { c with sends := c.sends + 1 } }
        (∀ o, c.phase = .checking → c.order = some o → c.sends < 3 → exec (.replyWaitExpiry u) s = .next (again
            ([.sendFrame (.order o)] ++ if c.withCheck then [.setRate o.rate, .sendCheck] else [])))
        ∧ (c.phase = .awaitVerdict → c.sends < 3 →
            exec (.replyWaitExpiry u) s = .next (again [.sendFrame (.pageEnd c.kind)]))
        ∧ (c.phase = .checking → 3 ≤ c.sends → exec (.replyWaitExpiry u) s = .next (s.endCall u .checkFailed))
        ∧ (c.phase = .awaitVerdict → 3 ≤ c.sends → exec (.replyWaitExpiry u) s = .next (s.endCall u .lineLost))))
    ∧ ∀ a, s.answering u = some a →
      (a.phase = .notReady → exec (.notReadyWaitExpiry u) s = .next (refused .notReady))
      ∧ (a.phase ≠ .notReady → exec (.notReadyWaitExpiry u) s = .next s)
      ∧ (a.wait ≠ some .reply → exec (.replyWaitExpiry u) s = .next s)
      ∧ (a.wait = some .reply →
        (a.phase = .offering → 3 ≤ a.sends → exec (.replyWaitExpiry u) s = .next (refused .noOrder))
        ∧ (a.phase = .offering → a.sends < 3 →
          let ready : Bool := decide (s.settings.receiveReserve ≤ s.store.free.length)
            && (lowestFree 256 s.store.docs).isSome && (lowestFree 1024 s.store.pages).isSome
          let o : OfferMode :=
            { station := s.settings.station, maxRate := .r12000, forms := .full, fine := true, maxWidth := .broad,
              minLineTime := 0, ready := ready }
          exec (.replyWaitExpiry u) s = .next (put { l with
            out := l.out ++ [.sendFrame (.offer o)],
            answerer := some { a with
              phase := if ready then .offering else .notReady, sends := a.sends + 1,
              wait := some (if ready then .reply else .notReady) } })))
      ∧ (a.phase = .awaitRelease → exec (.idleLimitExpiry u) s = .next (s.releaseCall u).scanRetry)
      ∧ (a.phase = .checkReply ∨ a.phase = .receiving ∨ a.phase = .verdict ∨ a.phase = .awaitOrder →
        exec (.idleLimitExpiry u) s = .next ((s.cutReception u a).releaseCall u).scanRetry)
      ∧ (a.phase = .offering ∨ a.phase = .notReady → exec (.idleLimitExpiry u) s = .next s.scanRetry)

/-! ## Printer -/

/-- The printer: LINE DONE sends the next head line with its strobe duty or ejects the sheet, SHEET DONE finishes the
page, every temperature sets or clears the hot flag by its thresholds, a level that goes low abandons the sheet, and
where its entry has stop requested ends the entry after the change of the printer state, which is the model's order; one
that goes high resumes it, and the state follows from levels, hot flag and head, in that order. While a pending write
overlaps the stored line to be printed, its read is held, and the sheet waits (R61). An entry whose read was answered
"not ready" reads again when its page seals or its document closes; an abandoned page begins again with the printer
state. A selection, with the head free and the printer READY, takes FLASH before ORDINARY and then the earlier arrival
among the waiting entries whose page is SEALED, and begins its copy with SHEET START. At a copy's end the counts move,
the head is free, and the entry is DONE or waits again at its first page; a selection follows. An empty document's entry
ends all its copies at once. A page that is read is the one at its position when that is SEALED; it is not ready while
it is FILLING, or where an OPEN document has no page there yet; and there is no such page past the end of a CLOSED
document or in none. A head line is the stored line cropped or padded to 1728 dots; as it is sent it becomes the
reference line and the line position rises by 1, and SHEET START sets the two to all white and 0. The sounder sounds
with the FLASH pattern's reload value in its three bursts, with the paper pattern's in its burst while no FLASH pattern
runs, and not at all with a reload of 0. The sounder's phases, one a command, and the LINE DONE or SHEET DONE of an
abandoned sheet taken as the new one's are the model's choices. A pending sheet begin is asked again at the end of a
command that may return blocks.
Where the manual leaves it to the model: log entries 7, 12, 28, 48, 50, 74, 78 and 84. -/
def Obligations.PrinterFollowsItsHead : Prop :=
  ∀ s : State,
    let p := s.print
    let put (x : PrintEngine) : State := { s with print := x }
    let heated (q : PrintEngine) (t : Nat) : PrintEngine :=
      { q with temperature := t, hot := if 65 ≤ t then true else if t ≤ 55 then false else q.hot }
    let warm (q : PrintEngine) (t : Nat) : State := (put (heated q t)).recomputePrinter none
    (∀ d i,
      (s.doc d = none → s.readPage d i = .noSuchPage)
      ∧ ∀ r, s.doc d = some r →
        (r.pages.length ≤ i → s.readPage d i = if r.state = .opened then .notReady else .noSuchPage)
        ∧ ∀ k x, r.pages[i]? = some k → s.page k = some x →
          (x.state = .sealed → s.readPage d i = .isSealed k x) ∧ (x.state = .filling → s.readPage d i = .notReady))
    ∧ (∀ c ts,
      let w := widthDots c
      let row := lineDots w ts
      (headDots c ts).length = 1728
      ∧ ∀ i, i < 1728 → (headDots c ts)[i]? = some
        (if 1728 < w then row.getD (i + (w - 1728) / 2) false
         else if (1728 - w) / 2 ≤ i then row.getD (i - (1728 - w) / 2) false else false))
    ∧ (let d := p.sounder
      (∀ n, d.flash = some n →
        (n % 2 = 0 → d.flashReload ≠ 0 → d.output = some (.flash, d.flashReload))
        ∧ (n % 2 = 1 ∨ d.flashReload = 0 → d.output = none))
      ∧ (d.flash = none →
        (d.paper = some true → d.paperReload ≠ 0 → d.output = some (.paper, d.paperReload))
        ∧ (d.paper ≠ some true ∨ d.paperReload = 0 → d.output = none)))
    ∧ (p.derived = .coverOpen ↔ p.coverClosed = false)
    ∧ (p.derived = .paperOut ↔ p.coverClosed = true ∧ p.paperPresent = false)
    ∧ (p.derived = .headHot ↔ p.coverClosed = true ∧ p.paperPresent = true ∧ p.hot = true)
    ∧ (p.derived = .printing ↔ p.coverClosed = true ∧ p.paperPresent = true ∧ p.hot = false
        ∧ (p.current ≠ none ∨ p.draining = true))
    ∧ (∀ a, p.derived = p.state → s.recomputePrinter a = s)
    ∧ (∀ a, p.derived ≠ p.state →
      let silent (x : PrinterState) : Prop := x = .ready ∨ x = .printing
      let t := put { p with state := p.derived }
      (silent p.derived ∧ silent p.state → s.recomputePrinter a = t)
      ∧ (¬ (silent p.derived ∧ silent p.state) → s.recomputePrinter a =
          t.post .printEngine (.printerState p.derived p.state p.temperature a)))
    ∧ (∀ b k t, strobeDuty b k t =
        (max 20 (min 95 ((b : Int) - Int.tdiv (((t : Int) - 25) * k) 16))).toNat)
    ∧ (s.part ≠ .running → ∀ t, exec (.lineDone t) s = .next s.scanRetry ∧ exec (.temp t) s = .next s.scanRetry
        ∧ exec .sheetDone s = .next s.scanRetry)
    ∧ (s.part = .running → ∀ t,
      exec (.temp t) s = .next (warm p t).resumePrinter.scanRetry
      ∧ (p.sheet ≠ .lineInFlight → exec (.lineDone t) s = .next (warm p t).resumePrinter.scanRetry)
      ∧ (p.sheet = .lineInFlight →
        let t1 := warm { p with sheet := .sheetStarted } t
        (t1.print.draining = true ∨ t1.stopAsked = true → exec (.lineDone t) s = .next t1.sheetOut.scanRetry)
        ∧ (t1.print.draining = false → t1.stopAsked = false →
            exec (.lineDone t) s = .next t1.advanceSheet.scanRetry)))
    ∧ (s.stopAsked = true ↔ ∃ i e, p.current = some i ∧ tget p.entries i = some e ∧ e.stopRequested = true)
    ∧ (∀ k r, s.startSheet k r = (put { p with
        out := p.out ++ [.sheetStart], sheet := .sheetStarted,
        position := 0, ref := [],
        decoder := some { page := k, width := r.width, resolution := r.resolution, offset := 0, linesLeft := r.lines,
                          again := false } }).advanceSheet)
    ∧ (let starts (e : PrintEntry) : Prop := e.state = .waiting ∧ ∃ k r, s.readPage e.document e.pageIndex = .isSealed k r
      let goesFirst (e f : PrintEntry) : Prop := (e.priority = .flash ∧ f.priority = .ordinary)
        ∨ (e.priority = f.priority ∧ e.arrival < f.arrival)
      (p.current ≠ none ∨ p.state ≠ .ready → s.printSelect = s)
      ∧ ((∀ x ∈ p.entries, ¬ starts x.2) → s.printSelect = s)
      ∧ (∀ i e k r, p.current = none → p.state = .ready → (i, e) ∈ p.entries → e.state = .waiting →
        s.readPage e.document e.pageIndex = .isSealed k r →
        (∀ x ∈ p.entries, x ≠ (i, e) → starts x.2 → goesFirst e x.2) →
        s.printSelect = ((put { p with
          current := some i, entries := tmod p.entries i (fun x => { x with state := .printing }) }).recomputePrinter
          none).startSheet k r))
    ∧ (∀ i e, tget p.entries i = some e →
      let t := put { p with
        current := none,
        entries := tmod p.entries i (fun x => { x with
          copiesPrinted := x.copiesPrinted + 1, copiesLeft := x.copiesLeft - 1, state := .waiting, pageIndex := 0 }) }
      (2 ≤ e.copiesLeft → s.endCopy i = (t.recomputePrinter none).printSelect)
      ∧ (e.copiesLeft ≤ 1 → s.endCopy i = ((t.printDone i .complete).recomputePrinter none).printSelect)
      ∧ s.finishEmpty i = (put { p with entries := tmod p.entries i (fun x => { x with
          copiesPrinted := x.copiesPrinted + x.copiesLeft, copiesLeft := 0 }) }).printDone i .complete
      ∧ s.endPrintNow i = ((s.printDone i .cancelled).recomputePrinter none).printSelect)
    ∧ s.sheetOut = put { p with out := p.out ++ [.sheetOut], sheet := .feedingOut }
    ∧ (∀ d, p.decoder = some d →
      (s.nextHeadLine d = none → s.advanceSheet = s.sheetOut)
      ∧ (s.headHeld d = true → s.advanceSheet = s)
      ∧ (s.path.queue = [] → s.path.waiting = [] → s.headHeld d = false)
      ∧ (d.again = true ∨ d.linesLeft = 0 → s.headHeld d = false)
      ∧ (∀ ts d', s.headHeld d = false → s.nextHeadLine d = some (ts, d') →
        d'.width = d.width
        ∧ (p.state = .printing → s.advanceSheet = put { p with
          out := p.out ++ [.headLine (headDots d.width ts) (strobeDuty p.strobeBase p.strobeSlope p.temperature)],
          sheet := .lineInFlight, position := p.position + 1, ref := ts, decoder := some d' })
        ∧ (p.state ≠ .printing → s.advanceSheet = s))
      ∧ (d.again = true → s.nextHeadLine d = some (p.ref, { d with again := false }))
      ∧ (d.again = false → d.linesLeft = 0 → s.nextHeadLine d = none)
      ∧ (∀ r ts n, d.again = false → d.linesLeft ≠ 0 → s.page d.page = some r →
        takeLine (widthDots d.width) p.ref (s.streamFrom r d.offset) = .good ts n →
        s.nextHeadLine d = some (ts,
          { d with offset := d.offset + n, linesLeft := d.linesLeft - 1, again := decide (d.resolution = .normal) })))
    ∧ (p.state = .printing → p.sheet = .sheetStarted → s.resumePrinter = s.advanceSheet)
    ∧ (p.state = .printing → p.sheet = .noSheet → s.resumePrinter = s.beginPrintPage)
    ∧ (p.state = .printing → p.sheet = .lineInFlight ∨ p.sheet = .feedingOut → s.resumePrinter = s)
    ∧ (p.state = .ready → s.resumePrinter = s.printSelect)
    ∧ (p.state = .headHot ∨ p.state = .paperOut ∨ p.state = .coverOpen → s.resumePrinter = s)
    ∧ (∀ i e, p.current = some i → tget p.entries i = some e →
      (∀ k y, s.readPage e.document e.pageIndex = .isSealed k y →
        s.beginPrintPage = (if p.coverClosed = true ∧ p.paperPresent = true then s.startSheet k y else s)
        ∧ (p.sheet = .noSheet → ∀ q, s.rereadCurrent e.document q = if q = some k then s.beginPrintPage else s))
      ∧ (s.readPage e.document e.pageIndex = .notReady →
        s.beginPrintPage = s ∧ ∀ q, s.rereadCurrent e.document q = s)
      ∧ (s.readPage e.document e.pageIndex = .noSuchPage →
        s.beginPrintPage = s.endCopy i
        ∧ (p.sheet = .noSheet → ∀ q, s.rereadCurrent e.document q = s.endCopy i))
      ∧ (∀ d q, d ≠ e.document ∨ p.sheet ≠ .noSheet → s.rereadCurrent d q = s))
    ∧ (s.part = .running → p.sheet ≠ .feedingOut → exec .sheetDone s = .next s.scanRetry)
    ∧ (s.part = .running → p.sheet = .feedingOut →
      let q : PrintEngine := { p with sheet := .noSheet, decoder := none }
      (p.draining = true → exec .sheetDone s =
        .next (((put { q with draining := false }).recomputePrinter none).printSelect).scanRetry)
      ∧ (p.draining = false → p.current = none → exec .sheetDone s = .next (put q).scanRetry)
      ∧ (∀ i e, p.draining = false → p.current = some i → tget p.entries i = some e →
        let out (f : PrintEntry → PrintEntry) : State := put { q with entries := tmod p.entries i f }
        (e.stopRequested = true → exec .sheetDone s =
          .next ((out (fun x => { x with ejected := x.ejected + 1 })).endPrintNow i).scanRetry)
        ∧ (e.stopRequested = false →
          let t := out (fun x => { x with ejected := x.ejected + 1 })
          exec .sheetDone s = .next
            ((t.modPrintEntry i (fun x => { x with pageIndex := x.pageIndex + 1 })).beginPrintPage).scanRetry)))
    ∧ exec (.paperPresentChange p.paperPresent) s = .next s.scanRetry
    ∧ exec (.coverClosedChange p.coverClosed) s = .next s.scanRetry
    ∧ (s.part ≠ .running → ∀ b,
      exec (.paperPresentChange b) s = .next (put { p with paperPresent := b }).scanRetry
      ∧ exec (.coverClosedChange b) s = .next (put { p with coverClosed := b }).scanRetry)
    ∧ (s.part = .running →
      let paper (b : Bool) : State := put { p with
        paperPresent := b, sounder := { p.sounder with paper := if b then none else some true } }
      let cover (b : Bool) : State := put { p with coverClosed := b }
      (p.paperPresent = false → exec (.paperPresentChange true) s =
        .next (((paper true).recomputePrinter none).resumePrinter).scanRetry)
      ∧ (p.paperPresent = true → exec (.paperPresentChange false) s = .next ((paper false).printerLevelLow).scanRetry)
      ∧ (p.coverClosed = false → exec (.coverClosedChange true) s =
        .next (((cover true).recomputePrinter none).resumePrinter).scanRetry)
      ∧ (p.coverClosed = true → exec (.coverClosedChange false) s = .next ((cover false).printerLevelLow).scanRetry))
    ∧ (p.sheet = .noSheet → s.printerLevelLow = s.recomputePrinter none)
    ∧ (p.sheet ≠ .noSheet →
      let q : PrintEngine := { p with sheet := .noSheet, decoder := none, draining := false }
      (p.current = none → s.printerLevelLow = (put q).recomputePrinter none)
      ∧ (∀ i e, p.current = some i → tget p.entries i = some e →
        (e.stopRequested = false → s.printerLevelLow =
          (put q).recomputePrinter (some (i, e.document, e.pageIndex)))
        ∧ (e.stopRequested = true → s.printerLevelLow =
          ((put q).recomputePrinter (some (i, e.document, e.pageIndex))).endPrintNow i)))
    ∧ exec (.sounderPatternTimer .paper) s = .next (put { p with
        sounder := { p.sounder with paper := p.sounder.paper.map (fun b => !b) } })
    ∧ (p.sounder.flash = none → exec (.sounderPatternTimer .flash) s = .next s)
    ∧ (∀ n, p.sounder.flash = some n → exec (.sounderPatternTimer .flash) s = .next (put { p with
        sounder := { p.sounder with flash := if n < 4 then some (n + 1) else none } }))

/-! ## Metering, burns and the supply -/

/-- The clock's step has put the units of a call that have reached their start in line; each is charged at the band it
fell due in. The record of an answered call starts with its setup price and first unit. At its release the units still
in line are charged, the desk's calls rise, the charge record is written to the log or waits for room there, and the
entry takes the charge. A charge moves the desk's totals and its state; one that leaves the pending amount at the
threshold with no burn of the desk in progress queues it, and so does one under a power warning; a desk is queued once,
with its first reason, and in AUDIT only by AUDIT CLEAR. A verified burn leaves its desk's cell good and lifetime burned
at the captured value; the burn limit leaves it torn and the desk in audit. A verify or a limit names its burn, and one
of a burn that has ended is discarded. The warning follows the sensed supply, queues the desks with a pending amount,
and ends with the arbiter's passes. While a write of the Meter waits for room it does nothing of its own, and what other
blocks give it, a charge, a release as it stood or a consumer write, waits and is then done in order; a release lets
the outcome reports kept for its entry be taken (R61). The units of a band stay at 65535 once they are there. With
nothing due or to end the command changes nothing.
Where the manual leaves it to the model: log entries 7, 16, 20, 38, 39, 41, 45, 56 and 88. -/
def Obligations.MeterChargesAndBurns : Prop :=
  ∀ s : State,
    let m := s.meter
    let put (x : Meter) : State := { s with meter := x }
    let waits : Prop := s.stalled .meter = true ∨ m.work ≠ []
    let gives (w : MeterWork) : State := put { m with work := m.work ++ [w] }
    (∀ u, (∀ r, m.recs.get u = some r → r.due = []) → exec (.meterUnitStart u) s = .next s)
    ∧ (waits → ∀ u, exec (.meterUnitStart u) s = .next s)
    ∧ (s.stalled .meter = true →
      (∀ n, exec (.burnVerify n) s = .next s ∧ exec (.burnLimitExpiry n) s = .next s)
      ∧ exec .powerWarningBegin s = .next s ∧ exec .powerWarningEnd s = .next s)
    ∧ (∀ u r b rest, ¬ waits → m.recs.get u = some r → r.due = b :: rest →
      let price := r.zone.price.get b
      exec (.meterUnitStart u) s = .next ((put { m with recs := m.recs.set u (some { r with
        due := rest, charge := min 4294967295 (r.charge + price),
        units := r.units.set b (min 65535 (r.units.get b + 1)) }) }).addCharge r.desk price))
    ∧ (∀ d n, (waits → s.chargeDesk d n = gives (.charge d n)) ∧ (¬ waits → s.chargeDesk d n = s.addCharge d n))
    ∧ (∀ d n k, s.desk d = some k →
      let s1 := s.modDesk d (fun x =>
        { x with spent := min 4294967295 (x.spent + n), working := min (2 ^ 40 - 1) (x.working + n) })
      s.addCharge d n = (s1.deskRecompute d .ceiling).chargeTests d)
    ∧ (∀ d k, s.desk d = some k →
      let pending := k.working - k.captured.elim k.burned (fun c => c.1)
      let full : Prop := m.checkpoint ≤ pending ∧ k.captured = none
      (full → m.warning = true → s.chargeTests d = ((s.queueBurn d .threshold).queueBurn d .power).startBurn)
      ∧ (full → m.warning = false → s.chargeTests d = (s.queueBurn d .threshold).startBurn)
      ∧ (¬ full → m.warning = true → s.chargeTests d = (s.queueBurn d .power).startBurn)
      ∧ (¬ full → m.warning = false → s.chargeTests d = s.startBurn)
      ∧ ∀ r : BurnReason,
        let out : Prop := d ∈ m.burnQueue.map (fun x => x.1) ∨ (k.audit = true ∧ r ≠ .auditClear)
        (out → s.queueBurn d r = s)
        ∧ (¬ out → s.queueBurn d r = put { m with burnQueue := m.burnQueue ++ [(d, r)] }))
    ∧ (∀ u h i, (s.unit u).handOver = some h → (s.unit u).entry = some i →
      let b := m.tariff.bandAt s.now
      let amount := h.zone.setup + h.zone.price.get b
      s.meterStart u = (put { m with recs := m.recs.set u (some
        { zoneIndex := h.zoneIndex, zone := h.zone, desk := h.desk, entry := i, orderSeq := h.orderSeq,
          number := h.number, answer := s.now, elapsed := 0, nextStart := h.zone.len.get b,
          units := (PerBand.mk 0 0 0).set b 1, charge := min 4294967295 amount, due := [] }) }).chargeDesk h.desk amount)
    ∧ (∀ u, m.recs.get u = none → s.meterRelease u = s)
    ∧ (∀ u r, m.recs.get u = some r →
      let call : MeteredCall :=
        { unit := u, record := r, bytes := (s.unit u).attemptBytes, result := (s.unit u).result,
          confirmed := (s.entry r.entry).elim 0 (fun e => e.confirmed) }
      (waits → s.meterRelease u = put { m with recs := m.recs.set u none, work := m.work ++ [.release call] })
      ∧ (¬ waits →
        let t := s.formCharge call
        s.meterRelease u = { t with meter := { t.meter with recs := t.meter.recs.set u none } }))
    ∧ (∀ (call : MeteredCall),
      let r := call.record
      let price (b : Band) : Nat := r.zone.price.get b
      let one (x : MeterRec) (b : Band) : MeterRec := { x with
        charge := min 4294967295 (x.charge + price b), units := x.units.set b (min 65535 (x.units.get b + 1)) }
      let paid : MeterRec := { r.due.foldl one r with due := [] }
      let t := r.due.foldl (fun t b => t.addCharge r.desk (price b)) s
      let c : ChargeRecord :=
        { sequence := t.meter.recordSeq, orderSeq := r.orderSeq, answer := r.answer, duration := r.elapsed,
          charge := paid.charge, bytes := call.bytes, entry := r.entry, units := paid.units, desk := r.desk,
          unit := call.unit, zone := r.zoneIndex, result := call.result, confirmed := call.confirmed, number := r.number }
      let t1 := State.placeCharge { t with meter := { t.meter with
        desks := tmod t.meter.desks r.desk (fun k => { k with calls := min 16777215 (k.calls + 1) }),
        recordSeq := t.meter.recordSeq + 1 } } c
      s.formCharge call = { t1 with sendq := { t1.sendq with entries := tmod t1.sendq.entries r.entry (fun e =>
          { e with chargeTotal := min 4294967295 (e.chargeTotal + paid.charge), attemptCharge := paid.charge }) } })
    ∧ (∀ w,
      let done (t : State) : State := { t with meter := { t.meter with work := t.meter.work.tail } }
      (∀ d n, w = .charge d n → s.finishWork w = done (s.addCharge d n))
      ∧ (∀ call, w = .release call → s.finishWork w = (done (s.formCharge call)).settleReports call.record.entry)
      ∧ (∀ v, w = .consumer v → s.finishWork w = done (s.takeChargeConsumer v)))
    ∧ (∀ v,
      let t := drainOverflow m.overflow (put { m with consumer := v })
      (m.logSize < (m.producer - v).toNat → s.takeChargeConsumer v = s)
      ∧ ((m.producer - v).toNat ≤ m.logSize → s.takeChargeConsumer v =
        if (t.meter.producer - t.meter.consumer).toNat < t.meter.logSize ∧ t.meter.overflow = [] then t.arbiterPasses else t))
    ∧ (∀ c,
      let room : Prop := m.overflow = [] ∧ (m.producer - m.consumer).toNat < m.logSize
      (¬ room → s.placeCharge c = put { m with overflow := m.overflow ++ [c] })
      ∧ (room → s.placeCharge c = State.issue
        { s.issue .meter (m.logBase + (m.producer.toNat % m.logSize) * 64) c.record with
          meter := { m with producer := m.producer + 1 } } .meter (s.settings.controlBase + 0x80C)
        (leBytes 4 (m.producer + 1).toNat))
      ∧ c.record = leBytes 4 c.sequence ++ leBytes 4 c.orderSeq.toNat ++ leBytes 4 c.answer.word ++ leBytes 4 c.duration
          ++ leBytes 4 c.charge ++ leBytes 4 c.bytes ++ leBytes 2 c.entry
          ++ leBytes 2 c.units.peak ++ leBytes 2 c.units.shoulder ++ leBytes 2 c.units.night
          ++ [byteOf c.desk, byteOf (unitNum c.unit), byteOf c.zone, byteOf (c.result.elim 0 attemptCode), byteOf c.confirmed]
          ++ [0, 0] ++ byteOf c.number.length :: (c.number.take 24 ++ List.replicate (24 - c.number.length) 0)
      ∧ c.record.length = 64)
    ∧ (∀ n, (∀ b, m.burn = some b → b.number ≠ n) →
      exec (.burnVerify n) s = .next s ∧ exec (.burnLimitExpiry n) s = .next s)
    ∧ (∀ b k, s.stalled .meter = false → m.burn = some b → s.desk b.desk = some k →
      let good : StoreCell :=
        { lifetime := b.lifetime, calls := b.calls, sequence := b.sequence, torn := false, writing := false }
      let done : State := (put { m with
        burn := none, cells := tset m.cells b.desk good,
        desks := tmod m.desks b.desk (fun x => { x with burned := b.lifetime, torn := false, captured := none }) }).post
        .meter (.meterBurn b.desk .done (some b.reason) b.lifetime b.calls b.sequence)
      (m.checkpoint ≤ k.working - b.lifetime →
        exec (.burnVerify b.number) s = .next (done.queueBurn b.desk .threshold).startBurn)
      ∧ (k.working - b.lifetime < m.checkpoint → exec (.burnVerify b.number) s = .next done.startBurn)
      ∧ exec (.burnLimitExpiry b.number) s = .next ((((put { m with
          burn := none, burnQueue := m.burnQueue.filter (fun x => x.1 ≠ b.desk),
          cells := tset m.cells b.desk { s.storeCell b.desk with torn := true, writing := false },
          desks := tmod m.desks b.desk (fun x => { x with torn := true, captured := none, audit := true }) }).post
          .meter (.meterBurn b.desk .failed (some b.reason) b.lifetime b.calls b.sequence)).deskRecompute b.desk
          .burnFailed).startBurn))
    ∧ (∀ d r rest k, m.burn = none → m.burnQueue = (d, r) :: rest → s.desk d = some k →
      s.startBurn = put { m with
        burnQueue := rest,
        burnsBegun := m.burnsBegun + 1,
        burn := some { number := m.burnsBegun, desk := d, reason := r, lifetime := k.working, calls := k.calls,
                       sequence := ((s.storeCell d).sequence + 1) % 65536 },
        cells := tset m.cells d { s.storeCell d with writing := true },
        desks := tmod m.desks d (fun x => { x with captured := some (x.working, x.calls) }) })
    ∧ (m.burn ≠ none ∨ m.burnQueue = [] → s.startBurn = s)
    ∧ (∀ low, exec (.supplyLevelChange low) s = .next (put { m with supplyLow := low }))
    ∧ (m.monitor = false ∨ m.supplyLow = false ∨ m.warning = true → exec .powerWarningBegin s = .next s)
    ∧ (s.stalled .meter = false → m.monitor = true → m.supplyLow = true → m.warning = false → exec .powerWarningBegin s =
      .next (((m.desks.filter (fun x => 0 < x.2.pendingAmount)).foldl (fun t x => t.queueBurn x.1 .power)
        ((put { m with warning := true }).post .meter (.power true))).startBurn))
    ∧ (m.monitor = false ∨ m.supplyLow = true ∨ m.warning = false → exec .powerWarningEnd s = .next s)
    ∧ (s.stalled .meter = false → m.monitor = true → m.supplyLow = false → m.warning = true → exec .powerWarningEnd s =
      .next (((put { m with warning := false }).post .meter (.power false)).arbiterPasses))

/-! ## Line coding -/

/-- Coding and decoding agree: a line of rising positions inside its width, coded in either form against any such
reference, decodes to itself whatever bytes follow, every shorter beginning of its code still wants bytes, and FULL
is never longer than RUNS. A row of dots and its transition list give each other back. A SAME line is the SAME tag byte
alone; it is legal when the line equals its reference, and a decoder that reads it copies the reference. -/
def Obligations.CodedLineDecodesBack : Prop :=
  ∀ c : Width,
    let w := widthDots c
    let line (l : List Nat) : Prop := l.Pairwise (· < ·) ∧ ∀ t ∈ l, t < w
    (∀ (f : Form) (ref ts : List Nat) (rest : List Byte), line ref → line ts →
      let code := codeLine f w ref ts
      takeLine w ref (code ++ rest) = .good ts code.length
      ∧ (∀ n, n < code.length → takeLine w ref (code.take n) = .more)
      ∧ code.length ≤ (codeRuns w ts).length
      ∧ transitions (lineDots w ts) = ts)
    ∧ (∀ dots : List Bool, dots.length = w → lineDots w (transitions dots) = dots ∧ line (transitions dots))
    ∧ (∀ ref ts : List Nat, codeFull w ref ts = [0x01] ↔ ts = ref)
    ∧ ∀ (ref : List Nat) (rest : List Byte), takeLine w ref (0x01 :: rest) = .good ref 1
end

