-- ==== Sys2Proof/Laws/Memory.lean ====
section
/-! SUPPORT. Page memory: every operation keeps the canonical form, a read after a write gives the byte
written, and a write leaves every other byte alone. -/

namespace Sys2Proof.Machine

open Sys2Proof

theorem Memory.wfFrom_mono {m n : Nat} {t : Memory} (h : m ≤ n) (w : Memory.wfFrom n t = true) :
    Memory.wfFrom m t = true := by
  cases t with
  | nil => rfl
  | cons x t =>
    obtain ⟨k, b⟩ := x
    simp only [Memory.wfFrom, Bool.and_eq_true, decide_eq_true_eq] at w ⊢
    exact ⟨⟨by omega, w.1.2⟩, w.2⟩

theorem Memory.wfFrom_write {n a : Nat} {b : Byte} {t : Memory} (h : n ≤ a) (w : Memory.wfFrom n t = true) :
    Memory.wfFrom n (Memory.write t a b) = true := by
  induction t generalizing n with
  | nil =>
    by_cases hb : b = Config.unwrittenByte <;> simp [Memory.write, hb, Memory.wfFrom, h]
  | cons x t ih =>
    obtain ⟨k, c⟩ := x
    simp only [Memory.wfFrom, Bool.and_eq_true, decide_eq_true_eq] at w
    unfold Memory.write
    split
    · split
      · simp only [Memory.wfFrom, Bool.and_eq_true, decide_eq_true_eq]; exact w
      · simp only [Memory.wfFrom, Bool.and_eq_true, decide_eq_true_eq]
        exact ⟨⟨h, by assumption⟩, ⟨by omega, w.1.2⟩, w.2⟩
    · split
      · split
        · exact Memory.wfFrom_mono (by omega) w.2
        · simp only [Memory.wfFrom, Bool.and_eq_true, decide_eq_true_eq]
          subst_vars
          exact ⟨⟨h, by assumption⟩, w.2⟩
      · simp only [Memory.wfFrom, Bool.and_eq_true, decide_eq_true_eq]
        exact ⟨w.1, ih (by omega) w.2⟩

/-- Writing a byte keeps the canonical form. -/
theorem Memory.write_wf {m : Memory} (a : Nat) (b : Byte) (w : m.wf = true) : (m.write a b).wf = true :=
  Memory.wfFrom_write (Nat.zero_le a) w

/-- Writing bytes keeps the canonical form. -/
theorem Memory.writeBytes_wf {m : Memory} (a : Nat) (bs : List Byte) (w : m.wf = true) :
    (m.writeBytes a bs).wf = true := by
  induction bs generalizing m a with
  | nil => exact w
  | cons b t ih => exact ih (a + 1) (Memory.write_wf a b w)

/-- Writing enabled lanes keeps the canonical form. -/
theorem Memory.writeLanes_wf {m : Memory} (a : Nat) (ls : List Lane) (w : m.wf = true) :
    (m.writeLanes a ls).wf = true := by
  induction ls generalizing m a with
  | nil => exact w
  | cons l t ih =>
    cases l with
    | none => exact ih (a + 1) w
    | some b => exact ih (a + 1) (Memory.write_wf a b w)

theorem Memory.read_below {n a : Nat} {t : Memory} (w : Memory.wfFrom n t = true) (h : a < n) :
    Memory.read t a = Config.unwrittenByte := by
  induction t generalizing n with
  | nil => rfl
  | cons x t ih =>
    obtain ⟨k, c⟩ := x
    simp only [Memory.wfFrom, Bool.and_eq_true, decide_eq_true_eq] at w
    rw [Memory.read, if_neg (by omega)]
    exact ih w.2 (by omega)

theorem Memory.read_write_from {n : Nat} {t : Memory} (a : Nat) (b : Byte) (x : Nat)
    (w : Memory.wfFrom n t = true) :
    Memory.read (Memory.write t a b) x = if x = a then b else Memory.read t x := by
  induction t generalizing n with
  | nil =>
    by_cases hb : b = Config.unwrittenByte <;> by_cases hx : x = a
    · simp [Memory.write, Memory.read, hb, hx]
    · simp [Memory.write, Memory.read, hb, hx]
    · simp [Memory.write, Memory.read, hb, hx]
    · simp [Memory.write, Memory.read, hb, hx, Ne.symm hx]
  | cons y t ih =>
    obtain ⟨k, c⟩ := y
    simp only [Memory.wfFrom, Bool.and_eq_true, decide_eq_true_eq] at w
    unfold Memory.write
    split
    · rename_i hak
      split
      · rename_i hb
        by_cases hx : x = a
        · subst hx
          have := Memory.read_below w.2 (show x < k + 1 by omega)
          simp [Memory.read, show ¬ k = x by omega, this, hb]
        · simp [hx]
      · by_cases hx : x = a
        · simp [Memory.read, hx]
        · simp [Memory.read, hx, Ne.symm hx]
    · split
      · rename_i hak
        subst hak
        split
        · rename_i hb
          by_cases hx : x = a
          · subst hx; simp [Memory.read_below w.2 (show x < x + 1 by omega), hb]
          · simp [Memory.read, hx, Ne.symm hx]
        · by_cases hx : x = a
          · simp [Memory.read, hx]
          · simp [Memory.read, hx, Ne.symm hx]
      · rename_i h1 h2
        simp only [Memory.read]
        rw [ih w.2]
        by_cases hx : x = a
        · subst hx; simp [show ¬ k = x by omega]
        · simp [hx]

/-- A read after a write of one byte. -/
theorem Memory.read_write {m : Memory} (w : m.wf = true) (a : Nat) (b : Byte) (x : Nat) :
    (m.write a b).read x = if x = a then b else m.read x :=
  Memory.read_write_from a b x w

/-- A read after a write of bytes: inside the run the byte written, outside it the byte before. -/
theorem Memory.read_writeBytes {m : Memory} (w : m.wf = true) (a : Nat) (bs : List Byte) (x : Nat) :
    (m.writeBytes a bs).read x =
      if a ≤ x then (match bs[x - a]? with | some b => b | none => m.read x) else m.read x := by
  induction bs generalizing m a with
  | nil => simp [Memory.writeBytes]
  | cons b t ih =>
    rw [Memory.writeBytes, ih (Memory.write_wf a b w), Memory.read_write w]
    by_cases h : a + 1 ≤ x
    · rw [if_pos h, if_pos (by omega : a ≤ x), if_neg (by omega : ¬ x = a),
        show x - a = (x - (a + 1)) + 1 by omega, List.getElem?_cons_succ]
    · rw [if_neg h]
      by_cases hx : x = a
      · subst hx; simp
      · rw [if_neg hx, if_neg (by omega)]

/-- A read after a host write: an enabled lane's byte where the write has one, else the byte before. -/
theorem Memory.read_writeLanes {m : Memory} (w : m.wf = true) (a : Nat) (ls : List Lane) (x : Nat) :
    (m.writeLanes a ls).read x =
      if a ≤ x then (match ls[x - a]? with | some (some b) => b | _ => m.read x) else m.read x := by
  induction ls generalizing m a with
  | nil => simp [Memory.writeLanes]
  | cons l t ih =>
    have key : ∀ {m' : Memory}, m'.wf = true → (m'.writeLanes (a + 1) t).read x =
        if a + 1 ≤ x then (match t[x - (a + 1)]? with | some (some b) => b | _ => m'.read x) else m'.read x :=
      fun h => ih h (a + 1)
    by_cases h : a + 1 ≤ x
    · have e : x - a = (x - (a + 1)) + 1 := by omega
      cases l with
      | none =>
        rw [Memory.writeLanes, key w, if_pos h, if_pos (by omega : a ≤ x), e, List.getElem?_cons_succ]
      | some b =>
        rw [Memory.writeLanes, key (Memory.write_wf a b w), if_pos h, if_pos (by omega : a ≤ x), e,
          List.getElem?_cons_succ, Memory.read_write w, if_neg (by omega : ¬ x = a)]
    · cases l with
      | none =>
        rw [Memory.writeLanes, key w, if_neg h]
        by_cases hx : x = a
        · subst hx; simp
        · rw [if_neg (by omega)]
      | some b =>
        rw [Memory.writeLanes, key (Memory.write_wf a b w), if_neg h, Memory.read_write w]
        by_cases hx : x = a
        · subst hx; simp
        · rw [if_neg hx, if_neg (by omega)]

/-- The length of a run of bytes read. -/
@[simp] theorem Memory.readBytes_length (m : Memory) (a n : Nat) : (m.readBytes a n).length = n := by
  induction n generalizing a with
  | zero => rfl
  | succ n ih => simp [Memory.readBytes, ih]

/-- One byte of a run of bytes read. -/
theorem Memory.readBytes_get (m : Memory) (a n i : Nat) (h : i < n) :
    (m.readBytes a n)[i]? = some (m.read (a + i)) := by
  induction n generalizing a i with
  | zero => omega
  | succ n ih =>
    cases i with
    | zero => simp [Memory.readBytes]
    | succ i =>
      rw [Memory.readBytes, List.getElem?_cons_succ, ih (a + 1) i (by omega)]
      rw [show a + 1 + i = a + (i + 1) by omega]

/-- Page memory with nothing written is in canonical form. -/
theorem Memory.wf_nil : Memory.wf [] = true := rfl

end Sys2Proof.Machine
end

