-- ==== Sys2Proof/Laws/Access.lean ====
section
/-! SUPPORT. What the operations of the Memory Path do, each said once: the issue of a part-originated write, the
cutting of a host access into the areas it meets, reads through the pending writes, and numbers in bytes. -/

namespace Sys2Proof.Machine

open Sys2Proof

/-! ## Numbers in bytes -/

@[simp] theorem leBytes_length (n v : Nat) : (leBytes n v).length = n := by
  induction n generalizing v with
  | zero => rfl
  | succ n ih => simp [leBytes, ih]

/-- A number written in `n` bytes reads back modulo 256^n. -/
theorem leValue_leBytes (n v : Nat) : leValue (leBytes n v) = v % 256 ^ n := by
  induction n generalizing v with
  | zero => simp [leBytes, leValue, Nat.mod_one]
  | succ n ih =>
    simp only [leBytes, leValue, ih, byteOf, BitVec.toNat_ofNat]
    rw [show 256 ^ (n + 1) = 256 * 256 ^ n by rw [pow_succ, Nat.mul_comm], Nat.mod_mul]

/-! ## The issue of a write (R61) -/

/-- A write of 1 to 64 bytes inside a 4 KiB page is issued whole. -/
theorem splitWrite_short (a : Nat) (bs : List Byte) (h0 : bs ≠ []) (h : bs.length ≤ 64)
    (h1 : a % 4096 + bs.length ≤ 4096) : splitWrite bs.length a bs = [(a, bs)] := by
  cases bs with
  | nil => simp at h0
  | cons b t =>
    have : (b :: t).length ≤ min 64 (4096 - a % 4096) := by omega
    simp only [splitWrite, List.length_cons, Config.writeBytes, Config.memPage]
    rw [List.take_of_length_le this, List.drop_of_length_le this]
    cases t.length <;> simp [splitWrite]

/-- With room in the queue and none waiting, a short write joins the queue's end. -/
theorem MemPath.issue_short (p : MemPath) (blk : Block) (a : Nat) (bs : List Byte) (c : Option Nat)
    (hw : p.waiting = []) (hq : p.queue.length < 16) (h0 : bs ≠ []) (h : bs.length ≤ 64)
    (h1 : a % 4096 + bs.length ≤ 4096) :
    p.issue blk a bs c = { p with queue := p.queue ++ [{ blk := blk, addr := a, bytes := bs, clears := c }] } := by
  rw [MemPath.issue, splitWrite_short a bs h0 h h1]
  simp [MemPath.enqueue, hw, Config.queueWrites, hq]

/-! ## Host accesses (R45) -/

/-- A run of lanes that all meet one area is one segment behind those already gathered. -/
theorem cutSegs_same (f : Nat → Area) (st : Nat) (x : Area) (hst : f st = x) (acc : List Lane) (ha : acc ≠ [])
    (a : Nat) (ls : List Lane) (h : ∀ i, i < ls.length → f (a + i) = x) :
    cutSegs f st acc a ls = [{ addr := st, lanes := acc.reverse ++ ls }] := by
  induction ls generalizing acc a with
  | nil => simp [cutSegs, ha]
  | cons l t ih =>
    have h0 : f a = f st := by rw [hst]; simpa using h 0 (by simp)
    simp only [cutSegs, ha, if_false, h0, if_true]
    rw [ih (l :: acc) (by simp) (a + 1)
      (by intro i hi; rw [← h (i + 1) (by simp; omega)]; congr 1; omega)]
    simp

/-- An access whose lanes all meet one area is one segment. -/
theorem cutSegs_all (f : Nat → Area) (x : Area) (a : Nat) (ls : List Lane) (h0 : ls ≠ [])
    (h : ∀ i, i < ls.length → f (a + i) = x) : cutSegs f a [] a ls = [{ addr := a, lanes := ls }] := by
  cases ls with
  | nil => simp at h0
  | cons l t =>
    simp only [cutSegs, if_true]
    rw [cutSegs_same f a x (by simpa using h 0 (by simp)) [l] (by simp) (a + 1) t
      (by intro i hi; rw [← h (i + 1) (by simp; omega)]; congr 1; omega)]
    simp

/-- An access with an enabled lane, in one area, is carried out as one segment. -/
theorem State.segs_all (s : State) (x : Area) (a : Nat) (ls : List Lane) (h0 : ls.filterMap id ≠ [])
    (h : ∀ i, i < ls.length → s.hostArea (a + i) = x) : s.segs a ls = [{ addr := a, lanes := ls }] := by
  have : ls ≠ [] := by rintro rfl; simp at h0
  rw [State.segs, cutSegs_all _ x a ls this h]
  simp only [List.filter, Seg.bytes, ne_eq, h0, not_false_eq_true, decide_true]

/-- An access with no enabled lane has no segment. -/
theorem State.segs_none (s : State) (x : Area) (a : Nat) (ls : List Lane) (h0 : ls.filterMap id = [])
    (h : ∀ i, i < ls.length → s.hostArea (a + i) = x) : s.segs a ls = [] := by
  by_cases hl : ls = []
  · subst hl; simp [State.segs, cutSegs]
  · rw [State.segs, cutSegs_all _ x a ls hl h]
    simp only [List.filter, Seg.bytes, ne_eq, h0, not_true_eq_false, decide_false]

/-- A host write into one area, with the bus free and inside memory, runs that one segment. -/
theorem State.hostWrite_one (s : State) (x : Area) (a : Nat) (ls : List Lane) (h0 : ls.filterMap id ≠ [])
    (hb : s.path.bus = .free) (hm : a + ls.length ≤ memBytes s.memSize)
    (h : ∀ i, i < ls.length → s.hostArea (a + i) = x) :
    s.hostWrite a ls = runSegs [{ addr := a, lanes := ls }] false s ∧ s.hostArea a = x := by
  have : ls ≠ [] := by rintro rfl; simp at h0
  have hx : 0 < ls.length := List.length_pos_iff.mpr this
  exact ⟨by simp [State.hostWrite, hb, Nat.not_lt.mpr hm, State.segs_all s x a ls h0 h], by simpa using h 0 hx⟩

/-- A write with every lane enabled writes its bytes. -/
theorem Memory.writeLanes_some (bs : List Byte) (m : Memory) (a : Nat) :
    m.writeLanes a (bs.map some) = m.writeBytes a bs := by
  induction bs generalizing m a with
  | nil => rfl
  | cons b t ih => simp [Memory.writeLanes, Memory.writeBytes, ih]

/-- Bytes written read back. -/
theorem Memory.readBytes_writeBytes (m : Memory) (hm : m.wf = true) (a : Nat) (bs : List Byte) :
    (m.writeBytes a bs).readBytes a bs.length = bs := by
  apply List.ext_getElem?
  intro i
  by_cases hi : i < bs.length
  · rw [Memory.readBytes_get _ _ _ _ hi, Memory.read_writeBytes hm]
    simp [hi]
  · rw [List.getElem?_eq_none (by simp; omega), List.getElem?_eq_none (by omega)]

/-! ## Reads through the pending writes (R61) -/

/-- Writes that miss a byte leave it alone. -/
theorem overlay_clear (ws : List PendingWrite) (a : Nat) (r : Option Byte)
    (h : ∀ w ∈ ws, overlaps a 1 w.addr w.bytes.length = false) : overlay ws a r = r := by
  induction ws generalizing r with
  | nil => rfl
  | cons w t ih =>
    simp only [overlay]
    have hw := h w (by simp)
    rw [ih _ (fun x hx => h x (by simp [hx]))]
    split
    · rename_i hle
      have : w.bytes[a - w.addr]? = none := by
        rw [List.getElem?_eq_none_iff]
        simp [overlaps] at hw
        by_contra hc
        have := hw (by omega) (by omega)
        omega
      rw [this]
    · rfl

/-- A range that no pending write overlaps has no byte that one overlaps. -/
theorem MemPath.clear_of_blocked (p : MemPath) (a n i : Nat) (h : p.blocked a n = false) (hi : i < n) :
    ∀ w ∈ p.pendingWrites, overlaps (a + i) 1 w.addr w.bytes.length = false := by
  intro w hw
  simp only [MemPath.blocked, List.any_eq_false] at h
  have := h w hw
  simp [overlaps] at this ⊢
  intro h1 h2
  by_contra hc
  have := this (by omega) (by omega) (by omega)
  omega

/-- The part reads page memory where no pending write overlaps. -/
theorem State.readThrough_clear (s : State) (a n : Nat) (hb : s.path.blocked a n = false) :
    s.readThrough a n = s.mem.readBytes a n := by
  suffices ∀ k b, (∀ i, i < k → ∀ w ∈ s.path.pendingWrites, overlaps (b + i) 1 w.addr w.bytes.length = false) →
      s.readThrough b k = s.mem.readBytes b k from
    this n a (fun i hi => MemPath.clear_of_blocked _ _ _ _ hb hi)
  intro k
  induction k with
  | zero => intro b _; rfl
  | succ k ih =>
    intro b h
    simp only [State.readThrough, Memory.readBytes, State.readByte]
    rw [overlay_clear _ _ _ (by simpa using h 0 (by omega)),
      ih (b + 1) (fun i hi => by have := h (i + 1) (by omega); rwa [show b + (i + 1) = b + 1 + i by omega] at this)]

end Sys2Proof.Machine
end

