-- ==== Sys2Proof/Laws/State.lean ====
section
/-! SUPPORT. What each update of the state leaves alone: one lemma for each field and each update. -/

namespace Sys2Proof.Machine

open Sys2Proof

/-! ### post changes `reporter` alone -/

@[simp] theorem State.post_mem (s : State) (blk : Block) (e : Event) : (s.post blk e).mem = s.mem := rfl
@[simp] theorem State.post_memSize (s : State) (blk : Block) (e : Event) : (s.post blk e).memSize = s.memSize := rfl
@[simp] theorem State.post_cause (s : State) (blk : Block) (e : Event) : (s.post blk e).cause = s.cause := rfl
@[simp] theorem State.post_part (s : State) (blk : Block) (e : Event) : (s.post blk e).part = s.part := rfl
@[simp] theorem State.post_settings (s : State) (blk : Block) (e : Event) : (s.post blk e).settings = s.settings := rfl
@[simp] theorem State.post_path (s : State) (blk : Block) (e : Event) : (s.post blk e).path = s.path := rfl
@[simp] theorem State.post_intake (s : State) (blk : Block) (e : Event) : (s.post blk e).intake = s.intake := rfl
@[simp] theorem State.post_store (s : State) (blk : Block) (e : Event) : (s.post blk e).store = s.store := rfl
@[simp] theorem State.post_coder (s : State) (blk : Block) (e : Event) : (s.post blk e).coder = s.coder := rfl
@[simp] theorem State.post_scanner (s : State) (blk : Block) (e : Event) : (s.post blk e).scanner = s.scanner := rfl
@[simp] theorem State.post_units (s : State) (blk : Block) (e : Event) : (s.post blk e).units = s.units := rfl
@[simp] theorem State.post_sendq (s : State) (blk : Block) (e : Event) : (s.post blk e).sendq = s.sendq := rfl
@[simp] theorem State.post_screen (s : State) (blk : Block) (e : Event) : (s.post blk e).screen = s.screen := rfl
@[simp] theorem State.post_print (s : State) (blk : Block) (e : Event) : (s.post blk e).print = s.print := rfl
@[simp] theorem State.post_meter (s : State) (blk : Block) (e : Event) : (s.post blk e).meter = s.meter := rfl
@[simp] theorem State.post_pending (s : State) (blk : Block) (e : Event) : (s.post blk e).pending = s.pending := rfl

/-! ### issue changes `path` alone -/

@[simp] theorem State.issue_mem (s : State) (blk : Block) (a : Nat) (bs : List Byte) : (s.issue blk a bs).mem = s.mem := rfl
@[simp] theorem State.issue_memSize (s : State) (blk : Block) (a : Nat) (bs : List Byte) : (s.issue blk a bs).memSize = s.memSize := rfl
@[simp] theorem State.issue_cause (s : State) (blk : Block) (a : Nat) (bs : List Byte) : (s.issue blk a bs).cause = s.cause := rfl
@[simp] theorem State.issue_part (s : State) (blk : Block) (a : Nat) (bs : List Byte) : (s.issue blk a bs).part = s.part := rfl
@[simp] theorem State.issue_settings (s : State) (blk : Block) (a : Nat) (bs : List Byte) : (s.issue blk a bs).settings = s.settings := rfl
@[simp] theorem State.issue_intake (s : State) (blk : Block) (a : Nat) (bs : List Byte) : (s.issue blk a bs).intake = s.intake := rfl
@[simp] theorem State.issue_reporter (s : State) (blk : Block) (a : Nat) (bs : List Byte) : (s.issue blk a bs).reporter = s.reporter := rfl
@[simp] theorem State.issue_store (s : State) (blk : Block) (a : Nat) (bs : List Byte) : (s.issue blk a bs).store = s.store := rfl
@[simp] theorem State.issue_coder (s : State) (blk : Block) (a : Nat) (bs : List Byte) : (s.issue blk a bs).coder = s.coder := rfl
@[simp] theorem State.issue_scanner (s : State) (blk : Block) (a : Nat) (bs : List Byte) : (s.issue blk a bs).scanner = s.scanner := rfl
@[simp] theorem State.issue_units (s : State) (blk : Block) (a : Nat) (bs : List Byte) : (s.issue blk a bs).units = s.units := rfl
@[simp] theorem State.issue_sendq (s : State) (blk : Block) (a : Nat) (bs : List Byte) : (s.issue blk a bs).sendq = s.sendq := rfl
@[simp] theorem State.issue_screen (s : State) (blk : Block) (a : Nat) (bs : List Byte) : (s.issue blk a bs).screen = s.screen := rfl
@[simp] theorem State.issue_print (s : State) (blk : Block) (a : Nat) (bs : List Byte) : (s.issue blk a bs).print = s.print := rfl
@[simp] theorem State.issue_meter (s : State) (blk : Block) (a : Nat) (bs : List Byte) : (s.issue blk a bs).meter = s.meter := rfl
@[simp] theorem State.issue_pending (s : State) (blk : Block) (a : Nat) (bs : List Byte) : (s.issue blk a bs).pending = s.pending := rfl

/-! ### modUnit changes `units` alone -/

@[simp] theorem State.modUnit_mem (s : State) (u : UnitId) (f : LineUnit → LineUnit) : (s.modUnit u f).mem = s.mem := rfl
@[simp] theorem State.modUnit_memSize (s : State) (u : UnitId) (f : LineUnit → LineUnit) : (s.modUnit u f).memSize = s.memSize := rfl
@[simp] theorem State.modUnit_cause (s : State) (u : UnitId) (f : LineUnit → LineUnit) : (s.modUnit u f).cause = s.cause := rfl
@[simp] theorem State.modUnit_part (s : State) (u : UnitId) (f : LineUnit → LineUnit) : (s.modUnit u f).part = s.part := rfl
@[simp] theorem State.modUnit_settings (s : State) (u : UnitId) (f : LineUnit → LineUnit) : (s.modUnit u f).settings = s.settings := rfl
@[simp] theorem State.modUnit_path (s : State) (u : UnitId) (f : LineUnit → LineUnit) : (s.modUnit u f).path = s.path := rfl
@[simp] theorem State.modUnit_intake (s : State) (u : UnitId) (f : LineUnit → LineUnit) : (s.modUnit u f).intake = s.intake := rfl
@[simp] theorem State.modUnit_reporter (s : State) (u : UnitId) (f : LineUnit → LineUnit) : (s.modUnit u f).reporter = s.reporter := rfl
@[simp] theorem State.modUnit_store (s : State) (u : UnitId) (f : LineUnit → LineUnit) : (s.modUnit u f).store = s.store := rfl
@[simp] theorem State.modUnit_coder (s : State) (u : UnitId) (f : LineUnit → LineUnit) : (s.modUnit u f).coder = s.coder := rfl
@[simp] theorem State.modUnit_scanner (s : State) (u : UnitId) (f : LineUnit → LineUnit) : (s.modUnit u f).scanner = s.scanner := rfl
@[simp] theorem State.modUnit_sendq (s : State) (u : UnitId) (f : LineUnit → LineUnit) : (s.modUnit u f).sendq = s.sendq := rfl
@[simp] theorem State.modUnit_screen (s : State) (u : UnitId) (f : LineUnit → LineUnit) : (s.modUnit u f).screen = s.screen := rfl
@[simp] theorem State.modUnit_print (s : State) (u : UnitId) (f : LineUnit → LineUnit) : (s.modUnit u f).print = s.print := rfl
@[simp] theorem State.modUnit_meter (s : State) (u : UnitId) (f : LineUnit → LineUnit) : (s.modUnit u f).meter = s.meter := rfl
@[simp] theorem State.modUnit_pending (s : State) (u : UnitId) (f : LineUnit → LineUnit) : (s.modUnit u f).pending = s.pending := rfl

/-! ### sendLink changes `units` alone -/

@[simp] theorem State.sendLink_mem (s : State) (u : UnitId) (m : LinkMsg) : (s.sendLink u m).mem = s.mem := rfl
@[simp] theorem State.sendLink_memSize (s : State) (u : UnitId) (m : LinkMsg) : (s.sendLink u m).memSize = s.memSize := rfl
@[simp] theorem State.sendLink_cause (s : State) (u : UnitId) (m : LinkMsg) : (s.sendLink u m).cause = s.cause := rfl
@[simp] theorem State.sendLink_part (s : State) (u : UnitId) (m : LinkMsg) : (s.sendLink u m).part = s.part := rfl
@[simp] theorem State.sendLink_settings (s : State) (u : UnitId) (m : LinkMsg) : (s.sendLink u m).settings = s.settings := rfl
@[simp] theorem State.sendLink_path (s : State) (u : UnitId) (m : LinkMsg) : (s.sendLink u m).path = s.path := rfl
@[simp] theorem State.sendLink_intake (s : State) (u : UnitId) (m : LinkMsg) : (s.sendLink u m).intake = s.intake := rfl
@[simp] theorem State.sendLink_reporter (s : State) (u : UnitId) (m : LinkMsg) : (s.sendLink u m).reporter = s.reporter := rfl
@[simp] theorem State.sendLink_store (s : State) (u : UnitId) (m : LinkMsg) : (s.sendLink u m).store = s.store := rfl
@[simp] theorem State.sendLink_coder (s : State) (u : UnitId) (m : LinkMsg) : (s.sendLink u m).coder = s.coder := rfl
@[simp] theorem State.sendLink_scanner (s : State) (u : UnitId) (m : LinkMsg) : (s.sendLink u m).scanner = s.scanner := rfl
@[simp] theorem State.sendLink_sendq (s : State) (u : UnitId) (m : LinkMsg) : (s.sendLink u m).sendq = s.sendq := rfl
@[simp] theorem State.sendLink_screen (s : State) (u : UnitId) (m : LinkMsg) : (s.sendLink u m).screen = s.screen := rfl
@[simp] theorem State.sendLink_print (s : State) (u : UnitId) (m : LinkMsg) : (s.sendLink u m).print = s.print := rfl
@[simp] theorem State.sendLink_meter (s : State) (u : UnitId) (m : LinkMsg) : (s.sendLink u m).meter = s.meter := rfl
@[simp] theorem State.sendLink_pending (s : State) (u : UnitId) (m : LinkMsg) : (s.sendLink u m).pending = s.pending := rfl

/-! ### modWindow changes `path` alone -/

@[simp] theorem State.modWindow_mem (s : State) (w : WindowId) (f : Window → Window) : (s.modWindow w f).mem = s.mem := rfl
@[simp] theorem State.modWindow_memSize (s : State) (w : WindowId) (f : Window → Window) : (s.modWindow w f).memSize = s.memSize := rfl
@[simp] theorem State.modWindow_cause (s : State) (w : WindowId) (f : Window → Window) : (s.modWindow w f).cause = s.cause := rfl
@[simp] theorem State.modWindow_part (s : State) (w : WindowId) (f : Window → Window) : (s.modWindow w f).part = s.part := rfl
@[simp] theorem State.modWindow_settings (s : State) (w : WindowId) (f : Window → Window) : (s.modWindow w f).settings = s.settings := rfl
@[simp] theorem State.modWindow_intake (s : State) (w : WindowId) (f : Window → Window) : (s.modWindow w f).intake = s.intake := rfl
@[simp] theorem State.modWindow_reporter (s : State) (w : WindowId) (f : Window → Window) : (s.modWindow w f).reporter = s.reporter := rfl
@[simp] theorem State.modWindow_store (s : State) (w : WindowId) (f : Window → Window) : (s.modWindow w f).store = s.store := rfl
@[simp] theorem State.modWindow_coder (s : State) (w : WindowId) (f : Window → Window) : (s.modWindow w f).coder = s.coder := rfl
@[simp] theorem State.modWindow_scanner (s : State) (w : WindowId) (f : Window → Window) : (s.modWindow w f).scanner = s.scanner := rfl
@[simp] theorem State.modWindow_units (s : State) (w : WindowId) (f : Window → Window) : (s.modWindow w f).units = s.units := rfl
@[simp] theorem State.modWindow_sendq (s : State) (w : WindowId) (f : Window → Window) : (s.modWindow w f).sendq = s.sendq := rfl
@[simp] theorem State.modWindow_screen (s : State) (w : WindowId) (f : Window → Window) : (s.modWindow w f).screen = s.screen := rfl
@[simp] theorem State.modWindow_print (s : State) (w : WindowId) (f : Window → Window) : (s.modWindow w f).print = s.print := rfl
@[simp] theorem State.modWindow_meter (s : State) (w : WindowId) (f : Window → Window) : (s.modWindow w f).meter = s.meter := rfl
@[simp] theorem State.modWindow_pending (s : State) (w : WindowId) (f : Window → Window) : (s.modWindow w f).pending = s.pending := rfl

/-! ### modDoc changes `store` alone -/

@[simp] theorem State.modDoc_mem (s : State) (d : Nat) (f : Doc → Doc) : (s.modDoc d f).mem = s.mem := rfl
@[simp] theorem State.modDoc_memSize (s : State) (d : Nat) (f : Doc → Doc) : (s.modDoc d f).memSize = s.memSize := rfl
@[simp] theorem State.modDoc_cause (s : State) (d : Nat) (f : Doc → Doc) : (s.modDoc d f).cause = s.cause := rfl
@[simp] theorem State.modDoc_part (s : State) (d : Nat) (f : Doc → Doc) : (s.modDoc d f).part = s.part := rfl
@[simp] theorem State.modDoc_settings (s : State) (d : Nat) (f : Doc → Doc) : (s.modDoc d f).settings = s.settings := rfl
@[simp] theorem State.modDoc_path (s : State) (d : Nat) (f : Doc → Doc) : (s.modDoc d f).path = s.path := rfl
@[simp] theorem State.modDoc_intake (s : State) (d : Nat) (f : Doc → Doc) : (s.modDoc d f).intake = s.intake := rfl
@[simp] theorem State.modDoc_reporter (s : State) (d : Nat) (f : Doc → Doc) : (s.modDoc d f).reporter = s.reporter := rfl
@[simp] theorem State.modDoc_coder (s : State) (d : Nat) (f : Doc → Doc) : (s.modDoc d f).coder = s.coder := rfl
@[simp] theorem State.modDoc_scanner (s : State) (d : Nat) (f : Doc → Doc) : (s.modDoc d f).scanner = s.scanner := rfl
@[simp] theorem State.modDoc_units (s : State) (d : Nat) (f : Doc → Doc) : (s.modDoc d f).units = s.units := rfl
@[simp] theorem State.modDoc_sendq (s : State) (d : Nat) (f : Doc → Doc) : (s.modDoc d f).sendq = s.sendq := rfl
@[simp] theorem State.modDoc_screen (s : State) (d : Nat) (f : Doc → Doc) : (s.modDoc d f).screen = s.screen := rfl
@[simp] theorem State.modDoc_print (s : State) (d : Nat) (f : Doc → Doc) : (s.modDoc d f).print = s.print := rfl
@[simp] theorem State.modDoc_meter (s : State) (d : Nat) (f : Doc → Doc) : (s.modDoc d f).meter = s.meter := rfl
@[simp] theorem State.modDoc_pending (s : State) (d : Nat) (f : Doc → Doc) : (s.modDoc d f).pending = s.pending := rfl

/-! ### modPage changes `store` alone -/

@[simp] theorem State.modPage_mem (s : State) (p : Nat) (f : PageRec → PageRec) : (s.modPage p f).mem = s.mem := rfl
@[simp] theorem State.modPage_memSize (s : State) (p : Nat) (f : PageRec → PageRec) : (s.modPage p f).memSize = s.memSize := rfl
@[simp] theorem State.modPage_cause (s : State) (p : Nat) (f : PageRec → PageRec) : (s.modPage p f).cause = s.cause := rfl
@[simp] theorem State.modPage_part (s : State) (p : Nat) (f : PageRec → PageRec) : (s.modPage p f).part = s.part := rfl
@[simp] theorem State.modPage_settings (s : State) (p : Nat) (f : PageRec → PageRec) : (s.modPage p f).settings = s.settings := rfl
@[simp] theorem State.modPage_path (s : State) (p : Nat) (f : PageRec → PageRec) : (s.modPage p f).path = s.path := rfl
@[simp] theorem State.modPage_intake (s : State) (p : Nat) (f : PageRec → PageRec) : (s.modPage p f).intake = s.intake := rfl
@[simp] theorem State.modPage_reporter (s : State) (p : Nat) (f : PageRec → PageRec) : (s.modPage p f).reporter = s.reporter := rfl
@[simp] theorem State.modPage_coder (s : State) (p : Nat) (f : PageRec → PageRec) : (s.modPage p f).coder = s.coder := rfl
@[simp] theorem State.modPage_scanner (s : State) (p : Nat) (f : PageRec → PageRec) : (s.modPage p f).scanner = s.scanner := rfl
@[simp] theorem State.modPage_units (s : State) (p : Nat) (f : PageRec → PageRec) : (s.modPage p f).units = s.units := rfl
@[simp] theorem State.modPage_sendq (s : State) (p : Nat) (f : PageRec → PageRec) : (s.modPage p f).sendq = s.sendq := rfl
@[simp] theorem State.modPage_screen (s : State) (p : Nat) (f : PageRec → PageRec) : (s.modPage p f).screen = s.screen := rfl
@[simp] theorem State.modPage_print (s : State) (p : Nat) (f : PageRec → PageRec) : (s.modPage p f).print = s.print := rfl
@[simp] theorem State.modPage_meter (s : State) (p : Nat) (f : PageRec → PageRec) : (s.modPage p f).meter = s.meter := rfl
@[simp] theorem State.modPage_pending (s : State) (p : Nat) (f : PageRec → PageRec) : (s.modPage p f).pending = s.pending := rfl

/-! ### modEntry changes `sendq` alone -/

@[simp] theorem State.modEntry_mem (s : State) (i : Nat) (f : DestEntry → DestEntry) : (s.modEntry i f).mem = s.mem := rfl
@[simp] theorem State.modEntry_memSize (s : State) (i : Nat) (f : DestEntry → DestEntry) : (s.modEntry i f).memSize = s.memSize := rfl
@[simp] theorem State.modEntry_cause (s : State) (i : Nat) (f : DestEntry → DestEntry) : (s.modEntry i f).cause = s.cause := rfl
@[simp] theorem State.modEntry_part (s : State) (i : Nat) (f : DestEntry → DestEntry) : (s.modEntry i f).part = s.part := rfl
@[simp] theorem State.modEntry_settings (s : State) (i : Nat) (f : DestEntry → DestEntry) : (s.modEntry i f).settings = s.settings := rfl
@[simp] theorem State.modEntry_path (s : State) (i : Nat) (f : DestEntry → DestEntry) : (s.modEntry i f).path = s.path := rfl
@[simp] theorem State.modEntry_intake (s : State) (i : Nat) (f : DestEntry → DestEntry) : (s.modEntry i f).intake = s.intake := rfl
@[simp] theorem State.modEntry_reporter (s : State) (i : Nat) (f : DestEntry → DestEntry) : (s.modEntry i f).reporter = s.reporter := rfl
@[simp] theorem State.modEntry_store (s : State) (i : Nat) (f : DestEntry → DestEntry) : (s.modEntry i f).store = s.store := rfl
@[simp] theorem State.modEntry_coder (s : State) (i : Nat) (f : DestEntry → DestEntry) : (s.modEntry i f).coder = s.coder := rfl
@[simp] theorem State.modEntry_scanner (s : State) (i : Nat) (f : DestEntry → DestEntry) : (s.modEntry i f).scanner = s.scanner := rfl
@[simp] theorem State.modEntry_units (s : State) (i : Nat) (f : DestEntry → DestEntry) : (s.modEntry i f).units = s.units := rfl
@[simp] theorem State.modEntry_screen (s : State) (i : Nat) (f : DestEntry → DestEntry) : (s.modEntry i f).screen = s.screen := rfl
@[simp] theorem State.modEntry_print (s : State) (i : Nat) (f : DestEntry → DestEntry) : (s.modEntry i f).print = s.print := rfl
@[simp] theorem State.modEntry_meter (s : State) (i : Nat) (f : DestEntry → DestEntry) : (s.modEntry i f).meter = s.meter := rfl
@[simp] theorem State.modEntry_pending (s : State) (i : Nat) (f : DestEntry → DestEntry) : (s.modEntry i f).pending = s.pending := rfl

/-! ### modPrintEntry changes `print` alone -/

@[simp] theorem State.modPrintEntry_mem (s : State) (i : Nat) (f : PrintEntry → PrintEntry) : (s.modPrintEntry i f).mem = s.mem := rfl
@[simp] theorem State.modPrintEntry_memSize (s : State) (i : Nat) (f : PrintEntry → PrintEntry) : (s.modPrintEntry i f).memSize = s.memSize := rfl
@[simp] theorem State.modPrintEntry_cause (s : State) (i : Nat) (f : PrintEntry → PrintEntry) : (s.modPrintEntry i f).cause = s.cause := rfl
@[simp] theorem State.modPrintEntry_part (s : State) (i : Nat) (f : PrintEntry → PrintEntry) : (s.modPrintEntry i f).part = s.part := rfl
@[simp] theorem State.modPrintEntry_settings (s : State) (i : Nat) (f : PrintEntry → PrintEntry) : (s.modPrintEntry i f).settings = s.settings := rfl
@[simp] theorem State.modPrintEntry_path (s : State) (i : Nat) (f : PrintEntry → PrintEntry) : (s.modPrintEntry i f).path = s.path := rfl
@[simp] theorem State.modPrintEntry_intake (s : State) (i : Nat) (f : PrintEntry → PrintEntry) : (s.modPrintEntry i f).intake = s.intake := rfl
@[simp] theorem State.modPrintEntry_reporter (s : State) (i : Nat) (f : PrintEntry → PrintEntry) : (s.modPrintEntry i f).reporter = s.reporter := rfl
@[simp] theorem State.modPrintEntry_store (s : State) (i : Nat) (f : PrintEntry → PrintEntry) : (s.modPrintEntry i f).store = s.store := rfl
@[simp] theorem State.modPrintEntry_coder (s : State) (i : Nat) (f : PrintEntry → PrintEntry) : (s.modPrintEntry i f).coder = s.coder := rfl
@[simp] theorem State.modPrintEntry_scanner (s : State) (i : Nat) (f : PrintEntry → PrintEntry) : (s.modPrintEntry i f).scanner = s.scanner := rfl
@[simp] theorem State.modPrintEntry_units (s : State) (i : Nat) (f : PrintEntry → PrintEntry) : (s.modPrintEntry i f).units = s.units := rfl
@[simp] theorem State.modPrintEntry_sendq (s : State) (i : Nat) (f : PrintEntry → PrintEntry) : (s.modPrintEntry i f).sendq = s.sendq := rfl
@[simp] theorem State.modPrintEntry_screen (s : State) (i : Nat) (f : PrintEntry → PrintEntry) : (s.modPrintEntry i f).screen = s.screen := rfl
@[simp] theorem State.modPrintEntry_meter (s : State) (i : Nat) (f : PrintEntry → PrintEntry) : (s.modPrintEntry i f).meter = s.meter := rfl
@[simp] theorem State.modPrintEntry_pending (s : State) (i : Nat) (f : PrintEntry → PrintEntry) : (s.modPrintEntry i f).pending = s.pending := rfl

/-! ### modDesk changes `meter` alone -/

@[simp] theorem State.modDesk_mem (s : State) (d : Nat) (f : Desk → Desk) : (s.modDesk d f).mem = s.mem := rfl
@[simp] theorem State.modDesk_memSize (s : State) (d : Nat) (f : Desk → Desk) : (s.modDesk d f).memSize = s.memSize := rfl
@[simp] theorem State.modDesk_cause (s : State) (d : Nat) (f : Desk → Desk) : (s.modDesk d f).cause = s.cause := rfl
@[simp] theorem State.modDesk_part (s : State) (d : Nat) (f : Desk → Desk) : (s.modDesk d f).part = s.part := rfl
@[simp] theorem State.modDesk_settings (s : State) (d : Nat) (f : Desk → Desk) : (s.modDesk d f).settings = s.settings := rfl
@[simp] theorem State.modDesk_path (s : State) (d : Nat) (f : Desk → Desk) : (s.modDesk d f).path = s.path := rfl
@[simp] theorem State.modDesk_intake (s : State) (d : Nat) (f : Desk → Desk) : (s.modDesk d f).intake = s.intake := rfl
@[simp] theorem State.modDesk_reporter (s : State) (d : Nat) (f : Desk → Desk) : (s.modDesk d f).reporter = s.reporter := rfl
@[simp] theorem State.modDesk_store (s : State) (d : Nat) (f : Desk → Desk) : (s.modDesk d f).store = s.store := rfl
@[simp] theorem State.modDesk_coder (s : State) (d : Nat) (f : Desk → Desk) : (s.modDesk d f).coder = s.coder := rfl
@[simp] theorem State.modDesk_scanner (s : State) (d : Nat) (f : Desk → Desk) : (s.modDesk d f).scanner = s.scanner := rfl
@[simp] theorem State.modDesk_units (s : State) (d : Nat) (f : Desk → Desk) : (s.modDesk d f).units = s.units := rfl
@[simp] theorem State.modDesk_sendq (s : State) (d : Nat) (f : Desk → Desk) : (s.modDesk d f).sendq = s.sendq := rfl
@[simp] theorem State.modDesk_screen (s : State) (d : Nat) (f : Desk → Desk) : (s.modDesk d f).screen = s.screen := rfl
@[simp] theorem State.modDesk_print (s : State) (d : Nat) (f : Desk → Desk) : (s.modDesk d f).print = s.print := rfl
@[simp] theorem State.modDesk_pending (s : State) (d : Nat) (f : Desk → Desk) : (s.modDesk d f).pending = s.pending := rfl

/-! ### setCell changes `meter` alone -/

@[simp] theorem State.setCell_mem (s : State) (d : Nat) (c : StoreCell) : (s.setCell d c).mem = s.mem := rfl
@[simp] theorem State.setCell_memSize (s : State) (d : Nat) (c : StoreCell) : (s.setCell d c).memSize = s.memSize := rfl
@[simp] theorem State.setCell_cause (s : State) (d : Nat) (c : StoreCell) : (s.setCell d c).cause = s.cause := rfl
@[simp] theorem State.setCell_part (s : State) (d : Nat) (c : StoreCell) : (s.setCell d c).part = s.part := rfl
@[simp] theorem State.setCell_settings (s : State) (d : Nat) (c : StoreCell) : (s.setCell d c).settings = s.settings := rfl
@[simp] theorem State.setCell_path (s : State) (d : Nat) (c : StoreCell) : (s.setCell d c).path = s.path := rfl
@[simp] theorem State.setCell_intake (s : State) (d : Nat) (c : StoreCell) : (s.setCell d c).intake = s.intake := rfl
@[simp] theorem State.setCell_reporter (s : State) (d : Nat) (c : StoreCell) : (s.setCell d c).reporter = s.reporter := rfl
@[simp] theorem State.setCell_store (s : State) (d : Nat) (c : StoreCell) : (s.setCell d c).store = s.store := rfl
@[simp] theorem State.setCell_coder (s : State) (d : Nat) (c : StoreCell) : (s.setCell d c).coder = s.coder := rfl
@[simp] theorem State.setCell_scanner (s : State) (d : Nat) (c : StoreCell) : (s.setCell d c).scanner = s.scanner := rfl
@[simp] theorem State.setCell_units (s : State) (d : Nat) (c : StoreCell) : (s.setCell d c).units = s.units := rfl
@[simp] theorem State.setCell_sendq (s : State) (d : Nat) (c : StoreCell) : (s.setCell d c).sendq = s.sendq := rfl
@[simp] theorem State.setCell_screen (s : State) (d : Nat) (c : StoreCell) : (s.setCell d c).screen = s.screen := rfl
@[simp] theorem State.setCell_print (s : State) (d : Nat) (c : StoreCell) : (s.setCell d c).print = s.print := rfl
@[simp] theorem State.setCell_pending (s : State) (d : Nat) (c : StoreCell) : (s.setCell d c).pending = s.pending := rfl

/-! ### modScreen changes `screen` alone -/

@[simp] theorem State.modScreen_mem (s : State) (f : Screen → Screen) : (s.modScreen f).mem = s.mem := rfl
@[simp] theorem State.modScreen_memSize (s : State) (f : Screen → Screen) : (s.modScreen f).memSize = s.memSize := rfl
@[simp] theorem State.modScreen_cause (s : State) (f : Screen → Screen) : (s.modScreen f).cause = s.cause := rfl
@[simp] theorem State.modScreen_part (s : State) (f : Screen → Screen) : (s.modScreen f).part = s.part := rfl
@[simp] theorem State.modScreen_settings (s : State) (f : Screen → Screen) : (s.modScreen f).settings = s.settings := rfl
@[simp] theorem State.modScreen_path (s : State) (f : Screen → Screen) : (s.modScreen f).path = s.path := rfl
@[simp] theorem State.modScreen_intake (s : State) (f : Screen → Screen) : (s.modScreen f).intake = s.intake := rfl
@[simp] theorem State.modScreen_reporter (s : State) (f : Screen → Screen) : (s.modScreen f).reporter = s.reporter := rfl
@[simp] theorem State.modScreen_store (s : State) (f : Screen → Screen) : (s.modScreen f).store = s.store := rfl
@[simp] theorem State.modScreen_coder (s : State) (f : Screen → Screen) : (s.modScreen f).coder = s.coder := rfl
@[simp] theorem State.modScreen_scanner (s : State) (f : Screen → Screen) : (s.modScreen f).scanner = s.scanner := rfl
@[simp] theorem State.modScreen_units (s : State) (f : Screen → Screen) : (s.modScreen f).units = s.units := rfl
@[simp] theorem State.modScreen_sendq (s : State) (f : Screen → Screen) : (s.modScreen f).sendq = s.sendq := rfl
@[simp] theorem State.modScreen_print (s : State) (f : Screen → Screen) : (s.modScreen f).print = s.print := rfl
@[simp] theorem State.modScreen_meter (s : State) (f : Screen → Screen) : (s.modScreen f).meter = s.meter := rfl
@[simp] theorem State.modScreen_pending (s : State) (f : Screen → Screen) : (s.modScreen f).pending = s.pending := rfl

/-! ### sendScanner changes `scanner` alone -/

@[simp] theorem State.sendScanner_mem (s : State) (m : ScannerMsg) : (s.sendScanner m).mem = s.mem := rfl
@[simp] theorem State.sendScanner_memSize (s : State) (m : ScannerMsg) : (s.sendScanner m).memSize = s.memSize := rfl
@[simp] theorem State.sendScanner_cause (s : State) (m : ScannerMsg) : (s.sendScanner m).cause = s.cause := rfl
@[simp] theorem State.sendScanner_part (s : State) (m : ScannerMsg) : (s.sendScanner m).part = s.part := rfl
@[simp] theorem State.sendScanner_settings (s : State) (m : ScannerMsg) : (s.sendScanner m).settings = s.settings := rfl
@[simp] theorem State.sendScanner_path (s : State) (m : ScannerMsg) : (s.sendScanner m).path = s.path := rfl
@[simp] theorem State.sendScanner_intake (s : State) (m : ScannerMsg) : (s.sendScanner m).intake = s.intake := rfl
@[simp] theorem State.sendScanner_reporter (s : State) (m : ScannerMsg) : (s.sendScanner m).reporter = s.reporter := rfl
@[simp] theorem State.sendScanner_store (s : State) (m : ScannerMsg) : (s.sendScanner m).store = s.store := rfl
@[simp] theorem State.sendScanner_coder (s : State) (m : ScannerMsg) : (s.sendScanner m).coder = s.coder := rfl
@[simp] theorem State.sendScanner_units (s : State) (m : ScannerMsg) : (s.sendScanner m).units = s.units := rfl
@[simp] theorem State.sendScanner_sendq (s : State) (m : ScannerMsg) : (s.sendScanner m).sendq = s.sendq := rfl
@[simp] theorem State.sendScanner_screen (s : State) (m : ScannerMsg) : (s.sendScanner m).screen = s.screen := rfl
@[simp] theorem State.sendScanner_print (s : State) (m : ScannerMsg) : (s.sendScanner m).print = s.print := rfl
@[simp] theorem State.sendScanner_meter (s : State) (m : ScannerMsg) : (s.sendScanner m).meter = s.meter := rfl
@[simp] theorem State.sendScanner_pending (s : State) (m : ScannerMsg) : (s.sendScanner m).pending = s.pending := rfl

/-! ### sendPrinter changes `print` alone -/

@[simp] theorem State.sendPrinter_mem (s : State) (m : PrinterMsg) : (s.sendPrinter m).mem = s.mem := rfl
@[simp] theorem State.sendPrinter_memSize (s : State) (m : PrinterMsg) : (s.sendPrinter m).memSize = s.memSize := rfl
@[simp] theorem State.sendPrinter_cause (s : State) (m : PrinterMsg) : (s.sendPrinter m).cause = s.cause := rfl
@[simp] theorem State.sendPrinter_part (s : State) (m : PrinterMsg) : (s.sendPrinter m).part = s.part := rfl
@[simp] theorem State.sendPrinter_settings (s : State) (m : PrinterMsg) : (s.sendPrinter m).settings = s.settings := rfl
@[simp] theorem State.sendPrinter_path (s : State) (m : PrinterMsg) : (s.sendPrinter m).path = s.path := rfl
@[simp] theorem State.sendPrinter_intake (s : State) (m : PrinterMsg) : (s.sendPrinter m).intake = s.intake := rfl
@[simp] theorem State.sendPrinter_reporter (s : State) (m : PrinterMsg) : (s.sendPrinter m).reporter = s.reporter := rfl
@[simp] theorem State.sendPrinter_store (s : State) (m : PrinterMsg) : (s.sendPrinter m).store = s.store := rfl
@[simp] theorem State.sendPrinter_coder (s : State) (m : PrinterMsg) : (s.sendPrinter m).coder = s.coder := rfl
@[simp] theorem State.sendPrinter_scanner (s : State) (m : PrinterMsg) : (s.sendPrinter m).scanner = s.scanner := rfl
@[simp] theorem State.sendPrinter_units (s : State) (m : PrinterMsg) : (s.sendPrinter m).units = s.units := rfl
@[simp] theorem State.sendPrinter_sendq (s : State) (m : PrinterMsg) : (s.sendPrinter m).sendq = s.sendq := rfl
@[simp] theorem State.sendPrinter_screen (s : State) (m : PrinterMsg) : (s.sendPrinter m).screen = s.screen := rfl
@[simp] theorem State.sendPrinter_meter (s : State) (m : PrinterMsg) : (s.sendPrinter m).meter = s.meter := rfl
@[simp] theorem State.sendPrinter_pending (s : State) (m : PrinterMsg) : (s.sendPrinter m).pending = s.pending := rfl

/-! ### putGuard changes `path` alone -/

@[simp] theorem State.putGuard_mem (s : State) (g : GuardArea) (r : GuardRec) : (s.putGuard g r).mem = s.mem := rfl
@[simp] theorem State.putGuard_memSize (s : State) (g : GuardArea) (r : GuardRec) : (s.putGuard g r).memSize = s.memSize := rfl
@[simp] theorem State.putGuard_cause (s : State) (g : GuardArea) (r : GuardRec) : (s.putGuard g r).cause = s.cause := rfl
@[simp] theorem State.putGuard_part (s : State) (g : GuardArea) (r : GuardRec) : (s.putGuard g r).part = s.part := rfl
@[simp] theorem State.putGuard_settings (s : State) (g : GuardArea) (r : GuardRec) : (s.putGuard g r).settings = s.settings := rfl
@[simp] theorem State.putGuard_intake (s : State) (g : GuardArea) (r : GuardRec) : (s.putGuard g r).intake = s.intake := rfl
@[simp] theorem State.putGuard_reporter (s : State) (g : GuardArea) (r : GuardRec) : (s.putGuard g r).reporter = s.reporter := rfl
@[simp] theorem State.putGuard_store (s : State) (g : GuardArea) (r : GuardRec) : (s.putGuard g r).store = s.store := rfl
@[simp] theorem State.putGuard_coder (s : State) (g : GuardArea) (r : GuardRec) : (s.putGuard g r).coder = s.coder := rfl
@[simp] theorem State.putGuard_scanner (s : State) (g : GuardArea) (r : GuardRec) : (s.putGuard g r).scanner = s.scanner := rfl
@[simp] theorem State.putGuard_units (s : State) (g : GuardArea) (r : GuardRec) : (s.putGuard g r).units = s.units := rfl
@[simp] theorem State.putGuard_sendq (s : State) (g : GuardArea) (r : GuardRec) : (s.putGuard g r).sendq = s.sendq := rfl
@[simp] theorem State.putGuard_screen (s : State) (g : GuardArea) (r : GuardRec) : (s.putGuard g r).screen = s.screen := rfl
@[simp] theorem State.putGuard_print (s : State) (g : GuardArea) (r : GuardRec) : (s.putGuard g r).print = s.print := rfl
@[simp] theorem State.putGuard_meter (s : State) (g : GuardArea) (r : GuardRec) : (s.putGuard g r).meter = s.meter := rfl
@[simp] theorem State.putGuard_pending (s : State) (g : GuardArea) (r : GuardRec) : (s.putGuard g r).pending = s.pending := rfl

/-! ### withPending changes `pending` alone -/

@[simp] theorem State.withPending_mem (s : State) (q : List Instr) : (s.withPending q).mem = s.mem := rfl
@[simp] theorem State.withPending_memSize (s : State) (q : List Instr) : (s.withPending q).memSize = s.memSize := rfl
@[simp] theorem State.withPending_cause (s : State) (q : List Instr) : (s.withPending q).cause = s.cause := rfl
@[simp] theorem State.withPending_part (s : State) (q : List Instr) : (s.withPending q).part = s.part := rfl
@[simp] theorem State.withPending_settings (s : State) (q : List Instr) : (s.withPending q).settings = s.settings := rfl
@[simp] theorem State.withPending_path (s : State) (q : List Instr) : (s.withPending q).path = s.path := rfl
@[simp] theorem State.withPending_intake (s : State) (q : List Instr) : (s.withPending q).intake = s.intake := rfl
@[simp] theorem State.withPending_reporter (s : State) (q : List Instr) : (s.withPending q).reporter = s.reporter := rfl
@[simp] theorem State.withPending_store (s : State) (q : List Instr) : (s.withPending q).store = s.store := rfl
@[simp] theorem State.withPending_coder (s : State) (q : List Instr) : (s.withPending q).coder = s.coder := rfl
@[simp] theorem State.withPending_scanner (s : State) (q : List Instr) : (s.withPending q).scanner = s.scanner := rfl
@[simp] theorem State.withPending_units (s : State) (q : List Instr) : (s.withPending q).units = s.units := rfl
@[simp] theorem State.withPending_sendq (s : State) (q : List Instr) : (s.withPending q).sendq = s.sendq := rfl
@[simp] theorem State.withPending_screen (s : State) (q : List Instr) : (s.withPending q).screen = s.screen := rfl
@[simp] theorem State.withPending_print (s : State) (q : List Instr) : (s.withPending q).print = s.print := rfl
@[simp] theorem State.withPending_meter (s : State) (q : List Instr) : (s.withPending q).meter = s.meter := rfl

/-! ### modSource changes `coder` alone -/

@[simp] theorem State.modSource_mem (s : State) (i : SourceId) (f : Source → Source) : (s.modSource i f).mem = s.mem := by
  cases i <;> rfl
@[simp] theorem State.modSource_memSize (s : State) (i : SourceId) (f : Source → Source) : (s.modSource i f).memSize = s.memSize := by
  cases i <;> rfl
@[simp] theorem State.modSource_cause (s : State) (i : SourceId) (f : Source → Source) : (s.modSource i f).cause = s.cause := by
  cases i <;> rfl
@[simp] theorem State.modSource_part (s : State) (i : SourceId) (f : Source → Source) : (s.modSource i f).part = s.part := by
  cases i <;> rfl
@[simp] theorem State.modSource_settings (s : State) (i : SourceId) (f : Source → Source) : (s.modSource i f).settings = s.settings := by
  cases i <;> rfl
@[simp] theorem State.modSource_path (s : State) (i : SourceId) (f : Source → Source) : (s.modSource i f).path = s.path := by
  cases i <;> rfl
@[simp] theorem State.modSource_intake (s : State) (i : SourceId) (f : Source → Source) : (s.modSource i f).intake = s.intake := by
  cases i <;> rfl
@[simp] theorem State.modSource_reporter (s : State) (i : SourceId) (f : Source → Source) : (s.modSource i f).reporter = s.reporter := by
  cases i <;> rfl
@[simp] theorem State.modSource_store (s : State) (i : SourceId) (f : Source → Source) : (s.modSource i f).store = s.store := by
  cases i <;> rfl
@[simp] theorem State.modSource_scanner (s : State) (i : SourceId) (f : Source → Source) : (s.modSource i f).scanner = s.scanner := by
  cases i <;> rfl
@[simp] theorem State.modSource_units (s : State) (i : SourceId) (f : Source → Source) : (s.modSource i f).units = s.units := by
  cases i <;> rfl
@[simp] theorem State.modSource_sendq (s : State) (i : SourceId) (f : Source → Source) : (s.modSource i f).sendq = s.sendq := by
  cases i <;> rfl
@[simp] theorem State.modSource_screen (s : State) (i : SourceId) (f : Source → Source) : (s.modSource i f).screen = s.screen := by
  cases i <;> rfl
@[simp] theorem State.modSource_print (s : State) (i : SourceId) (f : Source → Source) : (s.modSource i f).print = s.print := by
  cases i <;> rfl
@[simp] theorem State.modSource_meter (s : State) (i : SourceId) (f : Source → Source) : (s.modSource i f).meter = s.meter := by
  cases i <;> rfl
@[simp] theorem State.modSource_pending (s : State) (i : SourceId) (f : Source → Source) : (s.modSource i f).pending = s.pending := by
  cases i <;> rfl

/-! ### giveMeter changes `meter` alone -/

@[simp] theorem State.giveMeter_mem (s : State) (w : MeterWork) : (s.giveMeter w).mem = s.mem := rfl
@[simp] theorem State.giveMeter_memSize (s : State) (w : MeterWork) : (s.giveMeter w).memSize = s.memSize := rfl
@[simp] theorem State.giveMeter_cause (s : State) (w : MeterWork) : (s.giveMeter w).cause = s.cause := rfl
@[simp] theorem State.giveMeter_part (s : State) (w : MeterWork) : (s.giveMeter w).part = s.part := rfl
@[simp] theorem State.giveMeter_settings (s : State) (w : MeterWork) : (s.giveMeter w).settings = s.settings := rfl
@[simp] theorem State.giveMeter_path (s : State) (w : MeterWork) : (s.giveMeter w).path = s.path := rfl
@[simp] theorem State.giveMeter_intake (s : State) (w : MeterWork) : (s.giveMeter w).intake = s.intake := rfl
@[simp] theorem State.giveMeter_reporter (s : State) (w : MeterWork) : (s.giveMeter w).reporter = s.reporter := rfl
@[simp] theorem State.giveMeter_store (s : State) (w : MeterWork) : (s.giveMeter w).store = s.store := rfl
@[simp] theorem State.giveMeter_coder (s : State) (w : MeterWork) : (s.giveMeter w).coder = s.coder := rfl
@[simp] theorem State.giveMeter_scanner (s : State) (w : MeterWork) : (s.giveMeter w).scanner = s.scanner := rfl
@[simp] theorem State.giveMeter_units (s : State) (w : MeterWork) : (s.giveMeter w).units = s.units := rfl
@[simp] theorem State.giveMeter_sendq (s : State) (w : MeterWork) : (s.giveMeter w).sendq = s.sendq := rfl
@[simp] theorem State.giveMeter_screen (s : State) (w : MeterWork) : (s.giveMeter w).screen = s.screen := rfl
@[simp] theorem State.giveMeter_print (s : State) (w : MeterWork) : (s.giveMeter w).print = s.print := rfl
@[simp] theorem State.giveMeter_pending (s : State) (w : MeterWork) : (s.giveMeter w).pending = s.pending := rfl

/-! ### setMeterRec changes `meter` alone -/

@[simp] theorem State.setMeterRec_mem (s : State) (u : UnitId) (r : Option MeterRec) : (s.setMeterRec u r).mem = s.mem := rfl
@[simp] theorem State.setMeterRec_memSize (s : State) (u : UnitId) (r : Option MeterRec) : (s.setMeterRec u r).memSize = s.memSize := rfl
@[simp] theorem State.setMeterRec_cause (s : State) (u : UnitId) (r : Option MeterRec) : (s.setMeterRec u r).cause = s.cause := rfl
@[simp] theorem State.setMeterRec_part (s : State) (u : UnitId) (r : Option MeterRec) : (s.setMeterRec u r).part = s.part := rfl
@[simp] theorem State.setMeterRec_settings (s : State) (u : UnitId) (r : Option MeterRec) : (s.setMeterRec u r).settings = s.settings := rfl
@[simp] theorem State.setMeterRec_path (s : State) (u : UnitId) (r : Option MeterRec) : (s.setMeterRec u r).path = s.path := rfl
@[simp] theorem State.setMeterRec_intake (s : State) (u : UnitId) (r : Option MeterRec) : (s.setMeterRec u r).intake = s.intake := rfl
@[simp] theorem State.setMeterRec_reporter (s : State) (u : UnitId) (r : Option MeterRec) : (s.setMeterRec u r).reporter = s.reporter := rfl
@[simp] theorem State.setMeterRec_store (s : State) (u : UnitId) (r : Option MeterRec) : (s.setMeterRec u r).store = s.store := rfl
@[simp] theorem State.setMeterRec_coder (s : State) (u : UnitId) (r : Option MeterRec) : (s.setMeterRec u r).coder = s.coder := rfl
@[simp] theorem State.setMeterRec_scanner (s : State) (u : UnitId) (r : Option MeterRec) : (s.setMeterRec u r).scanner = s.scanner := rfl
@[simp] theorem State.setMeterRec_units (s : State) (u : UnitId) (r : Option MeterRec) : (s.setMeterRec u r).units = s.units := rfl
@[simp] theorem State.setMeterRec_sendq (s : State) (u : UnitId) (r : Option MeterRec) : (s.setMeterRec u r).sendq = s.sendq := rfl
@[simp] theorem State.setMeterRec_screen (s : State) (u : UnitId) (r : Option MeterRec) : (s.setMeterRec u r).screen = s.screen := rfl
@[simp] theorem State.setMeterRec_print (s : State) (u : UnitId) (r : Option MeterRec) : (s.setMeterRec u r).print = s.print := rfl
@[simp] theorem State.setMeterRec_pending (s : State) (u : UnitId) (r : Option MeterRec) : (s.setMeterRec u r).pending = s.pending := rfl

/-! ### holdAtOwner changes `intake` alone -/

@[simp] theorem State.holdAtOwner_mem (s : State) : (s.holdAtOwner).mem = s.mem := rfl
@[simp] theorem State.holdAtOwner_memSize (s : State) : (s.holdAtOwner).memSize = s.memSize := rfl
@[simp] theorem State.holdAtOwner_cause (s : State) : (s.holdAtOwner).cause = s.cause := rfl
@[simp] theorem State.holdAtOwner_part (s : State) : (s.holdAtOwner).part = s.part := rfl
@[simp] theorem State.holdAtOwner_settings (s : State) : (s.holdAtOwner).settings = s.settings := rfl
@[simp] theorem State.holdAtOwner_path (s : State) : (s.holdAtOwner).path = s.path := rfl
@[simp] theorem State.holdAtOwner_reporter (s : State) : (s.holdAtOwner).reporter = s.reporter := rfl
@[simp] theorem State.holdAtOwner_store (s : State) : (s.holdAtOwner).store = s.store := rfl
@[simp] theorem State.holdAtOwner_coder (s : State) : (s.holdAtOwner).coder = s.coder := rfl
@[simp] theorem State.holdAtOwner_scanner (s : State) : (s.holdAtOwner).scanner = s.scanner := rfl
@[simp] theorem State.holdAtOwner_units (s : State) : (s.holdAtOwner).units = s.units := rfl
@[simp] theorem State.holdAtOwner_sendq (s : State) : (s.holdAtOwner).sendq = s.sendq := rfl
@[simp] theorem State.holdAtOwner_screen (s : State) : (s.holdAtOwner).screen = s.screen := rfl
@[simp] theorem State.holdAtOwner_print (s : State) : (s.holdAtOwner).print = s.print := rfl
@[simp] theorem State.holdAtOwner_meter (s : State) : (s.holdAtOwner).meter = s.meter := rfl
@[simp] theorem State.holdAtOwner_pending (s : State) : (s.holdAtOwner).pending = s.pending := rfl

/-! ### Reading back what an update wrote -/

@[simp] theorem State.post_postings (s : State) (blk : Block) (e : Event) :
    (s.post blk e).reporter.postings = s.reporter.postings ++ [{ blk := blk, event := e }] := rfl
@[simp] theorem State.withPending_pending (s : State) (q : List Instr) : (s.withPending q).pending = q := rfl

theorem Quad.get_set {α : Type} (q : Quad α) (u v : UnitId) (a : α) :
    (q.set u a).get v = if v = u then a else q.get v := by
  cases u <;> cases v <;> rfl

@[simp] theorem Quad.get_set_same {α : Type} (q : Quad α) (u : UnitId) (a : α) : (q.set u a).get u = a := by
  cases u <;> rfl

@[simp] theorem Quad.set_set {α : Type} (q : Quad α) (u : UnitId) (a b : α) : (q.set u a).set u b = q.set u b := by
  cases u <;> rfl

theorem Pair.get_set {α : Type} (p : Pair α) (v w : WindowId) (a : α) :
    (p.set w a).get v = if v = w then a else p.get v := by
  cases v <;> cases w <;> rfl

/-- One unit after an update of a unit. -/
theorem State.unit_modUnit (s : State) (u v : UnitId) (f : LineUnit → LineUnit) :
    (s.modUnit u f).unit v = if v = u then f (s.unit u) else s.unit v := by
  cases u <;> cases v <;> rfl

@[simp] theorem State.unit_modUnit_same (s : State) (u : UnitId) (f : LineUnit → LineUnit) :
    (s.modUnit u f).unit u = f (s.unit u) := by
  cases u <;> rfl

/-- One window after an update of a window. -/
theorem State.window_modWindow (s : State) (v w : WindowId) (f : Window → Window) :
    (s.modWindow w f).window v = if v = w then f (s.window w) else s.window v := by
  cases v <;> cases w <;> rfl

/-! ### Sparse tables -/

theorem tget_tmod {α : Type} (t : Table α) (n m : Nat) (f : α → α) :
    tget (tmod t n f) m = if m = n then (tget t m).map f else tget t m := by
  induction t with
  | nil => simp [tmod, tget]
  | cons x t ih =>
    obtain ⟨k, v⟩ := x
    simp only [tmod, List.map_cons] at ih ⊢
    by_cases hk : k = n
    · subst hk
      by_cases hm : k = m
      · subst hm; simp [tget]
      · simp only [if_true, tget, if_neg hm, ih]
    · simp only [if_neg hk, tget, ih]
      by_cases hm : k = m
      · subst hm; simp [hk]
      · simp [hm]

@[simp] theorem tget_tset {α : Type} (t : Table α) (n : Nat) (a : α) :
    tget (tset t n a) n = some a := by
  induction t with
  | nil => simp [tset, tget]
  | cons x t ih =>
    obtain ⟨k, v⟩ := x
    unfold tset
    split
    · simp [tget]
    · split
      · simp [tget]
      · rename_i h1 h2
        simp only [tget, if_neg (Ne.symm h2)]
        exact ih

theorem tget_tset_other {α : Type} (t : Table α) (n m : Nat) (a : α) (h : m ≠ n) :
    tget (tset t n a) m = tget t m := by
  induction t with
  | nil => simp [tset, tget, Ne.symm h]
  | cons x t ih =>
    obtain ⟨k, v⟩ := x
    unfold tset
    split
    · simp [tget, Ne.symm h]
    · split
      · rename_i h2
        subst h2
        simp [tget, Ne.symm h]
      · simp only [tget, ih]

theorem tget_tdel {α : Type} (t : Table α) (n m : Nat) :
    tget (tdel t n) m = if m = n then none else tget t m := by
  induction t with
  | nil => simp [tdel, tget]
  | cons x t ih =>
    obtain ⟨k, v⟩ := x
    unfold tdel at ih ⊢
    by_cases hk : k = n
    · subst hk
      simp only [List.filter, ne_eq, not_true_eq_false, decide_false]
      rw [ih]
      by_cases hm : m = k
      · simp [hm]
      · simp [tget, hm, Ne.symm hm]
    · simp only [List.filter, ne_eq, hk, not_false_eq_true, decide_true, tget]
      rw [ih]
      by_cases hm : k = m
      · subst hm; simp [hk]
      · simp [hm]

/-- A document record after an update of one. -/
theorem State.doc_modDoc (s : State) (d e : Nat) (f : Doc → Doc) :
    (s.modDoc d f).doc e = if e = d then (s.doc e).map f else s.doc e := tget_tmod _ _ _ _

/-- A page record after an update of one. -/
theorem State.page_modPage (s : State) (p q : Nat) (f : PageRec → PageRec) :
    (s.modPage p f).page q = if q = p then (s.page q).map f else s.page q := tget_tmod _ _ _ _

/-- A destination entry after an update of one. -/
theorem State.entry_modEntry (s : State) (i j : Nat) (f : DestEntry → DestEntry) :
    (s.modEntry i f).entry j = if j = i then (s.entry j).map f else s.entry j := tget_tmod _ _ _ _

/-- A print entry after an update of one. -/
theorem State.printEntry_modPrintEntry (s : State) (i j : Nat) (f : PrintEntry → PrintEntry) :
    (s.modPrintEntry i f).printEntry j = if j = i then (s.printEntry j).map f else s.printEntry j :=
  tget_tmod _ _ _ _

/-- A desk account after an update of one. -/
theorem State.desk_modDesk (s : State) (d e : Nat) (f : Desk → Desk) :
    (s.modDesk d f).desk e = if e = d then (s.desk e).map f else s.desk e := tget_tmod _ _ _ _

end Sys2Proof.Machine
end

