-- ==== Sys2Proof/Laws/Tables.lean ====
section
/-! SUPPORT. Sparse tables whose numbers rise: where a record stands, and what setting, changing and dropping one
does to the list and to the range of the numbers. -/

namespace Sys2Proof.Machine

open Sys2Proof

theorem tableIn_nil {α : Type} (n : Nat) : tableIn n ([] : Table α) := ⟨List.Pairwise.nil, by simp⟩

theorem tableIn_cons {α : Type} {n : Nat} {x : Nat × α} {t : Table α} :
    tableIn n (x :: t) ↔ x.1 < n ∧ (∀ y ∈ t, x.1 < y.1) ∧ tableIn n t := by
  unfold tableIn
  simp only [List.map_cons, List.pairwise_cons, List.mem_cons, forall_eq_or_imp, List.mem_map]
  constructor
  · rintro ⟨⟨a, b⟩, c, d⟩
    exact ⟨c, fun y hy => a _ ⟨y, hy, rfl⟩, b, d⟩
  · rintro ⟨a, b, c, d⟩
    exact ⟨⟨by rintro _ ⟨y, hy, rfl⟩; exact b y hy, c⟩, a, d⟩

/-- A sublist of a table keeps the range. -/
theorem tableIn.sublist {α : Type} {n : Nat} {t u : Table α} (h : tableIn n t) (k : u.Sublist t) : tableIn n u :=
  ⟨h.1.sublist (k.map Prod.fst), fun x hx => h.2 x (k.subset hx)⟩

theorem tableIn_tdel {α : Type} {n : Nat} {t : Table α} (h : tableIn n t) (i : Nat) : tableIn n (tdel t i) :=
  h.sublist List.filter_sublist

theorem tableIn_of_keys {α β : Type} {n : Nat} {t : Table α} {u : Table β} (h : tableIn n t)
    (k : u.map Prod.fst = t.map Prod.fst) : tableIn n u := by
  refine ⟨k ▸ h.1, fun x hx => ?_⟩
  have : x.1 ∈ t.map Prod.fst := k ▸ List.mem_map_of_mem hx
  obtain ⟨y, hy, e⟩ := List.mem_map.1 this
  exact e ▸ h.2 y hy

theorem tmod_keys {α : Type} (t : Table α) (i : Nat) (f : α → α) : (tmod t i f).map Prod.fst = t.map Prod.fst := by
  unfold tmod
  rw [List.map_map]
  refine List.map_congr_left (fun x _ => ?_)
  dsimp only [Function.comp]
  split <;> rfl

theorem tableIn_tmod {α : Type} {n : Nat} {t : Table α} (h : tableIn n t) (i : Nat) (f : α → α) :
    tableIn n (tmod t i f) :=
  tableIn_of_keys h (tmod_keys t i f)

theorem mem_tset {α : Type} {t : Table α} {i : Nat} {a : α} {x : Nat × α} (h : x ∈ tset t i a) :
    x = (i, a) ∨ x ∈ t := by
  induction t with
  | nil => simp [tset] at h; exact .inl h
  | cons y t ih =>
    obtain ⟨k, v⟩ := y
    unfold tset at h
    split at h
    · rcases List.mem_cons.1 h with h | h
      · exact .inl h
      · exact .inr h
    · split at h
      · rcases List.mem_cons.1 h with h | h
        · exact .inl h
        · exact .inr (List.mem_cons_of_mem _ h)
      · rcases List.mem_cons.1 h with h | h
        · exact .inr (h ▸ List.mem_cons_self)
        · rcases ih h with h | h
          · exact .inl h
          · exact .inr (List.mem_cons_of_mem _ h)

theorem tableIn_tset {α : Type} {n : Nat} {t : Table α} (h : tableIn n t) {i : Nat} (k : i < n) (a : α) :
    tableIn n (tset t i a) := by
  induction t with
  | nil => exact tableIn_cons.2 ⟨k, by simp, tableIn_nil n⟩
  | cons y t ih =>
    obtain ⟨j, v⟩ := y
    have h0 := tableIn_cons.1 h
    unfold tset
    split
    · rename_i e
      refine tableIn_cons.2 ⟨k, fun y hy => ?_, h⟩
      rcases List.mem_cons.1 hy with hy | hy
      · exact hy ▸ e
      · exact Nat.lt_trans e (h0.2.1 y hy)
    · split
      · rename_i e
        exact tableIn_cons.2 ⟨k, fun y hy => e ▸ h0.2.1 y hy, h0.2.2⟩
      · rename_i e1 e2
        refine tableIn_cons.2 ⟨h0.1, fun y hy => ?_, ih h0.2.2⟩
        rcases mem_tset hy with hy | hy
        · subst hy; dsimp only; omega
        · exact h0.2.1 y hy

theorem tget_of_mem {α : Type} {n : Nat} {t : Table α} (h : tableIn n t) {x : Nat × α} (k : x ∈ t) :
    tget t x.1 = some x.2 := by
  induction t with
  | nil => cases k
  | cons y t ih =>
    obtain ⟨j, v⟩ := y
    have h0 := tableIn_cons.1 h
    unfold tget
    rcases List.mem_cons.1 k with k | k
    · subst k; simp
    · have := h0.2.1 x k
      rw [if_neg (by dsimp only at this; omega)]
      exact ih h0.2.2 k

theorem mem_of_tget {α : Type} {t : Table α} {i : Nat} {a : α} (h : tget t i = some a) : (i, a) ∈ t := by
  induction t with
  | nil => cases h
  | cons y t ih =>
    obtain ⟨j, v⟩ := y
    unfold tget at h
    split at h
    · rename_i e; subst e; cases h; exact List.mem_cons_self
    · exact List.mem_cons_of_mem _ (ih h)

theorem tget_none_iff {α : Type} {t : Table α} {i : Nat} : tget t i = none ↔ ∀ x ∈ t, x.1 ≠ i := by
  induction t with
  | nil => simp [tget]
  | cons y t ih =>
    obtain ⟨j, v⟩ := y
    unfold tget
    split
    · rename_i e; simp [e]
    · rename_i e; simp [ih, e]

theorem tget_tdel_self {α : Type} (t : Table α) (n : Nat) : tget (tdel t n) n = none := by
  rw [tget_tdel, if_pos rfl]

theorem tget_tdel_other {α : Type} (t : Table α) {n m : Nat} (h : m ≠ n) : tget (tdel t n) m = tget t m := by
  rw [tget_tdel, if_neg h]

/-- Where the record of a number in use stands, and what changes there. -/
theorem table_split {α : Type} {n : Nat} {t : Table α} (h : tableIn n t) {i : Nat} {a : α} (k : tget t i = some a) :
    ∃ l r, t = l ++ (i, a) :: r ∧ (∀ b, tset t i b = l ++ (i, b) :: r) ∧ tdel t i = l ++ r
      ∧ (∀ f, tmod t i f = l ++ (i, f a) :: r) ∧ (∀ x ∈ l ++ r, x.1 ≠ i) := by
  induction t with
  | nil => cases k
  | cons y t ih =>
    obtain ⟨j, v⟩ := y
    have h0 := tableIn_cons.1 h
    unfold tget at k
    split at k
    · rename_i e
      subst e
      cases k
      have no : ∀ x ∈ t, x.1 ≠ j := fun x hx => by have := h0.2.1 x hx; dsimp only at this; omega
      refine ⟨[], t, rfl, fun b => ?_, ?_, fun f => ?_, no⟩
      · simp [tset]
      · unfold tdel
        simp only [List.filter_cons, ne_eq, not_true_eq_false, decide_false, Bool.false_eq_true, if_false, List.nil_append]
        exact List.filter_eq_self.2 (fun x hx => by simpa using no x hx)
      · unfold tmod
        simp only [List.map_cons, if_true, List.nil_append, List.cons.injEq, true_and]
        exact (List.map_congr_left (fun x hx => if_neg (no x hx))).trans (List.map_id t)
    · rename_i e
      obtain ⟨l, r, e1, e2, e3, e4, e5⟩ := ih h0.2.2 k
      have lt : j < i := h0.2.1 _ (mem_of_tget k)
      refine ⟨(j, v) :: l, r, by rw [e1]; rfl, fun b => ?_, ?_, fun f => ?_, ?_⟩
      · rw [tset, if_neg (by omega), if_neg (by omega), e2]; rfl
      · unfold tdel at e3 ⊢
        rw [List.filter_cons, if_pos (by simpa using e), e3]; rfl
      · unfold tmod at e4 ⊢
        rw [List.map_cons, if_neg e, e4]; rfl
      · intro x hx
        rcases List.mem_cons.1 hx with hx | hx
        · subst hx; exact e
        · exact e5 x hx

/-- Where a record goes whose number is free. -/
theorem table_gap {α : Type} {t : Table α} {i : Nat} (k : tget t i = none) (b : α) :
    ∃ l r, t = l ++ r ∧ tset t i b = l ++ (i, b) :: r := by
  induction t with
  | nil => exact ⟨[], [], rfl, rfl⟩
  | cons y t ih =>
    obtain ⟨j, v⟩ := y
    unfold tget at k
    split at k
    · cases k
    · rename_i e
      unfold tset
      split
      · exact ⟨[], (j, v) :: t, rfl, rfl⟩
      · rw [if_neg (fun h => e h.symm)]
        obtain ⟨l, r, e1, e2⟩ := ih k
        exact ⟨(j, v) :: l, r, by rw [e1]; rfl, by rw [e2]; rfl⟩

theorem firstFree_spec {α : Type} {t : Table α} {n k i : Nat} (h : firstFree t n k = some i) :
    i < k + n ∧ tget t i = none := by
  induction n generalizing k with
  | zero => cases h
  | succ n ih =>
    unfold firstFree at h
    split at h
    · rename_i e; cases h; exact ⟨by omega, e⟩
    · obtain ⟨a, b⟩ := ih h; exact ⟨by omega, b⟩

/-- The lowest free number is below its limit, and free. -/
theorem lowestFree_spec {α : Type} {t : Table α} {n i : Nat} (h : lowestFree n t = some i) :
    i < n ∧ tget t i = none := by
  have := firstFree_spec h
  exact ⟨by omega, this.2⟩

/-- The count of a table's records that satisfy a test, by where one of them stands. -/
theorem count_split {α : Type} (l r : List (Nat × α)) (x : Nat × α) (q : Nat × α → Bool) :
    ((l ++ x :: r).filter q).length = (if q x then 1 else 0) + ((l ++ r).filter q).length := by
  rw [List.filter_append, List.filter_cons, List.filter_append]
  split <;> simp <;> omega

end Sys2Proof.Machine
end

