-- ==== Sys2Proof/Laws/Counts.lean ====
section
/-! SUPPORT. The print references stay equal to the print entries (R13), and the Screen Table keeps its law (R154),
under the setting, changing and dropping of records. -/

namespace Sys2Proof.Machine

open Sys2Proof

/-! ## Print references (R13) -/

theorem printRefs_nil : PrintRefsOk [] [] := fun _ => rfl

theorem printRefs_docs {docs docs' : Table Doc} {es : Table PrintEntry} (h : PrintRefsOk docs es)
    (k : ∀ d, printRefsOf docs' d = printRefsOf docs d) : PrintRefsOk docs' es := fun d => (k d).trans (h d)

theorem printRefsOf_tmod (docs : Table Doc) (i : Nat) (f : Doc → Doc) (d : Nat) :
    printRefsOf (tmod docs i f) d
      = if d = i then (match tget docs d with | some r => (f r).printRefs | none => 0) else printRefsOf docs d := by
  unfold printRefsOf
  rw [tget_tmod]
  by_cases e : d = i
  · rw [if_pos e, if_pos e]; cases tget docs d <;> rfl
  · rw [if_neg e, if_neg e]

theorem printRefs_modDoc {docs : Table Doc} {es : Table PrintEntry} (h : PrintRefsOk docs es) (i : Nat)
    (f : Doc → Doc) (hf : ∀ x, (f x).printRefs = x.printRefs) : PrintRefsOk (tmod docs i f) es := by
  refine printRefs_docs h (fun d => ?_)
  rw [printRefsOf_tmod]
  split
  · unfold printRefsOf
    cases tget docs d with
    | none => rfl
    | some r => exact hf r
  · rfl

theorem printRefs_newDoc {docs : Table Doc} {es : Table PrintEntry} (h : PrintRefsOk docs es) {i n : Nat}
    (hi : lowestFree n docs = some i) (r : Doc) (hr : r.printRefs = 0) : PrintRefsOk (tset docs i r) es := by
  refine printRefs_docs h (fun d => ?_)
  unfold printRefsOf
  by_cases e : d = i
  · subst e; rw [tget_tset, (lowestFree_spec hi).2]; exact hr
  · rw [tget_tset_other _ _ _ _ e]

theorem printRefs_dropDoc {docs : Table Doc} {es : Table PrintEntry} (h : PrintRefsOk docs es) {i : Nat} {r : Doc}
    (hi : tget docs i = some r) (hr : r.printRefs = 0) : PrintRefsOk (tdel docs i) es := by
  refine printRefs_docs h (fun d => ?_)
  unfold printRefsOf
  by_cases e : d = i
  · subst e; rw [tget_tdel_self, hi]; exact hr.symm
  · rw [tget_tdel_other _ e]

theorem printRefs_modEntry {docs : Table Doc} {es : Table PrintEntry} (h : PrintRefsOk docs es) (i : Nat)
    (f : PrintEntry → PrintEntry) (hf : ∀ x, (f x).document = x.document) : PrintRefsOk docs (tmod es i f) := by
  intro d
  rw [h d]
  unfold tmod
  rw [List.filter_map, List.length_map]
  congr 1
  refine List.filter_congr (fun x _ => ?_)
  dsimp only [Function.comp]
  split
  · rw [hf]
  · rfl

/-- A print entry is made, and its document's count rises (R13). -/
theorem printRefs_add {docs : Table Doc} {es : Table PrintEntry} (h : PrintRefsOk docs es) {i n : Nat}
    (hi : lowestFree n es = some i) (e : PrintEntry) {r : Doc} (hr : tget docs e.document = some r) :
    PrintRefsOk (tmod docs e.document (fun x => { x with printRefs := x.printRefs + 1 })) (tset es i e) := by
  intro d
  obtain ⟨a, b, e1, e2⟩ := table_gap (lowestFree_spec hi).2 e
  have k := h d
  rw [e1] at k
  rw [e2, count_split, printRefsOf_tmod, ← k]
  by_cases c : d = e.document
  · subst c
    rw [if_pos rfl, hr]
    unfold printRefsOf
    rw [hr]
    simp only [decide_true, if_true]
    omega
  · rw [if_neg c]
    have : decide (e.document = d) = false := decide_eq_false (fun x => c x.symm)
    simp only [this, Bool.false_eq_true, if_false, Nat.zero_add]

/-- A print entry leaves the queue, and its document's count falls (R13). -/
theorem printRefs_drop {docs : Table Doc} {es : Table PrintEntry} (h : PrintRefsOk docs es) {n i : Nat}
    (ht : tableIn n es) {e : PrintEntry} (hi : tget es i = some e) :
    PrintRefsOk (tmod docs e.document (fun x => { x with printRefs := x.printRefs - 1 })) (tdel es i) := by
  intro d
  obtain ⟨a, b, e1, -, e3, -, -⟩ := table_split ht hi
  have k := h d
  rw [e1, count_split] at k
  rw [e3, printRefsOf_tmod]
  by_cases c : d = e.document
  · subst c
    rw [if_pos rfl]
    unfold printRefsOf at k
    rw [if_pos (decide_eq_true rfl)] at k
    cases hd : tget docs e.document with
    | none => rw [hd] at k; dsimp only at k; omega
    | some r => rw [hd] at k; dsimp only at k ⊢; exact k ▸ Nat.add_sub_cancel_left ..
  · rw [if_neg c, k]
    have : decide (e.document = d) = false := decide_eq_false (fun x => c x.symm)
    simp only [this, Bool.false_eq_true, if_false, Nat.zero_add]

/-! ## The Screen Table (R154) -/

/-- The key by which an entry is found. -/
def ScreenEntry.name (e : ScreenEntry) : KeyKind × Text := (e.keyKind, e.key)

theorem screen_mod {c : Screen} (h : c.Lawful) (i : Nat) (f : ScreenEntry → ScreenEntry)
    (hf : ∀ x, (f x).name = x.name ∧ ((f x).kind = .learned → x.kind = .learned)) : (c.modEntry i f).Lawful := by
  obtain ⟨h1, h2, h3⟩ := h
  refine ⟨tableIn_tmod h1 _ _, ?_, fun hm x hx => ?_⟩
  · have : (tmod c.entries i f).map (fun x => (x.2.keyKind, x.2.key)) = c.entries.map (fun x => (x.2.keyKind, x.2.key)) := by
      unfold tmod
      rw [List.map_map]
      refine List.map_congr_left (fun x _ => ?_)
      dsimp only [Function.comp]
      split
      · exact (hf x.2).1
      · rfl
    show ((tmod c.entries i f).map (fun x => (x.2.keyKind, x.2.key))).Nodup
    rw [this]; exact h2
  · obtain ⟨w, hw, ew⟩ := List.mem_map.1 hx
    have old := h3 hm w hw
    subst ew
    split
    · exact fun k => old ((hf _).2 k)
    · exact old

/-- Fewer entries, in the same mode or in one that they suit. -/
theorem screen_sub {c d : Screen} (h : c.Lawful) (k : d.entries.Sublist c.entries)
    (m : d.mode = .listedOnly → ∀ x ∈ d.entries, x.2.kind ≠ .learned) : d.Lawful :=
  ⟨h.1.sublist k, h.2.1.sublist (k.map _), m⟩

theorem findKey_none {k : KeyKind} {key : Text} {t : Table ScreenEntry} (h : findKey k key t = none) :
    ∀ x ∈ t, (x.2.keyKind, x.2.key) ≠ (k, key) := by
  induction t with
  | nil => intro x hx; cases hx
  | cons y t ih =>
    obtain ⟨j, e⟩ := y
    unfold findKey at h
    split at h
    · cases h
    · rename_i ne
      intro x hx
      rcases List.mem_cons.1 hx with hx | hx
      · subst hx; simpa using ne
      · exact ih h x hx

theorem screen_add {c : Screen} (h : c.Lawful) {i : Nat} (hi : lowestFree 256 c.entries = some i) (e : ScreenEntry)
    (hn : findKey e.keyKind e.key c.entries = none) (hm : c.mode = .listedOnly → e.kind ≠ .learned) :
    ({ c with entries := tset c.entries i e } : Screen).Lawful := by
  obtain ⟨h1, h2, h3⟩ := h
  obtain ⟨l, r, e1, e2⟩ := table_gap (lowestFree_spec hi).2 e
  have no := findKey_none hn
  refine ⟨tableIn_tset h1 (lowestFree_spec hi).1 _, ?_, fun m x hx => ?_⟩
  · show ((tset c.entries i e).map (fun x => (x.2.keyKind, x.2.key))).Nodup
    rw [e1] at h2 no
    rw [e2, List.map_append, List.map_cons, List.nodup_middle, List.nodup_cons, ← List.map_append]
    refine ⟨fun hx => ?_, h2⟩
    obtain ⟨x, hx, ex⟩ := List.mem_map.1 hx
    exact no x hx ex
  · rcases mem_tset hx with hx | hx
    · subst hx; exact hm m
    · exact h3 m x hx

end Sys2Proof.Machine
end

