-- ==== Sys2Proof/Laws/Session.lean ====
section
/-! SUPPORT. What the sessions of a unit, the release of a call, and the return of blocks do, each said once. -/

namespace Sys2Proof.Machine

open Sys2Proof

/-- A caller session is held by a unit that is IN SESSION as caller. -/
theorem State.caller_unit {s : State} {u : UnitId} {c : CallerSession} (h : s.caller u = some c) :
    (s.unit u).callerSession = some c ∧ (s.unit u).state = .inSession ∧ (s.unit u).role = some .caller := by
  unfold State.caller at h
  split at h <;> simp_all

/-- An answering session is held by a unit that is IN SESSION as answerer. -/
theorem State.answering_unit {s : State} {u : UnitId} {a : AnswererSession} (h : s.answering u = some a) :
    (s.unit u).answerer = some a ∧ (s.unit u).state = .inSession ∧ (s.unit u).role = some .answerer := by
  unfold State.answering at h
  split at h <;> simp_all

/-- A caller does not answer. -/
theorem State.answering_of_caller {s : State} {u : UnitId} {c : CallerSession} (h : s.caller u = some c) :
    s.answering u = none := by
  have := State.caller_unit h
  unfold State.answering
  simp [this]

/-- An answerer does not call. -/
theorem State.caller_of_answering {s : State} {u : UnitId} {a : AnswererSession} (h : s.answering u = some a) :
    s.caller u = none := by
  have := State.answering_unit h
  unfold State.caller
  simp [this]

/-- A unit that has released its call is CLEARING, whatever the release has charged. -/
theorem State.releaseCall_state (s : State) (u : UnitId) : ((s.releaseCall u).unit u).state = .clearing := by
  unfold State.releaseCall State.modUnit State.unit
  simp

/-- No session is left on a unit whose call has ended. -/
theorem State.answering_endCall (s : State) (u : UnitId) (r : AttemptResult) : (s.endCall u r).answering u = none := by
  unfold State.answering State.endCall
  simp [State.releaseCall_state]

/-- Several records taken from a table. -/
theorem tget_foldl_tdel {α : Type} (ps : List Nat) (t : Table α) (q : Nat) :
    tget (ps.foldl (fun t p => tdel t p) t) q = if q ∈ ps then none else tget t q := by
  induction ps generalizing t with
  | nil => simp
  | cons p ps ih =>
    simp only [List.foldl_cons, ih, tget_tdel, List.mem_cons]
    by_cases h : q ∈ ps <;> by_cases h2 : q = p <;> simp [h, h2]

/-- Blocks returned join the tail of the free list with link entry "none"; only the store's list and links and
the sources that wait change (R8, R18). -/
theorem State.returnBlocks_all (s : State) (bs : List Nat) :
    let t := s.returnBlocks bs
    t.store.pages = s.store.pages ∧ t.store.docs = s.store.docs ∧ t.store.free = s.store.free ++ bs
    ∧ (∀ b ∈ bs, tget t.store.links b = none) ∧ t.store.base = s.store.base
    ∧ t.store.blockCount = s.store.blockCount ∧ t = { s with store := t.store, coder := t.coder } := by
  unfold State.returnBlocks
  split
  · simp_all
  · refine ⟨rfl, rfl, rfl, ?_, rfl, rfl, rfl⟩
    intro b hb
    simp [State.wakeAll, tget_foldl_tdel, hb]

end Sys2Proof.Machine
end

