-- ==== Sys2Proof/Laws/Pool.lean ====
section
/-! SUPPORT. The Page Store keeps its laws: the partition of the pool, the chains and the page lists, under the
allocation of a block, the opening, the abandoning and the freeing of pages (R2 to R5, R8, R14). -/

namespace Sys2Proof.Machine

open Sys2Proof

/-! ## Chains -/

theorem mem_chainFrom_self {l : Table Nat} {n a : Nat} (h : 1 ≤ n) : a ∈ chainFrom l n a := by
  cases n with
  | zero => omega
  | succ n => exact List.mem_cons_self

/-- A chain reads only the link entries of its own blocks. -/
theorem chainFrom_congr {l m : Table Nat} {n a : Nat} (h : ∀ x ∈ chainFrom l n a, tget m x = tget l x) :
    chainFrom m n a = chainFrom l n a := by
  induction n generalizing a with
  | zero => rfl
  | succ n ih =>
    unfold chainFrom at h ⊢
    rw [h a List.mem_cons_self]
    split
    · rename_i c e
      rw [ih (fun x hx => h x (List.mem_cons_of_mem _ (by rw [e]; exact hx)))]
    · rfl

/-- A chain that a new last block is linked to grows by that block. -/
theorem chainFrom_grow {l m : Table Nat} {n a z b : Nat} (h0 : 1 ≤ n) (h1 : (chainFrom l n a).length = n)
    (h2 : (chainFrom l n a).getLast? = some z) (h3 : (chainFrom l n a).Nodup) (h4 : tget m z = some b)
    (h5 : ∀ x ∈ chainFrom l n a, x ≠ z → tget m x = tget l x) :
    chainFrom m (n + 1) a = chainFrom l n a ++ [b] := by
  induction n generalizing a with
  | zero => omega
  | succ n ih =>
    cases n with
    | zero =>
      have e : chainFrom l 1 a = [a] := by
        unfold chainFrom; split <;> rfl
      rw [e] at h2 ⊢
      have h2 : a = z := by simpa using h2
      subst h2
      show a :: (match tget m a with | some c => chainFrom m 1 c | none => []) = [a, b]
      rw [h4]
      have e2 : chainFrom m 1 b = [b] := by unfold chainFrom; split <;> rfl
      simp [e2]
    | succ n =>
      have e : chainFrom l (n + 1 + 1) a = a :: (match tget l a with
        | some c => chainFrom l (n + 1) c
        | none => []) := rfl
      cases hc : tget l a with
      | none => rw [e, hc] at h1; simp at h1
      | some c =>
        rw [hc] at e
        dsimp only at e
        rw [e] at h1 h2 h3 h5 ⊢
        have k1 : (chainFrom l (n + 1) c).length = n + 1 := by simpa using h1
        have k3 := List.nodup_cons.1 h3
        have k2 : (chainFrom l (n + 1) c).getLast? = some z := by
          rw [List.getLast?_cons] at h2
          cases hl : (chainFrom l (n + 1) c).getLast? with
          | none =>
            rw [List.getLast?_eq_none_iff] at hl
            rw [hl] at k1; simp at k1
          | some y => rw [hl] at h2; simpa using h2
        have hz : z ∈ chainFrom l (n + 1) c := List.mem_of_getLast? k2
        have ne : a ≠ z := fun x => k3.1 (x ▸ hz)
        show a :: (match tget m a with | some c => chainFrom m (n + 1 + 1) c | none => []) = _
        rw [h5 a List.mem_cons_self ne, hc]
        dsimp only
        rw [ih (by omega) k1 k2 k3.2 (fun x hx => h5 x (List.mem_cons_of_mem _ hx))]
        rfl

/-! ## The partition -/

theorem PageStore.Partition.nodup {p : PageStore} (h : p.Partition) :
    (p.free ++ p.pages.flatMap (fun x => p.chain x.2)).Nodup :=
  h.nodup_iff.2 List.nodup_range

/-- A block of a page's chain is in no other chain and not free. -/
theorem PageStore.Partition.own {p : PageStore} (h : p.Partition) {l r : List (Nat × PageRec)} {x : Nat × PageRec}
    (e : p.pages = l ++ x :: r) {b : Nat} (k : b ∈ p.chain x.2) :
    b ∉ p.free ∧ ∀ y ∈ l ++ r, b ∉ p.chain y.2 := by
  have n := h.nodup
  rw [e] at n
  simp only [List.flatMap_append, List.flatMap_cons, List.nodup_append, List.mem_append, List.mem_flatMap] at n
  refine ⟨fun hf => n.2.2 b hf b (Or.inr (Or.inl k)) rfl, fun y hy hb => ?_⟩
  rcases List.mem_append.1 hy with hy | hy
  · exact n.2.1.2.2 b ⟨y, hy, hb⟩ b (Or.inl k) rfl
  · exact n.2.1.2.1.2.2 b k b ⟨y, hy, hb⟩ rfl

theorem PageStore.Partition.chain_nodup {p : PageStore} (h : p.Partition) {x : Nat × PageRec} (k : x ∈ p.pages) :
    (p.chain x.2).Nodup :=
  (List.nodup_flatMap.1 (List.nodup_append.1 h.nodup).2.1).1 x k

theorem PageStore.Partition.free_apart {p : PageStore} (h : p.Partition) {b : Nat} (k : b ∈ p.free)
    {x : Nat × PageRec} (hx : x ∈ p.pages) : b ∉ p.chain x.2 := fun hb =>
  (List.nodup_append.1 h.nodup).2.2 b k b (List.mem_flatMap.2 ⟨x, hx, hb⟩) rfl

/-- The chains of a list of pages are as before where the link entries of their blocks are. -/
theorem flatMap_chain_congr {p q : PageStore} {t : List (Nat × PageRec)}
    (h : ∀ x ∈ t, q.chain x.2 = p.chain x.2) :
    t.flatMap (fun x => q.chain x.2) = t.flatMap (fun x => p.chain x.2) := by
  induction t with
  | nil => rfl
  | cons y t ih =>
    simp only [List.flatMap_cons]
    rw [h y List.mem_cons_self, ih (fun x hx => h x (List.mem_cons_of_mem _ hx))]

/-- A chain's law depends only on the chain and the last block's link entry. -/
theorem PageStore.ChainOk.congr {p q : PageStore} {r : PageRec} (h : p.ChainOk r)
    (k : ∀ b ∈ p.chain r, tget q.links b = tget p.links b) : q.ChainOk r ∧ q.chain r = p.chain r := by
  have e : q.chain r = p.chain r := chainFrom_congr k
  refine ⟨⟨h.1, e ▸ h.2.1, e ▸ h.2.2.1, ?_⟩, e⟩
  rw [k r.last (List.mem_of_getLast? h.2.2.1)]
  exact h.2.2.2

/-- The page lists depend only on which document each page record names. -/
theorem ListOk_congr {p q : PageStore} {d : Nat} {r : Doc} (h : p.ListOk d r)
    (k : ∀ i ∈ r.pages, (tget q.pages i).map PageRec.document = (tget p.pages i).map PageRec.document) :
    q.ListOk d r := by
  refine ⟨h.1, h.2.1, fun i hi => ?_⟩
  obtain ⟨x, e, ex⟩ := h.2.2 i hi
  have := k i hi
  rw [e] at this
  obtain ⟨y, ey, e2⟩ := Option.map_eq_some_iff.1 this
  exact ⟨y, ey, e2.trans ex⟩

/-! ## Allocation (R3) -/

/-- A page grows by the block at the head of the free list. -/
theorem lawful_grow {p q : PageStore} (h : p.Lawful) {b i : Nat} {rest : List Nat} {r x : PageRec}
    (hf : p.free = b :: rest) (hr : tget p.pages i = some r) (q1 : q.free = rest)
    (q2 : q.links = tset (tdel p.links b) r.last b) (q3 : q.pages = tset p.pages i x) (q4 : q.docs = p.docs)
    (q5 : q.blockCount = p.blockCount) (x1 : x.first = r.first) (x2 : x.last = b) (x3 : x.blocks = r.blocks + 1)
    (x4 : x.document = r.document) : q.Lawful := by
  obtain ⟨h1, h2, h3, h4, h5, h6⟩ := h
  obtain ⟨l, m, e, es, -, -, -⟩ := table_split h1 hr
  have hmem : (i, r) ∈ p.pages := mem_of_tget hr
  obtain ⟨c1, c2, c3, c4⟩ := h4 _ hmem
  dsimp only at c1 c2 c3 c4
  have hlast : r.last ∈ p.chain r := List.mem_of_getLast? c3
  have hb : b ∈ p.free := hf ▸ List.mem_cons_self
  have bnot : ∀ y ∈ p.pages, b ∉ p.chain y.2 := fun y hy => h3.free_apart hb hy
  have hbl : b ≠ r.last := fun y => bnot _ hmem (y ▸ hlast)
  -- the link entries that change are those of the new block and of the old last block
  have links : ∀ y, y ≠ b → y ≠ r.last → tget q.links y = tget p.links y := by
    intro y hx hy
    rw [q2, tget_tset_other _ _ _ _ hy, tget_tdel_other _ hx]
  have other : ∀ y ∈ l ++ m, q.ChainOk y.2 ∧ q.chain y.2 = p.chain y.2 := by
    intro y hy
    have hyp : y ∈ p.pages := by
      rw [e]; simp only [List.mem_append, List.mem_cons] at hy ⊢; tauto
    refine (h4 y hyp).congr (fun z hz => links z (fun k => bnot y hyp (k ▸ hz)) (fun k => ?_))
    exact (h3.own e (x := (i, r)) hlast).2 y hy (k ▸ hz)
  have new : q.chain x = p.chain r ++ [b] := by
    unfold PageStore.chain
    rw [x1, x3]
    refine chainFrom_grow c1 c2 c3 (h3.chain_nodup hmem) (q2 ▸ tget_tset _ _ _) (fun y hy hne => ?_)
    exact links y (fun k => bnot _ hmem (k ▸ hy)) hne
  refine ⟨q3 ▸ tableIn_tset h1 (h1.2 _ hmem) _, q4 ▸ h2, ?_, ?_, ?_, ?_⟩
  · have e2 : q.pages = l ++ (i, x) :: m := q3.trans (es _)
    have o := fun y hy => (other y hy).2
    unfold PageStore.Partition at h3 ⊢
    rw [q1, q5, e2, List.flatMap_append, List.flatMap_cons,
      flatMap_chain_congr (p := p) (fun y hy => o y (List.mem_append_left _ hy)),
      flatMap_chain_congr (p := p) (t := m) (fun y hy => o y (List.mem_append_right _ hy))]
    rw [hf, e, List.flatMap_append, List.flatMap_cons] at h3
    dsimp only at h3 ⊢
    rw [new]
    refine List.Perm.trans ?_ h3
    generalize l.flatMap (fun y => p.chain y.2) = L
    generalize m.flatMap (fun y => p.chain y.2) = M
    generalize p.chain r = C
    have k : (rest ++ (L ++ (C ++ [b] ++ M))).Perm (rest ++ (L ++ (b :: C ++ M))) :=
      List.Perm.append_left _ (List.Perm.append_left _ (List.Perm.append_right _ List.perm_append_comm))
    refine k.trans ?_
    simp only [List.cons_append]
    exact (List.Perm.append_left _ List.perm_middle).trans List.perm_middle
  · intro y hy
    rw [q3, es] at hy
    simp only [List.mem_append, List.mem_cons] at hy
    rcases hy with hy | hy | hy
    · exact (other y (List.mem_append_left _ hy)).1
    · subst hy
      refine ⟨by dsimp only; omega, ?_, ?_, ?_⟩
      · dsimp only; rw [new, x3]; simp [c2]
      · dsimp only; rw [new, x2]; simp
      · dsimp only
        rw [x2, q2, tget_tset_other _ _ _ _ hbl, tget_tdel_self]
    · exact (other y (List.mem_append_right _ hy)).1
  · intro y hy
    rw [q1] at hy
    have hy' : y ∈ p.free := hf ▸ List.mem_cons_of_mem _ hy
    have nd := (List.nodup_append.1 h3.nodup).1
    rw [hf] at nd
    have hyb : y ≠ b := fun k => (List.nodup_cons.1 nd).1 (k ▸ hy)
    rw [links y hyb (fun k => h3.free_apart hy' hmem (k ▸ hlast))]
    exact h5 y hy'
  · intro y hy
    rw [q4] at hy
    refine ListOk_congr (h6 y hy) (fun j _ => ?_)
    rw [q3]
    by_cases hj : j = i
    · subst hj; rw [tget_tset, hr]; exact congrArg some x4
    · rw [tget_tset_other _ _ _ _ hj]

/-- A page opens in a free record, with the head of the free list as its one block (R3, R5). -/
theorem lawful_open {p q : PageStore} (h : p.Lawful) {b i d : Nat} {rest : List Nat} {r : Doc} {x y : PageRec}
    (hf : p.free = b :: rest) (hi : lowestFree 1024 p.pages = some i) (hd : tget p.docs d = some r)
    (hl : r.pages.length < 250) (q1 : q.free = rest) (q2 : q.links = tdel p.links b)
    (q3 : q.pages = tset (tset p.pages i y) i x)
    (q4 : q.docs = tmod p.docs d (fun r => { r with pages := r.pages ++ [i] })) (q5 : q.blockCount = p.blockCount)
    (x1 : x.first = b) (x2 : x.last = b) (x3 : x.blocks = 1) (x4 : x.document = d) : q.Lawful := by
  obtain ⟨h1, h2, h3, h4, h5, h6⟩ := h
  obtain ⟨hi1, hi2⟩ := lowestFree_spec hi
  have hb : b ∈ p.free := hf ▸ List.mem_cons_self
  have fresh : ∀ d s, (d, s) ∈ p.docs → i ∉ s.pages := by
    intro d s hs hi
    obtain ⟨z, e, _⟩ := (h6 _ hs).2.2 i hi
    rw [hi2] at e; cases e
  obtain ⟨l, m, e, es⟩ := table_gap hi2 y
  have e3 : q.pages = l ++ (i, x) :: m := by
    have k := tableIn_tset h1 hi1 y
    rw [es] at k
    have kx : tget (tset p.pages i y) i = some y := tget_tset _ _ _
    obtain ⟨l2, m2, f1, f2, -, -, f5⟩ := table_split (tableIn_tset h1 hi1 y) kx
    rw [q3, f2]
    rw [es] at f1
    have nobody : ∀ z ∈ l ++ m, z.1 ≠ i := by rw [← e]; exact tget_none_iff.1 hi2
    obtain ⟨a1, a2⟩ : l2 = l ∧ m2 = m := by
      rcases List.append_eq_append_iff.1 f1 with ⟨c, g1, g2⟩ | ⟨c, g1, g2⟩
      · cases c with
        | nil => simp only [List.append_nil, List.nil_append, List.cons.injEq] at g1 g2; exact ⟨g1, g2.2.symm⟩
        | cons z c =>
          simp only [List.cons_append, List.cons.injEq] at g2
          exact absurd rfl ((f5 (i, y) (by rw [g1, ← g2.1]; simp)))
      · cases c with
        | nil => simp only [List.append_nil, List.nil_append, List.cons.injEq] at g1 g2; exact ⟨g1.symm, g2.2⟩
        | cons z c =>
          simp only [List.cons_append, List.cons.injEq] at g2
          exact absurd rfl ((nobody (i, y) (by rw [g1, ← g2.1]; simp)))
    rw [a1, a2]
  have links : ∀ z, z ≠ b → tget q.links z = tget p.links z := fun z hz => by rw [q2, tget_tdel_other _ hz]
  have other : ∀ z ∈ l ++ m, q.ChainOk z.2 ∧ q.chain z.2 = p.chain z.2 := by
    intro z hz
    rw [← e] at hz
    exact (h4 z hz).congr (fun w hw => links w (fun k => h3.free_apart hb hz (k ▸ hw)))
  have last : tget q.links b = none := by rw [q2, tget_tdel_self]
  have new : q.chain x = [b] := by
    unfold PageStore.chain
    rw [x1, x3]
    show b :: (match tget q.links b with | some c => chainFrom q.links 0 c | none => []) = [b]
    rw [last]
  refine ⟨q3 ▸ tableIn_tset (tableIn_tset h1 hi1 _) hi1 _, q4 ▸ tableIn_tmod h2 _ _, ?_, ?_, ?_, ?_⟩
  · have o := fun z hz => (other z hz).2
    unfold PageStore.Partition at h3 ⊢
    rw [q1, q5, e3, List.flatMap_append, List.flatMap_cons,
      flatMap_chain_congr (p := p) (fun y hy => o y (List.mem_append_left _ hy)),
      flatMap_chain_congr (p := p) (t := m) (fun y hy => o y (List.mem_append_right _ hy))]
    rw [hf, e, List.flatMap_append] at h3
    dsimp only at h3 ⊢
    rw [new]
    refine List.Perm.trans ?_ h3
    simp only [List.cons_append, List.nil_append]
    exact (List.Perm.append_left _ List.perm_middle).trans List.perm_middle
  · intro z hz
    rw [e3] at hz
    simp only [List.mem_append, List.mem_cons] at hz
    rcases hz with hz | hz | hz
    · exact (other z (List.mem_append_left _ hz)).1
    · subst hz
      refine ⟨by dsimp only; omega, ?_, ?_, ?_⟩
      · dsimp only; rw [new, x3]; rfl
      · dsimp only; rw [new, x2]; rfl
      · dsimp only; rw [x2]; exact last
    · exact (other z (List.mem_append_right _ hz)).1
  · intro z hz
    rw [q1] at hz
    have nd := (List.nodup_append.1 h3.nodup).1
    rw [hf] at nd
    rw [links z (fun k => (List.nodup_cons.1 nd).1 (k ▸ hz))]
    exact h5 z (hf ▸ List.mem_cons_of_mem _ hz)
  · intro z hz
    have pages : ∀ j, j ≠ i → tget q.pages j = tget p.pages j := fun j hj => by
      rw [q3, tget_tset_other _ _ _ _ hj, tget_tset_other _ _ _ _ hj]
    rw [q4] at hz
    obtain ⟨w, hw, ew⟩ := List.mem_map.1 hz
    have fr := fresh w.1 w.2 hw
    have keep : q.ListOk w.1 w.2 := ListOk_congr (h6 w hw) (fun j hj => by
      rw [pages j (fun k => fr (k ▸ hj))])
    split at ew
    · rename_i ed
      subst ew
      have er : w.2 = r := by
        have := tget_of_mem h2 hw
        rw [ed, hd] at this
        exact (Option.some.inj this).symm
      refine ⟨?_, ?_, fun j hj => ?_⟩
      · dsimp only
        rw [List.nodup_append]
        exact ⟨keep.1, by simp, fun a ha c hc => by rw [List.mem_singleton.1 hc]; exact fun k => fr (k ▸ ha)⟩
      · dsimp only; rw [er]; simp; omega
      · dsimp only at hj ⊢
        rcases List.mem_append.1 hj with hj | hj
        · exact keep.2.2 j hj
        · rw [List.mem_singleton.1 hj]
          exact ⟨x, by rw [q3, tget_tset], x4.trans ed.symm⟩
    · subst ew; exact keep

/-! ## Returns (R4, R8, R14) -/

/-- Several records dropped from a table leave a sublist. -/
theorem tdels_sublist {α : Type} (ps : List Nat) (t : Table α) :
    (ps.foldl (fun t p => tdel t p) t).Sublist t := by
  induction ps generalizing t with
  | nil => exact List.Sublist.refl t
  | cons p ps ih => exact (ih _).trans List.filter_sublist

/-- The records of a list of pages, and those that remain, make up the table. -/
theorem tdels_perm {n : Nat} {t : Table PageRec} (h : tableIn n t) {ps : List Nat} (hn : ps.Nodup)
    (hp : ∀ i ∈ ps, ∃ r, tget t i = some r) (f : PageRec → List Nat) :
    (ps.flatMap (fun i => match tget t i with | some r => f r | none => [])
      ++ (ps.foldl (fun t p => tdel t p) t).flatMap (fun x => f x.2)).Perm (t.flatMap (fun x => f x.2)) := by
  induction ps generalizing t with
  | nil => simp
  | cons i ps ih =>
    obtain ⟨r, hr⟩ := hp i List.mem_cons_self
    obtain ⟨l, m, e, -, ed, -, -⟩ := table_split h hr
    obtain ⟨n1, n2⟩ := List.nodup_cons.1 hn
    have same : ∀ j ∈ ps, tget (tdel t i) j = tget t j := fun j hj =>
      tget_tdel_other _ (fun k => n1 (k ▸ hj))
    have k := ih (tableIn_tdel h i) n2 (fun j hj => by rw [same j hj]; exact hp j (List.mem_cons_of_mem _ hj))
    have k2 : ps.flatMap (fun i => match tget t i with | some r => f r | none => [])
        = ps.flatMap (fun j => match tget (tdel t i) j with | some r => f r | none => []) := by
      refine List.flatMap_congr (fun j hj => by rw [same j hj])
    simp only [List.flatMap_cons, List.foldl_cons, hr, List.append_assoc]
    rw [k2]
    refine (List.Perm.append_left _ k).trans ?_
    rw [ed, e]
    simp only [List.flatMap_append, List.flatMap_cons]
    exact List.perm_append_comm_assoc _ _ _

/-- Pages go, and their blocks return (R4): the partition, the chains and the free blocks' link entries. -/
theorem lawful_return {p q : PageStore} (h : p.Lawful) {ps : List Nat} (hn : ps.Nodup)
    (hp : ∀ i ∈ ps, ∃ r, tget p.pages i = some r)
    (q1 : q.free = p.free ++ ps.flatMap (fun i => match tget p.pages i with | some r => p.chain r | none => []))
    (q2 : q.links = (ps.flatMap (fun i => match tget p.pages i with | some r => p.chain r | none => [])).foldl
      (fun l b => tdel l b) p.links)
    (q3 : q.pages = ps.foldl (fun t p => tdel t p) p.pages) (q5 : q.blockCount = p.blockCount) :
    q.Partition ∧ (∀ x ∈ q.pages, q.ChainOk x.2) ∧ (∀ b ∈ q.free, tget q.links b = none) := by
  obtain ⟨h1, h2, h3, h4, h5, h6⟩ := h
  have perm := tdels_perm h1 hn hp (fun r => p.chain r)
  generalize ps.flatMap (fun i => match tget p.pages i with | some r => p.chain r | none => []) = bs at perm q1 q2
  rw [← q3] at perm
  have nd := (List.perm_append_comm.nodup_iff.1 ((perm.nodup_iff).2 (List.nodup_append.1 h3.nodup).2.1))
  have sub : q.pages.Sublist p.pages := q3 ▸ tdels_sublist ps p.pages
  have links : ∀ z, z ∉ bs → tget q.links z = tget p.links z := fun z hz => by
    rw [q2, tget_foldl_tdel, if_neg hz]
  have gone : ∀ z ∈ bs, tget q.links z = none := fun z hz => by rw [q2, tget_foldl_tdel, if_pos hz]
  have other : ∀ x ∈ q.pages, q.ChainOk x.2 ∧ q.chain x.2 = p.chain x.2 := by
    intro x hx
    refine (h4 x (sub.subset hx)).congr (fun z hz => links z (fun k => ?_))
    exact (List.nodup_append.1 nd).2.2 z (List.mem_flatMap.2 ⟨x, hx, hz⟩) z k rfl
  refine ⟨?_, fun x hx => (other x hx).1, fun z hz => ?_⟩
  · unfold PageStore.Partition at h3 ⊢
    rw [q1, q5, flatMap_chain_congr (p := p) (fun x hx => (other x hx).2), List.append_assoc]
    exact (List.Perm.append_left _ perm).trans h3
  · rw [q1] at hz
    rcases List.mem_append.1 hz with hz | hz
    · by_cases k : z ∈ bs
      · exact gone z k
      · rw [links z k]; exact h5 z hz
    · exact gone z hz

/-- A page is abandoned (R8). -/
theorem lawful_abandon {p q : PageStore} (h : p.Lawful) {i : Nat} {r : PageRec} (hr : tget p.pages i = some r)
    (q1 : q.free = p.free ++ p.chain r) (q2 : q.links = (p.chain r).foldl (fun l b => tdel l b) p.links)
    (q3 : q.pages = tdel p.pages i)
    (q4 : q.docs = tmod p.docs r.document (fun d => { d with pages := dropNum i d.pages }))
    (q5 : q.blockCount = p.blockCount) : q.Lawful := by
  have k := lawful_return h (q := q) (ps := [i]) (by simp) (by simpa using ⟨r, hr⟩) (by simp [hr, q1])
    (by simp [hr, q2]) (by simp [q3]) q5
  obtain ⟨h1, h2, h3, h4, h5, h6⟩ := h
  refine ⟨q3 ▸ tableIn_tdel h1 i, q4 ▸ tableIn_tmod h2 _ _, k.1, k.2.1, k.2.2, fun z hz => ?_⟩
  rw [q4] at hz
  obtain ⟨w, hw, ew⟩ := List.mem_map.1 hz
  have old := h6 w hw
  have look : ∀ j, j ≠ i → tget q.pages j = tget p.pages j := fun j hj => by rw [q3, tget_tdel_other _ hj]
  split at ew
  · subst ew
    refine ⟨old.1.filter _, (List.length_filter_le _ _).trans old.2.1, fun j hj => ?_⟩
    obtain ⟨a, b⟩ := List.mem_filter.1 hj
    rw [look j (by simpa using b)]
    exact old.2.2 j a
  · rename_i ne
    subst ew
    refine ListOk_congr old (fun j hj => congrArg _ (look j (fun k => ?_)))
    obtain ⟨x, e, ex⟩ := old.2.2 j hj
    rw [k, hr] at e
    cases e
    exact ne ex.symm

/-- A document is freed (R14). -/
theorem lawful_free {p q : PageStore} (h : p.Lawful) {d : Nat} {r : Doc} (hd : tget p.docs d = some r)
    (q1 : q.free = p.free ++ r.pages.flatMap (fun i => match tget p.pages i with | some x => p.chain x | none => []))
    (q2 : q.links = (r.pages.flatMap (fun i => match tget p.pages i with | some x => p.chain x | none => [])).foldl
      (fun l b => tdel l b) p.links)
    (q3 : q.pages = r.pages.foldl (fun t p => tdel t p) p.pages) (q4 : q.docs = tdel p.docs d)
    (q5 : q.blockCount = p.blockCount) : q.Lawful := by
  have own := h.2.2.2.2.2 _ (mem_of_tget hd)
  dsimp only at own
  have k := lawful_return h (q := q) (ps := r.pages) own.1
    (fun i hi => (own.2.2 i hi).imp (fun _ x => x.1)) q1 q2 q3 q5
  obtain ⟨h1, h2, h3, h4, h5, h6⟩ := h
  refine ⟨q3 ▸ h1.sublist (tdels_sublist _ _), q4 ▸ tableIn_tdel h2 d, k.1, k.2.1, k.2.2, fun z hz => ?_⟩
  rw [q4] at hz
  obtain ⟨hz1, hz2⟩ := List.mem_filter.1 hz
  have ne : z.1 ≠ d := by simpa using hz2
  refine ListOk_congr (h6 z hz1) (fun j hj => ?_)
  rw [q3, tget_foldl_tdel, if_neg (fun k => ?_)]
  obtain ⟨x, e, ex⟩ := (h6 z hz1).2.2 j hj
  obtain ⟨y, e2, ey⟩ := own.2.2 j k
  rw [e] at e2
  cases e2
  exact ne (ex.symm.trans ey)

/-! ## Updates that leave the lists and the chains alone -/

/-- What the Page Store's laws read of a page record. -/
def PageRec.links (r : PageRec) : Nat × Nat × Nat × Nat := (r.document, r.first, r.last, r.blocks)

theorem lawful_modPage {p : PageStore} (h : p.Lawful) (i : Nat) (f : PageRec → PageRec)
    (hf : ∀ x, (f x).links = x.links) : ({ p with pages := tmod p.pages i f } : PageStore).Lawful := by
  have hk : ∀ x, (f x).document = x.document ∧ (f x).first = x.first ∧ (f x).last = x.last ∧ (f x).blocks = x.blocks := by
    intro x
    have := hf x
    simp only [PageRec.links, Prod.mk.injEq] at this
    exact this
  obtain ⟨h1, h2, h3, h4, h5, h6⟩ := h
  have ch : ∀ x : Nat × PageRec, p.chain (if x.1 = i then (x.1, f x.2) else x).2 = p.chain x.2 := by
    intro x
    split
    · show chainFrom p.links (f x.2).blocks (f x.2).first = _
      rw [(hk x.2).2.1, (hk x.2).2.2.2]; rfl
    · rfl
  refine ⟨tableIn_tmod h1 _ _, h2, ?_, ?_, h5, ?_⟩
  · unfold PageStore.Partition at h3 ⊢
    have : (tmod p.pages i f).flatMap (fun x => p.chain x.2) = p.pages.flatMap (fun x => p.chain x.2) := by
      unfold tmod
      rw [List.flatMap_map]
      exact List.flatMap_congr (fun x _ => ch x)
    show (p.free ++ (tmod p.pages i f).flatMap (fun x => p.chain x.2)).Perm _
    rw [this]; exact h3
  · intro z hz
    obtain ⟨w, hw, ew⟩ := List.mem_map.1 hz
    have old := h4 w hw
    have c : p.chain z.2 = p.chain w.2 := ew ▸ ch w
    have : z.2.blocks = w.2.blocks ∧ z.2.last = w.2.last := by
      subst ew; split
      · exact ⟨(hk _).2.2.2, (hk _).2.2.1⟩
      · exact ⟨rfl, rfl⟩
    refine ⟨this.1 ▸ old.1, ?_, ?_, ?_⟩
    · show (p.chain z.2).length = _
      rw [c, this.1]; exact old.2.1
    · show (p.chain z.2).getLast? = _
      rw [c, this.2]; exact old.2.2.1
    · show tget p.links z.2.last = none
      rw [this.2]; exact old.2.2.2
  · intro z hz
    refine ListOk_congr (h6 z hz) (fun j _ => ?_)
    show (tget (tmod p.pages i f) j).map PageRec.document = _
    rw [tget_tmod]
    split
    · cases tget p.pages j with
      | none => rfl
      | some x => exact congrArg some (hk x).1
    · rfl

theorem lawful_modDoc {p : PageStore} (h : p.Lawful) (i : Nat) (f : Doc → Doc)
    (hf : ∀ x, (f x).pages = x.pages) : ({ p with docs := tmod p.docs i f } : PageStore).Lawful := by
  obtain ⟨h1, h2, h3, h4, h5, h6⟩ := h
  refine ⟨h1, tableIn_tmod h2 _ _, h3, h4, h5, fun z hz => ?_⟩
  obtain ⟨w, hw, ew⟩ := List.mem_map.1 hz
  have old := h6 w hw
  have : z.1 = w.1 ∧ z.2.pages = w.2.pages := by
    subst ew; split
    · exact ⟨rfl, hf _⟩
    · exact ⟨rfl, rfl⟩
  unfold PageStore.ListOk at old ⊢
  rw [this.1, this.2]
  exact old

/-- A document opens with an empty page list (R10). -/
theorem lawful_newDoc {p : PageStore} (h : p.Lawful) {d : Nat} (hd : lowestFree 256 p.docs = some d) (r : Doc)
    (hr : r.pages = []) : ({ p with docs := tset p.docs d r } : PageStore).Lawful := by
  obtain ⟨h1, h2, h3, h4, h5, h6⟩ := h
  refine ⟨h1, tableIn_tset h2 (lowestFree_spec hd).1 _, h3, h4, h5, fun z hz => ?_⟩
  rcases mem_tset hz with hz | hz
  · subst hz
    refine ⟨?_, ?_, ?_⟩ <;> simp [hr]
  · exact h6 z hz

/-- The Page Store that a Setup Block builds, or that a reset leaves (R1, R2). -/
theorem lawful_build (base n : Nat) : (PageStore.build base n).Lawful := by
  refine ⟨tableIn_nil _, tableIn_nil _, ?_, by simp [PageStore.build], ?_, by simp [PageStore.build]⟩
  · unfold PageStore.Partition; simp [PageStore.build]
  · intro b _; rfl

end Sys2Proof.Machine
end

