-- ==== Sys2Proof/Laws/Sends.lean ====
section
/-! SUPPORT. The Send Queue keeps its laws: the send references (R13), the final list (R137) and the units' entries
(R143), under each change of an entry, of a document record and of a unit. -/

namespace Sys2Proof.Machine

open Sys2Proof

/-- What the laws read of a document record. -/
def Doc.holds (r : Doc) : List Nat × Nat × Nat := (r.pages, r.sendRefs, r.printRefs)

/-- What the laws read of a destination entry. -/
def DestEntry.law (e : DestEntry) : Nat × EntryState × Option UnitId := (e.document, e.state, e.unit)

/-- Work that an entry holds its document for. -/
def DestEntry.counts (e : DestEntry) (d : Nat) : Nat := if decide (e.document = d) && !e.state.final then 1 else 0

/-- An entry that is neither in a call nor in a final state. -/
def DestEntry.rests (e : DestEntry) : Prop := e.state.final = false ∧ e.state ≠ .active

/-! ## Counting -/

theorem openEntries_split {t : Table DestEntry} {n i : Nat} (h : tableIn n t) {e : DestEntry} (k : tget t i = some e)
    (d : Nat) : openEntries t d = e.counts d + openEntries (tdel t i) d := by
  obtain ⟨a, b, e1, -, e3, -, -⟩ := table_split h k
  unfold openEntries DestEntry.counts
  rw [e3, e1, count_split]

theorem openEntries_mod {t : Table DestEntry} {n i : Nat} (h : tableIn n t) {e : DestEntry} (k : tget t i = some e)
    (f : DestEntry → DestEntry) (d : Nat) : openEntries (tmod t i f) d = (f e).counts d + openEntries (tdel t i) d := by
  obtain ⟨a, b, e1, -, e3, e4, -⟩ := table_split h k
  unfold openEntries DestEntry.counts
  rw [e3, e4, count_split]

theorem openEntries_set {t : Table DestEntry} {n i : Nat} (h : tableIn n t) {e : DestEntry} (k : tget t i = some e)
    (x : DestEntry) (d : Nat) : openEntries (tset t i x) d = x.counts d + openEntries (tdel t i) d := by
  obtain ⟨a, b, e1, e2, e3, -, -⟩ := table_split h k
  unfold openEntries DestEntry.counts
  rw [e3, e2, count_split]

theorem openEntries_new {t : Table DestEntry} {i : Nat} (k : tget t i = none) (x : DestEntry) (d : Nat) :
    openEntries (tset t i x) d = x.counts d + openEntries t d := by
  obtain ⟨a, b, e1, e2⟩ := table_gap k x
  unfold openEntries DestEntry.counts
  rw [e2, count_split, ← e1]

theorem tmod_absent {α : Type} {t : Table α} {i : Nat} (k : tget t i = none) (f : α → α) : tmod t i f = t := by
  unfold tmod
  exact (List.map_congr_left (fun x hx => if_neg (tget_none_iff.1 k x hx))).trans (List.map_id t)

theorem sendRefsOf_tmod (docs : Table Doc) (i : Nat) (f : Doc → Doc) (d : Nat) :
    sendRefsOf (tmod docs i f) d
      = if d = i then (match tget docs d with | some r => (f r).sendRefs | none => 0) else sendRefsOf docs d := by
  unfold sendRefsOf
  rw [tget_tmod]
  by_cases e : d = i
  · rw [if_pos e, if_pos e]; cases tget docs d <;> rfl
  · rw [if_neg e, if_neg e]

/-! ## Documents -/

theorem SendOk.docs {o : Owed} {docs docs' : Table Doc} {un : Quad LineUnit} {q : SendQueue} (h : SendOk o docs un q)
    (k : ∀ d, sendRefsOf docs' d = sendRefsOf docs d) : SendOk o docs' un q :=
  ⟨h.1, h.2.1, fun d => (k d).trans (h.2.2.1 d), h.2.2.2⟩

theorem SendOk.modDoc {o : Owed} {docs : Table Doc} {un : Quad LineUnit} {q : SendQueue} (h : SendOk o docs un q)
    (i : Nat) (f : Doc → Doc) (hf : ∀ x, (f x).sendRefs = x.sendRefs) : SendOk o (tmod docs i f) un q := by
  refine h.docs (fun d => ?_)
  rw [sendRefsOf_tmod]
  split
  · unfold sendRefsOf
    cases tget docs d with
    | none => rfl
    | some r => exact hf r
  · rfl

theorem SendOk.newDoc {o : Owed} {docs : Table Doc} {un : Quad LineUnit} {q : SendQueue} (h : SendOk o docs un q)
    {i n : Nat} (hi : lowestFree n docs = some i) (r : Doc) (hr : r.sendRefs = 0) : SendOk o (tset docs i r) un q := by
  refine h.docs (fun d => ?_)
  unfold sendRefsOf
  by_cases e : d = i
  · subst e; rw [tget_tset, (lowestFree_spec hi).2]; exact hr
  · rw [tget_tset_other _ _ _ _ e]

theorem SendOk.dropDoc {o : Owed} {docs : Table Doc} {un : Quad LineUnit} {q : SendQueue} (h : SendOk o docs un q)
    {i : Nat} {r : Doc} (hi : tget docs i = some r) (hr : r.sendRefs = 0) : SendOk o (tdel docs i) un q := by
  refine h.docs (fun d => ?_)
  unfold sendRefsOf
  by_cases e : d = i
  · subst e; rw [tget_tdel_self, hi]; exact hr.symm
  · rw [tget_tdel_other _ e]

/-- References are counted before the entries that they stand for are made (R13). -/
theorem SendOk.owe {o : Owed} {docs : Table Doc} {un : Quad LineUnit} {q : SendQueue} (h : SendOk o docs un q)
    {i : Nat} {r : Doc} (hi : tget docs i = some r) (n : Nat) :
    SendOk { o with refs := fun d => o.refs d + if d = i then n else 0 }
      (tmod docs i (fun x => { x with sendRefs := x.sendRefs + n })) un q := by
  refine ⟨h.1, h.2.1, fun d => ?_, h.2.2.2⟩
  have k := h.2.2.1 d
  rw [sendRefsOf_tmod]
  dsimp only
  by_cases e : d = i
  · subst e
    rw [if_pos rfl, if_pos rfl, hi]
    unfold sendRefsOf at k
    rw [hi] at k
    show r.sendRefs + n = _
    have k : r.sendRefs = openEntries q.entries d + o.refs d := k
    omega
  · rw [if_neg e, if_neg e, k]; rfl

/-! ## Units -/

/-- The units hold the entries they held, or none. -/
theorem SendOk.units {o : Owed} {docs : Table Doc} {un un' : Quad LineUnit} {q : SendQueue} (h : SendOk o docs un q)
    (k : ∀ u, (un'.get u).entry = (un.get u).entry ∨ (un'.get u).entry = none) : SendOk o docs un' q := by
  refine ⟨h.1, h.2.1, h.2.2.1, fun u i hu hi => ?_⟩
  rcases k u with e | e
  · exact h.2.2.2 u i hu (e ▸ hi)
  · rw [e] at hi; cases hi

/-- A unit whose entry has been taken back holds none. -/
theorem SendOk.cleared {o : Owed} {docs : Table Doc} {un un' : Quad LineUnit} {q : SendQueue} {u : UnitId}
    (h : SendOk { o with unit := some u } docs un q) (k0 : (un'.get u).entry = none)
    (k : ∀ v, v ≠ u → (un'.get v).entry = (un.get v).entry) : SendOk { o with unit := none } docs un' q := by
  refine ⟨h.1, h.2.1, h.2.2.1, fun v i _ hi => ?_⟩
  by_cases e : v = u
  · subst e; rw [k0] at hi; cases hi
  · exact h.2.2.2 v i (fun x => e (Option.some.inj x)) (k v e ▸ hi)

/-! ## Entries -/

/-- A change that moves an entry neither into a final state nor out of a call. -/
def DestEntry.Keeps (e e' : DestEntry) : Prop :=
  e'.document = e.document ∧ e'.state.final = e.state.final
    ∧ (e.state = .active → e'.state = .active ∧ e'.unit = e.unit)

theorem DestEntry.Keeps.of_law {e e' : DestEntry} (h : e'.law = e.law) : e.Keeps e' := by
  simp only [DestEntry.law, Prod.mk.injEq] at h
  exact ⟨h.1, by rw [h.2.1], fun k => ⟨h.2.1.trans k, h.2.2⟩⟩

theorem DestEntry.Keeps.of_rests {e e' : DestEntry} (h : e.rests) (k : e'.document = e.document) (r : e'.rests) :
    e.Keeps e' :=
  ⟨k, by rw [r.1, h.1], fun x => absurd x h.2⟩

/-- An entry changes and keeps its document, its place in a call, and whether it is final. -/
theorem SendOk.change {o : Owed} {docs : Table Doc} {un : Quad LineUnit} {q r : SendQueue} (h : SendOk o docs un q)
    (i : Nat) (f : DestEntry → DestEntry) (hf : ∀ e, tget q.entries i = some e → e.Keeps (f e))
    (r1 : r.entries = tmod q.entries i f) (r2 : r.finals = q.finals) : SendOk o docs un r := by
  cases c : tget q.entries i with
  | none => exact ⟨by rw [r1, tmod_absent c]; exact h.1, by unfold FinalsOk; rw [r1, r2, tmod_absent c]; exact h.2.1,
      fun d => by rw [r1, tmod_absent c]; exact h.2.2.1 d, by rw [r1, tmod_absent c]; exact h.2.2.2⟩
  | some e =>
    obtain ⟨f1, f2, f3⟩ := hf e c
    obtain ⟨h1, h2, h3, h4⟩ := h
    have at_i : tget r.entries i = some (f e) := by rw [r1, tget_tmod, if_pos rfl, c]; rfl
    have other : ∀ j, j ≠ i → tget r.entries j = tget q.entries j := fun j hj => by rw [r1, tget_tmod, if_neg hj]
    refine ⟨r1 ▸ tableIn_tmod h1 _ _, ⟨r2 ▸ h2.1, fun j => ?_⟩, fun d => ?_, fun u j hu hj => ?_⟩
    · rw [r2, h2.2 j]
      by_cases k : j = i
      · subst k
        rw [at_i, c]
        simp only [Option.some.injEq, exists_eq_left']
        rw [f2]
      · rw [other j k]
    · rw [h3 d, r1, openEntries_split h1 c, openEntries_mod h1 c]
      unfold DestEntry.counts
      rw [f1, f2]
    · obtain ⟨x, hx, k1, k2⟩ := h4 u j hu hj
      by_cases k : j = i
      · subst k
        rw [c] at hx
        cases hx
        exact ⟨f e, at_i, (f3 k1).1, (f3 k1).2.trans k2⟩
      · exact ⟨x, (other j k).trans hx, k1, k2⟩

theorem tget_map {α : Type} (t : Table α) (f : α → α) (i : Nat) :
    tget (t.map (fun x => (x.1, f x.2))) i = (tget t i).map f := by
  induction t with
  | nil => rfl
  | cons x t ih =>
    obtain ⟨j, a⟩ := x
    show (if j = i then some (f a) else tget (t.map (fun x => (x.1, f x.2))) i) = (if j = i then some a else tget t i).map f
    split
    · rfl
    · exact ih

/-- Every entry changes in what no law speaks of. -/
theorem SendOk.map {o : Owed} {docs : Table Doc} {un : Quad LineUnit} {q r : SendQueue} (h : SendOk o docs un q)
    (f : DestEntry → DestEntry) (hf : ∀ e, (f e).law = e.law) (r1 : r.entries = q.entries.map (fun x => (x.1, f x.2)))
    (r2 : r.finals = q.finals) : SendOk o docs un r := by
  have keep : ∀ e : DestEntry, (f e).document = e.document ∧ (f e).state = e.state ∧ (f e).unit = e.unit := fun e => by
    simpa only [DestEntry.law, Prod.mk.injEq] using hf e
  obtain ⟨h1, h2, h3, h4⟩ := h
  have look : ∀ i, tget r.entries i = (tget q.entries i).map f := fun i => by rw [r1, tget_map]
  refine ⟨tableIn_of_keys h1 (by rw [r1, List.map_map]; rfl), ⟨r2 ▸ h2.1, fun i => ?_⟩, fun d => ?_, fun u i hu hi => ?_⟩
  · rw [r2, h2.2 i, look i]
    cases tget q.entries i with
    | none => simp
    | some e => simp [(keep e).2.1]
  · rw [h3 d, r1]
    unfold openEntries
    rw [List.filter_map, List.length_map]
    congr 2
    refine List.filter_congr (fun x _ => ?_)
    dsimp only [Function.comp]
    rw [(keep x.2).1, (keep x.2).2.1]
  · obtain ⟨e, he, k1, k2⟩ := h4 u i hu hi
    exact ⟨f e, by rw [look i, he]; rfl, (keep e).2.1.trans k1, (keep e).2.2.trans k2⟩

/-- The entry of a unit's call is taken back and waits again (R148, R150): the unit is the one exception. -/
theorem SendOk.takeBack {o : Owed} {docs : Table Doc} {un : Quad LineUnit} {q r : SendQueue} (h : SendOk o docs un q)
    (ho : o.unit = none) {u : UnitId} {i : Nat} {e : DestEntry} (hu : (un.get u).entry = some i)
    (hi : tget q.entries i = some e) (f : DestEntry → DestEntry) (hf : (f e).document = e.document ∧ (f e).rests)
    (r1 : r.entries = tmod q.entries i f) (r2 : r.finals = q.finals) : SendOk { o with unit := some u } docs un r := by
  obtain ⟨h1, h2, h3, h4⟩ := h
  obtain ⟨x, hx, a1, a2⟩ := h4 u i (by rw [ho]; simp) hu
  rw [hi] at hx
  cases hx
  have nf : e.state.final = false := by rw [a1]; rfl
  have at_i : tget r.entries i = some (f e) := by rw [r1, tget_tmod, if_pos rfl, hi]; rfl
  have other : ∀ j, j ≠ i → tget r.entries j = tget q.entries j := fun j hj => by rw [r1, tget_tmod, if_neg hj]
  refine ⟨r1 ▸ tableIn_tmod h1 _ _, ⟨r2 ▸ h2.1, fun j => ?_⟩, fun d => ?_, fun v j hv hj => ?_⟩
  · rw [r2, h2.2 j]
    by_cases k : j = i
    · subst k
      rw [at_i, hi]
      simp only [Option.some.injEq, exists_eq_left']
      rw [nf, hf.2.1]
    · rw [other j k]
  · rw [h3 d, r1, openEntries_split h1 hi, openEntries_mod h1 hi]
    unfold DestEntry.counts
    rw [hf.1, nf, hf.2.1]
  · obtain ⟨y, hy, k1, k2⟩ := h4 v j (by rw [ho]; simp) hj
    have ne : j ≠ i := fun k => by
      subst k
      rw [hi] at hy
      cases hy
      rw [a2] at k2
      exact hv k2.symm
    exact ⟨y, (other j ne).trans hy, k1, k2⟩

/-- An entry reaches a final state: it joins the final list, and its document's count falls (R13, R137). -/
theorem SendOk.finish {o : Owed} {docs docs' : Table Doc} {un : Quad LineUnit} {q r : SendQueue}
    (h : SendOk o docs un q) {i : Nat} {e : DestEntry} (hi : tget q.entries i = some e) (nf : e.state.final = false)
    (f : DestEntry → DestEntry) (hf : (f e).document = e.document ∧ (f e).state.final = true)
    (r1 : r.entries = tmod q.entries i f) (r2 : r.finals = q.finals ++ [i])
    (d1 : docs' = tmod docs e.document (fun x => { x with sendRefs := x.sendRefs - 1 })) (x : Option UnitId)
    (hx : ∀ u, some u ≠ x → some u ≠ o.unit ∧ (un.get u).entry ≠ some i) :
    SendOk { o with unit := x } docs' un r := by
  obtain ⟨h1, h2, h3, h4⟩ := h
  have at_i : tget r.entries i = some (f e) := by rw [r1, tget_tmod, if_pos rfl, hi]; rfl
  have other : ∀ j, j ≠ i → tget r.entries j = tget q.entries j := fun j hj => by rw [r1, tget_tmod, if_neg hj]
  have notin : i ∉ q.finals := fun k => by
    obtain ⟨y, hy, ky⟩ := (h2.2 i).1 k
    rw [hi] at hy
    cases hy
    rw [nf] at ky
    cases ky
  refine ⟨r1 ▸ tableIn_tmod h1 _ _, ⟨?_, fun j => ?_⟩, fun d => ?_, fun v j hv hj => ?_⟩
  · rw [r2, List.nodup_append]
    exact ⟨h2.1, by simp, fun a ha c hc => by rw [List.mem_singleton.1 hc]; exact fun k => notin (k ▸ ha)⟩
  · rw [r2, List.mem_append, List.mem_singleton, h2.2 j]
    by_cases k : j = i
    · subst k
      rw [at_i]
      simp only [Option.some.injEq, exists_eq_left', hf.2, or_true]
    · rw [other j k]
      simp only [k, or_false]
  · have c := h3 d
    rw [openEntries_split h1 hi] at c
    rw [r1, openEntries_mod h1 hi, d1, sendRefsOf_tmod]
    have z : (f e).counts d = 0 := by unfold DestEntry.counts; rw [hf.2]; simp
    rw [z]
    dsimp only
    by_cases k : d = e.document
    · subst k
      have one : e.counts e.document = 1 := by unfold DestEntry.counts; rw [nf]; simp
      rw [one] at c
      rw [if_pos rfl]
      unfold sendRefsOf at c
      cases hd : tget docs e.document with
      | none => rw [hd] at c; dsimp only at c; omega
      | some y =>
        rw [hd] at c
        have c : y.sendRefs = 1 + openEntries (tdel q.entries i) e.document + o.refs e.document := c
        show y.sendRefs - 1 = _
        omega
    · have one : e.counts d = 0 := by
        unfold DestEntry.counts
        rw [show decide (e.document = d) = false from decide_eq_false (fun x => k x.symm)]; rfl
      rw [one] at c
      rw [if_neg k, c]
  · obtain ⟨n1, n2⟩ := hx v hv
    obtain ⟨y, hy, k1, k2⟩ := h4 v j n1 hj
    have ne : j ≠ i := fun k => n2 (k ▸ hj)
    exact ⟨y, (other j ne).trans hy, k1, k2⟩

/-- An entry that no unit names any longer waits again (R148). -/
theorem SendOk.free {o : Owed} {docs : Table Doc} {un : Quad LineUnit} {q r : SendQueue} (h : SendOk o docs un q)
    {i : Nat} {e : DestEntry} (hi : tget q.entries i = some e) (nf : e.state.final = false) (f : DestEntry → DestEntry)
    (hf : (f e).document = e.document ∧ (f e).rests) (r1 : r.entries = tmod q.entries i f) (r2 : r.finals = q.finals)
    (hx : ∀ u, some u ≠ o.unit → (un.get u).entry ≠ some i) : SendOk o docs un r := by
  obtain ⟨h1, h2, h3, h4⟩ := h
  have at_i : tget r.entries i = some (f e) := by rw [r1, tget_tmod, if_pos rfl, hi]; rfl
  have other : ∀ j, j ≠ i → tget r.entries j = tget q.entries j := fun j hj => by rw [r1, tget_tmod, if_neg hj]
  refine ⟨r1 ▸ tableIn_tmod h1 _ _, ⟨r2 ▸ h2.1, fun j => ?_⟩, fun d => ?_, fun v j hv hj => ?_⟩
  · rw [r2, h2.2 j]
    by_cases k : j = i
    · subst k
      rw [at_i, hi]
      simp only [Option.some.injEq, exists_eq_left']
      rw [nf, hf.2.1]
    · rw [other j k]
  · rw [h3 d, r1, openEntries_split h1 hi, openEntries_mod h1 hi]
    unfold DestEntry.counts
    rw [hf.1, nf, hf.2.1]
  · obtain ⟨y, hy, k1, k2⟩ := h4 v j hv hj
    exact ⟨y, (other j (fun k => hx v hv (k ▸ hj))).trans hy, k1, k2⟩

/-- A unit takes a resting entry for a call (R144). -/
theorem SendOk.assign {o : Owed} {docs : Table Doc} {un un' : Quad LineUnit} {q r : SendQueue}
    (h : SendOk o docs un q) {i : Nat} {e : DestEntry} (hi : tget q.entries i = some e) (re : e.rests) (u : UnitId)
    (f : DestEntry → DestEntry) (hf : (f e).document = e.document ∧ (f e).state = .active ∧ (f e).unit = some u)
    (r1 : r.entries = tmod q.entries i f) (r2 : r.finals = q.finals) (hu : (un'.get u).entry = some i)
    (hv : ∀ v, v ≠ u → (un'.get v).entry = (un.get v).entry) : SendOk o docs un' r := by
  obtain ⟨h1, h2, h3, h4⟩ := h
  have at_i : tget r.entries i = some (f e) := by rw [r1, tget_tmod, if_pos rfl, hi]; rfl
  have other : ∀ j, j ≠ i → tget r.entries j = tget q.entries j := fun j hj => by rw [r1, tget_tmod, if_neg hj]
  have nf : (f e).state.final = false := by rw [hf.2.1]; rfl
  refine ⟨r1 ▸ tableIn_tmod h1 _ _, ⟨r2 ▸ h2.1, fun j => ?_⟩, fun d => ?_, fun v j ho hj => ?_⟩
  · rw [r2, h2.2 j]
    by_cases k : j = i
    · subst k
      rw [at_i, hi]
      simp only [Option.some.injEq, exists_eq_left']
      rw [re.1, nf]
    · rw [other j k]
  · rw [h3 d, r1, openEntries_split h1 hi, openEntries_mod h1 hi]
    unfold DestEntry.counts
    rw [hf.1, re.1, nf]
  · by_cases k : v = u
    · subst k
      rw [hu] at hj
      cases hj
      exact ⟨f e, at_i, hf.2.1, hf.2.2⟩
    · rw [hv v k] at hj
      obtain ⟨y, hy, k1, k2⟩ := h4 v j ho hj
      have ne : j ≠ i := fun x => by subst x; rw [hi] at hy; cases hy; exact re.2 k1
      exact ⟨y, (other j ne).trans hy, k1, k2⟩

/-- A new entry takes a free number, or that of the oldest final entry, and one reference is no longer owed
(R139, R140). -/
theorem SendOk.make {o : Owed} {docs : Table Doc} {un : Quad LineUnit} {q r : SendQueue} (h : SendOk o docs un q)
    {i : Nat} (hi : i < 512) (hq : tget q.entries i = none ∨ i ∈ q.finals) (x : DestEntry) (rx : x.rests)
    (own : 1 ≤ o.refs x.document) (r1 : r.entries = tset q.entries i x) (r2 : r.finals = dropNum i q.finals) :
    SendOk { o with refs := fun d => o.refs d - if d = x.document then 1 else 0 } docs un r := by
  obtain ⟨h1, h2, h3, h4⟩ := h
  have at_i : tget r.entries i = some x := by rw [r1, tget_tset]
  have other : ∀ j, j ≠ i → tget r.entries j = tget q.entries j := fun j hj => by rw [r1, tget_tset_other _ _ _ _ hj]
  have cnt : ∀ d, openEntries r.entries d = x.counts d + openEntries q.entries d := by
    intro d
    rw [r1]
    rcases hq with hq | hq
    · exact openEntries_new hq x d
    · obtain ⟨e, he, ke⟩ := (h2.2 i).1 hq
      rw [openEntries_set h1 he, openEntries_split h1 he (d := d)]
      have : e.counts d = 0 := by unfold DestEntry.counts; rw [ke]; simp
      omega
  refine ⟨r1 ▸ tableIn_tset h1 hi _, ⟨r2 ▸ h2.1.filter _, fun j => ?_⟩, fun d => ?_, fun v j hv hj => ?_⟩
  · rw [r2]
    unfold dropNum
    rw [List.mem_filter, h2.2 j]
    by_cases k : j = i
    · subst k
      rw [at_i]
      simp [rx.1]
    · rw [other j k]
      simp [k]
  · have c := h3 d
    rw [cnt d]
    dsimp only
    by_cases k : d = x.document
    · subst k
      have : x.counts x.document = 1 := by unfold DestEntry.counts; rw [rx.1]; simp
      rw [if_pos rfl]
      omega
    · have : x.counts d = 0 := by
        unfold DestEntry.counts
        rw [show decide (x.document = d) = false from decide_eq_false (fun y => k y.symm)]; rfl
      rw [if_neg k]
      omega
  · obtain ⟨y, hy, k1, k2⟩ := h4 v j hv hj
    have ne : j ≠ i := fun k => by
      subst k
      rcases hq with hq | hq
      · rw [hq] at hy; cases hy
      · obtain ⟨e, he, ke⟩ := (h2.2 j).1 hq
        rw [he] at hy
        cases hy
        rw [k1] at ke
        cases ke
    exact ⟨y, (other j ne).trans hy, k1, k2⟩

/-- A final entry becomes free (R140). -/
theorem SendOk.purge {o : Owed} {docs : Table Doc} {un : Quad LineUnit} {q r : SendQueue} (h : SendOk o docs un q)
    {i : Nat} {e : DestEntry} (hi : tget q.entries i = some e) (fe : e.state.final = true)
    (r1 : r.entries = tdel q.entries i) (r2 : r.finals = dropNum i q.finals) : SendOk o docs un r := by
  obtain ⟨h1, h2, h3, h4⟩ := h
  have other : ∀ j, j ≠ i → tget r.entries j = tget q.entries j := fun j hj => by rw [r1, tget_tdel_other _ hj]
  refine ⟨r1 ▸ tableIn_tdel h1 _, ⟨r2 ▸ h2.1.filter _, fun j => ?_⟩, fun d => ?_, fun v j hv hj => ?_⟩
  · rw [r2]
    unfold dropNum
    rw [List.mem_filter, h2.2 j]
    by_cases k : j = i
    · subst k
      rw [r1, tget_tdel_self]
      simp
    · rw [other j k]
      simp [k]
  · have : e.counts d = 0 := by unfold DestEntry.counts; rw [fe]; simp
    rw [h3 d, r1, openEntries_split h1 hi, this, Nat.zero_add]
  · obtain ⟨y, hy, k1, k2⟩ := h4 v j hv hj
    have ne : j ≠ i := fun k => by subst k; rw [hi] at hy; cases hy; rw [k1] at fe; cases fe
    exact ⟨y, (other j ne).trans hy, k1, k2⟩

/-- The Send Queue after a reset or a Setup Block: no entry, and no unit holds one (R137). -/
theorem sendOk_empty {un : Quad LineUnit} {q : SendQueue} (h1 : q.entries = []) (h2 : q.finals = [])
    (hu : ∀ u, (un.get u).entry = none) : SendOk Owed.nothing [] un q := by
  refine ⟨h1 ▸ tableIn_nil _, ⟨by rw [h2]; exact List.nodup_nil, fun i => ?_⟩, fun d => ?_, fun u i _ hi => ?_⟩
  · rw [h1, h2]; simp [tget]
  · rw [h1]; rfl
  · rw [hu u] at hi; cases hi

/-! ## Charge Log (R192) -/

/-- The number of the units that satisfy a test. -/
theorem allUnits_count (p : UnitId → Bool) :
    (allUnits.filter p).length = (p .lu0).toNat + (p .lu1).toNat + (p .lu2).toNat + (p .lu3).toNat := by
  unfold allUnits
  simp only [List.filter_cons, List.filter_nil]
  cases p .lu0 <;> cases p .lu1 <;> cases p .lu2 <;> cases p .lu3 <;> rfl

/-- One unit fewer satisfies a test. -/
theorem allUnits_fewer {p q : UnitId → Bool} {u : UnitId} (h : ∀ v, q v = true → p v = true) (hp : p u = true)
    (hq : q u = false) : (allUnits.filter q).length + 1 ≤ (allUnits.filter p).length := by
  rw [allUnits_count, allUnits_count]
  have le : ∀ v, (q v).toNat ≤ (p v).toNat := fun v => by
    have := h v
    cases hq : q v <;> cases hp : p v <;> simp_all
  have a := le .lu0
  have b := le .lu1
  have c := le .lu2
  have d := le .lu3
  cases u <;> (rw [hp, hq] at *; simp only [Bool.toNat_true, Bool.toNat_false]; omega)

/-- The units may charge no more than they might. -/
theorem ChargeOk.units {un un' : Quad LineUnit} {m m' : Meter} (h : ChargeOk un m)
    (k : ∀ u, mayCharge un' m'.recs u = true → mayCharge un m.recs u = true) (h1 : m'.producer = m.producer)
    (h2 : m'.consumer = m.consumer) (h3 : m'.logSize = m.logSize) (h4 : m'.overflow = m.overflow)
    (h5 : ∀ u, (m'.recs.get u).isSome = true → (un'.get u).metered = true)
    (h6 : m'.releases ≤ m.releases := by exact Nat.le_refl _) : ChargeOk un' m' := by
  obtain ⟨a, b, c, _⟩ := h
  have room : m'.logRoom = m.logRoom := by unfold Meter.logRoom Meter.unread; rw [h1, h2, h3]
  refine ⟨by rw [h1, h2, h3]; exact a, by rw [h4, room]; exact b, ?_, h5⟩
  rw [h4]
  have : (allUnits.filter (mayCharge un' m'.recs)).length ≤ (allUnits.filter (mayCharge un m.recs)).length :=
    (List.monotone_filter_right allUnits (fun u hu => k u hu)).length_le
  omega

theorem allUnits_filter_le (p : UnitId → Bool) : (allUnits.filter p).length ≤ 4 :=
  List.length_filter_le p allUnits

/-- With no record waiting, four units leave the bound. -/
theorem ChargeOk.empty {un un' : Quad LineUnit} {m m' : Meter} (h : ChargeOk un m) (e : m'.overflow = [])
    (w : m'.work = []) (h1 : m'.producer = m.producer) (h2 : m'.consumer = m.consumer) (h3 : m'.logSize = m.logSize)
    (h5 : ∀ u, (m'.recs.get u).isSome = true → (un'.get u).metered = true) : ChargeOk un' m' := by
  refine ⟨by rw [h1, h2, h3]; exact h.1, fun k => absurd e k, ?_, h5⟩
  have none : m'.releases = 0 := by unfold Meter.releases; rw [w]; rfl
  rw [e, none]
  simpa using allUnits_filter_le _

end Sys2Proof.Machine
end

