-- ==== Sys2Proof/Laws/Calm.lean ====
section
/-! SUPPORT. Two relations between the state before and after an operation, and how they compose. Every
shared operation of the model has its lemma about one of them in the other files of this folder. -/

namespace Sys2Proof.Machine

open Sys2Proof

/-- What only a reset or the taking of a Setup Block changes, and the queue of waiting commands. -/
structure Fixed (s t : State) : Prop where
  pending : t.pending = s.pending
  memSize : t.memSize = s.memSize
  cause : t.cause = s.cause
  settings : t.settings = s.settings
  regions : t.path.regions = s.path.regions
  base : t.store.base = s.store.base
  blockCount : t.store.blockCount = s.store.blockCount

/-- An operation that leaves page memory, the part state and the clock as they are, and keeps the laws. -/
structure Calm (s t : State) : Prop where
  fixed : Fixed s t
  mem : t.mem = s.mem
  part : t.part = s.part
  clock : t.meter.clock = s.meter.clock
  steady : ∀ o, s.Steady o → t.Steady o

/-- An operation that keeps the laws. -/
structure Kept (s t : State) : Prop where
  fixed : Fixed s t
  safe : s.Safe → t.Safe

theorem Fixed.refl (s : State) : Fixed s s := ⟨rfl, rfl, rfl, rfl, rfl, rfl, rfl⟩

theorem Fixed.trans {s t u : State} (h : Fixed s t) (k : Fixed t u) : Fixed s u :=
  ⟨k.pending.trans h.pending, k.memSize.trans h.memSize, k.cause.trans h.cause, k.settings.trans h.settings,
   k.regions.trans h.regions, k.base.trans h.base, k.blockCount.trans h.blockCount⟩

theorem Calm.refl (s : State) : Calm s s := ⟨Fixed.refl s, rfl, rfl, rfl, fun _ x => x⟩

theorem Calm.trans {s t u : State} (h : Calm s t) (k : Calm t u) : Calm s u :=
  ⟨h.fixed.trans k.fixed, k.mem.trans h.mem, k.part.trans h.part, k.clock.trans h.clock,
   fun o x => k.steady o (h.steady o x)⟩

/-- The same with the later step first. -/
theorem Calm.after {s t u : State} (k : Calm t u) (h : Calm s t) : Calm s u := h.trans k

theorem Kept.refl (s : State) : Kept s s := ⟨Fixed.refl s, id⟩

theorem Kept.trans {s t u : State} (h : Kept s t) (k : Kept t u) : Kept s u :=
  ⟨h.fixed.trans k.fixed, fun x => k.safe (h.safe x)⟩

theorem Calm.kept {s t : State} (h : Calm s t) : Kept s t :=
  ⟨h.fixed, fun x => ⟨h.mem ▸ x.1, h.clock ▸ x.2.1, h.steady _ x.2.2⟩⟩

/-- A step that is calm after one that keeps the laws. -/
theorem Kept.calm {s t u : State} (h : Kept s t) (k : Calm t u) : Kept s u := h.trans k.kept

/-- An update of the fields that no law speaks of, or that keeps the laws it touches. -/
theorem calm_mk {t : State} {p : MemPath} {i : Intake} {r : Reporter} {st : PageStore} {co : Coder}
    {sc : Scanner} {un : Quad LineUnit} {sq : SendQueue} {sn : Screen} {pr : PrintEngine} {me : Meter}
    (h1 : p.regions = t.path.regions) (h2 : t.path.Lawful → p.Lawful) (h3 : i.expected = t.intake.expected)
    (h4 : t.reporter.Lawful → r.Lawful) (h5 : st.base = t.store.base)
    (h6 : st.blockCount = t.store.blockCount) (h7 : sc.buffer.length = t.scanner.buffer.length)
    (h8 : me.clock = t.meter.clock) (h9 : t.store.Lawful → st.Lawful := by exact fun h => h)
    (h10 : tableIn 64 t.print.entries → tableIn 64 pr.entries := by exact fun h => h)
    (h11 : tableIn 64 t.print.entries → PrintRefsOk t.store.docs t.print.entries → PrintRefsOk st.docs pr.entries :=
      by exact fun _ h => h)
    (h12 : t.screen.Lawful → sn.Lawful := by exact fun h => h)
    (h13 : ∀ o, SendOk o t.store.docs t.units t.sendq → SendOk o st.docs un sq := by exact fun _ h => h)
    (h14 : ChargeOk t.units t.meter → ChargeOk un me := by exact fun h => h) :
    Calm t ⟨t.mem, t.memSize, t.cause, t.part, t.settings, p, i, r, st, co, sc, un, sq, sn, pr, me, t.pending⟩ := by
  refine ⟨⟨rfl, rfl, rfl, rfl, h1, h5, h6⟩, rfl, rfl, h8, fun o x => ?_⟩
  obtain ⟨a, b, c, d, e, f, g, k, l, m⟩ := x
  exact ⟨h2 a, h3.symm ▸ b, h4 c, h7.symm ▸ d, h9 e, h10 f, h11 f g, h12 k, h13 o l, h14 m⟩

/-- An operation repeated for each number of a list. -/
theorem calm_eachNum (l : List Nat) (f : Nat → State → State) (s : State) (h : ∀ n t, Calm t (f n t)) :
    Calm s (eachNum l f s) := by
  unfold eachNum
  induction l generalizing s with
  | nil => exact Calm.refl s
  | cons n l ih => exact (h n s).trans (ih (f n s))

/-- An operation repeated for each unit. -/
theorem calm_eachUnit (f : UnitId → State → State) (s : State) (h : ∀ u t, Calm t (f u t)) :
    Calm s (eachUnit f s) :=
  (((h .lu0 s).trans (h .lu1 _)).trans (h .lu2 _)).trans (h .lu3 _)

/-! ## The pending-write queue -/

theorem enqueue_lawful {p : MemPath} {w : PendingWrite} (h : p.Lawful) (k : w.Lawful) :
    (p.enqueue w).Lawful := by
  obtain ⟨a, b, c, d⟩ := h
  unfold MemPath.enqueue
  split
  · rename_i e
    obtain ⟨e1, e2⟩ := e
    have e2 : p.queue.length < 16 := e2
    refine ⟨?_, ?_, ?_, d⟩
    · simp; omega
    · intro x; exact absurd e1 x
    · intro x hx
      simp only [e1, List.append_nil, List.mem_append, List.mem_singleton] at hx
      rcases hx with hx | hx
      · exact c x (List.mem_append_left _ hx)
      · exact hx ▸ k
  · rename_i e
    refine ⟨a, ?_, ?_, d⟩
    · intro _
      show p.queue.length = 16
      by_cases hw : p.waiting = []
      · have : ¬ p.queue.length < 16 := fun x => e ⟨hw, x⟩
        omega
      · exact b hw
    · intro x hx
      simp only [List.mem_append, List.mem_singleton] at hx
      rcases hx with hx | hx | hx
      · exact c x (List.mem_append_left _ hx)
      · exact c x (List.mem_append_right _ hx)
      · exact hx ▸ k

@[simp] theorem enqueue_regions (p : MemPath) (w : PendingWrite) : (p.enqueue w).regions = p.regions := by
  unfold MemPath.enqueue; split <;> rfl

theorem splitWrite_lawful (n : Nat) (a : Nat) (bs : List Byte) :
    ∀ x ∈ splitWrite n a bs, 1 ≤ x.2.length ∧ x.2.length ≤ 64 ∧ x.1 % 4096 + x.2.length ≤ 4096 := by
  induction n generalizing a bs with
  | zero => intro x hx; simp [splitWrite] at hx
  | succ n ih =>
    intro x hx
    cases bs with
    | nil => simp [splitWrite] at hx
    | cons b t =>
      simp only [splitWrite, List.mem_cons] at hx
      rcases hx with hx | hx
      · subst hx
        have h1 : a % 4096 < 4096 := Nat.mod_lt _ (by decide)
        simp only [List.length_take, List.length_cons, Config.writeBytes, Config.memPage]
        omega
      · exact ih _ _ x hx

theorem issue_lawful {p : MemPath} (h : p.Lawful) (blk : Block) (a : Nat) (bs : List Byte) (c : Option Nat) :
    (p.issue blk a bs c).Lawful := by
  unfold MemPath.issue
  have key := splitWrite_lawful bs.length a bs
  revert key
  generalize splitWrite bs.length a bs = l
  intro key
  induction l generalizing p with
  | nil => exact h
  | cons x l ih =>
    exact ih (enqueue_lawful h (key x List.mem_cons_self)) (fun y hy => key y (List.mem_cons_of_mem _ hy))

@[simp] theorem issue_regions (p : MemPath) (blk : Block) (a : Nat) (bs : List Byte) (c : Option Nat) :
    (p.issue blk a bs c).regions = p.regions := by
  unfold MemPath.issue
  generalize splitWrite bs.length a bs = l
  induction l generalizing p with
  | nil => rfl
  | cons x l ih => exact (ih _).trans (enqueue_regions _ _)

theorem calm_issue (s : State) (blk : Block) (a : Nat) (bs : List Byte) : Calm s (s.issue blk a bs) :=
  calm_mk (issue_regions _ _ _ _ _) (fun h => issue_lawful h _ _ _ _) rfl id rfl rfl rfl rfl

/-! ## Updates of one field -/

/-- A change of a unit that keeps its entry or drops it, does not begin an outgoing call, and leaves an answered
call answered. -/
def UnitOk (f : LineUnit → LineUnit) : Prop :=
  ∀ l, ((f l).entry = l.entry ∨ (f l).entry = none) ∧ ((f l).calling = true → l.calling = true)
    ∧ (l.metered = true → (f l).metered = true)

theorem quad_set_get {α : Type} (q : Quad α) (u v : UnitId) (a : α) :
    (q.set u a).get v = if v = u then a else q.get v := by
  cases u <;> cases v <;> rfl

theorem calm_post (s : State) (blk : Block) (e : Event) : Calm s (s.post blk e) :=
  calm_mk rfl id rfl id rfl rfl rfl rfl

/-- A unit changes, with the conditions asked of the unit as it stands. -/
theorem calm_modUnitAt (s : State) (u : UnitId) (f : LineUnit → LineUnit)
    (h1 : (f (s.unit u)).entry = (s.unit u).entry ∨ (f (s.unit u)).entry = none)
    (h2 : (f (s.unit u)).calling = true → (s.unit u).calling = true)
    (h3 : (s.unit u).metered = true → ChargeOk s.units s.meter →
      (f (s.unit u)).metered = true ∨ s.meter.recs.get u = none) : Calm s (s.modUnit u f) := by
  have look : ∀ v, ((s.modUnit u f).units.get v) = if v = u then f (s.unit u) else s.units.get v :=
    fun v => quad_set_get _ _ _ _
  unfold State.modUnit at look
  dsimp only at look
  refine calm_mk rfl id rfl id rfl rfl rfl rfl (h13 := fun o x => x.units (fun v => ?_))
    (h14 := fun x => x.units (fun v hv => ?_) rfl rfl rfl rfl (fun v hv => ?_))
  · rw [look v]
    split
    · rename_i e; subst e; exact h1
    · exact .inl rfl
  · unfold mayCharge at hv ⊢
    rw [look v] at hv
    split at hv
    · rename_i e
      subst e
      rcases Bool.or_eq_true_iff.1 hv with k | k
      · rw [show (s.units.get v).calling = true from h2 k, Bool.true_or]
      · rw [k, Bool.or_true]
    · exact hv
  · have old := x.2.2.2 v hv
    rw [look v]
    split
    · rename_i e
      subst e
      rcases h3 old x with k | k
      · exact k
      · rw [k] at hv; exact absurd hv Bool.false_ne_true
    · exact old

theorem calm_modUnit (s : State) (u : UnitId) (f : LineUnit → LineUnit) (h : UnitOk f) : Calm s (s.modUnit u f) :=
  calm_modUnitAt s u f (h _).1 (h _).2.1 (fun k _ => .inl ((h _).2.2 k))

theorem calm_sendLink (s : State) (u : UnitId) (m : LinkMsg) : Calm s (s.sendLink u m) :=
  calm_modUnit _ _ _ (fun _ => ⟨.inl rfl, fun h => h, fun h => h⟩)
theorem calm_modWindow (s : State) (w : WindowId) (f : Window → Window) : Calm s (s.modWindow w f) :=
  calm_mk rfl (fun h => h) rfl id rfl rfl rfl rfl
theorem calm_modSource (s : State) (i : SourceId) (f : Source → Source) : Calm s (s.modSource i f) := by
  cases i <;> exact calm_mk rfl id rfl id rfl rfl rfl rfl
theorem calm_modDoc (s : State) (d : Nat) (f : Doc → Doc) (h : ∀ x, (f x).holds = x.holds) : Calm s (s.modDoc d f) := by
  have k : ∀ x, (f x).pages = x.pages ∧ (f x).sendRefs = x.sendRefs ∧ (f x).printRefs = x.printRefs := fun x => by
    simpa only [Doc.holds, Prod.mk.injEq] using h x
  exact calm_mk rfl id rfl id rfl rfl rfl rfl (h9 := fun x => lawful_modDoc x d f (fun y => (k y).1))
    (h11 := fun _ x => printRefs_modDoc x d f (fun y => (k y).2.2)) (h13 := fun _ x => x.modDoc d f (fun y => (k y).2.1))
theorem calm_modPage (s : State) (p : Nat) (f : PageRec → PageRec) (h : ∀ x, (f x).links = x.links) :
    Calm s (s.modPage p f) :=
  calm_mk rfl id rfl id rfl rfl rfl rfl (h9 := fun x => lawful_modPage x p f h)
theorem calm_modEntry (s : State) (i : Nat) (f : DestEntry → DestEntry) (h : ∀ x, (f x).law = x.law) :
    Calm s (s.modEntry i f) :=
  calm_mk rfl id rfl id rfl rfl rfl rfl (h13 := fun _ x => x.change i f (fun _ _ => .of_law (h _)) rfl rfl)

/-- An entry changes and keeps its document, its place in a call, and whether it is final. -/
theorem calm_changeEntry (s : State) (i : Nat) (f : DestEntry → DestEntry)
    (h : tableIn 512 s.sendq.entries → ∀ e, s.entry i = some e → e.Keeps (f e)) : Calm s (s.modEntry i f) :=
  calm_mk rfl id rfl id rfl rfl rfl rfl (h13 := fun _ x => x.change i f (h x.1) rfl rfl)
theorem calm_modPrintEntry (s : State) (i : Nat) (f : PrintEntry → PrintEntry) (h : ∀ x, (f x).document = x.document) :
    Calm s (s.modPrintEntry i f) :=
  calm_mk rfl id rfl id rfl rfl rfl rfl (h10 := fun x => tableIn_tmod x _ _)
    (h11 := fun _ x => printRefs_modEntry x i f h)
theorem calm_modDesk (s : State) (d : Nat) (f : Desk → Desk) : Calm s (s.modDesk d f) :=
  calm_mk rfl id rfl id rfl rfl rfl rfl
theorem calm_setCell (s : State) (d : Nat) (c : StoreCell) : Calm s (s.setCell d c) :=
  calm_mk rfl id rfl id rfl rfl rfl rfl
theorem calm_modScreen (s : State) (f : Screen → Screen) (h : s.screen.Lawful → (f s.screen).Lawful) :
    Calm s (s.modScreen f) :=
  calm_mk rfl id rfl id rfl rfl rfl rfl (h12 := h)
theorem calm_sendScanner (s : State) (m : ScannerMsg) : Calm s (s.sendScanner m) :=
  calm_mk rfl id rfl id rfl rfl rfl rfl
theorem calm_sendPrinter (s : State) (m : PrinterMsg) : Calm s (s.sendPrinter m) :=
  calm_mk rfl id rfl id rfl rfl rfl rfl
theorem calm_putGuard (s : State) (g : GuardArea) (r : GuardRec) : Calm s (s.putGuard g r) :=
  calm_mk rfl (fun h => h) rfl id rfl rfl rfl rfl

/-- A meter record that is in use changes. -/
theorem calm_setMeterRec (s : State) (u : UnitId) (r : Option MeterRec) (h : (s.meter.recs.get u).isSome = true) :
    Calm s (s.setMeterRec u r) := by
  refine calm_mk rfl id rfl id rfl rfl rfl rfl
    (h14 := fun x => x.units (fun v hv => ?_) rfl rfl rfl rfl (fun v hv => ?_))
  · unfold mayCharge at hv ⊢
    dsimp only at hv
    rw [quad_set_get] at hv
    split at hv
    · rename_i e; subst e; rw [h, Bool.or_true]
    · exact hv
  · dsimp only at hv
    rw [quad_set_get] at hv
    split at hv
    · rename_i e; subst e; exact x.2.2.2 v h
    · exact x.2.2.2 v hv

end Sys2Proof.Machine
end

