-- ==== Sys2Proof/Laws/CalmStore.lean ====
section
/-! SUPPORT. The operations of the Page Store, the Print Engine and the Scanner Port are calm. -/

set_option linter.unusedTactic false
set_option linter.unreachableTactic false
set_option Elab.async false

namespace Sys2Proof.Machine

open Sys2Proof

theorem calm_allocBlock_eq {s t : State} {p : Nat} (h : s.allocBlock p = some t) : Calm s t := by
  unfold State.allocBlock at h
  split at h
  · rename_i b rest r hf hr
    cases h
    refine calm_mk rfl id rfl id rfl rfl rfl rfl (h9 := fun x => ?_)
    have n : r.blocks ≠ 0 := by
      have := (x.2.2.2.1 _ (mem_of_tget hr)).1
      dsimp only at this
      omega
    simp only [n, if_false]
    exact lawful_grow x hf hr rfl rfl rfl rfl rfl rfl rfl rfl rfl
  · cases h

/-- Blocks returned: the free list and the link entries, and the sources that wait for a block. -/
theorem returnBlocks_eq (s : State) (bs : List Nat) :
    s.returnBlocks bs = { s with
      store := { s.store with free := s.store.free ++ bs, links := bs.foldl (fun l b => tdel l b) s.store.links },
      coder := (s.returnBlocks bs).coder } := by
  unfold State.returnBlocks
  split
  · rename_i e; subst e; simp
  · rfl

theorem calm_wakeAll (s : State) (c : WaitCause) : Calm s (s.wakeAll c) := by
  unfold State.wakeAll; try dsimp only
  repeat' (first
    | with_reducible apply Calm.refl
    | with_reducible rfl
    | with_reducible apply Calm.after (calm_mk ?_ ?_ ?_ ?_ ?_ ?_ ?_ ?_ ?_ ?_ ?_ ?_ ?_ ?_)
    | rfl
    | exact fun h => h
    | exact fun _ h => h)

theorem calm_openPage_eq {s t : State} {d p : Nat} {w : Width} {v : Resolution} (h : s.openPage d w v = .opened p t) :
    Calm s t := by
  unfold State.openPage at h
  split at h
  · cases h
  · rename_i r hr
    split at h
    · cases h
    · rename_i hd
      split at h
      · cases h
      · split at h
        · cases h
        · rename_i q hq
          split at h
          · cases h
          · dsimp only at h
            split at h
            · rename_i s2 ha
              cases h
              unfold State.allocBlock at ha
              split at ha
              · rename_i b rest x hf hx
                have hx : tget (tset s.store.pages p _) p = some x := hx
                rw [tget_tset] at hx
                cases hx
                cases ha
                refine calm_mk rfl id rfl id rfl rfl rfl rfl (h9 := fun y => ?_) (h11 := fun _ y => ?_)
                  (h13 := fun _ y => ?_)
                · exact lawful_open y hf hq hr (by unfold Config.docPages at hd; omega) rfl rfl rfl rfl rfl rfl rfl rfl rfl
                · dsimp only; exact printRefs_modDoc y d _ (fun _ => rfl)
                · dsimp only; exact y.modDoc d _ (fun _ => rfl)
              · cases ha
            · cases h

theorem calm_placeBytes (n : Nat) (blk : Block) (p : Nat) (bs : List Byte) (s : State) :
    Calm s (placeBytes n blk p bs s).2 := by
  induction n generalizing bs s with
  | zero => exact Calm.refl s
  | succ n ih =>
    cases bs with
    | nil => exact Calm.refl s
    | cons b bs =>
      unfold placeBytes
      split
      · exact Calm.refl s
      · rename_i r0 _
        dsimp only
        split
        · exact Calm.refl s
        · rename_i s1 h1
          have c1 : Calm s s1 := by
            by_cases hc : r0.coded = r0.blocks * Config.blockBytes
            · rw [if_pos hc] at h1; exact calm_allocBlock_eq h1
            · rw [if_neg hc] at h1; cases h1; exact Calm.refl s
          split
          · exact c1
          · exact ((c1.trans (calm_issue _ _ _ _)).trans (calm_modPage _ _ _ (fun _ => by rfl))).trans (ih _ _)

theorem calm_place_eq {s t : State} {blk : Block} {p : Nat} {bs left : List Byte}
    (h : s.place blk p bs = (left, t)) : Calm s t := by
  have := calm_placeBytes (bs.length + 1) blk p bs s
  unfold State.place at h
  rw [h] at this
  exact this

theorem calm_finishSeal (s : State) (p : Nat) : Calm s (s.finishSeal p) := by
  unfold State.finishSeal; try dsimp only
  repeat' (first
    | with_reducible apply Calm.refl
    | (split <;> try dsimp only)
    | with_reducible apply Calm.after (calm_modPage _ _ _ ?_)
    | with_reducible apply Calm.after (calm_modDoc _ _ _ ?_)
    | with_reducible apply Calm.after (calm_post _ _ _)
    | with_reducible rfl
    | with_reducible apply Calm.after (calm_mk ?_ ?_ ?_ ?_ ?_ ?_ ?_ ?_ ?_ ?_ ?_ ?_ ?_ ?_)
    | rfl
    | exact fun h => h
    | exact fun _ h => h
    | exact fun _ => rfl)

theorem calm_abandonPage (s : State) (p : Nat) : Calm s (s.abandonPage p) := by
  unfold State.abandonPage
  split
  · exact Calm.refl s
  · rename_i r hr
    dsimp only
    refine Calm.trans ?_ (calm_wakeAll _ _)
    rw [returnBlocks_eq]
    exact calm_mk rfl id rfl id rfl rfl rfl rfl (h9 := fun x => lawful_abandon x hr rfl rfl rfl rfl rfl)
      (h11 := fun _ x => by dsimp only; exact printRefs_modDoc x _ _ (fun _ => rfl)) (h13 := fun _ x => by dsimp only; exact x.modDoc _ _ (fun _ => rfl))

/-- A document with no reference left is freed (R14). -/
theorem calm_freeDoc (s : State) (d : Nat) (h : ∀ r, s.doc d = some r → r.sendRefs = 0 ∧ r.printRefs = 0) :
    Calm s (s.freeDoc d) := by
  unfold State.freeDoc
  split
  · exact Calm.refl s
  · rename_i r hr
    dsimp only
    refine Calm.trans ?_ (calm_post _ _ _)
    have k : Calm s { s.returnBlocks (s.blocksOf r.pages) with
        store := { (s.returnBlocks (s.blocksOf r.pages)).store with
          pages := r.pages.foldl (fun t p => tdel t p) (s.returnBlocks (s.blocksOf r.pages)).store.pages,
          docs := tdel (s.returnBlocks (s.blocksOf r.pages)).store.docs d } } := by
      rw [returnBlocks_eq]
      exact calm_mk rfl id rfl id rfl rfl rfl rfl (h9 := fun x => lawful_free x hr rfl rfl rfl rfl rfl)
        (h11 := fun _ x => printRefs_dropDoc x hr (h r hr).2) (h13 := fun _ x => x.dropDoc hr (h r hr).1)
    split
    · exact k
    · exact k.trans (calm_wakeAll _ _)

theorem calm_testFree (s : State) (d : Nat) : Calm s (s.testFree d) := by
  unfold State.testFree
  split
  · exact Calm.refl s
  · rename_i r hr
    split
    · rename_i hf
      refine calm_freeDoc s d (fun x hx => ?_)
      rw [hr] at hx
      cases hx
      unfold Doc.freeable at hf
      have := of_decide_eq_true hf
      exact ⟨this.2.1, this.2.2.1⟩
    · exact Calm.refl s

/-- A print entry leaves the queue with its reference (R13). -/
theorem calm_printDone (s : State) (i : Nat) (r : PrintReason) : Calm s (s.printDone i r) := by
  unfold State.printDone
  split
  · exact Calm.refl s
  · rename_i e he
    unfold State.dropPrintRef
    refine Calm.trans ?_ (calm_testFree _ _)
    exact calm_mk rfl id rfl id rfl rfl rfl rfl
      (h9 := fun x => lawful_modDoc x _ _ (fun _ => by rfl)) (h10 := fun x => tableIn_tdel x i)
      (h11 := fun z x => printRefs_drop x z he) (h13 := fun _ x => by dsimp only; exact x.modDoc _ _ (fun _ => rfl))

theorem calm_openDoc_eq {s t : State} {o : Origin} {k d : Nat} {st : Option Text}
    (h : s.openDoc o k st = some (d, t)) : Calm s t := by
  unfold State.openDoc at h
  split at h
  · cases h
  · rename_i d hd
    cases h
    exact calm_mk rfl id rfl id rfl rfl rfl rfl (h9 := fun x => lawful_newDoc x hd _ rfl)
      (h11 := fun _ x => printRefs_newDoc x hd _ rfl) (h13 := fun _ x => x.newDoc hd _ rfl)

theorem calm_markClosed (s : State) (d : Nat) (truncated : Bool) : Calm s (s.markClosed d truncated) := by
  unfold State.markClosed; try dsimp only
  repeat' (first
    | with_reducible apply Calm.refl
    | (split <;> try dsimp only)
    | with_reducible apply Calm.after (calm_modDoc _ _ _ ?_)
    | with_reducible apply Calm.after (calm_post _ _ _)
    | with_reducible rfl
    | with_reducible apply Calm.after (calm_mk ?_ ?_ ?_ ?_ ?_ ?_ ?_ ?_ ?_ ?_ ?_ ?_ ?_ ?_)
    | rfl
    | exact fun h => h
    | exact fun _ h => h
    | exact fun _ => rfl)

theorem calm_recomputePrinter (s : State) (abandoned : Option (Nat × Nat × Nat)) : Calm s (s.recomputePrinter abandoned) := by
  unfold State.recomputePrinter; try dsimp only
  repeat' (first
    | with_reducible apply Calm.refl
    | (split <;> try dsimp only)
    | with_reducible apply Calm.after (calm_post _ _ _)
    | with_reducible rfl
    | with_reducible apply Calm.after (calm_mk ?_ ?_ ?_ ?_ ?_ ?_ ?_ ?_ ?_ ?_ ?_ ?_ ?_ ?_)
    | rfl
    | exact fun h => h
    | exact fun _ h => h)

theorem calm_sheetOut (s : State) : Calm s (s.sheetOut) := by
  unfold State.sheetOut; try dsimp only
  repeat' (first
    | with_reducible apply Calm.refl
    | with_reducible apply Calm.after (calm_sendPrinter _ _)
    | with_reducible rfl
    | with_reducible apply Calm.after (calm_mk ?_ ?_ ?_ ?_ ?_ ?_ ?_ ?_ ?_ ?_ ?_ ?_ ?_ ?_)
    | rfl
    | exact fun h => h
    | exact fun _ h => h)

/-- What the sending of a head line does to the Print Engine (R171, R172). -/
@[simp] theorem State.sendHeadLine_print (s : State) (ts : List Nat) (d : PrintDecoder) :
    (s.sendHeadLine ts d).print = { s.print with
      out := s.print.out ++ [.headLine (headDots d.width ts)
        (strobeDuty s.print.strobeBase s.print.strobeSlope s.print.temperature)],
      sheet := .lineInFlight, position := s.print.position + 1, ref := ts, decoder := some d } := rfl

theorem calm_sendHeadLine (s : State) (ts : List Nat) (d : PrintDecoder) : Calm s (s.sendHeadLine ts d) :=
  (calm_sendPrinter s _).trans (calm_mk rfl id rfl id rfl rfl rfl rfl)

/-- What the Print Engine does with a sheet started and no line in flight: nothing, SHEET OUT, or a head line while the
printer state is PRINTING (R61, R172, R173). -/
theorem advanceSheet_cases (s : State) :
    s.advanceSheet = s ∨ s.advanceSheet = s.sheetOut
    ∨ ∃ d ts d', s.print.decoder = some d ∧ s.headHeld d = false ∧ s.nextHeadLine d = some (ts, d')
      ∧ s.print.state = .printing ∧ s.advanceSheet = s.sendHeadLine ts d' := by
  unfold State.advanceSheet
  split
  · exact .inl rfl
  · rename_i d hd
    split
    · exact .inl rfl
    · rename_i hh
      split
      · exact .inr (.inl rfl)
      · rename_i ts d' hn
        split
        · rename_i hp
          exact .inr (.inr ⟨d, ts, d', hd, by simpa using hh, hn, hp, rfl⟩)
        · exact .inl rfl

theorem calm_advanceSheet (s : State) : Calm s (s.advanceSheet) := by
  obtain h | h | ⟨d, ts, d', -, -, -, -, h⟩ := advanceSheet_cases s <;> rw [h]
  · exact Calm.refl _
  · exact calm_sheetOut s
  · exact calm_sendHeadLine s ts d'

theorem calm_startSheet (s : State) (p : Nat) (r : PageRec) : Calm s (s.startSheet p r) := by
  unfold State.startSheet; try dsimp only
  repeat' (first
    | with_reducible apply Calm.refl
    | with_reducible apply Calm.after (calm_advanceSheet _)
    | with_reducible apply Calm.after (calm_sendPrinter _ _)
    | with_reducible rfl
    | with_reducible apply Calm.after (calm_mk ?_ ?_ ?_ ?_ ?_ ?_ ?_ ?_ ?_ ?_ ?_ ?_ ?_ ?_)
    | rfl
    | exact fun h => h
    | exact fun _ h => h)

theorem calm_printSelect (s : State) : Calm s (s.printSelect) := by
  unfold State.printSelect; try dsimp only
  repeat' (first
    | with_reducible apply Calm.refl
    | (split <;> try dsimp only)
    | with_reducible apply Calm.after (calm_startSheet _ _ _)
    | with_reducible apply Calm.after (calm_recomputePrinter _ _)
    | (dsimp only; exact fun h => tableIn_tmod h _ _)
    | (dsimp only; exact fun _ h => printRefs_modEntry h _ _ (fun _ => rfl))
    | with_reducible rfl
    | with_reducible apply Calm.after (calm_mk ?_ ?_ ?_ ?_ ?_ ?_ ?_ ?_ ?_ ?_ ?_ ?_ ?_ ?_)
    | rfl
    | exact fun h => h
    | exact fun _ h => h)

theorem calm_endCopy (s : State) (i : Nat) : Calm s (s.endCopy i) := by
  unfold State.endCopy; try dsimp only
  repeat' (first
    | with_reducible apply Calm.refl
    | (split <;> try dsimp only)
    | with_reducible apply Calm.after (calm_printSelect _)
    | with_reducible apply Calm.after (calm_printDone _ _ _)
    | with_reducible apply Calm.after (calm_recomputePrinter _ _)
    | with_reducible apply Calm.after (calm_modPrintEntry _ _ _ ?_)
    | with_reducible rfl
    | with_reducible apply Calm.after (calm_mk ?_ ?_ ?_ ?_ ?_ ?_ ?_ ?_ ?_ ?_ ?_ ?_ ?_ ?_)
    | rfl
    | exact fun h => h
    | exact fun _ h => h
    | exact fun _ => rfl)

theorem calm_beginPrintPage (s : State) : Calm s (s.beginPrintPage) := by
  unfold State.beginPrintPage; try dsimp only
  repeat' (first
    | with_reducible apply Calm.refl
    | (split <;> try dsimp only)
    | with_reducible apply Calm.after (calm_endCopy _ _)
    | with_reducible apply Calm.after (calm_startSheet _ _ _)
    | with_reducible rfl)

theorem calm_resumePrinter (s : State) : Calm s (s.resumePrinter) := by
  unfold State.resumePrinter; try dsimp only
  repeat' (first
    | with_reducible apply Calm.refl
    | (split <;> try dsimp only)
    | with_reducible apply Calm.after (calm_beginPrintPage _)
    | with_reducible apply Calm.after (calm_printSelect _)
    | with_reducible apply Calm.after (calm_advanceSheet _)
    | with_reducible rfl)

theorem calm_finishEmpty (s : State) (i : Nat) : Calm s (s.finishEmpty i) := by
  unfold State.finishEmpty; try dsimp only
  repeat' (first
    | with_reducible apply Calm.refl
    | with_reducible apply Calm.after (calm_printDone _ _ _)
    | with_reducible apply Calm.after (calm_modPrintEntry _ _ _ ?_)
    | with_reducible rfl
    | with_reducible apply Calm.after (calm_mk ?_ ?_ ?_ ?_ ?_ ?_ ?_ ?_ ?_ ?_ ?_ ?_ ?_ ?_)
    | rfl
    | exact fun h => h
    | exact fun _ h => h
    | exact fun _ => rfl)

theorem calm_rereadCurrent (s : State) (d : Nat) (q : Option Nat) : Calm s (s.rereadCurrent d q) := by
  unfold State.rereadCurrent; try dsimp only
  repeat' (first
    | with_reducible apply Calm.refl
    | (split <;> try dsimp only)
    | with_reducible apply Calm.after (calm_beginPrintPage _)
    | with_reducible rfl)

theorem calm_sealPage (s : State) (p : Nat) : Calm s (s.sealPage p) := by
  unfold State.sealPage; try dsimp only
  repeat' (first
    | with_reducible apply Calm.refl
    | (split <;> try dsimp only)
    | with_reducible apply Calm.after (calm_rereadCurrent _ _ _)
    | with_reducible apply Calm.after (calm_printSelect _)
    | with_reducible apply Calm.after (calm_finishSeal _ _)
    | with_reducible rfl)

theorem calm_closeDocument (s : State) (d : Nat) (truncated : Bool) : Calm s (s.closeDocument d truncated) := by
  unfold State.closeDocument; try dsimp only
  repeat' (first
    | with_reducible apply Calm.refl
    | (split <;> try dsimp only)
    | with_reducible apply Calm.after (calm_rereadCurrent _ _ _)
    | with_reducible apply Calm.after (calm_finishEmpty _ _)
    | with_reducible apply Calm.after (calm_printSelect _)
    | with_reducible apply Calm.after (calm_markClosed _ _ _)
    | with_reducible apply Calm.after (calm_testFree _ _)
    | with_reducible refine Calm.trans ?_ (calm_eachNum _ _ _ (fun n t => ?_))
    | with_reducible rfl
    | with_reducible apply Calm.after (calm_mk ?_ ?_ ?_ ?_ ?_ ?_ ?_ ?_ ?_ ?_ ?_ ?_ ?_ ?_)
    | rfl
    | exact fun h => h
    | exact fun _ h => h)

/-- A print entry made for a document in use (R13). -/
theorem calm_makePrintEntry_eq {s t : State} {d c i : Nat} {p : PrintPriority}
    (h : s.makePrintEntry d c p = some (i, t)) (k : (s.doc d).isSome = true) : Calm s t := by
  unfold State.makePrintEntry at h
  obtain ⟨r, hr⟩ := Option.isSome_iff_exists.1 k
  split at h
  · cases h
  · rename_i hj
    cases h
    refine Calm.trans ?_ (calm_printSelect _)
    dsimp only
    have made : ∀ e : PrintEntry, e.document = d → Calm s
        (State.modDoc { s with print := { s.print with
            arrivals := s.print.arrivals + 1, entries := tset s.print.entries i e } } d
          (fun r => { r with printRefs := r.printRefs + 1 })) := by
      intro e he
      subst he
      exact calm_mk rfl id rfl id rfl rfl rfl rfl
        (h9 := fun x => lawful_modDoc x _ _ (fun _ => by rfl)) (h10 := fun x => tableIn_tset x (lowestFree_spec hj).1 e)
        (h11 := fun _ x => printRefs_add x hj e hr) (h13 := fun _ x => by dsimp only; exact x.modDoc _ _ (fun _ => rfl))
    split
    · exact (made _ (by rfl)).trans (calm_finishEmpty _ _)
    · exact made _ (by rfl)

theorem calm_requestPrint (s : State) (d copies : Nat) (p : PrintPriority) (k : (s.doc d).isSome = true) :
    Calm s (s.requestPrint d copies p) := by
  unfold State.requestPrint
  split
  · rename_i h; exact calm_makePrintEntry_eq h k
  · exact calm_modDoc _ _ _ (fun _ => by rfl)

theorem calm_endPrintNow (s : State) (i : Nat) : Calm s (s.endPrintNow i) := by
  unfold State.endPrintNow; try dsimp only
  repeat' (first
    | with_reducible apply Calm.refl
    | with_reducible apply Calm.after (calm_printSelect _)
    | with_reducible apply Calm.after (calm_printDone _ _ _)
    | with_reducible apply Calm.after (calm_recomputePrinter _ _)
    | with_reducible rfl)

theorem calm_cancelPrintEntry (s : State) (i : Nat) : Calm s (s.cancelPrintEntry i) := by
  unfold State.cancelPrintEntry; try dsimp only
  repeat' (first
    | with_reducible apply Calm.refl
    | (split <;> try dsimp only)
    | with_reducible apply Calm.after (calm_endPrintNow _ _)
    | with_reducible apply Calm.after (calm_sheetOut _)
    | with_reducible apply Calm.after (calm_modPrintEntry _ _ _ ?_)
    | with_reducible rfl
    | with_reducible apply Calm.after (calm_mk ?_ ?_ ?_ ?_ ?_ ?_ ?_ ?_ ?_ ?_ ?_ ?_ ?_ ?_)
    | rfl
    | exact fun h => h
    | exact fun _ h => h
    | exact fun _ => rfl)

theorem calm_takeTemperature (s : State) (t : Nat) : Calm s (s.takeTemperature t) := by
  unfold State.takeTemperature; try dsimp only
  repeat' (first
    | with_reducible apply Calm.refl
    | (split <;> try dsimp only)
    | with_reducible apply Calm.after (calm_recomputePrinter _ _)
    | with_reducible rfl
    | with_reducible apply Calm.after (calm_mk ?_ ?_ ?_ ?_ ?_ ?_ ?_ ?_ ?_ ?_ ?_ ?_ ?_ ?_)
    | rfl
    | exact fun h => h
    | exact fun _ h => h)

theorem calm_lineDone (s : State) (t : Nat) : Calm s (s.lineDone t) := by
  unfold State.lineDone; try dsimp only
  repeat' (first
    | with_reducible apply Calm.refl
    | (split <;> try dsimp only)
    | with_reducible apply Calm.after (calm_takeTemperature _ _)
    | with_reducible apply Calm.after (calm_resumePrinter _)
    | with_reducible apply Calm.after (calm_advanceSheet _)
    | with_reducible apply Calm.after (calm_sheetOut _)
    | with_reducible rfl
    | with_reducible apply Calm.after (calm_mk ?_ ?_ ?_ ?_ ?_ ?_ ?_ ?_ ?_ ?_ ?_ ?_ ?_ ?_)
    | rfl
    | exact fun h => h
    | exact fun _ h => h)

theorem calm_takeTemp (s : State) (t : Nat) : Calm s (s.takeTemp t) := by
  unfold State.takeTemp; try dsimp only
  repeat' (first
    | with_reducible apply Calm.refl
    | (split <;> try dsimp only)
    | with_reducible apply Calm.after (calm_takeTemperature _ _)
    | with_reducible apply Calm.after (calm_resumePrinter _)
    | with_reducible rfl)

theorem calm_sheetDone (s : State) : Calm s (s.sheetDone) := by
  unfold State.sheetDone; try dsimp only
  split
  · exact Calm.refl _
  · split
    · refine Calm.trans ?_ (calm_printSelect _)
      refine Calm.trans ?_ (calm_recomputePrinter _ _)
      exact calm_mk rfl id rfl id rfl rfl rfl rfl
    · split
      · exact calm_mk rfl id rfl id rfl rfl rfl rfl
      · split
        · refine Calm.trans ?_ (calm_endPrintNow _ _)
          refine Calm.trans ?_ (calm_modPrintEntry _ _ _ (fun _ => by rfl))
          exact calm_mk rfl id rfl id rfl rfl rfl rfl
        · refine Calm.trans ?_ (calm_beginPrintPage _)
          refine Calm.trans ?_ (calm_modPrintEntry _ _ _ (fun _ => by rfl))
          refine Calm.trans ?_ (calm_modPrintEntry _ _ _ (fun _ => by rfl))
          exact calm_mk rfl id rfl id rfl rfl rfl rfl

theorem calm_printerLevelLow (s : State) : Calm s (s.printerLevelLow) := by
  unfold State.printerLevelLow; try dsimp only
  repeat' (first
    | with_reducible apply Calm.refl
    | (split <;> try dsimp only)
    | with_reducible apply Calm.after (calm_endPrintNow _ _)
    | with_reducible apply Calm.after (calm_recomputePrinter _ _)
    | with_reducible rfl
    | with_reducible apply Calm.after (calm_mk ?_ ?_ ?_ ?_ ?_ ?_ ?_ ?_ ?_ ?_ ?_ ?_ ?_ ?_)
    | rfl
    | exact fun h => h
    | exact fun _ h => h)

theorem calm_paperChange (s : State) (high : Bool) : Calm s (s.paperChange high) := by
  unfold State.paperChange; try dsimp only
  repeat' (first
    | with_reducible apply Calm.refl
    | (split <;> try dsimp only)
    | with_reducible apply Calm.after (calm_printerLevelLow _)
    | with_reducible apply Calm.after (calm_resumePrinter _)
    | with_reducible apply Calm.after (calm_recomputePrinter _ _)
    | with_reducible rfl
    | with_reducible apply Calm.after (calm_mk ?_ ?_ ?_ ?_ ?_ ?_ ?_ ?_ ?_ ?_ ?_ ?_ ?_ ?_)
    | rfl
    | exact fun h => h
    | exact fun _ h => h)

theorem calm_coverChange (s : State) (high : Bool) : Calm s (s.coverChange high) := by
  unfold State.coverChange; try dsimp only
  repeat' (first
    | with_reducible apply Calm.refl
    | (split <;> try dsimp only)
    | with_reducible apply Calm.after (calm_printerLevelLow _)
    | with_reducible apply Calm.after (calm_resumePrinter _)
    | with_reducible apply Calm.after (calm_recomputePrinter _ _)
    | with_reducible rfl
    | with_reducible apply Calm.after (calm_mk ?_ ?_ ?_ ?_ ?_ ?_ ?_ ?_ ?_ ?_ ?_ ?_ ?_ ?_)
    | rfl
    | exact fun h => h
    | exact fun _ h => h)

theorem calm_flashAlert (s : State) : Calm s (s.flashAlert) := by
  unfold State.flashAlert; try dsimp only
  repeat' (first
    | with_reducible apply Calm.refl
    | with_reducible rfl
    | with_reducible apply Calm.after (calm_mk ?_ ?_ ?_ ?_ ?_ ?_ ?_ ?_ ?_ ?_ ?_ ?_ ?_ ?_)
    | rfl
    | exact fun h => h
    | exact fun _ h => h)

theorem calm_patternTimer (s : State) (p : Pattern) : Calm s (s.patternTimer p) := by
  unfold State.patternTimer; try dsimp only
  repeat' (first
    | with_reducible apply Calm.refl
    | (split <;> try dsimp only)
    | with_reducible rfl
    | with_reducible apply Calm.after (calm_mk ?_ ?_ ?_ ?_ ?_ ?_ ?_ ?_ ?_ ?_ ?_ ?_ ?_ ?_)
    | rfl
    | exact fun h => h
    | exact fun _ h => h)

theorem calm_restartPrint (s : State) : Calm s (s.restartPrint) := by
  unfold State.restartPrint; try dsimp only
  repeat' (first
    | with_reducible apply Calm.refl
    | (split <;> try dsimp only)
    | with_reducible apply Calm.after (calm_printSelect _)
    | with_reducible apply Calm.after (calm_sheetOut _)
    | with_reducible apply Calm.after (calm_printDone _ _ _)
    | with_reducible apply Calm.after (calm_recomputePrinter _ _)
    | with_reducible refine Calm.trans ?_ (calm_eachNum _ _ _ (fun n t => ?_))
    | with_reducible rfl
    | with_reducible apply Calm.after (calm_mk ?_ ?_ ?_ ?_ ?_ ?_ ?_ ?_ ?_ ?_ ?_ ?_ ?_ ?_)
    | rfl
    | exact fun h => h
    | exact fun _ h => h)

theorem calm_beginSource_eq {s t : State} {i : SourceId} {d : Nat} {w : Width} {v : Resolution} {r : Option OpenRefusal}
    (h : s.beginSource i d w v = (r, t)) : Calm s t := by
  unfold State.beginSource at h
  split at h
  · cases h; exact Calm.refl _
  · cases h; exact (calm_openPage_eq (by assumption)).trans (calm_modSource _ _ _)

theorem calm_abandonSource (s : State) (i : SourceId) : Calm s (s.abandonSource i) := by
  unfold State.abandonSource; try dsimp only
  repeat' (first
    | with_reducible apply Calm.refl
    | (split <;> try dsimp only)
    | with_reducible apply Calm.after (calm_abandonPage _ _)
    | with_reducible apply Calm.after (calm_modSource _ _ _)
    | with_reducible rfl)

theorem calm_postScanState (s : State) (c : Scanner) (t : ScanState) (r : ScanReason) : Calm s (s.postScanState c t r) := by
  unfold State.postScanState; try dsimp only
  repeat' (first
    | with_reducible apply Calm.refl
    | with_reducible apply Calm.after (calm_post _ _ _)
    | with_reducible rfl)

theorem calm_closeScanner (s : State) (t : ScanState) (c : Scanner) :
    Calm s { s with scanner := c.close t } := by
  refine ⟨⟨rfl, rfl, rfl, rfl, rfl, rfl, rfl⟩, rfl, rfl, rfl, fun o x => ?_⟩
  exact ⟨x.1, x.2.1, x.2.2.1, rfl, x.2.2.2.2⟩

theorem calm_endScan (s : State) (t : ScanState) (r : ScanReason) (truncated : Bool) : Calm s (s.endScan t r truncated) := by
  unfold State.endScan; try dsimp only
  repeat' (first
    | with_reducible apply Calm.refl
    | (split <;> try dsimp only)
    | with_reducible apply Calm.after (calm_postScanState _ _ _ _)
    | with_reducible apply Calm.after (calm_abandonSource _ _)
    | with_reducible apply Calm.after (calm_closeDocument _ _ _)
    | with_reducible apply Calm.after (calm_closeScanner _ _ _)
    | with_reducible rfl
    | with_reducible apply Calm.after (calm_mk ?_ ?_ ?_ ?_ ?_ ?_ ?_ ?_ ?_ ?_ ?_ ?_ ?_ ?_)
    | rfl
    | exact fun h => h
    | exact fun _ h => h)

theorem calm_beginSheetPage (s : State) : Calm s (s.beginSheetPage) := by
  unfold State.beginSheetPage; try dsimp only
  repeat' (first
    | with_reducible apply Calm.refl
    | (split <;> try dsimp only)
    | with_reducible apply Calm.after (calm_endScan _ _ _ _)
    | with_reducible apply Calm.after (calm_beginSource_eq ‹_›)
    | with_reducible apply Calm.after (calm_modSource _ _ _)
    | with_reducible apply Calm.after (calm_closeScanner _ _ _)
    | with_reducible rfl
    | with_reducible apply Calm.after (calm_mk ?_ ?_ ?_ ?_ ?_ ?_ ?_ ?_ ?_ ?_ ?_ ?_ ?_ ?_)
    | rfl
    | exact fun h => h
    | exact fun _ h => h)

theorem calm_scanRetry (s : State) : Calm s (s.scanRetry) := by
  unfold State.scanRetry; try dsimp only
  repeat' (first
    | with_reducible apply Calm.refl
    | (split <;> try dsimp only)
    | with_reducible apply Calm.after (calm_beginSheetPage _)
    | with_reducible apply Calm.after (calm_closeScanner _ _ _)
    | with_reducible rfl)

theorem calm_storeLine (s : State) (n : Nat) (dots : List Bool) : Calm s (s.storeLine n dots) := by
  unfold State.storeLine; try dsimp only
  repeat' (first
    | with_reducible apply Calm.refl
    | (split <;> try dsimp only)
    | with_reducible apply Calm.after (calm_modSource _ _ _)
    | exact List.length_set
    | with_reducible apply Calm.after (calm_closeScanner _ _ _)
    | with_reducible rfl
    | with_reducible apply Calm.after (calm_mk ?_ ?_ ?_ ?_ ?_ ?_ ?_ ?_ ?_ ?_ ?_ ?_ ?_ ?_)
    | rfl
    | exact fun h => h
    | exact fun _ h => h)

theorem calm_startSheetIfFeeding (s : State) : Calm s (s.startSheetIfFeeding) := by
  unfold State.startSheetIfFeeding; try dsimp only
  repeat' (first
    | with_reducible apply Calm.refl
    | (split <;> try dsimp only)
    | with_reducible apply Calm.after (calm_beginSheetPage _)
    | exact List.length_set
    | with_reducible apply Calm.after (calm_closeScanner _ _ _)
    | with_reducible rfl
    | with_reducible apply Calm.after (calm_mk ?_ ?_ ?_ ?_ ?_ ?_ ?_ ?_ ?_ ?_ ?_ ?_ ?_ ?_)
    | rfl
    | exact fun h => h
    | exact fun _ h => h)

theorem calm_scanOverrun (s : State) : Calm s (s.scanOverrun) := by
  unfold State.scanOverrun; try dsimp only
  repeat' (first
    | with_reducible apply Calm.refl
    | exact List.length_set
    | with_reducible apply Calm.after (calm_closeScanner _ _ _)
    | with_reducible rfl
    | with_reducible apply Calm.after (calm_mk ?_ ?_ ?_ ?_ ?_ ?_ ?_ ?_ ?_ ?_ ?_ ?_ ?_ ?_)
    | rfl
    | exact fun h => h
    | exact fun _ h => h)

theorem pauseIfFull_buffer (c : Scanner) : c.pauseIfFull.buffer = c.buffer := by
  unfold Scanner.pauseIfFull; split <;> rfl

theorem calm_takeScanLine (s : State) (dots : List Bool) : Calm s (s.takeScanLine dots) := by
  unfold State.takeScanLine; try dsimp only
  repeat' (first
    | with_reducible apply Calm.refl
    | (split <;> try dsimp only)
    | with_reducible apply Calm.after (calm_scanOverrun _)
    | with_reducible apply Calm.after (calm_startSheetIfFeeding _)
    | with_reducible apply Calm.after (calm_storeLine _ _ _)
    | exact congrArg List.length (pauseIfFull_buffer _)
    | with_reducible apply Calm.after (calm_closeScanner _ _ _)
    | with_reducible rfl
    | with_reducible apply Calm.after (calm_mk ?_ ?_ ?_ ?_ ?_ ?_ ?_ ?_ ?_ ?_ ?_ ?_ ?_ ?_)
    | rfl
    | exact fun h => h
    | exact fun _ h => h)

theorem calm_takeSheetEnd (s : State) : Calm s (s.takeSheetEnd) := by
  unfold State.takeSheetEnd; try dsimp only
  repeat' (first
    | with_reducible apply Calm.refl
    | (split <;> try dsimp only)
    | with_reducible apply Calm.after (calm_endScan _ _ _ _)
    | with_reducible apply Calm.after (calm_modSource _ _ _)
    | exact congrArg List.length (pauseIfFull_buffer _)
    | with_reducible apply Calm.after (calm_closeScanner _ _ _)
    | with_reducible rfl
    | with_reducible apply Calm.after (calm_mk ?_ ?_ ?_ ?_ ?_ ?_ ?_ ?_ ?_ ?_ ?_ ?_ ?_ ?_)
    | rfl
    | exact fun h => h
    | exact fun _ h => h)

theorem calm_takeModeAck (s : State) : Calm s (s.takeModeAck) := by
  unfold State.takeModeAck; try dsimp only
  repeat' (first
    | with_reducible apply Calm.refl
    | (split <;> try dsimp only)
    | exact congrArg List.length (pauseIfFull_buffer _)
    | with_reducible apply Calm.after (calm_closeScanner _ _ _)
    | with_reducible rfl
    | with_reducible apply Calm.after (calm_mk ?_ ?_ ?_ ?_ ?_ ?_ ?_ ?_ ?_ ?_ ?_ ?_ ?_ ?_)
    | rfl
    | exact fun h => h
    | exact fun _ h => h)

theorem calm_clearJammed (s : State) : Calm s (s.clearJammed) := by
  unfold State.clearJammed; try dsimp only
  repeat' (first
    | with_reducible apply Calm.refl
    | with_reducible apply Calm.after (calm_post _ _ _)
    | exact congrArg List.length (pauseIfFull_buffer _)
    | with_reducible apply Calm.after (calm_closeScanner _ _ _)
    | with_reducible rfl
    | with_reducible apply Calm.after (calm_mk ?_ ?_ ?_ ?_ ?_ ?_ ?_ ?_ ?_ ?_ ?_ ?_ ?_ ?_)
    | rfl
    | exact fun h => h
    | exact fun _ h => h)

theorem calm_sheetPresentChange (s : State) (high : Bool) : Calm s (s.sheetPresentChange high) := by
  unfold State.sheetPresentChange; try dsimp only
  repeat' (first
    | with_reducible apply Calm.refl
    | (split <;> try dsimp only)
    | with_reducible apply Calm.after (calm_clearJammed _)
    | with_reducible apply Calm.after (calm_endScan _ _ _ _)
    | exact congrArg List.length (pauseIfFull_buffer _)
    | with_reducible apply Calm.after (calm_closeScanner _ _ _)
    | with_reducible rfl
    | with_reducible apply Calm.after (calm_mk ?_ ?_ ?_ ?_ ?_ ?_ ?_ ?_ ?_ ?_ ?_ ?_ ?_ ?_)
    | rfl
    | exact fun h => h
    | exact fun _ h => h)

theorem calm_jamChange (s : State) (high : Bool) : Calm s (s.jamChange high) := by
  unfold State.jamChange; try dsimp only
  repeat' (first
    | with_reducible apply Calm.refl
    | (split <;> try dsimp only)
    | with_reducible apply Calm.after (calm_clearJammed _)
    | with_reducible apply Calm.after (calm_endScan _ _ _ _)
    | with_reducible apply Calm.after (calm_post _ _ _)
    | exact congrArg List.length (pauseIfFull_buffer _)
    | with_reducible apply Calm.after (calm_closeScanner _ _ _)
    | with_reducible rfl
    | with_reducible apply Calm.after (calm_mk ?_ ?_ ?_ ?_ ?_ ?_ ?_ ?_ ?_ ?_ ?_ ?_ ?_ ?_)
    | rfl
    | exact fun h => h
    | exact fun _ h => h)

theorem calm_freeBufferLine (s : State) (n : Nat) : Calm s (s.freeBufferLine n) := by
  unfold State.freeBufferLine; dsimp only
  refine calm_mk rfl id rfl id rfl rfl ?_ rfl
  split <;> exact List.length_set

theorem calm_scanSealed (s : State) (last : Bool) : Calm s (s.scanSealed last) := by
  unfold State.scanSealed; try dsimp only
  repeat' (first
    | with_reducible apply Calm.refl
    | (split <;> try dsimp only)
    | with_reducible apply Calm.after (calm_endScan _ _ _ _)
    | with_reducible apply Calm.after (calm_closeScanner _ _ _)
    | with_reducible rfl
    | with_reducible apply Calm.after (calm_mk ?_ ?_ ?_ ?_ ?_ ?_ ?_ ?_ ?_ ?_ ?_ ?_ ?_ ?_)
    | rfl
    | exact fun h => h
    | exact fun _ h => h)

end Sys2Proof.Machine
end

