-- ==== Sys2Proof/Laws/CalmCalls.lean ====
section
/-! SUPPORT. The operations of the Meter, the Send Queue and the call around a session are calm. -/

set_option linter.unusedTactic false
set_option linter.unreachableTactic false
set_option Elab.async false

namespace Sys2Proof.Machine

open Sys2Proof

/-- What the writing of a charge record changes: the pending-write queue and the producer index. -/
theorem writeCharge_eq (s : State) (c : ChargeRecord) : ∃ p : MemPath,
    s.writeCharge c = { s with path := p, meter := { s.meter with producer := s.meter.producer + 1 } }
    ∧ p.regions = s.path.regions ∧ (s.path.Lawful → p.Lawful) :=
  ⟨(s.path.issue .meter (s.meter.logBase + (s.meter.producer.toNat % s.meter.logSize) * 64) c.record none).issue .meter
      (s.controlWord 0x80C) (leBytes 4 (s.meter.producer + 1).toNat) none, by unfold State.writeCharge State.issue; rfl,
   (issue_regions _ _ _ _ _).trans (issue_regions _ _ _ _ _),
   fun h => issue_lawful (issue_lawful h _ _ _ _) _ _ _ _⟩

/-- One more unread record fits a log that had room. -/
theorem unread_succ {p c : Word} {n : Nat} (h : (p - c).toNat < n) : (p + 1 - c).toNat ≤ n := by
  have e : p + 1 - c = (p - c) + 1 := by bv_omega
  rw [e, BitVec.toNat_add]
  have : (1 : Word).toNat = 1 := rfl
  rw [this]
  exact (Nat.mod_le _ _).trans h

/-- What the placing of a charge record changes, and what it leaves (R192). -/
theorem placeCharge_spec (s : State) (c : ChargeRecord) : ∃ (p : MemPath) (x : Word) (o : List ChargeRecord),
    s.placeCharge c = { s with path := p, meter := { s.meter with producer := x, overflow := o } }
    ∧ p.regions = s.path.regions ∧ (s.path.Lawful → p.Lawful)
    ∧ ((s.meter.producer - s.meter.consumer).toNat ≤ s.meter.logSize → (x - s.meter.consumer).toNat ≤ s.meter.logSize)
    ∧ o.length ≤ s.meter.overflow.length + 1
    ∧ ((s.meter.overflow ≠ [] → s.meter.logRoom = false) → o ≠ [] → ¬ (x - s.meter.consumer).toNat < s.meter.logSize) := by
  unfold State.placeCharge
  split
  · rename_i room
    obtain ⟨p, e, hr, hl⟩ := writeCharge_eq s c
    exact ⟨p, _, s.meter.overflow, e, hr, hl, fun _ => unread_succ (of_decide_eq_true room.2), Nat.le_succ _,
      fun _ k => absurd room.1 k⟩
  · rename_i full
    refine ⟨s.path, s.meter.producer, s.meter.overflow ++ [c], rfl, rfl, id, id, by simp, fun h _ lt => ?_⟩
    by_cases k : s.meter.overflow = []
    · exact full ⟨k, decide_eq_true lt⟩
    · have := h k
      unfold Meter.logRoom Meter.unread at this
      exact of_decide_eq_false this lt

/-- A charge record is formed, and with it one that was still to come is accounted for (R187, R192): a meter record is
no longer in use, or a waiting release is done. -/
theorem calm_formed (s : State) (c : ChargeRecord) (i : Nat) (f : DestEntry → DestEntry) (rs : Quad (Option MeterRec))
    (ws : List MeterWork) (hf : ∀ e, (f e).law = e.law)
    (old : ∀ v, (rs.get v).isSome = true → (s.meter.recs.get v).isSome = true)
    (few : ChargeOk s.units s.meter → (ws.filter MeterWork.forms).length
        + (allUnits.filter (mayCharge s.units rs)).length + 1
      ≤ s.meter.releases + (allUnits.filter (mayCharge s.units s.meter.recs)).length) :
    Calm s { (s.placeCharge c).modEntry i f with
      meter := { ((s.placeCharge c).modEntry i f).meter with recs := rs, work := ws } } := by
  obtain ⟨p, x, o, e, hr, hl, k1, k2, k3⟩ := placeCharge_spec s c
  rw [e]
  refine calm_mk hr hl rfl id rfl rfl rfl rfl (h13 := fun o x => x.change i f (fun _ _ => .of_law (hf _)) rfl rfl)
    (h14 := fun y => ⟨k1 y.1, fun z => decide_eq_false (k3 y.2.1 z), ?_, fun v hv => y.2.2.2 v (old v hv)⟩)
  have l := few y
  have m := y.2.2.1
  show o.length + (ws.filter MeterWork.forms).length + (allUnits.filter (mayCharge s.units rs)).length ≤ 4
  omega

/-- A unit whose meter record is no longer in use may form one record fewer (R192). -/
theorem mayCharge_fewer {un : Quad LineUnit} {m : Meter} (k : ChargeOk un m) {u : UnitId}
    (h : (m.recs.get u).isSome = true) :
    (allUnits.filter (mayCharge un (m.recs.set u none))).length + 1 ≤ (allUnits.filter (mayCharge un m.recs)).length := by
  have idle : (un.get u).calling = false := by
    have m := k.2.2.2 u h
    unfold LineUnit.metered at m
    have st : (un.get u).state = .inSession := of_decide_eq_true (Bool.and_eq_true_iff.1 m).1
    unfold LineUnit.calling
    rw [st]
  refine allUnits_fewer (u := u) (fun v hv => ?_) ?_ ?_
  · unfold mayCharge at hv ⊢
    rcases Bool.or_eq_true_iff.1 hv with k | k
    · rw [k, Bool.true_or]
    · rw [quad_set_get] at k
      split at k
      · exact absurd k Bool.false_ne_true
      · rw [k, Bool.or_true]
  · unfold mayCharge; rw [h, Bool.or_true]
  · unfold mayCharge; rw [idle, quad_set_get, if_pos rfl]; rfl

/-- Only a meter record that was in use is in use once another is not. -/
theorem recs_old {q : Quad (Option MeterRec)} {u v : UnitId} (h : ((q.set u none).get v).isSome = true) :
    (q.get v).isSome = true := by
  rw [quad_set_get] at h
  split at h
  · exact absurd h Bool.false_ne_true
  · exact h

/-- What draining the overflow queue changes, and what it leaves (R192). -/
theorem drainOverflow_spec (l : List ChargeRecord) (s : State) : ∃ (p : MemPath) (x : Word) (o : List ChargeRecord),
    drainOverflow l s = { s with path := p, meter := { s.meter with producer := x, overflow := o } }
    ∧ p.regions = s.path.regions ∧ (s.path.Lawful → p.Lawful)
    ∧ ((s.meter.producer - s.meter.consumer).toNat ≤ s.meter.logSize → (x - s.meter.consumer).toNat ≤ s.meter.logSize)
    ∧ o.length ≤ l.length ∧ (o ≠ [] → ¬ (x - s.meter.consumer).toNat < s.meter.logSize) := by
  induction l generalizing s with
  | nil => exact ⟨s.path, s.meter.producer, [], rfl, rfl, id, id, Nat.le_refl _, fun k => absurd rfl k⟩
  | cons c l ih =>
    unfold drainOverflow
    split
    · rename_i room
      obtain ⟨p, e, hr, hl⟩ := writeCharge_eq s c
      obtain ⟨q, x, o, e2, hr2, hl2, k1, k2, k3⟩ := ih (s.writeCharge c)
      rw [e2]
      rw [e] at hr2 hl2 k1 k3 ⊢
      refine ⟨q, x, o, rfl, hr2.trans hr, fun z => hl2 (hl z), fun _ => k1 ?_, Nat.le_succ_of_le k2, k3⟩
      exact unread_succ (of_decide_eq_true room)
    · rename_i full
      refine ⟨s.path, s.meter.producer, c :: l, rfl, rfl, id, id, Nat.le_refl _, fun _ k => ?_⟩
      exact full (decide_eq_true k)


theorem calm_queueBurn (s : State) (d : Nat) (r : BurnReason) : Calm s (s.queueBurn d r) := by
  unfold State.queueBurn; try dsimp only
  repeat' (first
    | with_reducible apply Calm.refl
    | (split <;> try dsimp only)
    | with_reducible rfl
    | with_reducible apply Calm.after (calm_mk ?_ ?_ ?_ ?_ ?_ ?_ ?_ ?_ ?_ ?_ ?_ ?_ ?_ ?_)
    | rfl
    | exact fun h => h
    | exact fun _ h => h)

theorem calm_startBurn (s : State) : Calm s (s.startBurn) := by
  unfold State.startBurn; try dsimp only
  repeat' (first
    | with_reducible apply Calm.refl
    | (split <;> try dsimp only)
    | with_reducible apply Calm.after (calm_setCell _ _ _)
    | with_reducible apply Calm.after (calm_modDesk _ _ _)
    | with_reducible rfl
    | with_reducible apply Calm.after (calm_mk ?_ ?_ ?_ ?_ ?_ ?_ ?_ ?_ ?_ ?_ ?_ ?_ ?_ ?_)
    | rfl
    | exact fun h => h
    | exact fun _ h => h)

theorem calm_chargeTests (s : State) (d : Nat) : Calm s (s.chargeTests d) := by
  unfold State.chargeTests; try dsimp only
  repeat' (first
    | with_reducible apply Calm.refl
    | (split <;> try dsimp only)
    | with_reducible apply Calm.after (calm_startBurn _)
    | with_reducible apply Calm.after (calm_queueBurn _ _ _)
    | with_reducible rfl)

/-- A READY entry becomes HELD (R145). -/
theorem calm_holdEntry (s : State) (i : Nat) (h : tableIn 512 s.sendq.entries → ∀ e, s.entry i = some e → e.rests) :
    Calm s (s.holdEntry i) := by
  have k : Calm s (s.modEntry i (fun x => { x with state := .held, heldReported := true })) :=
    calm_changeEntry _ _ _ (fun t e he => .of_rests (h t e he) rfl ⟨rfl, nofun⟩)
  unfold State.holdEntry
  split
  · exact Calm.refl s
  · dsimp only
    split
    · exact k
    · exact k.trans (calm_post _ _ _)

theorem calm_testDesk (s : State) (i : Nat) : Calm s (s.testDesk i) := by
  unfold State.testDesk
  split
  · exact Calm.refl s
  · rename_i e he
    split
    · rename_i c
      refine calm_holdEntry s i (fun _ x hx => ?_)
      rw [he] at hx
      cases hx
      exact ⟨by rw [c.1]; rfl, by rw [c.1]; nofun⟩
    · exact Calm.refl s

/-- An entry that waits becomes READY (R139, R141). -/
theorem calm_becomeReady (s : State) (i : Nat) (h : tableIn 512 s.sendq.entries → ∀ e, s.entry i = some e → e.rests) :
    Calm s (s.becomeReady i) := by
  unfold State.becomeReady
  dsimp only
  refine Calm.trans ?_ (calm_testDesk _ _)
  have k : Calm s (s.modEntry i (fun e => { e with state := .ready, readyTime := s.sendq.readySeq, countdown := 0 })) :=
    calm_changeEntry _ _ _ (fun t e he => .of_rests (h t e he) rfl ⟨rfl, nofun⟩)
  exact k.trans (calm_mk rfl id rfl id rfl rfl rfl rfl)

/-- The entry as the hand-over leaves it (R144). -/
def DestEntry.handed (e : DestEntry) (u : UnitId) (z : Nat) : DestEntry :=
  { e with state := .active, attempts := e.attempts + 1, zone := some z, unit := some u, countdown := 0,
           lastResult := none, attemptCharge := 0 }

theorem handOver_units (s : State) (u : UnitId) (i : Nat) (e : DestEntry) :
    ((s.handOver u i e).units.get u).entry = some i
    ∧ ∀ v, v ≠ u → (s.handOver u i e).units.get v = s.units.get v := by
  unfold State.handOver State.sendLink State.modUnit State.modEntry
  dsimp only [State.unit]
  refine ⟨?_, fun v hv => ?_⟩
  · rw [quad_set_get, if_pos rfl, quad_set_get, if_pos rfl]
  · rw [quad_set_get, if_neg hv, quad_set_get, if_neg hv]

/-- A unit that is IDLE takes a resting entry while the Charge Log has room (R143, R144). -/
theorem calm_handOver (s : State) (u : UnitId) (i : Nat) (e : DestEntry) (hi : s.entry i = some e)
    (hr : tableIn 512 s.sendq.entries → e.rests) (hu : (s.unit u).state = .idle) (room : s.meter.logRoom = true)
    (free : s.meter.work = []) : Calm s (s.handOver u i e) := by
  have e1 : s.handOver u i e =
      { s with
        units := (s.handOver u i e).units
        sendq :=
          { s.sendq with
            entries := tmod s.sendq.entries i (fun x => x.handed u (s.meter.tariff.lookup e.number).1) } } := rfl
  obtain ⟨k1, k2⟩ := handOver_units s u i e
  rw [e1]
  refine calm_mk rfl id rfl id rfl rfl rfl rfl (h13 := fun o x => ?_) (h14 := fun x => ?_)
  · exact x.assign hi (hr x.1) u (fun x => x.handed u (s.meter.tariff.lookup e.number).1) ⟨rfl, rfl, rfl⟩ rfl rfl k1
      (fun v hv => congrArg LineUnit.entry (k2 v hv))
  · have none : s.meter.overflow = [] := by
      by_contra k
      have := x.2.1 k
      rw [room] at this
      cases this
    refine x.empty none free rfl rfl rfl (fun v hv => ?_)
    have old := x.2.2.2 v hv
    by_cases k : v = u
    · subst k
      unfold LineUnit.metered at old
      rw [show (s.units.get v).state = .idle from hu] at old
      exact absurd old Bool.false_ne_true
    · rw [k2 v k]; exact old

/-- Entries at rest, by number. -/
def State.AllRest (s : State) (l : List Nat) : Prop :=
  tableIn 512 s.sendq.entries → ∀ i ∈ l, ∀ e, s.entry i = some e → e.rests

/-- A change of an entry from rest to rest leaves every other at rest. -/
theorem State.AllRest.change {s t : State} {l : List Nat} (h : s.AllRest l) {i : Nat} {f : DestEntry → DestEntry}
    (k : t.sendq.entries = tmod s.sendq.entries i f) (hf : ∀ e, (f e).rests) : t.AllRest l := by
  intro ht j hj e he
  have hs : tableIn 512 s.sendq.entries := tableIn_of_keys ht (by rw [k, tmod_keys])
  unfold State.entry at he
  rw [k, tget_tmod] at he
  split at he
  · obtain ⟨x, _, ex⟩ := Option.map_eq_some_iff.1 he
    exact ex ▸ hf x
  · exact h hs j hj e he

theorem holdEntry_entries (s : State) (i : Nat) (h : (s.entry i).isSome = true) : (s.holdEntry i).sendq.entries
    = tmod s.sendq.entries i (fun x => { x with state := .held, heldReported := true }) := by
  unfold State.holdEntry
  obtain ⟨e, he⟩ := Option.isSome_iff_exists.1 h
  rw [he]
  dsimp only
  split <;> rfl

theorem holdEntry_units (s : State) (i : Nat) : (s.holdEntry i).units = s.units ∧ (s.holdEntry i).meter = s.meter := by
  unfold State.holdEntry
  split
  · exact ⟨rfl, rfl⟩
  · dsimp only
    split <;> exact ⟨rfl, rfl⟩

theorem calm_tryEntries (u : UnitId) (l : List Nat) (s : State) (h : s.AllRest l) (hu : (s.unit u).state = .idle)
    (hw : s.meter.work = []) : Calm s (tryEntries u l s) := by
  induction l generalizing s with
  | nil => exact Calm.refl s
  | cons i l ih =>
    have rest : s.AllRest l := fun t j hj => h t j (List.mem_cons_of_mem _ hj)
    unfold tryEntries
    split
    · exact ih s rest hu hw
    · rename_i e he
      have re : tableIn 512 s.sendq.entries → e.rests := fun t => h t i List.mem_cons_self e he
      split
      · exact ih s rest hu hw
      · split
        · rename_i c
          refine calm_handOver _ _ _ _ he re hu ?_ hw
          unfold Meter.chargeable at c
          cases hroom : s.meter.logRoom with
          | true => rfl
          | false => rw [hroom] at c; simp at c
        · split
          · refine Calm.trans (calm_holdEntry _ _ (fun t x hx => h t i List.mem_cons_self x hx)) (ih _ ?_ ?_ ?_)
            · exact rest.change (holdEntry_entries s i (by rw [he]; rfl)) (fun _ => ⟨rfl, nofun⟩)
            · show ((s.holdEntry i).units.get u).state = _
              rw [(holdEntry_units s i).1]; exact hu
            · rw [(holdEntry_units s i).2]; exact hw
          · split
            · exact ih s rest hu hw
            · rename_i c
              refine calm_handOver _ _ _ _ he re hu ?_ hw
              cases hroom : s.meter.logRoom with
              | true => rfl
              | false => rw [hroom] at c; simp at c

/-- The entries that a list names by a test of their state. -/
theorem ids_mem {s : State} {p : DestEntry → Bool} {i : Nat} {e : DestEntry} (t : tableIn 512 s.sendq.entries)
    (h : i ∈ s.entryIds p) (he : s.entry i = some e) : p e = true := by
  unfold State.entryIds at h
  obtain ⟨x, hx, ex⟩ := List.mem_map.1 h
  obtain ⟨h1, h2⟩ := List.mem_filter.1 hx
  have := tget_of_mem t h1
  rw [ex] at this
  unfold State.entry at he
  rw [this] at he
  cases he
  exact h2

theorem mem_insertBy {α : Type} {r : α → α → Bool} {a b : α} {l : List α} (h : b ∈ insertBy r a l) : b = a ∨ b ∈ l := by
  induction l with
  | nil => exact .inl (List.mem_singleton.1 h)
  | cons c l ih =>
    unfold insertBy at h
    split at h
    · exact List.mem_cons.1 h
    · rcases List.mem_cons.1 h with h | h
      · exact .inr (h ▸ List.mem_cons_self)
      · exact (ih h).imp_right (List.mem_cons_of_mem _)

theorem mem_sortBy {α : Type} {r : α → α → Bool} {b : α} {l : List α} (h : b ∈ sortBy r l) : b ∈ l := by
  have key : ∀ acc : List α, b ∈ l.foldl (fun acc a => insertBy r a acc) acc → b ∈ acc ∨ b ∈ l := by
    clear h
    induction l with
    | nil => exact fun acc h => .inl h
    | cons c l ih =>
      intro acc h
      rcases ih _ h with h | h
      · rcases mem_insertBy h with h | h
        · exact .inr (h ▸ List.mem_cons_self)
        · exact .inl h
      · exact .inr (List.mem_cons_of_mem _ h)
  exact (key [] h).resolve_left (by simp)

theorem readyOrder_rest (s : State) : s.AllRest s.readyOrder := by
  intro t i hi e he
  unfold State.readyOrder at hi
  obtain ⟨x, hx, ex⟩ := List.mem_map.1 hi
  obtain ⟨h1, h2⟩ := List.mem_filter.1 (mem_sortBy hx)
  have := tget_of_mem t h1
  rw [ex] at this
  unfold State.entry at he
  rw [this] at he
  cases he
  have st := of_decide_eq_true h2
  exact ⟨by rw [st]; rfl, by rw [st]; nofun⟩

/-- A Meter that need not wait has no work waiting (R61). -/
theorem work_of_free {s : State} (h : s.meterWaits = false) : s.meter.work = [] := by
  unfold State.meterWaits at h
  exact of_not_not (of_decide_eq_false (Bool.or_eq_false_iff.1 h).2)

theorem calm_arbiterPass (s : State) (u : UnitId) : Calm s (s.arbiterPass u) := by
  unfold State.arbiterPass
  split
  · rename_i c
    refine calm_tryEntries _ _ _ (readyOrder_rest s) ?_ (work_of_free c.2.2)
    have := c.1
    unfold LineUnit.canSend at this
    exact (of_decide_eq_true this).1
  · exact Calm.refl s

theorem calm_arbiterPasses (s : State) : Calm s (s.arbiterPasses) := by
  unfold State.arbiterPasses; try dsimp only
  repeat' (first
    | with_reducible apply Calm.refl
    | (split <;> try dsimp only)
    | with_reducible apply Calm.after (calm_arbiterPass _ _)
    | with_reducible refine Calm.trans ?_ (calm_eachUnit _ _ (fun n t => ?_))
    | with_reducible rfl)

/-- Resting entries return to READY. -/
theorem calm_readyEach (l : List Nat) (s : State) (h : s.AllRest l) :
    Calm s (eachNum l (fun i t => t.modEntry i (fun e => { e with state := .ready })) s) := by
  unfold eachNum
  induction l generalizing s with
  | nil => exact Calm.refl s
  | cons i l ih =>
    refine Calm.trans (calm_changeEntry s i (fun e => { e with state := .ready })
      (fun t e he => .of_rests (h t i List.mem_cons_self e he) rfl ⟨rfl, nofun⟩)) (ih _ ?_)
    exact State.AllRest.change (s := s) (f := fun e => { e with state := .ready })
      (fun t j hj => h t j (List.mem_cons_of_mem _ hj)) rfl (fun _ => ⟨rfl, nofun⟩)

theorem calm_returnHeld (s : State) (d : Nat) : Calm s (s.returnHeld d) := by
  unfold State.returnHeld
  refine calm_readyEach _ _ (fun t i hi e he => ?_)
  have st := (of_decide_eq_true (ids_mem t hi he)).1
  exact ⟨by rw [st]; rfl, by rw [st]; nofun⟩

theorem calm_deskRecompute (s : State) (d : Nat) (cause : DeskCause) : Calm s (s.deskRecompute d cause) := by
  unfold State.deskRecompute; try dsimp only
  repeat' (first
    | with_reducible apply Calm.refl
    | (split <;> try dsimp only)
    | with_reducible apply Calm.after (calm_returnHeld _ _)
    | with_reducible apply Calm.after (calm_arbiterPasses _)
    | with_reducible apply Calm.after (calm_testDesk _ _)
    | with_reducible refine Calm.trans ?_ (calm_eachNum _ _ _ (fun n t => ?_))
    | with_reducible apply Calm.after (calm_modDesk _ _ _)
    | with_reducible apply Calm.after (calm_post _ _ _)
    | with_reducible rfl
    | with_reducible apply Calm.after (calm_mk ?_ ?_ ?_ ?_ ?_ ?_ ?_ ?_ ?_ ?_ ?_ ?_ ?_ ?_)
    | rfl
    | exact fun h => h
    | exact fun _ h => h)

theorem calm_addCharge (s : State) (d amount : Nat) : Calm s (s.addCharge d amount) := by
  unfold State.addCharge
  exact ((calm_modDesk _ _ _).trans (calm_deskRecompute _ _ _)).trans (calm_chargeTests _ _)

/-- Work that forms no charge record is given to the Meter. -/
theorem calm_giveMeter (s : State) (w : MeterWork) (h : w.forms = false) : Calm s (s.giveMeter w) := by
  unfold State.giveMeter
  refine calm_mk rfl id rfl id rfl rfl rfl rfl (h14 := fun x => x.units (fun _ k => k) rfl rfl rfl rfl x.2.2.2 ?_)
  show ((s.meter.work ++ [w]).filter MeterWork.forms).length ≤ _
  rw [List.filter_append]
  simp [h, Meter.releases]

theorem calm_chargeDesk (s : State) (d amount : Nat) : Calm s (s.chargeDesk d amount) := by
  unfold State.chargeDesk
  split
  · exact calm_giveMeter _ _ rfl
  · exact calm_addCharge _ _ _

/-- The meter records and the waiting work stay as they are. -/
def SameBills (s t : State) : Prop := t.meter.recs = s.meter.recs ∧ t.meter.work = s.meter.work

theorem SameBills.refl (s : State) : SameBills s s := ⟨rfl, rfl⟩

theorem SameBills.trans {s t u : State} (h : SameBills s t) (k : SameBills t u) : SameBills s u :=
  ⟨k.1.trans h.1, k.2.trans h.2⟩

theorem SameBills.of_meter {s t : State} (h : t.meter = s.meter) : SameBills s t := by
  unfold SameBills; rw [h]; exact ⟨rfl, rfl⟩

theorem bills_eachNum (l : List Nat) (f : Nat → State → State) (s : State) (h : ∀ n t, SameBills t (f n t)) :
    SameBills s (eachNum l f s) := by
  unfold eachNum
  induction l generalizing s with
  | nil => exact .refl s
  | cons n l ih => exact (h n s).trans (ih (f n s))

theorem bills_tryEntries (u : UnitId) (l : List Nat) (s : State) : SameBills s (tryEntries u l s) := by
  induction l generalizing s with
  | nil => exact .refl s
  | cons i l ih =>
    unfold tryEntries
    split
    · exact ih s
    · split
      · exact ih s
      · split
        · exact .refl s
        · split
          · exact (SameBills.of_meter (holdEntry_units s i).2).trans (ih _)
          · split
            · exact ih s
            · exact .refl s

theorem bills_arbiterPasses (s : State) : SameBills s s.arbiterPasses := by
  have one : ∀ (u : UnitId) (t : State), SameBills t (t.arbiterPass u) := by
    intro u t
    unfold State.arbiterPass
    split
    · exact bills_tryEntries _ _ _
    · exact .refl t
  unfold State.arbiterPasses
  split
  · exact (((one _ _).trans (one _ _)).trans (one _ _)).trans (one _ _)
  · exact .refl s

theorem bills_testDesk (s : State) (i : Nat) : SameBills s (s.testDesk i) := by
  unfold State.testDesk
  split
  · exact .refl s
  · split
    · exact .of_meter (holdEntry_units s i).2
    · exact .refl s

theorem bills_deskRecompute (s : State) (d : Nat) (cause : DeskCause) : SameBills s (s.deskRecompute d cause) := by
  unfold State.deskRecompute
  split
  · exact .refl s
  · dsimp only
    split
    · exact .refl s
    · split
      · refine SameBills.trans ?_ (bills_arbiterPasses _)
        exact SameBills.trans ⟨rfl, rfl⟩ (bills_eachNum _ _ _ (fun _ _ => ⟨rfl, rfl⟩))
      · exact SameBills.trans ⟨rfl, rfl⟩ (bills_eachNum _ _ _ (fun _ _ => bills_testDesk _ _))

theorem bills_queueBurn (s : State) (d : Nat) (r : BurnReason) : SameBills s (s.queueBurn d r) := by
  unfold State.queueBurn
  split
  · exact .refl s
  · split <;> exact ⟨rfl, rfl⟩

theorem bills_startBurn (s : State) : SameBills s s.startBurn := by
  unfold State.startBurn
  split
  · split <;> exact ⟨rfl, rfl⟩
  · exact .refl s

theorem bills_chargeTests (s : State) (d : Nat) : SameBills s (s.chargeTests d) := by
  unfold State.chargeTests
  split
  · exact .refl s
  · dsimp only
    refine SameBills.trans ?_ (bills_startBurn _)
    split <;> split <;> first
      | exact (bills_queueBurn _ _ _).trans (bills_queueBurn _ _ _)
      | exact bills_queueBurn _ _ _
      | exact .refl s

theorem bills_addCharge (s : State) (d amount : Nat) : SameBills s (s.addCharge d amount) := by
  unfold State.addCharge
  dsimp only
  refine SameBills.trans ?_ (bills_chargeTests _ _)
  exact SameBills.trans ⟨rfl, rfl⟩ (bills_deskRecompute _ _ _)

/-- The units still due are charged to the desk: a calm step that leaves the meter records and the waiting work. -/
theorem chargeDue_spec (s : State) (r : MeterRec) : Calm s (s.chargeDue r) ∧ SameBills s (s.chargeDue r) := by
  unfold State.chargeDue
  generalize r.due = l
  induction l generalizing s with
  | nil => exact ⟨Calm.refl s, .refl s⟩
  | cons b l ih =>
    exact ⟨(calm_addCharge _ _ _).trans (ih _).1, (bills_addCharge _ _ _).trans (ih _).2⟩

/-- The Meter does its three things for a released call (R187), and with them one record that was still to come is
accounted for. -/
theorem calm_formCharge (s : State) (c : MeteredCall) (rs : Quad (Option MeterRec)) (ws : List MeterWork)
    (old : ∀ v, (rs.get v).isSome = true → (s.meter.recs.get v).isSome = true)
    (few : ∀ un m, m.recs = s.meter.recs → m.work = s.meter.work → ChargeOk un m → (ws.filter MeterWork.forms).length
        + (allUnits.filter (mayCharge un rs)).length + 1
      ≤ m.releases + (allUnits.filter (mayCharge un m.recs)).length) :
    Calm s { s.formCharge c with meter := { (s.formCharge c).meter with recs := rs, work := ws } } := by
  obtain ⟨k1, k2, k3⟩ := chargeDue_spec s c.record
  unfold State.formCharge
  dsimp only
  refine Calm.trans k1 ?_
  refine Calm.trans (calm_modDesk _ c.record.settled.desk
    (fun k => { k with calls := satAdd Config.max24 k.calls 1 })) ?_
  generalize e : (s.chargeDue c.record).modDesk c.record.settled.desk
    (fun k => { k with calls := satAdd Config.max24 k.calls 1 }) = t
  have e1 : t.meter.recs = s.meter.recs := by rw [← e]; exact k2
  have e2 : t.meter.work = s.meter.work := by rw [← e]; exact k3
  have e3 : t.meter.recordSeq = (s.chargeDue c.record).meter.recordSeq := by rw [← e]; rfl
  refine Calm.trans (t := { t with meter := { t.meter with recordSeq := t.meter.recordSeq + 1 } })
    (calm_mk rfl id rfl id rfl rfl rfl rfl) ?_
  refine calm_formed _ _ _ _ rs ws (fun _ => by rfl) (fun v hv => ?_) (fun y => ?_)
  · show (t.meter.recs.get v).isSome = true
    rw [e1]; exact old v hv
  · exact few _ _ e1 e2 y

theorem formCharge_bills (s : State) (c : MeteredCall) : SameBills s (s.formCharge c) := by
  unfold State.formCharge
  dsimp only
  refine SameBills.trans (chargeDue_spec s c.record).2 ?_
  obtain ⟨p, x, o, e, -⟩ := placeCharge_spec
    { (s.chargeDue c.record).modDesk c.record.settled.desk (fun k => { k with calls := satAdd Config.max24 k.calls 1 }) with
      meter := { ((s.chargeDue c.record).modDesk c.record.settled.desk
        (fun k => { k with calls := satAdd Config.max24 k.calls 1 })).meter with
          recordSeq := ((s.chargeDue c.record).modDesk c.record.settled.desk
            (fun k => { k with calls := satAdd Config.max24 k.calls 1 })).meter.recordSeq + 1 } }
    (c.charged ((s.chargeDue c.record).modDesk c.record.settled.desk
      (fun k => { k with calls := satAdd Config.max24 k.calls 1 })).meter.recordSeq)
  rw [e]
  exact ⟨rfl, rfl⟩

theorem calm_settleMeter (s : State) (u : UnitId) : Calm s (s.settleMeter u) := by
  unfold State.settleMeter
  split
  · exact Calm.refl s
  · split
    · exact Calm.refl s
    · rename_i r hr
      split
      · exact Calm.refl s
      · exact (calm_setMeterRec _ _ _ (by rw [hr]; rfl)).trans (calm_addCharge _ _ _)

theorem calm_meterRelease (s : State) (u : UnitId) : Calm s (s.meterRelease u) := by
  unfold State.meterRelease
  split
  · exact Calm.refl s
  · rename_i r hr
    have used : (s.meter.recs.get u).isSome = true := by rw [hr]; rfl
    dsimp only
    split
    · refine calm_mk rfl id rfl id rfl rfl rfl rfl
        (h14 := fun x => ⟨x.1, x.2.1, ?_, fun v hv => x.2.2.2 v (recs_old hv)⟩)
      have l := mayCharge_fewer x used
      have m := x.2.2.1
      have one : ((s.meter.work ++ [MeterWork.release (s.meteredCall u r)]).filter MeterWork.forms).length
          = s.meter.releases + 1 := by
        rw [List.filter_append, List.length_append]; rfl
      show s.meter.overflow.length + ((s.meter.work ++ [MeterWork.release (s.meteredCall u r)]).filter MeterWork.forms).length
        + (allUnits.filter (mayCharge s.units (s.meter.recs.set u none))).length ≤ 4
      omega
    · have bills : (s.formCharge (s.meteredCall u r)).meter.recs = s.meter.recs
          ∧ (s.formCharge (s.meteredCall u r)).meter.work = s.meter.work := formCharge_bills s _
      unfold State.setMeterRec
      have k := calm_formCharge s (s.meteredCall u r) (s.meter.recs.set u none) s.meter.work (fun v hv => recs_old hv)
        (fun un m e1 e2 y => by
          have l := mayCharge_fewer y (u := u) (by rw [e1]; exact used)
          rw [← e1]
          have : (s.meter.work.filter MeterWork.forms).length = m.releases := by unfold Meter.releases; rw [e2]
          omega)
      rw [← bills.2, ← bills.1] at k
      exact k

/-- A released meter record is no longer in use (R187). -/
theorem meterRelease_rec (s : State) (u : UnitId) : (s.meterRelease u).meter.recs.get u = none := by
  unfold State.meterRelease
  split
  · rename_i h; exact h
  · dsimp only
    split
    · show (Quad.set _ u none).get u = none
      rw [quad_set_get, if_pos rfl]
    · show (Quad.set _ u none).get u = none
      rw [quad_set_get, if_pos rfl]

theorem calm_countRestart (s : State) (u : UnitId) : Calm s (s.countRestart u) := by
  unfold State.countRestart; try dsimp only
  repeat' (first
    | with_reducible apply Calm.refl
    | (split <;> try dsimp only)
    | with_reducible rfl
    | with_reducible apply Calm.after (calm_mk ?_ ?_ ?_ ?_ ?_ ?_ ?_ ?_ ?_ ?_ ?_ ?_ ?_ ?_)
    | rfl
    | exact fun h => h
    | exact fun _ h => h)

/-- What stays the same whatever the state: what only a reset changes, page memory, the part state and the clock. -/
structure Same (s t : State) : Prop where
  fixed : Fixed s t
  mem : t.mem = s.mem
  part : t.part = s.part
  clock : t.meter.clock = s.meter.clock

theorem Calm.same {s t : State} (h : Calm s t) : Same s t := ⟨h.fixed, h.mem, h.part, h.clock⟩

theorem Same.trans {s t u : State} (h : Same s t) (k : Same t u) : Same s u :=
  ⟨h.fixed.trans k.fixed, k.mem.trans h.mem, k.part.trans h.part, k.clock.trans h.clock⟩

theorem same_modUnit (s : State) (u : UnitId) (f : LineUnit → LineUnit) : Same s (s.modUnit u f) :=
  ⟨⟨rfl, rfl, rfl, rfl, rfl, rfl, rfl⟩, rfl, rfl, rfl⟩

/-- A calm operation, and one that is calm where the laws held before. -/
theorem Calm.andThen {s t u : State} (h : Calm s t) (z : Same t u) (k : ∀ o, s.Steady o → Calm t u) : Calm s u :=
  ⟨h.fixed.trans z.fixed, z.mem.trans h.mem, z.part.trans h.part, z.clock.trans h.clock,
   fun o x => (k o x).steady o (h.steady o x)⟩

theorem State.Steady.charge {s : State} {o : Owed} (h : s.Steady o) : ChargeOk s.units s.meter :=
  h.2.2.2.2.2.2.2.2.2

theorem State.Steady.send {s : State} {o : Owed} (h : s.Steady o) : SendOk o s.store.docs s.units s.sendq :=
  h.2.2.2.2.2.2.2.2.1

/-- No meter record of a unit is in use once it has no answered call. -/
theorem ChargeOk.idle {un : Quad LineUnit} {m : Meter} (h : ChargeOk un m) {u : UnitId}
    (k : (un.get u).metered = false) : m.recs.get u = none := by
  cases e : m.recs.get u with
  | none => rfl
  | some r =>
    have := h.2.2.2 u (by rw [e]; rfl)
    rw [k] at this
    exact absurd this Bool.false_ne_true

/-- A unit in a state other than IN SESSION has no answered call. -/
theorem metered_false {l : LineUnit} (h : l.state ≠ .inSession) : l.metered = false := by
  unfold LineUnit.metered
  rw [decide_eq_false h]
  rfl

/-- A unit without a meter record in use comes to rest. -/
theorem calm_restUnit (s : State) (u : UnitId) (st : CallState)
    (h0 : st = .idle ∨ st = .off ∨ st = .blocked)
    (h : ChargeOk s.units s.meter → s.meter.recs.get u = none) : Calm s (s.restUnit u st) := by
  unfold State.restUnit
  refine Calm.trans (calm_modUnitAt _ _ _ (.inl rfl) (fun k => ?_) (fun _ c => .inr (h c))) (calm_countRestart _ _)
  rcases h0 with e | e | e <;> (subst e; exact absurd k Bool.false_ne_true)

theorem same_restUnit (s : State) (u : UnitId) (st : CallState) : Same s (s.restUnit u st) := by
  unfold State.restUnit
  exact (same_modUnit _ _ _).trans (calm_countRestart _ _).same

theorem calm_postLineState (s : State) (u : UnitId) (r : LineReason) : Calm s (s.postLineState u r) := by
  unfold State.postLineState; try dsimp only
  repeat' (first
    | with_reducible apply Calm.refl
    | with_reducible apply Calm.after (calm_post _ _ _)
    | with_reducible rfl)

theorem calm_enterIdle (s : State) (u : UnitId) (h : ChargeOk s.units s.meter → s.meter.recs.get u = none) :
    Calm s (s.enterIdle u) := by
  unfold State.enterIdle
  split
  · exact calm_restUnit _ _ _ (.inl rfl) h
  · rename_i m _
    dsimp only
    have k : Calm s (s.modUnit u (fun l => { l with mode := m, pendingMode := none })) :=
      calm_modUnit _ _ _ (fun _ => ⟨.inl rfl, fun h => h, fun h => h⟩)
    refine Calm.trans (k.andThen (same_restUnit _ _ _) (fun o x => calm_restUnit _ _ _ ?_ (fun _ => h x.charge)))
      (calm_postLineState _ _ _)
    split
    · exact .inr (.inl rfl)
    · exact .inl rfl

theorem unitOk_dropSession : UnitOk LineUnit.dropSession := by
  intro l
  unfold LineUnit.dropSession
  dsimp only
  split <;> exact ⟨.inl rfl, fun h => h, fun h => h⟩

theorem calm_hangUp (s : State) (u : UnitId) : Calm s (s.hangUp u) := by
  unfold State.hangUp
  dsimp only
  refine Calm.trans ?_ (calm_modUnit _ _ _ unitOk_dropSession)
  have k : Calm s ((s.sendLink u .release).modUnit u (fun l => { l with releaseTime := s.now })) :=
    (calm_sendLink _ _ _).trans (calm_modUnit _ _ _ (fun _ => ⟨.inl rfl, fun h => h, fun h => h⟩))
  split
  · exact k.trans (calm_meterRelease _ _)
  · exact k

/-- At the hang-up of a call its meter record is no longer in use (R103, R187). -/
theorem hangUp_rec (s : State) (u : UnitId) (h : ChargeOk s.units s.meter) : (s.hangUp u).meter.recs.get u = none := by
  unfold State.hangUp
  dsimp only
  show (State.meter (if (s.unit u).answered then _ else _)).recs.get u = none
  split
  · exact meterRelease_rec _ _
  · rename_i c
    refine h.idle ?_
    unfold LineUnit.metered
    rw [show (s.units.get u).answered = false from Bool.eq_false_iff.2 c, Bool.and_false]

theorem calm_releaseCall (s : State) (u : UnitId) : Calm s (s.releaseCall u) := by
  unfold State.releaseCall
  refine (calm_hangUp s u).andThen (same_modUnit _ _ _) (fun o x => ?_)
  exact calm_modUnitAt _ _ _ (.inl rfl) (fun k => absurd k Bool.false_ne_true)
    (fun _ _ => .inr (hangUp_rec s u x.charge))

theorem calm_endCall (s : State) (u : UnitId) (r : AttemptResult) : Calm s (s.endCall u r) :=
  (calm_modUnit s u (fun l => { l with result := some r }) (fun _ => ⟨.inl rfl, fun h => h, fun h => h⟩)).trans
    (calm_releaseCall _ u)

theorem calm_abortUnit (s : State) (u : UnitId) : Calm s (s.abortUnit u) := by
  unfold State.abortUnit; try dsimp only
  repeat' (first
    | with_reducible apply Calm.refl
    | (split <;> try dsimp only)
    | with_reducible apply Calm.after (calm_endCall _ _ _)
    | with_reducible rfl)

theorem calm_cancelEntry (s : State) (i : Nat) : Calm s (s.cancelEntry i) := by
  unfold State.cancelEntry
  split
  · exact Calm.refl s
  · rename_i e he
    split
    · exact Calm.refl s
    · rename_i hc
      have nf : e.state.final = false := by
        unfold DestEntry.cancellable at hc
        cases h : e.state.final with
        | false => rfl
        | true => rw [h] at hc; simp at hc
      split
      · dsimp only
        have k : Calm s (s.modEntry i (fun x => { x with cancelPending := true })) := calm_modEntry _ _ _ (fun _ => rfl)
        split
        · exact k.trans (calm_abortUnit _ _)
        · exact k
      · rename_i na
        dsimp only
        unfold State.finishEntry State.dropSendRef
        refine Calm.trans ?_ (calm_testFree _ _)
        refine calm_mk rfl id rfl id rfl rfl rfl rfl (h9 := fun x => lawful_modDoc x _ _ (fun _ => by rfl))
          (h11 := fun _ x => by dsimp only; exact printRefs_modDoc x _ _ (fun _ => rfl)) (h13 := fun o x => ?_)
        refine x.finish he nf (fun x => { x with state := .cancelled, countdown := 0, lastResult := some .cancelled })
          ⟨rfl, rfl⟩ rfl rfl rfl o.unit (fun u hu => ⟨hu, fun hi => ?_⟩)
        obtain ⟨y, hy, ky, _⟩ := x.2.2.2 u i hu hi
        have he : tget s.sendq.entries i = some e := he
        rw [he] at hy
        cases hy
        exact na ky

/-- The laws kept between commands, with references that may be owed. -/
structure Tame (s t : State) : Prop where
  same : Same s t
  steady : ∀ r, s.Steady ⟨r, none⟩ → t.Steady ⟨r, none⟩

theorem Calm.tame {s t : State} (h : Calm s t) : Tame s t := ⟨h.same, fun _ => h.steady _⟩

theorem Tame.trans {s t u : State} (h : Tame s t) (k : Tame t u) : Tame s u :=
  ⟨h.same.trans k.same, fun r x => k.steady r (h.steady r x)⟩

theorem Tame.kept {s t : State} (h : Tame s t) : Kept s t :=
  ⟨h.same.fixed, fun x => ⟨h.same.mem ▸ x.1, h.same.clock ▸ x.2.1, h.steady _ x.2.2⟩⟩

/-- The entry of a unit has been taken back, and the unit still names it. -/
structure Owes (u : UnitId) (s t : State) : Prop where
  same : Same s t
  units : t.units = s.units
  meter : t.meter = s.meter
  steady : ∀ r, s.Steady ⟨r, none⟩ → t.Steady ⟨r, some u⟩

theorem Owes.calm {u : UnitId} {s t v : State} (h : Owes u s t) (k : Calm t v) (e : v.units = t.units)
    (m : v.meter = t.meter) : Owes u s v :=
  ⟨h.same.trans k.same, e.trans h.units, m.trans h.meter, fun r x => k.steady _ (h.steady r x)⟩

theorem State.Steady.forget {s : State} {r : Nat → Nat} (h : s.Steady ⟨r, none⟩) (u : UnitId) : s.Steady ⟨r, some u⟩ := by
  obtain ⟨a, b, c, d, e, f, g, k, l, m⟩ := h
  exact ⟨a, b, c, d, e, f, g, k, ⟨l.1, l.2.1, l.2.2.1, fun v i _ hi => l.2.2.2 v i nofun hi⟩, m⟩

theorem Owes.refl {u : UnitId} (s : State) : Owes u s s :=
  ⟨(Calm.refl s).same, rfl, rfl, fun _ x => x.forget u⟩

/-- The unit names the entry no longer. -/
theorem Owes.clear {u : UnitId} {s t : State} (h : Owes u s t) (f : LineUnit → LineUnit)
    (h1 : (f (s.unit u)).entry = none) (h2 : (f (s.unit u)).calling = true → (s.unit u).calling = true)
    (h3 : (s.unit u).metered = false) : Tame s (t.modUnit u f) := by
  refine ⟨h.same.trans (same_modUnit _ _ _), fun r x => ?_⟩
  have hu : t.unit u = s.unit u := by unfold State.unit; rw [h.units]
  have y := h.steady r x
  have look : ∀ v, (t.units.set u (f (t.unit u))).get v = if v = u then f (t.unit u) else t.units.get v :=
    fun v => quad_set_get _ _ _ _
  obtain ⟨a, b, c, d, e, k, g, w, l, m⟩ := y
  have gone : t.meter.recs.get u = none := m.idle (by
    show (t.unit u).metered = false
    rw [hu]; exact h3)
  refine ⟨a, b, c, d, e, k, g, w, ?_, ?_⟩
  · refine SendOk.cleared (o := ⟨r, some u⟩) (u := u) l ?_ (fun v hv => ?_)
    · show ((t.units.set u (f (t.unit u))).get u).entry = none
      rw [look, if_pos rfl, hu]; exact h1
    · show ((t.units.set u (f (t.unit u))).get v).entry = _
      rw [look, if_neg hv]
  · refine m.units (fun v hv => ?_) rfl rfl rfl rfl (fun v hv => ?_)
    · unfold mayCharge at hv ⊢
      have hv : (((t.units.set u (f (t.unit u))).get v).calling || (t.meter.recs.get v).isSome) = true := hv
      rw [look] at hv
      split at hv
      · rename_i e
        subst e
        rcases Bool.or_eq_true_iff.1 hv with k | k
        · rw [hu] at k
          have e2 : (t.unit v).calling = true := by rw [hu]; exact h2 k
          rw [show (t.units.get v).calling = true from e2, Bool.true_or]
        · rw [k, Bool.or_true]
      · exact hv
    · have old := m.2.2.2 v hv
      show ((t.units.set u (f (t.unit u))).get v).metered = true
      rw [look]
      split
      · rename_i e
        subst e
        have hv : (t.meter.recs.get v).isSome = true := hv
        rw [gone] at hv
        exact absurd hv Bool.false_ne_true
      · exact old

theorem returnBlocks_units (s : State) (bs : List Nat) :
    (s.returnBlocks bs).units = s.units ∧ (s.returnBlocks bs).meter = s.meter := by
  rw [returnBlocks_eq]; exact ⟨rfl, rfl⟩

theorem testFree_units (s : State) (d : Nat) :
    (s.testFree d).units = s.units ∧ (s.testFree d).meter = s.meter := by
  unfold State.testFree
  split
  · exact ⟨rfl, rfl⟩
  · split
    · unfold State.freeDoc
      split
      · exact ⟨rfl, rfl⟩
      · rename_i r _
        dsimp only
        have k := returnBlocks_units s (s.blocksOf r.pages)
        split
        · exact k
        · exact k
    · exact ⟨rfl, rfl⟩

theorem testDesk_units (s : State) (i : Nat) :
    (s.testDesk i).units = s.units ∧ (s.testDesk i).meter = s.meter := by
  unfold State.testDesk
  split
  · exact ⟨rfl, rfl⟩
  · split
    · exact holdEntry_units s i
    · exact ⟨rfl, rfl⟩

/-- The entry of a unit's call waits again (R148, R150). -/
theorem owes_takeBack (s : State) (u : UnitId) (i : Nat) (e : DestEntry) (hu : (s.unit u).entry = some i)
    (he : s.entry i = some e) (f : DestEntry → DestEntry) (hf : (f e).document = e.document ∧ (f e).rests)
    (blk : Block) (v : Event) : Owes u s ((s.modEntry i f).post blk v) := by
  refine ⟨⟨⟨rfl, rfl, rfl, rfl, rfl, rfl, rfl⟩, rfl, rfl, rfl⟩, rfl, rfl, fun r x => ?_⟩
  obtain ⟨a, b, c, d, e1, k, g, w, l, m⟩ := x
  exact ⟨a, b, c, d, e1, k, g, w, l.takeBack (o := ⟨r, none⟩) rfl hu he f hf rfl rfl, m⟩

/-- The entry of a unit's call reaches a final state (R148, R150). -/
theorem owes_finish (s : State) (u : UnitId) (i : Nat) (e : DestEntry) (hu : (s.unit u).entry = some i)
    (he : s.entry i = some e) (f : DestEntry → DestEntry)
    (hf : (f e).document = e.document ∧ (f e).state.final = true) (blk : Block) (v : Event) :
    Owes u s (((s.modEntry i f).post blk v).finishEntry i e.document) := by
  unfold State.finishEntry State.dropSendRef
  refine Owes.calm ?_ (calm_testFree _ _) (testFree_units _ _).1 (testFree_units _ _).2
  refine ⟨⟨⟨rfl, rfl, rfl, rfl, rfl, rfl, rfl⟩, rfl, rfl, rfl⟩, rfl, rfl, fun r x => ?_⟩
  obtain ⟨a, b, c, d, e1, k, g, w, l, m⟩ := x
  obtain ⟨y, hy, k1, k2⟩ := l.2.2.2 u i nofun hu
  have he' : tget s.sendq.entries i = some e := he
  rw [he'] at hy
  cases hy
  refine ⟨a, b, c, d, lawful_modDoc e1 _ _ (fun _ => by rfl), k, ?_, w, ?_, m⟩
  · exact printRefs_modDoc g e.document (fun r => { r with sendRefs := r.sendRefs - 1 }) (fun _ => rfl)
  · refine SendOk.finish (o := ⟨r, none⟩) l he' (by rw [k1]; rfl) f hf rfl rfl rfl (some u) (fun z hz => ⟨nofun, fun hi => ?_⟩)
    obtain ⟨y, hy, _, k3⟩ := l.2.2.2 z i nofun hi
    rw [he'] at hy
    cases hy
    rw [k2] at k3
    exact hz k3.symm

theorem outcomeState_rests {e : DestEntry} {r : AttemptResult} (h : (outcomeState e r).final = false) :
    outcomeState e r ≠ .active := by
  unfold outcomeState
  split
  · nofun
  · split
    · nofun
    · nofun
    · split <;> nofun

/-- An entry that an outcome has not ended is at rest. -/
theorem outcome_rests {s : State} {c : OutcomeReport} {e : DestEntry} (he : s.entry c.entry = some e)
    (h : ¬ (outcomeState e c.result).final = true) (b : Block) (v : Event) :
    tableIn 512 ((s.modEntry c.entry (e.outcome c s.now)).post b v).sendq.entries →
      ∀ x, ((s.modEntry c.entry (e.outcome c s.now)).post b v).entry c.entry = some x → x.rests := by
  intro _ x hx
  have hx : (State.entry (State.modEntry s c.entry (e.outcome c s.now)) c.entry) = some x := hx
  rw [State.entry_modEntry, if_pos rfl, he] at hx
  cases hx
  exact ⟨Bool.eq_false_iff.2 h, outcomeState_rests (Bool.eq_false_iff.2 h)⟩

/-- The outcome of a call takes its entry back from the unit that holds it (R148). -/
theorem owes_takeOutcome (s : State) (c : OutcomeReport) (hu : (s.unit c.unit).entry = some c.entry) :
    Owes c.unit s (s.takeOutcome c) := by
  unfold State.takeOutcome
  split
  · exact .refl s
  · rename_i e he
    dsimp only
    split
    · rename_i h
      exact owes_finish s c.unit c.entry e hu he _ ⟨rfl, h⟩ _ _
    · rename_i h
      have back := owes_takeBack s c.unit c.entry e hu he (e.outcome c s.now)
        ⟨rfl, Bool.eq_false_iff.2 h, outcomeState_rests (Bool.eq_false_iff.2 h)⟩ .sendQueue
        (.destResult c.entry e.document e.desk e.attempts (some c.unit) (outcomeState e c.result) c.result c.confirmed
          e.orderSeq c.bytes (c.charge e) e.chargeTotal)
      split
      · refine Owes.calm back (Calm.trans (calm_becomeReady _ c.entry ?_) (Calm.refl _)) ?_ ?_
        · exact outcome_rests he h _ _
        · exact (testDesk_units _ _).1
        · exact (testDesk_units _ _).2
      · exact back

/-- The outcome report of a unit carries the pages confirmed as its session last told the Send Queue (R103, R135). -/
theorem outcomeReport_confirmed {s : State} {i : Nat} {e : DestEntry} (h : s.entry i = some e) (u : UnitId) :
    (s.outcomeReport u i).confirmed = e.confirmed := by
  show s.pagesConfirmed i = e.confirmed
  unfold State.pagesConfirmed
  rw [h]

/-- A unit's outcome takes its entry back, or is kept until the call's charge has been given (R147, R148). -/
theorem owes_outcome (s : State) (u : UnitId) : Owes u s (s.outcome u) := by
  unfold State.outcome
  dsimp only
  split
  · exact .refl s
  · rename_i i hu
    split
    · refine Owes.calm (.refl s) ?_ rfl rfl
      exact calm_mk rfl id rfl id rfl rfl rfl rfl
    · exact owes_takeOutcome s (s.outcomeReport u i) hu

/-- A kept report takes back the entry of a unit that names it no longer (R148). -/
theorem tame_takeKept (s : State) (c : OutcomeReport) : Tame s (s.takeKept c) := by
  unfold State.takeKept
  split
  · rename_i e he
    split
    · rename_i g
      obtain ⟨g1, g2, g3⟩ := g
      have nf : e.state.final = false := by rw [g1]; rfl
      unfold State.takeOutcome
      rw [he]
      dsimp only
      split
      · rename_i h
        unfold State.finishEntry State.dropSendRef
        refine Tame.trans ?_ (calm_testFree _ _).tame
        refine ⟨⟨⟨rfl, rfl, rfl, rfl, rfl, rfl, rfl⟩, rfl, rfl, rfl⟩, fun r x => ?_⟩
        obtain ⟨a, b, cc, d, e1, k, g, w, l, m⟩ := x
        have he' : tget s.sendq.entries c.entry = some e := he
        refine ⟨a, b, cc, d, lawful_modDoc e1 _ _ (fun _ => by rfl), k, ?_, w, ?_, m⟩
        · exact printRefs_modDoc g e.document (fun r => { r with sendRefs := r.sendRefs - 1 }) (fun _ => rfl)
        · refine SendOk.finish (o := ⟨r, none⟩) l he' nf (e.outcome c s.now) ⟨rfl, h⟩ rfl rfl rfl none
            (fun z hz => ⟨hz, fun hi => ?_⟩)
          obtain ⟨y, hy, _, k3⟩ := l.2.2.2 z c.entry hz hi
          rw [he'] at hy
          cases hy
          rw [g2] at k3
          cases k3
          exact g3 hi
      · rename_i h
        have h : (outcomeState e c.result).final = false := Bool.eq_false_iff.2 h
        have back : Tame s ((s.modEntry c.entry (e.outcome c s.now)).post .sendQueue
            (.destResult c.entry e.document e.desk e.attempts (some c.unit) (outcomeState e c.result) c.result c.confirmed
              e.orderSeq c.bytes (c.charge e) e.chargeTotal)) := by
          refine ⟨⟨⟨rfl, rfl, rfl, rfl, rfl, rfl, rfl⟩, rfl, rfl, rfl⟩, fun r x => ?_⟩
          obtain ⟨a, b, cc, d, e1, k, g, w, l, m⟩ := x
          have he' : tget s.sendq.entries c.entry = some e := he
          refine ⟨a, b, cc, d, e1, k, g, w, ?_, m⟩
          refine SendOk.free (o := ⟨r, none⟩) l he' nf (e.outcome c s.now) ⟨rfl, h, outcomeState_rests h⟩ rfl rfl
            (fun z hz hi => ?_)
          obtain ⟨y, hy, _, k3⟩ := l.2.2.2 z c.entry hz hi
          rw [he'] at hy
          cases hy
          rw [g2] at k3
          cases k3
          exact g3 hi
        split
        · exact back.trans (calm_becomeReady _ c.entry (outcome_rests he (Bool.eq_false_iff.1 h) _ _)).tame
        · exact back
    · exact (Calm.refl s).tame
  · exact (Calm.refl s).tame

theorem tame_settleReports (s : State) (i : Nat) : Tame s (s.settleReports i) := by
  have each : ∀ (l : List OutcomeReport) (t : State), Tame t (l.foldl (fun t c => t.takeKept c) t) := by
    intro l
    induction l with
    | nil => exact fun t => (Calm.refl t).tame
    | cons c l ih => exact fun t => (tame_takeKept t c).trans (ih _)
  unfold State.settleReports
  dsimp only
  refine Tame.trans ?_ (each _ _)
  exact (calm_mk rfl id rfl id rfl rfl rfl rfl).tame

/-- A glare takes the entry back from the unit (R150). -/
theorem owes_glareReturn (s : State) (u : UnitId) : Owes u s (s.glareReturn u) := by
  unfold State.glareReturn
  split
  · exact .refl s
  · rename_i i hu
    split
    · exact .refl s
    · rename_i e he
      dsimp only
      split
      · rename_i c
        refine owes_finish s u i e hu he _ ⟨rfl, ?_⟩ _ _
        dsimp only
        rfl
      · rename_i c
        refine Owes.calm (owes_takeBack s u i e hu he _ ⟨rfl, ?_⟩ _ _) (calm_testDesk _ _) (testDesk_units _ _).1
          (testDesk_units _ _).2
        exact ⟨rfl, nofun⟩

end Sys2Proof.Machine
end

