-- ==== Sys2Proof/Laws/CalmPath.lean ====
section
/-! SUPPORT. The operations of the Order Intake, the Memory Path, the Page Coder and the Caller Screen that reach no held
host write are calm. -/

set_option linter.unusedTactic false
set_option linter.unreachableTactic false
set_option Elab.async false

namespace Sys2Proof.Machine

open Sys2Proof

theorem calm_startTake (s : State) : Calm s s.startTake := by
  unfold State.startTake
  refine Calm.trans (calm_issue s .orderIntake (s.controlWord 0x800)
    (leBytes 4 (s.slotSeq s.intake.expected).toNat)) ?_
  exact calm_mk rfl id rfl id rfl rfl rfl rfl

theorem calm_beginTake (s : State) : Calm s s.beginTake := by
  unfold State.beginTake
  split
  · exact calm_startTake s
  · exact Calm.refl s

theorem calm_slotPosted (s : State) (n : Nat) : Calm s (s.slotPosted n) := by
  unfold State.slotPosted
  split
  · exact calm_beginTake s
  · exact Calm.refl s

theorem calm_holdAtOwner (s : State) : Calm s (s.holdAtOwner) := by
  unfold State.holdAtOwner; try dsimp only
  repeat' (first
    | with_reducible apply Calm.refl
    | with_reducible rfl
    | with_reducible apply Calm.after (calm_mk ?_ ?_ ?_ ?_ ?_ ?_ ?_ ?_ ?_ ?_ ?_ ?_ ?_ ?_)
    | rfl
    | exact fun h => h
    | exact fun _ h => h)

theorem calm_advanceSlot (s : State) : Calm s s.advanceSlot := by
  have key : Calm s { s with intake := { s.intake with expected := (s.intake.expected + 1) % 32, take := .waiting } } := by
    refine ⟨⟨rfl, rfl, rfl, rfl, rfl, rfl, rfl⟩, rfl, rfl, rfl, fun o x => ?_⟩
    exact ⟨x.1, Nat.mod_lt _ (by decide), x.2.2⟩
  exact key.trans (calm_beginTake _)

theorem calm_settleTake (s : State) : Calm s s.settleTake := by
  unfold State.settleTake
  split
  · exact Calm.refl s
  · split
    · exact Calm.refl s
    · refine Calm.trans ?_ (calm_advanceSlot _)
      exact calm_mk rfl id rfl id rfl rfl rfl rfl

theorem calm_finishTake (s : State) (kind : Byte) (r : Result) (vs : List Nat) : Calm s (s.finishTake kind r vs) := by
  unfold State.finishTake
  refine Calm.trans ?_ (calm_settleTake _)
  refine Calm.trans ?_ (calm_post _ _ _)
  refine Calm.trans ((calm_issue s .orderIntake (s.slotAddr s.intake.expected + 12)
    ([byteOf (resultCode r), 0, 0, 0] ++ resultWords vs)).trans
    (calm_issue _ .orderIntake (s.slotAddr s.intake.expected + 8)
      (leBytes 4 (s.slotSeq s.intake.expected).toNat))) ?_
  exact calm_mk (issue_regions _ _ _ _ _) (fun h => issue_lawful h _ _ _ _) rfl id rfl rfl rfl rfl

theorem calm_answer (s : State) (k : OrderKind) (r : Result) (vs : List Nat) : Calm s (s.answer k r vs) :=
  calm_finishTake s _ r vs

theorem calm_finishDump (s : State) (d : DumpState) : Calm s (s.finishDump d) := by
  unfold State.finishDump; try dsimp only
  repeat' (first
    | with_reducible apply Calm.refl
    | with_reducible apply Calm.after (calm_answer _ _ _ _)
    | with_reducible rfl
    | with_reducible apply Calm.after (calm_mk ?_ ?_ ?_ ?_ ?_ ?_ ?_ ?_ ?_ ?_ ?_ ?_ ?_ ?_)
    | rfl
    | exact fun h => h
    | exact fun _ h => h)

theorem calm_settleDump (s : State) : Calm s (s.settleDump) := by
  unfold State.settleDump; try dsimp only
  repeat' (first
    | with_reducible apply Calm.refl
    | (split <;> try dsimp only)
    | with_reducible apply Calm.after (calm_finishDump _ _)
    | with_reducible rfl)

theorem calm_rewriteCount (s : State) (x : Word) (n : Nat) : Calm s (s.rewriteCount x n) := by
  unfold State.rewriteCount; try dsimp only
  repeat' (first
    | with_reducible apply Calm.refl
    | with_reducible apply Calm.after (calm_issue _ _ _ _)
    | with_reducible rfl)

theorem calm_guardHit (s : State) (g : GuardArea) (a : Nat) : Calm s (s.guardHit g a) := by
  unfold State.guardHit; try dsimp only
  repeat' (first
    | with_reducible apply Calm.refl
    | (split <;> try dsimp only)
    | with_reducible apply Calm.after (calm_rewriteCount _ _ _)
    | with_reducible apply Calm.after (calm_putGuard _ _ _)
    | with_reducible apply Calm.after (calm_post _ _ _)
    | with_reducible rfl
    | with_reducible apply Calm.after (calm_mk ?_ ?_ ?_ ?_ ?_ ?_ ?_ ?_ ?_ ?_ ?_ ?_ ?_ ?_)
    | rfl
    | exact fun h => h
    | exact fun _ h => h)

theorem calm_writeMissed (s : State) : Calm s (s.writeMissed) := by
  unfold State.writeMissed; try dsimp only
  repeat' (first
    | with_reducible apply Calm.refl
    | with_reducible apply Calm.after (calm_issue _ _ _ _)
    | with_reducible rfl)

theorem calm_takeEventConsumer (s : State) (v : Word) : Calm s (s.takeEventConsumer v) := by
  unfold State.takeEventConsumer
  dsimp only
  split
  · exact Calm.refl s
  · rename_i c
    have low : s.reporter.missed ≤ 65535 → (if v = s.reporter.producer then 0 else s.reporter.missed) ≤ 65535 := by
      intro h
      split <;> omega
    have c : ¬ 256 < (s.reporter.producer - v).toNat := c
    have key : ∀ (g : List (GuardArea × GuardRec)) (r : Reporter), r.producer = s.reporter.producer → r.consumer = v →
        (s.reporter.missed ≤ 65535 → r.missed ≤ 65535) →
        Calm s { s with reporter := r, path := { s.path with guards := g } } := by
      intro g r h1 h2 h3
      refine calm_mk rfl (fun h => h) rfl (fun h => ⟨?_, h3 h.2⟩) rfl rfl rfl rfl
      rw [h1, h2]
      omega
    split
    · refine Calm.trans ?_ (calm_writeMissed _)
      refine key _ _ rfl rfl (fun h => ?_)
      first | exact low h | exact Nat.zero_le _
    · refine key _ _ rfl rfl (fun h => ?_)
      first | exact low h | exact h

theorem calm_takeChargeConsumer (s : State) (v : Word) : Calm s (s.takeChargeConsumer v) := by
  unfold State.takeChargeConsumer
  dsimp only
  split
  · exact Calm.refl s
  · rename_i c
    have key : Calm s (drainOverflow s.meter.overflow { s with meter := { s.meter with consumer := v } }) := by
      obtain ⟨p, x, o, e, hr, hl, k1, k2, k3⟩ :=
        drainOverflow_spec s.meter.overflow { s with meter := { s.meter with consumer := v } }
      rw [e]
      refine calm_mk hr hl rfl id rfl rfl rfl rfl (h14 := fun y => ⟨k1 (by dsimp only; omega), fun z => ?_, ?_, y.2.2.2⟩)
      · exact decide_eq_false (k3 z)
      · exact Nat.le_trans (Nat.add_le_add_right (Nat.add_le_add_right k2 _) _) y.2.2.1
    split
    · exact key.trans (calm_arbiterPasses _)
    · exact key

theorem calm_giveReporter (s : State) (v : Word) : Calm s (s.giveReporter v) := by
  unfold State.giveReporter
  split
  · exact calm_mk rfl id rfl id rfl rfl rfl rfl
  · exact calm_takeEventConsumer _ _

theorem calm_takeGiven (n : Nat) (s : State) : Calm s (takeGiven n s) := by
  induction n generalizing s with
  | zero => exact Calm.refl s
  | succ n ih =>
    unfold takeGiven
    split
    · exact Calm.refl s
    · split
      · exact Calm.refl s
      · refine Calm.trans ?_ (ih _)
        refine Calm.trans ?_ (calm_takeEventConsumer _ _)
        exact calm_mk rfl id rfl id rfl rfl rfl rfl

theorem calm_giveConsumer (s : State) (v : Word) : Calm s (s.giveConsumer v) := by
  unfold State.giveConsumer
  split
  · exact calm_giveMeter _ _ rfl
  · exact calm_takeChargeConsumer _ _

/-- A piece of work that forms no charge record, once done, leaves the list. -/
theorem calm_dropWork (s : State) : Calm s { s with meter := { s.meter with work := s.meter.work.tail } } := by
  refine calm_mk rfl id rfl id rfl rfl rfl rfl (h14 := fun x => x.units (fun _ k => k) rfl rfl rfl rfl x.2.2.2 ?_)
  exact ((List.tail_sublist s.meter.work).filter _).length_le

/-- The first piece of the Meter's waiting work is done (R61). -/
theorem tame_finishWork (s : State) (w : MeterWork) (l : List MeterWork) (h : s.meter.work = w :: l) :
    Tame s (s.finishWork w) := by
  unfold State.finishWork
  cases w with
  | charge d a => exact ((calm_addCharge s d a).trans (calm_dropWork _)).tame
  | consumer v => exact ((calm_takeChargeConsumer s v).trans (calm_dropWork _)).tame
  | release c =>
    refine Tame.trans (Calm.tame ?_) (tame_settleReports _ _)
    have bills := formCharge_bills s c
    have k := calm_formCharge s c s.meter.recs l (fun _ hv => hv) (fun un m e1 e2 _ => by
      have : m.releases = (l.filter MeterWork.forms).length + 1 := by unfold Meter.releases; rw [e2, h]; rfl
      rw [e1]
      omega)
    have e : (s.formCharge c).meter.work.tail = l := by rw [bills.2, h]; rfl
    show Calm s { s.formCharge c with meter := { (s.formCharge c).meter with work := (s.formCharge c).meter.work.tail } }
    rw [e]
    rw [← bills.1] at k
    exact k

theorem tame_runWork (n : Nat) (s : State) : Tame s (runWork n s) := by
  induction n generalizing s with
  | zero => exact (Calm.refl s).tame
  | succ n ih =>
    unfold runWork
    split
    · exact (Calm.refl s).tame
    · rename_i w l h
      split
      · exact (Calm.refl s).tame
      · exact (tame_finishWork s w l h).trans (ih _)

theorem calm_endWindowPage (s : State) (w : WindowId) : Calm s (s.endWindowPage w) := by
  unfold State.endWindowPage; try dsimp only
  repeat' (first
    | with_reducible apply Calm.refl
    | with_reducible apply Calm.after (calm_modSource _ _ _)
    | with_reducible apply Calm.after (calm_modWindow _ _ _)
    | with_reducible rfl
    | with_reducible apply Calm.after (calm_mk ?_ ?_ ?_ ?_ ?_ ?_ ?_ ?_ ?_ ?_ ?_ ?_ ?_ ?_)
    | rfl
    | exact fun h => h
    | exact fun _ h => h)

theorem calm_handSlot (s : State) (w : WindowId) (i : SlotId) : Calm s (s.handSlot w i) := by
  unfold State.handSlot; try dsimp only
  repeat' (first
    | with_reducible apply Calm.refl
    | (split <;> try dsimp only)
    | with_reducible apply Calm.after (calm_endWindowPage _ _)
    | with_reducible apply Calm.after (calm_modSource _ _ _)
    | with_reducible apply Calm.after (calm_modWindow _ _ _)
    | with_reducible rfl
    | with_reducible apply Calm.after (calm_mk ?_ ?_ ?_ ?_ ?_ ?_ ?_ ?_ ?_ ?_ ?_ ?_ ?_ ?_)
    | rfl
    | exact fun h => h
    | exact fun _ h => h)

theorem calm_handTurns (s : State) (w : WindowId) (n : Nat) : Calm s (s.handTurns w n) := by
  induction n generalizing s with
  | zero => exact Calm.refl s
  | succ n ih =>
    unfold State.handTurns
    dsimp only
    split
    · exact (calm_handSlot _ _ _).trans (ih _)
    · exact Calm.refl s

/-- The state that a window's answer carries. -/
def WindowAnswer.state : WindowAnswer → State
  | .taken s => s
  | .refused s => s
  | .held _ s => s

theorem calm_placeFixed (w : WindowId) (a : Nat) (bs : List Byte) (s : State) :
    Calm s (placeFixed w a bs s).state := by
  induction bs generalizing s with
  | nil => exact Calm.refl s
  | cons b bs ih =>
    unfold placeFixed
    dsimp only
    split
    · exact calm_guardHit _ _ _
    · split
      · exact calm_modWindow s w (fun y => { y with state := .holding })
      · refine Calm.trans ?_ (ih _)
        split
        · exact (calm_modWindow _ _ _).trans (calm_handSlot _ _ _)
        · exact calm_modWindow _ _ _

theorem calm_placeIndexed (w : WindowId) (b : Nat) (g : Seg) (s : State) :
    Calm s (placeIndexed w b g s).state := by
  unfold placeIndexed
  dsimp only
  split
  · exact calm_guardHit _ _ _
  · split
    · exact calm_modWindow s w (fun y => { y with state := .holding })
    · show Calm s ((s.modWindow w _).handTurns w 2)
      exact Calm.trans (calm_modWindow _ _ _) (calm_handTurns _ _ _)

theorem calm_windowWrite (s : State) (w : WindowId) (g : Seg) : Calm s (s.windowWrite w g).state := by
  unfold State.windowWrite
  dsimp only
  split
  · exact calm_guardHit _ _ _
  · exact calm_guardHit _ _ _
  · split
    · exact (calm_modWindow _ _ _).trans (calm_placeFixed _ _ _ _)
    · exact (calm_modWindow _ _ _).trans (calm_placeIndexed _ _ _ _)

theorem calm_alreadyRunning (s : State) : Calm s (s.alreadyRunning) := by
  unfold State.alreadyRunning; try dsimp only
  repeat' (first
    | with_reducible apply Calm.refl
    | with_reducible apply Calm.after (calm_issue _ _ _ _)
    | with_reducible rfl)

theorem calm_endCycle (s : State) (r : BusResult) : Calm s (s.endCycle r) := by
  unfold State.endCycle; try dsimp only
  repeat' (first
    | with_reducible apply Calm.refl
    | with_reducible rfl
    | with_reducible apply Calm.after (calm_mk ?_ ?_ ?_ ?_ ?_ ?_ ?_ ?_ ?_ ?_ ?_ ?_ ?_ ?_)
    | rfl
    | exact fun h => h
    | exact fun _ h => h)

theorem calm_holdCycle (s : State) (b : HostBus) : Calm s (s.holdCycle b) := by
  unfold State.holdCycle; try dsimp only
  repeat' (first
    | with_reducible apply Calm.refl
    | with_reducible rfl
    | with_reducible apply Calm.after (calm_mk ?_ ?_ ?_ ?_ ?_ ?_ ?_ ?_ ?_ ?_ ?_ ?_ ?_ ?_)
    | rfl
    | exact fun h => h
    | exact fun _ h => h)

theorem calm_watchSlot (s : State) (n : Nat) : Calm s (s.watchSlot n) := by
  unfold State.watchSlot
  split
  · refine Calm.trans ?_ (calm_slotPosted _ _)
    exact calm_mk rfl (fun h => h) rfl id rfl rfl rfl rfl
  · exact Calm.refl s

theorem calm_hostRead (s : State) (a n : Nat) : Calm s (s.hostRead a n) := by
  unfold State.hostRead
  split
  · exact Calm.refl s
  · split
    · exact calm_endCycle _ _
    · split
      · exact calm_holdCycle _ _
      · exact calm_endCycle _ _

theorem calm_grantPort (s : State) (rs : List Requester) : Calm s (s.grantPort rs) := by
  have cycle : ∀ r k, Calm s { s with path := { s.path with cycle := (k + 1) % 12, granted := some r } } := by
    intro r k
    refine ⟨⟨rfl, rfl, rfl, rfl, rfl, rfl, rfl⟩, rfl, rfl, rfl, fun o x => ?_⟩
    exact ⟨⟨x.1.1, x.1.2.1, x.1.2.2.1, Nat.mod_lt _ (by decide)⟩, x.2⟩
  unfold State.grantPort
  dsimp only
  split
  · exact calm_mk rfl (fun h => h) rfl id rfl rfl rfl rfl
  · split
    · exact calm_mk rfl (fun h => h) rfl id rfl rfl rfl rfl
    · split
      · exact cycle _ _
      · exact Calm.refl s

theorem calm_windowSealed (s : State) (w : WindowId) (last : Bool) : Calm s (s.windowSealed w last) := by
  unfold State.windowSealed; try dsimp only
  repeat' (first
    | with_reducible apply Calm.refl
    | (split <;> try dsimp only)
    | with_reducible apply Calm.after (calm_closeDocument _ _ _)
    | with_reducible apply Calm.after (calm_modDoc _ _ _ ?_)
    | with_reducible apply Calm.after (calm_modWindow _ _ _)
    | with_reducible rfl
    | with_reducible apply Calm.after (calm_mk ?_ ?_ ?_ ?_ ?_ ?_ ?_ ?_ ?_ ?_ ?_ ?_ ?_ ?_)
    | rfl
    | exact fun h => h
    | exact fun _ h => h
    | exact fun _ => rfl)

theorem calm_turnMarker (s : State) (i : SourceId) : Calm s (s.turnMarker i) := by
  cases i with
  | scan => exact Calm.refl s
  | win w => exact calm_mk rfl id rfl id rfl rfl rfl rfl

theorem calm_ownerSealed (s : State) (i : SourceId) (last : Bool) : Calm s (s.ownerSealed i last) := by
  unfold State.ownerSealed; try dsimp only
  repeat' (first
    | with_reducible apply Calm.refl
    | (split <;> try dsimp only)
    | with_reducible apply Calm.after (calm_windowSealed _ _ _)
    | with_reducible apply Calm.after (calm_scanSealed _ _)
    | with_reducible rfl)

theorem calm_ownerPage (s : State) (i : SourceId) (p : Option Nat) : Calm s (s.ownerPage i p) := by
  unfold State.ownerPage; try dsimp only
  repeat' (first
    | with_reducible apply Calm.refl
    | (split <;> try dsimp only)
    | with_reducible apply Calm.after (calm_modWindow _ _ _)
    | with_reducible rfl
    | with_reducible apply Calm.after (calm_mk ?_ ?_ ?_ ?_ ?_ ?_ ?_ ?_ ?_ ?_ ?_ ?_ ?_ ?_)
    | rfl
    | exact fun h => h
    | exact fun _ h => h)

theorem calm_sourceWaits (s : State) (i : SourceId) (c : WaitCause) : Calm s (s.sourceWaits i c) := by
  unfold State.sourceWaits; try dsimp only
  repeat' (first
    | with_reducible apply Calm.refl
    | with_reducible apply Calm.after (calm_modSource _ _ _)
    | with_reducible rfl
    | with_reducible apply Calm.after (calm_mk ?_ ?_ ?_ ?_ ?_ ?_ ?_ ?_ ?_ ?_ ?_ ?_ ?_ ?_)
    | rfl
    | exact fun h => h
    | exact fun _ h => h)

theorem calm_markCoding (s : State) (i : SourceId) (n : Nat) : Calm s (s.markCoding i n) := by
  cases i with
  | scan => exact calm_mk rfl id rfl id rfl rfl List.length_set rfl
  | win w => exact Calm.refl s

theorem calm_placeEnd_eq {s t : State} {i : SourceId} {p : Nat} {bs : List Byte} {b : Bool}
    (h : s.placeEnd i p bs = (b, t)) : Calm s t := by
  unfold State.placeEnd at h
  split at h
  · cases h
    exact ((calm_place_eq (by assumption)).trans (calm_sealPage _ _)).trans (calm_modSource _ _ _)
  · cases h
    exact ((calm_place_eq (by assumption)).trans (calm_modSource _ _ _)).trans (calm_sourceWaits _ _ _)

theorem calm_serveSeal (s : State) (i : SourceId) : Calm s (s.serveSeal i) := by
  unfold State.serveSeal; try dsimp only
  repeat' (first
    | with_reducible apply Calm.refl
    | (split <;> try dsimp only)
    | with_reducible apply Calm.after (calm_placeEnd_eq ‹_›)
    | with_reducible apply Calm.after (calm_ownerSealed _ _ _)
    | with_reducible apply Calm.after (calm_modSource _ _ _)
    | with_reducible rfl
    | with_reducible apply Calm.after (calm_mk ?_ ?_ ?_ ?_ ?_ ?_ ?_ ?_ ?_ ?_ ?_ ?_ ?_ ?_)
    | rfl
    | exact fun h => h
    | exact fun _ h => h)

theorem calm_sealService (s : State) : Calm s (s.sealService) := by
  unfold State.sealService; try dsimp only
  repeat' (first
    | with_reducible apply Calm.refl
    | (split <;> try dsimp only)
    | with_reducible apply Calm.after (calm_serveSeal _ _)
    | with_reducible apply Calm.after (calm_turnMarker _ _)
    | with_reducible apply Calm.after (calm_scanRetry _)
    | with_reducible rfl)

theorem findKey_absent {k : KeyKind} {key : Text} {t : Table ScreenEntry}
    (h : ∀ x ∈ t, (x.2.keyKind, x.2.key) ≠ (k, key)) : findKey k key t = none := by
  induction t with
  | nil => rfl
  | cons y t ih =>
    obtain ⟨j, e⟩ := y
    unfold findKey
    rw [if_neg (fun x => h (j, e) List.mem_cons_self (by rw [x.1, x.2])), ih (fun x hx => h x (List.mem_cons_of_mem _ hx))]

/-- Learning a station that no entry has (R161). -/
theorem calm_learnCaller (s : State) (u : UnitId) (st : Text)
    (h : st ≠ [] → st.all isStationKey = true → findKey .station st s.screen.entries = none) :
    Calm s (s.learnCaller u st) := by
  unfold State.learnCaller
  dsimp only
  split
  · exact Calm.refl s
  · rename_i c
    simp only [not_or] at c
    split
    · rename_i i hi
      refine calm_modScreen _ _ (fun x => screen_add x hi _ ?_ (fun m => ?_))
      · exact h c.1 (Bool.eq_true_of_not_eq_false c.2.1)
      · have := c.2.2
        unfold Screen.learns at this
        rw [m] at this
        exact absurd rfl this
    · split
      · exact Calm.refl s
      · exact (calm_modScreen _ _ (fun x => x)).trans (calm_post _ _ _)

theorem screen_accept (c : Screen) (i : Nat) (now : Stamp) (h : c.Lawful) : (c.modEntry i (ScreenEntry.accept now)).Lawful :=
  screen_mod h _ _ (fun _ => ⟨rfl, fun k => k⟩)

theorem screen_count (c : Screen) (i : Nat) (now : Stamp) (h : c.Lawful) : (c.modEntry i (ScreenEntry.count now)).Lawful :=
  screen_mod h _ _ (fun _ => ⟨rfl, fun k => k⟩)

/-- The lookup at ORDER, for a station ID of at most 20 characters (R159 to R161). -/
theorem calm_lookupOrder_eq {s t : State} {u : UnitId} {st : Text} {a : OrderAnswer}
    (h : s.lookupOrder u st = (a, t)) (len : st.length ≤ 20) : Calm s t := by
  unfold State.lookupOrder at h
  dsimp only at h
  have drop : ∀ x : State, Calm x (x.modScreen (fun y => y.setMatch u none)) := fun x =>
    calm_modScreen _ _ (fun h => h)
  split at h
  · split at h <;> cases h
    · exact (calm_modScreen _ _ (screen_count _ _ _)).trans (drop _)
    · exact drop _
  · cases h; exact drop _
  · rename_i g _
    cases h
    have key : ∀ g : Option (Nat × ScreenEntry), Calm s (match g with
        | some (i, _) => s.modScreen (fun y => y.modEntry i (ScreenEntry.accept s.now))
        | none => s) := by
      intro g
      cases g with
      | none => exact Calm.refl s
      | some x => exact calm_modScreen _ _ (screen_accept _ _ _)
    split
    · rename_i hl
      refine ((key g).trans (drop _)).trans (calm_learnCaller _ _ _ (fun h1 h2 => ?_))
      have none : findKey .station st s.screen.entries = none := by
        unfold Screen.lookup at hl
        dsimp only at hl
        rw [if_neg] at hl
        · exact hl
        · rw [h2]
          simp only [Bool.true_eq_false, or_false, not_or, not_lt]
          exact ⟨h1, len⟩
      have no := findKey_none none
      cases g with
      | none => exact none
      | some x =>
        obtain ⟨i, e⟩ := x
        refine findKey_absent (fun z hz => ?_)
        obtain ⟨w, hw, ew⟩ := List.mem_map.1 hz
        have old := no w hw
        subst ew
        split
        · exact old
        · exact old
    · exact (key g).trans (drop _)

theorem screen_visit (c : Screen) (i : Nat) (h : c.Lawful) : (c.visit i).1.Lawful := by
  unfold Screen.visit
  split
  · exact h
  · split
    · exact screen_sub h List.filter_sublist (fun m x hx => h.2.2 m x (List.mem_filter.1 hx).1)
    · exact screen_mod h _ _ (fun _ => ⟨rfl, fun k => k⟩)

theorem calm_pacingPulse (s : State) : Calm s s.pacingPulse := by
  unfold State.pacingPulse
  split
  · refine calm_modScreen _ _ (fun h => ?_)
    obtain ⟨h1, h2, h3⟩ := h
    refine ⟨tableIn_of_keys h1 (by rw [List.map_map]; rfl), ?_, fun m x hx => ?_⟩
    · dsimp only
      rw [List.map_map]
      exact h2
    · obtain ⟨w, hw, ew⟩ := List.mem_map.1 hx
      subst ew
      exact h3 m w hw
  · exact Calm.refl s

theorem calm_ageExpiry (s : State) : Calm s s.ageExpiry := by
  unfold State.ageExpiry
  split
  · refine calm_modScreen _ _ (fun h => ?_)
    unfold Screen.startSweep
    split <;> exact h
  · exact Calm.refl s

theorem calm_sweepVisit (s : State) : Calm s s.sweepVisit := by
  unfold State.sweepVisit
  split
  · exact Calm.refl s
  · rename_i w _
    dsimp only
    split
    · exact calm_mk rfl id rfl id rfl rfl rfl rfl (h12 := fun h => screen_visit _ w.cursor h)
    · refine Calm.trans ?_ (calm_post _ _ _)
      exact calm_mk rfl id rfl id rfl rfl rfl rfl (h12 := fun h => screen_visit _ w.cursor h)

end Sys2Proof.Machine
end

