-- ==== Sys2Proof/Laws/CalmUnits.lean ====
section
/-! SUPPORT. The operations of the line units, their recoders and both sides of the page exchange are calm. -/

set_option linter.unusedTactic false
set_option linter.unreachableTactic false
set_option Elab.async false

namespace Sys2Proof.Machine

open Sys2Proof

theorem calm_txStart (s : State) (u : UnitId) (d position : Nat) (o : OrderMode) : Calm s (s.txStart u d position o) := by
  unfold State.txStart; try dsimp only
  repeat' (first
    | with_reducible apply Calm.refl
    | (split <;> try dsimp only)
    | with_reducible apply Calm.after (calm_modUnit _ _ _ ?_)
    | with_reducible rfl
    | with_reducible apply Calm.after (calm_mk ?_ ?_ ?_ ?_ ?_ ?_ ?_ ?_ ?_ ?_ ?_ ?_ ?_ ?_)
    | rfl
    | exact fun h => h
    | exact fun _ h => h
    | exact fun _ => ⟨.inl rfl, fun h => h, fun h => h⟩)

theorem calm_transmitRecode (s : State) (u : UnitId) : Calm s (s.transmitRecode u) := by
  unfold State.transmitRecode; try dsimp only
  repeat' (first
    | with_reducible apply Calm.refl
    | (split <;> try dsimp only)
    | with_reducible apply Calm.after (calm_modUnit _ _ _ ?_)
    | with_reducible rfl
    | with_reducible apply Calm.after (calm_mk ?_ ?_ ?_ ?_ ?_ ?_ ?_ ?_ ?_ ?_ ?_ ?_ ?_ ?_)
    | rfl
    | exact fun h => h
    | exact fun _ h => h
    | exact fun _ => ⟨.inl rfl, fun h => h, fun h => h⟩)

theorem calm_sendData (s : State) (u : UnitId) (bs : List Byte) : Calm s (s.sendData u bs) := by
  unfold State.sendData; try dsimp only
  repeat' (first
    | with_reducible apply Calm.refl
    | with_reducible apply Calm.after (calm_sendLink _ _ _)
    | with_reducible apply Calm.after (calm_modUnit _ _ _ ?_)
    | with_reducible rfl
    | with_reducible apply Calm.after (calm_mk ?_ ?_ ?_ ?_ ?_ ?_ ?_ ?_ ?_ ?_ ?_ ?_ ?_ ?_)
    | rfl
    | exact fun h => h
    | exact fun _ h => h
    | exact fun _ => ⟨.inl rfl, fun h => h, fun h => h⟩)

theorem calm_takeFifo (s : State) (u : UnitId) (t : TxRecoder) (n : Nat) : Calm s (s.takeFifo u t n) := by
  unfold State.takeFifo; try dsimp only
  repeat' (first
    | with_reducible apply Calm.refl
    | (split <;> try dsimp only)
    | with_reducible apply Calm.after (calm_sendData _ _ _)
    | with_reducible apply Calm.after (calm_modUnit _ _ _ ?_)
    | with_reducible rfl
    | with_reducible apply Calm.after (calm_mk ?_ ?_ ?_ ?_ ?_ ?_ ?_ ?_ ?_ ?_ ?_ ?_ ?_ ?_)
    | rfl
    | exact fun h => h
    | exact fun _ h => h
    | exact fun _ => ⟨.inl rfl, fun h => h, fun h => h⟩)

theorem calm_sendFill (s : State) (u : UnitId) (t : TxRecoder) (n : Nat) : Calm s (s.sendFill u t n) := by
  unfold State.sendFill; try dsimp only
  repeat' (first
    | with_reducible apply Calm.refl
    | with_reducible apply Calm.after (calm_sendData _ _ _)
    | with_reducible apply Calm.after (calm_modUnit _ _ _ ?_)
    | with_reducible rfl
    | with_reducible apply Calm.after (calm_mk ?_ ?_ ?_ ?_ ?_ ?_ ?_ ?_ ?_ ?_ ?_ ?_ ?_ ?_)
    | rfl
    | exact fun h => h
    | exact fun _ h => h
    | exact fun _ => ⟨.inl rfl, fun h => h, fun h => h⟩)

theorem calm_linkTake (s : State) (u : UnitId) (n : Nat) : Calm s (s.linkTake u n) := by
  unfold State.linkTake
  dsimp only
  split
  · exact Calm.refl s
  · split
    · exact calm_takeFifo _ _ _ _
    · split
      · exact calm_sendFill _ _ _ _
      · exact Calm.refl s

theorem calm_rxBegin (s : State) (u : UnitId) (d : Nat) (w : Width) (v : Resolution) : Calm s (s.rxBegin u d w v) := by
  unfold State.rxBegin; try dsimp only
  repeat' (first
    | with_reducible apply Calm.refl
    | (split <;> try dsimp only)
    | with_reducible apply Calm.after (calm_openPage_eq ‹_›)
    | with_reducible apply Calm.after (calm_modUnit _ _ _ ?_)
    | with_reducible rfl
    | with_reducible apply Calm.after (calm_mk ?_ ?_ ?_ ?_ ?_ ?_ ?_ ?_ ?_ ?_ ?_ ?_ ?_ ?_)
    | rfl
    | exact fun h => h
    | exact fun _ h => h
    | exact fun _ => ⟨.inl rfl, fun h => h, fun h => h⟩)

theorem calm_rxAbandon (s : State) (u : UnitId) : Calm s (s.rxAbandon u) := by
  unfold State.rxAbandon; try dsimp only
  repeat' (first
    | with_reducible apply Calm.refl
    | (split <;> try dsimp only)
    | with_reducible apply Calm.after (calm_abandonPage _ _)
    | with_reducible apply Calm.after (calm_modUnit _ _ _ ?_)
    | with_reducible rfl
    | with_reducible apply Calm.after (calm_mk ?_ ?_ ?_ ?_ ?_ ?_ ?_ ?_ ?_ ?_ ?_ ?_ ?_ ?_)
    | rfl
    | exact fun h => h
    | exact fun _ h => h
    | exact fun _ => ⟨.inl rfl, fun h => h, fun h => h⟩)

theorem calm_rxStore (s : State) (u : UnitId) (ts : List Nat) : Calm s (s.rxStore u ts) := by
  unfold State.rxStore; try dsimp only
  repeat' (first
    | with_reducible apply Calm.refl
    | (split <;> try dsimp only)
    | with_reducible apply Calm.after (calm_place_eq ‹_›)
    | with_reducible apply Calm.after (calm_modPage _ _ _ ?_)
    | with_reducible apply Calm.after (calm_modUnit _ _ _ ?_)
    | with_reducible rfl
    | with_reducible apply Calm.after (calm_mk ?_ ?_ ?_ ?_ ?_ ?_ ?_ ?_ ?_ ?_ ?_ ?_ ?_ ?_)
    | rfl
    | exact fun h => h
    | exact fun _ h => h
    | exact fun _ => ⟨.inl rfl, fun h => h, fun h => h⟩
    | exact fun _ => rfl)

theorem calm_rxGood (s : State) (u : UnitId) (ts : List Nat) : Calm s (s.rxGood u ts) := by
  unfold State.rxGood; try dsimp only
  repeat' (first
    | with_reducible apply Calm.refl
    | with_reducible apply Calm.after (calm_rxStore _ _ _)
    | with_reducible apply Calm.after (calm_modUnit _ _ _ ?_)
    | with_reducible rfl
    | with_reducible apply Calm.after (calm_mk ?_ ?_ ?_ ?_ ?_ ?_ ?_ ?_ ?_ ?_ ?_ ?_ ?_ ?_)
    | rfl
    | exact fun h => h
    | exact fun _ h => h
    | exact fun _ => ⟨.inl rfl, fun h => h, fun h => h⟩)

theorem calm_rxBad (s : State) (u : UnitId) : Calm s (s.rxBad u) := by
  unfold State.rxBad; try dsimp only
  repeat' (first
    | with_reducible apply Calm.refl
    | with_reducible apply Calm.after (calm_rxStore _ _ _)
    | with_reducible apply Calm.after (calm_modUnit _ _ _ ?_)
    | with_reducible rfl
    | with_reducible apply Calm.after (calm_mk ?_ ?_ ?_ ?_ ?_ ?_ ?_ ?_ ?_ ?_ ?_ ?_ ?_ ?_)
    | rfl
    | exact fun h => h
    | exact fun _ h => h
    | exact fun _ => ⟨.inl rfl, fun h => h, fun h => h⟩)

theorem calm_rxEnded (s : State) (u : UnitId) (e : Bool) : Calm s (s.rxEnded u e).2 :=
  calm_modUnit s u (fun l => { l with rx := { l.rx with state := .ended, line := [] } }) (fun _ => by exact ⟨.inl rfl, fun h => h, fun h => h⟩)

theorem calm_rxByte (s : State) (u : UnitId) (b : Byte) : Calm s (s.rxByte u b).2 := by
  unfold State.rxByte
  dsimp only
  split
  · exact calm_modUnit s u (fun l => { l with rx := { l.rx with line := (s.unit u).rx.line ++ [b] } }) (fun _ => by exact ⟨.inl rfl, fun h => h, fun h => h⟩)
  · exact calm_modUnit s u (fun l => { l with rx := { l.rx with line := [] } }) (fun _ => by exact ⟨.inl rfl, fun h => h, fun h => h⟩)
  · exact calm_rxEnded _ _ _
  · exact calm_rxGood _ _ _
  · exact calm_rxBad _ _

theorem calm_rxItem (s : State) (u : UnitId) (i : RxItem) : Calm s (s.rxItem u i).2 := by
  unfold State.rxItem
  split
  · exact calm_rxByte _ _ _
  · exact calm_rxBad _ _
  · split
    · exact calm_rxEnded _ _ _
    · exact (calm_rxBad _ _).trans (calm_rxEnded _ _ _)
  · split
    · exact calm_rxEnded _ _ _
    · exact (calm_rxBad _ _).trans (calm_rxEnded _ _ _)

theorem calm_rxTake (s : State) (u : UnitId) : Calm s (s.rxTake u).2 := by
  unfold State.rxTake
  split
  · exact Calm.refl s
  · rename_i i rest _
    dsimp only
    have key : Calm s (s.modUnit u (fun l => { l with rxFifo := rest })) :=
      calm_modUnit _ _ _ (fun _ => by exact ⟨.inl rfl, fun h => h, fun h => h⟩)
    split
    · exact key.trans (calm_rxItem _ _ _)
    · exact key

theorem calm_rxTake_eq {s t : State} {u : UnitId} {r : Option RxReport} (h : s.rxTake u = (r, t)) : Calm s t := by
  have := calm_rxTake s u
  rw [h] at this
  exact this

theorem calm_rxSeal_eq {s t : State} {u : UnitId} {b : Bool} (h : s.rxSeal u = (b, t)) : Calm s t := by
  unfold State.rxSeal at h
  split at h
  · cases h; exact Calm.refl _
  · split at h <;> cases h
    · exact ((calm_place_eq (by assumption)).trans (calm_sealPage _ _)).trans (calm_modUnit _ _ _ (fun _ => by exact ⟨.inl rfl, fun h => h, fun h => h⟩))
    · exact calm_place_eq (by assumption)

theorem calm_sendFrame (s : State) (u : UnitId) (f : Frame) : Calm s (s.sendFrame u f) := by
  unfold State.sendFrame; try dsimp only
  repeat' (first
    | with_reducible apply Calm.refl
    | with_reducible apply Calm.after (calm_sendLink _ _ _)
    | with_reducible rfl)

theorem calm_modCaller (s : State) (u : UnitId) (f : CallerSession → CallerSession) : Calm s (s.modCaller u f) := by
  unfold State.modCaller; try dsimp only
  repeat' (first
    | with_reducible apply Calm.refl
    | with_reducible apply Calm.after (calm_modUnit _ _ _ ?_)
    | with_reducible rfl
    | with_reducible apply Calm.after (calm_mk ?_ ?_ ?_ ?_ ?_ ?_ ?_ ?_ ?_ ?_ ?_ ?_ ?_ ?_)
    | rfl
    | exact fun h => h
    | exact fun _ h => h
    | exact fun _ => ⟨.inl rfl, fun h => h, fun h => h⟩)

theorem calm_sendCheckFor (s : State) (u : UnitId) (o : OrderMode) (check : Bool) : Calm s (s.sendCheckFor u o check) := by
  unfold State.sendCheckFor; try dsimp only
  repeat' (first
    | with_reducible apply Calm.refl
    | (split <;> try dsimp only)
    | with_reducible apply Calm.after (calm_sendLink _ _ _)
    | with_reducible rfl)

theorem calm_sendOrder (s : State) (u : UnitId) (c : CallerSession) (check : Bool) : Calm s (s.sendOrder u c check) := by
  unfold State.sendOrder; try dsimp only
  repeat' (first
    | with_reducible apply Calm.refl
    | (split <;> try dsimp only)
    | with_reducible apply Calm.after (calm_sendCheckFor _ _ _ _)
    | with_reducible apply Calm.after (calm_sendFrame _ _ _)
    | with_reducible apply Calm.after (calm_modUnit _ _ _ ?_)
    | with_reducible rfl
    | with_reducible apply Calm.after (calm_mk ?_ ?_ ?_ ?_ ?_ ?_ ?_ ?_ ?_ ?_ ?_ ?_ ?_ ?_)
    | rfl
    | exact fun h => h
    | exact fun _ h => h
    | exact fun _ => ⟨.inl rfl, fun h => h, fun h => h⟩)

theorem calm_beginCallerPage (s : State) (u : UnitId) (c : CallerSession) : Calm s (s.beginCallerPage u c) := by
  unfold State.beginCallerPage; try dsimp only
  repeat' (first
    | with_reducible apply Calm.refl
    | (split <;> try dsimp only)
    | with_reducible apply Calm.after (calm_txStart _ _ _ _ _)
    | with_reducible apply Calm.after (calm_modUnit _ _ _ ?_)
    | with_reducible rfl
    | with_reducible apply Calm.after (calm_mk ?_ ?_ ?_ ?_ ?_ ?_ ?_ ?_ ?_ ?_ ?_ ?_ ?_ ?_)
    | rfl
    | exact fun h => h
    | exact fun _ h => h
    | exact fun _ => ⟨.inl rfl, fun h => h, fun h => h⟩)

theorem calm_callerSuccess (s : State) (u : UnitId) : Calm s (s.callerSuccess u) := by
  unfold State.callerSuccess; try dsimp only
  repeat' (first
    | with_reducible apply Calm.refl
    | with_reducible apply Calm.after (calm_sendFrame _ _ _)
    | with_reducible apply Calm.after (calm_endCall _ _ _)
    | with_reducible rfl)

theorem calm_startCaller (s : State) (u : UnitId) : Calm s (s.startCaller u) := by
  unfold State.startCaller; try dsimp only
  repeat' (first
    | with_reducible apply Calm.refl
    | (split <;> try dsimp only)
    | with_reducible apply Calm.after (calm_callerSuccess _ _)
    | with_reducible apply Calm.after (calm_handOver _ _ _ _)
    | with_reducible apply Calm.after (calm_modUnit _ _ _ ?_)
    | with_reducible rfl
    | with_reducible apply Calm.after (calm_mk ?_ ?_ ?_ ?_ ?_ ?_ ?_ ?_ ?_ ?_ ?_ ?_ ?_ ?_)
    | rfl
    | exact fun h => h
    | exact fun _ h => h
    | exact fun _ => ⟨.inl rfl, fun h => h, fun h => h⟩)

/-- An unanswered outgoing call is answered, and metering starts (R102, R185). -/
theorem calm_answered (s : State) (u : UnitId) (h : (s.unit u).calling = true) : Calm s (s.answered u) := by
  unfold State.answered
  refine Calm.trans ?_ (calm_startCaller _ _)
  have nm : (s.unit u).metered = false := metered_false (fun k => by
    unfold LineUnit.calling at h; rw [k] at h; exact absurd h Bool.false_ne_true)
  unfold State.meterStart
  split
  · dsimp only
    refine Calm.trans ?_ (calm_chargeDesk _ _ _)
    refine calm_mk rfl id rfl id rfl rfl rfl rfl (h13 := fun o x => x.units (fun v => ?_))
      (h14 := fun x => x.units (fun v hv => ?_) rfl rfl rfl rfl (fun v hv => ?_))
    · dsimp only [State.modUnit]
      rw [quad_set_get]
      split
      · rename_i e; subst e; exact .inl rfl
      · exact .inl rfl
    · unfold mayCharge at hv ⊢
      dsimp only [State.modUnit] at hv
      rw [quad_set_get, quad_set_get] at hv
      by_cases e : v = u
      · subst e; rw [show (s.units.get v).calling = true from h, Bool.true_or]
      · rw [if_neg e, if_neg e] at hv; exact hv
    · dsimp only [State.modUnit] at hv ⊢
      rw [quad_set_get] at hv ⊢
      by_cases e : v = u
      · rw [if_pos e]; rfl
      · rw [if_neg e] at hv ⊢; exact x.2.2.2 v hv
  · exact calm_modUnitAt _ _ _ (.inl rfl) (fun k => absurd k Bool.false_ne_true)
      (fun k _ => absurd k (by rw [nm]; exact Bool.false_ne_true))

theorem calm_callerOffer (s : State) (u : UnitId) (c : CallerSession) (o : OfferMode) : Calm s (s.callerOffer u c o) := by
  unfold State.callerOffer; try dsimp only
  repeat' (first
    | with_reducible apply Calm.refl
    | (split <;> try dsimp only)
    | with_reducible apply Calm.after (calm_sendOrder _ _ _ _)
    | with_reducible apply Calm.after (calm_endCall _ _ _)
    | with_reducible rfl
    | with_reducible apply Calm.after (calm_mk ?_ ?_ ?_ ?_ ?_ ?_ ?_ ?_ ?_ ?_ ?_ ?_ ?_ ?_)
    | rfl
    | exact fun h => h
    | exact fun _ h => h)

theorem calm_takeOffer (s : State) (u : UnitId) (o : OfferMode) : Calm s (s.takeOffer u o) := by
  unfold State.takeOffer
  dsimp only
  have k : Calm s (if (s.unit u).state = .awaitAnswer then s.answered u else s) := by
    split
    · rename_i h
      exact calm_answered _ _ (by unfold LineUnit.calling; rw [h])
    · exact Calm.refl s
  revert k
  generalize (if (s.unit u).state = .awaitAnswer then s.answered u else s) = t
  intro k
  split
  · split
    · exact k.trans (calm_callerOffer _ _ _ _)
    · exact k
  · exact k

theorem calm_callerReady (s : State) (u : UnitId) : Calm s (s.callerReady u) := by
  unfold State.callerReady; try dsimp only
  repeat' (first
    | with_reducible apply Calm.refl
    | (split <;> try dsimp only)
    | with_reducible apply Calm.after (calm_beginCallerPage _ _ _)
    | with_reducible rfl)

theorem calm_rateStep (s : State) (u : UnitId) (c : CallerSession) (fail : AttemptResult) : Calm s (s.rateStep u c fail) := by
  unfold State.rateStep; try dsimp only
  repeat' (first
    | with_reducible apply Calm.refl
    | (split <;> try dsimp only)
    | with_reducible apply Calm.after (calm_sendOrder _ _ _ _)
    | with_reducible apply Calm.after (calm_endCall _ _ _)
    | with_reducible rfl
    | with_reducible apply Calm.after (calm_mk ?_ ?_ ?_ ?_ ?_ ?_ ?_ ?_ ?_ ?_ ?_ ?_ ?_ ?_)
    | rfl
    | exact fun h => h
    | exact fun _ h => h)

theorem calm_callerSlower (s : State) (u : UnitId) : Calm s (s.callerSlower u) := by
  unfold State.callerSlower; try dsimp only
  repeat' (first
    | with_reducible apply Calm.refl
    | (split <;> try dsimp only)
    | with_reducible apply Calm.after (calm_rateStep _ _ _ _)
    | with_reducible rfl)

theorem calm_confirmPage (s : State) (u : UnitId) (n : Nat) : Calm s (s.confirmPage u n) := by
  unfold State.confirmPage; try dsimp only
  repeat' (first
    | with_reducible apply Calm.refl
    | (split <;> try dsimp only)
    | with_reducible apply Calm.after (calm_modEntry _ _ _ ?_)
    | with_reducible rfl
    | with_reducible apply Calm.after (calm_mk ?_ ?_ ?_ ?_ ?_ ?_ ?_ ?_ ?_ ?_ ?_ ?_ ?_ ?_)
    | rfl
    | exact fun h => h
    | exact fun _ h => h
    | exact fun _ => rfl)

theorem calm_callerGood (s : State) (u : UnitId) : Calm s (s.callerGood u) := by
  unfold State.callerGood; try dsimp only
  repeat' (first
    | with_reducible apply Calm.refl
    | (split <;> try dsimp only)
    | with_reducible apply Calm.after (calm_confirmPage _ _ _)
    | with_reducible apply Calm.after (calm_callerSuccess _ _)
    | with_reducible apply Calm.after (calm_beginCallerPage _ _ _)
    | with_reducible apply Calm.after (calm_sendOrder _ _ _ _)
    | with_reducible apply Calm.after (calm_modUnit _ _ _ ?_)
    | with_reducible rfl
    | with_reducible apply Calm.after (calm_mk ?_ ?_ ?_ ?_ ?_ ?_ ?_ ?_ ?_ ?_ ?_ ?_ ?_ ?_)
    | rfl
    | exact fun h => h
    | exact fun _ h => h
    | exact fun _ => ⟨.inl rfl, fun h => h, fun h => h⟩)

theorem calm_callerRedo (s : State) (u : UnitId) : Calm s (s.callerRedo u) := by
  unfold State.callerRedo; try dsimp only
  repeat' (first
    | with_reducible apply Calm.refl
    | (split <;> try dsimp only)
    | with_reducible apply Calm.after (calm_rateStep _ _ _ _)
    | with_reducible apply Calm.after (calm_beginCallerPage _ _ _)
    | with_reducible apply Calm.after (calm_modUnit _ _ _ ?_)
    | with_reducible rfl
    | with_reducible apply Calm.after (calm_mk ?_ ?_ ?_ ?_ ?_ ?_ ?_ ?_ ?_ ?_ ?_ ?_ ?_ ?_)
    | rfl
    | exact fun h => h
    | exact fun _ h => h
    | exact fun _ => ⟨.inl rfl, fun h => h, fun h => h⟩)

theorem calm_callerFails (s : State) (u : UnitId) (r : AttemptResult) : Calm s (s.callerFails u r) := by
  unfold State.callerFails; try dsimp only
  repeat' (first
    | with_reducible apply Calm.refl
    | (split <;> try dsimp only)
    | with_reducible apply Calm.after (calm_endCall _ _ _)
    | with_reducible rfl)

theorem calm_pageSent (s : State) (u : UnitId) : Calm s (s.pageSent u) := by
  unfold State.pageSent; try dsimp only
  repeat' (first
    | with_reducible apply Calm.refl
    | (split <;> try dsimp only)
    | with_reducible apply Calm.after (calm_modCaller _ _ _)
    | with_reducible apply Calm.after (calm_sendFrame _ _ _)
    | with_reducible apply Calm.after (calm_sendLink _ _ _)
    | with_reducible apply Calm.after (calm_modUnit _ _ _ ?_)
    | with_reducible rfl
    | with_reducible apply Calm.after (calm_mk ?_ ?_ ?_ ?_ ?_ ?_ ?_ ?_ ?_ ?_ ?_ ?_ ?_ ?_)
    | rfl
    | exact fun h => h
    | exact fun _ h => h
    | exact fun _ => ⟨.inl rfl, fun h => h, fun h => h⟩)

theorem calm_linkSend (s : State) (u : UnitId) (n : Nat) : Calm s (s.linkSend u n) := by
  unfold State.linkSend; try dsimp only
  repeat' (first
    | with_reducible apply Calm.refl
    | (split <;> try dsimp only)
    | with_reducible apply Calm.after (calm_pageSent _ _)
    | with_reducible apply Calm.after (calm_linkTake _ _ _)
    | with_reducible rfl)

theorem calm_callerWaitExpired (s : State) (u : UnitId) (c : CallerSession) : Calm s (s.callerWaitExpired u c) := by
  unfold State.callerWaitExpired; try dsimp only
  repeat' (first
    | with_reducible apply Calm.refl
    | (split <;> try dsimp only)
    | with_reducible apply Calm.after (calm_sendCheckFor _ _ _ _)
    | with_reducible apply Calm.after (calm_modCaller _ _ _)
    | with_reducible apply Calm.after (calm_sendFrame _ _ _)
    | with_reducible apply Calm.after (calm_endCall _ _ _)
    | with_reducible rfl
    | with_reducible apply Calm.after (calm_mk ?_ ?_ ?_ ?_ ?_ ?_ ?_ ?_ ?_ ?_ ?_ ?_ ?_ ?_)
    | rfl
    | exact fun h => h
    | exact fun _ h => h)

theorem calm_offerWaitExpired (s : State) (u : UnitId) : Calm s (s.offerWaitExpired u) := by
  unfold State.offerWaitExpired; try dsimp only
  repeat' (first
    | with_reducible apply Calm.refl
    | (split <;> try dsimp only)
    | with_reducible apply Calm.after (calm_endCall _ _ _)
    | with_reducible rfl)

theorem calm_setAnswerer (s : State) (u : UnitId) (a : AnswererSession) : Calm s (s.setAnswerer u a) := by
  unfold State.setAnswerer; try dsimp only
  repeat' (first
    | with_reducible apply Calm.refl
    | with_reducible apply Calm.after (calm_modUnit _ _ _ ?_)
    | with_reducible rfl
    | with_reducible apply Calm.after (calm_mk ?_ ?_ ?_ ?_ ?_ ?_ ?_ ?_ ?_ ?_ ?_ ?_ ?_ ?_)
    | rfl
    | exact fun h => h
    | exact fun _ h => h
    | exact fun _ => ⟨.inl rfl, fun h => h, fun h => h⟩)

theorem calm_callRefused (s : State) (u : UnitId) (r : RefuseReason) (b : Option Refusing) (station : Option Text) : Calm s (s.callRefused u r b station) := by
  unfold State.callRefused; try dsimp only
  repeat' (first
    | with_reducible apply Calm.refl
    | with_reducible apply Calm.after (calm_post _ _ _)
    | with_reducible rfl)

theorem calm_sendOffer (s : State) (u : UnitId) (a : AnswererSession) (n : Nat) : Calm s (s.sendOffer u a n) := by
  unfold State.sendOffer; try dsimp only
  repeat' (first
    | with_reducible apply Calm.refl
    | (split <;> try dsimp only)
    | with_reducible apply Calm.after (calm_setAnswerer _ _ _)
    | with_reducible apply Calm.after (calm_sendFrame _ _ _)
    | with_reducible rfl
    | with_reducible apply Calm.after (calm_mk ?_ ?_ ?_ ?_ ?_ ?_ ?_ ?_ ?_ ?_ ?_ ?_ ?_ ?_)
    | rfl
    | exact fun h => h
    | exact fun _ h => h)

theorem calm_startAnswerer (s : State) (u : UnitId) : Calm s (s.startAnswerer u) := by
  unfold State.startAnswerer; try dsimp only
  repeat' (first
    | with_reducible apply Calm.refl
    | with_reducible apply Calm.after (calm_sendOffer _ _ _ _)
    | with_reducible rfl
    | with_reducible apply Calm.after (calm_mk ?_ ?_ ?_ ?_ ?_ ?_ ?_ ?_ ?_ ?_ ?_ ?_ ?_ ?_)
    | rfl
    | exact fun h => h
    | exact fun _ h => h)

theorem calm_refuseCall (s : State) (u : UnitId) (r : RefuseReason) (b : Option Refusing) (station : Option Text) : Calm s (s.refuseCall u r b station) := by
  unfold State.refuseCall; try dsimp only
  repeat' (first
    | with_reducible apply Calm.refl
    | with_reducible apply Calm.after (calm_callRefused _ _ _ _ _)
    | with_reducible apply Calm.after (calm_releaseCall _ _)
    | with_reducible rfl)

theorem calm_sendStop (s : State) (u : UnitId) : Calm s (s.sendStop u) := by
  unfold State.sendStop; try dsimp only
  repeat' (first
    | with_reducible apply Calm.refl
    | with_reducible apply Calm.after (calm_sendFrame _ _ _)
    | with_reducible rfl)

theorem calm_cutReception (s : State) (u : UnitId) (a : AnswererSession) : Calm s (s.cutReception u a) := by
  unfold State.cutReception; try dsimp only
  repeat' (first
    | with_reducible apply Calm.refl
    | (split <;> try dsimp only)
    | with_reducible apply Calm.after (calm_rxAbandon _ _)
    | with_reducible apply Calm.after (calm_closeDocument _ _ _)
    | with_reducible rfl)

theorem calm_stopReception (s : State) (u : UnitId) (a : AnswererSession) : Calm s (s.stopReception u a) := by
  unfold State.stopReception; try dsimp only
  repeat' (first
    | with_reducible apply Calm.refl
    | with_reducible apply Calm.after (calm_cutReception _ _ _)
    | with_reducible apply Calm.after (calm_sendStop _ _)
    | with_reducible apply Calm.after (calm_releaseCall _ _)
    | with_reducible rfl)

theorem calm_beginAnswererPage (s : State) (u : UnitId) (a : AnswererSession) : Calm s (s.beginAnswererPage u a) := by
  unfold State.beginAnswererPage; try dsimp only
  repeat' (first
    | with_reducible apply Calm.refl
    | (split <;> try dsimp only)
    | with_reducible apply Calm.after (calm_setAnswerer _ _ _)
    | with_reducible apply Calm.after (calm_rxBegin _ _ _ _ _)
    | with_reducible rfl
    | with_reducible apply Calm.after (calm_mk ?_ ?_ ?_ ?_ ?_ ?_ ?_ ?_ ?_ ?_ ?_ ?_ ?_ ?_)
    | rfl
    | exact fun h => h
    | exact fun _ h => h)

theorem calm_takeOrderMode (s : State) (u : UnitId) (a : AnswererSession) (o : OrderMode) : Calm s (s.takeOrderMode u a o) := by
  unfold State.takeOrderMode; try dsimp only
  repeat' (first
    | with_reducible apply Calm.refl
    | (split <;> try dsimp only)
    | with_reducible apply Calm.after (calm_beginAnswererPage _ _ _)
    | with_reducible apply Calm.after (calm_stopReception _ _ _)
    | with_reducible apply Calm.after (calm_setAnswerer _ _ _)
    | with_reducible apply Calm.after (calm_sendFrame _ _ _)
    | with_reducible rfl
    | with_reducible apply Calm.after (calm_mk ?_ ?_ ?_ ?_ ?_ ?_ ?_ ?_ ?_ ?_ ?_ ?_ ?_ ?_)
    | rfl
    | exact fun h => h
    | exact fun _ h => h)

theorem calm_routeDocument (s : State) (d : Nat) (r : Route) (h : (s.doc d).isSome = true) :
    Calm s (s.routeDocument d r) := by
  unfold State.routeDocument
  dsimp only
  split <;> split
  · exact (calm_requestPrint _ _ _ _ h).trans (calm_flashAlert _)
  · exact calm_flashAlert _
  · exact calm_requestPrint _ _ _ _ h
  · exact Calm.refl s

theorem openDoc_doc {s t : State} {o : Origin} {k d : Nat} {st : Option Text} (h : s.openDoc o k st = some (d, t)) :
    (t.doc d).isSome = true := by
  unfold State.openDoc at h
  split at h
  · cases h
  · cases h
    unfold State.doc
    dsimp only
    rw [tget_tset]; rfl

theorem calm_firstOrder (s : State) (u : UnitId) (a : AnswererSession) (o : OrderMode) (h : o.station.length ≤ 20) :
    Calm s (s.firstOrder u a o) := by
  unfold State.firstOrder
  split
  · exact (calm_sendStop _ _).trans (calm_refuseCall _ _ _ _ _)
  · split
    · rename_i e
      exact (calm_lookupOrder_eq e h).trans ((calm_sendStop _ _).trans (calm_refuseCall _ _ _ _ _))
    · rename_i e
      refine (calm_lookupOrder_eq e h).trans ?_
      split
      · exact (calm_sendStop _ _).trans (calm_refuseCall _ _ _ _ _)
      · rename_i e2
        exact (calm_openDoc_eq e2).trans ((calm_routeDocument _ _ _ (openDoc_doc e2)).trans (calm_takeOrderMode _ _ _ _))

theorem calm_takeOrder (s : State) (u : UnitId) (o : OrderMode) (h : o.station.length ≤ 20) : Calm s (s.takeOrder u o) := by
  unfold State.takeOrder
  split
  · exact Calm.refl s
  · split
    · exact calm_firstOrder _ _ _ _ h
    · exact calm_sendFrame _ _ _
    · exact calm_takeOrderMode _ _ _ _
    · exact calm_takeOrderMode _ _ _ _
    · split
      · exact Calm.refl s
      · exact (calm_rxAbandon _ _).trans (calm_takeOrderMode _ _ _ _)
    · exact Calm.refl s
    · exact Calm.refl s

/-- A checked ORDER names a station of at most 20 characters (section 7.1). -/
theorem checkOrder_station {f : OrderFields} {o : OrderMode} (h : checkOrder f = some o) : o.station.length ≤ 20 := by
  unfold checkOrder at h
  split at h
  · split at h
    · rename_i k; cases h; exact k.2.1
    · cases h
  · cases h

theorem calm_checkResult (s : State) (u : UnitId) (good : Bool) : Calm s (s.checkResult u good) := by
  unfold State.checkResult; try dsimp only
  repeat' (first
    | with_reducible apply Calm.refl
    | (split <;> try dsimp only)
    | with_reducible apply Calm.after (calm_beginAnswererPage _ _ _)
    | with_reducible apply Calm.after (calm_setAnswerer _ _ _)
    | with_reducible apply Calm.after (calm_sendFrame _ _ _)
    | with_reducible rfl
    | with_reducible apply Calm.after (calm_mk ?_ ?_ ?_ ?_ ?_ ?_ ?_ ?_ ?_ ?_ ?_ ?_ ?_ ?_)
    | rfl
    | exact fun h => h
    | exact fun _ h => h)

theorem calm_verdictGood (s : State) (u : UnitId) (a : AnswererSession) (k : PageEndKind) : Calm s (s.verdictGood u a k) := by
  unfold State.verdictGood; try dsimp only
  repeat' (first
    | with_reducible apply Calm.refl
    | (split <;> try dsimp only)
    | with_reducible apply Calm.after (calm_beginAnswererPage _ _ _)
    | with_reducible apply Calm.after (calm_setAnswerer _ _ _)
    | with_reducible apply Calm.after (calm_sendFrame _ _ _)
    | with_reducible apply Calm.after (calm_closeDocument _ _ _)
    | with_reducible apply Calm.after (calm_modUnit _ _ _ ?_)
    | with_reducible rfl
    | with_reducible apply Calm.after (calm_mk ?_ ?_ ?_ ?_ ?_ ?_ ?_ ?_ ?_ ?_ ?_ ?_ ?_ ?_)
    | rfl
    | exact fun h => h
    | exact fun _ h => h
    | exact fun _ => ⟨.inl rfl, fun h => h, fun h => h⟩)

theorem calm_verdictRedo (s : State) (u : UnitId) (a : AnswererSession) : Calm s (s.verdictRedo u a) := by
  unfold State.verdictRedo; try dsimp only
  repeat' (first
    | with_reducible apply Calm.refl
    | with_reducible apply Calm.after (calm_beginAnswererPage _ _ _)
    | with_reducible apply Calm.after (calm_sendFrame _ _ _)
    | with_reducible apply Calm.after (calm_rxAbandon _ _)
    | with_reducible apply Calm.after (calm_modUnit _ _ _ ?_)
    | with_reducible rfl
    | with_reducible apply Calm.after (calm_mk ?_ ?_ ?_ ?_ ?_ ?_ ?_ ?_ ?_ ?_ ?_ ?_ ?_ ?_)
    | rfl
    | exact fun h => h
    | exact fun _ h => h
    | exact fun _ => ⟨.inl rfl, fun h => h, fun h => h⟩)

theorem calm_giveVerdict (s : State) (u : UnitId) (a : AnswererSession) (k : PageEndKind) (r : RxReport) : Calm s (s.giveVerdict u a k r) := by
  unfold State.giveVerdict; try dsimp only
  repeat' (first
    | with_reducible apply Calm.refl
    | (split <;> try dsimp only)
    | with_reducible apply Calm.after (calm_verdictRedo _ _ _)
    | with_reducible apply Calm.after (calm_verdictGood _ _ _ _)
    | with_reducible apply Calm.after (calm_stopReception _ _ _)
    | with_reducible apply Calm.after (calm_rxSeal_eq ‹_›)
    | with_reducible rfl)

theorem calm_settleVerdict (s : State) (u : UnitId) : Calm s (s.settleVerdict u) := by
  unfold State.settleVerdict
  split
  · exact Calm.refl s
  · split
    · split
      · exact Calm.refl s
      · exact calm_giveVerdict _ _ _ _ _
    · exact Calm.refl s

theorem calm_takeReport (s : State) (u : UnitId) (r : RxReport) : Calm s (s.takeReport u r) := by
  unfold State.takeReport; try dsimp only
  repeat' (first
    | with_reducible apply Calm.refl
    | (split <;> try dsimp only)
    | with_reducible apply Calm.after (calm_settleVerdict _ _)
    | with_reducible apply Calm.after (calm_setAnswerer _ _ _)
    | with_reducible rfl
    | with_reducible apply Calm.after (calm_mk ?_ ?_ ?_ ?_ ?_ ?_ ?_ ?_ ?_ ?_ ?_ ?_ ?_ ?_)
    | rfl
    | exact fun h => h
    | exact fun _ h => h)

theorem calm_pushMark (s : State) (u : UnitId) (m : RxItem) : Calm s (s.pushMark u m) := by
  unfold State.pushMark
  refine calm_modUnit _ _ _ (fun l => ?_)
  split <;> exact ⟨.inl rfl, fun h => h, fun h => h⟩

theorem calm_pageEndReceiving (s : State) (u : UnitId) (a : AnswererSession) (k : PageEndKind) : Calm s (s.pageEndReceiving u a k) := by
  unfold State.pageEndReceiving; try dsimp only
  repeat' (first
    | with_reducible apply Calm.refl
    | (split <;> try dsimp only)
    | with_reducible apply Calm.after (calm_pushMark _ _ _)
    | with_reducible apply Calm.after (calm_settleVerdict _ _)
    | with_reducible apply Calm.after (calm_setAnswerer _ _ _)
    | with_reducible apply Calm.after (calm_sendFrame _ _ _)
    | with_reducible rfl
    | with_reducible apply Calm.after (calm_mk ?_ ?_ ?_ ?_ ?_ ?_ ?_ ?_ ?_ ?_ ?_ ?_ ?_ ?_)
    | rfl
    | exact fun h => h
    | exact fun _ h => h)

theorem calm_takePageEnd (s : State) (u : UnitId) (k : PageEndKind) : Calm s (s.takePageEnd u k) := by
  unfold State.takePageEnd; try dsimp only
  repeat' (first
    | with_reducible apply Calm.refl
    | (split <;> try dsimp only)
    | with_reducible apply Calm.after (calm_pageEndReceiving _ _ _ _)
    | with_reducible apply Calm.after (calm_sendFrame _ _ _)
    | with_reducible rfl)

theorem calm_departed (s : State) (u : UnitId) (a : AnswererSession) : Calm s (s.departed u a) := by
  unfold State.departed; try dsimp only
  repeat' (first
    | with_reducible apply Calm.refl
    | (split <;> try dsimp only)
    | with_reducible apply Calm.after (calm_cutReception _ _ _)
    | with_reducible apply Calm.after (calm_releaseCall _ _)
    | with_reducible rfl)

theorem calm_answererRelease (s : State) (u : UnitId) : Calm s (s.answererRelease u) := by
  unfold State.answererRelease; try dsimp only
  repeat' (first
    | with_reducible apply Calm.refl
    | (split <;> try dsimp only)
    | with_reducible apply Calm.after (calm_departed _ _ _)
    | with_reducible rfl)

theorem calm_answererCarrierLost (s : State) (u : UnitId) : Calm s (s.answererCarrierLost u) := by
  unfold State.answererCarrierLost; try dsimp only
  repeat' (first
    | with_reducible apply Calm.refl
    | (split <;> try dsimp only)
    | with_reducible apply Calm.after (calm_departed _ _ _)
    | with_reducible apply Calm.after (calm_pushMark _ _ _)
    | with_reducible apply Calm.after (calm_refuseCall _ _ _ _ _)
    | with_reducible rfl)

theorem calm_takeData (s : State) (u : UnitId) (bs : List Byte) : Calm s (s.takeData u bs) := by
  unfold State.takeData; try dsimp only
  repeat' (first
    | with_reducible apply Calm.refl
    | (split <;> try dsimp only)
    | with_reducible apply Calm.after (calm_setAnswerer _ _ _)
    | with_reducible apply Calm.after (calm_modUnit _ _ _ ?_)
    | with_reducible rfl
    | with_reducible apply Calm.after (calm_mk ?_ ?_ ?_ ?_ ?_ ?_ ?_ ?_ ?_ ?_ ?_ ?_ ?_ ?_)
    | rfl
    | exact fun h => h
    | exact fun _ h => h
    | exact fun _ => ⟨.inl rfl, fun h => h, fun h => h⟩)

theorem calm_takeDataEnd (s : State) (u : UnitId) : Calm s (s.takeDataEnd u) := by
  unfold State.takeDataEnd; try dsimp only
  repeat' (first
    | with_reducible apply Calm.refl
    | (split <;> try dsimp only)
    | with_reducible apply Calm.after (calm_pushMark _ _ _)
    | with_reducible rfl)

theorem calm_receiveDecode (s : State) (u : UnitId) : Calm s (s.receiveDecode u) := by
  unfold State.receiveDecode; try dsimp only
  repeat' (first
    | with_reducible apply Calm.refl
    | (split <;> try dsimp only)
    | with_reducible apply Calm.after (calm_takeReport _ _ _)
    | with_reducible apply Calm.after (calm_rxTake_eq ‹_›)
    | with_reducible rfl)

theorem calm_answererWaitExpired (s : State) (u : UnitId) (a : AnswererSession) : Calm s (s.answererWaitExpired u a) := by
  unfold State.answererWaitExpired; try dsimp only
  repeat' (first
    | with_reducible apply Calm.refl
    | (split <;> try dsimp only)
    | with_reducible apply Calm.after (calm_refuseCall _ _ _ _ _)
    | with_reducible apply Calm.after (calm_sendOffer _ _ _ _)
    | with_reducible rfl)

theorem calm_replyWaitExpired (s : State) (u : UnitId) : Calm s (s.replyWaitExpired u) := by
  unfold State.replyWaitExpired; try dsimp only
  repeat' (first
    | with_reducible apply Calm.refl
    | (split <;> try dsimp only)
    | with_reducible apply Calm.after (calm_answererWaitExpired _ _ _)
    | with_reducible apply Calm.after (calm_callerWaitExpired _ _ _)
    | with_reducible rfl)

theorem calm_notReadyExpired (s : State) (u : UnitId) : Calm s (s.notReadyExpired u) := by
  unfold State.notReadyExpired; try dsimp only
  repeat' (first
    | with_reducible apply Calm.refl
    | (split <;> try dsimp only)
    | with_reducible apply Calm.after (calm_refuseCall _ _ _ _ _)
    | with_reducible rfl)

theorem calm_idleLimitExpired (s : State) (u : UnitId) : Calm s (s.idleLimitExpired u) := by
  unfold State.idleLimitExpired; try dsimp only
  repeat' (first
    | with_reducible apply Calm.refl
    | (split <;> try dsimp only)
    | with_reducible apply Calm.after (calm_departed _ _ _)
    | with_reducible rfl)

theorem calm_discardMessage (s : State) (_u : UnitId) (_type : Byte) : Calm s (s.discardMessage _u _type) := by
  unfold State.discardMessage; try dsimp only
  repeat' (first
    | with_reducible apply Calm.refl
    | with_reducible rfl)

theorem calm_ignoreFrame (s : State) (_u : UnitId) : Calm s (s.ignoreFrame _u) := by
  unfold State.ignoreFrame; try dsimp only
  repeat' (first
    | with_reducible apply Calm.refl
    | with_reducible rfl)

theorem unit_sendLink (s : State) (u : UnitId) (m : LinkMsg) :
    ((s.sendLink u m).unit u).state = (s.unit u).state ∧ ((s.sendLink u m).unit u).metered = (s.unit u).metered
    ∧ ((s.sendLink u m).unit u).calling = (s.unit u).calling ∧ ((s.sendLink u m).unit u).entry = (s.unit u).entry := by
  unfold State.sendLink State.modUnit State.unit
  dsimp only
  rw [quad_set_get, if_pos rfl]
  exact ⟨rfl, rfl, rfl, rfl⟩

theorem calm_dialTone (s : State) (u : UnitId) : Calm s (s.dialTone u) := by
  unfold State.dialTone
  dsimp only
  split
  · rename_i st _
    have k := unit_sendLink s u (.dial ((s.unit u).lead ++ (HandOver.number ‹HandOver›)))
    refine (calm_sendLink _ _ _).trans (calm_modUnitAt _ _ _ (.inl rfl) (fun _ => ?_) (fun h _ => ?_))
    · rw [k.2.2.1]; unfold LineUnit.calling; rw [st]
    · rw [k.2.1, metered_false (by rw [st]; nofun)] at h
      exact absurd h Bool.false_ne_true
  · exact Calm.refl s

theorem calm_dialDone (s : State) (u : UnitId) : Calm s (s.dialDone u) := by
  unfold State.dialDone
  split
  · rename_i st
    refine calm_modUnitAt _ _ _ (.inl rfl) (fun _ => ?_) (fun h _ => ?_)
    · unfold LineUnit.calling; rw [st]
    · rw [metered_false (by rw [st]; nofun)] at h
      exact absurd h Bool.false_ne_true
  · exact Calm.refl s

theorem calm_busyTone (s : State) (u : UnitId) : Calm s (s.busyTone u) := by
  unfold State.busyTone; try dsimp only
  repeat' (first
    | with_reducible apply Calm.refl
    | (split <;> try dsimp only)
    | with_reducible apply Calm.after (calm_endCall _ _ _)
    | with_reducible rfl)

theorem calm_answerTone (s : State) (u : UnitId) : Calm s (s.answerTone u) := by
  unfold State.answerTone
  split
  · rename_i h
    exact calm_answered _ _ (by unfold LineUnit.calling; rw [h])
  · exact Calm.refl s

theorem calm_seizeTimeout (s : State) (u : UnitId) : Calm s (s.seizeTimeout u) := by
  unfold State.seizeTimeout; try dsimp only
  repeat' (first
    | with_reducible apply Calm.refl
    | (split <;> try dsimp only)
    | with_reducible apply Calm.after (calm_endCall _ _ _)
    | with_reducible apply Calm.after (calm_modUnit _ _ _ ?_)
    | with_reducible rfl
    | with_reducible apply Calm.after (calm_mk ?_ ?_ ?_ ?_ ?_ ?_ ?_ ?_ ?_ ?_ ?_ ?_ ?_ ?_)
    | rfl
    | exact fun h => h
    | exact fun _ h => h
    | exact fun _ => ⟨.inl rfl, fun h => h, fun h => h⟩)

theorem calm_dialLimitExpired (s : State) (u : UnitId) : Calm s (s.dialLimitExpired u) := by
  unfold State.dialLimitExpired; try dsimp only
  repeat' (first
    | with_reducible apply Calm.refl
    | (split <;> try dsimp only)
    | with_reducible apply Calm.after (calm_endCall _ _ _)
    | with_reducible rfl)

theorem calm_answerTimeout (s : State) (u : UnitId) : Calm s (s.answerTimeout u) := by
  unfold State.answerTimeout; try dsimp only
  repeat' (first
    | with_reducible apply Calm.refl
    | (split <;> try dsimp only)
    | with_reducible apply Calm.after (calm_endCall _ _ _)
    | with_reducible rfl)

theorem calm_answerRing (s : State) (u : UnitId) (h : (s.unit u).state ≠ .inSession) : Calm s (s.answerRing u) := by
  unfold State.answerRing
  dsimp only
  refine Calm.trans ?_ (calm_startAnswerer _ _)
  refine Calm.trans ?_ (calm_post _ _ _)
  refine (calm_sendLink _ _ _).trans (calm_modUnitAt _ _ _ (.inl rfl) (fun k => absurd k Bool.false_ne_true) (fun k _ => ?_))
  rw [(unit_sendLink s u .answer).2.1, metered_false h] at k
  exact absurd k Bool.false_ne_true

theorem calm_checkRings (s : State) (u : UnitId) (h : (s.unit u).state ≠ .inSession) : Calm s (s.checkRings u) := by
  unfold State.checkRings
  dsimp only
  split
  · exact calm_answerRing _ _ h
  · exact Calm.refl s

theorem unit_modUnit (s : State) (u : UnitId) (f : LineUnit → LineUnit) : (s.modUnit u f).unit u = f (s.unit u) := by
  dsimp only [State.modUnit, State.unit]
  rw [quad_set_get, if_pos rfl]

theorem modUnit_modUnit (s : State) (u : UnitId) (f g : LineUnit → LineUnit) :
    (s.modUnit u f).modUnit u g = s.modUnit u (fun l => g (f l)) := by
  have e : ∀ (q : Quad LineUnit) (a b : LineUnit), (q.set u a).set u b = q.set u b := by
    intro q a b; cases u <;> rfl
  dsimp only [State.modUnit, State.unit]
  rw [e, quad_set_get, if_pos rfl]

theorem beginRinging_unit (s : State) (u : UnitId) (g : Bool) : ((s.beginRinging u g).unit u).state = .ringing := by
  dsimp only [State.beginRinging, State.modScreen, State.modUnit, State.unit]
  rw [quad_set_get, if_pos rfl]

theorem calm_beginRinging (s : State) (u : UnitId) (g : Bool) (h : (s.unit u).state ≠ .inSession) :
    Calm s (s.beginRinging u g) := by
  unfold State.beginRinging
  refine Calm.trans (calm_modUnitAt _ _ _ (.inr rfl) (fun k => by exact absurd k Bool.false_ne_true) (fun k _ => ?_))
    (calm_modScreen _ _ (fun h => h))
  rw [metered_false h] at k
  exact absurd k Bool.false_ne_true

/-- Glare: the entry is returned, and a ringing begins (R105, R150). -/
theorem tame_glare (s : State) (u : UnitId) (h : (s.unit u).state = .seizing) : Tame s (s.glare u) := by
  unfold State.glare
  dsimp only
  refine Tame.trans ?_ (calm_arbiterPasses _).tame
  have ring : (((((s.sendLink u .release).glareReturn u).modUnit u
      (fun l => { l with handOver := none, answered := false, result := none })).beginRinging u true).unit u).state
      = .ringing := beginRinging_unit _ _ _
  refine Tame.trans ?_ (calm_checkRings _ _ (by rw [ring]; nofun)).tame
  unfold State.beginRinging
  refine Tame.trans ?_ (calm_modScreen _ _ (fun h => h)).tame
  rw [modUnit_modUnit]
  refine Tame.trans (calm_sendLink s u .release).tame ?_
  have k := unit_sendLink s u .release
  refine (owes_glareReturn _ u).clear _ rfl (fun x => absurd x Bool.false_ne_true) ?_
  rw [k.2.1]
  exact metered_false (by rw [h]; nofun)

theorem tame_ring (s : State) (u : UnitId) : Tame s (s.ring u) := by
  unfold State.ring
  dsimp only
  split
  · rename_i st
    split
    · exact ((calm_beginRinging _ _ _ (by rw [st]; nofun)).trans
        (calm_checkRings _ _ (by rw [beginRinging_unit]; nofun))).tame
    · exact (Calm.refl s).tame
  · rename_i st
    split
    · refine ((calm_modUnit _ _ _ (fun _ => by exact ⟨.inl rfl, fun h => h, fun h => h⟩)).trans (calm_checkRings _ _ ?_)).tame
      rw [unit_modUnit]
      show (s.unit u).state ≠ _
      rw [st]; nofun
    · exact (Calm.refl s).tame
  · rename_i st
    split
    · exact tame_glare _ _ st
    · exact (Calm.refl s).tame
  · exact (Calm.refl s).tame

theorem calm_callerNumber (s : State) (u : UnitId) (n : Text) : Calm s (s.callerNumber u n) := by
  unfold State.callerNumber
  dsimp only
  split
  · have k : Calm s (({ s with screen := (s.screen.lookupRinging u n s.now).2 } : State).modUnit u (fun x =>
        { x with caller := some n, verdict := (s.screen.lookupRinging u n s.now).1.verdict })) := by
      refine Calm.trans ?_ (calm_modUnit _ _ _ (fun _ => by exact ⟨.inl rfl, fun h => h, fun h => h⟩))
      refine calm_mk rfl id rfl id rfl rfl rfl rfl (h12 := fun h => ?_)
      unfold Screen.lookupRinging
      split
      · exact h
      · split
        · exact screen_count _ _ _ h
        · exact screen_mod h _ (fun x => { x with touched := true }) (fun _ => ⟨rfl, fun k => k⟩)
    split
    · exact k.trans (calm_callRefused _ _ _ _ _)
    · exact k
  · exact Calm.refl s

theorem calm_callMissed (s : State) (u : UnitId) (r : MissReason) (screening : Option RefuseReason) : Calm s (s.callMissed u r screening) := by
  unfold State.callMissed; try dsimp only
  repeat' (first
    | with_reducible apply Calm.refl
    | with_reducible apply Calm.after (calm_post _ _ _)
    | with_reducible rfl)

theorem restUnit_state (s : State) (u : UnitId) (st : CallState) : ((s.restUnit u st).unit u).state = st := by
  unfold State.restUnit State.countRestart
  split
  · dsimp only [State.modUnit, State.unit]
    rw [quad_set_get, if_pos rfl]
  · dsimp only [State.modUnit, State.unit]
    rw [quad_set_get, if_pos rfl]

theorem enterIdle_state (s : State) (u : UnitId) : ((s.enterIdle u).unit u).state ≠ .inSession := by
  unfold State.enterIdle
  split
  · rw [restUnit_state]; nofun
  · show ((State.restUnit _ u _).unit u).state ≠ _
    rw [restUnit_state]
    split <;> nofun

theorem calm_ringTimerExpired (s : State) (u : UnitId) : Calm s (s.ringTimerExpired u) := by
  unfold State.ringTimerExpired
  split
  · exact Calm.refl s
  · rename_i st
    dsimp only
    refine Calm.trans ?_ (calm_arbiterPasses _)
    refine Calm.trans ((calm_callMissed _ _ _ _).trans (calm_modUnit _ _ _ (fun _ => by exact ⟨.inl rfl, fun h => h, fun h => h⟩)))
      (calm_enterIdle _ _ (fun c => c.idle (metered_false ?_)))
    show ((State.modUnit _ u _).unit u).state ≠ _
    rw [unit_modUnit]
    have st : (s.unit u).state = .ringing := Classical.not_not.1 st
    show (s.unit u).state ≠ _
    rw [st]; nofun

theorem calm_faultEnds (s : State) (u : UnitId) : Calm s (s.faultEnds u) := by
  unfold State.faultEnds; try dsimp only
  repeat' (first
    | with_reducible apply Calm.refl
    | (split <;> try dsimp only)
    | with_reducible apply Calm.after (calm_callMissed _ _ _ _)
    | with_reducible apply Calm.after (calm_cutReception _ _ _)
    | with_reducible apply Calm.after (calm_hangUp _ _)
    | with_reducible apply Calm.after (calm_modUnit _ _ _ ?_)
    | with_reducible rfl
    | with_reducible apply Calm.after (calm_mk ?_ ?_ ?_ ?_ ?_ ?_ ?_ ?_ ?_ ?_ ?_ ?_ ?_ ?_)
    | rfl
    | exact fun h => h
    | exact fun _ h => h
    | exact fun _ => ⟨.inl rfl, fun h => h, fun h => h⟩)

/-- What LINE FAULT ends leaves no meter record of the unit in use. -/
theorem faultEnds_rec (s : State) (u : UnitId) (o : Owed) (h : s.Steady o) :
    (s.faultEnds u).meter.recs.get u = none := by
  have k : ∀ f : LineUnit → LineUnit, UnitOk f → ((s.modUnit u f).hangUp u).meter.recs.get u = none := fun f hf =>
    hangUp_rec _ _ ((calm_modUnit s u f hf).steady o h).charge
  have idle : (s.unit u).state ≠ .inSession → s.meter.recs.get u = none := fun x => h.charge.idle (metered_false x)
  unfold State.faultEnds
  dsimp only
  split
  · rename_i st; exact idle (by rw [st]; nofun)
  · exact k _ (fun _ => by exact ⟨.inl rfl, fun h => h, fun h => h⟩)
  · exact k _ (fun _ => by exact ⟨.inl rfl, fun h => h, fun h => h⟩)
  · exact k _ (fun _ => by exact ⟨.inl rfl, fun h => h, fun h => h⟩)
  · split
    · exact k _ (fun _ => by exact ⟨.inl rfl, fun h => h, fun h => h⟩)
    · exact hangUp_rec _ _ ((calm_cutReception s u _).steady o h).charge
    · exact hangUp_rec _ _ h.charge
  · rename_i n
    exact idle n

/-- The end of an outgoing call, once the unit is at rest: the entry's outcome, and the call record cleared. -/
theorem tame_settle (s : State) (u : UnitId) (c : Prop) [Decidable c] (h : (s.unit u).state ≠ .inSession) :
    Tame s ((if c then s.outcome u else s).modUnit u LineUnit.clearCall) := by
  have m := metered_false h
  split
  · exact (owes_outcome s u).clear _ rfl (fun x => x) m
  · exact (Owes.refl s).clear _ rfl (fun x => x) m

theorem tame_lineFault (s : State) (u : UnitId) : Tame s (s.lineFault u) := by
  unfold State.lineFault
  split
  · exact (Calm.refl s).tame
  · exact (Calm.refl s).tame
  · dsimp only
    refine Tame.trans ?_ (calm_arbiterPasses _).tame
    have k : Calm s (((s.faultEnds u).restUnit u .blocked).postLineState u .lineFault) :=
      ((calm_faultEnds s u).andThen (same_restUnit _ _ _) (fun o x =>
        calm_restUnit _ _ _ (.inr (.inr rfl)) (fun _ => faultEnds_rec s u o x))).trans (calm_postLineState _ _ _)
    refine Tame.trans k.tame (tame_settle _ u _ ?_)
    show ((State.restUnit _ u _).unit u).state ≠ _
    rw [restUnit_state]; nofun

/-- The guard of CLEARING expires (R103). -/
theorem tame_clearingDone (s : State) (u : UnitId) : Tame s (s.clearingDone u) := by
  unfold State.clearingDone
  split
  · exact (Calm.refl s).tame
  · rename_i st
    have st : (s.unit u).state = .clearing := Classical.not_not.1 st
    dsimp only
    refine Tame.trans ?_ (calm_arbiterPasses _).tame
    have gone : ChargeOk s.units s.meter → s.meter.recs.get u = none := fun c => c.idle (metered_false (by
      show (s.unit u).state ≠ _
      rw [st]; nofun))
    refine Tame.trans ?_ (tame_settle _ u _ ?_)
    · split
      · exact ((calm_restUnit _ _ _ (.inr (.inr rfl)) gone).trans (calm_postLineState _ _ _)).tame
      · exact (calm_enterIdle _ _ gone).tame
    · split
      · show ((State.restUnit _ u _).unit u).state ≠ _
        rw [restUnit_state]; nofun
      · exact enterIdle_state _ _

theorem calm_lineOk (s : State) (u : UnitId) : Calm s (s.lineOk u) := by
  unfold State.lineOk
  split
  · exact Calm.refl s
  · rename_i st
    have st : (s.unit u).state = .blocked := Classical.not_not.1 st
    dsimp only
    refine Calm.trans ?_ (calm_arbiterPasses _)
    refine Calm.trans ?_ (calm_postLineState _ _ _)
    refine Calm.trans (calm_modUnit _ _ _ (fun _ => by exact ⟨.inl rfl, fun h => h, fun h => h⟩))
      (calm_enterIdle _ _ (fun c => c.idle (metered_false ?_)))
    show ((State.modUnit _ u _).unit u).state ≠ _
    rw [unit_modUnit]
    show (s.unit u).state ≠ _
    rw [st]; nofun

theorem calm_setMode (s : State) (u : UnitId) (m : UnitMode) (h : (s.unit u).state ≠ .inSession) :
    Calm s (s.setMode u m) := by
  unfold State.setMode
  dsimp only
  refine Calm.trans ?_ (calm_postLineState _ _ _)
  refine Calm.trans (calm_modUnit _ _ _ (fun _ => by exact ⟨.inl rfl, fun h => h, fun h => h⟩)) (calm_restUnit _ _ _ ?_ ?_)
  · split
    · exact .inr (.inl rfl)
    · exact .inl rfl
  · refine fun c => c.idle (metered_false ?_)
    show ((State.modUnit _ u _).unit u).state ≠ _
    rw [unit_modUnit]
    exact h

theorem calm_lineMode (s : State) (u : UnitId) (m : UnitMode) : Calm s (s.lineMode u m).2 := by
  unfold State.lineMode
  dsimp only
  split
  · rename_i st
    split
    · exact Calm.refl s
    · exact calm_setMode _ _ _ (by rw [st]; nofun)
  · rename_i st
    split
    · exact Calm.refl s
    · exact calm_setMode _ _ _ (by rw [st]; nofun)
  · rename_i st
    refine (calm_modUnit _ _ _ (fun _ => by exact ⟨.inl rfl, fun h => h, fun h => h⟩)).trans (calm_setMode _ _ _ ?_)
    rw [unit_modUnit]
    show (s.unit u).state ≠ _
    rw [st]; nofun
  · exact calm_modUnit s u (fun x => { x with pendingMode := some m }) (fun _ => by exact ⟨.inl rfl, fun h => h, fun h => h⟩)

theorem calm_restartCall (s : State) (u : UnitId) : Calm s (s.restartCall u) := by
  unfold State.restartCall
  dsimp only
  split
  · exact calm_countRestart _ _
  · exact calm_countRestart _ _
  · exact calm_countRestart _ _
  · rename_i st
    refine Calm.trans ((calm_callMissed _ _ _ _).trans (calm_modUnit _ _ _ (fun _ => by exact ⟨.inl rfl, fun h => h, fun h => h⟩)))
      (calm_enterIdle _ _ (fun c => c.idle (metered_false ?_)))
    show ((State.modUnit _ u _).unit u).state ≠ _
    rw [unit_modUnit]
    show (s.unit u).state ≠ _
    rw [st]; nofun
  · split
    · exact (calm_cutReception _ _ _).trans (calm_releaseCall _ _)
    · exact calm_releaseCall _ _
    · exact Calm.refl s
  · exact Calm.refl s

theorem calm_restartUnit (s : State) (u : UnitId) : Calm s (s.restartUnit u) := by
  unfold State.restartUnit; try dsimp only
  repeat' (first
    | with_reducible apply Calm.refl
    | with_reducible apply Calm.after (calm_restartCall _ _)
    | with_reducible apply Calm.after (calm_modUnit _ _ _ ?_)
    | with_reducible rfl
    | exact fun _ => ⟨.inl rfl, fun h => h, fun h => h⟩)

end Sys2Proof.Machine
end

