-- ==== Sys2Proof/Laws/CalmOrders.lean ====
section
/-! SUPPORT. The operations of the Meter with its neighbours, the Event Reporter and the orders are calm, but for those
that set the clock or reach a held host write. -/

set_option linter.unusedTactic false
set_option linter.unreachableTactic false
set_option Elab.async false

namespace Sys2Proof.Machine

open Sys2Proof

theorem due_rests {e : DestEntry} (h : e.due = true) : e.rests := by
  unfold DestEntry.due at h
  have c := (Bool.and_eq_true_iff.1 h).1
  unfold EntryState.counts at c
  unfold DestEntry.rests
  cases k : e.state <;> rw [k] at c <;> first | exact absurd c Bool.false_ne_true | exact ⟨rfl, nofun⟩

theorem calm_countdownExpired (s : State) : Calm s s.countdownExpired := by
  unfold State.countdownExpired
  split
  · exact Calm.refl s
  · rename_i i l hl
    refine Calm.trans (calm_becomeReady s i (fun t e he => ?_)) (calm_arbiterPasses _)
    exact due_rests (ids_mem t (by rw [hl]; exact List.mem_cons_self) he)

theorem calm_settleEntries (s : State) : Calm s (s.settleEntries) := by
  unfold State.settleEntries; try dsimp only
  repeat' (first
    | with_reducible apply Calm.refl
    | with_reducible apply Calm.after (calm_countdownExpired _)
    | with_reducible refine Calm.trans ?_ (calm_eachNum _ _ _ (fun n t => ?_))
    | with_reducible rfl)

theorem calm_settleUnits (s : State) (u : UnitId) : Calm s (s.settleUnits u) := by
  have each : ∀ (l : List Band) (t : State), Calm t (l.foldl (fun t _ => t.settleMeter u) t) := by
    intro l
    induction l with
    | nil => exact fun t => Calm.refl t
    | cons b l ih => exact fun t => (calm_settleMeter t u).trans (ih _)
  unfold State.settleUnits
  split
  · exact Calm.refl s
  · exact each _ _

theorem calm_settleDue (s : State) : Calm s (s.settleDue) := by
  unfold State.settleDue; try dsimp only
  repeat' (first
    | with_reducible apply Calm.refl
    | with_reducible apply Calm.after (calm_settleEntries _)
    | with_reducible apply Calm.after (calm_settleUnits _ _)
    | with_reducible apply Calm.after (calm_ageExpiry _)
    | with_reducible apply Calm.after (calm_pacingPulse _)
    | with_reducible refine Calm.trans ?_ (calm_eachUnit _ _ (fun n t => ?_))
    | with_reducible rfl)

theorem calm_postBurn (s : State) (o : BurnOutcome) (b : Burn) : Calm s (s.postBurn o b) := by
  unfold State.postBurn; try dsimp only
  repeat' (first
    | with_reducible apply Calm.refl
    | with_reducible apply Calm.after (calm_post _ _ _)
    | with_reducible rfl)

theorem calm_thresholdTest (s : State) (d : Nat) : Calm s (s.thresholdTest d) := by
  unfold State.thresholdTest; try dsimp only
  repeat' (first
    | with_reducible apply Calm.refl
    | (split <;> try dsimp only)
    | with_reducible apply Calm.after (calm_queueBurn _ _ _)
    | with_reducible rfl)

theorem calm_burnVerified (s : State) (n : Nat) : Calm s (s.burnVerified n) := by
  unfold State.burnVerified; try dsimp only
  repeat' (first
    | with_reducible apply Calm.refl
    | (split <;> try dsimp only)
    | with_reducible apply Calm.after (calm_thresholdTest _ _)
    | with_reducible apply Calm.after (calm_postBurn _ _ _)
    | with_reducible apply Calm.after (calm_startBurn _)
    | with_reducible apply Calm.after (calm_setCell _ _ _)
    | with_reducible apply Calm.after (calm_modDesk _ _ _)
    | with_reducible rfl
    | with_reducible apply Calm.after (calm_mk ?_ ?_ ?_ ?_ ?_ ?_ ?_ ?_ ?_ ?_ ?_ ?_ ?_ ?_)
    | rfl
    | exact fun h => h
    | exact fun _ h => h)

theorem calm_burnFailed (s : State) (n : Nat) : Calm s (s.burnFailed n) := by
  unfold State.burnFailed; try dsimp only
  repeat' (first
    | with_reducible apply Calm.refl
    | (split <;> try dsimp only)
    | with_reducible apply Calm.after (calm_postBurn _ _ _)
    | with_reducible apply Calm.after (calm_deskRecompute _ _ _)
    | with_reducible apply Calm.after (calm_startBurn _)
    | with_reducible apply Calm.after (calm_setCell _ _ _)
    | with_reducible apply Calm.after (calm_modDesk _ _ _)
    | with_reducible rfl
    | with_reducible apply Calm.after (calm_mk ?_ ?_ ?_ ?_ ?_ ?_ ?_ ?_ ?_ ?_ ?_ ?_ ?_ ?_)
    | rfl
    | exact fun h => h
    | exact fun _ h => h)

theorem calm_senseSupply (s : State) (low : Bool) : Calm s (s.senseSupply low) := by
  unfold State.senseSupply; try dsimp only
  repeat' (first
    | with_reducible apply Calm.refl
    | with_reducible rfl
    | with_reducible apply Calm.after (calm_mk ?_ ?_ ?_ ?_ ?_ ?_ ?_ ?_ ?_ ?_ ?_ ?_ ?_ ?_)
    | rfl
    | exact fun h => h
    | exact fun _ h => h)

theorem calm_warningBegins (s : State) : Calm s (s.warningBegins) := by
  unfold State.warningBegins; try dsimp only
  repeat' (first
    | with_reducible apply Calm.refl
    | (split <;> try dsimp only)
    | with_reducible apply Calm.after (calm_startBurn _)
    | with_reducible apply Calm.after (calm_queueBurn _ _ _)
    | with_reducible refine Calm.trans ?_ (calm_eachNum _ _ _ (fun n t => ?_))
    | with_reducible apply Calm.after (calm_post _ _ _)
    | with_reducible rfl
    | with_reducible apply Calm.after (calm_mk ?_ ?_ ?_ ?_ ?_ ?_ ?_ ?_ ?_ ?_ ?_ ?_ ?_ ?_)
    | rfl
    | exact fun h => h
    | exact fun _ h => h)

theorem calm_warningEnds (s : State) : Calm s (s.warningEnds) := by
  unfold State.warningEnds; try dsimp only
  repeat' (first
    | with_reducible apply Calm.refl
    | (split <;> try dsimp only)
    | with_reducible apply Calm.after (calm_arbiterPasses _)
    | with_reducible apply Calm.after (calm_post _ _ _)
    | with_reducible rfl
    | with_reducible apply Calm.after (calm_mk ?_ ?_ ?_ ?_ ?_ ?_ ?_ ?_ ?_ ?_ ?_ ?_ ?_ ?_)
    | rfl
    | exact fun h => h
    | exact fun _ h => h)

theorem calm_retestEntries (s : State) : Calm s s.retestEntries := by
  unfold State.retestEntries
  dsimp only
  refine Calm.trans ?_ (calm_arbiterPasses _)
  refine Calm.trans (calm_readyEach _ _ (fun t i hi e he => ?_)) (calm_eachNum _ _ _ (fun i t => calm_testDesk t i))
  have st := of_decide_eq_true (Bool.and_eq_true_iff.1 (ids_mem t hi he)).1
  exact ⟨by rw [st]; rfl, by rw [st]; nofun⟩

theorem calm_dropPosting (s : State) : Calm s (s.dropPosting) := by
  unfold State.dropPosting; try dsimp only
  repeat' (first
    | with_reducible apply Calm.refl
    | with_reducible rfl
    | with_reducible apply Calm.after (calm_mk ?_ ?_ ?_ ?_ ?_ ?_ ?_ ?_ ?_ ?_ ?_ ?_ ?_ ?_)
    | rfl
    | exact fun h => h
    | exact fun _ h => h)

theorem calm_missEvent (s : State) : Calm s s.missEvent := by
  unfold State.missEvent
  dsimp only
  split
  · exact Calm.refl s
  · refine Calm.trans ?_ (calm_writeMissed _)
    exact calm_mk rfl id rfl (fun h => ⟨h.1, Nat.min_le_left _ _⟩) rfl rfl rfl rfl

theorem calm_guardWritten (s : State) (x : Word) (e : Event) : Calm s (s.guardWritten x e) := by
  unfold State.guardWritten
  split
  · exact calm_putGuard _ _ _
  · exact Calm.refl s

/-- A record is written while the ring has room (R79). -/
theorem calm_writeEvent (s : State) (e : Event) (h : s.reporter.unread < 256) : Calm s (s.writeEvent e) := by
  unfold State.writeEvent
  refine Calm.trans ?_ (calm_issue _ _ _ _)
  refine Calm.trans (calm_issue s .eventReporter (s.ringAddr s.reporter.producer)
    (e.record s.reporter.producer s.now)) ?_
  exact calm_mk rfl id rfl (fun k => ⟨unread_succ h, k.2⟩) rfl rfl rfl rfl

theorem calm_takePosting (s : State) : Calm s s.takePosting := by
  unfold State.takePosting
  split
  · exact Calm.refl s
  · split
    · exact Calm.refl s
    · dsimp only
      split
      · rename_i c
        exact ((calm_dropPosting _).trans (calm_writeEvent _ _ c)).trans (calm_guardWritten _ _ _)
      · exact (calm_dropPosting _).trans (calm_missEvent _)

theorem calm_holdOffExpired (s : State) : Calm s (s.holdOffExpired) := by
  unfold State.holdOffExpired; try dsimp only
  repeat' (first
    | with_reducible apply Calm.refl
    | with_reducible rfl
    | with_reducible apply Calm.after (calm_mk ?_ ?_ ?_ ?_ ?_ ?_ ?_ ?_ ?_ ?_ ?_ ?_ ?_ ?_)
    | rfl
    | exact fun h => h
    | exact fun _ h => h)

theorem calm_applyTarget (s : State) (d copies : Nat) (t : ScanTarget) (h : (s.doc d).isSome = true) :
    Calm s (s.applyTarget d copies t) := by
  unfold State.applyTarget
  split
  · exact calm_requestPrint _ _ _ _ h
  · exact calm_modDoc _ _ _ (fun _ => by rfl)
  · exact calm_modDoc _ _ _ (fun _ => by rfl)

theorem calm_startScan (s : State) (d desk copies : Nat) (t : ScanTarget) (w : Width) (v : Resolution)
    (h : (s.doc d).isSome = true) : Calm s (s.startScan d desk copies t w v) := by
  unfold State.startScan
  dsimp only
  refine Calm.trans ?_ (calm_applyTarget _ _ _ _ h)
  refine Calm.trans ?_ (calm_sendScanner _ _)
  exact calm_mk rfl id rfl id rfl rfl rfl rfl

/-- Either of two calm ends. -/
theorem ite_calm {s t u : State} {c : Prop} [Decidable c] (h : Calm s t) (k : Calm s u) : Calm s (if c then t else u) := by
  split
  · exact h
  · exact k

theorem calm_orderScan (s : State) : Calm s s.orderScan := by
  unfold State.orderScan
  dsimp only
  split
  · iterate 5
      refine ite_calm (calm_answer _ _ _ _) ?_
    split
    · exact calm_answer _ _ _ _
    · rename_i e
      exact (calm_openDoc_eq e).trans ((calm_startScan _ _ _ _ _ _ _ (openDoc_doc e)).trans (calm_answer _ _ _ _))
  · exact calm_answer _ _ _ _

theorem calm_beginWindowPage (s : State) (w : WindowId) (d : Nat) (o : WindowOrder) : Calm s (s.beginWindowPage w d o) := by
  unfold State.beginWindowPage; try dsimp only
  repeat' (first
    | with_reducible apply Calm.refl
    | (split <;> try dsimp only)
    | with_reducible apply Calm.after (calm_answer _ _ _ _)
    | with_reducible apply Calm.after (calm_beginSource_eq ‹_›)
    | with_reducible apply Calm.after (calm_modDoc _ _ _ ?_)
    | with_reducible apply Calm.after (calm_modWindow _ _ _)
    | with_reducible rfl
    | with_reducible apply Calm.after (calm_mk ?_ ?_ ?_ ?_ ?_ ?_ ?_ ?_ ?_ ?_ ?_ ?_ ?_ ?_)
    | rfl
    | exact fun h => h
    | exact fun _ h => h
    | exact fun _ => rfl)

theorem calm_bindWindow (s : State) (w : WindowId) (d pages : Nat) : Calm s (s.bindWindow w d pages) := by
  unfold State.bindWindow; try dsimp only
  repeat' (first
    | with_reducible apply Calm.refl
    | with_reducible apply Calm.after (calm_modWindow _ _ _)
    | with_reducible rfl
    | with_reducible apply Calm.after (calm_mk ?_ ?_ ?_ ?_ ?_ ?_ ?_ ?_ ?_ ?_ ?_ ?_ ?_ ?_)
    | rfl
    | exact fun h => h
    | exact fun _ h => h)

theorem calm_orderOpenWindow (s : State) : Calm s (s.orderOpenWindow) := by
  unfold State.orderOpenWindow; try dsimp only
  repeat' (first
    | with_reducible apply Calm.refl
    | (split <;> try dsimp only)
    | with_reducible apply Calm.after (calm_bindWindow _ _ _ _)
    | with_reducible apply Calm.after (calm_beginWindowPage _ _ _ _)
    | with_reducible apply Calm.after (calm_answer _ _ _ _)
    | with_reducible apply Calm.after (calm_openDoc_eq ‹_›)
    | with_reducible rfl)

theorem calm_handPartial (s : State) (w : WindowId) (i : SlotId) : Calm s (s.handPartial w i) := by
  unfold State.handPartial; try dsimp only
  repeat' (first
    | with_reducible apply Calm.refl
    | (split <;> try dsimp only)
    | with_reducible apply Calm.after (calm_handSlot _ _ _)
    | with_reducible rfl)

theorem calm_closeWindowPage (s : State) (w : WindowId) : Calm s (s.closeWindowPage w) := by
  unfold State.closeWindowPage; try dsimp only
  repeat' (first
    | with_reducible apply Calm.refl
    | with_reducible apply Calm.after (calm_handPartial _ _ _)
    | with_reducible apply Calm.after (calm_endWindowPage _ _)
    | with_reducible rfl)

theorem calm_orderCloseWindow (s : State) : Calm s (s.orderCloseWindow) := by
  unfold State.orderCloseWindow; try dsimp only
  repeat' (first
    | with_reducible apply Calm.refl
    | (split <;> try dsimp only)
    | with_reducible apply Calm.after (calm_closeWindowPage _ _)
    | with_reducible apply Calm.after (calm_answer _ _ _ _)
    | with_reducible rfl)

theorem calm_orderCloseDocument (s : State) : Calm s (s.orderCloseDocument) := by
  unfold State.orderCloseDocument; try dsimp only
  repeat' (first
    | with_reducible apply Calm.refl
    | (split <;> try dsimp only)
    | with_reducible apply Calm.after (calm_answer _ _ _ _)
    | with_reducible apply Calm.after (calm_closeDocument _ _ _)
    | with_reducible rfl)

theorem calm_orderKeep (s : State) : Calm s (s.orderKeep) := by
  unfold State.orderKeep; try dsimp only
  repeat' (first
    | with_reducible apply Calm.refl
    | (split <;> try dsimp only)
    | with_reducible apply Calm.after (calm_answer _ _ _ _)
    | with_reducible apply Calm.after (calm_modDoc _ _ _ ?_)
    | with_reducible rfl
    | with_reducible apply Calm.after (calm_mk ?_ ?_ ?_ ?_ ?_ ?_ ?_ ?_ ?_ ?_ ?_ ?_ ?_ ?_)
    | rfl
    | exact fun h => h
    | exact fun _ h => h
    | exact fun _ => rfl)

theorem calm_orderRelease (s : State) : Calm s (s.orderRelease) := by
  unfold State.orderRelease; try dsimp only
  repeat' (first
    | with_reducible apply Calm.refl
    | (split <;> try dsimp only)
    | with_reducible apply Calm.after (calm_answer _ _ _ _)
    | with_reducible apply Calm.after (calm_testFree _ _)
    | with_reducible apply Calm.after (calm_modDoc _ _ _ ?_)
    | with_reducible rfl
    | with_reducible apply Calm.after (calm_mk ?_ ?_ ?_ ?_ ?_ ?_ ?_ ?_ ?_ ?_ ?_ ?_ ?_ ?_)
    | rfl
    | exact fun h => h
    | exact fun _ h => h
    | exact fun _ => rfl)

theorem calm_forceDelete (s : State) (d : Nat) : Calm s (s.forceDelete d) := by
  unfold State.forceDelete; try dsimp only
  repeat' (first
    | with_reducible apply Calm.refl
    | with_reducible apply Calm.after (calm_cancelEntry _ _)
    | with_reducible apply Calm.after (calm_cancelPrintEntry _ _)
    | with_reducible refine Calm.trans ?_ (calm_eachNum _ _ _ (fun n t => ?_))
    | with_reducible apply Calm.after (calm_modDoc _ _ _ ?_)
    | with_reducible rfl
    | with_reducible apply Calm.after (calm_mk ?_ ?_ ?_ ?_ ?_ ?_ ?_ ?_ ?_ ?_ ?_ ?_ ?_ ?_)
    | rfl
    | exact fun h => h
    | exact fun _ h => h
    | exact fun _ => rfl)

theorem calm_orderDelete (s : State) : Calm s s.orderDelete := by
  unfold State.orderDelete
  dsimp only
  split
  · exact calm_answer _ _ _ _
  · rename_i r hr
    split
    · exact calm_answer _ _ _ _
    · split
      · exact calm_answer _ _ _ _
      · split
        · rename_i c
          refine Calm.trans (calm_freeDoc _ _ (fun x hx => ?_)) (calm_answer _ _ _ _)
          rw [hr] at hx
          cases hx
          exact c
        · split
          · exact (calm_forceDelete _ _).trans (calm_answer _ _ _ _)
          · exact calm_answer _ _ _ _

/-! ## An accepted SEND (R139): its references are counted first, and each entry made answers for one -/

theorem becomeReady_room (s : State) (i : Nat) : (s.becomeReady i).sendq.room = s.sendq.room := by
  have len : ∀ (t : State) (f : DestEntry → DestEntry), (t.modEntry i f).sendq.room = t.sendq.room := fun t f => by
    unfold SendQueue.room
    show 512 - (tmod t.sendq.entries i f).length + _ = _
    unfold tmod
    rw [List.length_map]
    rfl
  have test : ∀ t : State, (t.testDesk i).sendq.room = t.sendq.room := fun t => by
    unfold State.testDesk
    split
    · rfl
    · split
      · unfold State.holdEntry
        split
        · rfl
        · dsimp only
          split
          · exact len t _
          · exact len t _
      · rfl
  unfold State.becomeReady
  dsimp only
  rw [test]
  unfold SendQueue.room
  dsimp only [State.modEntry]
  unfold tmod
  rw [List.length_map]

/-- With no number free, all 512 entries are in use. -/
theorem lowestFree_full {α : Type} {t : Table α} {n : Nat} (h : lowestFree n t = none) : n ≤ t.length := by
  have all : ∀ k i, firstFree t k i = none → ∀ j, i ≤ j → j < i + k → j ∈ t.map Prod.fst := by
    intro k
    induction k with
    | zero => intro i _ j h1 h2; omega
    | succ k ih =>
      intro i hi j h1 h2
      unfold firstFree at hi
      split at hi
      · cases hi
      · rename_i c
        by_cases e : j = i
        · subst e
          exact List.mem_map.2 ⟨_, mem_of_tget c, rfl⟩
        · exact ih (i + 1) hi j (by omega) (by omega)
  have sub : List.range n ⊆ t.map Prod.fst := fun j hj => all n 0 h j (Nat.zero_le _) (by simpa using hj)
  have := (List.nodup_range.subperm sub).length_le
  simpa using this

theorem dropNum_length {l : List Nat} (h : l.Nodup) (i : Nat) : l.length ≤ (dropNum i l).length + 1 := by
  induction l with
  | nil => exact Nat.zero_le _
  | cons a l ih =>
    obtain ⟨h1, h2⟩ := List.nodup_cons.1 h
    unfold dropNum at ih ⊢
    by_cases e : a = i
    · subst e
      have : l.filter (fun x => decide (x ≠ a)) = l :=
        List.filter_eq_self.2 (fun b hb => decide_eq_true (fun k => h1 (k ▸ hb)))
      simp only [ne_eq] at this
      simp only [List.filter_cons, ne_eq, not_true_eq_false, decide_false, Bool.false_eq_true, if_false, this,
        List.length_cons, Nat.le_refl]
    · have := ih h2
      simp only [List.filter_cons, ne_eq, e, not_false_eq_true, decide_true, if_true, List.length_cons]
      simp only [ne_eq] at this
      omega

theorem same_makeEntry (s : State) (o : SendOrder) (number : Text) : Same s (s.makeEntry o number) := by
  unfold State.makeEntry
  split
  · exact (Calm.refl s).same
  · rename_i i _
    dsimp only
    have k : Same s { s with sendq := { s.sendq with
        finals := dropNum i s.sendq.finals, entries := tset s.sendq.entries i (o.entry number) } } :=
      ⟨⟨rfl, rfl, rfl, rfl, rfl, rfl, rfl⟩, rfl, rfl, rfl⟩
    split
    · refine k.trans (calm_becomeReady _ _ (fun _ e he => ?_)).same
      unfold State.entry at he
      dsimp only at he
      rw [tget_tset] at he
      cases he
      exact ⟨rfl, nofun⟩
    · exact k

/-- One entry made answers for one reference owed, and takes one place (R139, R140). -/
theorem steady_makeEntry {s : State} {r : Owed} {o : SendOrder} (number : Text) (h : s.Steady r)
    (own : 1 ≤ r.refs o.document) (room : 1 ≤ s.sendq.room) :
    (s.makeEntry o number).Steady { r with refs := fun d => r.refs d - if d = o.document then 1 else 0 }
    ∧ s.sendq.room ≤ (s.makeEntry o number).sendq.room + 1 := by
  obtain ⟨a, b, c, d, e, f, g, w, l, m⟩ := h
  have made : ∀ i, i < 512 → (tget s.sendq.entries i = none ∨ i ∈ s.sendq.finals) →
      (State.Steady { s with sendq := { s.sendq with
        finals := dropNum i s.sendq.finals, entries := tset s.sendq.entries i (o.entry number) } }
        { r with refs := fun d => r.refs d - if d = o.document then 1 else 0 }) := fun i hi hq =>
    ⟨a, b, c, d, e, f, g, w, SendOk.make l hi hq (o.entry number) ⟨rfl, nofun⟩ own rfl rfl, m⟩
  have place : ∃ i, s.sendq.place = some i ∧ i < 512 ∧ (tget s.sendq.entries i = none ∨ i ∈ s.sendq.finals) := by
    unfold SendQueue.place
    split
    · rename_i i hi
      exact ⟨i, rfl, (lowestFree_spec hi).1, .inl (lowestFree_spec hi).2⟩
    · rename_i full
      cases hf : s.sendq.finals with
      | nil =>
        have k := lowestFree_full full
        unfold SendQueue.room at room
        rw [hf] at room
        have k : 512 ≤ s.sendq.entries.length := k
        have room : 1 ≤ 512 - s.sendq.entries.length + 0 := room
        omega
      | cons i t =>
        have hm : i ∈ s.sendq.finals := by rw [hf]; exact List.mem_cons_self
        obtain ⟨x, hx, _⟩ := (l.2.1.2 i).1 hm
        exact ⟨i, rfl, l.1.2 _ (mem_of_tget hx), .inr List.mem_cons_self⟩
  obtain ⟨i, hp, hi, hq⟩ := place
  have room2 : s.sendq.room ≤ SendQueue.room { s.sendq with
      finals := dropNum i s.sendq.finals, entries := tset s.sendq.entries i (o.entry number) } + 1 := by
    unfold SendQueue.room
    dsimp only
    have fl := dropNum_length l.2.1.1 i
    cases ht : tget s.sendq.entries i with
    | none =>
      obtain ⟨p, q, e1, e2⟩ := table_gap ht (o.entry number)
      have no : dropNum i s.sendq.finals = s.sendq.finals :=
        List.filter_eq_self.2 (fun j hj => decide_eq_true (fun k => by
          subst k
          obtain ⟨x, hx, _⟩ := (l.2.1.2 j).1 hj
          rw [ht] at hx; cases hx))
      have : (tset s.sendq.entries i (o.entry number)).length = s.sendq.entries.length + 1 := by
        rw [e2, e1]; simp only [List.length_append, List.length_cons]; omega
      rw [no, this]
      omega
    | some x =>
      obtain ⟨p, q, e1, e2, _, _, _⟩ := table_split l.1 ht
      have : (tset s.sendq.entries i (o.entry number)).length = s.sendq.entries.length := by
        rw [e2, e1]; simp only [List.length_append, List.length_cons]
      rw [this]
      omega
  unfold State.makeEntry
  rw [hp]
  dsimp only
  split
  · refine ⟨(calm_becomeReady _ _ (fun _ e he => ?_)).steady _ (made i hi hq), ?_⟩
    · unfold State.entry at he
      dsimp only at he
      rw [tget_tset] at he
      cases he
      exact ⟨rfl, nofun⟩
    · rw [becomeReady_room]
      exact room2
  · exact ⟨made i hi hq, room2⟩

theorem same_makeEntries (o : SendOrder) (l : List Text) (s : State) : Same s (s.makeEntries o l) := by
  unfold State.makeEntries
  induction l generalizing s with
  | nil => exact (Calm.refl s).same
  | cons n l ih => exact (same_makeEntry s o n).trans (ih _)

theorem steady_makeEntries {o : SendOrder} (l : List Text) {s : State} {r : Owed}
    (h : s.Steady { r with refs := fun d => r.refs d + if d = o.document then l.length else 0 })
    (room : l.length ≤ s.sendq.room) : (s.makeEntries o l).Steady r := by
  induction l generalizing s with
  | nil =>
    have e : (fun d => r.refs d + if d = o.document then ([] : List Text).length else 0) = r.refs := by
      funext d
      split <;> rfl
    rw [e] at h
    exact h
  | cons n l ih =>
    have room : l.length + 1 ≤ s.sendq.room := room
    have k := steady_makeEntry n h (by dsimp only; rw [if_pos rfl, List.length_cons]; omega) (by omega)
    refine ih (s := s.makeEntry o n) ?_ (by omega)
    have e : (fun d => (r.refs d + if d = o.document then (n :: l).length else 0) - if d = o.document then 1 else 0)
        = (fun d => r.refs d + if d = o.document then l.length else 0) := by
      funext d
      split
      · rw [List.length_cons]; omega
      · omega
    have k1 := k.1
    dsimp only at k1
    rw [e] at k1
    exact k1

/-- An accepted SEND keeps the laws: there is room for its entries, and its document is in use (R138, R139). -/
theorem calm_acceptSend (s : State) (o : SendOrder) (l : List Text) (hd : (s.doc o.document).isSome = true)
    (room : l.length ≤ s.sendq.room) : Calm s (s.acceptSend o l) := by
  unfold State.acceptSend
  dsimp only
  refine Calm.trans ?_ (calm_arbiterPasses _)
  refine Calm.trans ?_ (calm_answer _ _ _ _)
  obtain ⟨r, hr⟩ := Option.isSome_iff_exists.1 hd
  have z : Same s ((s.modDoc o.document (fun r => { r with sendRefs := r.sendRefs + l.length })).makeEntries o l) :=
    Same.trans (t := s.modDoc o.document (fun r => { r with sendRefs := r.sendRefs + l.length }))
      ⟨⟨rfl, rfl, rfl, rfl, rfl, rfl, rfl⟩, rfl, rfl, rfl⟩ (same_makeEntries o l _)
  refine ⟨z.fixed, z.mem, z.part, z.clock, fun w x => ?_⟩
  refine steady_makeEntries l ?_ room
  obtain ⟨a, b, c, d, e, f, g, k, m, n⟩ := x
  exact ⟨a, b, c, d, lawful_modDoc e _ _ (fun _ => by rfl), f,
    printRefs_modDoc g o.document (fun r => { r with sendRefs := r.sendRefs + l.length }) (fun _ => rfl), k,
    SendOk.owe m hr l.length, n⟩

theorem destinations_length {s : State} {a n : Nat} {l : List Text} (h : s.destinations a n = some l) : l.length = n := by
  induction n generalizing a l with
  | zero => cases h; rfl
  | succ n ih =>
    unfold State.destinations at h
    split at h
    · rename_i k
      cases h
      rw [List.length_cons, ih k]
    · cases h

/-- The checks of SEND that let it go on: its document is in use, and its entries have room (R138). -/
theorem sendChecks_inr {s : State} {o : SendOrder} (h : s.sendChecks = .inr o) :
    (s.doc o.document).isSome = true ∧ s.body 12 2 ≤ s.sendq.room := by
  unfold State.sendChecks at h
  dsimp only at h
  split at h
  · cases h
  · split at h
    · cases h
    · split at h
      · cases h
      · rename_i r hr
        split at h
        · cases h
        · split at h
          · cases h
          · cases h
            refine ⟨?_, by omega⟩
            show (s.doc (s.body 0 1)).isSome = true
            rw [hr]; rfl

theorem calm_orderSend (s : State) : Calm s s.orderSend := by
  unfold State.orderSend
  split
  · exact calm_answer _ _ _ _
  · rename_i o h
    split
    · exact Calm.refl s
    · split
      · exact calm_answer _ _ _ _
      · rename_i k
        refine calm_acceptSend s _ _ (sendChecks_inr h).1 ?_
        rw [destinations_length k]
        exact (sendChecks_inr h).2

theorem calm_cancelById (s : State) (i : Nat) : Calm s (s.cancelById i) := by
  unfold State.cancelById; try dsimp only
  repeat' (first
    | with_reducible apply Calm.refl
    | (split <;> try dsimp only)
    | with_reducible apply Calm.after (calm_cancelEntry _ _)
    | with_reducible apply Calm.after (calm_answer _ _ _ _)
    | with_reducible rfl)

theorem calm_cancelByOrder (s : State) (q : Word) : Calm s (s.cancelByOrder q) := by
  unfold State.cancelByOrder; try dsimp only
  repeat' (first
    | with_reducible apply Calm.refl
    | (split <;> try dsimp only)
    | with_reducible apply Calm.after (calm_cancelEntry _ _)
    | with_reducible apply Calm.after (calm_answer _ _ _ _)
    | with_reducible refine Calm.trans ?_ (calm_eachNum _ _ _ (fun n t => ?_))
    | with_reducible rfl)

theorem calm_orderCancel (s : State) : Calm s (s.orderCancel) := by
  unfold State.orderCancel; try dsimp only
  repeat' (first
    | with_reducible apply Calm.refl
    | (split <;> try dsimp only)
    | with_reducible apply Calm.after (calm_cancelByOrder _ _)
    | with_reducible apply Calm.after (calm_cancelById _ _)
    | with_reducible apply Calm.after (calm_answer _ _ _ _)
    | with_reducible rfl)

theorem calm_orderPrint (s : State) : Calm s s.orderPrint := by
  unfold State.orderPrint
  dsimp only
  split
  · exact calm_answer _ _ _ _
  · exact calm_answer _ _ _ _
  · rename_i hr
    split
    · exact calm_answer _ _ _ _
    · split
      · exact calm_answer _ _ _ _
      · rename_i e
        exact (calm_makePrintEntry_eq e (by rw [hr]; rfl)).trans (calm_answer _ _ _ _)

theorem calm_orderCancelPrint (s : State) : Calm s (s.orderCancelPrint) := by
  unfold State.orderCancelPrint; try dsimp only
  repeat' (first
    | with_reducible apply Calm.refl
    | (split <;> try dsimp only)
    | with_reducible apply Calm.after (calm_answer _ _ _ _)
    | with_reducible apply Calm.after (calm_cancelPrintEntry _ _)
    | with_reducible rfl)

theorem calm_screenAdd (s : State) (kk : KeyKind) (key : Text) (k : ScreenKind) (desk copies : Nat) (flash : Bool)
    (budget : Nat) (hk : k ≠ .learned) : Calm s (s.screenAdd kk key k desk copies flash budget) := by
  unfold State.screenAdd
  split
  · refine Calm.trans (calm_modScreen _ _ (fun h => ?_)) (calm_answer _ _ _ _)
    exact screen_mod h _ (fun e => e.replace k desk copies flash budget) (fun _ => ⟨rfl, fun x => absurd x hk⟩)
  · rename_i hn
    split
    · exact calm_answer _ _ _ _
    · rename_i hi
      refine Calm.trans (calm_modScreen _ _ (fun h => ?_)) (calm_answer _ _ _ _)
      exact screen_add h hi _ hn (fun _ => hk)

theorem calm_orderScreenAdd (s : State) : Calm s s.orderScreenAdd := by
  unfold State.orderScreenAdd
  dsimp only
  split
  · split
    · exact calm_answer _ _ _ _
    · split
      · exact calm_answer _ _ _ _
      · rename_i c
        exact calm_screenAdd _ _ _ _ _ _ _ _ (fun x => c (.inl x))
  · exact calm_answer _ _ _ _

theorem calm_orderScreenRemove (s : State) : Calm s s.orderScreenRemove := by
  unfold State.orderScreenRemove
  split
  · exact calm_answer _ _ _ _
  · dsimp only
    split
    · exact calm_answer _ _ _ _
    · refine Calm.trans (calm_modScreen _ _ (fun h => ?_)) (calm_answer _ _ _ _)
      exact screen_sub h List.filter_sublist (fun m x hx => h.2.2 m x (List.mem_of_mem_filter hx))

theorem unlearned_kind {c : Screen} : ∀ x ∈ c.unlearned, x.2.kind ≠ .learned :=
  fun _ hx => of_decide_eq_true (List.mem_filter.1 hx).2

theorem calm_orderScreenClear (s : State) : Calm s s.orderScreenClear := by
  unfold State.orderScreenClear
  dsimp only
  split
  · refine Calm.trans (calm_modScreen _ _ (fun h => ?_)) (calm_answer _ _ _ _)
    exact screen_sub h List.filter_sublist (fun _ => unlearned_kind)
  · split
    · refine Calm.trans (calm_modScreen _ _ (fun h => ?_)) (calm_answer _ _ _ _)
      exact screen_sub h (List.nil_sublist _) (fun _ x hx => absurd hx List.not_mem_nil)
    · exact calm_answer _ _ _ _

theorem calm_orderSweep (s : State) : Calm s s.orderSweep := by
  unfold State.orderSweep
  split
  · refine Calm.trans (calm_modScreen _ _ (fun h => ?_)) (calm_answer _ _ _ _)
    unfold Screen.startSweep
    first | exact h | (split <;> exact h)
  · exact calm_answer _ _ _ _

theorem calm_orderScreenMode (s : State) : Calm s s.orderScreenMode := by
  unfold State.orderScreenMode
  split
  · exact calm_answer _ _ _ _
  · dsimp only
    split
    · exact calm_answer _ _ _ _
    · refine Calm.trans (calm_modScreen _ _ (fun h => ?_)) (calm_answer _ _ _ _)
      refine screen_sub h ?_ (fun m => ?_)
      · dsimp only
        split
        · exact List.filter_sublist
        · exact List.Sublist.refl _
      · dsimp only at m ⊢
        rw [if_pos m]
        exact unlearned_kind

theorem calm_orderLoadTariff (s : State) : Calm s (s.orderLoadTariff) := by
  unfold State.orderLoadTariff; try dsimp only
  repeat' (first
    | with_reducible apply Calm.refl
    | (split <;> try dsimp only)
    | with_reducible apply Calm.after (calm_retestEntries _)
    | with_reducible apply Calm.after (calm_answer _ _ _ _)
    | with_reducible rfl
    | with_reducible apply Calm.after (calm_mk ?_ ?_ ?_ ?_ ?_ ?_ ?_ ?_ ?_ ?_ ?_ ?_ ?_ ?_)
    | rfl
    | exact fun h => h
    | exact fun _ h => h)

theorem calm_orderSetDesk (s : State) : Calm s (s.orderSetDesk) := by
  unfold State.orderSetDesk; try dsimp only
  repeat' (first
    | with_reducible apply Calm.refl
    | (split <;> try dsimp only)
    | with_reducible apply Calm.after (calm_deskRecompute _ _ _)
    | with_reducible apply Calm.after (calm_answer _ _ _ _)
    | with_reducible apply Calm.after (calm_modDesk _ _ _)
    | with_reducible rfl
    | with_reducible apply Calm.after (calm_mk ?_ ?_ ?_ ?_ ?_ ?_ ?_ ?_ ?_ ?_ ?_ ?_ ?_ ?_)
    | rfl
    | exact fun h => h
    | exact fun _ h => h)

theorem calm_orderClosePeriod (s : State) : Calm s (s.orderClosePeriod) := by
  unfold State.orderClosePeriod; try dsimp only
  repeat' (first
    | with_reducible apply Calm.refl
    | (split <;> try dsimp only)
    | with_reducible apply Calm.after (calm_deskRecompute _ _ _)
    | with_reducible apply Calm.after (calm_startBurn _)
    | with_reducible apply Calm.after (calm_queueBurn _ _ _)
    | with_reducible apply Calm.after (calm_answer _ _ _ _)
    | with_reducible refine Calm.trans ?_ (calm_eachNum _ _ _ (fun n t => ?_))
    | with_reducible apply Calm.after (calm_modDesk _ _ _)
    | with_reducible rfl
    | with_reducible apply Calm.after (calm_mk ?_ ?_ ?_ ?_ ?_ ?_ ?_ ?_ ?_ ?_ ?_ ?_ ?_ ?_)
    | rfl
    | exact fun h => h
    | exact fun _ h => h)

theorem calm_orderFlushMeter (s : State) : Calm s (s.orderFlushMeter) := by
  unfold State.orderFlushMeter; try dsimp only
  repeat' (first
    | with_reducible apply Calm.refl
    | (split <;> try dsimp only)
    | with_reducible apply Calm.after (calm_startBurn _)
    | with_reducible apply Calm.after (calm_queueBurn _ _ _)
    | with_reducible apply Calm.after (calm_answer _ _ _ _)
    | with_reducible refine Calm.trans ?_ (calm_eachNum _ _ _ (fun n t => ?_))
    | with_reducible rfl)

theorem calm_orderAuditClear (s : State) : Calm s (s.orderAuditClear) := by
  unfold State.orderAuditClear; try dsimp only
  repeat' (first
    | with_reducible apply Calm.refl
    | (split <;> try dsimp only)
    | with_reducible apply Calm.after (calm_deskRecompute _ _ _)
    | with_reducible apply Calm.after (calm_startBurn _)
    | with_reducible apply Calm.after (calm_queueBurn _ _ _)
    | with_reducible apply Calm.after (calm_answer _ _ _ _)
    | with_reducible apply Calm.after (calm_modDesk _ _ _)
    | with_reducible rfl
    | with_reducible apply Calm.after (calm_mk ?_ ?_ ?_ ?_ ?_ ?_ ?_ ?_ ?_ ?_ ?_ ?_ ?_ ?_)
    | rfl
    | exact fun h => h
    | exact fun _ h => h)

theorem calm_orderLineMode (s : State) : Calm s s.orderLineMode := by
  unfold State.orderLineMode
  split
  · exact calm_answer _ _ _ _
  · exact calm_answer _ _ _ _
  · rename_i u m _ _
    dsimp only
    split
    · exact ((calm_lineMode s u m).trans (calm_answer _ _ _ _)).trans (calm_arbiterPasses _)
    · exact (calm_lineMode s u m).trans (calm_answer _ _ _ _)

theorem calm_startDump (s : State) (k : DumpKind) (o : Byte) (base len : Nat) : Calm s (s.startDump k o base len) := by
  unfold State.startDump; try dsimp only
  repeat' (first
    | with_reducible apply Calm.refl
    | with_reducible apply Calm.after (calm_settleDump _)
    | with_reducible apply Calm.after (calm_holdAtOwner _)
    | with_reducible apply Calm.after (calm_issue _ _ _ _)
    | with_reducible rfl
    | with_reducible apply Calm.after (calm_mk ?_ ?_ ?_ ?_ ?_ ?_ ?_ ?_ ?_ ?_ ?_ ?_ ?_ ?_)
    | rfl
    | exact fun h => h
    | exact fun _ h => h)

theorem calm_orderDump (s : State) : Calm s (s.orderDump) := by
  unfold State.orderDump; try dsimp only
  repeat' (first
    | with_reducible apply Calm.refl
    | (split <;> try dsimp only)
    | with_reducible apply Calm.after (calm_startDump _ _ _ _ _)
    | with_reducible apply Calm.after (calm_answer _ _ _ _)
    | with_reducible rfl)

theorem calm_dumpClear (s : State) (d : DumpState) (i : Nat) : Calm s (s.dumpClear d i) := by
  unfold State.dumpClear; try dsimp only
  repeat' (first
    | with_reducible apply Calm.refl
    | (split <;> try dsimp only)
    | with_reducible apply Calm.after (calm_modUnit _ _ _ ?_)
    | with_reducible rfl
    | with_reducible apply Calm.after (calm_mk ?_ ?_ ?_ ?_ ?_ ?_ ?_ ?_ ?_ ?_ ?_ ?_ ?_ ?_)
    | rfl
    | exact fun h => h
    | exact fun _ h => h
    | exact fun _ => ⟨.inl rfl, fun h => h, fun h => h⟩)

theorem calm_dumpPurge (s : State) (d : DumpState) (i : Nat) : Calm s (s.dumpPurge d i).2 := by
  unfold State.dumpPurge
  split
  · rename_i e he
    split
    · rename_i c
      exact calm_mk rfl id rfl id rfl rfl rfl rfl
        (h13 := fun _ x => x.purge he (Bool.and_eq_true_iff.1 c).2 rfl rfl)
    · exact Calm.refl s
  · exact Calm.refl s

theorem calm_dumpOne (s : State) (d : DumpState) (i : Nat) (rest : List Nat) : Calm s (s.dumpOne d i rest) := by
  unfold State.dumpOne
  dsimp only
  refine Calm.trans ?_ (calm_settleDump _)
  have key : Calm s (((s.issue .dump d.addr (s.dumpRecord d.kind i)).dumpClear d i).dumpPurge d i).2 :=
    ((calm_issue _ _ _ _).trans (calm_dumpClear _ _ _)).trans (calm_dumpPurge _ _ _)
  exact key.trans (calm_mk rfl id rfl id rfl rfl rfl rfl)

theorem calm_dumpRecordWrite (s : State) : Calm s s.dumpRecordWrite := by
  unfold State.dumpRecordWrite
  split
  · exact Calm.refl s
  · split
    · exact Calm.refl s
    · split
      · exact Calm.refl s
      · exact calm_dumpOne _ _ _ _

theorem calm_writePartState (s : State) (v : Nat) : Calm s (s.writePartState v) := by
  unfold State.writePartState; try dsimp only
  repeat' (first
    | with_reducible apply Calm.refl
    | with_reducible apply Calm.after (calm_issue _ _ _ _)
    | with_reducible rfl)

theorem calm_restartScan (s : State) : Calm s (s.restartScan) := by
  unfold State.restartScan; try dsimp only
  repeat' (first
    | with_reducible apply Calm.refl
    | (split <;> try dsimp only)
    | with_reducible apply Calm.after (calm_endScan _ _ _ _)
    | with_reducible rfl)

theorem calm_restartSends (s : State) : Calm s (s.restartSends) := by
  unfold State.restartSends; try dsimp only
  repeat' (first
    | with_reducible apply Calm.refl
    | with_reducible apply Calm.after (calm_cancelEntry _ _)
    | with_reducible refine Calm.trans ?_ (calm_eachNum _ _ _ (fun n t => ?_))
    | with_reducible rfl)

theorem calm_restartDone (s : State) : Calm s (s.restartDone) := by
  unfold State.restartDone; try dsimp only
  repeat' (first
    | with_reducible apply Calm.refl
    | (split <;> try dsimp only)
    | with_reducible apply Calm.after (calm_writePartState _ _)
    | with_reducible apply Calm.after (calm_arbiterPasses _)
    | with_reducible apply Calm.after (calm_answer _ _ _ _)
    | with_reducible rfl
    | with_reducible apply Calm.after (calm_mk ?_ ?_ ?_ ?_ ?_ ?_ ?_ ?_ ?_ ?_ ?_ ?_ ?_ ?_)
    | rfl
    | exact fun h => h
    | exact fun _ h => h)

end Sys2Proof.Machine
end

