-- ==== Sys2Proof/Laws/Kept.lean ====
section
/-! SUPPORT. The operations that change page memory, the part state or the clock keep the laws: host writes,
performed writes, the services that can let a held host write go on, the clock, start-up and the resets. -/

namespace Sys2Proof.Machine

open Sys2Proof

/-! ## Host writes -/

theorem kept_mem (s : State) (m : Memory) (h : s.mem.wf = true → m.wf = true) : Kept s { s with mem := m } :=
  ⟨⟨rfl, rfl, rfl, rfl, rfl, rfl, rfl⟩, fun x => ⟨h x.1, x.2⟩⟩

theorem kept_part (s : State) (p : PartState) : Kept s { s with part := p } :=
  ⟨⟨rfl, rfl, rfl, rfl, rfl, rfl, rfl⟩, fun x => x⟩

theorem kept_watchSetup (s : State) (g : Seg) : Kept s (s.watchSetup g) := by
  unfold State.watchSetup
  split
  · split
    · exact kept_part _ _
    · exact Kept.refl _
    · exact (calm_alreadyRunning _).kept
  · exact Kept.refl _

theorem kept_watch (s : State) (a : Area) (g : Seg) : Kept s (s.watch a g) := by
  unfold State.watch
  split
  · exact kept_watchSetup _ _
  · exact (calm_watchSlot _ _).kept
  · exact (calm_giveReporter _ _).kept
  · exact (calm_giveConsumer _ _).kept
  · exact Kept.refl _

theorem kept_performHost (s : State) (a : Area) (g : Seg) : Kept s (s.performHost a g) := by
  unfold State.performHost
  exact (kept_mem s _ (fun h => Memory.writeLanes_wf _ _ h)).trans (kept_watch _ _ _)

/-- The state that a part of a host write leaves; a part held behind pending writes leaves it as it is. -/
def SegAnswer.state (s : State) : SegAnswer → State
  | .done t _ => t
  | .behind => s
  | .held _ _ t => t

theorem kept_hostSeg (s : State) (g : Seg) : Kept s (SegAnswer.state s (s.hostSeg g)) := by
  have pass : ∀ a : Area, Kept s (SegAnswer.state s
      (if s.path.blocked g.addr g.lanes.length then .behind else .done (s.performHost a g) false)) := by
    intro a
    split
    · exact Kept.refl _
    · exact kept_performHost _ _ _
  unfold State.hostSeg
  dsimp only
  split
  · exact Kept.refl _
  split
  · show Kept s (if s.part = .running then s.guardHit .outside g.addr else s)
    split
    · exact (calm_guardHit _ _ _).kept
    · exact Kept.refl _
  split
  · exact pass _
  · split
    · exact Kept.refl _
    · exact pass _
  · exact (calm_guardHit _ _ _).kept
  · split
    · exact (calm_guardHit _ _ _).kept
    · exact pass _
  · exact pass _
  · exact pass _
  · rename_i w _
    have k := calm_windowWrite s w g
    split <;> (rename_i h; rw [h] at k; exact k.kept)

theorem kept_runSegs (gs : List Seg) (err : Bool) (s : State) : Kept s (runSegs gs err s) := by
  induction gs generalizing err s with
  | nil => exact (calm_endCycle _ _).kept
  | cons g gs ih =>
    have k := kept_hostSeg s g
    unfold runSegs
    split <;> (rename_i h; rw [h] at k)
    · exact k.trans (ih _ _)
    · exact (calm_holdCycle _ _).kept
    · exact k.calm (calm_holdCycle _ _)

theorem kept_hostWrite (s : State) (a : Nat) (lanes : List Lane) : Kept s (s.hostWrite a lanes) := by
  unfold State.hostWrite
  split
  · exact Kept.refl _
  · split
    · exact kept_runSegs _ _ _
    · exact kept_runSegs _ _ _

theorem kept_resumeHost (s : State) : Kept s s.resumeHost := by
  unfold State.resumeHost
  split
  · split
    · exact Kept.refl _
    · exact (calm_endCycle _ _).kept
  · exact kept_runSegs _ _ _
  · split
    · exact Kept.refl _
    · exact kept_runSegs _ _ _
  · exact Kept.refl _

theorem calm_resumePrintRead (s : State) : Calm s s.resumePrintRead := by
  unfold State.resumePrintRead
  split
  · exact calm_advanceSheet _
  · exact Calm.refl s

theorem calm_resumeIntake (s : State) : Calm s s.resumeIntake :=
  ((calm_settleDump s).trans (calm_settleTake _)).trans (calm_beginTake _)

theorem tame_resumeMeter (s : State) (waited : Bool) : Tame s (s.resumeMeter waited) := by
  unfold State.resumeMeter
  dsimp only
  split
  · exact (tame_runWork _ _).trans (calm_arbiterPasses _).tame
  · exact tame_runWork _ _

theorem kept_resumeHeld (s : State) (waited : Bool) : Kept s (s.resumeHeld waited) := by
  unfold State.resumeHeld
  refine Kept.trans ?_ (kept_resumeHost _)
  refine Kept.calm ?_ (calm_resumePrintRead _)
  refine Kept.calm ?_ (calm_scanRetry _)
  refine Kept.calm ?_ (calm_eachUnit _ _ (fun u t => calm_settleVerdict t u))
  refine Kept.calm ?_ (calm_takeGiven _ _)
  exact (calm_resumeIntake s).kept.trans (tame_resumeMeter _ _).kept

theorem kept_retryHeld (s : State) (w : WindowId) : Kept s (s.retryHeld w) := by
  unfold State.retryHeld
  split
  · split
    · exact kept_runSegs _ _ _
    · exact Kept.refl _
  · exact Kept.refl _

theorem kept_freeSlot (s : State) (w : WindowId) (i : SlotId) : Kept s (s.freeSlot w i) := by
  unfold State.freeSlot
  exact (calm_modWindow _ _ _).kept.trans (kept_retryHeld _ _)

theorem kept_abandonWindow (s : State) (w : WindowId) (r : AbandonReason) : Kept s (s.abandonWindow w r) := by
  unfold State.abandonWindow
  dsimp only
  have k := (((calm_abandonSource s (.win w)).trans (calm_modWindow _ w (fun y =>
    { y with slotA := Slot.clear, slotB := Slot.clear, state := .idle, sealPending := false, page := none }))).trans
    (calm_modDoc _ ((s.window w).document.getD 0) (fun y => { y with attached := false }) (fun _ => rfl))).trans
    (calm_post _ .memoryPath (.windowAbandoned w r ((s.window w).document.getD 0) (s.window w).page (s.window w).linesHanded))
  split
  · split
    · exact k.kept.trans (kept_runSegs _ _ _)
    · exact k.kept
  · exact k.kept

theorem kept_restartWindow (s : State) (w : WindowId) : Kept s (s.restartWindow w) := by
  unfold State.restartWindow
  dsimp only
  split
  · exact kept_abandonWindow _ _ _
  · exact Kept.refl _

/-! ## Performed writes -/

theorem firstOf_eq {blk : Block} {b q before after : List PendingWrite} {w : PendingWrite}
    (h : firstOf blk b q = some (before, w, after)) : before ++ w :: after = b.reverse ++ q := by
  induction q generalizing b with
  | nil => cases h
  | cons x q ih =>
    unfold firstOf at h
    split at h
    · cases h; rfl
    · rw [ih h]; simp

theorem kept_perform (s : State) (w : PendingWrite) : Kept s (s.perform w) :=
  ⟨⟨rfl, rfl, rfl, rfl, rfl, rfl, rfl⟩, fun x => ⟨Memory.writeBytes_wf _ _ x.1, x.2⟩⟩

theorem admitWaiting_lawful {p : MemPath} {q : List PendingWrite} (h : p.Lawful) (k : q.length + 1 = p.queue.length)
    (m : ∀ w ∈ q, w ∈ p.queue) : ({ p with queue := q }).admitWaiting.Lawful := by
  obtain ⟨rg, po, gu, wi, bu, re, qu, wa, ur, cy, gr⟩ := p
  obtain ⟨a, b, c, d⟩ := h
  dsimp only at a b c d k m
  have hq : q.length < Config.queueWrites := by show q.length < 16; omega
  unfold MemPath.admitWaiting
  cases wa with
  | nil =>
    refine ⟨?_, ?_, ?_, d⟩
    · show q.length ≤ 16; omega
    · intro x; exact absurd rfl x
    · intro w hw
      have hw : w ∈ q ++ [] := hw
      rw [List.append_nil] at hw
      exact c w (List.mem_append_left _ (m w hw))
  | cons w t =>
    dsimp only
    rw [if_pos hq]
    have full := b (List.cons_ne_nil _ _)
    refine ⟨?_, ?_, ?_, d⟩
    · show (q ++ [w]).length ≤ 16
      simp; omega
    · intro _
      show (q ++ [w]).length = 16
      simp; omega
    · intro x hx
      have hx : x ∈ (q ++ [w]) ++ t := hx
      simp only [List.append_assoc, List.singleton_append, List.mem_append] at hx
      rcases hx with hx | hx
      · exact c x (List.mem_append_left _ (m x hx))
      · exact c x (List.mem_append_right _ hx)

theorem admitWaiting_regions (p : MemPath) : p.admitWaiting.regions = p.regions := by
  unfold MemPath.admitWaiting
  split
  · split <;> rfl
  · rfl

theorem kept_pendingPerformed (s : State) (blk : Block) : Kept s (s.pendingPerformed blk) := by
  unfold State.pendingPerformed
  split
  · exact Kept.refl _
  · rename_i before w after h
    split
    · exact Kept.refl _
    · dsimp only
      refine Kept.trans ?_ (kept_resumeHeld _ _)
      refine (kept_perform s w).trans ⟨⟨rfl, rfl, rfl, rfl, admitWaiting_regions _, rfl, rfl⟩, fun x => ?_⟩
      refine ⟨x.1, x.2.1, ?_, x.2.2.2⟩
      have e := firstOf_eq h
      simp only [List.reverse_nil, List.nil_append] at e
      refine admitWaiting_lawful x.2.2.1 ?_ ?_
      · show (before ++ after).length + 1 = s.path.queue.length
        rw [← e]; simp; omega
      · intro y hy
        show y ∈ s.path.queue
        rw [← e]
        simp only [List.mem_append, List.mem_cons] at hy ⊢
        tauto

/-! ## The Page Coder's line services -/

theorem kept_freeLine (s : State) (i : SourceId) (n : Nat) : Kept s (s.freeLine i n) := by
  cases i with
  | scan => exact (calm_freeBufferLine _ _).kept
  | win w => exact kept_freeSlot _ _ _

theorem kept_ownerDocFull (s : State) (i : SourceId) : Kept s (s.ownerDocFull i) := by
  cases i with
  | scan => exact (calm_endScan _ _ _ _).kept
  | win w => exact kept_abandonWindow _ _ _

theorem kept_placeLine (s : State) (i : SourceId) (p n : Nat) (bs : List Byte) (ts : List Nat) :
    Kept s (s.placeLine i p n bs ts) := by
  unfold State.placeLine
  split
  · rename_i h
    exact (((calm_place_eq h).trans (calm_modPage _ _ _ (fun _ => by rfl))).trans (calm_modSource _ _ _)).kept.trans (kept_freeLine _ _ _)
  · rename_i h
    exact (((calm_place_eq h).trans (calm_modSource _ _ _)).trans (calm_sourceWaits _ _ _)).kept

theorem kept_codeHead (s : State) (i : SourceId) (p n : Nat) : Kept s (s.codeHead i p n) := by
  unfold State.codeHead
  exact (calm_markCoding _ _ _).kept.trans (kept_placeLine _ _ _ _ _ _)

theorem kept_openContinuation (s : State) (i : SourceId) (n : Nat) : Kept s (s.openContinuation i n) := by
  unfold State.openContinuation
  dsimp only
  split
  · rename_i h
    have k := (calm_beginSource_eq h).trans (calm_modSource _ i (fun y => { y with continuation := false }))
    split
    · exact (k.trans (calm_ownerPage _ _ _)).kept.trans (kept_codeHead _ _ _ _)
    · exact k.kept
  · rename_i h
    exact ((calm_beginSource_eq h).trans (calm_sourceWaits _ _ _)).kept.trans (kept_ownerDocFull _ _)
  · rename_i h
    exact ((calm_beginSource_eq h).trans (calm_sourceWaits _ _ _)).kept
  · rename_i h
    exact ((calm_beginSource_eq h).trans (calm_sourceWaits _ _ _)).kept

theorem kept_sealAndContinue (s : State) (i : SourceId) (p n : Nat) (bs : List Byte) :
    Kept s (s.sealAndContinue i p n bs) := by
  unfold State.sealAndContinue
  split
  · rename_i h; exact (calm_placeEnd_eq h).kept
  · rename_i h
    exact (((calm_placeEnd_eq h).trans (calm_modSource _ _ _)).trans (calm_ownerSealed _ _ _)).kept.trans
      (kept_openContinuation _ _ _)

theorem kept_serveLine (s : State) (i : SourceId) (n : Nat) : Kept s (s.serveLine i n) := by
  unfold State.serveLine
  dsimp only
  split
  · split
    · exact kept_openContinuation _ _ _
    · exact Kept.refl _
  · split
    · exact kept_placeLine _ _ _ _ _ _
    · exact kept_sealAndContinue _ _ _ _ _
  · split
    · exact kept_codeHead _ _ _ _
    · exact kept_sealAndContinue _ _ _ _ _

theorem kept_lineService (s : State) : Kept s s.lineService := by
  unfold State.lineService
  split
  · exact Kept.refl _
  · split
    · exact Kept.refl _
    · split
      · exact Kept.refl _
      · exact ((calm_turnMarker _ _).kept.trans (kept_serveLine _ _ _)).calm (calm_scanRetry _)

/-! ## RESTART, the clock, start-up and the resets -/

theorem kept_orderRestart (s : State) : Kept s s.orderRestart := by
  unfold State.orderRestart
  dsimp only
  have k1 : Kept s { (s.writePartState 2).holdAtOwner with
      intake := { (s.writePartState 2).holdAtOwner.intake with restart := some (Quad.all false) } } := by
    refine (((calm_writePartState s 2).trans (calm_holdAtOwner _))).kept.calm ?_
    exact calm_mk rfl id rfl id rfl rfl rfl rfl
  refine Kept.calm ?_ (calm_eachUnit _ _ (fun u t => calm_restartUnit t u))
  refine Kept.calm ?_ (calm_restartSends _)
  refine Kept.trans ?_ (kept_restartWindow _ _)
  refine Kept.trans ?_ (kept_restartWindow _ _)
  refine Kept.calm ?_ (calm_restartScan _)
  exact k1.calm (calm_restartPrint _)

theorem Clock.tick_lawful {c : Clock} (h : c.Lawful) : c.tick.Lawful := by
  obtain ⟨a, b⟩ := h
  unfold Clock.tick Config.dayHalves
  split
  · exact ⟨by assumption, b⟩
  · refine ⟨?_, ?_⟩
    · show 0 < 172800
      omega
    · dsimp only
      split <;> omega

theorem DestEntry.tick_law (e : DestEntry) : e.tick.law = e.law := by
  unfold DestEntry.tick
  split <;> rfl

/-- Every clock step keeps the units' meter records in use as they are (R186). -/
theorem countStep_recs (s : State) (u : UnitId) :
    (s.countStep.meter.recs.get u).isSome = (s.meter.recs.get u).isSome := by
  unfold State.countStep
  cases u <;> exact Option.isSome_map

theorem kept_countStep (s : State) : Kept s s.countStep := by
  refine ⟨⟨rfl, rfl, rfl, rfl, rfl, rfl, rfl⟩, fun x => ⟨x.1, Clock.tick_lawful x.2.1, ?_⟩⟩
  obtain ⟨a, b, c, d, e, f, g, k, l, m⟩ := x.2.2
  refine ⟨a, b, c, d, e, f, g, k, l.map DestEntry.tick DestEntry.tick_law rfl rfl, ?_⟩
  refine m.units (fun u hu => ?_) rfl rfl rfl rfl (fun u hu => ?_)
  · unfold mayCharge at hu ⊢
    rw [countStep_recs] at hu
    exact hu
  · rw [countStep_recs] at hu
    exact m.2.2.2 u hu

theorem kept_clockStep (s : State) : Kept s s.clockStep :=
  (calm_settleDue s).kept.trans (kept_countStep _)

theorem kept_orderSetClock (s : State) : Kept s s.orderSetClock := by
  unfold State.orderSetClock
  dsimp only
  split
  · exact (calm_answer _ _ _ _).kept
  · rename_i h
    refine Kept.calm ?_ (calm_answer _ _ _ _)
    refine ⟨⟨rfl, rfl, rfl, rfl, rfl, rfl, rfl⟩, fun x => ?_⟩
    refine ⟨x.1, ?_, x.2.2⟩
    unfold Config.dayHalves at h
    exact ⟨by dsimp only; omega, by dsimp only; omega⟩

end Sys2Proof.Machine
end

