-- ==== Sys2Proof/Laws/Start.lean ====
section
/-! SUPPORT. Start-up and the resets leave page memory and the queue of commands as they are, and keep the laws. -/

namespace Sys2Proof.Machine

open Sys2Proof

/-- An operation that leaves page memory and the queue of commands as they are and keeps the laws. -/
structure Begun (s t : State) : Prop where
  pending : t.pending = s.pending
  mem : t.mem = s.mem
  safe : s.Safe → t.Safe

theorem Begun.trans {s t u : State} (h : Begun s t) (k : Begun t u) : Begun s u :=
  ⟨k.pending.trans h.pending, k.mem.trans h.mem, fun x => k.safe (h.safe x)⟩

theorem Calm.begun {s t : State} (h : Calm s t) : Begun s t := ⟨h.fixed.pending, h.mem, h.kept.safe⟩

/-- No entry names a key of the Screen Table, whatever its mode (R154). -/
theorem screen_empty {c : Screen} (h : c.entries = []) : c.Lawful := by
  unfold Screen.Lawful
  rw [h]
  exact ⟨tableIn_nil _, List.nodup_nil, fun _ _ hx => absurd hx List.not_mem_nil⟩

/-- A Charge Log with no record, no record waiting and no unit metered (R192). -/
theorem charge_empty {un : Quad LineUnit} {m : Meter} (h1 : m.producer = 0) (h2 : m.consumer = 0)
    (h3 : m.overflow = []) (hw : m.work = []) (h4 : ∀ u, m.recs.get u = none) : ChargeOk un m := by
  refine ⟨by rw [h1, h2]; exact Nat.zero_le _, fun k => absurd h3 k, ?_, fun u hu => ?_⟩
  · have none : m.releases = 0 := by unfold Meter.releases; rw [hw]; rfl
    rw [h3, none]
    simpa using allUnits_filter_le _
  · rw [h4 u] at hu
    cases hu

theorem setupUnit_eq (s : State) (u : UnitId) :
    ∃ l : LineUnit, s.setupUnit u = { s with units := s.units.set u l } ∧ l.entry = none := by
  unfold State.setupUnit State.modUnit
  exact ⟨_, rfl, rfl⟩

/-- The units take their modes, and none holds an entry (R97). -/
theorem setupUnits_eq (s : State) : ∃ q : Quad LineUnit,
    eachUnit (fun u t => t.setupUnit u) s = { s with units := q } ∧ ∀ u, (q.get u).entry = none := by
  unfold eachUnit allUnits
  dsimp only [List.foldl]
  obtain ⟨l0, e0, h0⟩ := setupUnit_eq s .lu0
  rw [e0]
  obtain ⟨l1, e1, h1⟩ := setupUnit_eq { s with units := s.units.set .lu0 l0 } .lu1
  rw [e1]
  dsimp only
  obtain ⟨l2, e2, h2⟩ := setupUnit_eq { s with units := (s.units.set .lu0 l0).set .lu1 l1 } .lu2
  rw [e2]
  dsimp only
  obtain ⟨l3, e3, h3⟩ := setupUnit_eq { s with units := ((s.units.set .lu0 l0).set .lu1 l1).set .lu2 l2 } .lu3
  rw [e3]
  exact ⟨_, rfl, fun u => by cases u <;> assumption⟩

/-- The settings handed to their owners leave the part with an empty pool, empty tables and an empty Charge Log
(R49, R137, R154, R168, R192). -/
theorem begun_handSettings (s : State) (b : SetupRead) : Begun s (s.handSettings b) := by
  unfold State.handSettings
  dsimp only
  obtain ⟨q, e, h⟩ := setupUnits_eq (State.setupMeter { s with
    settings := s.takeSettings b, store := PageStore.build b.poolBase b.poolCount,
    path := { s.path with regions := b.table },
    sendq := { SendQueue.reset with keepForReceive := min 3 (s.readNum 0xBD 1) } } b)
  rw [e]
  unfold State.setupPrint State.setupScreen State.modScreen State.setupMeter
  dsimp only
  refine ⟨rfl, rfl, fun x => ⟨x.1, x.2.1, ?_⟩⟩
  obtain ⟨a, b1, c, d, -⟩ := x.2.2
  exact ⟨a, b1, c, d, lawful_build _ _, tableIn_nil _, printRefs_nil, screen_empty rfl, sendOk_empty rfl rfl h,
    charge_empty rfl rfl rfl rfl (fun u => by cases u <;> rfl)⟩

theorem calm_writeStatus (s : State) (o f : Nat) : Calm s (s.writeStatus o f) := by
  unfold State.writeStatus
  exact (calm_issue _ _ _ _).trans (calm_issue _ _ _ _)

theorem calm_foldIssue (blk : Block) (l : List Nat) (s : State) :
    Calm s (l.foldl (fun t o => t.issue blk (t.controlWord o) (leBytes 4 0)) s) := by
  induction l generalizing s with
  | nil => exact Calm.refl s
  | cons o l ih => exact (calm_issue s _ _ _).trans (ih _)

theorem calm_prepareControl (s : State) : Calm s s.prepareControl := by
  unfold State.prepareControl
  refine Calm.trans ?_ (calm_issue _ _ _ _)
  refine Calm.trans ?_ (calm_foldIssue .eventReporter _ _)
  refine Calm.trans ?_ (calm_issue _ _ _ _)
  exact calm_eachNum _ _ _ (fun n t => calm_issue _ _ _ _)

theorem calm_loadCell (s : State) (d : Nat) : Calm s (s.loadCell d) := by
  unfold State.loadCell
  dsimp only
  split
  · exact ((calm_modDesk _ _ _).trans (calm_post _ _ _)).trans (calm_deskRecompute _ _ _)
  · exact Calm.refl _

theorem begun_goRunning (s : State) (b : SetupRead) : Begun s (s.goRunning b) := by
  unfold State.goRunning
  dsimp only
  refine Begun.trans ?_ (calm_recomputePrinter _ _).begun
  refine Begun.trans ?_ (calm_eachNum _ _ _ (fun d t => calm_loadCell t d)).begun
  refine Begun.trans ?_ (calm_post _ .eventReporter _).begun
  refine Begun.trans ?_ (calm_prepareControl _).begun
  refine Begun.trans ?_ (calm_writeStatus _ 1 0).begun
  exact (begun_handSettings s b).trans ⟨rfl, rfl, fun x => x⟩

theorem begun_setupReadDone (s : State) : Begun s s.setupReadDone := by
  unfold State.setupReadDone
  split
  · exact (Calm.refl s).begun
  · dsimp only
    split
    · exact Begun.trans (t := { s with part := .unconfigured }) ⟨rfl, rfl, fun x => x⟩ (calm_writeStatus _ 2 _).begun
    · exact begun_goRunning _ _

theorem begun_resetParts (s : State) (straps : MemSize) (cause : ResetCause) (clock : Clock)
    (h : s.Safe → clock.Lawful) : Begun s (s.resetParts straps cause clock) := by
  refine ⟨rfl, rfl, fun x => ⟨x.1, h x, ?_⟩⟩
  refine ⟨⟨Nat.zero_le _, fun k => absurd rfl k, fun w k => ?_, (by decide : (0 : Nat) < 12)⟩,
    (by decide : (0 : Nat) < 32), ⟨by show ((0 : Word) - 0).toNat ≤ 256; decide, Nat.zero_le _⟩, rfl, lawful_build 0 0, tableIn_nil _, printRefs_nil,
    screen_empty rfl, sendOk_empty rfl rfl (fun u => by cases u <;> rfl),
    charge_empty rfl rfl rfl rfl (fun u => by cases u <;> rfl)⟩
  cases k

theorem begun_powerOnReset (s : State) (straps : MemSize) : Begun s (s.powerOnReset straps) :=
  begun_resetParts _ _ _ _ (fun _ => ⟨by decide, by decide⟩)

theorem begun_busReset (s : State) (straps : MemSize) : Begun s (s.busReset straps) :=
  begun_resetParts _ _ _ _ (fun x => x.2.1)

end Sys2Proof.Machine
end

