-- ==== Sys2Proof/Tests/Slice0.lean ====
section
/-! SUPPORT. Tests: the operand checks, the worked examples and tables of the manual, and states that meet the
hypotheses of the statements. -/

namespace Sys2Proof.Tests

open Sys2Proof Sys2Proof.Machine

/- One theorem after another: a kernel evaluation each, side by side, takes the checker's whole memory. -/
set_option Elab.async false

/-! ## Operand checks -/

theorem test_wellformed_refuses_empty_read : (Instr.hostRead 4096 0).operandFault = some .emptyRead := by decide

theorem test_wellformed_refuses_empty_write :
    (Instr.hostWrite 4096 []).operandFault = some .emptyWrite
    ∧ (Instr.windowWriteFixed 4096 []).operandFault = some .emptyWrite := by decide

theorem test_wellformed_refuses_grant_of_nothing : (Instr.portGrant []).operandFault = some .nothingPresented := by
  decide

theorem test_wellformed_refuses_empty_caller : (Instr.caller .lu0 []).operandFault = some .callerLength := by decide

theorem test_wellformed_refuses_long_data :
    (Instr.data .lu0 (List.replicate 65 0)).operandFault = some .dataLength := by decide

theorem test_wellformed_refuses_long_send : (Instr.linkSendData .lu0 65).operandFault = some .sendLength := by decide

theorem test_wellformed_refuses_known_message :
    (Instr.unknownLinkMessage .lu0 22).operandFault = some .knownMessage := by decide

theorem test_wellformed_refuses_hot_head : (Instr.lineDone 101).operandFault = some .temperatureRange := by decide

theorem test_wellformed_takes_boundaries :
    (Instr.lineDone 100).WellFormed ∧ (Instr.linkSendData .lu3 64).WellFormed
    ∧ (Instr.caller .lu0 (List.replicate 24 0x31)).WellFormed ∧ (Instr.unknownLinkMessage .lu0 23).WellFormed := by
  decide

theorem test_no_word_spells_a_command : decodeTableWord 16 0x1234 = none := rfl

/-! ## Tables and worked examples of the manual -/

/-- Table 2-2, line 0: RUNS, 9 bytes: head 4, 5 and the runs 100, 40, 460, 10 and 414. -/
theorem test_example_2_1_line_0 :
    (codeLine .full 1024 [] [100, 140, 600, 610]).length = 9
    ∧ takeLine 1024 [] (codeLine .full 1024 [] [100, 140, 600, 610]) = .good [100, 140, 600, 610] 9 := by decide

/-- Table 2-2, line 1: SHIFT, the values 10, 7, 8 and 10 in two bytes after the tag. -/
theorem test_example_2_1_line_1 :
    codeLine .full 1024 [100, 140, 600, 610] [102, 139, 600, 612] = [0x02, 0xA7, 0x8A] := by decide

/-- Table 2-2, lines 2 and 3: SAME, 1 byte, and one run of 1024, 4 bytes. -/
theorem test_example_2_1_lines_2_and_3 :
    codeLine .full 1024 [102, 139, 600, 612] [102, 139, 600, 612] = [0x01]
    ∧ (codeLine .full 1024 [102, 139, 600, 612] []).length = 4 := by decide

/-- Example 2-3: the first stored line is 7 bytes, and a SHIFT line with value 0 is bad after its body byte. -/
theorem test_example_2_3 :
    (codeLine .full 1728 [] [800, 900]).length = 7 ∧ takeLine 1728 [800, 900] [0x02, 0x09] = .bad 2
    ∧ takeLine 1728 [800, 900] [0x01] = .good [800, 900] 1 := by decide

/-- Table 2-4, the rows of 12000 and 7200 bit/s. -/
theorem test_table_2_4 :
    [0, 5, 10, 20, 40].map (minLineBytes 12000) = [0, 8, 15, 30, 60]
    ∧ [0, 5, 10, 20, 40].map (minLineBytes 7200) = [0, 5, 9, 18, 36] := by decide

/-- Table 10-3, and the two further values of its text. -/
theorem test_table_10_3 :
    [0, 10, 25, 45, 64].map (strobeDuty 80 12) = [95, 91, 80, 65, 51] ∧ strobeDuty 40 63 64 = 20 := by decide

/-! ## Small states -/

/-- Bytes from numbers. -/
def bytes (ns : List Nat) : List Byte := ns.map byteOf

/-- A desk with no charge. -/
def deskNew : Desk :=
  { state := .opened, audit := false, closed := false, ceiling := 4294967295, spent := 0, working := 0, burned := 0,
    calls := 0, captured := none, torn := false }

/-- A running part: Control Page at 4096, Event Ring at 8192, Charge Log at 16384, a raster window at 32768,
four blocks at 65536, desk 0 OPEN and desk 3 in AUDIT. -/
def ready : State := { State.reset with
  part := .running,
  settings := { Settings.reset with controlBase := 4096, eventBase := 8192, ringsToAnswer := 2, holdOffMs := 5 },
  path := { MemPath.reset with regions := [(0, { base := 32768, size := 4096, treatment := .raster })] },
  store := PageStore.build 65536 4,
  meter := { State.reset.meter with
    desks := [(0, deskNew), (3, { deskNew with state := .audit, audit := true })],
    logBase := 16384, logSize := 128, checkpoint := 500 } }

/-- The running part with an order of a kind and a body read from slot 0. -/
def taking (k : OrderKind) (body : List Nat) : State := { ready with
  mem := (Memory.writeBytes [] 4096 [byteOf (orderCode k)]).writeBytes 4128 (bytes body),
  intake := { ready.intake with take := .reading } }

/-- A closed document. -/
def docOf (pages : List Nat) : Doc :=
  { state := .closed, origin := .scan, desk := 0, pages := pages, keep := false, sendRefs := 0, printRefs := 0,
    truncated := false, notQueued := false, deletePending := false, created := Stamp.zero, station := none,
    total := 0, attached := false }

/-- A SEALED page of a document, one block long. -/
def pageOf (d position block lines : Nat) : PageRec :=
  { state := .sealed, document := d, position := position, origin := .scan, width := .standard, resolution := .normal,
    lines := lines, coded := 2, first := block, last := block, blocks := 1, clipped := false }

/-- A state with document 7 as given. -/
def withDoc (r : Doc) (s : State) : State := { s with store := { s.store with docs := [(7, r)] } }

/-- A state with document 7 CLOSED on the SEALED page 0. -/
def withPage (s : State) : State := { s with store := { s.store with
  docs := [(7, docOf [0])], pages := [(0, pageOf 7 0 0 0)], free := [1, 2, 3] } }

/-- A state with line unit 1 changed. -/
def withUnit (f : LineUnit → LineUnit) (s : State) : State := s.modUnit .lu1 f

/-- What a command leaves, or the state as it was where it stops. -/
def after (c : Instr) (s : State) : State :=
  match exec c s with
  | .next t => t
  | _ => s

theorem ready_safe : ready.Safe :=
  ⟨rfl, ⟨by decide, by decide⟩,
    ⟨Nat.zero_le _, fun h => absurd rfl h, fun _ h => absurd h List.not_mem_nil, by decide⟩, by decide,
    ⟨by decide, by decide⟩, rfl, lawful_build _ _, tableIn_nil _, printRefs_nil, screen_empty rfl,
    sendOk_empty rfl rfl (fun u => by cases u <;> rfl), charge_empty rfl rfl rfl rfl (fun u => by cases u <;> rfl)⟩

/-- A write of a block that is waiting for room in the queue. -/
def stall (b : Block) (s : State) : State := { s with path := { s.path with
  waiting := [{ blk := b, addr := 40960, bytes := bytes [1], clears := none }] } }

/-- A pending write of the Dump Writer under way at an address. -/
def blocking (a : Nat) (s : State) : State := { s with path := { s.path with
  queue := [{ blk := .dump, addr := a, bytes := bytes [1, 2, 3, 4], clears := none }] } }

/-! ## Single commands -/

/-- R66, R67: a post to the expected slot begins its take, and the order-taken word at 0x800 gets its number. -/
theorem test_order_taken_word_is_issued :
    (after (.orderSlotPost 0 41) ready).path.queue.map (fun w => (w.addr, w.bytes)) = [(0x1800, [41, 0, 0, 0])] := by
  decide

/-- R15: KEEP of an unused number is answered NO SUCH, with the sequence field and the post word after it. -/
theorem test_keep_of_no_document :
    (after .keep (taking .keep [7])).path.queue.map (fun w => w.addr) = [0x100C, 0x1008, 0x1004]
    ∧ (after .keep (taking .keep [7])).intake.expected = 1 := by decide

/-- R15: KEEP sets keep on document 7. -/
theorem test_keep_sets_keep :
    ((after .keep (withDoc (docOf []) (taking .keep [7]))).doc 7).map (fun r => r.keep) = some true := by decide

/-- R180: a step from the last half-second of the last day is the first of the first. -/
theorem test_clock_wraps :
    (Clock.tick { day := 6, half := 172799, unset := false, divider := 0 }) =
      { day := 0, half := 0, unset := false, divider := 0 } := by decide

/-- Table 11-4: the step to elapsed 48 of Example 11-1 falls due in NIGHT, the next start is 20 later, and the unit is
charged at 5. -/
theorem test_example_11_1_unit_48 :
    let r : MeterRec := MeterRec.tick .night
      { zoneIndex := 1, zone := { digits := [], setup := 20, len := ⟨12, 12, 20⟩, price := ⟨9, 9, 5⟩ }, desk := 0,
        entry := 0, orderSeq := 0, number := [], answer := Stamp.zero, elapsed := 47, nextStart := 48,
        units := ⟨4, 0, 0⟩, charge := 56, due := [] }
    let s := (({ ready with meter := { ready.meter with recs := ⟨none, some r, none, none⟩ } }).settleMeter .lu1)
    (s.meter.recs.u1.map (fun x => (x.charge, x.nextStart, x.units))) = some (61, 68, ⟨4, 0, 1⟩)
    ∧ (s.desk 0).map (fun k => (k.spent, k.working)) = some (5, 5) := by decide

/-- R186: the band of a unit is the band at the clock value just reached. -/
theorem test_band_at_the_edge :
    ({ Tariff.empty with weekdayRow := List.replicate 19 Band.peak ++ List.replicate 5 Band.night }).bandAt ⟨1, 136799, false⟩
      = .peak
    ∧ ({ Tariff.empty with weekdayRow := List.replicate 19 Band.peak ++ List.replicate 5 Band.night }).bandAt
      ⟨1, 136800, false⟩ = .night := by decide

/-- Example 3-1, burst 4: 24 bytes complete slot A, 40 go to slot B. -/
theorem test_example_3_1_burst_4 :
    let w : Window := { Window.reset with
      state := .opened, document := some 4, page := some 17, width := .standard, lineBytes := 216, linesExpected := 3,
      linesRemaining := 3, slotA := { state := .filling, bytes := List.replicate 192 0, marks := [] } }
    let s := { ready with path := { ready.path with win := ⟨w, Window.reset⟩ } }
    let t := (after (.windowWriteFixed 32768 (List.replicate 64 (some 0xFF))) s).path.win.w0
    t.slotA.state = .coding ∧ t.slotB.state = .filling ∧ t.slotB.bytes.length = 40 ∧ t.next = .b
    ∧ t.linesRemaining = 2 := by decide +kernel

/-- Example 4-1: the consumer write equal to the producer index returns the missed-event count to 0. -/
theorem test_example_4_1_consumer_write :
    (after (.eventConsumerWrite 1001)
      { ready with reporter := { ready.reporter with producer := 1001, consumer := 745, missed := 3 } }).reporter.missed
      = 0 := by decide

/-- Example 6-1, Table 6-1: a second RING in RINGING answers a unit whose rings to answer is 2. -/
theorem test_second_ring_answers :
    let s := withUnit (fun l => { l with mode := .receive, state := .ringing, ringCount := 1 }) ready
    ((after (.ring .lu1) s).unit .lu1).state = .inSession
    ∧ ((after (.ring .lu1) s).unit .lu1).out.take 2 = [.release, .answer] := by decide

/-- R174: cover open while a line is in flight abandons the sheet. -/
theorem test_cover_opens_on_a_sheet :
    let s := { ready with print := { ready.print with sheet := .lineInFlight, state := .printing, draining := true } }
    (after (.coverClosedChange false) s).print.sheet = .noSheet
    ∧ (after (.coverClosedChange false) s).print.state = .coverOpen := by decide

/-! ## States that meet the hypotheses of the statements

One theorem for each statement with hypotheses, clause by clause, at the ends of the ranges where they have any. -/

theorem witness_StepRunsTheFrontCommand : State.reset.pending = [] := rfl

theorem witness_EveryStepKeepsSafe : ready.Safe ∧ step ready = .next ready := ⟨ready_safe, rfl⟩

theorem witness_OnlyMemoryCommandsWriteMemory : touchesMemory .keep = false ∧ exec .keep ready = .next ready :=
  ⟨rfl, rfl⟩

theorem witness_ConfigurationIsFixedWhileRunning :
    exec .keep ready = .next ready ∧ (∀ m, Instr.keep ≠ .powerOnReset m) ∧ (∀ m, Instr.keep ≠ .busReset m)
    ∧ Instr.keep ≠ .setupBlockReadDone :=
  ⟨rfl, fun _ h => (nomatch h), fun _ h => (nomatch h), by decide⟩

theorem witness_SetupPostStartsTheRead :
    let s (p : PartState) : State := { ready with part := p }
    (∀ p, (s p).Safe) ∧ (s .unconfigured).path.bus = .free ∧ (s .unconfigured).stalled .memoryPath = false
    ∧ (s .unconfigured).path.blocked 0 4 = false
    ∧ (0 + [some (1 : Byte)].length ≤ 4096 ∧ 4095 + [some (1 : Byte)].length ≤ 4096) := ⟨fun _ => ready_safe, by decide⟩

/-- Writes of less than the post word: one that leaves it nonzero, one that leaves it 0, and one behind it. -/
theorem witness_SetupPageTakesOtherWrites :
    let s (p : PartState) (l : List Lane) : State := { ready with part := p, mem := ready.mem.writeLanes 0 l }
    (s .unconfigured [none, some 5]).readNum 0 4 ≠ 0 ∧ (s .running [none, some 5]).readNum 0 4 ≠ 0
    ∧ (s .unconfigured [some 0, some 0]).readNum 0 4 = 0 ∧ ready.path.blocked 0 2 = false
    ∧ 4094 + [none, some (5 : Byte)].length ≤ 4096 ∧ [none, some (5 : Byte)].filterMap id ≠ []
    ∧ (after (.hostWrite 0 [none, some 5]) (s .unconfigured [])).part = .setup := by decide

/-- A part whose Setup Block is being read. -/
def reading (m : Memory) : State := { State.reset with part := .setup, mem := m }

/-- A Setup Block that passes: Control Page 4096, Event Ring 8192, Charge Log 16384 of 128, pool 65536 of 256. -/
def goodBlock : Memory := Memory.writeBytes [] 0xA0
  (bytes [0, 0x10, 0, 0, 0, 0x20, 0, 0, 0, 0x40, 0, 0, 128, 0, 0, 0, 0, 0, 1, 0, 0, 1, 0, 0])

theorem witness_SetupRefusedReturnsToUnconfigured :
    (reading []).part = .setup ∧ (reading []).readSetup.fault (memBytes (reading []).memSize) = some .logSize
    ∧ (reading []).path.blocked 0x40 0x110 = false ∧ (reading []).stalled .memoryPath = false
    ∧ (blocking 0x14F (reading [])).path.blocked 0x40 0x110 = true ∧ ready.part ≠ .setup
    ∧ (stall .memoryPath (reading [])).stalled .memoryPath = true
    ∧ (let all := [(1, 0, 256), (2, 0, 1), (3, 255, 15)]
      let low := bytes [0, 0, 0, 0, 0, 0, 0, 0, 0, 0, 0, 0, 0, 255]
      all.length ≤ 3 ∧ (reading (Memory.writeBytes [] 0xB4 low)).clampReport = all) := by decide

theorem witness_SetupAcceptedGoesRunning :
    let s := blocking 0x150 (reading goodBlock)
    s.part = .setup ∧ s.readSetup.fault (memBytes s.memSize) = none ∧ s.path.blocked 0x40 0x110 = false
    ∧ s.stalled .memoryPath = false ∧ s.reporter.postings = [] := by decide

/-- Window 0 OPEN on page 0 of document 7, NARROW, in a mode, with slot A as given. -/
def windowed (m : WindowMode) (c : Slot) : State := { ready with path := { ready.path with win := ⟨{ Window.reset with
  state := .opened, document := some 7, page := some 0, mode := m, lineBytes := 128, slotA := c }, Window.reset⟩ } }

/-- The running part with a pending write of 4 bytes at 40960. -/
def writing : State := blocking 40960 ready

theorem witness_HostReadAnswersItsCase :
    writing.path.bus = .free ∧ writing.stalled .memoryPath = false ∧ memBytes writing.memSize < 16777213 + 4
    ∧ (16777212 + 4 ≤ memBytes writing.memSize ∧ writing.path.blocked 16777212 4 = false)
    ∧ (40963 + 4 ≤ memBytes writing.memSize ∧ writing.path.blocked 40963 4 = true)
    ∧ (40964 + 4 ≤ memBytes writing.memSize ∧ writing.path.blocked 40964 4 = false)
    ∧ (stall .memoryPath ready).stalled .memoryPath = true := by decide

theorem witness_HostWriteReachesPageMemory :
    ready.Safe ∧ ready.path.bus = .free ∧ ready.stalled .memoryPath = false
    ∧ 16777212 + [some (5 : Byte), none, some 6, some 7].length ≤ memBytes ready.memSize
    ∧ (∀ i, i < 4 → ready.hostArea (16777212 + i) = .pass) ∧ ready.path.blocked 16777212 4 = false
    ∧ (writing.path.blocked 40957 4 = true ∧ writing.path.blocked 40956 4 = false
      ∧ ∀ i, i < 4 → writing.hostArea (40957 + i) = .pass)
    ∧ ((stall .memoryPath ready).stalled .memoryPath = true ∧ [some (5 : Byte), none].filterMap id ≠ []) :=
  ⟨ready_safe, by decide⟩

/-- The pool's last two bytes and the byte behind it: the first part is refused, the second reaches memory. -/
theorem witness_HostWriteSpansTwoAreas :
    let front : List Lane := [some 1, some 2]
    let back : List Lane := [some 3]
    let t := after (.hostWrite 73726 (front ++ back)) ready
    ready.path.bus = .free ∧ 73726 + (front ++ back).length ≤ memBytes ready.memSize ∧ front.filterMap id ≠ []
    ∧ back.filterMap id ≠ [] ∧ (∀ i, i < front.length → ready.hostArea (73726 + i) = .guarded .pool)
    ∧ (∀ i, i < back.length → ready.hostArea (73726 + front.length + i) = .pass)
    ∧ (t.path.result = .busError ∧ t.mem = [(73728, 3)]
      ∧ t.reporter.postings.map (fun x => x.event) = [.guardHit .pool 73726]) := by decide

/-- The two parts of a write that goes on, is refused, or is held, by the area that each meets. -/
theorem witness_EachPartMeetsItsArea :
    let posted : State := { ready with path := { ready.path with posted := [31] } }
    let open_ := windowed .indexed Slot.clear
    (ready.hostArea 0 = .setupPage ∧ ready.part ≠ .setup ∧ (reading []).hostArea 0 = .setupPage ∧ (reading []).part = .setup)
    ∧ (posted.hostArea 4096 = .slot 0 ∧ 0 ∉ posted.path.posted ∧ posted.hostArea 6143 = .slot 31 ∧ 31 ∈ posted.path.posted)
    ∧ (ready.hostArea 6208 = .eventConsumer ∧ ready.hostArea 6212 = .chargeConsumer ∧ ready.hostArea 6216 = .pass)
    ∧ (writing.path.blocked 40963 1 = true ∧ writing.path.blocked 40964 1 = false ∧ writing.hostArea 40963 = .pass)
    ∧ (ready.hostArea 32768 = .window .w0 ∧ (ready.window .w0).state = .idle ∧ (open_.window .w0).state = .opened
      ∧ (match open_.windowWrite .w0 { addr := 32768 + 255, lanes := [some 1] } with
        | .taken _ => true
        | _ => false) = true
      ∧ (match open_.windowWrite .w0 { addr := 32768 + 256, lanes := [some 1] } with
        | .refused _ => true
        | _ => false) = true) := by decide +kernel

theorem witness_GuardedHostWriteIsRefused :
    let g (a : GuardArea) (n : Nat) : State := { ready with path := { ready.path with
      guards := [(a, { index := 0xFFFFFFFF, count := n })] } }
    ready.path.bus = .free ∧ ready.stalled .memoryPath = false ∧ 73724 + 4 ≤ memBytes ready.memSize
    ∧ [some (5 : Byte), none].filterMap id ≠ []
    ∧ (∀ i, i < 4 → ready.hostArea (73724 + i) = .guarded .pool) ∧ guardOf ready.path.guards .pool = none
    ∧ guardOf (g .pool 65534).path.guards .pool = some ⟨0xFFFFFFFF, 65534⟩
    ∧ guardOf (g .outside 65535).path.guards .outside = some ⟨0xFFFFFFFF, 65535⟩
    ∧ (ready.part = .running ∧ memBytes ready.memSize < 16777213 + [some (5 : Byte), none, none, none].length)
    ∧ State.reset.part ≠ .running
    ∧ (let s : State := { ready with path := { ready.path with posted := [0, 31] } }
      31 ∈ s.path.posted ∧ ∀ i, i < 4 → s.hostArea (s.slotAddr 31 + 60 + i) = .slot 31)
    ∧ ((ready.window .w0).state = .idle ∧ (∀ i, i < 4 → ready.hostArea (36860 + i) = .window .w0)
      ∧ ready.hostArea 36864 = .pass) := by decide

/-- The area of each address at the borders of the areas, with two RASTER regions behind a GUARD and a PASS one, the GUARD
region lying over the pool. -/
theorem witness_AddressHasItsArea :
    let r (i b : Nat) (k : Treatment) : Nat × Region := (i, { base := b, size := 4096, treatment := k })
    let s : State := { ready with path := { ready.path with
      regions := [r 1 65536 .guard, r 2 77824 .pass, r 4 81920 .raster, r 7 86016 .raster] } }
    s.part = .running
    ∧ [4095, 4096, 6143, 6144, 6163, 6164, 6207, 6208, 6211, 6212, 6215, 6216, 8191].map s.hostArea =
      [.setupPage, .slot 0, .slot 31, .guarded .controlWord, .guarded .controlWord, .pass, .pass, .eventConsumer,
        .eventConsumer, .chargeConsumer, .chargeConsumer, .pass, .pass]
    ∧ [8192, 16383, 16384, 24575, 24576, 65535, 65536, 73727, 73728, 77824, 81919].map s.hostArea =
      [.guarded .eventRing, .guarded .eventRing, .guarded .chargeLog, .guarded .chargeLog, .pass, .pass, .guarded .pool,
        .guarded .pool, .pass, .pass, .pass]
    ∧ [81920, 86015, 86016, 90111, 90112].map s.hostArea = [.window .w0, .window .w0, .window .w1, .window .w1, .pass]
    ∧ ({ s with store := PageStore.build 98304 4 } : State).hostArea 65536 = .guarded (.region 1)
    ∧ (s.path.regions.map (fun x => x.1)).Pairwise (fun m n => m < n) ∧ State.reset.hostArea 4096 = .pass := by
  decide +kernel

theorem witness_OrderSlotPostStartsTheTake :
    ready.Safe ∧ ready.part = .running ∧ ready.path.bus = .free ∧ ready.stalled .memoryPath = false
    ∧ (ready.slotAddr 0 + 8 ≤ memBytes ready.memSize ∧ (∀ i, i < 4 → ready.hostArea (ready.slotAddr 0 + 4 + i) = .slot 0)
      ∧ 0 ∉ ready.path.posted ∧ ready.path.blocked (ready.slotAddr 0 + 4) 4 = false
      ∧ ready.intake.take = .waiting ∧ ready.intake.expected = 0)
    ∧ (ready.slotAddr 31 + 8 ≤ memBytes ready.memSize
      ∧ (∀ i, i < 4 → ready.hostArea (ready.slotAddr 31 + 4 + i) = .slot 31)
      ∧ 31 ∉ ready.path.posted ∧ ready.path.blocked (ready.slotAddr 31 + 4) 4 = false ∧ ready.intake.expected ≠ 31)
    ∧ (ready.stalled .orderIntake = false ∧ (stall .orderIntake ready).stalled .orderIntake = true) :=
  ⟨ready_safe, by decide⟩

/-- Writes to slot 0 and slot 31 with their flags clear: to the body, and one byte of the post word. -/
theorem witness_SlotWriteMayPost :
    let s (a : Nat) : State := { ready with mem := ready.mem.writeLanes a [some 9] }
    (∀ x ∈ ([(0, 4096), (0, 4100), (31, 6143), (31, 6087)] : List (Nat × Nat)),
      ready.hostArea x.2 = .slot x.1 ∧ x.1 ∉ ready.path.posted ∧ ready.path.blocked x.2 1 = false)
    ∧ ((s 4096).readNum (4096 + 4) 4 = 0 ∧ (s 6143).readNum (4096 + 64 * 31 + 4) 4 = 0)
    ∧ ((s 4100).readNum (4096 + 4) 4 = 9 ∧ (s 6087).readNum (4096 + 64 * 31 + 4) 4 = 9 * 16777216)
    ∧ (ready.intake.take = .waiting ∧ ready.intake.expected = 0 ∧ ready.stalled .orderIntake = false)
    ∧ ((after (.hostWrite 4100 [some 9]) ready).intake.take = .reading
      ∧ (after (.hostWrite 4096 [some 9]) ready).path.posted = []) := by decide

theorem witness_EventConsumerWriteIsJudged :
    ready.Safe ∧ ready.part = .running ∧ ready.path.bus = .free ∧ ready.stalled .memoryPath = false
    ∧ ready.controlWord 0x844 ≤ memBytes ready.memSize
    ∧ (∀ i, i < 4 → ready.hostArea (ready.controlWord 0x840 + i) = .eventConsumer)
    ∧ ready.path.blocked (ready.controlWord 0x840) 4 = false
    ∧ 256 < (ready.reporter.producer - (0xFFFFFEFF : Word)).toNat
    ∧ (ready.reporter.producer - (0xFFFFFF00 : Word)).toNat ≤ 256 ∧ (0xFFFFFF00 : Word) ≠ ready.reporter.producer
    ∧ (0 : Word) = ready.reporter.producer
    ∧ ((stall .eventReporter ready).stalled .eventReporter = true ∧ ready.stalled .eventReporter = false
      ∧ ready.reporter.given = []) := ⟨ready_safe, by decide⟩

/-- A charge record. -/
def recordOf (n : Nat) : ChargeRecord :=
  { sequence := n, orderSeq := 5, answer := Stamp.zero, duration := 1, charge := 0, bytes := 0, entry := 0,
    units := ⟨1, 0, 0⟩, desk := 0, unit := .lu1, zone := 0, result := none, confirmed := 0, number := [0x35] }

/-- The running part with its Charge Log full and one record waiting. -/
def logFull : State := { ready with meter := { ready.meter with producer := 128, overflow := [recordOf 128] } }

theorem logFull_safe : logFull.Safe :=
  ⟨rfl, ready_safe.2.1, ready_safe.2.2.1, ready_safe.2.2.2.1, ready_safe.2.2.2.2.1, rfl, ready_safe.2.2.2.2.2.2.1,
    tableIn_nil _, printRefs_nil, screen_empty rfl, sendOk_empty rfl rfl (fun u => by cases u <;> rfl),
    by decide, fun _ => by decide, by decide, fun u h => by cases u <;> cases h⟩

theorem witness_ChargeConsumerWriteIsJudged :
    let s := logFull
    (s.Safe ∧ ready.Safe) ∧ s.part = .running ∧ s.path.bus = .free ∧ s.stalled .memoryPath = false
    ∧ s.controlWord 0x848 ≤ memBytes s.memSize
    ∧ (∀ i, i < 4 → s.hostArea (s.controlWord 0x844 + i) = .chargeConsumer)
    ∧ s.path.blocked (s.controlWord 0x844) 4 = false
    ∧ s.meter.logSize < (s.meter.producer - (0xFFFFFFFF : Word)).toNat
    ∧ (s.meter.producer - (0 : Word)).toNat = s.meter.logSize
    ∧ (let t (v : Word) : State := drainOverflow s.meter.overflow { s with meter := { s.meter with consumer := v } }
      ((t 0).meter.overflow = [recordOf 128] ∧ (t 0).meter.producer = 128)
      ∧ ((t 1).meter.overflow = [] ∧ (t 1).meter.producer = 129)
      ∧ (t 2).meter.overflow = [] ∧ ((t 2).meter.producer - 2).toNat < s.meter.logSize)
    ∧ ready.meter.overflow = []
    ∧ (s.stalled .meter = false ∧ s.meter.work = [] ∧ (stall .meter s).stalled .meter = true)
    ∧ { s.meter with work := [.charge 0 5] }.work ≠ [] := ⟨⟨logFull_safe, ready_safe⟩, by decide +kernel⟩

theorem witness_FixedWindowWriteFillsTheSlot :
    let zeros (n : Nat) : List Byte := List.replicate n 0
    let c (st : SlotState) (n : Nat) : Slot := { state := st, bytes := zeros n, marks := [] }
    let s (n : Nat) : State := windowed .fixed (c .filling n)
    let x (n : Nat) : Window := (s n).window .w0
    let o (st : SlotState) (n : Nat) : Window := { x 126 with slotB := c st n }
    let h := State.holdCycle ((windowed .fixed (c .coding 128)).modWindow .w0 (fun y => { y with state := .holding }))
      (.windowHold .w0 { addr := 32768, lanes := [some 1] } [] true)
    let ls : List Lane := [some 1, some 2, some 3, some 4]
    (s 123).path.bus = .free ∧ (s 123).stalled .memoryPath = false ∧ 32768 + ls.length ≤ memBytes (s 123).memSize
    ∧ (∀ i, i < ls.length → (s 123).hostArea (32768 + i) = .window .w0)
    ∧ (s 123).path.windowRegion .w0 = some { base := 32768, size := 4096, treatment := .raster }
    ∧ (x 123).state = .opened ∧ (x 123).mode = .fixed ∧ ls.filterMap id ≠ []
    ∧ ((x 123).slot .a).state = .filling ∧ ((x 0).slot .b).state = .empty
    ∧ ((x 123).slot .a).bytes.length + 4 = (x 123).lineBytes - 1 ∧ ((x 124).slot .a).bytes.length + 4 = (x 124).lineBytes
    ∧ ((x 126).slot .a).bytes.length + 4 = (x 126).lineBytes + 2
    ∧ ¬ ((x 126).linesExpected ≠ 0 ∧ (x 126).linesRemaining ≤ 1)
    ∧ (let y := { x 126 with linesExpected := 3, linesRemaining := 1 }; y.linesExpected ≠ 0 ∧ y.linesRemaining ≤ 1)
    ∧ (((o .filling 125).slot .b).bytes.length + 2 < (o .filling 125).lineBytes ∧ ((o .filling 125).slot .b).state = .filling)
    ∧ ((o .coding 128).slot .b).state = .coding
    ∧ (h.path.bus = .windowHold .w0 { addr := 32768, lanes := [some 1] } [] true ∧ (h.window .w0).state = .holding
      ∧ ((h.window .w0).slot (h.window .w0).next).state = .coding ∧ h.stalled .memoryPath = false) := by decide +kernel

theorem witness_IndexedWindowWriteMarksWords :
    let c (st : SlotState) (m : List Nat) : Slot := { state := st, bytes := List.replicate 128 0, marks := m }
    let s := windowed .indexed (c .filling [0, 1])
    let x := s.window .w0
    let ls : List Lane := [some 1, some 2, some 3, some 4]
    let bs (a : Nat) : List (Nat × Byte) := indexedBytes (a - 32768) ls
    s.path.bus = .free ∧ s.stalled .memoryPath = false ∧ 32892 + ls.length ≤ memBytes s.memSize
    ∧ (∀ i, i < ls.length → s.hostArea (32892 + i) = .window .w0)
    ∧ s.path.windowRegion .w0 = some { base := 32768, size := 4096, treatment := .raster }
    ∧ x.state = .opened ∧ x.mode = .indexed ∧ ls.filterMap id ≠ [] ∧ 32768 ≤ 32892
    ∧ (∀ p ∈ bs 32892, p.1 < x.lineBytes) ∧ (∀ p ∈ bs 33020, x.lineBytes ≤ p.1 ∧ p.1 < 2 * x.lineBytes)
    ∧ (∃ p ∈ bs 33021, 2 * x.lineBytes ≤ p.1)
    ∧ (x.slotA.state = .filling ∧ x.slotB.state = .empty ∧ (x.slot x.next).state ≠ .complete)
    ∧ (let y := (windowed .indexed (c .coding [])).window .w0
      y.slotA.state = .coding ∧ (y.setSlot .a Slot.clear).slotA.state = .empty)
    ∧ (let m := List.range 31
      m.length + 1 = x.lineBytes / 4 ∧ (bs 32892).foldl (fun k z => insertNum (z.1 / 4) k) m = List.range 32)
    ∧ ((windowed .indexed (c .complete [])).window .w0).state ≠ .idle := by decide +kernel

theorem witness_HoldTimeoutAbandonsTheWindowPage :
    let s0 := windowed .fixed Slot.clear
    let s := { s0 with path := { s0.path with bus := .windowHold .w0 { addr := 32768, lanes := [some 1] } [] false } }
    s.path.bus = .windowHold .w0 { addr := 32768, lanes := [some 1] } [] false ∧ (s.window .w0).document = some 7
    ∧ s.scanner.beginPending = false := by decide

theorem witness_PendingWriteReachesMemory :
    let w (b : Block) (a : Nat) : PendingWrite := { blk := b, addr := a, bytes := bytes [1, 2, 3, 4], clears := none }
    (writing.path.queue = [] ++ w .dump 40960 :: [] ∧ writing.path.queue.length ≤ 16 ∧ writing.path.bus = .free
      ∧ writing.intake.dump = none ∧ writing.intake.finish = none ∧ writing.print.sheet ≠ .sheetStarted
      ∧ writing.intake.expected ∉ writing.path.posted ∧ writing.stalled .meter = false ∧ writing.meter.work = []
      ∧ writing.reporter.given = [] ∧ writing.answering .lu1 = none ∧ writing.scanner.beginPending = false)
    ∧ (overlaps (w .dump 40960).addr 4 (w .meter 40963).addr 4 = true ∧ (w .meter 40963).blk ≠ (w .dump 40960).blk)
    ∧ overlaps (w .dump 40960).addr 4 (w .meter 40964).addr 4 = false := by decide

/-- 70 bytes from 2 bytes before a 4 KiB border on, into a queue of 14 writes: pieces of 2, 64 and 4 bytes, the last of
which waits. -/
theorem witness_WritesAreCut :
    let w : PendingWrite := { blk := .meter, addr := 40960, bytes := [1], clears := none }
    let p : MemPath := { ready.path with queue := List.replicate 14 w }
    let t := p.issue .dump 8190 (List.replicate 70 7) none
    p.waiting = [] ∧ (stall .meter ready).path.waiting ≠ []
    ∧ (t.queue.drop 14 ++ t.waiting).map (fun x => (x.addr, x.bytes.length)) = [(8190, 2), (8192, 64), (8256, 4)]
    ∧ t.waiting.length = 1 := by decide

/-- What a performed write lets go on: a DUMP and a take that are over, a posted slot, the work and the writes given to
the Meter and the Event Reporter, the head's line, and the host's held accesses, each with and without a write of its
block that waits. -/
theorem witness_HeldWorkGoesOn :
    let ended (l : List Nat) : DumpState :=
      { kind := .documents, clear := false, purge := false, addr := 0, total := 0, left := l, written := 0, purged := 0 }
    let told : TakeEnd := { kind := 5, result := .accepted, seq := 1, values := [] }
    let d (l : List Nat) : State := { ready with intake := { ready.intake with take := .atOwner, dump := some (ended l) } }
    let f := { ready with intake := { ready.intake with take := .finishing, finish := some told } }
    let p := { ready with path := { ready.path with posted := [0] } }
    let m := { ready with meter := { ready.meter with work := [.charge 0 5, .consumer 0] } }
    let e := { ready with reporter := { ready.reporter with given := [0] } }
    let g : Seg := { addr := 40963, lanes := [some 1, none] }
    let on (b : HostBus) (s : State) : State := { s with path := { s.path with bus := b } }
    let waits (s : State) (b : Block) : Prop := ∃ x ∈ s.path.waiting, x.blk = b
    ((d []).intake.dump.map (fun x => x.left)) = some [] ∧ ((d [3]).intake.dump.map (fun x => x.left)) = some [3]
    ∧ f.intake.finish ≠ none ∧ (p.intake.take = .waiting ∧ p.intake.expected ∈ p.path.posted)
    ∧ (ready.meterWaits = false ∧ m.meterWaits = true ∧ (stall .meter ready).meterWaits = true)
    ∧ (m.meter.work = .charge 0 5 :: [.consumer 0] ∧ e.reporter.given = 0 :: [])
    ∧ (¬ waits ready .meter ∧ waits (stall .meter m) .meter ∧ waits (stall .eventReporter e) .eventReporter
      ∧ waits (stall .dump (d [])) .dump ∧ waits (stall .orderIntake f) .orderIntake)
    ∧ ((on (.heldRead 40963 4) writing).path.blocked 40963 4 = true
      ∧ (on (.heldRead 40964 4) writing).path.blocked 40964 4 = false)
    ∧ (g.addr + g.lanes.length ≤ memBytes writing.memSize ∧ writing.hostArea g.addr = .pass
      ∧ writing.path.blocked g.addr g.lanes.length = true ∧ ready.path.blocked g.addr g.lanes.length = false)
    ∧ ((on (.windowHold .w0 g [] false) ready).path.bus = .windowHold .w0 g [] false
      ∧ waits (stall .memoryPath ready) .memoryPath) := by decide

theorem witness_WrittenBytesReadBack : Memory.wf [] = true := rfl

theorem witness_PortGrantFollowsTheArbiter :
    let s := withUnit (fun l => { l with role := some .caller, state := .inSession }) ready
    let q := withUnit (fun l => { l with txFifo := List.replicate 256 0 }) s
    let slot := blocking (4096 + 60) { ready with intake := { ready.intake with take := .reading } }
    let send := withPage (taking .send [7, 0, 3, 3, 1, 0, 0, 0, 0, 0xA0, 0, 0, 1, 0])
    let load := taking .loadTariff [0, 0xA0, 0, 0]
    (Requester.unit .lu1 ∈ [Requester.host, .unit .lu1].filter s.mayPresent ∧ (s.unit .lu1).urgent = true)
    ∧ ((q.unit .lu1).urgent = false ∧ Requester.host ∈ [Requester.host, .unit .lu1].filter q.mayPresent)
    ∧ (Requester.host ∉ [Requester.unit .lu1, .pageCoder].filter q.mayPresent
      ∧ Requester.pageCoder ∈ [Requester.unit .lu1, .pageCoder].filter q.mayPresent
      ∧ cyclePlace .pageCoder = some 0 ∧ cyclePlace (.unit .lu1) = some 9 ∧ q.path.cycle < 12)
    ∧ [Requester.unit .lu1].filter ready.mayPresent = []
    ∧ (slot.readHeld .orderIntake = true ∧ [Requester.orderIntake].filter slot.mayPresent = [] ∧ slot.path.queue ≠ [])
    ∧ ((blocking 40991 send).readHeld .sendQueue = true ∧ (blocking 40992 send).readHeld .sendQueue = false
      ∧ [Requester.sendQueue].filter (blocking 40991 send).mayPresent = [])
    ∧ ((blocking 42547 load).readHeld .meter = true ∧ (blocking 42548 load).readHeld .meter = false
      ∧ [Requester.meter].filter (blocking 42547 load).mayPresent = [])
    ∧ ((blocking 0x14F (reading [])).readHeld .memoryPath = true
      ∧ (blocking 0x150 (reading [])).readHeld .memoryPath = false)
    ∧ ({ ready with path := { ready.path with bus := .heldRead 0 4 } } : State).path.bus ≠ .free := by decide +kernel

/-- The urgency of an answerer's stream at its mark; marks among the bytes do not count. -/
theorem test_answerer_is_urgent_above_768 :
    let s (n : Nat) : LineUnit := { ready.unit .lu1 with
      role := some .answerer, rxFifo := .gap :: List.replicate n (.byte 0) ++ [.dataEnd] }
    (s 768).urgent = false ∧ (s 769).urgent = true := by decide +kernel

theorem witness_FinishedTakeWritesItsResult :
    let s := taking .keep [7]
    let p := { s with path := { s.path with posted := [1] } }
    let w : PendingWrite := { blk := .meter, addr := 40960, bytes := bytes [1], clears := none }
    let q (n : Nat) : State := { s with path := { s.path with queue := List.replicate n w } }
    s.settings.controlBase % 4096 = 0 ∧ s.intake.expected < 32 ∧ s.path.waiting = []
    ∧ 16 - (q 14).path.queue.length < 3 ∧ 3 ≤ 16 - (q 13).path.queue.length
    ∧ (s.intake.expected + 1) % 32 ∉ s.path.posted ∧ (p.intake.expected + 1) % 32 ∈ p.path.posted := by decide

theorem witness_OrdersActAtTheirTake :
    let s := taking .keep [7]
    let u := { s with mem := Memory.writeBytes [] 4096 [0xEE] }
    (u.takeReady = true ∧ unknownKind u.slotKind = true) ∧ unknownKind s.slotKind = false ∧ ready.takeReady = false
    ∧ s.takes .scan = false := by decide

theorem witness_DocumentOrdersFollowTheirTables :
    let d := docOf []
    let at_ (k : OrderKind) (b : List Nat) (r : Doc) : State := withDoc r (taking k b)
    let e (st : PrintEntryState) : PrintEntry :=
      { document := 7, priority := .ordinary, arrival := 1, copiesLeft := 1, copiesPrinted := 0, state := st,
        pageIndex := 0, stopRequested := false, ejected := 0 }
    let p (st : PrintEntryState) (x : SheetState) : State := { ready with print := { ready.print with
      entries := [(63, e st)], sheet := x } }
    ((taking .keep [255]).takes .keep = true ∧ (taking .keep [255]).doc ((taking .keep [255]).body 0 1) = none)
    ∧ ((at_ .keep [7] d).takes .keep = true ∧ (at_ .keep [7] d).doc ((at_ .keep [7] d).body 0 1) = some d
      ∧ d.deletePending = false ∧ d.keep = false)
    ∧ ((at_ .release [7] { d with keep := true }).takes .release = true
      ∧ d.state = .closed ∧ d.sendRefs = 0 ∧ d.printRefs = 0)
    ∧ (at_ .release [7] { d with keep := true, sendRefs := 1 }).takes .release = true
    ∧ ((at_ .closeDocument [7] { d with state := .opened }).takes .closeDocument = true)
    ∧ ((at_ .closeDocument [7] { d with state := .opened, attached := true }).takes .closeDocument = true)
    ∧ ((at_ .deleteDocument [7, 0] { d with sendRefs := 1 }).takes .deleteDocument = true
      ∧ (at_ .deleteDocument [7, 0] { d with sendRefs := 1 }).body 1 1 = 0)
    ∧ ((at_ .deleteDocument [7, 255] { d with printRefs := 1 }).body 1 1 ≠ 0)
    ∧ (at_ .deleteDocument [7, 0] d).doc 7 = some d
    ∧ ((p .waiting .noSheet).printEntry 63 = some (e .waiting) ∧ (e .waiting).stopRequested = false)
    ∧ ((p .printing .sheetStarted).printEntry 63 = some (e .printing)
      ∧ (p .printing .sheetStarted).print.sheet = .sheetStarted ∧ (p .printing .feedingOut).print.sheet = .feedingOut)
    ∧ ({ e .printing with stopRequested := true }).stopRequested = true := by decide

theorem witness_DocumentClosesAndIsFreed :
    (withPage ready).doc 7 = some (docOf [0]) ∧ (docOf [0]).freeable = true ∧ { docOf [0] with keep := true }.freeable = false
    ∧ (withPage ready).print.entries = [] ∧ (withPage ready).print.current = none
    ∧ (withPage ready).page 0 = some (pageOf 7 0 0 0) ∧ (withPage ready).store.chain (pageOf 7 0 0 0) = [0]
    ∧ (let e (d n : Nat) (st : PrintEntryState) : PrintEntry :=
        { document := d, priority := .ordinary, arrival := n, copiesLeft := 2, copiesPrinted := 0, state := st,
          pageIndex := 0, stopRequested := false, ejected := 0 }
      let s : State := { withDoc { docOf [] with state := .opened, printRefs := 2 } ready with
        print := { ready.print with entries := [(0, e 7 1 .printing), (3, e 7 2 .waiting), (5, e 8 3 .waiting)], current := some 0 } }
      (s.doc 7).map (fun r => r.pages) = some []
        ∧ (s.print.entries.filter (fun x => x.2.document = 7 ∧ x.2.state = .waiting ∧ x.2.pageIndex = 0)).map
          (fun x => x.1) = [3]) := by decide

theorem witness_PageOpensWithItsFirstBlock :
    let d (n : Nat) : Doc := { docOf (List.replicate n 0) with state := .opened }
    let s := withDoc (d 0) ready
    let f := { withPage ready with store := { (withPage ready).store with
      docs := [(7, d 1)], pages := [(0, { pageOf 7 0 0 0 with state := .filling })] } }
    s.doc 7 = some (d 0) ∧ (d 250).pages.length = 250 ∧ (d 249).pages.length < 250 ∧ (d 0).state = .opened
    ∧ (docOf []).state = .closed ∧ f.fillingPage 7 = some 0 ∧ s.fillingPage 7 = none
    ∧ lowestFree 1024 s.store.pages = some 0 ∧ s.store.free = 0 :: [1, 2, 3]
    ∧ lowestFree 2 [(0, d 0), (1, d 0)] = none := by decide +kernel

theorem witness_ScanOpensASession :
    let s (b : List Nat) : State := { taking .scan b with scanner := Scanner.resetWith true false [] }
    let o := s [15, 2, 1, 2, 9]
    (s [16, 2, 1, 2, 9]).takes .scan = true ∧ 15 < (s [16, 2, 1, 2, 9]).body 0 1
    ∧ widthOf ((s [0, 0, 1, 2]).body 1 1) = none
    ∧ (o.takes .scan = true ∧ o.body 0 1 = 15 ∧ widthOf (o.body 1 1) = some .standard
      ∧ resolutionOf (o.body 2 1) = some .normal ∧ scanTargetOf (o.body 3 1) = some .copy
      ∧ o.scanner.state = .idle ∧ o.scanner.jam = false ∧ o.scanner.sheetPresent = true
      ∧ lowestFree 1024 o.store.pages ≠ none ∧ lowestFree 256 o.store.docs = some 0)
    ∧ (taking .scan [15, 2, 1, 2, 9]).scanner.sheetPresent = false := by decide +kernel

theorem witness_OpenWindowPageFollowsItsTable :
    let b (d0 d1 desk : Nat) : List Nat := [0, 0, d0, d1, desk, 1, 1, 1, 1, 0, 0, 0]
    let s := taking .openWindowPage (b 255 255 15)
    let o := { taking .openWindowPage (b 7 0 0) with path := (windowed .fixed Slot.clear).path }
    let i := withDoc { docOf [] with state := .opened } { o with path := { o.path with win :=
      ⟨{ o.path.win.w0 with state := .idle }, Window.reset⟩ } }
    (taking .openWindowPage [2]).namedWindow 2 = none
    ∧ (s.takes .openWindowPage = true ∧ s.namedWindow (s.body 0 1) = some .w0
      ∧ s.windowOrder.map (fun x => (x.document, x.desk)) = some (0xFFFF, 15) ∧ (s.window .w0).state = .idle
      ∧ (s.window .w0).sealPending = false ∧ (s.window .w0).document = none
      ∧ (s.openDoc .window 15 none).map (fun x => x.1) = some 0)
    ∧ (taking .openWindowPage (b 255 255 16)).windowOrder = none
    ∧ ¬ (o.window .w0).state = .idle
    ∧ (i.takes .openWindowPage = true ∧ (i.window .w0).document = some 7
      ∧ i.windowOrder.map (fun x => x.document) = some 7) := by decide

/-- The fields of an order at the top of their ranges, and the first mode, width class and resolution out of theirs. -/
theorem witness_WindowOrderIsRead :
    let b (m w v : Nat) : List Nat := [0, 0, 7, 1, 15, 251, m, w, v, 0, 0, 0x20]
    (taking .openWindowPage (b 2 3 2)).windowOrder = some
      { document := 263, desk := 15, pages := 250, mode := .indexed, width := .broad, resolution := .fine, lines := 8191 }
    ∧ (taking .openWindowPage (b 3 1 1)).windowOrder = none ∧ (taking .openWindowPage (b 1 4 1)).windowOrder = none
    ∧ (taking .openWindowPage (b 1 1 3)).windowOrder = none
    ∧ (ready.namedWindow 0 = some .w0 ∧ ready.namedWindow 1 = none
      ∧ ready.path.regions.countP (fun x => decide (x.2.treatment = .raster)) = 1) := by decide

theorem witness_CloseWindowPageHandsItsLine :
    let s (c : Slot) : State := { taking .closeWindowPage [0] with path := (windowed .fixed c).path }
    let f := s { state := .filling, bytes := [1], marks := [] }
    (taking .closeWindowPage [2]).namedWindow ((taking .closeWindowPage [2]).body 0 1) = none
    ∧ (f.takes .closeWindowPage = true ∧ f.namedWindow (f.body 0 1) = some .w0 ∧ (f.window .w0).state = .opened
      ∧ ((f.window .w0).slot .a).state = .filling ∧ ((f.window .w0).slot .b).state = .empty)
    ∧ (((s Slot.clear).window .w0).slot .a).state = .empty
    ∧ ((taking .closeWindowPage [0]).takes .closeWindowPage = true
      ∧ ((taking .closeWindowPage [0]).window .w0).state = .idle) := by decide

/-- An INDEXED window closed with a line begun in both slots, with one only in the slot out of turn, and with one line
left: the slots handed, in their order. -/
theorem witness_CloseWindowPageHandsInTurn :
    let c (st : SlotState) : Slot := { state := st, bytes := if st = .empty then [] else List.replicate 128 1, marks := [] }
    let s (a b : SlotState) (n : Nat) : State := { taking .closeWindowPage [0] with path := { (windowed .indexed (c a)).path with
      win := ⟨{ (windowed .indexed (c a)).window .w0 with slotB := c b, linesExpected := n, linesRemaining := n },
        Window.reset⟩ } }
    let handed (t : State) : List Nat × Nat :=
      ((after .closeWindowPage t).coder.win.w0.queue, ((after .closeWindowPage t).window .w0).linesHanded)
    ((s .filling .filling 0).takes .closeWindowPage = true ∧ ((s .filling .filling 0).window .w0).state = .opened
      ∧ ((s .filling .filling 0).window .w0).next = .a)
    ∧ handed (s .filling .filling 0) = ([0, 1], 2) ∧ handed (s .complete .filling 2) = ([0, 1], 2)
    ∧ handed (s .empty .complete 0) = ([1], 1) ∧ handed (s .coding .complete 0) = ([1], 1)
    ∧ handed (s .filling .complete 1) = ([0], 1) := by decide +kernel

theorem witness_PrintOrdersFollowTheirTables :
    let p := withPage (taking .print [7, 9, 2])
    let e : PrintEntry :=
      { document := 7, priority := .ordinary, arrival := 1, copiesLeft := 1, copiesPrinted := 0, state := .printing,
        pageIndex := 0, stopRequested := false, ejected := 0 }
    let c (x : SheetState) : State := { withPage (taking .cancelPrint [63]) with print := { ready.print with
      entries := [(63, e)], current := some 63, sheet := x, state := .printing } }
    (p.takes .print = true ∧ printPriorityOf (p.body 2 1) = some .ordinary ∧ p.doc (p.body 0 1) = some (docOf [0])
      ∧ lowestFree 64 p.print.entries = some 0 ∧ (docOf [0]).pages ≠ [])
    ∧ printPriorityOf ((taking .print [7, 9, 3]).body 2 1) = none
    ∧ ((c .sheetStarted).takes .cancelPrint = true ∧ (c .sheetStarted).body 0 1 = 63
      ∧ (c .sheetStarted).printEntry 63 = some e ∧ e.stopRequested = false ∧ (c .sheetStarted).print.sheet = .sheetStarted)
    ∧ (c .lineInFlight).print.sheet = .lineInFlight ∧ (c .noSheet).print.sheet = .noSheet
    ∧ (taking .cancelPrint [0]).printEntry 0 = none := by decide

/-- A destination entry of document 7 and desk 0. -/
def entryOf (st : EntryState) (n : Nat) : DestEntry :=
  { orderSeq := 5, document := 7, desk := 0, priority := .routine, number := [0x35], zone := none, state := st,
    attempts := 0, maxAttempts := 3, retryInterval := 1, readyTime := 0, countdown := n, nextAttempt := Stamp.zero,
    lastResult := none, confirmed := 0, unit := none, chargeTotal := 0, attemptCharge := 0, heldReported := false,
    cancelPending := false }

/-- A state with entries 0 and on as given. -/
def withEntries (es : List DestEntry) (s : State) : State :=
  { s with sendq := { s.sendq with entries := (List.range es.length).zip es } }

theorem witness_SendMakesItsEntries :
    let b (desk n : Nat) : List Nat := [7, desk, 3, 3, 1, 0, 0, 0, 0, 0xA0, 0, 0, n, 0]
    let s := { withPage (taking .send (b 15 1)) with
      mem := (taking .send (b 15 1)).mem.writeBytes 40960 (bytes [1, 0x35]) }
    (s.takes .send = true ∧ s.body 1 1 = 15 ∧ s.body 12 2 = 1 ∧ priorityOf (s.body 2 1) = some .routine
      ∧ s.body 8 4 + 32 ≤ memBytes s.memSize ∧ s.doc (s.body 0 1) = some (docOf [0]) ∧ (docOf [0]).state = .closed
      ∧ (docOf [0]).deletePending = false ∧ 1 ≤ 512 - s.sendq.entries.length + s.sendq.finals.length
      ∧ s.destinations 40960 1 = some [[0x35]])
    ∧ ((blocking 40991 s).path.blocked (s.body 8 4) (32 * 1) = true ∧ (blocking 40992 s).path.blocked 40960 32 = false)
    ∧ (15 < (taking .send (b 16 1)).body 1 1) ∧ ((taking .send (b 0 0)).body 12 2 = 0)
    ∧ (taking .send (b 15 1)).destinations 40960 1 = none ∧ (taking .send (b 15 1)).doc 7 = none := by decide +kernel

theorem witness_EntryIsMadeFromItsRecord :
    let o : SendOrder :=
      { document := 7, desk := 0, priority := .routine, maxAttempts := 3, retryInterval := 1, embargo := 0, orderSeq := 5 }
    lowestFree 512 ready.sendq.entries = some 0 ∧ o.embargo = 0 ∧ { o with embargo := 1 }.embargo ≠ 0
    ∧ lowestFree 1 (withEntries [entryOf .done 0] ready).sendq.entries = none := by decide

theorem witness_CancelReachesItsEntries :
    let c (b : List Nat) (st : EntryState) : State := withEntries [{ entryOf st 0 with unit := some .lu1 }] (taking .cancel b)
    let one := c [1, 0, 0, 0] .waiting
    let two := c [2, 0, 0, 0, 5, 0, 0, 0] .ready
    let act := c [1, 0, 0, 0] .active
    (one.takes .cancel = true ∧ one.body 0 1 = 1
      ∧ one.entry (one.body 2 2) = some { entryOf .waiting 0 with unit := some .lu1 })
    ∧ (act.takes .cancel = true ∧ act.entry 0 = some { entryOf .active 0 with unit := some .lu1 })
    ∧ (c [1, 0, 1, 0] .waiting).entry ((c [1, 0, 1, 0] .waiting).body 2 2) = none
    ∧ (two.body 0 1 = 2 ∧ two.entryIds (fun e => decide (e.orderSeq = BitVec.ofNat 32 (two.body 4 4))) = [0])
    ∧ (c [3] .ready).body 0 1 ≠ 1 ∧ (c [3] .ready).body 0 1 ≠ 2 ∧ (entryOf .failed 0).state.final = true := by decide

theorem witness_ArbiterHandsOverTheFirstEntry :
    let send (s : State) : State := withUnit (fun l => { l with mode := .send, state := .idle }) s
    let es (a b : EntryState) : List DestEntry := [entryOf a 0, { entryOf b 0 with priority := .flash }]
    let s := send (withEntries (es .ready .ready) ready)
    let priced (w : Bool) (n : Word) (d : Nat) : State :=
      let t := send (withEntries [{ entryOf .ready 0 with desk := d }] ready)
      { t with meter := { t.meter with
        tariff := { Tariff.empty with zones := [(0, { digits := [], setup := 1, len := ⟨1, 1, 1⟩, price := ⟨0, 0, 0⟩ })] }, warning := w, producer := n } }
    (s.sendq.entries.map (fun x => x.1)).Pairwise (fun i j => i < j) ∧ s.readyOrder = [1, 0]
    ∧ s.part = .running ∧ s.intake.restart = none ∧ State.reset.part ≠ .running
    ∧ ((s.unit .lu1).state = .idle ∧ (s.unit .lu1).mode = .send ∧ s.sendq.keepForReceive = 0 ∧ s.meterWaits = false)
    ∧ (s.unit .lu0).state ≠ .idle ∧ (stall .meter s).meterWaits = true
    ∧ s.entry 1 = some { entryOf .ready 0 with priority := .flash }
    ∧ (∀ x ∈ s.sendq.entries, ¬ (x.2.state = .active ∧ x.2.number = [0x35]))
    ∧ (∃ x ∈ (withEntries (es .active .ready) ready).sendq.entries, x.2.state = .active ∧ x.2.number = [0x35])
    ∧ (s.meter.tariff.lookup [0x35]).2.priced = false
    ∧ ((priced true 0 0).meter.tariff.lookup [0x35]).2.priced = true
    ∧ (priced true 0 0).desk 0 = some deskNew ∧ deskNew.state = .opened ∧ (priced true 0 0).meter.warning = true
    ∧ (priced false 128 0).meter.logSize ≤ ((priced false 128 0).meter.producer - (priced false 128 0).meter.consumer).toNat
    ∧ ((priced false 127 0).meter.producer - (priced false 127 0).meter.consumer).toNat < (priced false 127 0).meter.logSize
    ∧ ((priced false 0 3).desk 3).map (fun k => k.state) = some .audit ∧ (entryOf .ready 0).heldReported = false := by
  decide

theorem witness_CountdownExpiryMakesAnEntryReady :
    let s := withEntries [entryOf .waiting 1, entryOf .retryWait 0] ready
    s.sendq.entries = [(0, entryOf .waiting 1)] ++ (1, entryOf .retryWait 0) :: []
    ∧ (entryOf .retryWait 0).state = .retryWait ∧ (entryOf .retryWait 0).countdown = 0
    ∧ (entryOf .waiting 1).countdown ≠ 0 ∧ ready.sendq.entries = [] := by decide

/-- A screen entry for station "W". -/
def screenOf (k : ScreenKind) (touched : Bool) : ScreenEntry :=
  { keyKind := .station, key := [0x57], kind := k, desk := 0, copies := 0, flash := false, budget := 2, budgetLeft := 1,
    touched := touched, calls := 0, lastCall := none }

/-- A state with screen entries 0 and on as given. -/
def withScreen (es : List ScreenEntry) (s : State) : State :=
  { s with screen := { s.screen with entries := (List.range es.length).zip es } }

theorem witness_ScreenOrdersEditTheTable :
    let b : List Nat := [2, 1, 15, 3, 1, 2, 1, 0x57]
    let a := taking .screenAdd b
    let p := withScreen [screenOf .deny false] a
    let r := withScreen [screenOf .learned false] (taking .screenRemove [2, 1, 0x57])
    let m (x y : Nat) : State := taking .screenMode [x, y]
    (a.takes .screenAdd = true ∧ keyKindOf (a.body 0 1) = some .station ∧ screenKindOf (a.body 1 1) = some .allow
      ∧ a.body 2 1 = 15 ∧ screenKey .station (a.bodyBytes 6 21) = some [0x57]
      ∧ findKey .station [0x57] a.screen.entries = none ∧ lowestFree 256 a.screen.entries = some 0)
    ∧ findKey .station [0x57] p.screen.entries = some (0, screenOf .deny false)
    ∧ 15 < (taking .screenAdd [2, 1, 16]).body 2 1
    ∧ (r.takes .screenRemove = true ∧ readText 21 (r.bodyBytes 1 21) = some [0x57]
      ∧ findKey .station [0x57] r.screen.entries = some (0, screenOf .learned false))
    ∧ ((taking .screenClear [1]).takes .screenClear = true ∧ (taking .screenClear [1]).body 0 1 = 1)
    ∧ (taking .screenClear [2]).body 0 1 = 2 ∧ (taking .screenClear [3]).body 0 1 = 3
    ∧ ((m 1 255).takes .screenMode = true ∧ screenModeOf ((m 1 255).body 0 1) = some (m 1 255).screen.mode
      ∧ learnFlags (m 1 255).screen.learn (byteOf ((m 1 255).body 1 1)) = (m 1 255).screen.learn)
    ∧ (screenModeOf ((m 3 1).body 0 1) = some .listedOnly
      ∧ learnFlags (m 3 1).screen.learn (byteOf ((m 3 1).body 1 1)) ≠ (m 3 1).screen.learn)
    ∧ ((taking .sweep []).takes .sweep = true ∧ (taking .sweep []).screen.sweep = none) := by decide

theorem witness_ScreenTimersPaceAndAge :
    let s (n : Nat) (k : ScreenKind) (t : Bool) : State := { ready with screen := { ready.screen with
      entries := [(n, screenOf k t)], pacing := some 0, age := some 0,
      sweep := some { cursor := n, source := .timer, removed := 0 } } }
    (s 0 .learned false).screen.pacing = some 0 ∧ (s 0 .learned false).screen.age = some 0
    ∧ ready.screen.pacing ≠ some 0 ∧ ready.screen.age ≠ some 0 ∧ ready.screen.sweep = none
    ∧ (∀ n ∈ [0, 254, 255], tget (s n .learned false).screen.entries n = some (screenOf .learned false)
      ∧ (screenOf .learned false).kind = .learned ∧ (screenOf .learned false).touched = false)
    ∧ (∀ n ∈ [0, 254, 255], tget (s n .allow true).screen.entries n = some (screenOf .allow true)) := by decide

theorem witness_ClockIsSetAndSteps :
    let c (b : List Nat) : State := taking .setClock b
    ((c [6, 0, 0, 0, 0xFF, 0xA2, 2, 0]).takes .setClock = true ∧ (c [6, 0, 0, 0, 0xFF, 0xA2, 2, 0]).body 0 1 = 6
      ∧ (c [6, 0, 0, 0, 0xFF, 0xA2, 2, 0]).body 4 4 = 172799)
    ∧ 6 < (c [7]).body 0 1 ∧ (c [6, 0, 0, 0, 0, 0xA3, 2, 0]).body 4 4 = 172800
    ∧ (ready.meter.recs.get .lu0 = none ∧ ready.meter.recs.get .lu1 = none ∧ ready.meter.recs.get .lu2 = none
      ∧ ready.meter.recs.get .lu3 = none)
    ∧ ready.sendq.entries = [] ∧ ready.screen.pacing ≠ some 0 ∧ ready.screen.age ≠ some 0
    ∧ (let r : MeterRec :=
        { zoneIndex := 0, zone := { digits := [], setup := 0, len := ⟨1, 1, 1⟩, price := ⟨0, 0, 0⟩ }, desk := 0, entry := 0,
          orderSeq := 5, number := [0x35], answer := Stamp.zero, elapsed := 0, nextStart := 1, units := ⟨1, 0, 0⟩,
          charge := 0, due := [.peak] }
      let s : State := { ready with meter := { ready.meter with recs := ⟨none, some r, none, none⟩ } }
      s.meter.recs.get .lu1 = some r ∧ r.elapsed + 1 = r.nextStart ∧ s.meter.recs.get .lu0 = none) := by decide

/-- A tariff area at 40960: no zone but zone 0, no weekend day, and PEAK in every hour. -/
def tariffArea : Memory := Memory.writeBytes [] (40960 + 1540) (bytes (List.replicate 48 1))

theorem witness_LoadTariffReplacesTheTariff :
    let s (m : Memory) (b : List Nat) : State :=
      { taking .loadTariff b with mem := (m.writeBytes 4096 [byteOf (orderCode .loadTariff)]).writeBytes 4128 (bytes b) }
    let g := s tariffArea [0, 0xA0, 0, 0]
    (g.takes .loadTariff = true ∧ g.body 0 4 + 1588 ≤ memBytes g.memSize
      ∧ (match readTariff (g.readThrough (g.body 0 4) 1588) with
        | .inr (_, n) => n
        | .inl _ => 0) = 192)
    ∧ readTariff ((s [] [0, 0xA0, 0, 0]).readThrough 40960 1588) = .inl 64
    ∧ ((blocking 42547 g).path.blocked 40960 1588 = true ∧ (blocking 42548 g).path.blocked 40960 1588 = false)
    ∧ memBytes g.memSize < (s [] [0xCD, 0xF9, 0xFF, 0]).body 0 4 + 1588 := by decide +kernel

/-- The checks of an area at their boundaries: a prefix of 8 digits and one of 9, a pause mark in a prefix, a prefix of
zone 0, the second record of two with one prefix, a band byte of 4, and a length clamped at either end. -/
theorem witness_TariffAreaIsChecked :
    let area (z : List (Nat × List Nat)) (m : Nat) : List Byte :=
      z.foldl (fun a x => a.take (24 * x.1) ++ bytes x.2 ++ a.drop (24 * x.1 + x.2.length))
        (List.replicate 1540 0 ++ bytes (List.replicate 47 1) ++ [byteOf m])
    let refusal (a : List Byte) : Option Nat := match readTariff a with
      | .inl i => some i
      | .inr _ => none
    let found (a : List Byte) : Option (List (Nat × Zone) × Nat) := match readTariff a with
      | .inl _ => none
      | .inr (t, n) => some (t.zones, n)
    let d (n : Nat) : List Nat := n :: (List.range (min 8 n)).map (fun i => 0x30 + i)
    let used (z : List Nat) : List (Nat × List Nat) := (List.range 64).map (fun i => (i, if i = 63 then z else [0, 0, 0, 0, 0, 0, 0, 0, 0, 0, 0, 0, 1, 0, 0, 0, 1, 0, 0, 0, 0x20, 0x1C]))
    (area [] 1).length = 1588 ∧ refusal (area [] 3) = none ∧ refusal (area [] 4) = some 64
    ∧ refusal (area [(63, d 8)] 1) = none ∧ refusal (area [(63, d 9)] 1) = some 63
    ∧ refusal (area [(5, [1, 0x2C])] 1) = some 5 ∧ refusal (area [(0, d 1)] 1) = some 0
    ∧ refusal (area [(5, d 2), (9, d 2)] 4) = some 9
    ∧ found (area (used [1, 0x35, 0, 0, 0, 0, 0, 0, 0, 0, 7, 0, 0, 0, 2, 0, 1, 0, 3, 0, 0x21, 0x1C, 4, 0]) 1) = some
      ([(0, { digits := [], setup := 0, len := ⟨1, 1, 7200⟩, price := ⟨0, 0, 0⟩ }),
        (63, { digits := [0x35], setup := 7, len := ⟨1, 1, 7200⟩, price := ⟨2, 3, 4⟩ })], 2) := by decide +kernel

/-- The zone of a number: the longer of two prefixes that begin it, a pause mark not counting, and zone 0 for a number
that begins with no digit. -/
theorem witness_ZoneOfANumber :
    let z (ds : List Nat) : Zone :=
      { digits := bytes ds, setup := ds.length, len := ⟨7200, 7200, 7200⟩, price := ⟨0, 0, 0⟩ }
    let t : Tariff := { Tariff.empty with zones := [(0, z []), (3, z [0x35]), (9, z [0x35, 0x36]), (11, z [0x36])] }
    tget t.zones 0 = some (z []) ∧ (z []).digits = []
    ∧ t.lookup (bytes [0x35, 0x2C, 0x36, 0x37]) = (9, z [0x35, 0x36]) ∧ t.lookup (bytes [0x35, 0x37]) = (3, z [0x35])
    ∧ t.lookup (bytes [0x2A, 0x35]) = (0, z []) ∧ (z [0x35]).priced = true ∧ (z []).priced = false := by decide

theorem witness_DeskOrdersChangeTheirDesk :
    ((taking .setDesk [15]).takes .setDesk = true ∧ (taking .setDesk [15]).body 0 1 = 15)
    ∧ 15 < (taking .setDesk [16]).body 0 1
    ∧ ((taking .closePeriod [15]).takes .closePeriod = true ∧ (taking .closePeriod [15]).body 0 1 ≤ 15)
    ∧ (taking .closePeriod [255]).body 0 1 = 255
    ∧ (16 ≤ (taking .closePeriod [254]).body 0 1 ∧ (taking .closePeriod [254]).body 0 1 ≠ 255)
    ∧ ((taking .flushMeter [15]).takes .flushMeter = true ∧ (taking .flushMeter [15]).body 0 1 ≤ 15)
    ∧ (taking .flushMeter [255]).body 0 1 = 255 ∧ (taking .flushMeter [16]).body 0 1 = 16
    ∧ ((taking .auditClear [3, 0, 0, 0, 255, 255, 255, 0, 255, 255, 255, 255, 255]).takes .auditClear = true
      ∧ (taking .auditClear [3, 0, 0, 0, 255, 255, 255, 0, 255, 255, 255, 255, 255]).body 4 4 = 2 ^ 24 - 1
      ∧ (taking .auditClear [3, 0, 0, 0, 255, 255, 255, 0, 255, 255, 255, 255, 255]).body 8 8 = 2 ^ 40 - 1
      ∧ ((taking .auditClear [3]).desk 3).map (fun k => k.state) = some .audit)
    ∧ (taking .auditClear [0, 0, 0, 0, 0, 0, 0, 1]).body 4 4 = 2 ^ 24
    ∧ ((taking .auditClear [0]).desk 0).map (fun k => k.state) = some .opened := by decide +kernel

theorem witness_DeskStateFollowsItsTotals :
    ready.desk 0 = some deskNew ∧ deskNew.derived = deskNew.state
    ∧ (let k := { deskNew with ceiling := 100, spent := 100 }
      ({ ready with meter := { ready.meter with desks := [(0, k)] } } : State).desk 0 = some k ∧ k.derived = .held
        ∧ k.derived ≠ k.state)
    ∧ { deskNew with state := .held }.derived = .opened ∧ { deskNew with ceiling := 100, spent := 99 }.derived = .opened := by
  decide

theorem witness_BandIsReadFromTheMap :
    Tariff.empty.weekdayRow.length = 24 ∧ Tariff.empty.weekendRow.length = 24
    ∧ (⟨6, 172799, false⟩ : Stamp).day < 7 ∧ (⟨6, 172799, false⟩ : Stamp).half < 172800
    ∧ { Tariff.empty with weekend := 0x40 }.weekend.getLsbD 6 = true ∧ Tariff.empty.weekend.getLsbD 0 = false
    ∧ (⟨0, 0, true⟩ : Stamp).unset = true := by decide

theorem witness_LineModeFollowsItsTable :
    let s (st : CallState) (b : List Nat) : State :=
      withUnit (fun l => { l with mode := .send, state := st }) (taking .lineMode b)
    ((s .idle [1, 4]).takes .lineMode = true ∧ unitOf ((s .idle [1, 4]).body 0 1) = some .lu1
      ∧ unitModeOf ((s .idle [1, 4]).body 1 1) = some .both ∧ ((s .idle [1, 4]).unit .lu1).state = .idle
      ∧ ((s .idle [1, 4]).unit .lu1).mode ≠ .both)
    ∧ (unitModeOf ((s .idle [1, 3]).body 1 1) = some .send ∧ ((s .idle [1, 3]).unit .lu1).pendingMode = none)
    ∧ ((s .blocked [1, 1]).unit .lu1).state = .blocked ∧ ((s .dialling [1, 1]).unit .lu1).state = .dialling
    ∧ unitOf ((s .idle [4, 1]).body 0 1) = none ∧ unitModeOf ((s .idle [1, 5]).body 1 1) = none := by decide

theorem witness_DumpWritesHeaderAndRecords :
    let b (k o n : Nat) : List Nat := [k, o, 0, 0, 0, 0xA0, 0, 0, n % 256, n / 256, 0, 0]
    let s := withPage (taking .dump (b 1 0 572))
    let d (k : DumpKind) (c p : Bool) (l : List Nat) : State := { ready with intake := { ready.intake with
      take := .atOwner,
      dump := some { kind := k, clear := c, purge := p, addr := 41000, total := l.length, left := l, written := 0,
                     purged := 0 } } }
    (s.takes .dump = true ∧ dumpKindOf (s.body 0 1) = some .documents ∧ (byteOf (s.body 1 1)).toNat < 4
      ∧ s.body 4 4 + s.body 8 4 ≤ memBytes s.memSize
      ∧ (∀ x ∈ s.keptOut, overlaps (s.body 4 4) (s.body 8 4) x.1 x.2 = false) ∧ 24 ≤ s.body 8 4
      ∧ min (s.dumpSet .documents).length ((s.body 8 4 - 24) / dumpLength .documents) ≠ 0)
    ∧ (taking .dump (b 1 0 23)).body 8 4 < 24 ∧ (taking .dump (b 1 0 24)).body 8 4 = 24
    ∧ dumpKindOf ((taking .dump (b 7 0 24)).body 0 1) = none ∧ ready.intake.dump = none
    ∧ ((d .lineStatistics true false [3]).path.waiting = [] ∧ (d .lineStatistics true false [3]).path.queue.length < 16
      ∧ unitOf 3 = some .lu3)
    ∧ ((withEntries [entryOf .done 0] (d .sendQueue false true [0, 1])).entry 0 = some (entryOf .done 0)
      ∧ (entryOf .done 0).state.final = true)
    ∧ ((d .documents false false []).intake.dump.map (fun x => x.left) = some []
      ∧ min (s.dumpSet .documents).length ((24 - 24) / dumpLength .documents) = 0)
    ∧ ((stall .dump s).stalled .dump = true ∧ (stall .dump (d .documents false false [7])).path.waiting ≠ []) := by decide

theorem witness_RestartStopsAndCompletes :
    let s (q : Quad Bool) (st : CallState) : State := withUnit (fun l => { l with state := st })
      { ready with intake := { ready.intake with take := .atOwner, restart := some q } }
    (taking .restart []).takes .restart = true ∧ ((s (Quad.all false) .idle).unit .lu1).state = .idle
    ∧ ((s (Quad.all false) .ringing).unit .lu1).state = .ringing
    ∧ ((s (Quad.all false) .ringing).unit .lu1).pendingMode = none
    ∧ ((s (Quad.all false) .clearing).unit .lu1).state = .clearing
    ∧ (s (Quad.all true) .idle).intake.restart = some ⟨true, true, true, true⟩
    ∧ (s (Quad.all true) .idle).stalled .orderIntake = false ∧ ready.intake.restart = none
    ∧ (s (Quad.all true) .idle).sendq.reports = []
    ∧ (stall .orderIntake (s (Quad.all true) .idle)).stalled .orderIntake = true
    ∧ Quad.all false ≠ (⟨true, true, true, true⟩ : Quad Bool) := by decide

/-- A RESTART that stops a COPY session with no page yet: the waiting print entry ends with reason RESTART, before its
document closes and is freed. -/
theorem test_restart_empties_the_print_queue_first :
    let e : PrintEntry :=
      { document := 7, priority := .ordinary, arrival := 1, copiesLeft := 1, copiesPrinted := 0, state := .waiting,
        pageIndex := 0, stopRequested := false, ejected := 0 }
    let s : State := { taking .restart [] with
      store := { ready.store with docs := [(7, { docOf [] with state := .opened, printRefs := 1, attached := true })] },
      scanner := { ready.scanner with state := .feeding, before := .feeding, document := some 7 },
      print := { ready.print with entries := [(0, e)], arrivals := 1 } }
    (after .restart s).reporter.postings.map (fun x => x.event) =
      [.printDone 0 7 .restart 0 0, .docClosed 7 .scan 0 true false 0, .docFreed 7 0 0,
        .scanState .idle .restart (some 7) 0 0 0 0 0] := by decide +kernel

/-- A window to be stopped: OPEN, with its seal pending, and with a write that it holds; and one at rest. -/
theorem witness_RestartStopsWindows :
    let s := windowed .fixed Slot.clear
    let on (b : HostBus) : State := { s with path := { s.path with bus := b } }
    let b : HostBus := .windowHold .w0 { addr := 32768, lanes := [some 1] } [] false
    (s.window .w0).state ≠ .idle ∧ (s.window .w0).document = some 7 ∧ (s.window .w1).state = .idle
    ∧ (s.window .w1).sealPending = false ∧ { s.window .w1 with sealPending := true }.sealPending = true
    ∧ s.path.bus = .free ∧ (on b).path.bus = b := by decide

theorem witness_EventIsWrittenOrMissed :
    let s (e : Event) (c : Word) : State := { ready with
      reporter := { ready.reporter with consumer := c, postings := [⟨.memoryPath, e⟩] },
      path := { ready.path with guards := [] } }
    ((s (.power true) 0xFFFFFF01).reporter.postings = ⟨.memoryPath, .power true⟩ :: []
      ∧ (s (.power true) 0xFFFFFF01).part = .running ∧ (s (.power true) 0xFFFFFF01).stalled .eventReporter = false
      ∧ (s (.power true) 0xFFFFFF01).reporter.missed ≤ 65535
      ∧ ((s (.power true) 0xFFFFFF01).reporter.producer - (s (.power true) 0xFFFFFF01).reporter.consumer).toNat = 255)
    ∧ ((s (.power true) 0xFFFFFF00).reporter.producer - (s (.power true) 0xFFFFFF00).reporter.consumer).toNat = 256
    ∧ (s (.guardHit .pool 65536) 0).reporter.postings = ⟨.memoryPath, .guardHit .pool 65536⟩ :: []
    ∧ (stall .eventReporter ready).stalled .eventReporter = true
    ∧ ready.reporter.postings = []
    ∧ (let told : TakeEnd := { kind := 5, result := .accepted, seq := 1, values := [] }
      let f := { ready with intake := { ready.intake with take := .finishing, finish := some told } }
      f.untimely (.orderDone 0 5 .accepted 1 []) = true ∧ f.untimely (.orderDone 31 5 .accepted 1 []) = false
        ∧ f.untimely (.power true) = false ∧ ready.untimely (.orderDone 0 5 .accepted 1 []) = false) := by decide

/-- Table 12-6: DEST_HELD carries its entry and desk in bytes 1 to 3, and its desk's state, zone and order sequence from
byte 12 on; AUDIT is the third desk state of Table 11-5. -/
theorem test_event_record_layout :
    (Event.destHeld 0x1FF 15 .audit 63 0x04030201).record 7 ⟨0, 9, false⟩
      = bytes ([14, 0xFF, 1, 15, 7, 0, 0, 0, 9, 0, 0, 0, 3, 63, 1, 2, 3, 4] ++ List.replicate 14 0) := by decide

/-- Page 0 of document 7, STANDARD, under a scan session, with a white line in buffer line 0. -/
def scanning (q : List Nat) (lines coded : Nat) (free : List Nat) : State := { ready with
  store := { ready.store with
    docs := [(7, { docOf [0] with state := .opened, attached := true })],
    pages := [(0, { pageOf 7 0 0 lines with state := .filling, coded := coded })], free := free },
  scanner := { ready.scanner with buffer := [.held (List.replicate 1728 false), .empty, .empty, .empty] },
  coder := { ready.coder with scan := { Source.reset with
    page := some 0, document := 7, width := .standard, queue := q, endSignal := decide (q = []) } } }

/-- The answer of a page open, where it is a refusal. -/
def refusal (s : State) : Option OpenRefusal :=
  match s.openPage 7 .standard .normal with
  | .refused r => some r
  | .opened _ _ => none

theorem witness_CoderStoresLinesAndSeals :
    let s (q : List Nat) (coded : Nat) (free : List Nat) : State := scanning q 0 coded free
    ((s [0] 0 [1]).pickSource = some .scan ∧ (s [0] 0 [1]).part = .running ∧ (s [0] 0 [1]).stalled .pageCoder = false
      ∧ ((s [0] 0 [1]).source .scan).page = some 0 ∧ ((s [0] 0 [1]).source .scan).held = none
      ∧ ((s [0] 0 [1]).page 0).map (fun r => (r.blocks, r.lines, r.coded)) = some (1, 0, 0)
      ∧ (codeFull 1728 [] (transitions ((s [0] 0 [1]).lineAt .scan 0))).length ≤ 2048)
    ∧ (((s [0] 2048 []).page 0).map (fun r => (r.blocks, r.coded)) = some (1, 2048) ∧ (s [0] 2048 []).store.free = []
      ∧ (s [0] 2048 []).pickSource = some .scan)
    ∧ ((s [] 2046 [1]).pickSource = some .scan ∧ ((s [] 2046 [1]).source .scan).queue = []
      ∧ ((s [] 2046 [1]).page 0).map (fun r => r.coded + 2) = some 2048)
    ∧ ready.pickSource = none
    ∧ (let s (m : WindowId) (n : List Nat) : State := { ready with coder := { ready.coder with
        marker := m, win := ⟨{ Source.reset with page := some 0, endSignal := true },
          { Source.reset with page := some 1, queue := n }⟩ } }
      (s .w0 [0]).pickSource = some (.win .w0) ∧ (s .w1 [0]).pickSource = some (.win .w1)
        ∧ (s .w1 []).pickSource = some (.win .w0))
    ∧ (s [0] 0 [1]).scanner.buffer[0]? = some (.held (List.replicate 1728 false))
    ∧ (let c : Scanner := { ready.scanner with fullPause := true, buffer := [.held [], .held [], .empty, .held []] }
      (c.buffer.set 0 .empty).countP (fun b => decide (b = .empty)) = 2
        ∧ ((c.buffer.set 2 .empty).countP (fun b => decide (b = .empty))) = 1) := by decide +kernel

theorem witness_CoderCrossesBlocksAndContinues :
    let s (q : List Nat) (coded : Nat) (free : List Nat) : State := scanning q 0 coded free
    let held (l : Option (List Nat)) : State := (s [0] 2048 [1]).modSource .scan (fun y =>
      { y with held := some ⟨[0x00], l⟩ })
    (((s [0] 2047 [1]).place .pageCoder 0 [0x0F, 0x00]).1 = [] ∧ ((s [0] 2047 []).place .pageCoder 0 [0x0F, 0x00]).1 = [0x00])
    ∧ ((held (some [])).pickSource = some .scan ∧ ((held none).source .scan).held = some ⟨[0x00], none⟩
      ∧ ((held none).place .pageCoder 0 [0x00]).1 = [])
    ∧ ((s [0] 0 [1]).headFits .scan 0 0 = true ∧ (scanning [0] 8191 0 [1]).headFits .scan 0 0 = false)
    ∧ (((s [0] 0 [1]).modSource .scan (fun y => { y with page := none, continuation := true })).pickSource = some .scan) := by
  decide +kernel

/-- The refusals of a page to a document (R5). -/
theorem test_page_opens_are_refused :
    let opened : Doc := { docOf [] with state := .opened }
    refusal (withDoc { opened with pages := List.replicate 250 0 } ready) = some .docFull
    ∧ refusal (scanning [0] 0 0 [1]) = some .docBusy
    ∧ refusal { ready with store := { ready.store with docs := [(7, opened)], free := [] } } = some .noBlock
    ∧ refusal (withDoc opened ready) = none := by decide +kernel

theorem witness_ScannerPortFollowsItsSession :
    let s (f : Scanner → Scanner) : State := { ready with scanner := f { ready.scanner with
      state := .scanning, before := .scanning, document := some 7, width := .standard, sheetPresent := true } }
    let full := s (fun c => { c with buffer := List.replicate 4 (.held []) })
    ((s id).scanOpen = true ∧ (s id).scanner.hold = false ∧ (s id).scanner.nextEmpty = some 0
      ∧ (s id).scanner.active = true ∧ (s id).scanner.jam = false)
    ∧ full.scanner.nextEmpty = none ∧ (s (fun c => { c with hold := true })).scanOpen = true
    ∧ (s (fun c => { c with state := .feeding })).scanOpen = true ∧ ready.scanOpen = false
    ∧ (s (fun c => { c with state := .jammed })).scanner.sheetPresent = true
    ∧ (s (fun c => { c with hold := true, beginPending := true })).stallRunning = true ∧ ready.stallRunning = false
    ∧ ready.scanner.state = .idle ∧ State.reset.part ≠ .running
    ∧ (s (fun c => { c with state := .jammed, jam := true, sheetPresent := false })).scanner.jam = true
    ∧ ((s id).scanner.document = some 7 ∧ ready.scanner.document = none
      ∧ refusal (withDoc { docOf [] with state := .opened } (s id)) = none ∧ (s (fun c => { c with beginPending := true })).scanner.active = true)
    ∧ ((s (fun c => { c with lastSheet := true })).scanner.lastSheet = true ∧ (s id).scanner.lastSheet = false
      ∧ (s id).scanner.sheetPresent = true) := by decide

/-- The next EMPTY buffer line in turn from line 3 on, and feed pause by each of its causes. -/
theorem test_buffer_turn_and_feed_pause :
    let c : Scanner := { ready.scanner with state := .feeding, buffer := [.held [], .empty, .empty, .held []], nextIn := 3 }
    c.nextEmpty = some 1 ∧ { c with nextIn := 2 }.nextEmpty = some 2 ∧ c.emptyLines = 2 ∧ c.feedPause = false
    ∧ { c with ackPending := true }.feedPause = true ∧ { c with hold := true }.feedPause = true
    ∧ { c with fullPause := true }.feedPause = true ∧ { c with state := .jammed }.feedPause = true := by decide

/-- A transmit recoder at the start of page 0, FULL at 9600 bit/s with 10 ms. -/
def txOf (lines : Nat) (ended begun : Bool) : TxRecoder :=
  { page := some 0, width := .standard, resolution := .normal,
    order := { station := [], rate := .r9600, form := .full, resolution := .normal, width := .standard,
               minLineTime := 10, pagesToCome := 1 },
    minimum := 12, offset := 0, linesLeft := lines, storedRef := [], outRef := [], out := [], fill := 0,
    ended := ended, begun := begun, wire := 0 }

/-- A caller session on document 7 with one page. -/
def callerOf (p : CallerPhase) : CallerSession :=
  { phase := p, document := 7, total := 1, position := 0, confirmed := 0,
    offer := some { station := [], maxRate := .r9600, forms := .full, fine := true, maxWidth := .broad, minLineTime := 10,
                    ready := true },
    ceiling := .r12000, order := some (txOf 0 false false).order, withCheck := true, kind := .last, resends := 0,
    sends := 1, wait := some .reply }

/-- Unit 1 IN SESSION as caller, on a SEALED page of one SAME line. -/
def calling (c : CallerSession) (t : TxRecoder) (q : List Byte) : State :=
  withUnit (fun l => { l with
    mode := .send, state := .inSession, role := some .caller, answered := true, callerSession := some c, tx := t,
    txFifo := q, entry := some 0 })
    { withPage ready with
      store := { (withPage ready).store with pages := [(0, pageOf 7 0 0 1)] }, mem := Memory.writeBytes [] 65536 [1, 15] }

theorem witness_TransmitSideCodesAndSends :
    let s (n : Nat) (e : Bool) (q : List Byte) : State := calling (callerOf .sending) (txOf n e (!q.isEmpty)) q
    (((s 1 false []).unit .lu1).tx = txOf 1 false false ∧ (txOf 1 false false).page ≠ none
      ∧ (s 1 false []).txHeld (txOf 1 false false) = false)
    ∧ ((s 1 false []).txLine (txOf 1 false false)).map (fun x => x.1) = some []
    ∧ (s 0 false []).txLine (txOf 0 false false) = none
    ∧ 1024 ≤ ((s 1 false (List.replicate 1024 0)).unit .lu1).txFifo.length
    ∧ (blocking 65536 (s 1 false [])).txHeld (txOf 1 false false) = true
    ∧ (ready.caller .lu1 = none ∧ (ready.unit .lu1).tx.page = none)
    ∧ ((s 0 true [15, 0]).caller .lu1 = some (callerOf .sending) ∧ ((s 0 true [15, 0]).unit .lu1).txFifo.drop 2 = []
      ∧ ((s 0 true [15, 0]).unit .lu1).txFifo.drop 1 ≠ [])
    ∧ (((s 1 false [1]).unit .lu1).txFifo.drop 1 = [] ∧ (txOf 1 false true).ended = false)
    ∧ (({ txOf 1 false true with out := [1, 15] }).out ≠ [] ∧ ({ txOf 1 false true with fill := 1 }).fill ≠ 0
      ∧ ((s 1 false (List.replicate 1023 0)).unit .lu1).txFifo.length < 1024)
    ∧ ((s 1 false []).page 0 = some (pageOf 7 0 0 1)
      ∧ takeLine 1728 [] ((s 1 false []).streamFrom (pageOf 7 0 0 1) 0) = .good [] 1)
    ∧ (let t (n : Nat) : TxRecoder := { txOf n false true with resolution := .fine }
      let p : PageRec := { pageOf 7 0 0 2 with resolution := .fine, coded := 3 }
      let q : State := { s 2 false [] with
        store := { (s 2 false []).store with pages := [(0, p)] }, mem := Memory.writeBytes [] 65536 [1, 1, 15] }
      (t 2).resolution = .fine ∧ (t 2).order.resolution = .normal ∧ (t 1).linesLeft = 1
        ∧ takeLine 1728 [] (q.streamFrom p 0) = .good [] 1 ∧ takeLine 1728 [] (q.streamFrom p 1) = .good [] 1) := by
  decide +kernel

/-- The table of R36: an all-black line of each width class brought to the others; and two lines merged. -/
theorem test_widths_are_cropped_and_padded :
    fitLine .narrow .standard [0] = [352, 1376] ∧ fitLine .broad .narrow [512, 1535] = [0, 1023]
    ∧ fitLine .standard .broad [0, 1] = [160, 161] ∧ fitLine .broad .standard [159, 161] = [0, 1]
    ∧ mergeLines 1024 [3, 5, 9] [4, 7, 1000, 1001] = [3, 7, 9]
    ∧ (headDots .broad [160, 161]).take 2 = [true, false] := by decide +kernel

/-- An answering session on document 7. -/
def answererOf (p : AnswererPhase) : AnswererSession :=
  { phase := p, document := some 7, order := some (txOf 0 false false).order, asked := none, kind := none, sends := 1,
    wait := some .idleLimit, route := { desk := 0, copies := 0, flash := false }, lastVerdict := none,
    dataTaken := false, report := none }

/-- Unit 1 IN SESSION as answerer, with its receive side as given. -/
def answeringAs (a : AnswererSession) (x : RxRecoder) (q : List RxItem) : State :=
  withUnit (fun l => { l with
    mode := .receive, state := .inSession, role := some .answerer, answerer := some a, rx := x, rxFifo := q }) ready

theorem witness_ReceiveSideDecodesAndStores :
    let x (st : RxState) (l : List Byte) : RxRecoder :=
      { RxRecoder.reset with state := st, width := .standard, ref := [800, 900], line := l }
    let s (l : List Byte) (m : RxItem) : State := answeringAs (answererOf .receiving) (x .active l) [m]
    let full := answeringAs (answererOf .receiving) (x .active []) (List.replicate 1024 (.byte 0))
    ((s [] (.byte 1)).answering .lu1 = some (answererOf .receiving) ∧ ((s [] (.byte 1)).unit .lu1).rx.state = .active
      ∧ (s [] (.byte 1)).stalled (.unit .lu1) = false ∧ fifoBytesHeld ((s [] (.byte 1)).unit .lu1).rxFifo = 1)
    ∧ takeLine 1728 [800, 900] ([] ++ [0x01]) = .good [800, 900] 1 ∧ takeLine 1728 [800, 900] ([] ++ [0x02]) = .more
    ∧ takeLine 1728 [800, 900] ([] ++ [0x00]) = .fill ∧ takeLine 1728 [800, 900] ([0x02] ++ [0x09]) = .bad 2
    ∧ takeLine 1728 [800, 900] ([] ++ [0x0F]) = .endTag
    ∧ fifoBytesHeld (full.unit .lu1).rxFifo = 1024 ∧ ready.answering .lu1 = none ∧ (ready.unit .lu1).rxFifo = []
    ∧ ((s [0x02] .dataEnd).unit .lu1).rx.line ≠ [] ∧ ((s [] .gap).unit .lu1).rxFifo = .gap :: []
    ∧ ((answeringAs (answererOf .verdict) (x .ended []) [.dataEnd]).unit .lu1).rx.state ≠ .active
    ∧ (let near := answeringAs (answererOf .receiving) (x .active []) (List.replicate 1023 (.byte 0))
      fifoBytesHeld (near.unit .lu1).rxFifo < 1024 ∧ 1024 < fifoBytesHeld (near.unit .lu1).rxFifo + [1, 2].length
        ∧ fifoBytesHeld (near.unit .lu1).rxFifo + [1].length = 1024)
    ∧ (let p (lines coded : Nat) : PageRec := { pageOf 7 0 0 lines with state := .filling, coded := coded }
      let t (lines coded : Nat) (free : List Nat) : State :=
        { answeringAs (answererOf .receiving) { x .active [] with page := some 0, document := 7 } [] with store := { ready.store with
          docs := [(7, { docOf [0] with state := .opened })], pages := [(0, p lines coded)], free := free } }
      ((t 0 0 []).unit .lu1).rx.page = some 0 ∧ (t 0 0 []).page 0 = some (p 0 0)
        ∧ (codeFull 1728 [800, 900] [800, 900]).length = 1
        ∧ (p 8190 8388605).lines < 8191 ∧ (p 8190 8388605).coded + 1 + 2 ≤ 8388608 ∧ ¬ (p 8191 0).lines < 8191
        ∧ ((t 0 0 []).place (.unit .lu1) 0 [1]).1 = [] ∧ ((t 0 2048 []).place (.unit .lu1) 0 [1]).1 = [1]) := by
  decide +kernel

/-- Good and bad lines at the borders of R24 and R25: a position at 0 and one below it, at the last dot and past it, two
that do not rise; run counts of 0 and of the width and two more, runs that miss the width, and a run of 0 behind the
first, with one of two bytes whose value is below 128. -/
theorem test_lines_are_judged :
    let shift (ref : List Nat) (b : List Nat) : LineRead := takeLine 1024 ref (bytes (2 :: b ++ [0xFF]))
    let runs (b : List Nat) : LineRead := takeLine 1024 [] (bytes (b ++ [0xFF]))
    shift [7] [0x10] = .good [0] 2 ∧ shift [6] [0x10] = .bad 2 ∧ shift [7] [0x00] = .bad 2
    ∧ shift [1022] [0x90] = .good [1023] 2 ∧ shift [1023] [0x90] = .bad 2 ∧ shift [5, 6] [0x98] = .bad 2
    ∧ shift [5, 7] [0x98] = .good [6, 7] 2 ∧ shift [] [0x10] = .bad 1 ∧ takeLine 1024 [1, 2, 3] [2, 0x88] = .more
    ∧ runs [0x40, 0] = .bad 2 ∧ runs [0x44, 2] = .bad 2 ∧ takeLine 1024 [] (bytes [0x44, 1]) = .more
    ∧ runs [0x40, 1, 0x84, 0] = .good [] 4 ∧ runs [0x40, 1, 0x84, 1] = .bad 4
    ∧ runs [0x40, 2, 0, 0x84, 0] = .good [0] 5 ∧ runs [0x40, 3, 0x80, 5, 0, 0x83, 0xFB] = .bad 7
    ∧ runs [0x40, 2, 0x80, 5, 0x83, 0xFB] = .good [5] 6 ∧ runs [0x3F] = .bad 1 ∧ runs [0x50] = .bad 1 := by decide +kernel

theorem witness_RingingCountsAndAnswers :
    let s (m : UnitMode) (st : CallState) (n : Nat) (v : RingVerdict) : State :=
      withUnit (fun l => { l with mode := m, state := st, ringCount := n, verdict := v }) ready
    (((s .both .idle 0 .none).unit .lu1).state = .idle ∧ ready.settings.ringsToAnswer ≠ 1)
    ∧ ({ s .receive .idle 0 .none with settings := { ready.settings with ringsToAnswer := 1 } }).settings.ringsToAnswer = 1
    ∧ (min 255 (((s .receive .ringing 1 .none).unit .lu1).ringCount + 1) = ready.settings.ringsToAnswer
      ∧ ((s .receive .ringing 1 .none).unit .lu1).caller = none)
    ∧ ((s .receive .ringing 1 (.refused .denied)).unit .lu1).verdict = .refused .denied
    ∧ ((s .both .seizing 0 .none).unit .lu1).mode = .both ∧ ((s .send .seizing 0 .none).unit .lu1).mode ≠ .both
    ∧ ((s .send .idle 0 .none).unit .lu1).mode = .send
    ∧ ((s .receive .ringing 1 .none).screen.lookupRinging .lu1 [0x35] ready.now).1.verdict = .none := by decide

/-- A glare on an entry, with and without CANCEL pending; an entry at a desk out of admission; a caller listed by
number. -/
theorem witness_GlareReturnsAndCallersMatch :
    let e : DestEntry := { entryOf .active 0 with unit := some .lu1 }
    let s (b : Bool) : State := withUnit (fun l => { l with mode := .both, state := .seizing, entry := some 0 })
      (withEntries [{ e with cancelPending := b }] ready)
    let d : State := { withEntries [{ entryOf .ready 0 with desk := 3 }] ready with meter := { ready.meter with
      desks := [(3, { deskNew with state := .audit, audit := true })], producer := 128 } }
    let n (k : ScreenKind) : State := withScreen [{ screenOf k false with keyKind := .number, key := [0x35] }] ready
    (((s false).unit .lu1).entry = some 0 ∧ (s false).entry 0 = some { e with cancelPending := false }
      ∧ (s true).entry 0 = some { e with cancelPending := true } ∧ (ready.unit .lu1).entry = none)
    ∧ (d.entry 0 = some { entryOf .ready 0 with desk := 3 } ∧ d.meter.logRoom = false
      ∧ (d.desk 3).map (fun k => k.state) = some .audit ∧ (entryOf .ready 0).heldReported = false)
    ∧ (findKey .number [0x35] (n .deny).screen.entries).map (fun x => x.2.kind) = some .deny
    ∧ (findKey .number [0x35] (n .allow).screen.entries).map (fun x => x.2.kind) = some .allow
    ∧ (isNumberKey 0x35 = true ∧ ¬ ([0x35] : Text).length > 20 ∧ findKey .number [0x35] ready.screen.entries = none) := by
  decide

/-- A hand-over of entry 0. -/
def handed : HandOver :=
  { number := [0x35, 0x2C], document := 7, desk := 0, orderSeq := 5, confirmed := 0, zoneIndex := 0,
    zone := { digits := [], setup := 0, len := ⟨7200, 7200, 7200⟩, price := ⟨0, 0, 0⟩ } }

/-- Unit 1 in an outgoing call of entry 0. -/
def outgoing (st : CallState) (n : Nat) : State := withUnit (fun l => { l with
  mode := .both, state := st, role := some .caller, entry := some 0, handOver := some handed, dialFailures := n,
  result := some .busy, timer := some 4000 }) (withEntries [entryOf .active 0] (withPage ready))

theorem witness_OutgoingCallStepsByState :
    (((outgoing .seizing 2).unit .lu1).state = .seizing ∧ ((outgoing .seizing 2).unit .lu1).handOver = some handed)
    ∧ ((outgoing .dialling 0).unit .lu1).state = .dialling ∧ ((outgoing .awaitAnswer 0).unit .lu1).state = .awaitAnswer
    ∧ ((outgoing .dialling 0).unit .lu1).answered = false
    ∧ (ready.unit .lu1).state ≠ .seizing ∧ (ready.unit .lu1).state ≠ .dialling ∧ (ready.unit .lu1).state ≠ .awaitAnswer
    ∧ ((outgoing .seizing 0).doc handed.document).map (fun d => d.pages.length) = some (handed.confirmed + 1)
    ∧ (ready.doc handed.document).map (fun d => d.pages.length) = none ∧ (ready.unit .lu1).handOver = none
    ∧ RxItem.carrierLost ∉ ((outgoing .dialling 0).unit .lu1).rxFifo := by
  decide

/-- Entry 61 of Example 8-2: an answered call with one page confirmed is aborted by a CANCEL, and after the guard its
DEST_RESULT carries ABORTED, the page confirmed and the attempt's charge (R103, R147, R148). -/
theorem test_outcome_report_carries_the_call :
    let e : DestEntry := { entryOf .active 0 with
      unit := some .lu1, attempts := 1, confirmed := 1, attemptCharge := 9, chargeTotal := 9, cancelPending := true }
    let s := withUnit (fun l => { l with
      mode := .both, state := .clearing, role := some .caller, entry := some 0, handOver := some handed,
      result := some .aborted, answered := true, attemptBytes := 300, timer := some 2000 })
      (withEntries [e] (withPage ready))
    ((after (.clearingGuardExpiry .lu1) s).reporter.postings.map (fun x => x.event)).head? =
      some (.destResult 0 7 0 1 (some .lu1) .cancelled .aborted 1 5 300 9 9) := by decide +kernel

theorem witness_CallsEndAndUnitsBlock :
    let c (r : Option Role) (n : Nat) : State := withUnit (fun l => { l with role := r }) (outgoing .clearing n)
    ((c (some .caller) 2).unit .lu1).dialFailures ≠ 3 ∧ ((c (some .caller) 3).unit .lu1).dialFailures = 3
    ∧ ((c none 0).unit .lu1).state = .clearing ∧ ((c none 0).unit .lu1).role ≠ some .caller
    ∧ ((outgoing .clearing 0).unit .lu1).pendingMode = none
    ∧ ((withUnit (fun l => { l with pendingMode := some .off }) (outgoing .clearing 0)).unit .lu1).pendingMode = some .off
    ∧ ((outgoing .blocked 3).unit .lu1).state = .blocked ∧ (ready.unit .lu1).state = .off
    ∧ ((outgoing .dialling 0).unit .lu1).answered = false ∧ ((outgoing .ringing 0).unit .lu1).state = .ringing
    ∧ (((outgoing .clearing 0).unit .lu1).entry = some 0 ∧ (outgoing .clearing 0).entry 0 = some (entryOf .active 0)
      ∧ ((outgoing .clearing 0).unit .lu1).result = some .busy
      ∧ (entryOf .active 0).attempts < (entryOf .active 0).maxAttempts)
    ∧ (let r : MeterRec :=
        { zoneIndex := 0, zone := { digits := [], setup := 0, len := ⟨1, 1, 1⟩, price := ⟨0, 0, 0⟩ }, desk := 0, entry := 0,
          orderSeq := 5, number := [0x35], answer := Stamp.zero, elapsed := 0, nextStart := 1, units := ⟨1, 0, 0⟩,
          charge := 0, due := [] }
      let call : MeteredCall := { unit := .lu1, record := r, bytes := 0, result := some .busy, confirmed := 0 }
      let m : Meter := { ready.meter with work := [.release call] }
      let told : OutcomeReport := { unit := .lu1, entry := 0, result := .busy, answered := false,
                                    releaseTime := Stamp.zero, confirmed := 0, bytes := 0 }
      let s : State := { withEntries [{ entryOf .active 0 with unit := some .lu1 }] ready with
        meter := m, sendq := { (withEntries [{ entryOf .active 0 with unit := some .lu1 }] ready).sendq with reports := [told] } }
      MeterWork.release call ∈ s.meter.work ∧ call.record.entry = 0
        ∧ s.entry 0 = some { entryOf .active 0 with unit := some .lu1 } ∧ (s.unit .lu1).entry ≠ some 0
        ∧ s.sendq.reports.filter (fun c => decide (c.entry = 0)) = [told]) := by decide

/-- An OFFER with every field in its set. -/
def offerOf (ready : Bool) : OfferFields :=
  { station := [], maxRate := 4, forms := 2, fine := 0x80, maxWidth := 3, minLineTime := 10,
    ready := if ready then 1 else 0 }

theorem witness_CallerSessionFollowsItsPhases :
    let s (p : CallerPhase) : State := calling (callerOf p) TxRecoder.reset []
    (checkOffer (offerOf true)).map (fun o => o.ready) = some true
    ∧ (checkOffer (offerOf false)).map (fun o => o.ready) = some false
    ∧ checkOffer { offerOf true with minLineTime := 41 } = none
    ∧ (outgoing .awaitAnswer 0).caller .lu1 = none ∧ ready.caller .lu1 = none
    ∧ (s .awaitOffer).caller .lu1 = some (callerOf .awaitOffer)
    ∧ (s .checking).caller .lu1 = some (callerOf .checking) ∧ (s .awaitVerdict).caller .lu1 = some (callerOf .awaitVerdict)
    ∧ (callerOf .checking).order = some (txOf 0 false false).order ∧ rateBelow (txOf 0 false false).order.rate = some .r7200
    ∧ (callerOf .checking).total ≤ (callerOf .checking).position + 1 ∧ (callerOf .awaitVerdict).kind = .last
    ∧ (callerOf .awaitVerdict).resends < 2 := by decide

theorem witness_CallerReadsASealedPage :
    ∃ p r, (calling (callerOf .awaitOffer) TxRecoder.reset []).readPage 7 0 = .isSealed p r := ⟨_, _, rfl⟩

/-- An ORDER with every field in its set. -/
def orderOf (pages : Byte) : OrderFields :=
  { station := [0x57], rate := 4, form := 2, resolution := 1, width := 2, minLineTime := 10, pagesToCome := pages }

theorem witness_AnswererSessionFollowsItsPhases :
    let s (p : AnswererPhase) : State := answeringAs (answererOf p) RxRecoder.reset []
    let good : RxReport := { received := 100, bad := 10, longest := 3, endSeen := true, noRoom := none }
    (checkOrder (orderOf 250)).map (fun o => o.pagesToCome) = some 250 ∧ checkOrder (orderOf 251) = none
    ∧ (checkOrder (orderOf 0)).map (fun o => o.pagesToCome) = some 0
    ∧ pageEndOf (3 : Byte).toNat = some .last ∧ pageEndOf (4 : Byte).toNat = none
    ∧ (s .offering).answering .lu1 = some (answererOf .offering) ∧ (s .checkReply).answering .lu1 = some (answererOf .checkReply)
    ∧ (s .receiving).answering .lu1 = some (answererOf .receiving) ∧ (answererOf .receiving).dataTaken = false
    ∧ (s .awaitRelease).answering .lu1 = some (answererOf .awaitRelease) ∧ ready.answering .lu1 = none
    ∧ ready.caller .lu1 = none ∧ ¬ (good.received * 10 < good.bad * 100) ∧ ¬ (3 < good.longest)
    ∧ good.received * 10 < { good with bad := 11 }.bad * 100 ∧ good.noRoom = none
    ∧ (((s .offering).lookupOrder .lu1 [0x57]).1 = .accepted { desk := 0, copies := 1, flash := false })
    ∧ (((s .offering).openDoc .received 0 (some [0x57])).map (fun x => x.1) = some 0)
    ∧ (answererOf .receiving).document = some 7 ∧ { answererOf .receiving with document := none }.document = none := by
  decide

/-- The cases of the lookup at ORDER and of its learning: DENY by station and by the number that matched, not listed,
a budget used up and one with 1 left, and no entry; a free entry for the station, and a full table. -/
theorem witness_OrderIsLookedUpAndLearned :
    let at_ (m : ScreenMode) (es : List ScreenEntry) : State :=
      let t := withScreen es (answeringAs (answererOf .offering) RxRecoder.reset [])
      { t with screen := { t.screen with mode := m, ringMatch := t.screen.ringMatch.set .lu1 (some (0, [0x35])) } }
    let number (k : ScreenKind) : ScreenEntry := { screenOf k false with keyKind := .number, key := [0x35] }
    let by_ (m : ScreenMode) (es : List ScreenEntry) : OrderAnswer := ((at_ m es).lookupOrder .lu1 [0x57]).1
    let full := withScreen (List.replicate 256 (number .allow)) ready
    by_ .opened [screenOf .deny false] = .refused .denied (some ⟨.station, 0⟩)
    ∧ by_ .opened [number .deny] = .refused .denied (some ⟨.number, 0⟩)
    ∧ by_ .listedOnly [] = .refused .notListed none
    ∧ by_ .denyListed [{ screenOf .allow false with budgetLeft := 0 }] = .refused .budget (some ⟨.station, 0⟩)
    ∧ by_ .listedOnly [screenOf .allow false] = .accepted ⟨0, 0, false⟩
    ∧ by_ .opened [] = .accepted ⟨0, 1, false⟩
    ∧ ((at_ .opened [number .allow]).screen.numberMatch .lu1 = some (0, number .allow)
      ∧ ready.screen.ringMatch.get .lu1 = none)
    ∧ (([0x57] : Text) ≠ [] ∧ isStationKey 0x57 = true ∧ lowestFree 256 ready.screen.entries = some 0)
    ∧ (lowestFree 256 full.screen.entries = none ∧ full.screen.fullReported = false) := by decide +kernel

theorem witness_AnswererSealsItsPage :
    let x : RxRecoder := { RxRecoder.reset with state := .ended, page := some 0, document := 7, width := .standard }
    let s (n : Nat) (free : List Nat) : State := { answeringAs (answererOf .verdict) x [] with store := { ready.store with
      docs := [(7, { docOf [0] with state := .opened })],
      pages := [(0, { pageOf 7 0 0 1 with state := .filling, coded := n })], free := free } }
    ((s 2 [1]).rxSeal .lu1).1 = true ∧ ((s 2048 []).rxSeal .lu1).1 = false ∧ ((s 2 [1]).unit .lu1).rx.page = some 0
    ∧ (ready.unit .lu1).rx.page = none := by decide +kernel

/-- What RESTART and LINE FAULT find in session, and entries and a print entry for RESTART to end. -/
theorem witness_SessionsAreEnded :
    let a := answeringAs (answererOf .receiving) RxRecoder.reset []
    let n := withUnit (fun l => { l with answerer := none }) a
    let lost := answeringAs (answererOf .receiving) { RxRecoder.reset with state := .active } [.byte 2, .carrierLost]
    let c := calling (callerOf .sending) TxRecoder.reset []
    let es := withEntries [entryOf .held 0, { entryOf .active 0 with unit := some .lu1 }, entryOf .done 0] ready
    ((a.unit .lu1).state = .inSession ∧ (a.unit .lu1).role = some .answerer
      ∧ (a.unit .lu1).answerer = some (answererOf .receiving))
    ∧ ((n.unit .lu1).state = .inSession ∧ (n.unit .lu1).role ≠ some .caller ∧ (n.unit .lu1).answerer = none)
    ∧ ((c.unit .lu1).state = .inSession ∧ (c.unit .lu1).role = some .caller)
    ∧ RxItem.carrierLost ∈ (lost.unit .lu1).rxFifo
    ∧ (es.entryIds (fun e => !e.state.final) = [0, 1] ∧ es.entry 0 = some (entryOf .held 0)
      ∧ (entryOf .held 0).cancelPending = false ∧ es.entry 1 = some { entryOf .active 0 with unit := some .lu1 }
      ∧ es.entry 2 = some (entryOf .done 0) ∧ (entryOf .done 0).state.final = true) := by decide

theorem witness_SessionWaitsResendAndFail :
    let s (p : CallerPhase) (n : Nat) : State := calling { callerOf p with sends := n } TxRecoder.reset []
    let a (p : AnswererPhase) (n : Nat) : State :=
      answeringAs { answererOf p with sends := n, wait := some .reply } RxRecoder.reset []
    (s .checking 2).caller .lu1 = some { callerOf .checking with sends := 2 }
    ∧ (s .awaitVerdict 3).caller .lu1 = some { callerOf .awaitVerdict with sends := 3 }
    ∧ (s .awaitOffer 1).caller .lu1 = some { callerOf .awaitOffer with sends := 1 } ∧ (callerOf .checking).wait = some .reply
    ∧ (a .offering 2).answering .lu1 = some { answererOf .offering with sends := 2, wait := some .reply }
    ∧ (a .offering 3).answering .lu1 = some { answererOf .offering with sends := 3, wait := some .reply }
    ∧ (a .notReady 1).answering .lu1 = some { answererOf .notReady with sends := 1, wait := some .reply }
    ∧ (a .awaitRelease 1).answering .lu1 = some { answererOf .awaitRelease with sends := 1, wait := some .reply }
    ∧ ready.caller .lu1 = none ∧ ready.answering .lu1 = none := by decide

theorem witness_PrinterFollowsItsHead :
    let e : PrintEntry :=
      { document := 7, priority := .ordinary, arrival := 1, copiesLeft := 1, copiesPrinted := 0, state := .printing,
        pageIndex := 0, stopRequested := false, ejected := 0 }
    let d : PrintDecoder :=
      { page := 0, width := .standard, resolution := .normal, offset := 0, linesLeft := 1, again := false }
    let s (x : SheetState) : State := { calling (callerOf .sending) TxRecoder.reset [] with print := { ready.print with
      entries := [(0, e)], current := some 0, sheet := x, state := .printing, decoder := some d } }
    let k := s .sheetStarted
    (s .lineInFlight).part = .running ∧ (s .lineInFlight).print.sheet = .lineInFlight
    ∧ (s .lineInFlight).print.derived = (s .lineInFlight).print.state ∧ (s .noSheet).print.sheet = .noSheet
    ∧ ((s .feedingOut).print.sheet = .feedingOut ∧ (s .feedingOut).print.draining = false
      ∧ (s .feedingOut).print.current = some 0 ∧ tget (s .feedingOut).print.entries 0 = some e)
    ∧ (k.print.decoder = some d ∧ (k.page 0).isSome = true
      ∧ takeLine 1728 [] (k.streamFrom (pageOf 7 0 0 1) 0) = .good [] 1 ∧ (k.nextHeadLine d).isSome = true
      ∧ k.headHeld d = false ∧ (blocking 65536 k).headHeld d = true ∧ (blocking 65532 k).headHeld d = false)
    ∧ k.nextHeadLine { d with linesLeft := 0 } = none
    ∧ State.reset.part ≠ .running ∧ ready.print.paperPresent = true ∧ ready.print.coverClosed = true
    ∧ ready.print.sounder.flash = none
    ∧ { ready.print with hot := true }.derived ≠ ready.print.state
    ∧ ((s .sheetStarted).stopAsked = false ∧ ready.print.current = none ∧ ready.print.state = .ready) := by
  decide +kernel

/-- The second head line of a NORMAL line is the reference line again, and the line position moves (R172); the next page
begins with both at their first values (R171). -/
theorem test_normal_line_is_sent_twice :
    let d : PrintDecoder :=
      { page := 0, width := .narrow, resolution := .normal, offset := 0, linesLeft := 0, again := true }
    let s : State := { ready with print := { ready.print with
      sheet := .sheetStarted, state := .printing, position := 1, ref := [0, 2], decoder := some d, strobeBase := 80 } }
    (s.advanceSheet.print.position = 2 ∧ s.advanceSheet.print.ref = [0, 2]
      ∧ s.advanceSheet.print.out = ready.print.out ++ [.headLine
        (List.replicate 352 false ++ [true, true] ++ List.replicate 1374 false) 80])
    ∧ (s.startSheet 0 { pageOf 7 0 0 1 with lines := 0 }).print.position = 0
    ∧ (s.startSheet 0 { pageOf 7 0 0 1 with lines := 0 }).print.ref = [] := by
  decide +kernel

/-- Three waiting entries of a SEALED page: the FLASH one goes first, then the earlier arrival; a page index past the
document's end is no start. -/
theorem witness_PrinterSelectsAnEntry :
    let e (r : PrintPriority) (a n : Nat) : PrintEntry :=
      { document := 7, priority := r, arrival := a, copiesLeft := 2, copiesPrinted := 0, state := .waiting,
        pageIndex := n, stopRequested := false, ejected := 0 }
    let s : State := { withPage ready with print := { ready.print with
      entries := [(0, e .ordinary 1 0), (1, e .ordinary 2 0), (2, e .flash 3 0), (3, e .flash 0 1)] } }
    let starts (x : PrintEntry) : Bool := match s.readPage x.document x.pageIndex with
      | .isSealed _ _ => true
      | _ => false
    let goesFirst (x y : PrintEntry) : Prop := (x.priority = .flash ∧ y.priority = .ordinary)
      ∨ (x.priority = y.priority ∧ x.arrival < y.arrival)
    s.print.current = none ∧ s.print.state = .ready
    ∧ s.print.entries.map (fun x => starts x.2) = [true, true, true, false]
    ∧ (∀ x ∈ s.print.entries, x ≠ (2, e .flash 3 0) → starts x.2 = true → goesFirst (e .flash 3 0) x.2)
    ∧ (s.printSelect.print.current = some 2 ∧ s.printSelect.print.out = [.sheetStart, .sheetOut])
    ∧ 2 ≤ (e .flash 3 0).copiesLeft ∧ { e .flash 3 0 with copiesLeft := 1 }.copiesLeft ≤ 1 := by decide +kernel

/-- The current entry's read in its three answers: a SEALED page, a page to wait for, and no such page. -/
theorem witness_PrinterReadsItsPage :
    let e (n : Nat) : PrintEntry :=
      { document := 7, priority := .ordinary, arrival := 1, copiesLeft := 1, copiesPrinted := 0, state := .printing,
        pageIndex := n, stopRequested := false, ejected := 0 }
    let s (n : Nat) (t : State) : State := { t with print := { ready.print with
      entries := [(0, e n)], current := some 0, state := .headHot } }
    let kind (t : State) (n : Nat) : Nat := match t.readPage 7 n with
      | .isSealed _ _ => 0
      | .notReady => 1
      | .noSuchPage => 2
    ((s 0 (withPage ready)).print.current = some 0 ∧ tget (s 0 (withPage ready)).print.entries 0 = some (e 0)
      ∧ (s 0 (withPage ready)).print.sheet = .noSheet)
    ∧ kind (withPage ready) 0 = 0 ∧ kind (withDoc { docOf [] with state := .opened } ready) 0 = 1
    ∧ kind (withPage ready) 1 = 2 := by decide

/-- The sounder in a burst and a gap of FLASH, in the paper pattern, under both, and with a reload of 0. -/
theorem test_sounder_output :
    let d (f : Option Nat) (p : Option Bool) (a b : Nat) : Option (Pattern × Nat) :=
      { ready.print.sounder with flash := f, paper := p, flashReload := a, paperReload := b : Sounder }.output
    d (some 4) (some true) 9 5 = some (.flash, 9) ∧ d (some 3) (some true) 9 5 = none ∧ d (some 0) none 0 5 = none
    ∧ d none (some true) 9 5 = some (.paper, 5) ∧ d none (some false) 9 5 = none ∧ d none (some true) 9 0 = none
    ∧ ready.doc 7 = none := by decide

theorem witness_MeterChargesAndBurns :
    let r : MeterRec :=
      { zoneIndex := 0, zone := handed.zone, desk := 0, entry := 0, orderSeq := 5, number := [0x35],
        answer := Stamp.zero, elapsed := 7200, nextStart := 7200, units := ⟨1, 0, 0⟩, charge := 0, due := [.peak] }
    let b : Burn := { number := 3, desk := 0, reason := .threshold, lifetime := 500, calls := 1, sequence := 1 }
    let s := { outgoing .awaitAnswer 0 with meter := { ready.meter with
      recs := ⟨none, some r, some { r with due := [] }, none⟩, burn := some b,
      desks := [(0, { deskNew with working := 1000 })], monitor := true, supplyLow := true } }
    let q := { ready with meter := { ready.meter with burnQueue := [(0, .flush)] } }
    (s.meter.recs.get .lu1 = some r ∧ r.due = .peak :: []) ∧ s.meter.recs.get .lu2 = some { r with due := [] }
    ∧ ready.meter.recs.get .lu1 = none ∧ s.desk 0 = some { deskNew with working := 1000 }
    ∧ (s.unit .lu1).handOver = some handed ∧ (s.unit .lu1).entry = some 0
    ∧ s.stalled .meter = false ∧ (stall .meter ready).stalled .meter = true ∧ b.number ≠ 2
    ∧ s.meter.burn = some b ∧ s.meter.checkpoint ≤ 1000 - b.lifetime ∧ 999 - b.lifetime < s.meter.checkpoint
    ∧ (q.meter.burn = none ∧ q.meter.burnQueue = (0, .flush) :: [] ∧ q.desk 0 = some deskNew)
    ∧ ready.meter.burnQueue = [] ∧ s.meter.warning = false ∧ ready.meter.monitor = false
    ∧ ready.meter.overflow = [] ∧ (ready.meter.producer - ready.meter.consumer).toNat < ready.meter.logSize
    ∧ ({ s with meter := { s.meter with warning := true, supplyLow := false } } : State).meter.warning = true
    ∧ ready.meter.work = [] ∧ { ready.meter with work := [.charge 0 5] }.work ≠ []
    ∧ (let k (n : Nat) : Desk := { deskNew with working := n }
      let t (n : Nat) (q : List (Nat × BurnReason)) : State :=
        { ready with meter := { ready.meter with desks := [(0, k n)], burnQueue := q } }
      (t 500 []).desk 0 = some (k 500) ∧ (t 500 []).meter.checkpoint ≤ (k 500).working - (k 500).burned
        ∧ (k 499).working - (k 499).burned < (t 499 []).meter.checkpoint ∧ (k 500).captured = none
        ∧ 0 ∈ (t 500 [(0, .flush)]).meter.burnQueue.map (fun x => x.1) ∧ 0 ∉ (t 500 []).meter.burnQueue.map (fun x => x.1)
        ∧ (ready.desk 3).map (fun x => x.audit) = some true) := by decide

theorem witness_CodedLineDecodesBack :
    ([0, 1023] : List Nat).Pairwise (· < ·) ∧ (∀ t ∈ ([0, 1023] : List Nat), t < widthDots .narrow)
    ∧ (List.replicate 1024 true).length = widthDots .narrow := by decide +kernel

end Sys2Proof.Tests
end

section
/-! SUPPORT. Line coding: transition lists and rows of dots, the three coded forms and the decoder's answers to
them and to their beginnings, and the statement of `CodedLineDecodesBack`. -/

namespace Sys2Proof.Machine

open Sys2Proof

/-! ## Rising positions -/

/-- Positions that rise strictly, from `low` on and below `w`: the recursion of the coders and decoders of 2.2. -/
def RisingFrom (w : Nat) : Nat → List Nat → Prop
  | low, [] => low ≤ w
  | low, t :: ts => low ≤ t ∧ RisingFrom w (t + 1) ts

theorem risingFrom_nil {w low : Nat} : RisingFrom w low [] ↔ low ≤ w := Iff.rfl

theorem risingFrom_cons {w low t : Nat} {ts : List Nat} :
    RisingFrom w low (t :: ts) ↔ low ≤ t ∧ RisingFrom w (t + 1) ts := Iff.rfl

theorem risingFrom_iff {w low : Nat} {ts : List Nat} :
    RisingFrom w low ts ↔ low ≤ w ∧ ts.Pairwise (· < ·) ∧ ∀ t ∈ ts, low ≤ t ∧ t < w := by
  induction ts generalizing low with
  | nil => simp [risingFrom_nil]
  | cons t ts ih =>
    rw [risingFrom_cons, ih, List.pairwise_cons, List.forall_mem_cons]
    constructor
    · rintro ⟨hlow, hw, hpair, hts⟩
      exact ⟨by omega, ⟨fun u hu => (hts u hu).1, hpair⟩, ⟨hlow, hw⟩,
        fun u hu => ⟨by have := (hts u hu).1; omega, (hts u hu).2⟩⟩
    · rintro ⟨-, ⟨hlt, hpair⟩, ⟨hlow, hw⟩, hts⟩
      exact ⟨hlow, hw, hpair, fun u hu => ⟨hlt u hu, (hts u hu).2⟩⟩

/-- A line of R21 is a list that rises from position 0. -/
theorem risingFrom_zero_iff {w : Nat} {ts : List Nat} :
    RisingFrom w 0 ts ↔ ts.Pairwise (· < ·) ∧ ∀ t ∈ ts, t < w := by
  simp [risingFrom_iff]

theorem RisingFrom.mono {w low m : Nat} {ts : List Nat} (h : RisingFrom w low ts) (hm : m ≤ low) :
    RisingFrom w m ts := by
  rw [risingFrom_iff] at h ⊢
  obtain ⟨hw, hpair, hts⟩ := h
  exact ⟨hm.trans hw, hpair, fun t ht => ⟨hm.trans (hts t ht).1, (hts t ht).2⟩⟩

theorem RisingFrom.add_length_le {w low : Nat} {ts : List Nat} (h : RisingFrom w low ts) :
    low + ts.length ≤ w := by
  induction ts generalizing low with
  | nil => exact h
  | cons t ts ih =>
    obtain ⟨hlow, hts⟩ := risingFrom_cons.1 h
    have := ih hts
    simp only [List.length_cons]
    omega

/-! ## Rows of dots (R21) -/

/-- Up to the next listed position a dot keeps the colour of the dot to its left. -/
theorem dotsFrom_succ_of_rising {w i : Nat} {ts : List Nat} (n : Nat) (c : Bool) (h : RisingFrom w (i + 1) ts) :
    dotsFrom (n + 1) i c ts = c :: dotsFrom n (i + 1) c ts := by
  cases ts with
  | nil => rfl
  | cons t ts =>
    have hne : t ≠ i := by have := (risingFrom_cons.1 h).1; omega
    simp [dotsFrom, hne]

/-- At a listed position the colour changes. -/
theorem dotsFrom_succ_cons_self (n i : Nat) (c : Bool) (ts : List Nat) :
    dotsFrom (n + 1) i c (i :: ts) = (!c) :: dotsFrom n (i + 1) (!c) ts := by
  simp [dotsFrom]

theorem transitionsFrom_dotsFrom {n i : Nat} (c : Bool) {ts : List Nat} (h : RisingFrom (i + n) i ts) :
    transitionsFrom i c (dotsFrom n i c ts) = ts := by
  induction n generalizing i c ts with
  | zero =>
    have hlen := h.add_length_le
    obtain rfl : ts = [] := List.eq_nil_of_length_eq_zero (by omega)
    rfl
  | succ n ih =>
    rw [show i + (n + 1) = i + 1 + n by omega] at h
    have keeps : ∀ us, RisingFrom (i + 1 + n) (i + 1) us →
        transitionsFrom i c (dotsFrom (n + 1) i c us) = us := fun us hus => by
      simp [dotsFrom_succ_of_rising n c hus, transitionsFrom, ih c hus]
    cases ts with
    | nil => exact keeps [] (risingFrom_nil.2 (by omega))
    | cons t ts =>
      obtain ⟨hit, hts⟩ := risingFrom_cons.1 h
      by_cases hti : t = i
      · subst hti
        simp [dotsFrom_succ_cons_self, transitionsFrom, ih (!c) hts]
      · exact keeps (t :: ts) (risingFrom_cons.2 ⟨by omega, hts⟩)

theorem risingFrom_transitionsFrom (i : Nat) (c : Bool) (dots : List Bool) :
    RisingFrom (i + dots.length) i (transitionsFrom i c dots) := by
  induction dots generalizing i c with
  | nil => exact le_rfl
  | cons d dots ih =>
    have hrest : RisingFrom (i + (d :: dots).length) (i + 1) (transitionsFrom (i + 1) d dots) := by
      rw [List.length_cons, show i + (dots.length + 1) = i + 1 + dots.length by omega]
      exact ih (i + 1) d
    unfold transitionsFrom
    split
    · exact hrest.mono (by omega)
    · exact risingFrom_cons.2 ⟨le_rfl, hrest⟩

theorem dotsFrom_transitionsFrom (i : Nat) (c : Bool) (dots : List Bool) :
    dotsFrom dots.length i c (transitionsFrom i c dots) = dots := by
  induction dots generalizing i c with
  | nil => rfl
  | cons d dots ih =>
    rw [List.length_cons, transitionsFrom]
    split
    · next hd => rw [← hd, dotsFrom_succ_of_rising _ _ (risingFrom_transitionsFrom (i + 1) d dots), ih]
    · next hd =>
      have hflip : (!c) = d := (Bool.eq_not_of_ne hd).symm
      rw [dotsFrom_succ_cons_self, hflip, ih]

theorem transitions_lineDots {w : Nat} {ts : List Nat} (h : RisingFrom w 0 ts) :
    transitions (lineDots w ts) = ts :=
  transitionsFrom_dotsFrom false (by rwa [Nat.zero_add])

theorem lineDots_transitions (dots : List Bool) : lineDots dots.length (transitions dots) = dots :=
  dotsFrom_transitionsFrom 0 false dots

theorem risingFrom_transitions (dots : List Bool) : RisingFrom dots.length 0 (transitions dots) := by
  simpa [transitions] using risingFrom_transitionsFrom 0 false dots

/-! ## Bytes -/

theorem toNat_byteOf (v : Nat) : (byteOf v).toNat = v % 256 := BitVec.toNat_ofNat v 8

theorem nibbles_byteOf {v : Nat} (h : v < 256) : nibbles (byteOf v) = [v / 16, v % 16] := by
  rw [nibbles, toNat_byteOf, Nat.mod_eq_of_lt h]

/-! ## SHIFT values (R24) -/

theorem length_packNibbles (vs : List Nat) : (packNibbles vs).length = ceilDiv vs.length 2 := by
  induction vs using packNibbles.induct with
  | case1 => rfl
  | case2 v => simp [packNibbles, ceilDiv]
  | case3 v u vs ih =>
    simp only [packNibbles, List.length_cons, ih, ceilDiv]
    omega

/-- Unpacking gives the packed values back, after them the unused half byte of an odd count. -/
theorem nibbles_packNibbles {vs : List Nat} (h : ∀ v ∈ vs, v < 16) :
    (packNibbles vs).flatMap nibbles = vs ++ List.replicate (vs.length % 2) 0 := by
  induction vs using packNibbles.induct with
  | case1 => rfl
  | case2 v =>
    have hv : v < 16 := h v (by simp)
    simp [packNibbles, nibbles_byteOf (v := v * 16) (by omega)]
  | case3 v u vs ih =>
    simp only [List.forall_mem_cons] at h
    obtain ⟨hv, hu, hvs⟩ := h
    have hhigh : (v * 16 + u) / 16 = v := by omega
    have hlow : (v * 16 + u) % 16 = u := by omega
    have parity : (vs.length + 1 + 1) % 2 = vs.length % 2 := Nat.add_mod_right vs.length 2
    simp [packNibbles, nibbles_byteOf (v := v * 16 + u) (by omega), hhigh, hlow, parity, ih hvs]

theorem shiftsFit_cons {t r : Nat} {ts rs : List Nat} :
    shiftsFit (t :: ts) (r :: rs) = true ↔ (r ≤ t + 7 ∧ t ≤ r + 7) ∧ shiftsFit ts rs = true := by
  simp [shiftsFit]

theorem shiftValues_cons (r t : Nat) (rs ts : List Nat) :
    shiftValues (r :: rs) (t :: ts) = (t + 8 - r) :: shiftValues rs ts := rfl

theorem length_shiftValues {ref ts : List Nat} (h : shiftsFit ts ref = true) :
    (shiftValues ref ts).length = ref.length := by
  induction ts, ref using shiftsFit.induct with
  | case1 => rfl
  | case2 t ts r rs ih => simp [shiftValues_cons, ih (shiftsFit_cons.1 h).2]
  | case3 ts ref hnil hcons => simp [shiftsFit] at h

theorem shiftValues_lt {ref ts : List Nat} (h : shiftsFit ts ref = true) : ∀ v ∈ shiftValues ref ts, v < 16 := by
  induction ts, ref using shiftsFit.induct with
  | case1 => simp [shiftValues]
  | case2 t ts r rs ih =>
    obtain ⟨hfit, hrest⟩ := shiftsFit_cons.1 h
    rw [shiftValues_cons, List.forall_mem_cons]
    exact ⟨by omega, ih hrest⟩
  | case3 ts ref hnil hcons => simp [shiftsFit] at h

/-- The shift values of a rising line move the reference back onto the line; what follows them is ignored. -/
theorem shiftLine_shiftValues {w low : Nat} {ref ts : List Nat} (pad : List Nat) (fit : shiftsFit ts ref = true)
    (h : RisingFrom w low ts) : shiftLine w low ref (shiftValues ref ts ++ pad) = some ts := by
  induction ts, ref using shiftsFit.induct generalizing low with
  | case1 => rfl
  | case2 t ts r rs ih =>
    obtain ⟨hfit, hrest⟩ := shiftsFit_cons.1 fit
    obtain ⟨hlow, hts⟩ := risingFrom_cons.1 h
    have hw : t < w := by have := hts.add_length_le; omega
    have inUse : ¬ (t + 8 - r = 0 ∨ r + (t + 8 - r) < 8) := by omega
    have position : r + (t + 8 - r) - 8 = t := by omega
    have inRange : ¬ (t < low ∨ w ≤ t) := by omega
    simp [shiftValues_cons, shiftLine, inUse, position, inRange, ih hrest hts]
  | case3 ts ref hnil hcons => simp [shiftsFit] at fit

/-! ## Run lengths (R25) -/

theorem length_runsFrom (w p : Nat) (ts : List Nat) : (runsFrom w p ts).length = ts.length + 1 := by
  induction ts generalizing p with
  | nil => rfl
  | cons t ts ih => simp [runsFrom, ih]

theorem sum_runsFrom {w p : Nat} {ts : List Nat} (h : RisingFrom w p ts) : p + (runsFrom w p ts).sum = w := by
  induction ts generalizing p with
  | nil =>
    have := risingFrom_nil.1 h
    simp only [runsFrom, List.sum_cons, List.sum_nil]
    omega
  | cons t ts ih =>
    obtain ⟨hp, hts⟩ := risingFrom_cons.1 h
    have := ih (hts.mono (Nat.le_succ t))
    simp only [runsFrom, List.sum_cons]
    omega

theorem runsFrom_ne_zero {w p : Nat} {ts : List Nat} (h : RisingFrom w (p + 1) ts) :
    ∀ r ∈ runsFrom w p ts, r ≠ 0 := by
  induction ts generalizing p with
  | nil =>
    have := risingFrom_nil.1 h
    simp only [runsFrom, List.mem_singleton, forall_eq]
    omega
  | cons t ts ih =>
    obtain ⟨hp, hts⟩ := risingFrom_cons.1 h
    rw [runsFrom, List.forall_mem_cons]
    exact ⟨by omega, ih hts⟩

theorem runsGood_runsFrom {w : Nat} {ts : List Nat} (h : RisingFrom w 0 ts) : runsGood w (runsFrom w 0 ts) = true := by
  have hsum : (runsFrom w 0 ts).sum = w := by simpa using sum_runsFrom h
  have htail : ∀ r ∈ (runsFrom w 0 ts).tail, r ≠ 0 := by
    cases ts with
    | nil => simp [runsFrom]
    | cons t ts => exact runsFrom_ne_zero (risingFrom_cons.1 h).2
  simpa [runsGood, hsum] using htail

theorem runsFrom_le {w : Nat} {ts : List Nat} (h : RisingFrom w 0 ts) : ∀ r ∈ runsFrom w 0 ts, r ≤ w := fun r hr =>
  calc r ≤ (runsFrom w 0 ts).sum := List.le_sum_of_mem hr
    _ = w := by simpa using sum_runsFrom h

theorem runPositions_cons (p r : Nat) {rs : List Nat} (h : rs ≠ []) :
    runPositions p (r :: rs) = (p + r) :: runPositions (p + r) rs := by
  cases rs with
  | nil => exact absurd rfl h
  | cons => rfl

theorem runPositions_runsFrom {w p : Nat} {ts : List Nat} (h : RisingFrom w p ts) :
    runPositions p (runsFrom w p ts) = ts := by
  induction ts generalizing p with
  | nil => rfl
  | cons t ts ih =>
    obtain ⟨hp, hts⟩ := risingFrom_cons.1 h
    have hne : runsFrom w t ts ≠ [] := List.ne_nil_of_length_pos (by simp [length_runsFrom])
    rw [runsFrom, runPositions_cons _ _ hne, Nat.add_sub_cancel' hp, ih (hts.mono (Nat.le_succ t))]

/-! ## Runs in bytes (Table 12-8) -/

/-- A coded run length is read as its value, in 1 byte or in 2, before the run lengths after it. -/
theorem readRuns_runBytes {v : Nat} (k : Nat) (bs : List Byte) (hv : v < 32768) :
    readRuns (k + 1) (runBytes v ++ bs)
      = (readRuns k bs).map fun runs => (v :: runs.1, runs.2 + (runBytes v).length) := by
  unfold runBytes
  split
  · next short =>
    have value : v % 256 = v := by omega
    simp only [List.cons_append, List.nil_append, readRuns, toNat_byteOf, value, short, if_true]
    cases readRuns k bs <;> rfl
  · next long =>
    have head : (128 + v / 256) % 256 = 128 + v / 256 := by omega
    have notShort : ¬ 128 + v / 256 < 128 := by omega
    have value : v / 256 * 256 + v % 256 = v := by omega
    simp only [List.cons_append, List.nil_append, readRuns, toNat_byteOf, head, notShort, if_false,
      Nat.add_sub_cancel_left, value]
    cases readRuns k bs <;> rfl

/-- A run length cut short still wants bytes. -/
theorem readRuns_take_runBytes {v n : Nat} (k : Nat) (hv : v < 32768) (hn : n < (runBytes v).length) :
    readRuns (k + 1) ((runBytes v).take n) = none := by
  unfold runBytes at hn ⊢
  split at hn
  · obtain rfl : n = 0 := by simpa using hn
    rfl
  · next long =>
    have head : (128 + v / 256) % 256 = 128 + v / 256 := by omega
    rw [if_neg long]
    match n, hn with
    | 0, _ => rfl
    | 1, _ => simp [readRuns, toNat_byteOf, head]

theorem readRuns_flatMap_runBytes {rs : List Nat} (rest : List Byte) (h : ∀ r ∈ rs, r < 32768) :
    readRuns rs.length (rs.flatMap runBytes ++ rest) = some (rs, (rs.flatMap runBytes).length) := by
  induction rs with
  | nil => rfl
  | cons r rs ih =>
    obtain ⟨hr, hrs⟩ := List.forall_mem_cons.1 h
    rw [List.flatMap_cons, List.append_assoc, List.length_cons, readRuns_runBytes _ _ hr, ih hrs, Option.map_some,
      List.length_append, Nat.add_comm]

theorem readRuns_take_flatMap_runBytes {rs : List Nat} {n : Nat} (h : ∀ r ∈ rs, r < 32768)
    (hn : n < (rs.flatMap runBytes).length) : readRuns rs.length ((rs.flatMap runBytes).take n) = none := by
  induction rs generalizing n with
  | nil => simp at hn
  | cons r rs ih =>
    obtain ⟨hr, hrs⟩ := List.forall_mem_cons.1 h
    rw [List.flatMap_cons, List.length_append] at hn
    rw [List.flatMap_cons, List.length_cons]
    by_cases inside : n < (runBytes r).length
    · rw [List.take_append_of_le_length inside.le]
      exact readRuns_take_runBytes _ hr inside
    · rw [List.take_append, List.take_of_length_le (by omega), readRuns_runBytes _ _ hr, ih hrs (by omega),
        Option.map_none]

/-! ## The decoder's answer to each tag (Table 12-8) -/

theorem takeLine_same (w : Nat) (ref : List Nat) (rest : List Byte) : takeLine w ref (0x01 :: rest) = .good ref 1 := rfl

theorem takeLine_shift_more {w : Nat} {ref : List Nat} {body : List Byte} (hne : ref ≠ [])
    (h : body.length < ceilDiv ref.length 2) : takeLine w ref (0x02 :: body) = .more := by
  simp [takeLine, fillByte, hne, h]

theorem takeLine_shift {w : Nat} {ref ts : List Nat} {body : List Byte} (rest : List Byte) (hne : ref ≠ [])
    (hlen : body.length = ceilDiv ref.length 2) (h : shiftLine w 0 ref (body.flatMap nibbles) = some ts) :
    takeLine w ref (0x02 :: (body ++ rest)) = .good ts (1 + body.length) := by
  simp [takeLine, fillByte, hne, ← hlen, h]

/-- The RUNS tag byte of a run count `k` is no other tag. -/
theorem runsTag_ne {k : Nat} (hk : k < 4096) (b : Byte) (hb : b.toNat < 64) : byteOf (64 + k / 256) ≠ b := by
  intro h
  have := congrArg BitVec.toNat h
  rw [toNat_byteOf] at this
  omega

theorem toNat_runsTag {k : Nat} (hk : k < 4096) : (byteOf (64 + k / 256)).toNat = 64 + k / 256 := by
  rw [toNat_byteOf]
  omega

theorem takeLine_runs_tag_more {w k : Nat} {ref : List Nat} (hk : k < 4096) :
    takeLine w ref [byteOf (64 + k / 256)] = .more := by
  have tag := runsTag_ne hk
  have top : 64 + k / 256 < 80 := by omega
  simp [takeLine, fillByte, tag, toNat_runsTag hk, top]

/-- A RUNS head with a run count in range is answered by what the run lengths after it say. -/
theorem takeLine_runs {w k : Nat} (ref : List Nat) (body : List Byte) (hk : k < 4096) (h0 : k ≠ 0) (hw : k ≤ w + 1) :
    takeLine w ref (byteOf (64 + k / 256) :: byteOf k :: body) = (readRuns k body).elim .more fun runs =>
      if runsGood w runs.1 then .good (runPositions 0 runs.1) (2 + runs.2) else .bad (2 + runs.2) := by
  have tag := runsTag_ne hk
  have top : 64 + k / 256 < 80 := by omega
  have count : k / 256 * 256 + k % 256 = k := by omega
  simp only [takeLine, fillByte, tag, toNat_runsTag hk, top, toNat_byteOf, Nat.add_sub_cancel_left, count, h0,
    hw.not_gt, Nat.le_add_right, BitVec.reduceToNat, Nat.reduceLT, and_self, or_self, if_true, if_false]
  cases readRuns k body <;> rfl

/-! ## The coded forms decode back -/

/-- The code is read as the line `ts` whatever bytes follow it, and every shorter beginning of it wants bytes. -/
def DecodesTo (w : Nat) (ref ts : List Nat) (code : List Byte) : Prop :=
  (∀ rest, takeLine w ref (code ++ rest) = .good ts code.length)
  ∧ ∀ n, n < code.length → takeLine w ref (code.take n) = .more

theorem codeSame_decodesTo (w : Nat) (ref : List Nat) : DecodesTo w ref ref codeSame := by
  refine ⟨takeLine_same w ref, fun n hn => ?_⟩
  obtain rfl : n = 0 := by simpa [codeSame] using hn
  rfl

theorem codeShift_decodesTo {w : Nat} {ref ts : List Nat} (legal : shiftLegal ref ts = true)
    (h : RisingFrom w 0 ts) : DecodesTo w ref ts (codeShift ref ts) := by
  obtain ⟨hne, fit⟩ : ref ≠ [] ∧ shiftsFit ts ref = true := by simpa [shiftLegal] using legal
  have hlen : (packNibbles (shiftValues ref ts)).length = ceilDiv ref.length 2 := by
    rw [length_packNibbles, length_shiftValues fit]
  refine ⟨fun rest => ?_, fun n hn => ?_⟩
  · have moved : shiftLine w 0 ref ((packNibbles (shiftValues ref ts)).flatMap nibbles) = some ts := by
      rw [nibbles_packNibbles (shiftValues_lt fit)]
      exact shiftLine_shiftValues _ fit h
    rw [codeShift, List.cons_append, takeLine_shift rest hne hlen moved, List.length_cons, Nat.add_comm]
  · cases n with
    | zero => rfl
    | succ n =>
      rw [codeShift, List.length_cons] at hn
      exact takeLine_shift_more hne (by rw [List.length_take]; omega)

theorem codeRuns_eq (w : Nat) (ts : List Nat) :
    codeRuns w ts = byteOf (64 + (ts.length + 1) / 256) :: byteOf (ts.length + 1)
      :: (runsFrom w 0 ts).flatMap runBytes := rfl

theorem two_lt_length_codeRuns (w : Nat) (ts : List Nat) : 2 < (codeRuns w ts).length := by
  have first : ∀ v, 0 < (runBytes v).length := fun v => by unfold runBytes; split <;> simp
  cases ts <;> simp [codeRuns_eq, runsFrom, first]

/-- The width keeps the run count within the 12 bits of a RUNS head, and each run within the 15 bits of a length. -/
theorem codeRuns_decodesTo {w : Nat} (ref : List Nat) {ts : List Nat} (hw : w < 4095) (h : RisingFrom w 0 ts) :
    DecodesTo w ref ts (codeRuns w ts) := by
  have hlen : ts.length ≤ w := by simpa using h.add_length_le
  have hruns : ∀ r ∈ runsFrom w 0 ts, r < 32768 := fun r hr => by
    have := runsFrom_le h r hr
    omega
  have hcount : ts.length + 1 < 4096 := by omega
  rw [codeRuns_eq]
  refine ⟨fun rest => ?_, fun n hn => ?_⟩
  · have read := readRuns_flatMap_runBytes rest hruns
    rw [length_runsFrom] at read
    rw [List.cons_append, List.cons_append,
      takeLine_runs ref _ hcount (by omega) (by omega), read, Option.elim_some, if_pos (runsGood_runsFrom h),
      runPositions_runsFrom h, List.length_cons, List.length_cons, Nat.add_comm]
  · match n with
    | 0 => rfl
    | 1 => exact takeLine_runs_tag_more hcount
    | n + 2 =>
      have read : readRuns (ts.length + 1) (((runsFrom w 0 ts).flatMap runBytes).take n) = none := by
        rw [← length_runsFrom w 0 ts]
        exact readRuns_take_flatMap_runBytes hruns (by simpa using hn)
      rw [List.take_succ_cons, List.take_succ_cons, takeLine_runs ref _ hcount (by omega) (by omega), read,
        Option.elim_none]

/-- What a line can be coded as (R23, R24, R26). -/
theorem codeLine_cases (f : Form) (w : Nat) (ref ts : List Nat) :
    (ts = ref ∧ codeLine f w ref ts = codeSame)
    ∨ (shiftLegal ref ts = true ∧ (codeShift ref ts).length ≤ (codeRuns w ts).length
      ∧ codeLine f w ref ts = codeShift ref ts)
    ∨ codeLine f w ref ts = codeRuns w ts := by
  cases f with
  | plain => exact .inr (.inr rfl)
  | full =>
    simp only [codeLine, codeFull]
    split
    · next same => exact .inl ⟨same, rfl⟩
    · split
      · next shift => exact .inr (.inl ⟨shift.1, shift.2, rfl⟩)
      · exact .inr (.inr rfl)

theorem codeLine_decodesTo {w : Nat} (f : Form) (ref : List Nat) {ts : List Nat} (hw : w < 4095)
    (h : RisingFrom w 0 ts) : DecodesTo w ref ts (codeLine f w ref ts) := by
  obtain ⟨rfl, code⟩ | ⟨legal, -, code⟩ | code := codeLine_cases f w ref ts
  · rw [code]; exact codeSame_decodesTo w ts
  · rw [code]; exact codeShift_decodesTo legal h
  · rw [code]; exact codeRuns_decodesTo ref hw h

theorem length_codeLine_le (f : Form) (w : Nat) (ref ts : List Nat) :
    (codeLine f w ref ts).length ≤ (codeRuns w ts).length := by
  obtain ⟨-, code⟩ | ⟨-, shorter, code⟩ | code := codeLine_cases f w ref ts
  · have := two_lt_length_codeRuns w ts
    rw [code, codeSame, List.length_singleton]
    omega
  · rwa [code]
  · rw [code]

/-- FULL form is the SAME tag byte for the reference line only: SHIFT begins with a tag of its own, and RUNS is longer. -/
theorem codeFull_eq_codeSame_iff (w : Nat) (ref ts : List Nat) : codeFull w ref ts = codeSame ↔ ts = ref := by
  refine ⟨fun same => ?_, fun h => by rw [codeFull, if_pos h]⟩
  obtain ⟨h, -⟩ | ⟨-, -, code⟩ | code := codeLine_cases .full w ref ts
  · exact h
  · have : codeShift ref ts = codeSame := code.symm.trans same
    simp [codeShift, codeSame] at this
  · have long := two_lt_length_codeRuns w ts
    rw [← code, codeLine, same] at long
    simp [codeSame] at long

theorem widthDots_le (c : Width) : widthDots c ≤ 2048 := by cases c <;> decide

/-- Settles O60: each coded form decodes back (`codeLine_decodesTo`), rows and transition lists give each other back,
and SAME stands for the reference line alone. -/
theorem codedLineDecodesBack : Obligations.CodedLineDecodesBack := by
  unfold Obligations.CodedLineDecodesBack
  intro c
  refine ⟨fun f ref ts rest _ line => ?_, ?_, codeFull_eq_codeSame_iff _, takeLine_same _⟩
  · have rising : RisingFrom (widthDots c) 0 ts := risingFrom_zero_iff.2 line
    have hw : widthDots c < 4095 := by have := widthDots_le c; omega
    obtain ⟨whole, beginnings⟩ := codeLine_decodesTo f ref hw rising
    exact ⟨whole rest, beginnings, length_codeLine_le f _ ref ts, transitions_lineDots rising⟩
  · intro dots hlen
    rw [← hlen]
    exact ⟨lineDots_transitions dots, risingFrom_zero_iff.1 (risingFrom_transitions dots)⟩

end Sys2Proof.Machine
end

section
/-! SUPPORT. The band map: the hour of a clock value, the row the day uses and the band in force (R184). -/

namespace Sys2Proof.Machine

open Sys2Proof

/-- A clock value's half-second falls in one of the 24 hours. -/
theorem Stamp.hour_lt {c : Stamp} (h : c.half < 172800) : c.half / 7200 < 24 := by omega

theorem Tariff.bandAt_of_unset (t : Tariff) {c : Stamp} (h : c.unset = true) : t.bandAt c = .peak := by
  simp [Tariff.bandAt, h]

theorem Tariff.bandAt_of_weekend {t : Tariff} {c : Stamp} (set : c.unset = false)
    (flag : t.weekend.getLsbD c.day = true) : t.bandAt c = t.weekendRow.getD (c.half / 7200) .peak := by
  simp [Tariff.bandAt, set, flag]

theorem Tariff.bandAt_of_weekday {t : Tariff} {c : Stamp} (set : c.unset = false)
    (flag : t.weekend.getLsbD c.day = false) : t.bandAt c = t.weekdayRow.getD (c.half / 7200) .peak := by
  simp [Tariff.bandAt, set, flag]

/-- A row of 24 bands has one for each hour, so the reading never falls back on the default. -/
theorem row_at_hour {row : List Band} {c : Stamp} (hours : row.length = 24) (h : c.half < 172800) (b : Band) :
    row[c.half / 7200]? = some (row.getD (c.half / 7200) b) := by
  have inRow : c.half / 7200 < row.length := hours ▸ Stamp.hour_lt h
  rw [List.getD_eq_getElem?_getD, List.getElem?_eq_getElem inRow, Option.getD_some]

/-- Settles O43, by the three cases of the clock and the day's flag (`bandAt_of_unset`, `bandAt_of_weekend`,
`bandAt_of_weekday`): in the last two the row holds a band for the hour (`row_at_hour`). -/
theorem bandIsReadFromTheMap : Obligations.BandIsReadFromTheMap := by
  unfold Obligations.BandIsReadFromTheMap
  intro t c weekday weekend _ half
  refine ⟨t.bandAt_of_unset, fun set flag => ?_, fun set flag => ?_⟩
  · rw [Tariff.bandAt_of_weekend set flag]
    exact row_at_hour weekend half .peak
  · rw [Tariff.bandAt_of_weekday set flag]
    exact row_at_hour weekday half .peak

end Sys2Proof.Machine
end

section
/-! SUPPORT. Every command answers a next state, and each keeps the laws and what stays fixed (R61, log entry 7). -/

namespace Sys2Proof.Machine

open Sys2Proof

/-- The commands that take the part's configuration anew: the resets and the read of the Setup Block (R46, R63). -/
def configures : Instr → Bool
  | .powerOnReset _ | .busReset _ | .setupBlockReadDone => true
  | _ => false

/-- A command is answered with a next state; the queue stays, the laws are kept, and page memory and the configuration
change with the commands that may change them. -/
structure Answers (c : Instr) (s t : State) : Prop where
  next : exec c s = .next t
  pending : t.pending = s.pending
  safe : s.Safe → t.Safe
  mem : touchesMemory c = false → t.mem = s.mem
  fixed : configures c = false → Fixed s t

/-- A command with a next state that it answers. -/
def Completes (c : Instr) (s : State) : Prop := ∃ t, Answers c s t

theorem Kept.completes {c : Instr} {s t : State} (k : Kept s t) (e : exec c s = .next t)
    (m : touchesMemory c = false → t.mem = s.mem) : Completes c s :=
  ⟨t, e, k.fixed.pending, k.safe, m, fun _ => k.fixed⟩

theorem Kept.writes {c : Instr} {s t : State} (k : Kept s t) (e : exec c s = .next t := by rfl)
    (h : touchesMemory c = true := by rfl) : Completes c s :=
  k.completes e (fun x => by rw [h] at x; cases x)

theorem Tame.completes {c : Instr} {s t : State} (k : Tame s t) (e : exec c s = .next t := by rfl) : Completes c s :=
  k.kept.completes e (fun _ => k.same.mem)

theorem Calm.completes {c : Instr} {s t : State} (k : Calm s t) (e : exec c s = .next t := by rfl) : Completes c s :=
  k.tame.completes e

theorem Begun.completes {c : Instr} {s t : State} (k : Begun s t) (e : exec c s = .next t := by rfl)
    (h : configures c = true := by rfl) : Completes c s :=
  ⟨t, e, k.pending, k.safe, fun _ => k.mem, fun x => by rw [h] at x; cases x⟩

theorem calm_if {s t : State} {c : Prop} [Decidable c] (h : Calm s t) : Calm s (if c then t else s) :=
  ite_calm h (Calm.refl s)

theorem kept_if {s t : State} {c : Prop} [Decidable c] (h : Kept s t) : Kept s (if c then t else s) := by
  split
  · exact h
  · exact Kept.refl s

theorem Tame.scanRetry {s t : State} (h : Tame s t) : Tame s t.scanRetry := h.trans (calm_scanRetry t).tame

theorem Calm.scanRetry {s t : State} (h : Calm s t) : Calm s t.scanRetry := h.trans (calm_scanRetry t)

theorem clockStep_mem (s : State) : s.clockStep.mem = s.mem := (calm_settleDue s).mem

theorem orderSetClock_mem (s : State) : s.orderSetClock.mem = s.mem := by
  unfold State.orderSetClock
  dsimp only
  split
  · exact (calm_answer _ _ _ _).mem
  · exact (calm_answer _ _ _ _).mem

theorem execHoldTimeout_completes (w : WindowId) (s : State) : Completes (.holdTimeout w) s :=
  (kept_if ((kept_abandonWindow s w .holdTimeout).calm (calm_scanRetry _))).writes

theorem execSetClock_completes (s : State) : Completes .setClock s := by
  have k : Kept s (if s.takes .setClock then s.orderSetClock else s) := kept_if (kept_orderSetClock s)
  refine k.completes rfl (fun _ => ?_)
  split
  · exact orderSetClock_mem s
  · rfl

theorem calm_offer (s : State) (u : UnitId) (f : OfferFields) : Calm s (match checkOffer f with
    | some o => s.takeOffer u o
    | none => s.ignoreFrame u) := by
  split
  · exact calm_takeOffer _ _ _
  · exact calm_ignoreFrame _ _

theorem calm_orderFrame (s : State) (u : UnitId) (f : OrderFields) : Calm s (match checkOrder f with
    | some o => (s.takeOrder u o).scanRetry
    | none => s.ignoreFrame u) := by
  split
  · next h => exact (calm_takeOrder _ _ _ (checkOrder_station h)).scanRetry
  · exact calm_ignoreFrame _ _

theorem calm_pageEnd (s : State) (u : UnitId) (kind : Byte) : Calm s (match pageEndOf kind.toNat with
    | some k => (s.takePageEnd u k).scanRetry
    | none => s.ignoreFrame u) := by
  split
  · exact (calm_takePageEnd _ _ _).scanRetry
  · exact calm_ignoreFrame _ _

/-- Every command is answered, and keeps what its answer must keep: each by the law of its operation. -/
theorem exec_completes (c : Instr) (s : State) : Completes c s := by
  cases c with
  | powerOnReset m => exact (begun_powerOnReset s m).completes
  | busReset m => exact (begun_busReset s m).completes
  | setupBlockReadDone => exact (begun_setupReadDone s).completes
  | hostRead a n => exact (calm_hostRead s a n).completes
  | hostWrite a lanes => exact (kept_hostWrite s a lanes).writes
  | windowWriteFixed a lanes => exact (kept_hostWrite s a lanes).writes
  | windowWriteIndexed a lanes => exact (kept_hostWrite s a lanes).writes
  | setupPost v => exact (kept_hostWrite s 0 _).writes
  | orderSlotPost n seq => exact (kept_if (kept_hostWrite s _ _)).writes
  | eventConsumerWrite v => exact (kept_if (kept_hostWrite s _ _)).writes
  | chargeLogConsumerWrite v => exact (kept_if (kept_hostWrite s _ _)).writes
  | holdTimeout w => exact execHoldTimeout_completes w s
  | pendingWritePerformed blk => exact (kept_pendingPerformed s blk).writes
  | portGrant rs => exact (calm_grantPort s rs).completes
  | scan => exact (calm_if (calm_orderScan s)).completes
  | openWindowPage => exact (calm_if (calm_orderOpenWindow s)).completes
  | closeWindowPage => exact (calm_if (calm_orderCloseWindow s)).completes
  | closeDocument => exact (calm_if (calm_orderCloseDocument s).scanRetry).completes
  | keep => exact (calm_if (calm_orderKeep s)).completes
  | release => exact (calm_if (calm_orderRelease s).scanRetry).completes
  | deleteDocument => exact (calm_if (calm_orderDelete s).scanRetry).completes
  | send => exact (calm_if (calm_orderSend s)).completes
  | cancel => exact (calm_if (calm_orderCancel s).scanRetry).completes
  | print => exact (calm_if (calm_orderPrint s).scanRetry).completes
  | cancelPrint => exact (calm_if (calm_orderCancelPrint s).scanRetry).completes
  | screenAdd => exact (calm_if (calm_orderScreenAdd s)).completes
  | screenRemove => exact (calm_if (calm_orderScreenRemove s)).completes
  | screenClear => exact (calm_if (calm_orderScreenClear s)).completes
  | sweep => exact (calm_if (calm_orderSweep s)).completes
  | screenMode => exact (calm_if (calm_orderScreenMode s)).completes
  | setClock => exact execSetClock_completes s
  | loadTariff => exact (calm_if (calm_orderLoadTariff s)).completes
  | setDesk => exact (calm_if (calm_orderSetDesk s)).completes
  | closePeriod => exact (calm_if (calm_orderClosePeriod s)).completes
  | flushMeter => exact (calm_if (calm_orderFlushMeter s)).completes
  | auditClear => exact (calm_if (calm_orderAuditClear s)).completes
  | lineMode => exact (calm_if (calm_orderLineMode s)).completes
  | dump => exact (calm_if (calm_orderDump s)).completes
  | dumpRecordWrite => exact (calm_dumpRecordWrite s).completes
  | restart => exact (kept_if ((kept_orderRestart s).calm (calm_scanRetry _))).writes
  | restartComplete => exact (calm_restartDone s).completes
  | unknownOrder => exact (calm_if (calm_finishTake s _ _ _)).completes
  | eventPosting => exact (calm_takePosting s).completes
  | holdOffExpiry => exact (calm_holdOffExpired s).completes
  | coderLineService => exact (kept_lineService s).writes
  | coderSealService => exact (calm_sealService s).completes
  | line dots => exact (calm_takeScanLine s dots).scanRetry.completes
  | sheetEnd => exact (calm_takeSheetEnd s).completes
  | modeAcknowledgement => exact (calm_takeModeAck s).completes
  | sheetPresentChange high => exact (calm_sheetPresentChange s high).completes
  | jamChange high => exact (calm_jamChange s high).completes
  | stallTimerExpiry => exact (calm_if (calm_endScan s _ _ _)).completes
  | transmitLineRecode u => exact (calm_transmitRecode s u).completes
  | linkSendData u n => exact (calm_linkSend s u n).completes
  | receiveDecode u => exact (calm_receiveDecode s u).scanRetry.completes
  | ring u => exact (tame_ring s u).scanRetry.completes
  | caller u n => exact (calm_callerNumber s u n).completes
  | dialTone u => exact (calm_dialTone s u).completes
  | dialDone u => exact (calm_dialDone s u).completes
  | busyTone u => exact (calm_busyTone s u).completes
  | answerTone u => exact (calm_answerTone s u).completes
  | seizeTimeout u => exact (calm_seizeTimeout s u).completes
  | dialLimitExpiry u => exact (calm_dialLimitExpired s u).completes
  | answerTimeout u => exact (calm_answerTimeout s u).completes
  | clearingGuardExpiry u => exact (tame_clearingDone s u).scanRetry.completes
  | ringTimerExpiry u => exact (calm_ringTimerExpired s u).completes
  | lineFault u => exact (tame_lineFault s u).scanRetry.completes
  | lineOk u => exact (calm_lineOk s u).completes
  | unknownLinkMessage u type => exact (calm_discardMessage s u type).completes
  | corruptFrame u => exact (calm_ignoreFrame s u).completes
  | offer u f => exact (calm_offer s u f).completes
  | orderFrame u f => exact (calm_orderFrame s u f).completes
  | checkResult u good => exact (calm_checkResult s u good).completes
  | readyFrame u => exact (calm_callerReady s u).completes
  | slower u => exact (calm_callerSlower s u).completes
  | pageEnd u kind => exact (calm_pageEnd s u kind).completes
  | good u => exact (calm_callerGood s u).completes
  | redo u => exact (calm_callerRedo s u).completes
  | stopFrame u => exact (calm_callerFails s u .refused).completes
  | releaseFrame u => exact ((calm_callerFails s u .refused).trans (calm_answererRelease _ u)).scanRetry.completes
  | data u bytes => exact (calm_takeData s u bytes).completes
  | dataEnd u => exact (calm_takeDataEnd s u).completes
  | carrierLost u => exact ((calm_callerFails s u .lineLost).trans (calm_answererCarrierLost _ u)).scanRetry.completes
  | replyWaitExpiry u => exact (calm_replyWaitExpired s u).completes
  | offerWaitExpiry u => exact (calm_offerWaitExpired s u).completes
  | notReadyWaitExpiry u => exact (calm_notReadyExpired s u).completes
  | idleLimitExpiry u => exact (calm_idleLimitExpired s u).scanRetry.completes
  | entryCountdownExpiry => exact (calm_countdownExpired s).completes
  | lineDone temperature => exact (calm_lineDone s temperature).scanRetry.completes
  | sheetDone => exact (calm_sheetDone s).scanRetry.completes
  | temp temperature => exact (calm_takeTemp s temperature).scanRetry.completes
  | paperPresentChange high => exact (calm_paperChange s high).scanRetry.completes
  | coverClosedChange high => exact (calm_coverChange s high).scanRetry.completes
  | sounderPatternTimer p => exact (calm_patternTimer s p).completes
  | pacingPulse => exact (calm_pacingPulse s).completes
  | ageTimerExpiry => exact (calm_ageExpiry s).completes
  | sweepVisit => exact (calm_sweepVisit s).completes
  | clockStep => exact (kept_clockStep s).completes rfl (fun _ => clockStep_mem s)
  | meterUnitStart u => exact (calm_settleMeter s u).completes
  | burnVerify n => exact (calm_burnVerified s n).completes
  | burnLimitExpiry n => exact (calm_burnFailed s n).completes
  | supplyLevelChange low => exact (calm_senseSupply s low).completes
  | powerWarningBegin => exact (calm_warningBegins s).completes
  | powerWarningEnd => exact (calm_warningEnds s).completes

/-- The state that a command answers is the one of `exec_completes`. -/
theorem answers_of_exec {c : Instr} {s t : State} (h : exec c s = .next t) : Answers c s t := by
  obtain ⟨t', k⟩ := exec_completes c s
  rw [k.next] at h
  cases h
  exact k

theorem withPending_safe {s : State} (q : List Instr) (h : s.Safe) : (s.withPending q).Safe := h

theorem step_of_pending_nil {s : State} (h : s.pending = []) : step s = .next s := by
  unfold step
  rw [h]

theorem step_of_pending_cons {s : State} {c : Instr} {q : List Instr} (h : s.pending = c :: q) :
    step s = exec c (s.withPending q) := by
  unfold step
  rw [h]

/-- Settles O1, by the two cases of the queue. -/
theorem stepRunsTheFrontCommand : Obligations.StepRunsTheFrontCommand := by
  unfold Obligations.StepRunsTheFrontCommand
  exact ⟨fun _ _ _ => step_of_pending_cons rfl, fun _ => step_of_pending_nil⟩

/-- Settles O2: the step carries out one command, and each command keeps the laws (`exec_completes`). -/
theorem everyStepKeepsSafe : Obligations.EveryStepKeepsSafe := by
  unfold Obligations.EveryStepKeepsSafe
  intro s t safe h
  cases hq : s.pending with
  | nil =>
    rw [step_of_pending_nil hq] at h
    cases h
    exact safe
  | cons c q =>
    rw [step_of_pending_cons hq] at h
    exact (answers_of_exec h).safe (withPending_safe q safe)

/-- Settles O3: the state at power-on is the reset of any safe part's blocks, with nothing in page memory. -/
theorem resetStateIsSafe : Obligations.ResetStateIsSafe := by
  unfold Obligations.ResetStateIsSafe
  refine ⟨Memory.wf_nil, ⟨by decide, by decide⟩, ?_⟩
  refine ⟨⟨Nat.zero_le _, fun k => absurd rfl k, List.forall_mem_nil _, by decide⟩, by decide,
    ⟨by decide, by decide⟩, rfl,
    lawful_build 0 0, tableIn_nil _, printRefs_nil, screen_empty rfl,
      sendOk_empty rfl rfl (fun u => by cases u <;> rfl),
    charge_empty rfl rfl rfl rfl (fun u => by cases u <;> rfl)⟩

/-- Settles O4 (`exec_completes`). -/
theorem onlyMemoryCommandsWriteMemory : Obligations.OnlyMemoryCommandsWriteMemory := by
  unfold Obligations.OnlyMemoryCommandsWriteMemory
  intro c s t quiet h
  have same : t.mem = s.mem := (answers_of_exec h).mem quiet
  exact ⟨fun a => by rw [same], same⟩

/-- Settles O5 (`exec_completes`). -/
theorem everyCommandCompletes : Obligations.EveryCommandCompletes := by
  unfold Obligations.EveryCommandCompletes
  intro c s
  obtain ⟨t, k⟩ := exec_completes c s
  exact ⟨t, k.next, k.pending⟩

theorem configures_eq_false {c : Instr} (h1 : ∀ m, c ≠ .powerOnReset m) (h2 : ∀ m, c ≠ .busReset m)
    (h3 : c ≠ .setupBlockReadDone) : configures c = false := by
  unfold configures
  split
  · exact absurd rfl (h1 _)
  · exact absurd rfl (h2 _)
  · exact absurd rfl h3
  · rfl

/-- Settles O6 (`exec_completes`). -/
theorem configurationIsFixedWhileRunning : Obligations.ConfigurationIsFixedWhileRunning := by
  unfold Obligations.ConfigurationIsFixedWhileRunning
  intro c s t h h1 h2 h3
  have k : Fixed s t := (answers_of_exec h).fixed (configures_eq_false h1 h2 h3)
  exact ⟨k.memSize, k.settings, k.regions, k.base, k.blockCount⟩

end Sys2Proof.Machine
end

section
/-! SUPPORT. The rules of the Memory Path: where the writes that a block issues go (R61), and how each part of a host
write is dealt with (R45, R51, R52). -/

namespace Sys2Proof.Machine

open Sys2Proof

/-! ## The issue of writes (R61) -/

/-- The pending writes that a run of bytes is cut into (R61). -/
def cutWrites (blk : Block) (a : Nat) (bs : List Byte) (c : Option Nat) : List PendingWrite :=
  (splitWrite bs.length a bs).map (fun x => { blk := blk, addr := x.1, bytes := x.2, clears := c })

/-- The places of the queue that are free for the writes issued next: none while others wait (R61). -/
def MemPath.room (p : MemPath) : Nat := if p.waiting = [] then 16 - p.queue.length else 0

/-- The writes with room go to the queue's end, the others wait behind those that already wait. -/
def MemPath.accept (p : MemPath) (ws : List PendingWrite) : MemPath :=
  { p with queue := p.queue ++ ws.take p.room, waiting := p.waiting ++ ws.drop p.room }

theorem MemPath.enqueue_of_room {p : MemPath} (w : PendingWrite) (h : 0 < p.room) :
    p.enqueue w = { p with queue := p.queue ++ [w] } := by
  unfold MemPath.room at h
  split at h
  · next none => exact if_pos ⟨none, by unfold Config.queueWrites; omega⟩
  · omega

theorem MemPath.enqueue_of_full {p : MemPath} (w : PendingWrite) (h : p.room = 0) :
    p.enqueue w = { p with waiting := p.waiting ++ [w] } := by
  refine if_neg (fun k => ?_)
  obtain ⟨none, room⟩ := k
  unfold Config.queueWrites at room
  rw [MemPath.room, if_pos none] at h
  omega

theorem MemPath.foldl_enqueue (ws : List PendingWrite) (p : MemPath) : ws.foldl MemPath.enqueue p = p.accept ws := by
  induction ws generalizing p with
  | nil => simp [MemPath.accept]
  | cons w ws ih =>
    rw [List.foldl_cons, ih]
    cases room : p.room with
    | zero =>
      have full' : MemPath.room { p with waiting := p.waiting ++ [w] } = 0 := by simp [MemPath.room]
      rw [MemPath.enqueue_of_full w room, MemPath.accept, MemPath.accept, full', room]
      simp
    | succ k =>
      have room' : MemPath.room { p with queue := p.queue ++ [w] } = k := by
        unfold MemPath.room at room ⊢
        split at room
        · next none =>
          simp only [none, if_true, List.length_append, List.length_singleton]
          omega
        · cases room
      rw [MemPath.enqueue_of_room w (by omega), MemPath.accept, MemPath.accept, room', room]
      simp

theorem MemPath.issue_eq (p : MemPath) (blk : Block) (a : Nat) (bs : List Byte) (c : Option Nat) :
    p.issue blk a bs c = p.accept (cutWrites blk a bs c) := by
  rw [← MemPath.foldl_enqueue, cutWrites, List.foldl_map]
  rfl

/-- A write's issue and the state of the bus cycle do not touch one another. -/
theorem MemPath.issue_withBus (p : MemPath) (b : HostBus) (r : BusResult) (blk : Block) (a : Nat) (bs : List Byte)
    (c : Option Nat) :
    ({ p with bus := b, result := r } : MemPath).issue blk a bs c =
      { p.issue blk a bs c with bus := b, result := r } := by
  simp only [MemPath.issue_eq]
  rfl

theorem State.endCycle_issue (s : State) (r : BusResult) (blk : Block) (a : Nat) (bs : List Byte) :
    (s.issue blk a bs).endCycle r = (s.endCycle r).issue blk a bs :=
  congrArg (fun p => { s with path := p }) (MemPath.issue_withBus s.path .free r blk a bs none).symm

/-! ## The parts of a host write (R45, R51, R52) -/

@[simp] theorem runSegs_nil (err : Bool) (s : State) :
    runSegs [] err s = s.endCycle (if err then .busError else .written) := rfl

theorem runSegs_of_done {g : Seg} {s t : State} {bad : Bool} (h : s.hostSeg g = .done t bad) (rest : List Seg)
    (err : Bool) : runSegs (g :: rest) err s = runSegs rest (err || bad) t := by
  rw [runSegs, h]

theorem runSegs_of_behind {g : Seg} {s : State} (h : s.hostSeg g = .behind) (rest : List Seg) (err : Bool) :
    runSegs (g :: rest) err s = s.holdCycle (.heldWrite (g :: rest) err) := by
  rw [runSegs, h]

theorem runSegs_of_held {g left : Seg} {s t : State} {w : WindowId} (h : s.hostSeg g = .held w left t) (rest : List Seg)
    (err : Bool) : runSegs (g :: rest) err s = t.holdCycle (.windowHold w left rest err) := by
  rw [runSegs, h]

theorem hostSeg_stalled {s : State} (g : Seg) (h : s.stalled .memoryPath = true) : s.hostSeg g = .behind := by
  simp [State.hostSeg, h]

theorem hostSeg_outside {s : State} {g : Seg} (h : s.stalled .memoryPath = false)
    (past : memBytes s.memSize < g.addr + g.lanes.length) :
    s.hostSeg g = .done (if s.part = .running then s.guardHit .outside g.addr else s) true := by
  simp [State.hostSeg, h, past]

/-- A part of a write that lies within memory, while no write of the Memory Path waits for room. -/
structure Seg.Fits (g : Seg) (s : State) : Prop where
  free : s.stalled .memoryPath = false
  inside : g.addr + g.lanes.length ≤ memBytes s.memSize

/-- An area whose host writes reach page memory where no pending write is in their way (R45, R46, R52). -/
def Area.Open (x : Area) (s : State) : Prop :=
  x = .pass ∨ x = .eventConsumer ∨ x = .chargeConsumer ∨ (x = .setupPage ∧ s.part ≠ .setup)
    ∨ ∃ n, x = .slot n ∧ n ∉ s.path.posted

theorem hostSeg_blocked {s : State} {g : Seg} (f : g.Fits s) (o : (s.hostArea g.addr).Open s)
    (b : s.path.blocked g.addr g.lanes.length = true) : s.hostSeg g = .behind := by
  obtain e | e | e | ⟨e, k⟩ | ⟨n, e, k⟩ := o <;> simp [State.hostSeg, f.free, Nat.not_lt.2 f.inside, *]

theorem hostSeg_passes {s : State} {g : Seg} (f : g.Fits s) (o : (s.hostArea g.addr).Open s)
    (b : s.path.blocked g.addr g.lanes.length = false) :
    s.hostSeg g = .done (s.performHost (s.hostArea g.addr) g) false := by
  obtain e | e | e | ⟨e, k⟩ | ⟨n, e, k⟩ := o <;> simp [State.hostSeg, f.free, Nat.not_lt.2 f.inside, *]

theorem hostSeg_setup {s : State} {g : Seg} (f : g.Fits s) (e : s.hostArea g.addr = .setupPage)
    (h : s.part = .setup) : s.hostSeg g = .done s true := by
  simp [State.hostSeg, f.free, Nat.not_lt.2 f.inside, e, h]

theorem hostSeg_guarded {s : State} {g : Seg} {r : GuardArea} (f : g.Fits s) (e : s.hostArea g.addr = .guarded r) :
    s.hostSeg g = .done (s.guardHit r g.addr) true := by
  simp [State.hostSeg, f.free, Nat.not_lt.2 f.inside, e]

theorem hostSeg_posted {s : State} {g : Seg} {n : Nat} (f : g.Fits s) (e : s.hostArea g.addr = .slot n)
    (h : n ∈ s.path.posted) : s.hostSeg g = .done (s.guardHit .orderSlot g.addr) true := by
  simp [State.hostSeg, f.free, Nat.not_lt.2 f.inside, e, h]

section Window

variable {s t : State} {g left : Seg} {w : WindowId}

theorem hostSeg_taken (f : g.Fits s) (e : s.hostArea g.addr = .window w) (h : s.windowWrite w g = .taken t) :
    s.hostSeg g = .done t false := by
  simp [State.hostSeg, f.free, Nat.not_lt.2 f.inside, e, h]

theorem hostSeg_refused (f : g.Fits s) (e : s.hostArea g.addr = .window w) (h : s.windowWrite w g = .refused t) :
    s.hostSeg g = .done t true := by
  simp [State.hostSeg, f.free, Nat.not_lt.2 f.inside, e, h]

theorem hostSeg_held (f : g.Fits s) (e : s.hostArea g.addr = .window w) (h : s.windowWrite w g = .held left t) :
    s.hostSeg g = .held w left t := by
  simp [State.hostSeg, f.free, Nat.not_lt.2 f.inside, e, h]

theorem windowWrite_idle (g : Seg) (h : (s.window w).state = .idle) :
    s.windowWrite w g = .refused (s.guardHit (.window w) g.addr) := by
  simp only [State.windowWrite, h]

end Window

/-! ## A host write in one area -/

/-- A host write with an enabled lane that lies in one area and within memory, the bus being free, while no write of
the Memory Path waits for room. -/
structure OneArea (s : State) (a : Nat) (lanes : List Lane) (x : Area) : Prop where
  bus : s.path.bus = .free
  free : s.stalled .memoryPath = false
  inside : a + lanes.length ≤ memBytes s.memSize
  enabled : lanes.filterMap id ≠ []
  area : ∀ i, i < lanes.length → s.hostArea (a + i) = x

theorem OneArea.fits {s : State} {a : Nat} {lanes : List Lane} {x : Area} (h : OneArea s a lanes x) :
    Seg.Fits ⟨a, lanes⟩ s := ⟨h.free, h.inside⟩

theorem OneArea.hostWrite {s : State} {a : Nat} {lanes : List Lane} {x : Area} (h : OneArea s a lanes x) :
    s.hostWrite a lanes = runSegs [⟨a, lanes⟩] false s :=
  (s.hostWrite_one x a lanes h.enabled h.bus h.inside h.area).1

theorem OneArea.hostArea {s : State} {a : Nat} {lanes : List Lane} {x : Area} (h : OneArea s a lanes x) :
    s.hostArea a = x := (s.hostWrite_one x a lanes h.enabled h.bus h.inside h.area).2

/-- In an open area the lanes reach page memory, and what owns the area is told. -/
theorem OneArea.passes {s : State} {a : Nat} {lanes : List Lane} {x : Area} (h : OneArea s a lanes x) (o : x.Open s)
    (b : s.path.blocked a lanes.length = false) :
    s.hostWrite a lanes = (s.performHost x ⟨a, lanes⟩).endCycle .written := by
  have done := hostSeg_passes h.fits (h.hostArea.symm ▸ o) b
  rw [h.hostWrite, runSegs_of_done done, show s.hostArea (Seg.mk a lanes).addr = x from h.hostArea]
  rfl

/-- A part that is refused whole ends the cycle with a bus error. -/
theorem OneArea.refused {s t : State} {a : Nat} {lanes : List Lane} {x : Area} (h : OneArea s a lanes x)
    (r : s.hostSeg ⟨a, lanes⟩ = .done t true) : s.hostWrite a lanes = t.endCycle .busError := by
  rw [h.hostWrite, runSegs_of_done r]
  rfl

/-- The part with another page memory. -/
def State.withMem (s : State) (m : Memory) : State := { s with mem := m }

/-- A number written by the host reads back through the pending writes, where none of them overlaps it. -/
theorem readNum_written {s : State} {a n : Nat} {v : Nat} (w : s.mem.wf = true) (b : s.path.blocked a n = false)
    (h : v < 256 ^ n) : (s.withMem (s.mem.writeBytes a (leBytes n v))).readNum a n = v := by
  have back := Memory.readBytes_writeBytes s.mem w a (leBytes n v)
  rw [leBytes_length] at back
  have read := State.readThrough_clear (s.withMem (s.mem.writeBytes a (leBytes n v))) _ _ b
  rw [State.readNum, read]
  exact (congrArg leValue back).trans ((leValue_leBytes n v).trans (Nat.mod_eq_of_lt h))

theorem word_lt (v : Word) : v.toNat < 256 ^ 4 := v.isLt

theorem leBytes_zero (n : Nat) : leBytes n 0 = List.replicate n 0 := by
  induction n with
  | zero => rfl
  | succ n ih => rw [leBytes, ih]; rfl

end Sys2Proof.Machine
end

section
/-! SUPPORT. Resets, host reads and host writes: each answers its case (R45, R46, R49, R51, R52, R63, R81, R192). -/

namespace Sys2Proof.Machine

open Sys2Proof

/-- Settles O7: both resets are the equation that defines them. -/
theorem resetsPutEveryBlockBack : Obligations.ResetsPutEveryBlockBack := by
  unfold Obligations.ResetsPutEveryBlockBack
  intro m s
  exact ⟨rfl, rfl⟩

/-- Settles O21 (`read_writeBytes`). -/
theorem writtenBytesReadBack : Obligations.WrittenBytesReadBack := by
  unfold Obligations.WrittenBytesReadBack
  intro m a bs wf
  refine ⟨Memory.writeBytes_wf a bs wf, fun i hi => ?_, fun x hx => ?_⟩
  · rw [Memory.read_writeBytes wf, if_pos (Nat.le_add_right a i), Nat.add_sub_cancel_left,
      List.getElem?_eq_getElem hi]
  · rw [Memory.read_writeBytes wf]
    obtain before | after := hx
    · rw [if_neg (Nat.not_le.2 before)]
    · rw [if_pos (by omega), List.getElem?_eq_none (by omega)]

/-- Settles O11, by the three outcomes of a host read. -/
theorem hostReadAnswersItsCase : Obligations.HostReadAnswersItsCase := by
  unfold Obligations.HostReadAnswersItsCase
  intro s a n bus
  have read : exec (.hostRead a n) s = .next (s.hostRead a n) := rfl
  simp only [read, State.hostRead, bus, ne_eq, not_true_eq_false, if_false, Host.Outcome.next.injEq]
  refine ⟨fun past => if_pos past, fun inside held => ?_, fun inside clear free => ?_⟩
  · have waits : s.readWaits a n = true := by simpa [State.readWaits] using held
    rw [if_neg (Nat.not_lt.2 inside), if_pos waits]
    rfl
  · have ready : s.readWaits a n = false := by simp [State.readWaits, clear, free]
    rw [if_neg (Nat.not_lt.2 inside), ready]
    exact ⟨_, rfl, s.mem.readBytes_length a n, s.mem.readBytes_get a n⟩

/-! ## Writes to the Setup Page (R46, R49) -/

theorem hostArea_setup {s : State} {a : Nat} (h : a < 4096) : s.hostArea a = .setupPage := by
  simp [State.hostArea, State.area, h]

theorem setupPage_fits (m : MemSize) : 4096 ≤ memBytes m := by cases m <;> decide

theorem oneArea_setup {s : State} {a : Nat} {lanes : List Lane} (bus : s.path.bus = .free)
    (free : s.stalled .memoryPath = false) (h : a + lanes.length ≤ 4096) (k : lanes.filterMap id ≠ []) :
    OneArea s a lanes .setupPage :=
  ⟨bus, free, h.trans (setupPage_fits _), k, fun i hi => hostArea_setup (by omega)⟩

/-- A write of the Setup Page that leaves the post word 0, or does not touch it, has no other effect. -/
theorem watchSetup_of_not_posted {s : State} {g : Seg} (h : ¬ (g.addr < 4 ∧ s.readNum 0 4 ≠ 0)) :
    s.watchSetup g = s := if_neg h

theorem watchSetup_unconfigured {s : State} {g : Seg} (h : g.addr < 4 ∧ s.readNum 0 4 ≠ 0)
    (p : s.part = .unconfigured) :
    s.watchSetup g = { s with part := .setup } := by
  rw [State.watchSetup, if_pos h, p]

theorem watchSetup_running {s : State} {g : Seg} (h : g.addr < 4 ∧ s.readNum 0 4 ≠ 0) (p : s.part = .running) :
    s.watchSetup g = s.alreadyRunning := by
  rw [State.watchSetup, if_pos h, p]

theorem alreadyRunning_endCycle (s : State) (r : BusResult) :
    s.alreadyRunning.endCycle r = (s.endCycle r).alreadyRunning := by
  unfold State.alreadyRunning
  rw [State.endCycle_issue, State.endCycle_issue]

theorem word_lanes (n v : Nat) (h : n ≠ 0) : ((leBytes n v).map some).filterMap id ≠ [] := by
  cases n with
  | zero => exact absurd rfl h
  | succ n => simp [leBytes]

/-- A word written by the host in an open area reaches page memory, and what owns the area is told. -/
theorem hostWrite_word {s : State} {a v : Nat} {x : Area} (bus : s.path.bus = .free)
    (free : s.stalled .memoryPath = false) (inside : a + 4 ≤ memBytes s.memSize)
    (area : ∀ i, i < 4 → s.hostArea (a + i) = x) (o : x.Open s) (b : s.path.blocked a 4 = false) :
    s.hostWrite a ((leBytes 4 v).map some) = ((s.withMem (s.mem.writeBytes a (leBytes 4 v))).watch x
      ⟨a, (leBytes 4 v).map some⟩).endCycle .written := by
  have one : OneArea s a ((leBytes 4 v).map some) x :=
    ⟨bus, free, by simpa using inside, word_lanes 4 v (by decide), fun i hi => area i (by simpa using hi)⟩
  rw [one.passes o (by simpa using b), State.performHost, ← Memory.writeLanes_some]
  rfl

/-- Settles O8: a write of the Setup Page meets one area (`oneArea_setup`) and is refused in SETUP; else it reaches page
memory (`OneArea.passes`), and the post word decides the rest (`watchSetup_unconfigured`, `watchSetup_running`). -/
theorem setupPostStartsTheRead : Obligations.SetupPostStartsTheRead := by
  unfold Obligations.SetupPostStartsTheRead
  intro s safe bus free written
  have open' : s.part ≠ .setup → Area.setupPage.Open s := fun h => .inr (.inr (.inr (.inl ⟨rfl, h⟩)))
  have post (v : Word) (h : s.part ≠ .setup) (b : s.path.blocked 0 4 = false) : exec (.setupPost v) s =
      .next (((s.withMem (s.mem.writeBytes 0 (leBytes 4 v.toNat))).watchSetup
        ⟨0, (leBytes 4 v.toNat).map some⟩).endCycle .written) :=
    congrArg _ (hostWrite_word bus free ((by decide : 0 + 4 ≤ 4096).trans (setupPage_fits _))
      (fun i hi => hostArea_setup (by omega)) (open' h) b)
  have read (v : Word) (b : s.path.blocked 0 4 = false) :
      (s.withMem (s.mem.writeBytes 0 (leBytes 4 v.toNat))).readNum 0 4 = v.toNat :=
    readNum_written safe.1 b (word_lt v)
  have quiet (v : Word) (b : s.path.blocked 0 4 = false) (h : s.part ≠ .setup) (zero : v = 0) :
      exec (.setupPost v) s = .next (written v) := by
    rw [post v h b, watchSetup_of_not_posted (by rw [read v b]; simp [zero])]
    rfl
  have loud (v : Word) (b : s.path.blocked 0 4 = false) (nz : v ≠ 0) :
      (0 : Nat) < 4 ∧ (s.withMem (s.mem.writeBytes 0 (leBytes 4 v.toNat))).readNum 0 4 ≠ 0 := by
    rw [read v b]
    exact ⟨by decide, fun h => nz (BitVec.eq_of_toNat_eq h)⟩
  refine ⟨fun v un b => ?_, fun a lanes set h k => ?_, fun v run b => ⟨fun zero => ?_, fun nz => ?_⟩,
    fun a lanes part h k b => ?_⟩
  · by_cases zero : v = 0
    · rw [quiet v b (by simp [un]) zero, if_pos zero, ← un]
    · rw [post v (by simp [un]) b, watchSetup_unconfigured (loud v b zero) (by exact un), if_neg zero]
      rfl
  · have one := oneArea_setup bus free h k
    exact congrArg _ (one.refused (hostSeg_setup one.fits one.hostArea set))
  · exact quiet v b (by simp [run]) zero
  · rw [post v (by simp [run]) b, watchSetup_running (loud v b nz) (by exact run), alreadyRunning_endCycle]
    rfl
  · have one := oneArea_setup bus free h k
    have w : exec (.hostWrite a lanes) s = .next (((s.withMem (s.mem.writeLanes a lanes)).watchSetup
        ⟨a, lanes⟩).endCycle .written) := congrArg _ (one.passes (open' part) b)
    refine ⟨fun no => ?_, fun posts un => ?_, fun posts run => ?_⟩
    · rw [w, watchSetup_of_not_posted (by exact no)]
      rfl
    · rw [w, watchSetup_unconfigured (by exact posts) (by exact un)]
      rfl
    · rw [w, watchSetup_running (by exact posts) (by exact run), alreadyRunning_endCycle]
      rfl

end Sys2Proof.Machine
end

section
/-! SUPPORT. The parts of a host write and their areas (R45, R50 to R52). -/

namespace Sys2Proof.Machine

open Sys2Proof

/-! ## Cutting a host write (R45) -/

/-- Lanes that carry no byte leave page memory as it is. -/
theorem Memory.writeLanes_disabled {m : Memory} {a : Nat} {lanes : List Lane} (h : lanes.filterMap id = []) :
    m.writeLanes a lanes = m := by
  induction lanes generalizing a with
  | nil => rfl
  | cons l t ih =>
    cases l with
    | none => exact ih (by simpa using h)
    | some b => simp at h

/-- Lanes of one area are gathered up to the first lane of another area, where a new part begins. -/
theorem cutSegs_append {f : Nat → Area} {st : Nat} {acc : List Lane} (ha : acc ≠ []) {a : Nat} {front back : List Lane}
    (same : ∀ i, i < front.length → f (a + i) = f st) (hb : back ≠ []) (other : f (a + front.length) ≠ f st) :
    cutSegs f st acc a (front ++ back) =
      ⟨st, acc.reverse ++ front⟩ :: cutSegs f (a + front.length) [] (a + front.length) back := by
  induction front generalizing acc a with
  | nil =>
    cases back with
    | nil => exact absurd rfl hb
    | cons l t =>
      have other' : f a ≠ f st := other
      simp [cutSegs, ha, other']
  | cons l t ih =>
    have here : f a = f st := same 0 (by simp)
    rw [List.cons_append, cutSegs, if_neg ha, if_pos here,
      ih (by simp) (fun i hi => by rw [Nat.add_assoc, Nat.add_comm 1]; exact same (i + 1) (by simpa using hi))
        (by rwa [Nat.add_assoc, Nat.add_comm 1])]
    simp only [List.reverse_cons, List.append_assoc, List.singleton_append, List.length_cons, Nat.add_assoc,
      Nat.add_comm 1]

/-- A write that spans two areas is cut into one part for each. -/
theorem segs_two {s : State} {a : Nat} {front back : List Lane} {x y : Area} (hf : front.filterMap id ≠ [])
    (hb : back.filterMap id ≠ []) (ne : x ≠ y) (first : ∀ i, i < front.length → s.hostArea (a + i) = x)
    (second : ∀ i, i < back.length → s.hostArea (a + front.length + i) = y) :
    s.segs a (front ++ back) = [⟨a, front⟩, ⟨a + front.length, back⟩] := by
  have cut : cutSegs s.hostArea a [] a (front ++ back) = [⟨a, front⟩, ⟨a + front.length, back⟩] := by
    cases front with
    | nil => exact absurd rfl hf
    | cons l t =>
      have hb' : back ≠ [] := by rintro rfl; exact hb rfl
      have start : s.hostArea a = x := first 0 (by simp)
      have shift (i : Nat) : a + 1 + i = a + (i + 1) := by omega
      have next : s.hostArea (a + 1 + t.length) = y := by
        rw [shift]; exact second 0 (List.length_pos_iff.2 hb')
      rw [List.cons_append, cutSegs, if_pos rfl, cutSegs_append (by simp)
        (fun i hi => by rw [start, shift]; exact first (i + 1) (by simpa using hi)) hb'
        (by rw [next, start]; exact ne.symm), shift]
      rw [cutSegs_all s.hostArea y (a + (t.length + 1)) back hb' second]
      rfl
  rw [State.segs, cut]
  refine List.filter_eq_self.2 (List.forall_mem_cons.2
    ⟨decide_eq_true hf, List.forall_mem_cons.2 ⟨decide_eq_true hb, ?_⟩⟩)
  exact List.forall_mem_nil _

/-- Settles O12: a write in one area passes whole (`OneArea.passes`) or is held (`hostSeg_blocked`); one that spans two
areas is cut in two (`segs_two`); and each part goes by its area (the `hostSeg` rules). -/
theorem hostWriteReachesPageMemory : Obligations.HostWriteReachesPageMemory := by
  unfold Obligations.HostWriteReachesPageMemory
  refine ⟨fun s a lanes safe bus inside area => ⟨fun clear free => ?_, fun enabled held => ?_⟩,
    fun s a front back x y bus inside hf hb ne first second => ?_, fun s err => ⟨rfl, fun g rest inside free => ?_⟩⟩
  · refine ⟨s.mem.writeLanes a lanes, ?_, Memory.writeLanes_wf a lanes safe.1, Memory.read_writeLanes safe.1 a lanes⟩
    by_cases none : lanes.filterMap id = []
    · have write : s.hostWrite a lanes = s.endCycle .written := by
        rw [State.hostWrite, if_neg (not_not.2 bus), if_neg (Nat.not_lt.2 inside), s.segs_none .pass a lanes none area]
        rfl
      rw [Memory.writeLanes_disabled none]
      exact congrArg _ write
    · exact congrArg _ (OneArea.passes ⟨bus, free, inside, none, area⟩ (.inl rfl) clear)
  · obtain ⟨one, here⟩ := s.hostWrite_one .pass a lanes enabled bus inside area
    have behind : s.hostSeg ⟨a, lanes⟩ = .behind := by
      cases free : s.stalled .memoryPath with
      | true => exact hostSeg_stalled _ free
      | false => exact hostSeg_blocked ⟨free, inside⟩ (.inl here) (by simpa [free] using held)
    exact congrArg _ (one.trans (runSegs_of_behind behind [] false))
  · have write : s.hostWrite a (front ++ back) = runSegs (s.segs a (front ++ back)) false s := by
      rw [State.hostWrite, if_neg (not_not.2 bus), if_neg (Nat.not_lt.2 inside)]
    exact congrArg _ (write.trans (by rw [segs_two hf hb ne first second]))
  · have fits : g.Fits s := ⟨free, inside⟩
    dsimp only
    have on {t : State} (h : s.hostSeg g = .done t false) : runSegs (g :: rest) err s = runSegs rest err t := by
      rw [runSegs_of_done h, Bool.or_false]
    have off {t : State} (h : s.hostSeg g = .done t true) : runSegs (g :: rest) err s = runSegs rest true t := by
      rw [runSegs_of_done h, Bool.or_true]
    refine ⟨fun o b => runSegs_of_behind (hostSeg_blocked fits o b) rest err, fun o b => ?_,
      fun e h => off (hostSeg_setup fits e h), fun r e => off (hostSeg_guarded fits e),
      fun n e h => off (hostSeg_posted fits e h),
      fun w e => ⟨fun idle => off (hostSeg_refused fits e (windowWrite_idle g idle)),
        fun u h => on (hostSeg_taken fits e h), fun u h => off (hostSeg_refused fits e h),
        fun left u h => runSegs_of_held (hostSeg_held fits e h) rest err⟩⟩
    have passed := on (hostSeg_passes fits o b)
    refine ⟨fun e => ?_, fun e => ?_, fun n e => ?_, fun e => ?_, fun e => ?_⟩ <;>
    · rw [passed, e]
      rfl

/-! ## Refused writes (R51) -/

theorem guardHit_idle {s : State} {g : GuardArea} (h : guardOf s.path.guards g = none) (a : Nat) :
    s.guardHit g a = s.post .memoryPath (.guardHit g a) := by
  rw [State.guardHit, h]

theorem guardHit_pending {s : State} {g : GuardArea} {r : GuardRec} (h : guardOf s.path.guards g = some r) (a : Nat) :
    s.guardHit g a = (s.putGuard g { r with count := min 65535 (r.count + 1) }).issue .memoryPath
      (s.settings.eventBase + 32 * (r.index.toNat % 256) + 1) (leBytes 2 (min 65535 (r.count + 1))) := by
  rw [State.guardHit, h]
  rfl

theorem hostWrite_outside {s : State} {a : Nat} {lanes : List Lane} (bus : s.path.bus = .free)
    (free : s.stalled .memoryPath = false) (past : memBytes s.memSize < a + lanes.length) :
    s.hostWrite a lanes =
      (if s.part = .running then s.guardHit .outside a else s).endCycle .busError := by
  rw [State.hostWrite, if_neg (not_not.2 bus), if_pos past, runSegs_of_done (hostSeg_outside free past)]
  rfl

/-! ## The areas (R45, R50, R52) -/

theorem inRun_iff {a b n : Nat} : inRun a b n = true ↔ b ≤ a ∧ a < b + n := decide_eq_true_iff

/-- The areas above the Setup Page in their order. -/
theorem State.area_above {s : State} {a : Nat} (h : 4096 ≤ a) : s.area a =
    if inRun a s.store.base (s.store.blockCount * 2048) then .guarded .pool
    else if inRun a s.settings.eventBase 8192 then .guarded .eventRing
    else if inRun a s.meter.logBase (s.meter.logSize * 64) then .guarded .chargeLog
    else if inRun a s.settings.controlBase 4096 then controlArea (a - s.settings.controlBase)
    else s.path.regionArea a := if_neg (Nat.not_lt.2 h)

theorem controlArea_slot {o n : Nat} (hn : n < 32) (h : 64 * n ≤ o) (k : o < 64 * n + 64) : controlArea o = .slot n :=
    by
  rw [controlArea, if_pos (by omega), show o / 64 = n by omega]

theorem controlArea_guarded {o : Nat} (h : 0x800 ≤ o) (k : o < 0x814) : controlArea o = .guarded .controlWord := by
  rw [controlArea, if_neg (by omega), if_pos k]

theorem controlArea_eventConsumer {o : Nat} (h : 0x840 ≤ o) (k : o < 0x844) : controlArea o = .eventConsumer := by
  rw [controlArea, if_neg (by omega), if_neg (by omega), if_pos (inRun_iff.2 ⟨h, k⟩)]

theorem controlArea_chargeConsumer {o : Nat} (h : 0x844 ≤ o) (k : o < 0x848) : controlArea o = .chargeConsumer := by
  rw [controlArea, if_neg (by omega), if_neg (by omega), if_neg (fun x => absurd (inRun_iff.1 x).2 (by omega)),
    if_pos (inRun_iff.2 ⟨h, k⟩)]

theorem controlArea_pass {o : Nat} (h : (0x814 ≤ o ∧ o < 0x840) ∨ 0x848 ≤ o) : controlArea o = .pass := by
  rw [controlArea, if_neg (by omega), if_neg (by omega), if_neg (fun x => by have := inRun_iff.1 x; omega),
    if_neg (fun x => by have := inRun_iff.1 x; omega)]

theorem hostArea_of_running {s : State} (run : s.part = .running) (a : Nat) : s.hostArea a = s.area a := if_pos run

/-- The one member of a list with a property is the first with it. -/
theorem find?_of_unique {α : Type} {l : List α} {p : α → Bool} {x : α} (mem : x ∈ l) (hx : p x = true)
    (only : ∀ y ∈ l, p y = true → y = x) : l.find? p = some x := by
  cases h : l.find? p with
  | none => exact absurd hx (List.find?_eq_none.1 h x mem)
  | some y => rw [only y (List.mem_of_find?_eq_some h) (List.find?_some h)]

theorem tget_of_rising {α : Type} {t : Table α} (rising : (t.map (fun x => x.1)).Pairwise (fun m n => m < n))
    {i : Nat} {r : α} (h : (i, r) ∈ t) : tget t i = some r := by
  induction t with
  | nil => cases h
  | cons x t ih =>
    obtain ⟨above, rest⟩ := List.pairwise_cons.1 rising
    obtain rfl | h := List.mem_cons.1 h
    · exact if_pos rfl
    · have : x.1 < i := above i (List.mem_map.2 ⟨(i, r), h, rfl⟩)
      exact (if_neg (by omega)).trans (ih rest h)

/-- A member of a rising list with none below it is the first. -/
theorem first_of_least {l : List Nat} (rising : l.Pairwise (fun m n => m < n)) {i : Nat} (mem : i ∈ l)
    (least : ∀ j ∈ l, ¬ j < i) : l[0]? = some i := by
  cases l with
  | nil => cases mem
  | cons a t =>
    obtain rfl | h := List.mem_cons.1 mem
    · rfl
    · exact absurd ((List.pairwise_cons.1 rising).1 i h) (least a List.mem_cons_self)

/-- A member of a rising list with one below it stands behind that one. -/
theorem second_of_one_below {l : List Nat} (rising : l.Pairwise (fun m n => m < n)) {i j : Nat} (mem : i ∈ l)
    (hj : j ∈ l) (below : j < i) (only : ∀ k ∈ l, k < i → k = j) : l[0]? = some j ∧ l[1]? = some i := by
  cases l with
  | nil => cases mem
  | cons a t =>
    obtain ⟨above, rest⟩ := List.pairwise_cons.1 rising
    have first : a ≤ j := by
      obtain rfl | h := List.mem_cons.1 hj
      · exact Nat.le_refl _
      · exact Nat.le_of_lt (above j h)
    obtain rfl : a = j := only a List.mem_cons_self (by omega)
    have inRest : i ∈ t := (List.mem_cons.1 mem).resolve_left (by omega)
    refine ⟨rfl, first_of_least rest inRest (fun k hk lt => ?_)⟩
    have := above k hk
    have := only k (List.mem_cons_of_mem _ hk) lt
    omega

theorem mem_rasters {p : MemPath} {j : Nat} :
    j ∈ p.rasters ↔ ∃ q, (j, q) ∈ p.regions ∧ q.treatment = .raster := by
  simp [MemPath.rasters]

theorem rasters_rising {p : MemPath} (rising : (p.regions.map (fun x => x.1)).Pairwise (fun m n => m < n)) :
    p.rasters.Pairwise (fun m n => m < n) :=
  rising.sublist (List.filter_sublist.map _)

theorem windowRegion_of_place {p : MemPath} (rising : (p.regions.map (fun x => x.1)).Pairwise (fun m n => m < n))
    {i : Nat} {r : Region} (h : (i, r) ∈ p.regions) {w : WindowId} (place : p.rasters[windowNum w]? = some i) :
    p.windowRegion w = some r := by
  rw [MemPath.windowRegion, place]
  exact tget_of_rising rising h

section Regions

variable {p : MemPath} {a i : Nat} {r : Region} (mem : (i, r) ∈ p.regions) (covers : r.base ≤ a ∧ a < r.base + r.size)
  (only : ∀ x ∈ p.regions, x.2.base ≤ a ∧ a < x.2.base + x.2.size → x = (i, r))

include mem covers only

theorem regionArea_found : p.regions.find? (fun x => inRun a x.2.base x.2.size) = some (i, r) :=
  find?_of_unique mem (decide_eq_true covers) (fun x hx h => only x hx (of_decide_eq_true h))

theorem regionArea_pass (h : r.treatment = .pass) : p.regionArea a = .pass := by
  rw [MemPath.regionArea, regionArea_found mem covers only]
  simp [h]

theorem regionArea_guard (h : r.treatment = .guard) : p.regionArea a = .guarded (.region i) := by
  rw [MemPath.regionArea, regionArea_found mem covers only]
  simp [h]

theorem regionArea_raster (h : r.treatment = .raster) :
    p.regionArea a = if p.rasters[0]? = some i then .window .w0 else .window .w1 := by
  rw [MemPath.regionArea, regionArea_found mem covers only]
  simp [h]

end Regions

theorem regionArea_none {p : MemPath} {a : Nat}
    (h : ∀ x ∈ p.regions, ¬ (x.2.base ≤ a ∧ a < x.2.base + x.2.size)) : p.regionArea a = .pass := by
  have none : p.regions.find? (fun x => inRun a x.2.base x.2.size) = none :=
    List.find?_eq_none.2 (fun x hx k => h x hx (of_decide_eq_true k))
  rw [MemPath.regionArea, none]

/-- Settles O13: a refused part ends the cycle with a bus error (`OneArea.refused`, `hostWrite_outside`) and goes to its
area's guard-hit record (`guardHit_idle`, `guardHit_pending`); the areas are read off in the order of `State.area`. -/
theorem guardedHostWriteIsRefused : Obligations.GuardedHostWriteIsRefused := by
  unfold Obligations.GuardedHostWriteIsRefused
  refine ⟨fun s a lanes bus free => ⟨fun g met => ?_, fun part past => ?_⟩, fun s a => ?_⟩
  · have refused : s.hostWrite a lanes = (s.guardHit g a).endCycle .busError := by
      obtain ⟨rfl, run, past⟩ | ⟨inside, enabled, area⟩ | ⟨rfl, n, posted, inside, enabled, area⟩
        | ⟨w, rfl, idle, inside, enabled, area⟩ := met
      · rw [hostWrite_outside bus free past, if_pos run]
      · have one : OneArea s a lanes (.guarded g) := ⟨bus, free, inside, enabled, area⟩
        exact one.refused (hostSeg_guarded one.fits one.hostArea)
      · have one : OneArea s a lanes (.slot n) := ⟨bus, free, inside, enabled, area⟩
        exact one.refused (hostSeg_posted one.fits one.hostArea posted)
      · have one : OneArea s a lanes (.window w) := ⟨bus, free, inside, enabled, area⟩
        exact one.refused (hostSeg_refused one.fits one.hostArea (windowWrite_idle _ idle))
    refine ⟨fun idle => congrArg _ (refused.trans ?_), fun r pending => congrArg _ (refused.trans ?_)⟩
    · rw [guardHit_idle idle]
      rfl
    · rw [guardHit_pending pending]
      rfl
  · refine congrArg _ ((hostWrite_outside bus free past).trans ?_)
    rw [if_neg part]
    rfl
  · refine ⟨hostArea_setup, fun high part => ?_, fun high run => ?_⟩
    · rw [State.hostArea, if_neg part, if_neg (by omega)]
    · rw [hostArea_of_running run, State.area_above high]
      simp only [inRun_iff]
      refine ⟨fun pool => if_pos pool, fun pool ring => ?_, fun pool ring log => ?_, fun pool ring log page => ?_,
        fun pool ring log page => ?_⟩
      · rw [if_neg pool, if_pos ring]
      · rw [if_neg pool, if_neg ring, if_pos log]
      · rw [if_neg pool, if_neg ring, if_neg log, if_pos page]
        exact ⟨fun n => controlArea_slot, controlArea_guarded, controlArea_eventConsumer, controlArea_chargeConsumer,
          controlArea_pass⟩
      · rw [if_neg pool, if_neg ring, if_neg log, if_neg page]
        refine ⟨fun none => regionArea_none none, fun i r mem covers only rising => ⟨fun h => ?_, fun h => ?_,
          fun h least => ?_, fun j h below one => ?_⟩⟩
        · exact regionArea_pass mem covers only h
        · exact regionArea_guard mem covers only h
        · have first : s.path.rasters[0]? = some i := first_of_least (rasters_rising rising) (mem_rasters.2 ⟨r, mem, h⟩)
            (fun j hj lt => by
              obtain ⟨q, hq, raster⟩ := mem_rasters.1 hj
              exact least j ⟨q, hq, raster, lt⟩)
          rw [regionArea_raster mem covers only h, if_pos first]
          exact ⟨rfl, windowRegion_of_place rising mem first⟩
        · obtain ⟨q, hq, raster, lt⟩ := below
          obtain ⟨first, second⟩ := second_of_one_below (rasters_rising rising) (mem_rasters.2 ⟨r, mem, h⟩)
            (mem_rasters.2 ⟨q, hq, raster⟩) lt (fun k hk lt => by
              obtain ⟨q, hq, raster⟩ := mem_rasters.1 hk
              exact one k ⟨q, hq, raster, lt⟩)
          rw [regionArea_raster mem covers only h, if_neg (by rw [first]; simp; omega)]
          exact ⟨rfl, windowRegion_of_place rising mem second⟩

end Sys2Proof.Machine
end

section
/-! SUPPORT. Host writes of an order slot and of the two consumer words (R52, R66, R67, R81, R192). -/

namespace Sys2Proof.Machine

open Sys2Proof

/-! ## Numbers read -/

theorem leValue_lt (bs : List Byte) : leValue bs < 256 ^ bs.length := by
  induction bs with
  | nil => decide
  | cons b bs ih =>
    have := b.isLt
    rw [leValue, List.length_cons, pow_succ]
    omega

@[simp] theorem State.readThrough_length (s : State) (a n : Nat) : (s.readThrough a n).length = n := by
  induction n generalizing a with
  | zero => rfl
  | succ n ih => simp [State.readThrough, ih]

theorem readNum_lt (s : State) (a n : Nat) : s.readNum a n < 256 ^ n := by
  simpa [State.readNum] using leValue_lt (s.readThrough a n)

/-- A number of four bytes is the value of its word. -/
theorem toNat_readWord (s : State) (a : Nat) : (BitVec.ofNat 32 (s.readNum a 4)).toNat = s.readNum a 4 :=
  Nat.mod_eq_of_lt (readNum_lt s a 4)

theorem readWord_eq_zero (s : State) (a : Nat) : BitVec.ofNat 32 (s.readNum a 4) = 0 ↔ s.readNum a 4 = 0 := by
  rw [← BitVec.toNat_inj, toNat_readWord]
  rfl

theorem readWord_written {s : State} {a : Nat} (v : Word) (w : s.mem.wf = true) (b : s.path.blocked a 4 = false) :
    BitVec.ofNat 32 ((s.withMem (s.mem.writeBytes a (leBytes 4 v.toNat))).readNum a 4) = v := by
  rw [readNum_written w b (word_lt v)]
  exact BitVec.ofNat_toNat _ _

/-! ## Order slots (R52, R67) -/

theorem slotAddr_eq (s : State) (n : Nat) : s.slotAddr n = s.settings.controlBase + 64 * n := by
  rw [Nat.mul_comm]
  rfl

/-- The take starts with the write of the order-taken word, and the slot read is under way (R67). -/
theorem State.startTake_eq (s : State) : s.startTake = { s with
    intake := { s.intake with take := .reading },
    path := s.path.issue .orderIntake (s.settings.controlBase + 0x800)
      (leBytes 4 (s.slotSeq s.intake.expected).toNat) none } := by
  simp only [State.startTake, State.issue, State.controlWord]

theorem mem_insertNum_self (n : Nat) (l : List Nat) : n ∈ insertNum n l := by
  induction l with
  | nil => exact List.mem_singleton_self n
  | cons k t ih =>
    unfold insertNum
    split
    · exact List.mem_cons_self
    · split
      · next h => exact h ▸ List.mem_cons_self
      · exact List.mem_cons_of_mem _ ih

/-- The Order Intake waits for a slot, and no write of it waits for room (R61, R67). -/
def State.AwaitsSlot (s : State) (n : Nat) : Prop :=
  s.intake.take = .waiting ∧ s.intake.expected = n ∧ s.stalled .orderIntake = false

/-- The slot's posted flag is set (R66). -/
def State.postSlot (s : State) (n : Nat) : State :=
  { s with path := { s.path with posted := insertNum n s.path.posted } }

theorem watchSlot_unposted {s : State} {n : Nat} (h : s.readNum (s.slotAddr n + 4) 4 = 0) : s.watchSlot n = s :=
  if_neg (not_not.2 h)

theorem watchSlot_posted {s : State} {n : Nat} (h : s.readNum (s.slotAddr n + 4) 4 ≠ 0) (k : ¬ s.AwaitsSlot n) :
    s.watchSlot n = s.postSlot n := by
  rw [State.watchSlot, if_pos h, State.slotPosted]
  split
  · next e =>
    refine if_neg (fun begins => k ?_)
    obtain ⟨waiting, -, free⟩ := begins
    exact ⟨waiting, e, free⟩
  · rfl

theorem watchSlot_starts {s : State} {n : Nat} (h : s.readNum (s.slotAddr n + 4) 4 ≠ 0) (k : s.AwaitsSlot n) :
    s.watchSlot n = (s.postSlot n).startTake := by
  obtain ⟨waiting, e, free⟩ := k
  have posted : s.intake.expected ∈ insertNum n s.path.posted := e ▸ mem_insertNum_self _ _
  rw [State.watchSlot, if_pos h, State.slotPosted, if_pos (by exact e)]
  exact if_pos ⟨waiting, posted, free⟩

/-- A take that starts as a host cycle ends issues the sequence number that the slot holds. -/
theorem endCycle_startTake {s : State} {n : Nat} (e : s.intake.expected = n) (r : BusResult) :
    (s.startTake).endCycle r = { s.endCycle r with
      intake := { s.intake with take := .reading },
      path := (s.endCycle r).path.issue .orderIntake (s.settings.controlBase + 0x800)
        (leBytes 4 (s.readNum (s.slotAddr n + 4) 4)) none } := by
  subst e
  rw [State.startTake_eq, ← toNat_readWord]
  exact congrArg (fun p => ({ s with intake := { s.intake with take := .reading }, path := p } : State))
    (MemPath.issue_withBus s.path .free r _ _ _ _).symm

/-- Settles O14: the slot's area is open while it is not posted (`OneArea.passes`), and what the post word holds then
decides (`watchSlot_unposted`, `watchSlot_posted`, `watchSlot_starts`). -/
theorem orderSlotPostStartsTheTake : Obligations.OrderSlotPostStartsTheTake := by
  unfold Obligations.OrderSlotPostStartsTheTake
  refine ⟨fun s n q safe run bus free nz inside area posted b => ?_,
    fun s n a lanes run bus free inside enabled area posted b => ?_⟩
  · have write : exec (.orderSlotPost n q) s = .next (((s.withMem
      (s.mem.writeBytes (s.slotAddr n.val + 4) (leBytes 4 q.toNat))).watchSlot n.val).endCycle .written) := by
      have o : (Area.slot n.val).Open s := .inr (.inr (.inr (.inr ⟨_, rfl, posted⟩)))
      exact congrArg _ ((if_pos run).trans (hostWrite_word bus free inside area o b))
    have read := readNum_written (s := s) safe.1 b (word_lt q)
    have nonzero : (s.withMem (s.mem.writeBytes (s.slotAddr n.val + 4) (leBytes 4 q.toNat))).readNum
        (s.slotAddr n.val + 4) 4 ≠ 0 := by
      rw [read]
      exact fun h => nz (BitVec.eq_of_toNat_eq h)
    dsimp only
    generalize s.mem.writeBytes (s.slotAddr n.val + 4) (leBytes 4 q.toNat) = m at write read nonzero ⊢
    refine ⟨fun waiting e idle => ?_, fun no => ?_⟩
    · rw [write, watchSlot_starts (s := s.withMem m) nonzero ⟨waiting, e, idle⟩,
        endCycle_startTake (n := n.val) (by exact e)]
      rw [← read]
      rfl
    · rw [write, watchSlot_posted (s := s.withMem m) nonzero (fun k => ?_)]
      · rfl
      · obtain ⟨waiting, e, idle⟩ := k
        obtain h | h | h := no
        · exact h waiting
        · exact h e
        · exact Bool.false_ne_true (idle.symm.trans h)
  · have one : OneArea s a lanes (.slot n) := ⟨bus, free, inside, enabled, area⟩
    have write : exec (.hostWrite a lanes) s = .next
        (((s.withMem (s.mem.writeLanes a lanes)).watchSlot n).endCycle .written) :=
      congrArg _ (one.passes (.inr (.inr (.inr (.inr ⟨_, rfl, posted⟩)))) b)
    dsimp only
    rw [← slotAddr_eq]
    have zero := readWord_eq_zero (s.withMem (s.mem.writeLanes a lanes)) (s.slotAddr n + 4)
    refine ⟨fun h => ?_, fun h k => ?_, fun h k => ?_⟩
    · rw [write, watchSlot_unposted (by exact zero.1 h)]
      rfl
    · rw [write, watchSlot_posted (s := s.withMem _) (by exact fun e => h (zero.2 e)) (by exact k)]
      rfl
    · rw [write, watchSlot_starts (s := s.withMem _) (by exact fun e => h (zero.2 e)) (by exact k),
        endCycle_startTake (n := n) (by exact k.2.1),
        toNat_readWord]
      rfl

/-! ## The Event Ring consumer word (R81) -/

section EventConsumer

variable {s : State} {v : Word}

theorem giveReporter_waits (h : s.stalled .eventReporter = true ∨ s.reporter.given ≠ []) :
    s.giveReporter v = { s with reporter := { s.reporter with given := s.reporter.given ++ [v] } } := if_pos h

theorem giveReporter_takes (h : ¬ (s.stalled .eventReporter = true ∨ s.reporter.given ≠ [])) :
    s.giveReporter v = s.takeEventConsumer v := if_neg h

theorem takeEventConsumer_outside (h : 256 < (s.reporter.producer - v).toNat) : s.takeEventConsumer v = s := if_pos h

/-- The reporter and the guard-hit records after an index in range has been taken (R51, R81). -/
theorem takeEventConsumer_inside (h : (s.reporter.producer - v).toNat ≤ 256) (k : v ≠ s.reporter.producer) :
    s.takeEventConsumer v = { s with
      reporter := { s.reporter with consumer := v, holdOff := decide (0 < s.settings.holdOffMs) },
      path := { s.path with guards := s.path.guards.filter (fun y =>
        (s.reporter.producer - y.2.index).toNat ≤ (s.reporter.producer - v).toNat) } } := by
  simp only [State.takeEventConsumer, Config.ringRecords, if_neg (Nat.not_lt.2 h), if_neg k]
  rfl

theorem takeEventConsumer_empty (h : v = s.reporter.producer) :
    s.takeEventConsumer v = { s with
      reporter := { s.reporter with consumer := v, holdOff := decide (0 < s.settings.holdOffMs), missed := 0 },
      path := MemPath.issue { s.path with guards := s.path.guards.filter (fun y =>
        (s.reporter.producer - y.2.index).toNat ≤ (s.reporter.producer - v).toNat) } .eventReporter
          (s.controlWord 0x808) [0, 0, 0, 0] none } := by
  have zero : ¬ 256 < (s.reporter.producer - v).toNat := by rw [h, BitVec.sub_self]; decide
  simp only [State.takeEventConsumer, State.writeMissed, State.issue, Config.ringRecords, if_neg zero, if_pos h]
  rfl

end EventConsumer

/-- Settles O15: the word's area is open (`hostWrite_word`), and the value is given to the Event Reporter or judged by
the ring's range (the `takeEventConsumer` rules). -/
theorem eventConsumerWriteIsJudged : Obligations.EventConsumerWriteIsJudged := by
  unfold Obligations.EventConsumerWriteIsJudged
  intro s v safe run bus free inside area b
  have write : exec (.eventConsumerWrite v) s = .next (((s.withMem
    (s.mem.writeBytes (s.controlWord 0x840) (leBytes 4 v.toNat))).giveReporter v).endCycle .written) := by
    have word := hostWrite_word (v := v.toNat) bus free inside area (.inr (.inl rfl)) b
    refine congrArg _ ((if_pos run).trans (word.trans ?_))
    have read := readWord_written v safe.1 b
    exact congrArg (fun x => (State.giveReporter _ x).endCycle .written) read
  dsimp only
  generalize s.mem.writeBytes (s.controlWord 0x840) (leBytes 4 v.toNat) = m at write ⊢
  refine ⟨fun waits => ?_, fun ready outside => ?_, fun ready inside ne => ?_, fun ready e => ?_⟩
  · rw [write, giveReporter_waits (s := s.withMem m) waits]
    rfl
  · rw [write, giveReporter_takes (s := s.withMem m) ready, takeEventConsumer_outside (s := s.withMem m) outside]
    rfl
  · rw [write, giveReporter_takes (s := s.withMem m) ready, takeEventConsumer_inside (s := s.withMem m) inside ne]
    rfl
  · rw [write, giveReporter_takes (s := s.withMem m) ready, takeEventConsumer_empty (s := s.withMem m) e]
    exact congrArg (fun p => Host.Outcome.next ({ s with
      mem := _,
      reporter := { s.reporter with
        consumer := v, holdOff := decide (0 < s.settings.holdOffMs), missed := 0 },
      path := p } : State)) (MemPath.issue_withBus _ .free .written _ _ _ _).symm

/-! ## The Charge Log consumer word (R192) -/

theorem drainOverflow_keeps (l : List ChargeRecord) (s : State) :
    (drainOverflow l s).meter.consumer = s.meter.consumer ∧ (drainOverflow l s).meter.logSize = s.meter.logSize := by
  induction l generalizing s with
  | nil => exact ⟨rfl, rfl⟩
  | cons c l ih =>
    unfold drainOverflow
    split
    · exact ih (s.writeCharge c)
    · exact ⟨rfl, rfl⟩

section ChargeConsumer

variable {s : State} {v : Word}

theorem meterWaits_iff : s.meterWaits = true ↔ s.stalled .meter = true ∨ s.meter.work ≠ [] := by
  simp [State.meterWaits]

theorem giveConsumer_waits (h : s.stalled .meter = true ∨ s.meter.work ≠ []) :
    s.giveConsumer v = s.giveMeter (.consumer v) := if_pos (meterWaits_iff.2 h)

theorem giveConsumer_takes (h : ¬ (s.stalled .meter = true ∨ s.meter.work ≠ [])) :
    s.giveConsumer v = s.takeChargeConsumer v := if_neg (fun k => h (meterWaits_iff.1 k))

theorem takeChargeConsumer_outside (h : s.meter.logSize < (s.meter.producer - v).toNat) : s.takeChargeConsumer v = s :=
  if_pos h

/-- The records that move into the log, and then the arbiter's passes where it has room left (R142, R192). -/
theorem takeChargeConsumer_inside (h : (s.meter.producer - v).toNat ≤ s.meter.logSize) :
    s.takeChargeConsumer v =
      let t := drainOverflow s.meter.overflow { s with meter := { s.meter with consumer := v } }
      if (t.meter.producer - v).toNat < s.meter.logSize ∧ t.meter.overflow = [] then t.arbiterPasses else t := by
  obtain ⟨consumer, size⟩ := drainOverflow_keeps s.meter.overflow { s with meter := { s.meter with consumer := v } }
  rw [State.takeChargeConsumer, if_neg (Nat.not_lt.2 h)]
  simp only [Meter.logRoom, Meter.unread, consumer, size, decide_eq_true_eq]

end ChargeConsumer

/-- Settles O16: the word's area is open (`hostWrite_word`), and the value is given to the Meter or judged by the log's
range (the `takeChargeConsumer` rules). -/
theorem chargeConsumerWriteIsJudged : Obligations.ChargeConsumerWriteIsJudged := by
  unfold Obligations.ChargeConsumerWriteIsJudged
  refine ⟨fun s v safe run bus free inside area b => ?_, fun s => ⟨rfl, fun c l => ⟨fun room => ?_, fun full => ?_⟩⟩⟩
  · have write : exec (.chargeLogConsumerWrite v) s = .next (((s.withMem
      (s.mem.writeBytes (s.controlWord 0x844) (leBytes 4 v.toNat))).giveConsumer v).endCycle .written) := by
      have word := hostWrite_word (v := v.toNat) bus free inside area (.inr (.inr (.inl rfl))) b
      refine congrArg _ ((if_pos run).trans (word.trans ?_))
      have read := readWord_written v safe.1 b
      exact congrArg (fun x => (State.giveConsumer _ x).endCycle .written) read
    dsimp only
    generalize s.mem.writeBytes (s.controlWord 0x844) (leBytes 4 v.toNat) = m at write ⊢
    have takes (h : ¬ (s.stalled .meter = true ∨ s.meter.work ≠ [])) : exec (.chargeLogConsumerWrite v) s = .next
        (((s.withMem m).takeChargeConsumer v).endCycle .written) := by
      rw [write, giveConsumer_takes (s := s.withMem m) h]
    refine ⟨fun waits => ?_, fun ready outside => ?_, fun ready inside room => ?_, fun ready inside full => ?_⟩
    · rw [write, giveConsumer_waits (s := s.withMem m) waits]
      rfl
    · rw [takes ready, takeChargeConsumer_outside (s := s.withMem m) outside]
      rfl
    · rw [takes ready, takeChargeConsumer_inside (s := s.withMem m) inside]
      exact congrArg (fun t => Host.Outcome.next (State.endCycle t .written)) (if_pos room)
    · rw [takes ready, takeChargeConsumer_inside (s := s.withMem m) inside]
      exact congrArg (fun t => Host.Outcome.next (State.endCycle t .written)) (if_neg full)
  · have free : s.meter.logRoom = true := decide_eq_true room
    rw [drainOverflow, if_pos free]
    rfl
  · have none : ¬ s.meter.logRoom = true := fun room => Nat.not_lt.2 full (of_decide_eq_true room)
    rw [drainOverflow, if_neg none]

end Sys2Proof.Machine
end

section
/-! SUPPORT. Writes to a raster window, and the hold timeout (R55 to R59). -/

namespace Sys2Proof.Machine

open Sys2Proof

/-! ## Windows -/

theorem modWindow_modWindow (s : State) (w : WindowId) (f g : Window → Window) :
    (s.modWindow w f).modWindow w g = s.modWindow w (fun y => g (f y)) := by
  cases w <;> rfl

theorem modWindow_congr {s : State} {w : WindowId} {f g : Window → Window} (h : f (s.window w) = g (s.window w)) :
    s.modWindow w f = s.modWindow w g := by
  unfold State.window at h
  unfold State.modWindow
  rw [h]

theorem modWindow_self {s : State} {w : WindowId} {f : Window → Window} (h : f (s.window w) = s.window w) :
    s.modWindow w f = s := by
  rw [modWindow_congr (g := id) h]
  cases w <;> rfl

@[simp] theorem window_modWindow_same (s : State) (w : WindowId) (f : Window → Window) :
    (s.modWindow w f).window w = f (s.window w) := by
  rw [State.window_modWindow, if_pos rfl]

theorem Window.opened_eq {x : Window} (h : x.state = .opened) : { x with state := .opened } = x := by
  rw [← h]

@[simp] theorem Window.slot_setSlot_same (x : Window) (i : SlotId) (t : Slot) : (x.setSlot i t).slot i = t := by
  cases i <;> rfl

@[simp] theorem Window.slot_setSlot_other (x : Window) (i : SlotId) (t : Slot) :
    (x.setSlot i t).slot (otherSlot i) = x.slot (otherSlot i) := by
  cases i <;> rfl

@[simp] theorem Window.setSlot_setSlot (x : Window) (i : SlotId) (t u : Slot) :
    (x.setSlot i t).setSlot i u = x.setSlot i u := by
  cases i <;> rfl

@[simp] theorem Window.setSlot_next (x : Window) (i : SlotId) (t : Slot) : (x.setSlot i t).next = x.next := by
  cases i <;> rfl

@[simp] theorem Window.setSlot_state (x : Window) (i : SlotId) (t : Slot) : (x.setSlot i t).state = x.state := by
  cases i <;> rfl

@[simp] theorem Window.setSlot_mode (x : Window) (i : SlotId) (t : Slot) : (x.setSlot i t).mode = x.mode := by
  cases i <;> rfl

@[simp] theorem Window.slot_withState (x : Window) (v : WindowState) (i : SlotId) :
    ({ x with state := v } : Window).slot i = x.slot i := by
  cases i <;> rfl

@[simp] theorem Window.setSlot_lineBytes (x : Window) (i : SlotId) (t : Slot) :
    (x.setSlot i t).lineBytes = x.lineBytes := by
  cases i <;> rfl

@[simp] theorem Window.setSlot_linesExpected (x : Window) (i : SlotId) (t : Slot) :
    (x.setSlot i t).linesExpected = x.linesExpected := by
  cases i <;> rfl

@[simp] theorem Window.setSlot_linesRemaining (x : Window) (i : SlotId) (t : Slot) :
    (x.setSlot i t).linesRemaining = x.linesRemaining := by
  cases i <;> rfl

/-! ## FIXED windows (R55) -/

/-- A slot that takes bytes. -/
def Slot.Takes (t : Slot) : Prop := t.state = .empty ∨ t.state = .filling

theorem Slot.Takes.not_busy {t : Slot} (h : t.Takes) : ¬ (t.state = .complete ∨ t.state = .coding) := by
  rintro (e | e) <;> · rw [Slot.Takes, e] at h; simp at h

/-- The slot being filled holds these bytes. -/
def State.fillSlot (s : State) (w : WindowId) (l : List Byte) : State :=
  s.modWindow w (fun y => y.setSlot y.next { state := .filling, bytes := l, marks := [] })

theorem fillSlot_fillSlot (s : State) (w : WindowId) (k l : List Byte) :
    (s.fillSlot w k).fillSlot w l = s.fillSlot w l := by
  unfold State.fillSlot
  rw [modWindow_modWindow]
  exact modWindow_congr (by simp)

@[simp] theorem window_fillSlot (s : State) (w : WindowId) (l : List Byte) : (s.fillSlot w l).window w =
    (s.window w).setSlot (s.window w).next { state := .filling, bytes := l, marks := [] } := by
  simp [State.fillSlot]

/-- The window after a slot's line has been handed (R55, R57). -/
def Window.handed (x : Window) (i : SlotId) : Window :=
  { x.setSlot i { state := .coding, bytes := fitBytes x.lineBytes (x.slot i).bytes, marks := [] } with
    next := otherSlot i, linesHanded := satAdd Config.max32 x.linesHanded 1,
    linesRemaining := if x.linesExpected = 0 then x.linesRemaining else x.linesRemaining - 1 }

@[simp] theorem window_modSource (s : State) (i : SourceId) (f : Source → Source) (w : WindowId) :
    (s.modSource i f).window w = s.window w := by
  cases i <;> rfl

theorem window_endWindowPage (s : State) (w : WindowId) :
    (s.endWindowPage w).window w = { s.window w with sealPending := true, state := .idle } := by
  simp [State.endWindowPage]

/-- A counted page's last line ends the page; any other line leaves the window as it was (R57). -/
theorem window_handSlot (s : State) (w : WindowId) (i : SlotId) : (s.handSlot w i).window w =
    if (s.window w).linesExpected ≠ 0 ∧ (s.window w).linesRemaining ≤ 1 then
      { (s.window w).handed i with sealPending := true, state := .idle }
    else (s.window w).handed i := by
  unfold State.handSlot
  dsimp only
  split
  · rw [window_endWindowPage, window_modSource, window_modWindow_same]
    rfl
  · rw [window_modSource, window_modWindow_same]
    rfl

@[simp] theorem Window.handed_slot_other (x : Window) (i : SlotId) :
    (x.handed i).slot (otherSlot i) = x.slot (otherSlot i) := by
  cases i <;> rfl

@[simp] theorem Window.handed_next (x : Window) (i : SlotId) : (x.handed i).next = otherSlot i := rfl

@[simp] theorem Window.handed_state (x : Window) (i : SlotId) : (x.handed i).state = x.state := x.setSlot_state i _

@[simp] theorem Window.handed_lineBytes (x : Window) (i : SlotId) : (x.handed i).lineBytes = x.lineBytes :=
  x.setSlot_lineBytes i _

/-- The line that is handed is a counted page's last one (R57). -/
def Window.LastLine (x : Window) : Prop := x.linesExpected ≠ 0 ∧ x.linesRemaining ≤ 1

theorem window_filled_last {s : State} {w : WindowId} (l : List Byte) (h : (s.window w).LastLine) :
    (((s.fillSlot w l).handSlot w (s.window w).next).window w).state = .idle := by
  rw [window_handSlot, if_pos (by simpa [Window.LastLine] using h)]

theorem window_filled {s : State} {w : WindowId} (l : List Byte) (h : ¬ (s.window w).LastLine) :
    ((s.fillSlot w l).handSlot w (s.window w).next).window w =
      ((s.window w).setSlot (s.window w).next { state := .filling, bytes := l, marks := [] }).handed
        (s.window w).next := by
  rw [window_handSlot, if_neg (by simpa [Window.LastLine] using h), window_fillSlot]

section Fixed

variable {s : State} {w : WindowId} {a : Nat}

theorem placeFixed_idle {b : Byte} {l : List Byte} (h : (s.window w).state = .idle) :
    placeFixed w a (b :: l) s = .refused (s.guardHit (.window w) a) := by
  simp [placeFixed, h]

theorem placeFixed_busy {l : List Byte} (h : (s.window w).state ≠ .idle) (hl : l ≠ [])
    (busy : ((s.window w).slot (s.window w).next).state = .complete
      ∨ ((s.window w).slot (s.window w).next).state = .coding) :
    placeFixed w a l s = .held ⟨a, l.map some⟩ (s.modWindow w (fun y => { y with state := .holding })) := by
  cases l with
  | nil => exact absurd rfl hl
  | cons b t => simp only [placeFixed, if_neg h, if_pos busy]

/-- One byte goes behind those in the slot; the byte that completes the line hands the slot (R55). -/
theorem placeFixed_cons {b : Byte} {l : List Byte} (h : (s.window w).state ≠ .idle)
    (takes : ((s.window w).slot (s.window w).next).Takes) :
    placeFixed w a (b :: l) s = placeFixed w a l
      (if (s.window w).lineBytes ≤ ((s.window w).slot (s.window w).next).bytes.length + 1 then
        (s.fillSlot w (((s.window w).slot (s.window w).next).bytes ++ [b])).handSlot w (s.window w).next
       else s.fillSlot w (((s.window w).slot (s.window w).next).bytes ++ [b])) := by
  simp only [placeFixed, if_neg h, if_neg takes.not_busy, List.length_append, List.length_singleton]
  rfl

/-- Bytes that do not complete the line stay in the slot. -/
theorem placeFixed_short {l : List Byte} (h : (s.window w).state ≠ .idle)
    (takes : ((s.window w).slot (s.window w).next).Takes) (hl : l ≠ [])
    (short : (((s.window w).slot (s.window w).next).bytes ++ l).length < (s.window w).lineBytes) :
    placeFixed w a l s = .taken (s.fillSlot w (((s.window w).slot (s.window w).next).bytes ++ l)) := by
  induction l generalizing s with
  | nil => exact absurd rfl hl
  | cons b t ih =>
    have room : ¬ (s.window w).lineBytes ≤ ((s.window w).slot (s.window w).next).bytes.length + 1 := by
      rw [List.length_append, List.length_cons] at short
      omega
    rw [placeFixed_cons h takes, if_neg room]
    by_cases ht : t = []
    · subst ht
      rfl
    · have next := ih (s := s.fillSlot w (((s.window w).slot (s.window w).next).bytes ++ [b])) (by simpa using h)
        (by simp [Slot.Takes]) ht (by simpa using short)
      rw [next, fillSlot_fillSlot]
      simp

/-- The byte that completes the line hands the slot, and the bytes after it go on. -/
theorem placeFixed_complete {l : List Byte} (h : (s.window w).state ≠ .idle)
    (takes : ((s.window w).slot (s.window w).next).Takes)
    (room : ((s.window w).slot (s.window w).next).bytes.length < (s.window w).lineBytes)
    (long : (s.window w).lineBytes ≤ (((s.window w).slot (s.window w).next).bytes ++ l).length) :
    placeFixed w a l s =
      placeFixed w a ((((s.window w).slot (s.window w).next).bytes ++ l).drop (s.window w).lineBytes)
        ((s.fillSlot w ((((s.window w).slot (s.window w).next).bytes ++ l).take (s.window w).lineBytes)).handSlot w
          (s.window w).next) := by
  induction l generalizing s with
  | nil =>
    rw [List.append_nil] at long
    omega
  | cons b t ih =>
    rw [placeFixed_cons h takes]
    split
    · next full =>
      have whole : (s.window w).lineBytes = (((s.window w).slot (s.window w).next).bytes ++ [b]).length := by
        rw [List.length_append, List.length_singleton]
        omega
      rw [show ((s.window w).slot (s.window w).next).bytes ++ b :: t =
        (((s.window w).slot (s.window w).next).bytes ++ [b]) ++ t by simp, whole, List.drop_left, List.take_left]
    · next part =>
      have next := ih (s := s.fillSlot w (((s.window w).slot (s.window w).next).bytes ++ [b])) (by simpa using h)
        (by simp [Slot.Takes]) (by simpa using Nat.lt_of_not_le part) (by simpa using long)
      rw [next]
      simp only [window_fillSlot, Window.slot_setSlot_same, Window.setSlot_next, Window.setSlot_lineBytes,
        fillSlot_fillSlot, List.append_assoc, List.singleton_append]

/-- A freed slot takes the bytes of the held write from the line's begin on (R59). -/
theorem placeFixed_freed {l : List Byte} (hl : l ≠ []) (short : l.length < (s.window w).lineBytes) :
    placeFixed w a l (s.modWindow w (fun y => { y.setSlot (s.window w).next Slot.clear with state := .opened })) =
      .taken (s.modWindow w (fun y => { y.setSlot y.next { state := .filling, bytes := l, marks := [] } with
        state := .opened })) := by
  generalize ht : s.modWindow w (fun y => { y.setSlot (s.window w).next Slot.clear with state := .opened }) = t
  have win : t.window w = { (s.window w).setSlot (s.window w).next Slot.clear with state := .opened } := by
    rw [← ht, window_modWindow_same]
  have clear : (t.window w).slot (t.window w).next = Slot.clear := by
    have next : (t.window w).next = (s.window w).next := by rw [win]; simp
    rw [next, win]
    exact (Window.slot_withState _ _ _).trans (Window.slot_setSlot_same _ _ _)
  have size : (t.window w).lineBytes = (s.window w).lineBytes := by rw [win]; simp
  rw [placeFixed_short (by rw [win]; simp) (by rw [clear]; exact .inl rfl) hl (by rw [clear, size]; exact short), clear,
    State.fillSlot, ← ht, modWindow_modWindow]
  refine congrArg _ (modWindow_congr ?_)
  cases h : (s.window w).next <;> simp [Window.setSlot, h, Slot.clear]

end Fixed

/-- A window's write where the window is not IDLE and its number names a region. -/
theorem windowWrite_fixed {s : State} {w : WindowId} {r : Region} (g : Seg) (h : (s.window w).state ≠ .idle)
    (region : s.path.windowRegion w = some r) (mode : (s.window w).mode = .fixed) :
    s.windowWrite w g = placeFixed w g.addr g.bytes (s.modWindow w (fun y => { y with state := .opened })) := by
  cases e : (s.window w).state with
  | idle => exact absurd e h
  | opened => simp only [State.windowWrite, e, region, mode]
  | holding => simp only [State.windowWrite, e, region, mode]

theorem windowWrite_indexed {s : State} {w : WindowId} {r : Region} (g : Seg) (h : (s.window w).state ≠ .idle)
    (region : s.path.windowRegion w = some r) (mode : (s.window w).mode = .indexed) :
    s.windowWrite w g = placeIndexed w r.base g (s.modWindow w (fun y => { y with state := .opened })) := by
  cases e : (s.window w).state with
  | idle => exact absurd e h
  | opened => simp only [State.windowWrite, e, region, mode]
  | holding => simp only [State.windowWrite, e, region, mode]

section Cycle

variable {s t : State} {w : WindowId} {a : Nat} {lanes : List Lane} {left : Seg}

theorem OneArea.taken (one : OneArea s a lanes (.window w)) (h : s.windowWrite w ⟨a, lanes⟩ = .taken t) :
    s.hostWrite a lanes = t.endCycle .written := by
  rw [one.hostWrite, runSegs_of_done (hostSeg_taken one.fits one.hostArea h)]
  rfl

theorem OneArea.windowRefused (one : OneArea s a lanes (.window w)) (h : s.windowWrite w ⟨a, lanes⟩ = .refused t) :
    s.hostWrite a lanes = t.endCycle .busError :=
  one.refused (hostSeg_refused one.fits one.hostArea h)

theorem OneArea.held (one : OneArea s a lanes (.window w)) (h : s.windowWrite w ⟨a, lanes⟩ = .held left t) :
    s.hostWrite a lanes = t.holdCycle (.windowHold w left [] false) := by
  rw [one.hostWrite, runSegs_of_held (hostSeg_held one.fits one.hostArea h)]

/-- A freed slot lets the write that its window holds be tried again (R59). -/
theorem freeSlot_retries {g : Seg} {rest : List Seg} {err : Bool} (i : SlotId)
    (bus : s.path.bus = .windowHold w g rest err) (free : s.stalled .memoryPath = false) :
    s.freeSlot w i = runSegs (g :: rest) err (s.modWindow w (fun x => x.setSlot i Slot.clear)) := by
  unfold State.freeSlot State.retryHeld
  have bus' : (s.modWindow w (fun x => x.setSlot i Slot.clear)).path.bus = .windowHold w g rest err := bus
  have free' : (s.modWindow w (fun x => x.setSlot i Slot.clear)).stalled .memoryPath = false := free
  simp only [bus', free', and_self, if_true]

end Cycle

/-- Settles O17: the bytes are placed one by one (`placeFixed_short`, `placeFixed_complete`), and what stands behind a
completed line finds its window ended, its other slot free or busy (`placeFixed_idle`, `placeFixed_short`,
`placeFixed_busy`). -/
theorem fixedWindowWriteFillsTheSlot : Obligations.FixedWindowWriteFillsTheSlot := by
  unfold Obligations.FixedWindowWriteFillsTheSlot
  intro s w r a lanes free inside area region mode enabled x c o new bs rest fill hold last handed
  have one (bus : s.path.bus = .free) : OneArea s a lanes (.window w) := ⟨bus, free, inside, enabled, area⟩
  have write (bus : s.path.bus = .free) (opened : x.state = .opened) :
      s.windowWrite w ⟨a, lanes⟩ = placeFixed w a new s := by
    rw [windowWrite_fixed _ (by rw [show (s.window w).state = .opened from opened]; decide) region mode,
      modWindow_self (Window.opened_eq opened)]
    rfl
  refine ⟨fun bus opened takes room => ?_, fun bus opened busy => ?_, fun err bus holding short => ?_⟩
  · have notIdle : (s.window w).state ≠ .idle := by rw [show (s.window w).state = .opened from opened]; decide
    have whole (long : x.lineBytes ≤ bs.length) : s.windowWrite w ⟨a, lanes⟩ = placeFixed w a rest handed :=
      (write bus opened).trans (placeFixed_complete notIdle takes room long)
    have more (long : x.lineBytes < bs.length) : rest ≠ [] := by
      intro e
      have := congrArg List.length e
      simp only [rest, List.length_drop, List.length_nil] at this
      omega
    refine ⟨fun short => ?_, fun full => ?_, fun long ends => ?_, fun long goes oTakes oShort => ?_,
      fun long goes oBusy => ?_⟩
    · exact congrArg _ ((one bus).taken ((write bus opened).trans (placeFixed_short notIdle takes enabled short)))
    · have none : rest = [] := List.drop_eq_nil_of_le (by omega)
      exact congrArg _ ((one bus).taken ((whole (by omega)).trans (by rw [none]; rfl)))
    · obtain ⟨b, t, e⟩ := List.exists_cons_of_ne_nil (more long)
      have idle : (handed.window w).state = .idle := window_filled_last _ ends
      exact congrArg _ ((one bus).windowRefused ((whole (by omega)).trans (by rw [e, placeFixed_idle idle])))
    · have after := window_filled (s := s) (w := w) (bs.take x.lineBytes) goes
      have next : (handed.window w).slot (handed.window w).next = o := by
        rw [show handed.window w = _ from after]
        simp [o, x]
      have size : (handed.window w).lineBytes = x.lineBytes := by
        rw [show handed.window w = _ from after]
        simp [x]
      have place := placeFixed_short (s := handed) (w := w) (a := a) (l := rest)
        (by rw [show handed.window w = _ from after]; simpa using notIdle) (by rw [next]; exact oTakes) (more long)
        (by rw [next, size]; exact oShort)
      rw [next] at place
      exact congrArg _ ((one bus).taken ((whole (by omega)).trans place))
    · have after := window_filled (s := s) (w := w) (bs.take x.lineBytes) goes
      have next : (handed.window w).slot (handed.window w).next = o := by
        rw [show handed.window w = _ from after]
        simp [o, x]
      have place := placeFixed_busy (s := handed) (w := w) (a := a) (l := rest)
        (by rw [show handed.window w = _ from after]; simpa using notIdle) (more long) (by rw [next]; exact oBusy)
      exact congrArg _ ((one bus).held ((whole (by omega)).trans place))
  · have held := placeFixed_busy (a := a) (l := new) (by rw [show (s.window w).state = .opened from opened]; decide)
      enabled busy
    exact congrArg _ ((one bus).held ((write bus opened).trans held))
  · have freed : ((s.modWindow w (fun y => y.setSlot x.next Slot.clear)).window w).state = .holding := by
      simpa using holding
    have fits : Seg.Fits ⟨a, lanes⟩ (s.modWindow w (fun y => y.setSlot x.next Slot.clear)) := ⟨free, inside⟩
    have here : (s.modWindow w (fun y => y.setSlot x.next Slot.clear)).hostArea a = .window w := by
      have lane : 0 < lanes.length := List.length_pos_iff.2 (by rintro rfl; exact enabled rfl)
      exact area 0 lane
    have placed : (s.modWindow w (fun y => y.setSlot x.next Slot.clear)).windowWrite w ⟨a, lanes⟩ = .taken
        (s.modWindow w (fun y => { y.setSlot y.next { state := .filling, bytes := new, marks := [] } with
          state := .opened })) := by
      rw [windowWrite_fixed _ (by rw [freed]; decide) (by exact region) (by simpa using mode), modWindow_modWindow]
      exact placeFixed_freed enabled short
    rw [freeSlot_retries _ bus free, runSegs_of_done (hostSeg_taken fits here placed), Bool.or_false, runSegs_nil]

/-! ## INDEXED windows (R56) -/

theorem storeIndexed_eq (n : Nat) (l : List (Nat × Byte)) (t : Slot) : storeIndexed n l t =
    if l = [] then t
    else { state := if n / 4 ≤ (l.foldl (fun m z => insertNum (z.1 / 4) m) t.marks).length then .complete else .filling,
           bytes := l.foldl (fun k z => k.set z.1 z.2) (if t.state = .empty then List.replicate n 0x00 else t.bytes),
           marks := l.foldl (fun m z => insertNum (z.1 / 4) m) t.marks } := rfl

theorem handTurns_stop {s : State} {w : WindowId} (h : ((s.window w).slot (s.window w).next).state ≠ .complete)
    (k : Nat) : s.handTurns w k = s := by
  cases k with
  | zero => rfl
  | succ k => exact if_neg (fun x => h x.2)

theorem handTurns_hand {s : State} {w : WindowId} (open' : (s.window w).state ≠ .idle)
    (h : ((s.window w).slot (s.window w).next).state = .complete) (k : Nat) :
    s.handTurns w (k + 1) = (s.handSlot w (s.window w).next).handTurns w k := if_pos ⟨open', h⟩

section Indexed

variable {s : State} {w : WindowId} {base : Nat} {g : Seg}

/-- The bytes of a write that fall in the first line of the window, and those of the second (R56). -/
def firstLine (base : Nat) (g : Seg) (n : Nat) : List (Nat × Byte) :=
  (indexedBytes (g.addr - base) g.lanes).filter (fun p => decide (p.1 < n))

def secondLine (base : Nat) (g : Seg) (n : Nat) : List (Nat × Byte) :=
  ((indexedBytes (g.addr - base) g.lanes).filter (fun p => decide (n ≤ p.1))).map (fun p => (p.1 - n, p.2))

/-- The write touches a line that is not yet freed (R56). -/
def Window.Waits (x : Window) (base : Nat) (g : Seg) : Prop :=
  (firstLine base g x.lineBytes ≠ [] ∧ (x.slotA.state = .complete ∨ x.slotA.state = .coding))
    ∨ (secondLine base g x.lineBytes ≠ [] ∧ (x.slotB.state = .complete ∨ x.slotB.state = .coding))

/-- The two lines with the bytes of a write stored (R56). -/
def Window.store (x : Window) (base : Nat) (g : Seg) (n : Nat) : Window :=
  { x with slotA := storeIndexed n (firstLine base g n) x.slotA,
           slotB := storeIndexed n (secondLine base g n) x.slotB }

theorem placeIndexed_beyond (h : ∃ p ∈ indexedBytes (g.addr - base) g.lanes, 2 * (s.window w).lineBytes ≤ p.1) :
    placeIndexed w base g s = .refused (s.guardHit (.window w) g.addr) := by
  obtain ⟨p, mem, far⟩ := h
  exact if_pos (List.any_eq_true.2 ⟨p, mem, decide_eq_true far⟩)

theorem none_beyond {l : List (Nat × Byte)} {n : Nat} (h : ∀ p ∈ l, p.1 < 2 * n) :
    ¬ l.any (fun p => decide (2 * n ≤ p.1)) = true := by
  intro k
  obtain ⟨p, mem, far⟩ := List.any_eq_true.1 k
  exact absurd (of_decide_eq_true far) (Nat.not_le.2 (h p mem))

theorem slot_busy_iff {t : Slot} : t.busy = true ↔ t.state = .complete ∨ t.state = .coding := decide_eq_true_iff

theorem placeIndexed_waits (h : ∀ p ∈ indexedBytes (g.addr - base) g.lanes, p.1 < 2 * (s.window w).lineBytes)
    (k : (s.window w).Waits base g) :
    placeIndexed w base g s = .held g (s.modWindow w (fun y => { y with state := .holding })) := by
  have k' := k
  simp only [Window.Waits, ← slot_busy_iff] at k'
  exact (if_neg (none_beyond h)).trans (if_pos k')

theorem placeIndexed_stores (h : ∀ p ∈ indexedBytes (g.addr - base) g.lanes, p.1 < 2 * (s.window w).lineBytes)
    (k : ¬ (s.window w).Waits base g) :
    placeIndexed w base g s =
      .taken ((s.modWindow w (fun y => y.store base g (s.window w).lineBytes)).handTurns w 2) := by
  have k' := k
  simp only [Window.Waits, ← slot_busy_iff] at k'
  exact (if_neg (none_beyond h)).trans (if_neg k')

end Indexed

/-- Settles O18, by the three outcomes of a write (`placeIndexed_beyond`, `placeIndexed_waits`, `placeIndexed_stores`)
and the two of a turn (`handTurns_stop`, `handTurns_hand`). -/
theorem indexedWindowWriteMarksWords : Obligations.IndexedWindowWriteMarksWords := by
  unfold Obligations.IndexedWindowWriteMarksWords
  intro s w r a lanes free inside area region mode enabled _ x n bs toA toB store busy waits stored
  refine ⟨fun bus opened => ?_, fun err i bus holding within ready => ?_, fun k h => handTurns_stop h k,
    fun k open' h => handTurns_hand open' h k⟩
  · have one : OneArea s a lanes (.window w) := ⟨bus, free, inside, enabled, area⟩
    have write : s.windowWrite w ⟨a, lanes⟩ = placeIndexed w r.base ⟨a, lanes⟩ s := by
      rw [windowWrite_indexed _ (by rw [show (s.window w).state = .opened from opened]; decide) region mode,
        modWindow_self (Window.opened_eq opened)]
    refine ⟨fun beyond => ?_, fun within held => ?_, fun within ready => ?_⟩
    · exact congrArg _ (one.windowRefused (write.trans (placeIndexed_beyond beyond)))
    · exact congrArg _ (one.held (write.trans (placeIndexed_waits within held)))
    · refine congrArg _ ((one.taken (write.trans (placeIndexed_stores within ready))).trans ?_)
      refine congrArg (fun t => State.endCycle (State.handTurns t w 2) .written) (modWindow_congr ?_)
      show x.store r.base ⟨a, lanes⟩ n = { x with state := .opened, slotA := store toA x.slotA, slotB := store toB x.slotB }
      rw [← opened]
      rfl
  · have here : (s.modWindow w (fun y => y.setSlot i Slot.clear)).hostArea a = .window w :=
      area 0 (List.length_pos_iff.2 (by rintro rfl; exact enabled rfl))
    have fits : Seg.Fits ⟨a, lanes⟩ (s.modWindow w (fun y => y.setSlot i Slot.clear)) := ⟨free, inside⟩
    have placed : (s.modWindow w (fun y => y.setSlot i Slot.clear)).windowWrite w ⟨a, lanes⟩ = .taken
        ((s.modWindow w (fun y => stored (y.setSlot i Slot.clear))).handTurns w 2) := by
      rw [windowWrite_indexed _ (by simpa using ne_of_eq_of_ne holding (by decide)) (by exact region)
        (by simpa using mode), modWindow_modWindow]
      generalize ht : s.modWindow w (fun y => { y.setSlot i Slot.clear with state := .opened }) = t
      have win : t.window w = { x.setSlot i Slot.clear with state := .opened } := by
        rw [← ht, window_modWindow_same]
      have size : (t.window w).lineBytes = n := by
        rw [win]
        exact x.setSlot_lineBytes i _
      have clear : ¬ (t.window w).Waits r.base ⟨a, lanes⟩ := by
        unfold Window.Waits
        rw [size, win]
        exact ready
      rw [placeIndexed_stores (by rw [size]; exact within) clear, size, ← ht, modWindow_modWindow]
      rfl
    rw [freeSlot_retries _ bus free, runSegs_of_done (hostSeg_taken fits here placed), Bool.or_false, runSegs_nil]

/-! ## The hold timeout (R59) -/

theorem holdsWrite_iff {s : State} {w : WindowId} :
    s.holdsWrite w = true ↔ ∃ g rest err, s.path.bus = .windowHold w g rest err := by
  unfold State.holdsWrite
  split
  · next e => simp [e]
  · next e => exact ⟨fun h => absurd h Bool.false_ne_true, fun ⟨g, rest, err, h⟩ => absurd h (e w g rest err)⟩

/-- Settles O19: the timeout finds a write that the window holds, or nothing (`holdsWrite_iff`). -/
theorem holdTimeoutAbandonsTheWindowPage : Obligations.HoldTimeoutAbandonsTheWindowPage := by
  unfold Obligations.HoldTimeoutAbandonsTheWindowPage
  intro s w
  refine ⟨fun g rest err d bus doc => ?_, fun other => ?_⟩
  · have holds : s.holdsWrite w = true := holdsWrite_iff.2 ⟨g, rest, err, bus⟩
    have timeout : exec (.holdTimeout w) s = .next (s.abandonWindow w .holdTimeout).scanRetry :=
      congrArg _ (if_pos holds)
    intro t
    have abandoned : s.abandonWindow w .holdTimeout = runSegs rest true t := by
      unfold State.abandonWindow
      simp only [bus, doc, Option.getD_some, if_true]
      rfl
    rw [timeout, abandoned]
    exact ⟨rfl, fun e => by rw [e]; rfl⟩
  · have none : ¬ s.holdsWrite w = true := fun h => by
      obtain ⟨g, rest, err, bus⟩ := holdsWrite_iff.1 h
      exact other w g rest err bus rfl
    exact congrArg _ (if_neg none)

end Sys2Proof.Machine
end

section
/-! SUPPORT. The pending-write queue: how issued bytes are cut, and what a performed write lets go on (R61). -/

namespace Sys2Proof.Machine

open Sys2Proof

/-! ## Cutting (R61) -/

/-- The pieces of a run of bytes stand behind one another, each as long as a pending write at its address can be, but
for the last. -/
theorem splitWrite_pieces {n a : Nat} {bs : List Byte} (h : bs.length ≤ n) :
    (splitWrite n a bs).flatMap (fun x => x.2) = bs
    ∧ ∀ before x after, splitWrite n a bs = before ++ x :: after →
      x.1 = a + (before.flatMap (fun y => y.2)).length ∧ 1 ≤ x.2.length
        ∧ x.2.length ≤ min 64 (4096 - x.1 % 4096) ∧ (after ≠ [] → x.2.length = min 64 (4096 - x.1 % 4096)) := by
  induction n generalizing a bs with
  | zero =>
    obtain rfl : bs = [] := List.length_eq_zero_iff.1 (by omega)
    exact ⟨rfl, fun before x after e => by simp [splitWrite] at e⟩
  | succ n ih =>
    cases bs with
    | nil => exact ⟨rfl, fun before x after e => by simp [splitWrite] at e⟩
    | cons b t =>
      obtain ⟨m, hm⟩ : ∃ m, min 64 (4096 - a % 4096) = m := ⟨_, rfl⟩
      have positive : 1 ≤ m := by omega
      have cut : splitWrite (n + 1) a (b :: t) = (a, (b :: t).take m) :: splitWrite n (a + m) ((b :: t).drop m) := by
        simp only [splitWrite, Config.writeBytes, Config.memPage, hm]
      have shorter : ((b :: t).drop m).length ≤ n := by
        rw [List.length_drop]
        simp only [List.length_cons] at h ⊢
        omega
      obtain ⟨whole, pieces⟩ := ih (a := a + m) shorter
      refine ⟨by rw [cut, List.flatMap_cons, whole, List.take_append_drop], fun before x after e => ?_⟩
      rw [cut] at e
      cases before with
      | nil =>
        obtain ⟨rfl, rest⟩ := List.cons.inj e
        refine ⟨rfl, by simp; omega, by simp; omega, fun more => ?_⟩
        have long : m ≤ (b :: t).length := by
          by_contra short
          have nothing : (b :: t).drop m = [] := List.drop_eq_nil_of_le (by omega)
          rw [nothing] at rest
          cases n <;> exact more rest.symm
        rw [List.length_take, hm]
        omega
      | cons y before =>
        obtain ⟨rfl, rest⟩ := List.cons.inj e
        obtain ⟨place, size⟩ := pieces before x after rest
        refine ⟨?_, size⟩
        have full : ((b :: t).take m).length = m := by
          rw [List.length_take]
          by_contra short
          have nothing : (b :: t).drop m = [] := List.drop_eq_nil_of_le (by omega)
          rw [nothing] at rest
          cases n <;> simp [splitWrite] at rest
        rw [place, List.flatMap_cons, List.length_append, full]
        omega

theorem cutWrites_bytes (blk : Block) (a : Nat) (bs : List Byte) (c : Option Nat) :
    (cutWrites blk a bs c).flatMap (fun w => w.bytes) = bs := by
  rw [cutWrites, List.flatMap_map]
  exact (splitWrite_pieces (Nat.le_refl _)).1

theorem cutWrites_place {blk : Block} {a : Nat} {bs : List Byte} {c : Option Nat} {before after : List PendingWrite}
    {w : PendingWrite} (h : cutWrites blk a bs c = before ++ w :: after) :
    w.blk = blk ∧ w.clears = c ∧ w.addr = a + (before.flatMap (fun x => x.bytes)).length
      ∧ 1 ≤ w.bytes.length ∧ w.bytes.length ≤ min 64 (4096 - w.addr % 4096)
      ∧ (after ≠ [] → w.bytes.length = min 64 (4096 - w.addr % 4096)) := by
  obtain ⟨pre, post, split, rfl, hpost⟩ := List.map_eq_append_iff.1 h
  obtain ⟨x, rest, rfl, rfl, rfl⟩ := List.map_eq_cons_iff.1 hpost
  obtain ⟨place, least, most, full⟩ := (splitWrite_pieces (Nat.le_refl bs.length)).2 _ _ _ split
  refine ⟨rfl, rfl, ?_, least, most, fun more => full (fun none => more (by rw [none]; rfl))⟩
  rw [List.flatMap_map]
  exact place

/-! ## Which blocks wait (R61) -/

theorem stalled_iff {s : State} {b : Block} : s.stalled b = true ↔ ∃ x ∈ s.path.waiting, x.blk = b := by
  simp [State.stalled]

theorem not_stalled_iff {s : State} {b : Block} : s.stalled b = false ↔ ¬ ∃ x ∈ s.path.waiting, x.blk = b := by
  rw [← stalled_iff, Bool.not_eq_true]

/-! ## What a performed write lets go on -/

theorem settleDump_none {s : State} (h : s.intake.dump = none) : s.settleDump = s := by
  rw [State.settleDump, h]

theorem settleDump_some {s : State} {d : DumpState} (h : s.intake.dump = some d) :
    s.settleDump = if d.left = [] ∧ s.stalled .dump = false then s.finishDump d else s := by
  rw [State.settleDump, h]

theorem settleTake_none {s : State} (h : s.intake.finish = none) : s.settleTake = s := by
  rw [State.settleTake, h]

theorem settleTake_stalled {s : State} (h : s.stalled .orderIntake = true) : s.settleTake = s := by
  unfold State.settleTake
  split
  · rfl
  · exact if_pos h

/-- A take whose clearing write has been issued ends, and the expected slot advances (R67). -/
theorem settleTake_ends {s : State} (h : s.intake.finish ≠ none) (free : s.stalled .orderIntake = false) :
    s.settleTake = State.beginTake { s with intake := { s.intake with
      finish := none, take := .waiting, expected := (s.intake.expected + 1) % 32 } } := by
  obtain ⟨e, he⟩ := Option.ne_none_iff_exists'.1 h
  rw [State.settleTake, he]
  dsimp only
  rw [if_neg (by rw [free]; exact Bool.false_ne_true)]
  rfl

theorem beginTake_stays {s : State} (h : s.intake.take ≠ .waiting ∨ s.intake.expected ∉ s.path.posted
    ∨ s.stalled .orderIntake = true) : s.beginTake = s := by
  refine if_neg (fun ⟨waiting, posted, free⟩ => ?_)
  obtain h | h | h := h
  · exact h waiting
  · exact h posted
  · exact Bool.false_ne_true (free.symm.trans h)

theorem beginTake_starts {s : State} (h : s.intake.take = .waiting) (k : s.intake.expected ∈ s.path.posted)
    (free : s.stalled .orderIntake = false) : s.beginTake = s.startTake := if_pos ⟨h, k, free⟩

theorem runWork_stays {s : State} (h : s.meter.work = [] ∨ s.stalled .meter = true) (n : Nat) : runWork n s = s := by
  cases n with
  | zero => rfl
  | succ n =>
    unfold runWork
    split
    · rfl
    · next w l e =>
      obtain h | h := h
      · rw [h] at e
        cases e
      · exact if_pos h

theorem runWork_cons {s : State} {w : MeterWork} {rest : List MeterWork} (h : s.meter.work = w :: rest)
    (free : s.stalled .meter = false) (n : Nat) : runWork (n + 1) s = runWork n (s.finishWork w) := by
  rw [runWork, h]
  exact if_neg (by rw [free]; exact Bool.false_ne_true)

theorem takeGiven_stays {s : State} (h : s.reporter.given = [] ∨ s.stalled .eventReporter = true) (n : Nat) :
    takeGiven n s = s := by
  cases n with
  | zero => rfl
  | succ n =>
    unfold takeGiven
    split
    · rfl
    · next v l e =>
      obtain h | h := h
      · rw [h] at e
        cases e
      · exact if_pos h

theorem takeGiven_cons {s : State} {v : Word} {rest : List Word} (h : s.reporter.given = v :: rest)
    (free : s.stalled .eventReporter = false) (n : Nat) : takeGiven (n + 1) s =
      takeGiven n (State.takeEventConsumer { s with reporter := { s.reporter with given := rest } } v) := by
  rw [takeGiven, h]
  exact if_neg (by rw [free]; exact Bool.false_ne_true)

theorem resumeMeter_rests {s : State} {b : Bool} (h : b = false ∨ (runWork s.meter.work.length s).meterWaits = true) :
    s.resumeMeter b = runWork s.meter.work.length s := by
  unfold State.resumeMeter
  obtain h | h := h <;> simp [h]

theorem resumeMeter_passes {s : State} (h : (runWork s.meter.work.length s).meterWaits = false) :
    s.resumeMeter true = (runWork s.meter.work.length s).arbiterPasses := by
  simp [State.resumeMeter, h]

theorem settleVerdict_stays {s : State} {u : UnitId}
    (h : ∀ a, s.answering u = some a → a.report = none ∨ a.phase ≠ .verdict) : s.settleVerdict u = s := by
  unfold State.settleVerdict
  split
  · rfl
  · next a ha =>
    split
    · next phase _ report =>
      obtain none | other := h a ha
      · rw [none] at report
        cases report
      · exact absurd phase other
    · rfl

theorem scanRetry_rests {s : State} (h : s.scanner.active = false ∨ s.scanner.beginPending = false) :
    s.scanRetry = s := by
  refine if_neg ?_
  obtain h | h := h <;> simp [h]

theorem resumePrintRead_waits {s : State} (h : ¬ (s.print.sheet = .sheetStarted ∧ s.print.state = .printing)) :
    s.resumePrintRead = s := if_neg h

section Host

variable {s : State}

theorem resumeHost_free (h : s.path.bus = .free) : s.resumeHost = s := by
  rw [State.resumeHost, h]

theorem resumeHost_read {a n : Nat} (h : s.path.bus = .heldRead a n) : s.resumeHost =
    if s.readWaits a n then s else s.endCycle (.data (s.mem.readBytes a n)) := by
  rw [State.resumeHost, h]

theorem resumeHost_write {gs : List Seg} {err : Bool} (h : s.path.bus = .heldWrite gs err) :
    s.resumeHost = runSegs gs err s := by
  rw [State.resumeHost, h]

theorem resumeHost_window {w : WindowId} {g : Seg} {rest : List Seg} {err : Bool}
    (h : s.path.bus = .windowHold w g rest err) :
    s.resumeHost = if s.stalled .memoryPath then s else runSegs (g :: rest) err s := by
  rw [State.resumeHost, h]

end Host

theorem resumeUnits_rests {s : State} (h : ∀ u a, s.answering u = some a → a.report = none ∨ a.phase ≠ .verdict) :
    s.resumeUnits = s := by
  unfold State.resumeUnits eachUnit allUnits
  simp only [List.foldl, settleVerdict_stays (h _)]

/-- Nothing but the host's access has been held. -/
theorem resumeHeld_quiet {s : State} (dump : s.intake.dump = none) (finish : s.intake.finish = none)
    (take : s.intake.take ≠ .waiting ∨ s.intake.expected ∉ s.path.posted) (work : s.meter.work = [])
    (given : s.reporter.given = []) (verdicts : ∀ u a, s.answering u = some a → a.report = none ∨ a.phase ≠ .verdict)
    (sheet : s.scanner.active = false ∨ s.scanner.beginPending = false)
    (print : ¬ (s.print.sheet = .sheetStarted ∧ s.print.state = .printing)) : s.resumeHeld false = s.resumeHost := by
  have intake : s.resumeIntake = s := by
    rw [State.resumeIntake, settleDump_none dump, settleTake_none finish, beginTake_stays (take.imp_right .inl)]
  have meter : s.resumeMeter false = s := by rw [resumeMeter_rests (.inl rfl), runWork_stays (.inl work)]
  have reporter : s.resumeReporter = s := by rw [State.resumeReporter, takeGiven_stays (.inl given)]
  rw [State.resumeHeld, intake, meter, reporter, resumeUnits_rests verdicts, scanRetry_rests sheet,
    resumePrintRead_waits print]

/-! ## Performing (R61) -/

theorem firstOf_found {blk : Block} {b before after : List PendingWrite} {w : PendingWrite}
    (h : ∀ x ∈ before, x.blk ≠ blk) (e : w.blk = blk) :
    firstOf blk b (before ++ w :: after) = some (b.reverse ++ before, w, after) := by
  induction before generalizing b with
  | nil => simp [firstOf, e]
  | cons x before ih =>
    obtain ⟨other, rest⟩ := List.forall_mem_cons.1 h
    rw [List.cons_append, firstOf, if_neg other, ih rest]
    simp

theorem admitWaiting_eq {p : MemPath} (h : p.queue.length < 16) :
    p.admitWaiting = { p with queue := p.queue ++ p.waiting.take 1, waiting := p.waiting.drop 1 } := by
  unfold MemPath.admitWaiting
  split
  · next w t e =>
    rw [e]
    exact if_pos h
  · next e =>
    rw [e]
    obtain ⟨⟩ := p
    simp_all

/-- Settles O20: the block's oldest write is found (`firstOf_found`) and performed; what it held goes on by the rules of
each block; and issued bytes are cut (`cutWrites_place`) and queued (`issue_eq`). -/
theorem pendingWriteReachesMemory : Obligations.PendingWriteReachesMemory := by
  unfold Obligations.PendingWriteReachesMemory
  refine ⟨fun s before after w queue others full => ?_, fun s => ?_, fun p blk a bs c => ?_⟩
  · dsimp only
    have found := firstOf_found (b := []) (after := after) others rfl
    have room : (before ++ after).length < 16 := by
      rw [queue] at full
      simp only [List.length_append, List.length_cons] at full ⊢
      omega
    have perform : exec (.pendingWritePerformed w.blk) s = .next (s.pendingPerformed w.blk) := rfl
    refine ⟨fun hit => ?_, fun clear => ?_, fun quiet => ?_⟩
    · have overlapped : before.any (fun x => overlaps w.addr w.bytes.length x.addr x.bytes.length) = true := by
        simpa using hit
      rw [perform, State.pendingPerformed, queue, found]
      exact congrArg _ (if_pos overlapped)
    · have alone : ¬ before.any (fun x => overlaps w.addr w.bytes.length x.addr x.bytes.length) = true := by
        simpa using clear
      rw [perform, State.pendingPerformed, queue, found]
      dsimp only [List.reverse_nil, List.nil_append]
      rw [if_neg alone, admitWaiting_eq room]
      rfl
    · obtain ⟨dump, finish, take, free, work, given, verdicts, sheet, print⟩ := quiet
      have waited : s.meterWaits = false := by simp [State.meterWaits, free, work]
      rw [waited]
      exact resumeHeld_quiet dump finish take work given verdicts sheet print
  · dsimp only
    have free {b : Block} (h : ¬ ∃ x ∈ s.path.waiting, x.blk = b) : s.stalled b = false := not_stalled_iff.2 h
    refine ⟨fun b => rfl, settleDump_none, fun d h => ⟨fun rests => ?_, fun none clear => ?_⟩, fun h => ?_,
      fun h clear => settleTake_ends h (free clear), fun h => beginTake_stays (h.imp_right (.imp_right stalled_iff.2)),
      fun h k clear => ?_, ?_, fun b => ⟨resumeMeter_rests, fun e h => ?_⟩,
      fun n h => runWork_stays (h.imp_right stalled_iff.2) n, fun n w rest h clear => runWork_cons h (free clear) n,
      rfl,
      fun n h => takeGiven_stays (h.imp_right stalled_iff.2) n, fun n v rest h clear => takeGiven_cons h (free clear) n,
      rfl, fun h k => if_pos ⟨h, k⟩, fun h => resumePrintRead_waits (not_and_or.2 h), resumeHost_free,
      fun a n h => ⟨fun held => ?_, fun clear k => ?_⟩, fun gs err h => resumeHost_write h,
      fun w g rest err h => ⟨fun held => ?_, fun clear => ?_⟩, fun err => rfl,
      fun g rest err inside area => ⟨fun held => ?_, fun clear k => ?_⟩⟩
    · rw [settleDump_some h, if_neg]
      rintro ⟨none, clear⟩
      exact rests.elim (fun k => k none) (fun k => not_stalled_iff.1 clear k)
    · rw [settleDump_some h, if_pos ⟨none, free clear⟩]
    · exact h.elim settleTake_none (fun k => settleTake_stalled (stalled_iff.2 k))
    · rw [beginTake_starts h k (free clear), State.startTake_eq]
    · rw [meterWaits_iff, stalled_iff]
    · rw [e]
      exact resumeMeter_passes h
    · rw [resumeHost_read h, if_pos (by simpa [State.readWaits, stalled_iff] using held)]
    · rw [resumeHost_read h, if_neg (by simpa [State.readWaits, clear] using free k)]
      rfl
    · rw [resumeHost_window h, if_pos (stalled_iff.2 held)]
    · rw [resumeHost_window h, if_neg (by simpa using free clear)]
    · refine runSegs_of_behind ?_ rest err
      cases waits : s.stalled .memoryPath with
      | true => exact hostSeg_stalled g waits
      | false =>
        have blocked := held.resolve_right (not_stalled_iff.1 waits)
        exact hostSeg_blocked ⟨waits, inside⟩ (.inl area) blocked
    · rw [runSegs_of_done (hostSeg_passes ⟨free k, inside⟩ (.inl area) clear), area, Bool.or_false]
      rfl
  · refine ⟨cutWrites blk a bs c, fun none => ?_, fun some => ?_, cutWrites_bytes _ _ _ _,
      fun before w after h => cutWrites_place h⟩
    · rw [MemPath.issue_eq, MemPath.accept, MemPath.room, if_pos none, none]
      rfl
    · rw [MemPath.issue_eq, MemPath.accept, MemPath.room, if_neg some]
      simp

end Sys2Proof.Machine
end

section
/-! SUPPORT. The memory-port arbiter: what may be presented, and which requester is granted (R61, R62). -/

namespace Sys2Proof.Machine

open Sys2Proof

/-! ## The choice of the least place -/

/-- The search in a list whose members stand in rising place finds the member with the least place. -/
theorem find?_of_least {α : Type} (place : α → Nat) (p : α → Bool) (a : α) :
    ∀ l : List α, l.Pairwise (fun x y => place x < place y) → a ∈ l → p a = true →
      (∀ b ∈ l, p b = true → place a ≤ place b) → l.find? p = some a
  | [], _, ha, _, _ => absurd ha (by simp)
  | b :: t, hs, ha, hp, hmin => by
      obtain ⟨hb, ht⟩ := List.pairwise_cons.mp hs
      rcases List.mem_cons.mp ha with rfl | hat
      · exact List.find?_cons_of_pos hp
      · have hnb : ¬ p b = true := fun h => by
          have h1 := hmin b (List.mem_cons_self ..) h
          have h2 := hb a hat
          omega
        rw [List.find?_cons_of_neg hnb]
        exact find?_of_least place p a t ht hat hp fun c hc => hmin c (List.mem_cons_of_mem _ hc)

/-- The steps from the marker `m` on to the unit `u`. -/
def unitSteps (m u : UnitId) : Nat := (unitNum u + 4 - unitNum m) % 4

/-- The units in the order in which the urgent marker tries them (R62). -/
def urgentOrder (m : UnitId) : List UnitId :=
  [m, unitAfter m, unitAfter (unitAfter m), unitAfter (unitAfter (unitAfter m))]

theorem urgentOrder_rises (m : UnitId) :
    (urgentOrder m).Pairwise (fun u v => unitSteps m u < unitSteps m v) := by
  cases m <;> decide

theorem mem_urgentOrder (m u : UnitId) : u ∈ urgentOrder m := by
  cases m <;> cases u <;> decide

theorem urgentGrant_first (s : State) (rs : List Requester) (u : UnitId)
    (hu : .unit u ∈ rs ∧ (s.unit u).urgent = true)
    (hmin : ∀ v, .unit v ∈ rs ∧ (s.unit v).urgent = true → unitSteps s.path.urgent u ≤ unitSteps s.path.urgent v) :
    s.urgentGrant rs = some u :=
  find?_of_least (unitSteps s.path.urgent) _ u _ (urgentOrder_rises _) (mem_urgentOrder _ _)
    (by simpa using hu) fun v _ hv => hmin v (by simpa using hv)

theorem urgentGrant_none (s : State) (rs : List Requester)
    (h : ∀ u, ¬ (.unit u ∈ rs ∧ (s.unit u).urgent = true)) : s.urgentGrant rs = none :=
  List.find?_eq_none.mpr fun u _ hu => h u (by simpa using hu)

theorem cyclePlace_lt {r : Requester} {k : Nat} (h : cyclePlace r = some k) : k < 12 := by
  cases r with
  | unit u => cases u <;> simp [cyclePlace, unitNum] at h <;> omega
  | _ => simp [cyclePlace] at h <;> omega

/-- No two requesters have one place in the cycle. -/
theorem cyclePlace_injective {r q : Requester} {k : Nat} (hr : cyclePlace r = some k) (hq : cyclePlace q = some k) :
    r = q := by
  have hinv : ∀ x : Requester, cyclePlace x = some k → some x =
      [.pageCoder, .printEngine, .eventReporter, .meter, .orderIntake, .dump, .sendQueue, .memoryPath,
        .unit .lu0, .unit .lu1, .unit .lu2, .unit .lu3][k]? := by
    intro x hx
    cases x with
    | unit u => cases u <;> (simp only [cyclePlace, unitNum, Option.some.injEq] at hx; subst hx; rfl)
    | host => exact absurd hx (by simp [cyclePlace])
    | _ => (simp only [cyclePlace, Option.some.injEq] at hx; subst hx; rfl)
  exact Option.some.inj ((hinv r hr).trans (hinv q hq).symm)

theorem find?_place_some {rs : List Requester} {r : Requester} {k : Nat} (hr : r ∈ rs) (hk : cyclePlace r = some k) :
    rs.find? (fun x => decide (cyclePlace x = some k)) = some r := by
  cases hf : rs.find? (fun x => decide (cyclePlace x = some k)) with
  | none => exact absurd (List.find?_eq_none.mp hf r hr) (by simpa using hk)
  | some q =>
    have hq := List.find?_some hf
    rw [cyclePlace_injective (r := q) (by simpa using hq) hk]

/-- The cycle reaches the requester whose place is `j` steps on, when none has a place before it. -/
theorem cycleGrant_reaches {rs : List Requester} {r : Requester} (hr : r ∈ rs) :
    ∀ (j fuel c : Nat), j < fuel → cyclePlace r = some ((c + j) % 12) →
      (∀ i < j, ∀ q ∈ rs, cyclePlace q ≠ some ((c + i) % 12)) →
      cycleGrant rs fuel c = some (r, (c + j) % 12)
  | 0, fuel + 1, c, _, hk, _ => by
      simp only [Nat.add_zero] at hk ⊢
      simp only [cycleGrant, find?_place_some hr hk]
  | j + 1, fuel + 1, c, hj, hk, hno => by
      have hnone : rs.find? (fun x => decide (cyclePlace x = some (c % 12))) = none :=
        List.find?_eq_none.mpr fun q hq => by simpa using hno 0 (by omega) q hq
      have hcj : c + (j + 1) = (c + 1) + j := by omega
      simp only [cycleGrant, hnone]
      rw [hcj] at hk ⊢
      exact cycleGrant_reaches hr j fuel (c + 1) (by omega) hk fun i hi q hq => by
        have := hno (i + 1) (by omega) q hq
        rwa [show c + (i + 1) = c + 1 + i by omega] at this

theorem cycleGrant_nil : ∀ fuel c : Nat, cycleGrant [] fuel c = none
  | 0, _ => rfl
  | fuel + 1, c => cycleGrant_nil fuel (c + 1)

/-- The presented requester whose place comes first from the marker on is granted (R62). -/
theorem cycleGrant_first {rs : List Requester} {r : Requester} {k c : Nat} (hr : r ∈ rs)
    (hk : cyclePlace r = some k) (hc : c < 12)
    (hmin : ∀ r' k', r' ∈ rs → cyclePlace r' = some k' → (k + 12 - c) % 12 ≤ (k' + 12 - c) % 12) :
    cycleGrant rs 12 c = some (r, k) := by
  have hk12 := cyclePlace_lt hk
  have hplace : (c + (k + 12 - c) % 12) % 12 = k := by omega
  have hreach := cycleGrant_reaches hr ((k + 12 - c) % 12) 12 c (by omega) (by rw [hplace]; exact hk)
    fun i hi q hq hqi => by
      have := hmin q _ hq hqi
      omega
  rwa [hplace] at hreach

/-! ## The grant -/

theorem grantPort_urgent {s : State} {rs : List Requester} {u : UnitId}
    (h : s.urgentGrant (rs.filter s.mayPresent) = some u) :
    s.grantPort rs = { s with path := { s.path with urgent := unitAfter u, granted := some (.unit u) } } := by
  simp only [State.grantPort, h]

theorem grantPort_host {s : State} {rs : List Requester} (h : s.urgentGrant (rs.filter s.mayPresent) = none)
    (hh : .host ∈ rs.filter s.mayPresent) :
    s.grantPort rs = { s with path := { s.path with granted := some .host } } := by
  simp only [State.grantPort, h]
  exact if_pos hh

theorem grantPort_cycle {s : State} {rs : List Requester} {r : Requester} {k : Nat}
    (h : s.urgentGrant (rs.filter s.mayPresent) = none) (hh : .host ∉ rs.filter s.mayPresent)
    (hc : cycleGrant (rs.filter s.mayPresent) 12 s.path.cycle = some (r, k)) :
    s.grantPort rs = { s with path := { s.path with cycle := (k + 1) % 12, granted := some r } } := by
  simp only [State.grantPort, h, hc]
  exact if_neg hh

theorem grantPort_idle {s : State} {rs : List Requester} (h : rs.filter s.mayPresent = []) :
    s.grantPort rs = s := by
  have hu : s.urgentGrant [] = none := urgentGrant_none s [] fun u hu => absurd hu.1 (by simp)
  simp only [State.grantPort, h, hu, cycleGrant_nil]
  exact if_neg (by simp)

/-! ## What may be presented -/

theorem urgent_iff (l : LineUnit) :
    l.urgent = true ↔ (l.role = some .caller ∧ l.txFifo.length < 256)
      ∨ (l.role = some .answerer ∧ 768 < l.rxFifo.countP (fun i => match i with
        | .byte _ => true
        | _ => false)) := by
  rw [List.countP_eq_length_filter]
  unfold LineUnit.urgent
  split
  next h => simp [h]
  next h => exact ⟨fun hd => .inr ⟨h, of_decide_eq_true hd⟩, fun hc => hc.elim (fun hl => by simp [h] at hl)
      fun hr => decide_eq_true hr.2⟩
  next h => simp [h]

theorem mayPresent_host {s : State} (h : s.mayPresent .host = true) : s.path.bus = .free := by
  simpa [State.mayPresent] using h

theorem mayPresent_unit {s : State} {u : UnitId} (h : s.mayPresent (.unit u) = true) :
    s.readHeld (.unit u) = false ∧ s.writeWaits (.unit u) = false := by
  simp only [State.mayPresent, requesterBlock, Bool.and_eq_true, Bool.not_eq_true'] at h
  exact ⟨h.1.2, h.2⟩

theorem mayPresent_block {s : State} {r : Requester} (hh : r ≠ .host) (hu : ∀ u, r ≠ .unit u) :
    s.mayPresent r = if s.readHeld r then s.writeReady (requesterBlock r) else !s.writeWaits (requesterBlock r) := by
  cases r with
  | host => exact absurd rfl hh
  | unit u => exact absurd rfl (hu u)
  | _ => rfl

theorem mayPresent_free {s : State} {r : Requester} (h : s.mayPresent r = true) (hr : r ≠ .host) :
    s.writeWaits (requesterBlock r) = false := by
  by_cases hu : ∃ u, r = .unit u
  · obtain ⟨u, rfl⟩ := hu
    exact (mayPresent_unit h).2
  · rw [mayPresent_block hr fun u e => hu ⟨u, e⟩] at h
    split at h
    · exact (by simpa [State.writeReady] using h : _ ∧ _).2
    · simpa using h

theorem mayPresent_held {s : State} {r : Requester} (h : s.mayPresent r = true) (hr : s.readHeld r = true) :
    s.writeReady (requesterBlock r) = true := by
  have hh : r ≠ .host := by rintro rfl; exact absurd hr (by simp [State.readHeld])
  have hu : ∀ u, r ≠ .unit u := by
    rintro u rfl
    rw [(mayPresent_unit h).1] at hr
    exact absurd hr (by simp)
  rw [mayPresent_block hh hu] at h
  simpa [hr] using h

theorem writeReady_empty {s : State} (h : s.path.queue = []) (blk : Block) : s.writeReady blk = false := by
  simp [State.writeReady, h, firstOf]

/-! ## The reads that can be held -/

/-- The checks of SEND pass exactly when its fields are good, its document can be sent and there is room (R138). -/
theorem sendChecks_pass_iff (s : State) :
    (∃ o, s.sendChecks = .inr o) ↔
      priorityOf (s.body 2 1) ≠ none ∧ s.body 1 1 ≤ 15 ∧ 1 ≤ s.body 12 2 ∧ s.body 12 2 ≤ 256
        ∧ s.body 8 4 + 32 * s.body 12 2 ≤ memBytes s.memSize
        ∧ (∃ r, s.doc (s.body 0 1) = some r ∧ r.state = .closed ∧ r.deletePending = false)
        ∧ s.body 12 2 ≤ s.sendq.room := by
  unfold State.sendChecks
  cases hp : priorityOf (s.body 2 1) with
  | none => simp
  | some p =>
    simp only [ne_eq, reduceCtorEq, not_false_eq_true, true_and]
    split
    next hbad => simp only [reduceCtorEq, exists_false, false_iff]; omega
    next hok =>
      cases hd : s.doc (s.body 0 1) with
      | none => simp
      | some r =>
        have hstate : r.state ≠ .opened ↔ r.state = .closed := by cases r.state <;> simp
        simp only [Option.some.injEq, exists_eq_left']
        split
        next hst =>
          simp only [reduceCtorEq, exists_false, false_iff]
          rintro ⟨-, -, -, -, ⟨hc, hdp⟩, -⟩
          rcases hst with h | h
          · exact hstate.mpr hc h
          · simp [hdp] at h
        next hst =>
          rw [not_or] at hst
          split
          next hfull => simp only [reduceCtorEq, exists_false, false_iff]; omega
          next hroom =>
            simp only [Sum.inr.injEq, exists_eq', true_iff]
            exact ⟨by omega, by omega, by omega, by omega, ⟨hstate.mp hst.1, by simpa using hst.2⟩, by omega⟩

theorem readHeld_sendQueue_iff (s : State) :
    s.readHeld .sendQueue = true ↔ s.takes .send = true ∧ (∃ o, s.sendChecks = .inr o)
      ∧ s.path.blocked (s.body 8 4) (32 * s.body 12 2) = true := by
  simp only [State.readHeld, Bool.and_eq_true, State.sendHeld]
  cases s.sendChecks <;> simp

theorem tariffFits_iff (s : State) : s.tariffFits = true ↔ s.body 0 4 + 1588 ≤ memBytes s.memSize := decide_eq_true_iff

theorem readHeld_meter_iff (s : State) :
    s.readHeld .meter = true ↔ s.takes .loadTariff = true ∧ s.body 0 4 + 1588 ≤ memBytes s.memSize
      ∧ s.path.blocked (s.body 0 4) 1588 = true := by
  rw [← tariffFits_iff]
  simp only [State.readHeld, Bool.and_eq_true, and_assoc]
  rfl

/-- Settles O22: the search from the marker on finds the least place; what is held is filtered out before. -/
theorem portGrantFollowsTheArbiter : Obligations.PortGrantFollowsTheArbiter := by
  intro s rs ps urgent
  have hmay : ∀ r ∈ ps, s.mayPresent r = true := fun r hr => (List.mem_filter.mp hr).2
  refine ⟨fun u => urgent_iff _, ?_, ?_, ?_, ?_, ?_, ?_, ?_, ?_, ?_, ?_, ?_, ?_, ?_, ?_, ?_, ?_⟩
  · exact fun u hu hmin => congrArg _ (grantPort_urgent (urgentGrant_first s ps u hu hmin))
  · exact fun hno hh => congrArg _ (grantPort_host (urgentGrant_none s ps hno) hh)
  · exact fun hno hh r k hr hk hc hmin =>
      congrArg _ (grantPort_cycle (urgentGrant_none s ps hno) hh (cycleGrant_first hr hk hc hmin))
  · exact fun h => congrArg _ (grantPort_idle h)
  · exact fun hb hh => hb (mayPresent_host (hmay _ hh))
  · exact fun r hr hh => mayPresent_free (hmay r hr) hh
  · exact fun u hu => (mayPresent_unit (hmay _ hu)).1
  · exact fun r hr hheld => mayPresent_held (hmay r hr) hheld
  · intro hq r hr
    by_contra hheld
    have := mayPresent_held (hmay r hr) (by simpa using hheld)
    rw [writeReady_empty hq] at this
    exact absurd this (by simp)
  · simp [State.readHeld]
  · simp [State.readHeld]
  · refine (readHeld_sendQueue_iff s).trans ?_
    rw [sendChecks_pass_iff]
    exact ⟨fun ⟨ht, ⟨h1, h2, h3, h4, h5, h6, h7⟩, hb⟩ => ⟨ht, h1, h2, h3, h4, h5, h6, h7, hb⟩,
      fun ⟨ht, h1, h2, h3, h4, h5, h6, h7, hb⟩ => ⟨ht, ⟨h1, h2, h3, h4, h5, h6, h7⟩, hb⟩⟩
  · exact readHeld_meter_iff s
  · simp [State.readHeld, Option.any_eq_true, and_assoc]
  · simp [State.readHeld]
  · rintro r (rfl | rfl | rfl | rfl) <;> rfl

end Sys2Proof.Machine
end

section
/-! SUPPORT. The end of a take, and the orders' commands away from their take (R61, R66 to R70). -/

namespace Sys2Proof.Machine

open Sys2Proof

/-! ## Short writes one after another (R61) -/

theorem MemPath.accept_accept (p : MemPath) (ws vs : List PendingWrite) :
    (p.accept ws).accept vs = p.accept (ws ++ vs) := by
  simp only [← MemPath.foldl_enqueue, List.foldl_append]

theorem cutWrites_short {blk : Block} {a : Nat} {bs : List Byte} {c : Option Nat} (h0 : bs ≠ [])
    (h : bs.length ≤ 64) (h1 : a % 4096 + bs.length ≤ 4096) :
    cutWrites blk a bs c = [{ blk := blk, addr := a, bytes := bs, clears := c }] := by
  rw [cutWrites, splitWrite_short a bs h0 h h1]
  rfl

@[simp] theorem resultWords_length (vs : List Nat) : (resultWords vs).length = 16 := by
  simp only [resultWords, fitBytes, zeroBytes, List.length_append, List.length_take, List.length_replicate]
  omega

/-- The three writes that end the take of slot `n`, in their order: result, sequence field, cleared post word (R69). -/
def State.takeWrites (s : State) (n : Nat) (q : Word) (r : Result) (vs : List Nat) : List PendingWrite :=
  let w (off : Nat) (bs : List Byte) (c : Option Nat) : PendingWrite :=
    { blk := .orderIntake, addr := s.settings.controlBase + 64 * n + off, bytes := bs, clears := c }
  [w 12 ([byteOf (resultCode r), 0, 0, 0] ++ resultWords vs) none, w 8 (leBytes 4 q.toNat) none,
    w 4 [0, 0, 0, 0] (some n)]

/-- The state in which a take is FINISHING: its writes have been taken by the queue, and ORDER_DONE is asked for. -/
def State.finishing (s : State) (kind : Byte) (r : Result) (vs : List Nat) : State :=
  let n := s.intake.expected
  let q := s.slotSeq n
  { s with
    path := s.path.accept (s.takeWrites n q r vs),
    reporter := { s.reporter with postings := s.reporter.postings ++ [⟨.orderIntake, .orderDone n kind r q vs⟩] },
    intake := { s.intake with
      take := .finishing, finish := some { kind := kind, result := r, seq := q, values := vs } } }

theorem finishTake_eq {s : State} (kind : Byte) (r : Result) (vs : List Nat)
    (page : s.settings.controlBase % 4096 = 0) :
    s.finishTake kind r vs = (s.finishing kind r vs).settleTake := by
  have place (off len : Nat) (h : off + len ≤ 64) :
      (s.settings.controlBase + 64 * s.intake.expected + off) % 4096 + len ≤ 4096 := by omega
  have wrote : ((s.path.issue .orderIntake (s.settings.controlBase + 64 * s.intake.expected + 12)
        ([byteOf (resultCode r), 0, 0, 0] ++ resultWords vs) none).issue .orderIntake
        (s.settings.controlBase + 64 * s.intake.expected + 8)
          (leBytes 4 (s.slotSeq s.intake.expected).toNat) none).issue
        .orderIntake (s.settings.controlBase + 64 * s.intake.expected + 4) (leBytes 4 0) (some s.intake.expected)
      = s.path.accept (s.takeWrites s.intake.expected (s.slotSeq s.intake.expected) r vs) := by
    have words : leBytes 4 0 = [0, 0, 0, 0] := leBytes_zero 4
    rw [MemPath.issue_eq, MemPath.issue_eq, MemPath.issue_eq, MemPath.accept_accept, MemPath.accept_accept, words,
      cutWrites_short (by simp) (by simp) (place 12 _ (by simp)), cutWrites_short (by simp [leBytes]) (by simp)
        (place 8 _ (by simp)), cutWrites_short (by simp) (by simp) (place 4 _ (by simp))]
    rfl
  unfold State.finishTake
  simp only [State.issue, slotAddr_eq, wrote]
  rfl

/-- Settles O23: the three writes are short, so the queue takes as many as it has room for (`finishTake_eq`), and the
take ends or waits by whether one is left over. -/
theorem finishedTakeWritesItsResult : Obligations.FinishedTakeWritesItsResult := by
  intro s kind r vs page _ rests n q w ws m room asked s1
  have taken : s.path.accept ws = { s.path with queue := s.path.queue ++ ws.take room, waiting := ws.drop room } := by
    have hroom : s.path.room = room := if_pos rests
    rw [MemPath.accept, hroom, rests, List.nil_append]
  have finishing : s.finishing kind r vs = { asked with intake := { s.intake with
      take := .finishing, finish := some { kind := kind, result := r, seq := q, values := vs } } } :=
    congrArg (fun p => { asked with path := p, intake := { s.intake with
      take := .finishing, finish := some { kind := kind, result := r, seq := q, values := vs } } }) taken
  have ends (h : 3 ≤ room) : s.finishTake kind r vs = s1.beginTake := by
    have free : ws.drop room = [] := List.drop_of_length_le h
    rw [finishTake_eq kind r vs page, finishing, settleTake_ends (by simp)
      (not_stalled_iff.2 (by rintro ⟨x, hx, -⟩; simp only [asked, free] at hx; exact absurd hx (by simp)))]
  refine ⟨fun h => ?_, fun h k => ?_, fun h k => ?_⟩
  · have waits : w 4 [0, 0, 0, 0] (some n) ∈ ws.drop room := by
      obtain h | h | h : room = 0 ∨ room = 1 ∨ room = 2 := by omega
      all_goals (rw [h]; simp [ws])
    rw [finishTake_eq kind r vs page, finishing, settleTake_stalled (stalled_iff.2 ⟨_, waits, rfl⟩)]
  · rw [ends h, beginTake_stays (.inr (.inl k))]
  · have free : s1.stalled .orderIntake = false := not_stalled_iff.2 (by
      rintro ⟨x, hx, -⟩
      simp only [s1, asked, List.drop_of_length_le (show ws.length ≤ room from h)] at hx
      exact absurd hx (by simp))
    rw [ends h, beginTake_starts rfl k free, State.startTake_eq]

/-- An order's command away from its take leaves the part as it is. -/
theorem next_of_not_taken {s t : State} {k : OrderKind} (h : s.takes k = false) :
    Host.Outcome.next (if s.takes k then t else s) = (.next s : Host.Outcome State Fault Refusal) := by
  rw [h]
  rfl

/-- Settles O24: each order's command first asks whether the slot read returned its order. -/
theorem ordersActAtTheirTake : Obligations.OrdersActAtTheirTake := by
  refine ⟨fun s ready unknown => congrArg _ (if_pos ⟨ready, unknown⟩), fun s h => congrArg _ (if_neg ?_), ?_⟩
  · rintro ⟨ready, unknown⟩
    rcases h with h | h
    · exact absurd (h.symm.trans ready) (by simp)
    · exact absurd (h.symm.trans unknown) (by simp)
  · intro s p mem h
    simp only [List.mem_cons, List.not_mem_nil, or_false] at mem
    rcases mem with rfl | rfl | rfl | rfl | rfl | rfl | rfl | rfl | rfl | rfl | rfl | rfl | rfl | rfl | rfl | rfl | rfl
      | rfl | rfl | rfl | rfl | rfl | rfl | rfl | rfl
    all_goals exact next_of_not_taken h

end Sys2Proof.Machine
end

section
/-! SUPPORT. The orders on documents, and PRINT and CANCEL PRINT, case by case (R15 to R18, R169, R177). -/

namespace Sys2Proof.Machine

open Sys2Proof

/-- An order's command at its take carries the order out. -/
theorem next_of_taken {s t t' : State} {k : OrderKind} (h : s.takes k = true) (e : t = t') :
    Host.Outcome.next (if s.takes k then t else s) = (.next t' : Host.Outcome State Fault Refusal) := by
  rw [h, e]
  rfl

theorem next_of_taken_retry {s t t' : State} {k : OrderKind} (h : s.takes k = true) (e : t = t') :
    Host.Outcome.next (if s.takes k then t.scanRetry else s) =
      (.next t'.scanRetry : Host.Outcome State Fault Refusal) :=
  next_of_taken h (congrArg State.scanRetry e)

section cases
variable {s : State} {r : Doc} {d : Nat}

/-! ## KEEP and RELEASE (R15) -/

theorem orderKeep_free (h : s.doc (s.body 0 1) = none) : s.orderKeep = s.answer .keep .noSuch [] := by
  simp only [State.orderKeep, h]

theorem orderKeep_found (h : s.doc (s.body 0 1) = some r) : s.orderKeep =
    if r.deletePending then s.answer .keep .state []
    else if r.keep then s.answer .keep .already []
    else (s.modDoc (s.body 0 1) (fun x => { x with keep := true })).answer .keep .accepted [] := by
  simp only [State.orderKeep, h]

theorem orderRelease_free (h : s.doc (s.body 0 1) = none) : s.orderRelease = s.answer .release .noSuch [] := by
  simp only [State.orderRelease, h]

theorem orderRelease_found (h : s.doc (s.body 0 1) = some r) : s.orderRelease =
    if r.keep = false then s.answer .release .already []
    else ((s.modDoc (s.body 0 1) (fun x => { x with keep := false })).testFree
      (s.body 0 1)).answer .release .accepted [] := by
  simp only [State.orderRelease, h]

theorem testFree_freeable (h : s.doc d = some r) (f : r.freeable = true) : s.testFree d = s.freeDoc d := by
  simp only [State.testFree, h, f, if_true]

theorem testFree_bound (h : s.doc d = some r) (f : r.freeable = false) : s.testFree d = s := by
  simp [State.testFree, h, f]

theorem freeable_iff : r.freeable = true ↔ r.state = .closed ∧ r.sendRefs = 0 ∧ r.printRefs = 0 ∧ r.keep = false :=
  decide_eq_true_iff

theorem doc_modDoc_same (f : Doc → Doc) (h : s.doc d = some r) : (s.modDoc d f).doc d = some (f r) := by
  rw [State.doc_modDoc, if_pos rfl, h]
  rfl

/-! ## CLOSE DOCUMENT and DELETE DOCUMENT (R16 to R18) -/

theorem orderCloseDocument_free (h : s.doc (s.body 0 1) = none) :
    s.orderCloseDocument = s.answer .closeDocument .noSuch [] := by
  simp only [State.orderCloseDocument, h]

theorem orderCloseDocument_closed (h : s.doc (s.body 0 1) = some r) (c : r.state = .closed) :
    s.orderCloseDocument = s.answer .closeDocument .already [] := by
  simp only [State.orderCloseDocument, h, c]

theorem orderCloseDocument_opened (h : s.doc (s.body 0 1) = some r) (c : r.state = .opened) :
    s.orderCloseDocument = if r.attached then s.answer .closeDocument .busy []
      else (s.closeDocument (s.body 0 1) false).answer .closeDocument .accepted [] := by
  simp only [State.orderCloseDocument, h, c]

theorem orderDelete_free (h : s.doc (s.body 0 1) = none) : s.orderDelete = s.answer .deleteDocument .noSuch [] := by
  simp only [State.orderDelete, h]

theorem orderDelete_found (h : s.doc (s.body 0 1) = some r) : s.orderDelete =
    if r.state = .opened then s.answer .deleteDocument .state []
    else if r.deletePending then s.answer .deleteDocument .already []
    else if r.sendRefs = 0 ∧ r.printRefs = 0 then (s.freeDoc (s.body 0 1)).answer .deleteDocument .accepted []
    else if s.body 1 1 ≠ 0 then (s.forceDelete (s.body 0 1)).answer .deleteDocument .accepted []
    else s.answer .deleteDocument .busy [] := by
  simp only [State.orderDelete, h, decide_eq_true_eq]

/-- A document that can be deleted at once or by force: it is CLOSED and not marked (R17). -/
theorem orderDelete_closed (h : s.doc (s.body 0 1) = some r) (c : r.state = .closed) (m : r.deletePending = false) :
    s.orderDelete = if r.sendRefs = 0 ∧ r.printRefs =
      0 then (s.freeDoc (s.body 0 1)).answer .deleteDocument .accepted []
      else if s.body 1 1 ≠ 0 then (s.forceDelete (s.body 0 1)).answer .deleteDocument .accepted []
      else s.answer .deleteDocument .busy [] := by
  rw [orderDelete_found h, if_neg (by simp [c]), if_neg (by simp [m])]

/-! ## The end of one print entry (R177) -/

variable {e : PrintEntry} {i : Nat}

theorem cancelPrintEntry_stopped (h : s.printEntry i = some e) (k : e.stopRequested = true) :
    s.cancelPrintEntry i = s := by
  simp [State.cancelPrintEntry, h, k]

theorem cancelPrintEntry_resting (h : s.printEntry i = some e) (k : e.stopRequested = false)
    (rests : e.state = .waiting ∨ s.print.sheet = .noSheet) : s.cancelPrintEntry i = s.endPrintNow i := by
  have idle : ¬ (e.state = .printing ∧ s.print.sheet ≠ .noSheet) := by
    rintro ⟨p, q⟩
    exact rests.elim (fun w => by simp [p] at w) q
  simp only [State.cancelPrintEntry, h, k, Bool.false_eq_true, if_false, if_neg idle]

theorem cancelPrintEntry_printing (h : s.printEntry i = some e) (k : e.stopRequested = false) (p : e.state = .printing)
    (q : s.print.sheet ≠ .noSheet) : s.cancelPrintEntry i =
      if s.print.sheet = .sheetStarted then (s.modPrintEntry i (fun x => { x with stopRequested := true })).sheetOut
      else s.modPrintEntry i (fun x => { x with stopRequested := true }) := by
  simp only [State.cancelPrintEntry, h, k, Bool.false_eq_true, if_false, if_pos (And.intro p q)]

/-- CANCEL PRINT of an entry that is printing: a sheet that is only started is fed out, any other is left to its own
end. -/
theorem cancelPrintEntry_started (h : s.printEntry i = some e) (k : e.stopRequested = false) (p : e.state = .printing)
    (q : s.print.sheet = .sheetStarted) :
    s.cancelPrintEntry i = (s.modPrintEntry i (fun x => { x with stopRequested := true })).sheetOut := by
  rw [cancelPrintEntry_printing h k p (by simp [q]), if_pos q]

theorem cancelPrintEntry_moving (h : s.printEntry i = some e) (k : e.stopRequested = false) (p : e.state = .printing)
    (q : s.print.sheet = .lineInFlight ∨ s.print.sheet = .feedingOut) :
    s.cancelPrintEntry i = s.modPrintEntry i (fun x => { x with stopRequested := true }) := by
  rw [cancelPrintEntry_printing h k p (by rcases q with q | q <;> simp [q]),
    if_neg (by rcases q with q | q <;> simp [q])]

end cases

/-- Settles O25: each order by its own case equations; a document that RELEASE leaves unkept is freed when its other
conditions hold. -/
theorem documentOrdersFollowTheirTables : Obligations.DocumentOrdersFollowTheirTables := by
  intro s r d keep
  refine ⟨fun t => ⟨fun h => ?_, fun h del => ?_, fun h del k => ?_, fun h del k => ?_⟩,
    fun t => ⟨fun h => ?_, fun h k => ?_, fun h k f => ?_, fun h k f => ?_⟩,
    fun t => ⟨fun h => ?_, fun h c => ?_, fun h c at' => ?_, fun h c at' => ?_⟩,
    fun t => ⟨fun h => ?_, fun h c => ?_, fun h c del => ?_, fun h c del refs z => ?_, fun h c del refs => ?_,
      fun h c del refs z => ?_⟩, fun k => rfl, fun i e h => ⟨cancelPrintEntry_stopped h, cancelPrintEntry_resting h,
      cancelPrintEntry_started h, cancelPrintEntry_moving h⟩⟩
  case refine_1 => exact next_of_taken t (orderKeep_free h)
  case refine_2 => exact next_of_taken t (by rw [orderKeep_found h, if_pos del])
  case refine_3 => exact next_of_taken t (by rw [orderKeep_found h, if_neg (by simp [del]), if_pos k])
  case refine_4 =>
    exact next_of_taken t (by rw [orderKeep_found h, if_neg (by simp [del]), if_neg (by simp [k])])
  case refine_5 => exact next_of_taken_retry t (orderRelease_free h)
  case refine_6 =>
    exact next_of_taken_retry t (by rw [orderRelease_found h, if_pos k])
  case refine_7 =>
    have freed : (keep false).testFree d = (keep false).freeDoc d :=
      testFree_freeable (doc_modDoc_same _ h) (freeable_iff.2 ⟨f.1, f.2.1, f.2.2, rfl⟩)
    rw [← freed]
    exact next_of_taken_retry t (by
      rw [orderRelease_found h, if_neg (by simp [k])])
  case refine_8 =>
    have stays : (keep false).testFree d = keep false := testFree_bound (doc_modDoc_same _ h)
      (Bool.eq_false_iff.2 fun g => f (by
        obtain ⟨closed, sends, prints, -⟩ := freeable_iff.1 g
        exact ⟨closed, sends, prints⟩))
    refine next_of_taken_retry t ?_
    rw [orderRelease_found h, if_neg (by simp [k])]
    exact congrArg (fun x => State.answer x .release .accepted []) stays
  case refine_9 => exact next_of_taken_retry t (orderCloseDocument_free h)
  case refine_10 => exact next_of_taken_retry t (orderCloseDocument_closed h c)
  case refine_11 =>
    exact next_of_taken_retry t (by rw [orderCloseDocument_opened h c, if_pos at'])
  case refine_12 =>
    exact next_of_taken_retry t (by
      rw [orderCloseDocument_opened h c, if_neg (by simp [at'])])
  case refine_13 => exact next_of_taken_retry t (orderDelete_free h)
  case refine_14 =>
    exact next_of_taken_retry t (by rw [orderDelete_found h, if_pos c])
  case refine_15 =>
    exact next_of_taken_retry t (by
      rw [orderDelete_found h, if_neg (by simp [c]), if_pos del])
  case refine_16 =>
    exact next_of_taken_retry t (by
      rw [orderDelete_closed h c del, if_neg (by omega), if_neg (by omega)])
  case refine_17 =>
    exact next_of_taken_retry t (by
      rw [orderDelete_closed h c del, if_pos refs])
  case refine_18 =>
    exact next_of_taken_retry t (by
      rw [orderDelete_closed h c del, if_neg (by omega), if_pos z])

/-! ## PRINT and CANCEL PRINT (R169, R177) -/

section cases
variable {s : State} {r : Doc} {p : PrintPriority} {i : Nat}

/-- A print entry newly made for a document, behind the others (R169). -/
def State.withPrintEntry (s : State) (i d copies : Nat) (p : PrintPriority) : State :=
  ({ s with print := { s.print with
      arrivals := s.print.arrivals + 1,
      entries := tset s.print.entries i
        { document := d, priority := p, arrival := s.print.arrivals + 1, copiesLeft := copies, copiesPrinted := 0,
          state := .waiting, pageIndex := 0, stopRequested := false, ejected := 0 } } }).modDoc d
    (fun x => { x with printRefs := x.printRefs + 1 })

theorem makePrintEntry_full (d c : Nat) (h : lowestFree 64 s.print.entries = none) : s.makePrintEntry d c p = none := by
  simp only [State.makePrintEntry, show lowestFree Config.printEntries s.print.entries = none from h]

theorem makePrintEntry_made (d c : Nat) (h : lowestFree 64 s.print.entries = some i) :
    s.makePrintEntry d c p = some (i,
      (if (s.withPrintEntry i d c p).closedEmpty d then (s.withPrintEntry i d c p).finishEmpty i
        else s.withPrintEntry i d c p).printSelect) := by
  simp only [State.makePrintEntry, show lowestFree Config.printEntries s.print.entries = some i from h]
  rfl

theorem closedEmpty_iff {d : Nat} : s.closedEmpty d = true ↔ ∃ r,
    s.doc d = some r ∧ r.state = .closed ∧ r.pages = [] := by
  unfold State.closedEmpty
  cases s.doc d <;> simp

theorem withPrintEntry_doc {d c : Nat} (h : s.doc d = some r) :
    (s.withPrintEntry i d c p).doc d = some { r with printRefs := r.printRefs + 1 } := doc_modDoc_same _ h

theorem orderPrint_bad (h : printPriorityOf (s.body 2 1) = none) : s.orderPrint = s.answer .print .badOrder [] := by
  simp only [State.orderPrint, h]

theorem orderPrint_free (h : printPriorityOf (s.body 2 1) = some p) (k : s.doc (s.body 0 1) = none) :
    s.orderPrint = s.answer .print .noSuch [] := by
  simp only [State.orderPrint, h, k]

theorem orderPrint_found (h : printPriorityOf (s.body 2 1) = some p) (k : s.doc (s.body 0 1) = some r) :
    s.orderPrint = if r.deletePending then s.answer .print .state []
      else match s.makePrintEntry (s.body 0 1) (clampTo 1 9 (s.body 1 1)) p with
        | none => s.answer .print .full []
        | some (i, t) => t.answer .print .accepted [i] := by
  simp only [State.orderPrint, h, k] <;> rfl

theorem orderPrint_made (h : printPriorityOf (s.body 2 1) = some p) (k : s.doc (s.body 0 1) = some r)
    (m : r.deletePending = false) (f : lowestFree 64 s.print.entries = some i) :
    s.orderPrint =
      ((if (s.withPrintEntry i (s.body 0 1) (clampTo 1 9 (s.body 1 1)) p).closedEmpty (s.body 0 1)
        then (s.withPrintEntry i (s.body 0 1) (clampTo 1 9 (s.body 1 1)) p).finishEmpty i
        else s.withPrintEntry i (s.body 0 1) (clampTo 1 9 (s.body 1 1)) p).printSelect).answer .print .accepted [i] :=
          by
  rw [orderPrint_found h k, if_neg (by simp [m]), makePrintEntry_made _ _ f]

theorem orderCancelPrint_free (h : s.printEntry (s.body 0 1) = none) :
    s.orderCancelPrint = s.answer .cancelPrint .noSuch [] := by
  simp only [State.orderCancelPrint, h]

theorem orderCancelPrint_found {e : PrintEntry} (h : s.printEntry (s.body 0 1) = some e) :
    s.orderCancelPrint = if e.stopRequested then s.answer .cancelPrint .already []
      else (s.cancelPrintEntry (s.body 0 1)).answer .cancelPrint .accepted [] := by
  simp only [State.orderCancelPrint, h]

end cases

/-- Settles O31: a new entry by whether its document is CLOSED with no pages; CANCEL PRINT by `cancelPrintEntry_*`. -/
theorem printOrdersFollowTheirTables : Obligations.PrintOrdersFollowTheirTables := by
  intro s
  refine ⟨fun t => ⟨fun h => ?_, fun p h => ⟨fun k => ?_, fun r k => ⟨fun m => ?_, fun m f => ?_, fun i m f =>
    ⟨fun c => ?_, fun c z => ?_⟩⟩⟩⟩,
    fun t => ⟨fun h => ?_, fun e h => ⟨fun k => ?_, fun k q => ?_, fun k q c => ?_, fun k q c => ?_⟩⟩⟩
  case refine_1 => exact next_of_taken_retry t (orderPrint_bad h)
  case refine_2 => exact next_of_taken_retry t (orderPrint_free h k)
  case refine_3 =>
    exact next_of_taken_retry t (by rw [orderPrint_found h k, if_pos m])
  case refine_4 =>
    exact next_of_taken_retry t (by
      rw [orderPrint_found h k, if_neg (by simp [m]), makePrintEntry_full _ _ f])
  case refine_5 =>
    refine next_of_taken_retry t ?_
    rw [orderPrint_made h k m f, if_neg]
    · rfl
    · rw [closedEmpty_iff, withPrintEntry_doc k]
      rintro ⟨q, e, closed, none⟩
      obtain rfl := Option.some.inj e
      exact c.elim (fun o => by simp [o] at closed) (fun o => o none)
  case refine_6 =>
    refine next_of_taken_retry t ?_
    rw [orderPrint_made h k m f, if_pos (closedEmpty_iff.2 ⟨_, withPrintEntry_doc k, c, z⟩)]
    rfl
  case refine_7 => exact next_of_taken_retry t (orderCancelPrint_free h)
  case refine_8 =>
    exact next_of_taken_retry t (by rw [orderCancelPrint_found h, if_pos k])
  all_goals
    refine next_of_taken_retry t ?_
    rw [orderCancelPrint_found h, if_neg (by simp [k])]
  case refine_9 => rw [cancelPrintEntry_resting h k q]; rfl
  case refine_10 => rw [cancelPrintEntry_started h k q c]; rfl
  case refine_11 => rw [cancelPrintEntry_moving h k q c]

end Sys2Proof.Machine
end

section
/-! SUPPORT. The Page Store: blocks that return, pages that go, documents that close and are freed, and the opening of a
page (R4, R5, R8, R12, R14). -/

namespace Sys2Proof.Machine

open Sys2Proof

/-! ## Blocks that return, and sources that are woken (R4, R32, R33) -/

@[simp] theorem source_wakeAll (s : State) (c : WaitCause) (i : SourceId) :
    (s.wakeAll c).source i = (s.source i).wake c := by
  rcases i with _ | w
  · rfl
  · cases w <;> rfl

theorem source_returnBlocks (s : State) (bs : List Nat) (i : SourceId) :
    (s.returnBlocks bs).source i = if bs = [] then s.source i else (s.source i).wake .block := by
  unfold State.returnBlocks
  split
  · rfl
  · exact source_wakeAll _ _ _

theorem returnBlocks_links (s : State) (bs : List Nat) (b : Nat) :
    tget (s.returnBlocks bs).store.links b = if b ∈ bs then none else tget s.store.links b := by
  unfold State.returnBlocks
  split
  next h => simp [h]
  next => exact tget_foldl_tdel bs _ b

/-- A source after blocks have returned and a page record has become free. -/
theorem wake_block_page (x : Source) (bs : List Nat) :
    (if bs = [] then x else x.wake .block).wake .pageRecord = { x with
      wait := if x.wait = some .pageRecord ∨ (x.wait = some .block ∧ bs ≠ []) then none else x.wait } := by
  by_cases h : bs = []
  · rw [if_pos h]
    unfold Source.wake
    by_cases hp : x.wait = some .pageRecord
    · rw [if_pos hp, if_pos (.inl hp)]
    · rw [if_neg hp, if_neg (by simp [hp, h])]
  · rw [if_neg h]
    unfold Source.wake
    by_cases hb : x.wait = some .block
    · simp [hb, h]
    · by_cases hp : x.wait = some .pageRecord <;> simp [hb, hp]

section freeing
variable {s : State} {p d : Nat} {x : PageRec} {r : Doc}

theorem abandonPage_eq (h : s.page p = some x) : s.abandonPage p =
    State.wakeAll { s.returnBlocks (s.store.chain x) with store := { (s.returnBlocks (s.store.chain x)).store with
      pages := tdel s.store.pages p,
      docs := tmod s.store.docs x.document (fun y => { y with pages := dropNum p y.pages }) } } .pageRecord := by
  obtain ⟨pages, docs, -⟩ := State.returnBlocks_all s (s.store.chain x)
  simp only [State.abandonPage, h, pages, docs]

theorem freeDoc_eq (h : s.doc d = some r) : s.freeDoc d =
    let t : State := { s.returnBlocks (s.blocksOf r.pages) with store := { (s.returnBlocks
      (s.blocksOf r.pages)).store with
      pages := r.pages.foldl (fun t p => tdel t p) s.store.pages, docs := tdel s.store.docs d } }
    (if r.pages = [] then t else t.wakeAll .pageRecord).post .pageStore
      (.docFreed d r.pages.length (s.blocksOf r.pages).length) := by
  obtain ⟨pages, docs, -⟩ := State.returnBlocks_all s (s.blocksOf r.pages)
  simp only [State.freeDoc, h, pages, docs]

end freeing

/-- A page that is abandoned (R8). -/
theorem abandonPage_spec {s : State} {p : Nat} {x : PageRec} (h : s.page p = some x) :
    let bs := s.store.chain x
    let t := s.abandonPage p
    (∀ q, t.page q = if q = p then none else s.page q)
    ∧ t.store.docs = tmod s.store.docs x.document (fun y => { y with pages := y.pages.filter (fun q => q ≠ p) })
    ∧ t.store.free = s.store.free ++ bs ∧ (∀ b ∈ bs, tget t.store.links b = none)
    ∧ (∀ b, b ∉ bs → tget t.store.links b = tget s.store.links b)
    ∧ t.store.base = s.store.base ∧ t.store.blockCount = s.store.blockCount
    ∧ (∀ i, let w := (s.source i).wait
        t.source i = { s.source i with
          wait := if w = some .pageRecord ∨ (w = some .block ∧ bs ≠ []) then none else w })
    ∧ t = { s with store := t.store, coder := t.coder } ∧ t.coder.marker = s.coder.marker := by
  obtain ⟨-, -, free, none, base, count, frame⟩ := State.returnBlocks_all s (s.store.chain x)
  dsimp only
  rw [abandonPage_eq h]
  refine ⟨fun q => tget_tdel _ _ _, rfl, free, none, fun b hb => ?_, base, count, fun i => ?_, ?_, ?_⟩
  · exact (returnBlocks_links s _ b).trans (if_neg hb)
  · rw [source_wakeAll, ← wake_block_page, ← source_returnBlocks]
    cases i <;> rfl
  · rw [frame]
    rfl
  · show (s.returnBlocks _).coder.marker = _
    unfold State.returnBlocks
    split <;> rfl

/-- A document that is freed (R14). -/
theorem freeDoc_spec {s : State} {d : Nat} {r : Doc} (h : s.doc d = some r) :
    let bs := s.blocksOf r.pages
    let t := s.freeDoc d
    t.doc d = none ∧ (∀ e, e ≠ d → t.doc e = s.doc e)
    ∧ (∀ p, t.page p = if p ∈ r.pages then none else s.page p)
    ∧ t.store.free = s.store.free ++ bs ∧ (∀ b ∈ bs, tget t.store.links b = none)
    ∧ t.store.base = s.store.base ∧ t.store.blockCount = s.store.blockCount
    ∧ t = { s with store := t.store, coder := t.coder, reporter := { s.reporter with
        postings := s.reporter.postings ++ [⟨.pageStore, .docFreed d r.pages.length bs.length⟩] } } := by
  obtain ⟨-, -, free, none, base, count, frame⟩ := State.returnBlocks_all s (s.blocksOf r.pages)
  have store (t : State) : (if r.pages = [] then t else t.wakeAll .pageRecord).store = t.store := by split <;> rfl
  dsimp only
  rw [freeDoc_eq h]
  simp only [State.doc, State.page, State.post_store, store]
  refine ⟨tget_tdel_self _ _, fun e he => tget_tdel_other _ he, fun p => tget_foldl_tdel _ _ _, free, none, base, count,
    ?_⟩
  rw [frame]
  split <;> rfl

/-! ## A document closes (R12) -/

section closing
variable {s : State} {d : Nat} {r : Doc}

/-- The document's record after DOC_CLOSED, with its window unbound (R12, R53). -/
def State.closedWith (s : State) (d : Nat) (r : Doc) (b : Bool) : State :=
  State.post { s with
    store := { s.store with docs := tmod s.store.docs d (fun x =>
      { x with state := .closed, truncated := b, attached := false }) },
    path := { s.path with win := ⟨s.path.win.w0.unbind d, s.path.win.w1.unbind d⟩ } } .pageStore
      (.docClosed d r.origin r.pages.length b r.notQueued r.total)

/-- The print entries of a document that wait at its first page (R12). -/
def State.waitingAtFirst (s : State) (d : Nat) : List Nat :=
  (s.print.entries.filter (fun x => x.2.document = d ∧ x.2.state = .waiting ∧ x.2.pageIndex = 0)).map (fun x => x.1)

theorem closeDocument_eq (h : s.doc d = some r) (b : Bool) : s.closeDocument d b =
    (((if (s.closedWith d r b).closedEmpty d
        then (s.waitingAtFirst d).foldl (fun t i => t.finishEmpty i) (s.closedWith d r b)
        else s.closedWith d r b).rereadCurrent d none).printSelect).testFree d := by
  simp only [State.closeDocument, State.markClosed, h]
  rfl

theorem closedWith_empty_iff (h : s.doc d = some r) (b : Bool) :
    (s.closedWith d r b).closedEmpty d = true ↔ r.pages = [] := by
  have doc : (s.closedWith d r b).doc d = some { r with state := .closed, truncated := b, attached := false } :=
    doc_modDoc_same _ h
  rw [closedEmpty_iff, doc]
  simp

theorem rereadCurrent_free (h : s.print.current = none) (q : Option Nat) : s.rereadCurrent d q = s := by
  simp only [State.rereadCurrent, h]

theorem printSelect_empty (h : s.print.entries = []) : s.printSelect = s := by
  unfold State.printSelect
  split
  · rfl
  · simp only [h]
    rfl

end closing

/-- Settles O26: an abandoned page, a freed document and a closed one, each by its own lemma. -/
theorem documentClosesAndIsFreed : Obligations.DocumentClosesAndIsFreed := by
  refine ⟨fun s p x h => abandonPage_spec h, fun s d r h => ⟨testFree_bound h, fun f => ?_, fun b =>
    ⟨fun pages => ?_, fun none => ?_, fun noEntries noCurrent => ?_⟩, fun i => rfl, rereadCurrent_free⟩⟩
  · dsimp only
    rw [testFree_freeable h f]
    exact freeDoc_spec h
  · rw [closeDocument_eq h, if_neg (fun e => pages ((closedWith_empty_iff h b).1 e))]
    rfl
  · rw [closeDocument_eq h, if_pos ((closedWith_empty_iff h b).2 none)]
    rfl
  · have waiting : s.waitingAtFirst d = [] := by
      rw [State.waitingAtFirst, noEntries]
      rfl
    rw [closeDocument_eq h, waiting, List.foldl_nil, ite_self, rereadCurrent_free (s := s.closedWith d r b) noCurrent,
      printSelect_empty (s := s.closedWith d r b) noEntries]
    rfl

/-! ## A page opens (R5) -/

section opening
variable {s : State} {d : Nat} {r : Doc} {w : Width} {v : Resolution}

/-- The record of a page that is FILLING at the end of a document's list, with no block yet (R5). -/
def newPage (d : Nat) (r : Doc) (w : Width) (v : Resolution) : PageRec :=
  { state := .filling, document := d, position := r.pages.length, origin := r.origin, width := w, resolution := v,
    lines := 0, coded := 0, first := 0, last := 0, blocks := 0, clipped := false }

/-- A page's record at the end of its document's list (R5). -/
def State.withPage (s : State) (p d : Nat) (x : PageRec) : State :=
  { s with store := { s.store with
    pages := tset s.store.pages p x, docs := tmod s.store.docs d (fun y => { y with pages := y.pages ++ [p] }) } }

theorem openPage_full (h : s.doc d = some r) (k : 250 ≤ r.pages.length ∨ r.state = .closed) :
    s.openPage d w v = .refused .docFull := by
  simp only [State.openPage, h]
  exact if_pos k

theorem openPage_open (h : s.doc d = some r) (k : r.pages.length < 250) (o : r.state = .opened) :
    s.openPage d w v = if (s.fillingPage d).isSome then .refused .docBusy
      else match lowestFree 1024 s.store.pages with
        | none => .refused .noPage
        | some p => if s.store.free = [] then .refused .noBlock
          else match (s.withPage p d (newPage d r w v)).allocBlock p with
            | some t => .opened p t
            | none => .refused .noBlock := by
  have ok : ¬ (250 ≤ r.pages.length ∨ r.state = .closed) := by
    rw [o]
    simp
    omega
  simp only [State.openPage, h]
  exact (if_neg ok).trans rfl

/-- A new page gets the head of the free list as its first block (R3, R5). -/
theorem allocBlock_first {t : State} {p b : Nat} {rest : List Nat} {x : PageRec} (h : t.page p = some x)
    (none : x.blocks = 0) (f : t.store.free = b :: rest) : t.allocBlock p = some { t with store := { t.store with
      free := rest, links := tdel t.store.links b,
      pages := tset t.store.pages p { x with first := b, last := b, blocks := 1 } } } := by
  simp only [State.allocBlock, f, h, none, if_true, Nat.zero_add]

theorem openPage_opens (h : s.doc d = some r) (k : r.pages.length < 250) (o : r.state = .opened)
    (busy : s.fillingPage d = none) {p b : Nat} {rest : List Nat} (free : lowestFree 1024 s.store.pages = some p)
    (head : s.store.free = b :: rest) : s.openPage d w v = .opened p { s with store := { s.store with
      free := rest, links := tdel s.store.links b,
      pages := tset (tset s.store.pages p (newPage d r w v)) p
        { newPage d r w v with first := b, last := b, blocks := 1 },
      docs := tmod s.store.docs d (fun y => { y with pages := y.pages ++ [p] }) } } := by
  have given := allocBlock_first (t := s.withPage p d (newPage d r w v)) (p := p) (tget_tset _ _ _) rfl head
  rw [openPage_open h k o, busy]
  simp only [Option.isSome_none, Bool.false_eq_true, if_false, free, given, head, reduceCtorEq]
  rfl

end opening

/-- Settles O27: the refusals in their order (`openPage_open`), and the page that is opened (`openPage_opens`). -/
theorem pageOpensWithItsFirstBlock : Obligations.PageOpensWithItsFirstBlock := by
  intro s d r w v h
  refine ⟨openPage_full h, fun k o => ⟨fun busy => ?_, fun busy full => ?_, fun p busy free none => ?_,
    fun p b rest busy free head => ?_⟩⟩
  · rw [openPage_open h k o, if_pos (Option.isSome_iff_ne_none.2 busy)]
  · rw [openPage_open h k o, busy, full]
    rfl
  · rw [openPage_open h k o, busy, free]
    simp [none]
  · refine ⟨_, openPage_opens h k o busy free head, rfl, rfl, rfl, rfl, rfl, rfl, fun q => ?_⟩
    by_cases hq : q = p
    · subst hq
      rw [if_pos rfl]
      exact tget_tset _ _ _
    · rw [if_neg hq]
      exact (tget_tset_other _ _ _ _ hq).trans (tget_tset_other _ _ _ _ hq)

end Sys2Proof.Machine
end

section
/-! SUPPORT. SCAN, OPEN WINDOW PAGE and CLOSE WINDOW PAGE, case by case (R54, R58, R86, R87). -/

namespace Sys2Proof.Machine

open Sys2Proof

/-! ## SCAN (R86, R87) -/

section scan
variable {s : State} {w : Width} {v : Resolution} {t : ScanTarget}

/-- The scanner and its desk let a session begin (R86). -/
def State.ScanFree (s : State) (t : ScanTarget) : Prop :=
  s.scanner.state = .idle ∧ s.scanner.jam = false ∧ s.scanner.sheetPresent = true
    ∧ ¬ (t = .sendReady ∧ s.deskClosed (s.body 0 1) = true)

theorem orderScan_unknown (h : widthOf (s.body 1 1) = none ∨ resolutionOf (s.body 2 1) = none
    ∨ scanTargetOf (s.body 3 1) = none ∨ 15 < s.body 0 1) : s.orderScan = s.answer .scan .badOrder [] := by
  unfold State.orderScan
  dsimp only
  split
  next hw hv ht =>
    refine if_pos ?_
    simpa [hw, hv, ht] using h
  next => rfl

theorem orderScan_known (hw : widthOf (s.body 1 1) = some w) (hv : resolutionOf (s.body 2 1) = some v)
    (ht : scanTargetOf (s.body 3 1) = some t) (desk : s.body 0 1 ≤ 15) : s.orderScan =
      if s.scanner.state ≠ .idle then s.answer .scan .state []
      else if s.scanner.jam ∨ s.scanner.sheetPresent = false then s.answer .scan .state []
      else if t = .sendReady ∧ s.deskClosed (s.body 0 1) then s.answer .scan .state []
      else if lowestFree 1024 s.store.pages = none then s.answer .scan .full []
      else match s.openDoc .scan (s.body 0 1) none with
        | none => s.answer .scan .full []
        | some (d, s1) =>
          (s1.startScan d (s.body 0 1) (clampTo 1 9 (s.body 4 1)) t w v).answer .scan .accepted [d] := by
  unfold State.orderScan
  rw [hw, hv, ht]
  dsimp only
  exact if_neg (by omega)

theorem orderScan_state (hw : widthOf (s.body 1 1) = some w) (hv : resolutionOf (s.body 2 1) = some v)
    (ht : scanTargetOf (s.body 3 1) = some t) (desk : s.body 0 1 ≤ 15) (h : ¬ s.ScanFree t) :
    s.orderScan = s.answer .scan .state [] := by
  rw [orderScan_known hw hv ht desk]
  split
  next => rfl
  next idle =>
    split
    next => rfl
    next level =>
      refine if_pos ?_
      by_contra k
      exact h ⟨not_not.1 idle, by simpa using fun e => level (.inl e), by simpa using fun e => level (.inr e), k⟩

theorem orderScan_free (hw : widthOf (s.body 1 1) = some w) (hv : resolutionOf (s.body 2 1) = some v)
    (ht : scanTargetOf (s.body 3 1) = some t) (desk : s.body 0 1 ≤ 15) (h : s.ScanFree t) : s.orderScan =
      if lowestFree 1024 s.store.pages = none then s.answer .scan .full []
      else match s.openDoc .scan (s.body 0 1) none with
        | none => s.answer .scan .full []
        | some (d, s1) =>
          (s1.startScan d (s.body 0 1) (clampTo 1 9 (s.body 4 1)) t w v).answer .scan .accepted [d] := by
  obtain ⟨idle, jam, sheet, closed⟩ := h
  rw [orderScan_known hw hv ht desk, if_neg (by simp [idle]), if_neg (by simp [jam, sheet]), if_neg closed]

/-- The record of a document newly opened (R10). -/
def State.newDoc (s : State) (o : Origin) (desk : Nat) (station : Option Text) : Doc :=
  { state := .opened, origin := o, desk := desk, pages := [], keep := false, sendRefs := 0, printRefs := 0,
    truncated := false, notQueued := false, deletePending := false, created := s.now, station := station, total := 0,
    attached := true }

theorem openDoc_none (o : Origin) (desk : Nat) (station : Option Text) (h : lowestFree 256 s.store.docs = none) :
    s.openDoc o desk station = none := by
  simp only [State.openDoc, show lowestFree Config.docRecords s.store.docs = none from h]

theorem openDoc_some {d : Nat} (o : Origin) (desk : Nat) (station : Option Text)
    (h : lowestFree 256 s.store.docs = some d) : s.openDoc o desk station =
      some (d, { s with store := { s.store with docs := tset s.store.docs d (s.newDoc o desk station) } }) := by
  simp only [State.openDoc, show lowestFree Config.docRecords s.store.docs = some d from h]
  rfl

end scan

/-- Settles O28: the refusals in their order, then the session and its target's action. -/
theorem scanOpensASession : Obligations.ScanOpensASession := by
  intro s taken desk copies
  refine ⟨fun h => next_of_taken taken (orderScan_unknown h), fun w v t hw hv ht hd =>
    ⟨fun h => next_of_taken taken (orderScan_state hw hv ht hd h), fun h full => next_of_taken taken ?_,
      fun h room d free => next_of_taken taken ?_⟩⟩
  · rw [orderScan_free hw hv ht hd h]
    split
    next => rfl
    next room => rw [openDoc_none _ _ _ (full.resolve_right room)]
  · rw [orderScan_free hw hv ht hd h, if_neg room, openDoc_some _ _ _ free]
    cases t <;> rfl

/-! ## OPEN WINDOW PAGE (R53, R54) -/

theorem windowModeOf_iff {n : Nat} {m : WindowMode} : windowModeOf n = some m ↔ n = (match m with
    | .fixed => 1
    | .indexed => 2) := by
  unfold windowModeOf
  cases m <;> (dsimp only; split_ifs <;> simp <;> omega)

theorem widthOf_iff {n : Nat} {w : Width} : widthOf n = some w ↔ n = (match w with
    | .narrow => 1
    | .standard => 2
    | .broad => 3) := by
  unfold widthOf
  cases w <;> (dsimp only; split_ifs <;> simp <;> omega)

theorem resolutionOf_iff {n : Nat} {v : Resolution} : resolutionOf n = some v ↔ n = (match v with
    | .normal => 1
    | .fine => 2) := by
  unfold resolutionOf
  cases v <;> (dsimp only; split_ifs <;> simp <;> omega)

theorem windowOrder_iff (s : State) (o : WindowOrder) : s.windowOrder = some o ↔
    s.body 4 1 ≤ 15 ∧ windowModeOf (s.body 6 1) = some o.mode ∧ widthOf (s.body 7 1) = some o.width
      ∧ resolutionOf (s.body 8 1) = some o.resolution ∧ o.document = s.body 2 2 ∧ o.desk = s.body 4 1
      ∧ o.pages = min 250 (s.body 5 1) ∧ o.lines = min 8191 (s.body 10 2) := by
  unfold State.windowOrder
  split
  next m w v hm hw hv =>
    rw [hm, hw, hv]
    split
    next high => simp only [reduceCtorEq, false_iff]; omega
    next low =>
      constructor
      · intro e
        obtain rfl := Option.some.inj e
        exact ⟨by omega, rfl, rfl, rfl, rfl, rfl, rfl, rfl⟩
      · rintro ⟨-, em, ew, ev, ed, ek, ep, el⟩
        obtain ⟨document, desk, pages, mode, width, resolution, lines⟩ := o
        simp_all
  next none =>
    simp only [reduceCtorEq, false_iff]
    rintro ⟨-, em, ew, ev, -⟩
    exact none _ _ _ em ew ev

theorem windowRegion_isSome_iff (p : MemPath) (w : WindowId) :
    (p.windowRegion w).isSome = true ↔ windowNum w < p.rasters.length := by
  unfold MemPath.windowRegion
  cases h : p.rasters[windowNum w]? with
  | none => simpa using h
  | some i =>
    obtain ⟨short, -⟩ := List.getElem?_eq_some_iff.1 h
    obtain ⟨q, mem, -⟩ := mem_rasters.1 (List.mem_of_getElem? h)
    have found : tget p.regions i ≠ none := fun none => tget_none_iff.1 none _ mem rfl
    simpa [short] using Option.isSome_iff_ne_none.2 found

theorem rasters_length (p : MemPath) :
    p.rasters.length = p.regions.countP (fun x => decide (x.2.treatment = .raster)) := by
  rw [MemPath.rasters, List.length_map, List.countP_eq_length_filter]

theorem namedWindow_iff (s : State) (n : Nat) (w : WindowId) : s.namedWindow n = some w ↔
    n = windowNum w ∧ n < s.path.regions.countP (fun x => decide (x.2.treatment = .raster)) := by
  have named : s.namedWindow n = some w ↔ n = windowNum w ∧ (s.path.windowRegion w).isSome = true := by
    unfold State.namedWindow
    obtain rfl | rfl | ⟨h0, h1⟩ : n = 0 ∨ n = 1 ∨ n ≠ 0 ∧ n ≠ 1 := by omega
    · cases w <;> simp [windowNum, Option.isSome_iff_ne_none]
    · cases w <;> simp [windowNum, Option.isSome_iff_ne_none]
    · cases w <;> simp [windowNum, h0, h1]
  rw [named, windowRegion_isSome_iff, rasters_length]
  constructor <;> (rintro ⟨rfl, h⟩; exact ⟨rfl, h⟩)

section openWindow
variable {s : State} {w : WindowId} {o : WindowOrder}

theorem orderOpenWindow_unnamed (h : s.namedWindow (s.body 0 1) = none) :
    s.orderOpenWindow = s.answer .openWindowPage .noSuch [] := by
  simp only [State.orderOpenWindow, h]

theorem orderOpenWindow_bad (h : s.namedWindow (s.body 0 1) = some w) (k : s.windowOrder = none) :
    s.orderOpenWindow = s.answer .openWindowPage .badOrder [] := by
  simp only [State.orderOpenWindow, h, k]

theorem orderOpenWindow_known (h : s.namedWindow (s.body 0 1) = some w) (k : s.windowOrder = some o) :
    s.orderOpenWindow =
      if (s.window w).state ≠ .idle ∨ (s.window w).sealPending then s.answer .openWindowPage .busy []
      else if o.document = 0xFFFF then
        if (s.window w).document ≠ none then s.answer .openWindowPage .state []
        else match s.openDoc .window o.desk none with
          | none => s.answer .openWindowPage .full []
          | some (d, t) => (t.bindWindow w d o.pages).beginWindowPage w d o
      else if (s.window w).document ≠ some o.document then s.answer .openWindowPage .noSuch []
      else s.beginWindowPage w o.document o := by
  simp only [State.orderOpenWindow, h, k] <;> rfl

/-- A window at rest answers by the document that the order names (R54). -/
theorem orderOpenWindow_resting (h : s.namedWindow (s.body 0 1) = some w) (k : s.windowOrder = some o)
    (rest : (s.window w).state = .idle ∧ (s.window w).sealPending = false) : s.orderOpenWindow =
      if o.document = 0xFFFF then
        if (s.window w).document ≠ none then s.answer .openWindowPage .state []
        else match s.openDoc .window o.desk none with
          | none => s.answer .openWindowPage .full []
          | some (d, t) => (t.bindWindow w d o.pages).beginWindowPage w d o
      else if (s.window w).document ≠ some o.document then s.answer .openWindowPage .noSuch []
      else s.beginWindowPage w o.document o := by
  rw [orderOpenWindow_known h k, if_neg (by simp [rest.1, rest.2])]

theorem beginWindowPage_refused {d : Nat} {e : OpenRefusal} (h : s.openPage d o.width o.resolution = .refused e) :
    s.beginWindowPage w d o =
      (s.modDoc d (fun y => { y with attached := false })).answer .openWindowPage .full [d] := by
  simp only [State.beginWindowPage, State.beginSource, h]

theorem beginWindowPage_opened {d p : Nat} {t : State} (h : s.openPage d o.width o.resolution = .opened p t) :
    s.beginWindowPage w d o = (((t.modSource (.win w) (fun y => { y with
        page := some p, document := d, width := o.width, resolution := o.resolution, ref := [] })).modWindow w
      (fun y => y.open_ o (some p))).modDoc d (fun y => { y with attached := true })).answer
        .openWindowPage .accepted [d, p] := by
  simp only [State.beginWindowPage, State.beginSource, h]
  have page : ((t.modSource (.win w) (fun y => { y with
      page := some p, document := d, width := o.width, resolution := o.resolution, ref := [] })).source
        (.win w)).page = some p := by cases w <;> rfl
  rw [page]
  rfl

end openWindow

/-- Settles O29: the fields by `windowOrder_iff`, the number by `namedWindow_iff`, and the cases of the table in their
order. -/
theorem openWindowPageFollowsItsTable : Obligations.OpenWindowPageFollowsItsTable := by
  refine ⟨fun s => ⟨fun off n => ?_, fun o => ?_, namedWindow_iff s⟩, fun s taken =>
    ⟨fun h => next_of_taken taken (orderOpenWindow_unnamed h), fun w h =>
      ⟨fun k => next_of_taken taken (orderOpenWindow_bad h k), fun o k => ⟨fun busy => next_of_taken taken ?_,
        fun rest new bound => next_of_taken taken ?_, fun rest old other => next_of_taken taken ?_,
        fun rest new unbound full => next_of_taken taken ?_, fun rest new unbound d t opened => ?_,
        fun rest old bound => ?_⟩⟩⟩⟩
  · rw [State.body, slotAddr_eq]
  · rw [windowOrder_iff]
    dsimp only
    rw [windowModeOf_iff, widthOf_iff, resolutionOf_iff]
    simp only [State.body, slotAddr_eq] <;> rfl
  · rw [orderOpenWindow_known h k, if_pos]
    by_contra quiet
    exact busy ⟨by simpa using fun e => quiet (.inl e), by simpa using fun e => quiet (.inr e)⟩
  · rw [orderOpenWindow_resting h k rest, if_pos new, if_pos bound]
  · rw [orderOpenWindow_resting h k rest, if_neg old, if_pos other]
  · rw [orderOpenWindow_resting h k rest, if_pos new, if_neg (not_not.2 unbound), full]
  · have begins : s.orderOpenWindow = (t.bindWindow w d o.pages).beginWindowPage w d o := by
      rw [orderOpenWindow_resting h k rest, if_pos new, if_neg (not_not.2 unbound), opened]
    exact ⟨fun e h => next_of_taken taken (begins.trans (beginWindowPage_refused h)),
      fun p t h => next_of_taken taken (begins.trans (beginWindowPage_opened h))⟩
  · have begins : s.orderOpenWindow = s.beginWindowPage w o.document o := by
      rw [orderOpenWindow_resting h k rest, if_neg old, if_neg (not_not.2 bound)]
    exact ⟨fun e h => next_of_taken taken (begins.trans (beginWindowPage_refused h)),
      fun p t h => next_of_taken taken (begins.trans (beginWindowPage_opened h))⟩

/-! ## CLOSE WINDOW PAGE (R58) -/

section closeWindow
variable {s : State} {w : WindowId} {i : SlotId}

/-- A slot's line has been handed to the Page Coder (R57). -/
def State.handed (s : State) (w : WindowId) (i : SlotId) : State :=
  (s.modWindow w (fun y => y.handed i)).modSource (.win w) (fun y => { y with queue := y.queue ++ [slotNum i] })

theorem handSlot_last (h : (s.window w).LastLine) : s.handSlot w i = (s.handed w i).endWindowPage w := if_pos h

theorem handSlot_more (h : ¬ (s.window w).LastLine) : s.handSlot w i = s.handed w i := if_neg h

theorem endWindowPage_twice (s : State) (w : WindowId) :
    (s.endWindowPage w).endWindowPage w = s.endWindowPage w := by
  cases w <;> rfl

/-- Whether or not the line handed was a counted page's last, the page's end comes once. -/
theorem handSlot_ends (s : State) (w : WindowId) (i : SlotId) :
    (s.handSlot w i).endWindowPage w = (s.handed w i).endWindowPage w := by
  by_cases h : (s.window w).LastLine
  · rw [handSlot_last h, endWindowPage_twice]
  · rw [handSlot_more h]

theorem window_handed (s : State) (w : WindowId) (i : SlotId) : (s.handed w i).window w = (s.window w).handed i := by
  rw [State.handed, window_modSource, window_modWindow_same]

theorem handPartial_idle (h : (s.window w).state = .idle) : s.handPartial w i = s := if_pos h

theorem handPartial_quiet (h : ((s.window w).slot i).state = .empty ∨ ((s.window w).slot i).state = .coding) :
    s.handPartial w i = s := by
  unfold State.handPartial
  rcases h with h | h <;> simp [h]

theorem handPartial_begun (o : (s.window w).state ≠ .idle)
    (h : ((s.window w).slot i).state = .filling ∨ ((s.window w).slot i).state = .complete) :
    s.handPartial w i = s.handSlot w i := by
  unfold State.handPartial
  rcases h with h | h <;> simp [h, o]

theorem orderCloseWindow_unnamed (h : s.namedWindow (s.body 0 1) = none) :
    s.orderCloseWindow = s.answer .closeWindowPage .noSuch [] := by
  simp only [State.orderCloseWindow, h]

theorem orderCloseWindow_idle (h : s.namedWindow (s.body 0 1) = some w) (k : (s.window w).state = .idle) :
    s.orderCloseWindow = s.answer .closeWindowPage .state [] := by
  simp only [State.orderCloseWindow, h, k]

theorem orderCloseWindow_holding (h : s.namedWindow (s.body 0 1) = some w) (k : (s.window w).state = .holding) :
    s.orderCloseWindow = s.answer .closeWindowPage .busy [] := by
  simp only [State.orderCloseWindow, h, k]

theorem orderCloseWindow_opened (h : s.namedWindow (s.body 0 1) = some w) (k : (s.window w).state = .opened) :
    s.orderCloseWindow = (s.closeWindowPage w).answer .closeWindowPage .accepted [] := by
  simp only [State.orderCloseWindow, h, k]

end closeWindow

/-- Settles O30: `handPartial` hands a slot begun and leaves any other alone, and once the page has ended it hands no
more. -/
theorem closeWindowPageHandsItsLine : Obligations.CloseWindowPageHandsItsLine := by
  intro s taken
  refine ⟨fun h => next_of_taken taken (orderCloseWindow_unnamed h), fun w h =>
    ⟨fun k => next_of_taken taken (orderCloseWindow_idle h k),
      fun k => next_of_taken taken (orderCloseWindow_holding h k),
      fun k => ?_⟩⟩
  have busy : (s.window w).state ≠ .idle := by simp [k]
  have closes {t : State} (e : s.closeWindowPage w = t.endWindowPage w) :
      exec .closeWindowPage s = .next ((t.endWindowPage w).answer .closeWindowPage .accepted []) :=
    next_of_taken taken ((orderCloseWindow_opened h k).trans (congrArg (fun x => State.answer x _ _ _) e))
  refine ⟨fun qi qj => closes (t := s) ?_, fun bi qj => closes (t := s.handed w (s.window w).next) ?_,
    fun qi bj => closes (t := s.handed w (otherSlot (s.window w).next)) ?_,
    fun bi bj more => closes (t := (s.handed w (s.window w).next).handed w (otherSlot (s.window w).next)) ?_⟩
  all_goals rw [State.closeWindowPage]
  · rw [handPartial_quiet qi, handPartial_quiet qj]
  · rw [handPartial_begun busy bi]
    by_cases last : (s.window w).LastLine
    · rw [handSlot_last last, handPartial_idle (by rw [window_endWindowPage]), endWindowPage_twice]
    · rw [handSlot_more last, handPartial_quiet]
      rw [window_handed, Window.handed_slot_other]
      exact qj.resolve_right last
  · rw [handPartial_quiet qi, handPartial_begun busy bj, handSlot_ends]
  · rw [handPartial_begun busy bi, handSlot_more more, handPartial_begun, handSlot_ends]
    · rwa [window_handed, Window.handed_state]
    · rwa [window_handed, Window.handed_slot_other]

end Sys2Proof.Machine
end

section
/-! SUPPORT. The Send Queue's orders: SEND, CANCEL, and the making of an entry (R138 to R140, R151, R152). -/

namespace Sys2Proof.Machine

open Sys2Proof

/-! ## SEND (R138, R139) -/

section send
variable {s : State} {p : Priority} {r : Doc}

/-- The fields of SEND that its first check refuses (R138). -/
def State.sendBad (s : State) : Prop :=
  15 < s.body 1 1 ∨ s.body 12 2 = 0 ∨ 256 < s.body 12 2 ∨ memBytes s.memSize < s.body 8 4 + 32 * s.body 12 2

theorem orderSend_inl {v : Result} (h : s.sendChecks = .inl v) : s.orderSend = s.answer .send v [] := by
  simp only [State.orderSend, h]

theorem orderSend_held {o : SendOrder} (h : s.sendChecks = .inr o) (b : s.sendHeld = true) : s.orderSend = s := by
  simp only [State.orderSend, h, b, if_true]

theorem orderSend_read {o : SendOrder} (h : s.sendChecks = .inr o) (b : s.sendHeld = false) : s.orderSend =
    match s.destinations (s.body 8 4) (s.body 12 2) with
    | none => s.answer .send .badOrder []
    | some numbers => s.acceptSend o numbers := by
  simp only [State.orderSend, h, b] <;> rfl

theorem sendChecks_bad (h : priorityOf (s.body 2 1) = none ∨ s.sendBad) : s.sendChecks = .inl .badOrder := by
  unfold State.sendChecks
  dsimp only
  split
  next => rfl
  next hp => exact if_pos (h.resolve_left (by simp [hp]))

theorem sendChecks_good (hp : priorityOf (s.body 2 1) = some p) (h : ¬ s.sendBad) : s.sendChecks =
    match s.doc (s.body 0 1) with
    | none => .inl .noSuch
    | some r =>
      if r.state = .opened ∨ r.deletePending then .inl .state
      else if s.sendq.room < s.body 12 2 then .inl .full
      else .inr (s.sendOrderOf p) := by
  unfold State.sendChecks
  rw [hp]
  exact if_neg h

/-- The checks behind the document's, for one that can be sent (R138). -/
theorem sendChecks_sendable (hp : priorityOf (s.body 2 1) = some p) (h : ¬ s.sendBad) (hd : s.doc (s.body 0 1) = some r)
    (c : r.state = .closed) (m : r.deletePending = false) :
    s.sendChecks = if s.sendq.room < s.body 12 2 then .inl .full else .inr (s.sendOrderOf p) := by
  rw [sendChecks_good hp h, hd]
  exact if_neg (by simp [c, m])

/-- The records are read one behind the other, and each gives its number. -/
theorem destinations_some {a n : Nat} {numbers : List Text} (h : s.destinations a n = some numbers) :
    numbers.length = n ∧ ∀ k, k < n → numbers[k]? = s.destination (a + 32 * k) := by
  induction n generalizing a numbers with
  | zero =>
    obtain rfl := Option.some.inj h
    exact ⟨rfl, fun k hk => absurd hk (Nat.not_lt_zero k)⟩
  | succ n ih =>
    simp only [State.destinations] at h
    split at h
    next t rest ht hrest =>
      obtain rfl := Option.some.inj h
      obtain ⟨len, each⟩ := ih hrest
      refine ⟨congrArg (· + 1) len, fun k hk => ?_⟩
      cases k with
      | zero => exact ht.symm
      | succ k =>
        rw [List.getElem?_cons_succ, each k (by omega)]
        exact congrArg s.destination (by omega)
    next => cases h

end send

/-- Settles O32: the checks in their order (`sendChecks_*`), then the read of the records. -/
theorem sendMakesItsEntries : Obligations.SendMakesItsEntries := by
  intro s taken
  refine ⟨fun h => next_of_taken taken (orderSend_inl (sendChecks_bad h)), fun p hp good => ⟨fun hd => ?_,
    fun r hd => ⟨fun st => ?_, fun c m => ?_⟩⟩⟩
  · exact next_of_taken taken (orderSend_inl (by rw [sendChecks_good hp good, hd]))
  · refine next_of_taken taken (orderSend_inl ?_)
    rw [sendChecks_good hp good, hd]
    exact if_pos st
  · have checks := sendChecks_sendable hp good hd c m
    refine ⟨fun full => next_of_taken taken (orderSend_inl (checks.trans (if_pos full))), fun room held => ?_,
      fun room free => ?_⟩
    · exact next_of_taken taken (orderSend_held (checks.trans (if_neg (Nat.not_lt.2 room))) held)
    · have read := orderSend_read (checks.trans (if_neg (Nat.not_lt.2 room))) free
      refine ⟨fun none => next_of_taken taken (by rw [read, none]), fun numbers given => ?_⟩
      exact ⟨next_of_taken taken (by rw [read, given]; rfl), fun t => ⟨rfl, fun x xs => rfl⟩, destinations_some given⟩

/-! ## The making of an entry (R139, R140) -/

theorem place_eq {q : SendQueue} {i : Nat} (h : lowestFree 512 q.entries = some i
    ∨ (lowestFree 512 q.entries = none ∧ q.finals.head? = some i)) : q.place = some i := by
  rcases h with h | ⟨h, k⟩
  · simp only [SendQueue.place, show lowestFree Config.destEntries q.entries = some i from h]
  · simp only [SendQueue.place, show lowestFree Config.destEntries q.entries = none from h, k]

theorem readThrough_take (s : State) (n m a : Nat) (h : n ≤ m) : (s.readThrough a m).take n = s.readThrough a n := by
  induction n generalizing m a with
  | zero => rfl
  | succ n ih =>
    obtain ⟨m, rfl⟩ : ∃ k, m = k + 1 := ⟨m - 1, by omega⟩
    simp only [State.readThrough, List.take_succ_cons, ih m (a + 1) (by omega)]

/-- A text field as it is read from memory: its length byte, then as many characters (R199). -/
theorem readText_read (s : State) (a w : Nat) : readText (w + 1) (s.readThrough a (w + 1)) =
    if (s.readByte a).toNat ≤ w then some (s.readThrough (a + 1) (s.readByte a).toNat) else none := by
  show (if (s.readByte a).toNat ≤ w + 1 - 1 then some
    ((s.readThrough (a + 1) w).take (s.readByte a).toNat) else none) = _
  rw [Nat.add_sub_cancel]
  split
  next h => rw [readThrough_take s _ _ _ h]
  next => rfl

theorem destination_iff (s : State) (a : Nat) (t : Text) : s.destination a = some t ↔
    (s.readByte a).toNat ≤ 24 ∧ t = s.readThrough (a + 1) (s.readByte a).toNat ∧ t ≠ [] ∧ ∀ c ∈ t, isDial c = true := by
  unfold State.destination
  rw [readText_read s a 24]
  by_cases h : (s.readByte a).toNat ≤ 24
  · rw [if_pos h]
    dsimp only
    rw [Option.ite_none_right_eq_some, Option.some.injEq, List.all_eq_true]
    constructor
    · rintro ⟨⟨ne, dial⟩, rfl⟩
      exact ⟨h, rfl, ne, dial⟩
    · rintro ⟨-, rfl, ne, dial⟩
      exact ⟨⟨ne, dial⟩, rfl⟩
  · simp [h]

/-- Settles O33: the entry's number by `place_eq`, its state by the embargo, and the record by `destination_iff`. -/
theorem entryIsMadeFromItsRecord : Obligations.EntryIsMadeFromItsRecord := by
  refine ⟨fun s o number i place => ⟨fun embargo => ?_, fun none => ?_⟩, destination_iff⟩
  · simp only [State.makeEntry, place_eq place]
    exact if_neg embargo
  · simp only [State.makeEntry, place_eq place]
    exact if_pos none

/-! ## CANCEL (R151, R152) -/

section cancel
variable {s : State} {i : Nat} {e : DestEntry}

theorem cancellable_iff : e.cancellable = true ↔ e.state.final = false ∧ e.cancelPending = false := by
  simp [DestEntry.cancellable]

/-- An entry at rest is cancelled at once (R151). -/
theorem cancelEntry_resting (h : s.entry i = some e) (c : e.cancellable = true) (rest : e.state ≠ .active) :
    s.cancelEntry i = (((s.modEntry i (fun x =>
        { x with state := .cancelled, countdown := 0, lastResult := some .cancelled })).post .sendQueue
      (.destResult i e.document e.desk e.attempts none .cancelled .cancelled e.confirmed e.orderSeq 0 0
        e.chargeTotal)).finishEntry i e.document) := by
  simp only [State.cancelEntry, h, c, Bool.not_true, Bool.false_eq_true, if_false, if_neg rest]

/-- An entry in a call is marked, and its unit aborts (R104, R151). -/
theorem cancelEntry_active {u : UnitId} (h : s.entry i = some e) (c : e.cancellable = true) (a : e.state = .active)
    (hu : e.unit = some u) :
    s.cancelEntry i = (s.modEntry i (fun x => { x with cancelPending := true })).abortUnit u := by
  simp only [State.cancelEntry, h, c, Bool.not_true, Bool.false_eq_true, if_false, if_pos a, hu]

theorem cancelCounts_resting (h : s.entry i = some e) (c : e.cancellable = true) (rest : e.state ≠ .active) :
    s.cancelCounts [i] = [1, 0] := by
  simp [State.cancelCounts, h, c, rest]

theorem cancelCounts_active (h : s.entry i = some e) (c : e.cancellable = true) (a : e.state = .active) :
    s.cancelCounts [i] = [0, 1] := by
  simp [State.cancelCounts, h, c, a]

theorem filter_filterMap_length {α β : Type} (f : α → Option β) (p : β → Bool) (l : List α) :
    ((l.filterMap f).filter p).length = l.countP (fun a => (f a).any p) := by
  rw [← List.countP_eq_length_filter, List.countP_filterMap]
  exact List.countP_congr fun a _ => by cases f a <;> simp

theorem cancelCounts_eq (ids : List Nat) : s.cancelCounts ids =
    [ids.countP (fun i => (s.entry i).any (fun e => !e.state.final && !e.cancelPending && e.state != .active)),
     ids.countP (fun i => (s.entry i).any (fun e => !e.state.final && !e.cancelPending && e.state == .active))] := by
  simp only [State.cancelCounts, filter_filterMap_length, DestEntry.cancellable, decide_not]
  rfl

theorem orderCancel_id (h : s.body 0 1 = 1) : s.orderCancel = s.cancelById (s.body 2 2) := if_pos h

theorem orderCancel_order (h : s.body 0 1 = 2) :
    s.orderCancel = s.cancelByOrder (BitVec.ofNat 32 (s.body 4 4)) := by
  rw [State.orderCancel, if_neg (by omega), if_pos h]

theorem orderCancel_bad (h : s.body 0 1 ≠ 1) (k : s.body 0 1 ≠ 2) : s.orderCancel = s.answer .cancel .badOrder [] := by
  rw [State.orderCancel, if_neg h, if_neg k]

theorem cancelById_free (h : s.entry i = none) : s.cancelById i = s.answer .cancel .noSuch [] := by
  simp only [State.cancelById, h]

theorem cancelById_found (h : s.entry i = some e) : s.cancelById i =
    if e.state.final then s.answer .cancel .state []
    else if e.cancelPending then s.answer .cancel .already []
    else (s.cancelEntry i).answer .cancel .accepted (s.cancelCounts [i]) := by
  simp only [State.cancelById, h]

theorem cancelById_reached (h : s.entry i = some e) (c : e.cancellable = true) :
    s.cancelById i = (s.cancelEntry i).answer .cancel .accepted (s.cancelCounts [i]) := by
  obtain ⟨open', free⟩ := cancellable_iff.1 c
  rw [cancelById_found h, if_neg (by simp [open']), if_neg (by simp [free])]

theorem cancelByOrder_none {q : Word} (h : s.entryIds (fun e => decide (e.orderSeq = q)) = []) :
    s.cancelByOrder q = s.answer .cancel .noSuch [] := by
  simp only [State.cancelByOrder, h]

theorem cancelByOrder_some {q : Word} (h : s.entryIds (fun e => decide (e.orderSeq = q)) ≠ []) :
    s.cancelByOrder q = ((s.entryIds (fun e => decide (e.orderSeq = q))).foldl (fun t i => t.cancelEntry i) s).answer
      .cancel .accepted (s.cancelCounts (s.entryIds (fun e => decide (e.orderSeq = q)))) := by
  unfold State.cancelByOrder
  split
  next none => exact absurd none h
  next => rfl

end cancel

/-- Settles O34: an entry by its state (`cancelEntry_resting`, `cancelEntry_active`); the counts by
`cancelCounts_eq`. -/
theorem cancelReachesItsEntries : Obligations.CancelReachesItsEntries := by
  intro s taken
  refine ⟨fun h k => next_of_taken_retry taken (orderCancel_bad h k), fun one => ⟨fun h => ?_, fun e h =>
    ⟨fun f => ?_, fun f p => ?_, fun rest p => ?_, fun a p u hu => ?_⟩⟩, fun two => ⟨fun none => ?_, fun some => ?_⟩⟩
  all_goals refine next_of_taken_retry taken ?_
  · rw [orderCancel_id one, cancelById_free h]
  · rw [orderCancel_id one, cancelById_found h, if_pos f]
  · rw [orderCancel_id one, cancelById_found h, if_neg (by simp [f]), if_pos p]
  · have resting : e.state ≠ .active := by rcases rest with r | r | r | r <;> simp [r]
    have reached : e.cancellable = true :=
      cancellable_iff.2 ⟨by rcases rest with r | r | r | r <;> simp [r, EntryState.final], p⟩
    rw [orderCancel_id one, cancelById_reached h reached, cancelEntry_resting h reached resting,
      cancelCounts_resting h reached resting]
    rfl
  · have reached : e.cancellable = true := cancellable_iff.2 ⟨by simp [a, EntryState.final], p⟩
    rw [orderCancel_id one, cancelById_reached h reached, cancelEntry_active h reached a hu,
      cancelCounts_active h reached a]
  · rw [orderCancel_order two, cancelByOrder_none none]
  · rw [orderCancel_order two, cancelByOrder_some some, cancelCounts_eq]

end Sys2Proof.Machine
end

section
/-! SUPPORT. The line-assignment arbiter: the order of the READY entries, a pass, and the countdown (R141 to R144). -/

namespace Sys2Proof.Machine

open Sys2Proof

/-! ## Insertion sort -/

section sorting
variable {α : Type} {lt : α → α → Bool}

/-- A strict order given by a test is transitive. -/
def Chains (lt : α → α → Bool) : Prop := ∀ a b c, lt a b = true → lt b c = true → lt a c = true

theorem mem_insertBy_iff {a b : α} {l : List α} : b ∈ insertBy lt a l ↔ b = a ∨ b ∈ l := by
  induction l with
  | nil => simp [insertBy]
  | cons c l ih =>
    unfold insertBy
    split
    · simp
    · simp only [List.mem_cons, ih]
      tauto

theorem insertBy_sorted (trans : Chains lt) {a : α} {l : List α}
    (sorted : l.Pairwise (fun x y => lt x y = true)) (total : ∀ b ∈ l, lt a b = true ∨ lt b a = true) :
    (insertBy lt a l).Pairwise (fun x y => lt x y = true) := by
  induction l with
  | nil => exact List.pairwise_singleton _ _
  | cons b l ih =>
    obtain ⟨first, rest⟩ := List.pairwise_cons.1 sorted
    unfold insertBy
    split
    next h =>
      refine List.pairwise_cons.2 ⟨fun c hc => ?_, sorted⟩
      rcases List.mem_cons.1 hc with rfl | hc
      · exact h
      · exact trans _ _ _ h (first c hc)
    next h =>
      have before : lt b a = true := (total b (List.mem_cons_self ..)).resolve_left h
      refine List.pairwise_cons.2 ⟨fun c hc => ?_, ih rest fun c hc => total c (List.mem_cons_of_mem _ hc)⟩
      rcases mem_insertBy_iff.1 hc with rfl | hc
      · exact before
      · exact first c hc

/-- The sort keeps its elements, and puts them in order where any two of them are ordered. -/
theorem foldl_insertBy_sorted (trans : Chains lt) (l acc : List α)
    (sorted : acc.Pairwise (fun x y => lt x y = true)) (total : ∀ a ∈ l, ∀ b ∈ acc, lt a b = true ∨ lt b a = true)
    (distinct : l.Pairwise (fun a b => lt a b = true ∨ lt b a = true)) :
    (l.foldl (fun acc a => insertBy lt a acc) acc).Pairwise (fun x y => lt x y = true)
    ∧ ∀ x, x ∈ l.foldl (fun acc a => insertBy lt a acc) acc ↔ x ∈ acc ∨ x ∈ l := by
  induction l generalizing acc with
  | nil => exact ⟨sorted, by simp⟩
  | cons a l ih =>
    obtain ⟨first, rest⟩ := List.pairwise_cons.1 distinct
    have next := ih (insertBy lt a acc) (insertBy_sorted trans sorted (total a (List.mem_cons_self ..)))
      (fun b hb c hc => by
        rcases mem_insertBy_iff.1 hc with rfl | hc
        · exact (first b hb).symm
        · exact total b (List.mem_cons_of_mem _ hb) c hc) rest
    refine ⟨next.1, fun x => ?_⟩
    rw [List.foldl_cons, next.2 x, mem_insertBy_iff, List.mem_cons]
    tauto

theorem sortBy_sorted (trans : Chains lt) {l : List α}
    (distinct : l.Pairwise (fun a b => lt a b = true ∨ lt b a = true)) :
    (sortBy lt l).Pairwise (fun x y => lt x y = true) ∧ ∀ x, x ∈ sortBy lt l ↔ x ∈ l := by
  obtain ⟨sorted, mem⟩ := foldl_insertBy_sorted trans l [] List.Pairwise.nil (by simp) distinct
  exact ⟨sorted, fun x => (mem x).trans (by simp)⟩

end sorting

/-! ## The order of the READY entries (R143) -/

theorem sendBefore_iff {a b : Nat × DestEntry} : sendBefore a b = true ↔
    priorityCode a.2.priority < priorityCode b.2.priority
      ∨ (a.2.priority = b.2.priority ∧ (a.2.readyTime < b.2.readyTime
          ∨ (a.2.readyTime = b.2.readyTime ∧ a.1 < b.1))) := decide_eq_true_iff

theorem priorityCode_eq_iff {p q : Priority} : priorityCode p = priorityCode q ↔ p = q := by
  cases p <;> cases q <;> simp [priorityCode]

theorem sendBefore_trans : Chains sendBefore := by
  intro a b c h k
  rw [sendBefore_iff, ← priorityCode_eq_iff] at *
  omega

theorem sendBefore_total {a b : Nat × DestEntry} (h : a.1 ≠ b.1) : sendBefore a b = true ∨ sendBefore b a = true := by
  rw [sendBefore_iff, sendBefore_iff, ← priorityCode_eq_iff, ← priorityCode_eq_iff]
  omega

section order
variable {s : State} (rising : (s.sendq.entries.map (fun x => x.1)).Pairwise (fun i j => i < j))
include rising

theorem readyEntries_sorted :
    let ready := sortBy sendBefore (s.sendq.entries.filter (fun x => decide (x.2.state = .ready)))
    ready.Pairwise (fun x y => sendBefore x y = true)
      ∧ ∀ x, x ∈ ready ↔ s.entry x.1 = some x.2 ∧ x.2.state = .ready := by
  have distinct : (s.sendq.entries.filter (fun x => decide (x.2.state = .ready))).Pairwise
      (fun a b => sendBefore a b = true ∨ sendBefore b a = true) :=
    ((List.pairwise_map.1 rising).sublist List.filter_sublist).imp fun h => sendBefore_total (by omega)
  obtain ⟨sorted, mem⟩ := sortBy_sorted sendBefore_trans distinct
  refine ⟨sorted, fun x => (mem x).trans ?_⟩
  rw [List.mem_filter, decide_eq_true_iff]
  exact and_congr_left fun _ => ⟨fun h => tget_of_rising rising h, fun h => mem_of_tget h⟩

theorem readyOrder_sorted : s.readyOrder.Pairwise (fun i j => ∀ a b, s.entry i = some a → s.entry j = some b →
    priorityCode a.priority < priorityCode b.priority
      ∨ (a.priority = b.priority ∧ (a.readyTime < b.readyTime ∨ (a.readyTime = b.readyTime ∧ i < j)))) := by
  obtain ⟨sorted, mem⟩ := readyEntries_sorted rising
  refine List.pairwise_map.2 (sorted.imp_of_mem fun {x y} hx hy h a b ha hb => ?_)
  obtain rfl := Option.some.inj (((mem x).1 hx).1.symm.trans ha)
  obtain rfl := Option.some.inj (((mem y).1 hy).1.symm.trans hb)
  exact sendBefore_iff.1 h

theorem mem_readyOrder (i : Nat) : i ∈ s.readyOrder ↔ ∃ e, s.entry i = some e ∧ e.state = .ready := by
  obtain ⟨-, mem⟩ := readyEntries_sorted rising
  unfold State.readyOrder
  rw [List.mem_map]
  constructor
  · rintro ⟨x, hx, rfl⟩
    exact ⟨x.2, (mem x).1 hx⟩
  · rintro ⟨e, he⟩
    exact ⟨(i, e), (mem (i, e)).2 he, rfl⟩

end order

/-! ## A pass (R142, R143) -/

section pass
variable {s : State} {u : UnitId} {i : Nat} {rest : List Nat} {e : DestEntry}

theorem arbiterPasses_none (h : s.part ≠ .running ∨ s.intake.restart ≠ none) : s.arbiterPasses = s := by
  refine if_neg ?_
  rintro ⟨run, idle⟩
  refine h.elim (fun k => k run) (fun k => k ?_)
  simpa [State.restarting] using idle

theorem arbiterPasses_running (run : s.part = .running) (idle : s.intake.restart = none) :
    s.arbiterPasses = [UnitId.lu0, .lu1, .lu2, .lu3].foldl (fun t u => t.arbiterPass u) s :=
  if_pos ⟨run, by simp [State.restarting, idle]⟩

theorem canSend_iff {l : LineUnit} : l.canSend = true ↔ l.state = .idle ∧ (l.mode = .send ∨ l.mode = .both) :=
  decide_eq_true_iff

theorem keepTest_iff : s.keepTest u = true ↔
    s.sendq.keepForReceive ≤ [UnitId.lu0, .lu1, .lu2, .lu3].countP (fun v => decide (v ≠ u ∧ (s.unit v).state = .idle
      ∧ ((s.unit v).mode = .receive ∨ (s.unit v).mode = .both))) := by
  rw [State.keepTest, decide_eq_true_iff, ← List.countP_eq_length_filter, allUnits]
  refine iff_of_eq (congrArg _ (List.countP_congr fun v _ => ?_))
  simp [LineUnit.canReceive]

theorem arbiterPass_eq : s.arbiterPass u =
    if (s.unit u).canSend ∧ s.keepTest u ∧ s.meterWaits = false then tryEntries u s.readyOrder s else s := rfl

theorem numberInUse_iff {n : Text} :
    s.numberInUse n = true ↔ ∃ x ∈ s.sendq.entries, x.2.state = .active ∧ x.2.number = n := by
  simp [State.numberInUse]

theorem logRoom_iff {m : Meter} : m.logRoom = true ↔ (m.producer - m.consumer).toNat < m.logSize := decide_eq_true_iff

theorem chargeable_iff {m : Meter} {z : Zone} :
    m.chargeable z = false ↔ z.priced = false ∧ (m.producer - m.consumer).toNat < m.logSize := by
  rw [← logRoom_iff]
  simp [Meter.chargeable]

theorem deskOpen_iff {d : Nat} : s.deskOpen d = true ↔ ∃ k, s.desk d = some k ∧ k.state = .opened := by
  unfold State.deskOpen
  cases s.desk d <;> simp

theorem handOver_eq : s.handOver u i e =
    let z := s.meter.tariff.lookup e.number
    { s with
      units := s.units.set u { s.unit u with
        entry := some i, role := some .caller, answered := false, result := none, attemptBytes := 0,
        state := .seizing, timer := some 4000,
        handOver := some { number := e.number, document := e.document, desk := e.desk, orderSeq := e.orderSeq,
                           confirmed := e.confirmed, zoneIndex := z.1, zone := z.2 },
        out := (s.unit u).out ++ [.seize] },
      sendq := { s.sendq with entries := tmod s.sendq.entries i (fun x =>
        { x with state := .active, attempts := x.attempts + 1, zone := some z.1, unit := some u,
                 countdown := 0, lastResult := none, attemptCharge := 0 }) } } := by
  cases u <;> rfl

theorem tryEntries_cons (h : s.entry i = some e) : tryEntries u (i :: rest) s =
    if s.numberInUse e.number then tryEntries u rest s
    else if !s.meter.chargeable (s.meter.tariff.lookup e.number).2 then s.handOver u i e
    else if !s.deskOpen e.desk then tryEntries u rest (s.holdEntry i)
    else if !s.meter.logRoom || s.meter.warning then tryEntries u rest s
    else s.handOver u i e := by
  simp only [tryEntries, h]

theorem holdEntry_eq {k : Desk} (h : s.entry i = some e) (hk : s.desk e.desk = some k) : s.holdEntry i =
    if e.heldReported then s.modEntry i (fun x => { x with state := .held, heldReported := true })
    else (s.modEntry i (fun x => { x with state := .held, heldReported := true })).post .sendQueue
      (.destHeld i e.desk k.state (s.meter.tariff.lookup e.number).1 e.orderSeq) := by
  simp only [State.holdEntry, h, hk]

end pass

/-- Settles O35: the order by `readyOrder_sorted`, a pass by its guard, and an entry by the five tests of
`tryEntries_cons`. -/
theorem arbiterHandsOverTheFirstEntry : Obligations.ArbiterHandsOverTheFirstEntry := by
  intro s
  refine ⟨fun rising => ⟨readyOrder_sorted rising, mem_readyOrder rising⟩, arbiterPasses_none, arbiterPasses_running,
    fun u => ?_⟩
  have guard : ((s.unit u).canSend = true ∧ s.keepTest u = true ∧ s.meterWaits = false) ↔
      (s.unit u).state = .idle ∧ ((s.unit u).mode = .send ∨ (s.unit u).mode = .both)
        ∧ s.sendq.keepForReceive ≤ [UnitId.lu0, .lu1, .lu2, .lu3].countP (fun v => decide (v ≠ u
          ∧ (s.unit v).state = .idle ∧ ((s.unit v).mode = .receive ∨ (s.unit v).mode = .both))) ∧ s.meterWaits =
            false := by
    rw [canSend_iff, keepTest_iff, and_assoc]
  refine ⟨fun h => if_neg (h ∘ guard.1), fun h => if_pos (guard.2 h), rfl, fun i rest e he => ?_⟩
  have inUse := numberInUse_iff (s := s) (n := e.number)
  have free := chargeable_iff (m := s.meter) (z := (s.meter.tariff.lookup e.number).2)
  have opened := deskOpen_iff (s := s) (d := e.desk)
  have room := logRoom_iff (m := s.meter)
  dsimp only
  rw [← inUse, ← free, ← opened, ← room, tryEntries_cons he, ← handOver_eq]
  refine ⟨fun h => if_pos h, fun h f => ?_, fun h f o => ?_, fun h f o r => ?_, fun h f o r w => ?_, fun k hk =>
    ⟨fun h => ?_, fun h => ?_⟩⟩
  · rw [if_neg h, f]
    rfl
  · rw [if_neg h, if_neg (by simpa using f), if_pos (by simpa using o)]
  · rw [if_neg h, if_neg (by simpa using f), if_neg (by simpa using o), if_pos (by simpa using r)]
  · rw [if_neg h, if_neg (by simpa using f), if_neg (by simpa using o), if_neg (by simpa [w] using r)]
  · rw [holdEntry_eq he hk, if_pos h]
  · rw [holdEntry_eq he hk, if_neg (by simp [h])]

/-! ## A countdown that has run out (R141) -/

theorem due_iff {e : DestEntry} :
    e.due = true ↔ (e.state = .waiting ∨ e.state = .retryWait) ∧ e.countdown = 0 := by
  rw [DestEntry.due, Bool.and_eq_true, decide_eq_true_iff]
  cases e.state <;> simp [EntryState.counts]

theorem countdownExpired_none {s : State} (h : s.entryIds DestEntry.due = []) : s.countdownExpired = s := by
  rw [State.countdownExpired, h]

theorem countdownExpired_first {s : State} {i : Nat} {rest : List Nat} (h : s.entryIds DestEntry.due = i :: rest) :
    s.countdownExpired = (s.becomeReady i).arbiterPasses := by
  rw [State.countdownExpired, h]

/-- Settles O36: the ids due are those of the entries that pass the test, in the table's order. -/
theorem countdownExpiryMakesAnEntryReady : Obligations.CountdownExpiryMakesAnEntryReady := by
  intro s
  refine ⟨fun none => congrArg _ (countdownExpired_none ?_), fun before i e after split now early =>
    congrArg _ ((countdownExpired_first (rest := (after.filter (fun x => x.2.due)).map (fun x => x.1)) ?_).trans rfl)⟩
  · rw [State.entryIds, List.map_eq_nil_iff, List.filter_eq_nil_iff]
    exact fun x hx h => none x.1 x.2 hx (due_iff.1 h)
  · have skipped : before.filter (fun x => x.2.due) = [] :=
      List.filter_eq_nil_iff.2 fun x hx h => early x hx (due_iff.1 h)
    rw [State.entryIds, split, List.filter_append, skipped, List.nil_append,
      List.filter_cons_of_pos (by exact due_iff.2 now)]
    rfl

end Sys2Proof.Machine
end

section
/-! SUPPORT. The Caller Screen's orders and timers, and the clock (R155, R162 to R166, R180, R186). -/

namespace Sys2Proof.Machine

open Sys2Proof

/-! ## The screen orders (R163, R165, R166) -/

section screen
variable {s : State} {kk : KeyKind} {k : ScreenKind} {key : Text} {e : ScreenEntry} {i : Nat} {m : ScreenMode}

/-- The part with another Caller Screen. -/
def State.withScreen (s : State) (c : Screen) : State := { s with screen := c }

theorem orderScreenAdd_bad (h : keyKindOf (s.body 0 1) = none ∨ screenKindOf (s.body 1 1) = none
    ∨ screenKindOf (s.body 1 1) = some .learned ∨ 15 < s.body 2 1
    ∨ (∀ kk, keyKindOf (s.body 0 1) = some kk → screenKey kk (s.bodyBytes 6 21) = none)) :
    s.orderScreenAdd = s.answer .screenAdd .badOrder [] := by
  unfold State.orderScreenAdd
  dsimp only
  split
  next kk k hkk hk =>
    split
    next => rfl
    next key hkey =>
      refine if_pos ?_
      rcases h with h | h | h | h | h
      · exact absurd (h.symm.trans hkk) (by simp)
      · exact absurd (h.symm.trans hk) (by simp)
      · exact .inl (Option.some.inj (hk.symm.trans h))
      · exact .inr h
      · exact absurd ((h kk hkk).symm.trans hkey) (by simp)
  next => rfl

theorem orderScreenAdd_good (hkk : keyKindOf (s.body 0 1) = some kk) (hk : screenKindOf (s.body 1 1) = some k)
    (listed : k ≠ .learned) (desk : s.body 2 1 ≤ 15) (hkey : screenKey kk (s.bodyBytes 6 21) = some key) :
    s.orderScreenAdd = s.screenAdd kk key k (s.body 2 1) (min 3 (s.body 3 1)) (decide (s.body 4 1 ≠ 0))
      (s.body 5 1) := by
  unfold State.orderScreenAdd
  rw [hkk, hk]
  dsimp only
  rw [hkey]
  exact if_neg (not_or.2 ⟨listed, by omega⟩)

theorem screenAdd_found {desk copies budget : Nat} {flash : Bool} (h : findKey kk key s.screen.entries = some (i, e)) :
    s.screenAdd kk key k desk copies flash budget =
      (s.withScreen (s.screen.modEntry i (fun e => e.replace k desk copies flash budget))).answer
        .screenAdd .accepted [i, 1] := by
  simp only [State.screenAdd, h]
  rfl

theorem screenAdd_full {desk copies budget : Nat} {flash : Bool} (h : findKey kk key s.screen.entries = none)
    (f : lowestFree 256 s.screen.entries = none) :
    s.screenAdd kk key k desk copies flash budget = s.answer .screenAdd .full [] := by
  simp only [State.screenAdd, h, show lowestFree Config.screenEntries s.screen.entries = none from f]

theorem screenAdd_new {desk copies budget : Nat} {flash : Bool} (h : findKey kk key s.screen.entries = none)
    (f : lowestFree 256 s.screen.entries = some i) : s.screenAdd kk key k desk copies flash budget =
      (s.withScreen { s.screen with
        entries := tset s.screen.entries i
          { keyKind := kk, key := key, kind := k, desk := desk, copies := copies, flash := flash, budget := budget,
            budgetLeft := budget, touched := false, calls := 0, lastCall := none } }).answer .screenAdd .accepted [i,
            0] := by
  simp only [State.screenAdd, h, show lowestFree Config.screenEntries s.screen.entries = some i from f]
  rfl

theorem orderScreenRemove_bad (h : keyKindOf (s.body 0 1) = none) :
    s.orderScreenRemove = s.answer .screenRemove .badOrder [] := by
  simp only [State.orderScreenRemove, h]

theorem orderScreenRemove_noText (h : keyKindOf (s.body 0 1) = some kk) (t : readText 21 (s.bodyBytes 1 21) = none) :
    s.orderScreenRemove = s.answer .screenRemove .noSuch [] := by
  simp only [State.orderScreenRemove, h, t]

theorem orderScreenRemove_noKey (h : keyKindOf (s.body 0 1) = some kk) (t : readText 21 (s.bodyBytes 1 21) = some key)
    (f : findKey kk key s.screen.entries = none) : s.orderScreenRemove = s.answer .screenRemove .noSuch [] := by
  simp only [State.orderScreenRemove, h, t, f]

theorem orderScreenRemove_found (h : keyKindOf (s.body 0 1) = some kk) (t : readText 21 (s.bodyBytes 1 21) = some key)
    (f : findKey kk key s.screen.entries = some (i, e)) : s.orderScreenRemove =
      (s.withScreen { s.screen with entries := tdel s.screen.entries i }).answer .screenRemove .accepted [i] := by
  simp only [State.orderScreenRemove, h, t, f]
  rfl

theorem orderScreenClear_learned (h : s.body 0 1 = 1) : s.orderScreenClear =
    (s.withScreen { s.screen with entries := s.screen.unlearned, fullReported := false }).answer .screenClear .accepted
      [s.screen.entries.length - s.screen.unlearned.length] := if_pos h

theorem orderScreenClear_all (h : s.body 0 1 = 2) : s.orderScreenClear =
    (s.withScreen { s.screen with entries := [], fullReported := false }).answer .screenClear .accepted
      [s.screen.entries.length] := by
  simp only [State.orderScreenClear, h]
  rfl

theorem orderScreenClear_bad (h : s.body 0 1 ≠ 1) (k : s.body 0 1 ≠ 2) :
    s.orderScreenClear = s.answer .screenClear .badOrder [] := by
  simp only [State.orderScreenClear, if_neg h, if_neg k]

theorem orderSweep_starts (h : s.screen.sweep = none) : s.orderSweep =
    (s.withScreen { s.screen with sweep := some { cursor := 0, source := .order, removed := 0 } }).answer
      .sweep .accepted [] := by
  simp only [State.orderSweep, if_pos h, State.modScreen, Screen.startSweep]
  rfl

theorem orderSweep_runs (h : s.screen.sweep ≠ none) : s.orderSweep = s.answer .sweep .already [] := if_neg h

theorem orderScreenMode_bad (h : screenModeOf (s.body 0 1) = none) :
    s.orderScreenMode = s.answer .screenMode .badOrder [] := by
  simp only [State.orderScreenMode, h]

/-- SCREEN MODE asks for the mode and the learn flags in force (R166). -/
def State.sameMode (s : State) (m : ScreenMode) : Prop :=
  m = s.screen.mode ∧ learnFlags s.screen.learn (byteOf (s.body 1 1)) = s.screen.learn

theorem orderScreenMode_same (h : screenModeOf (s.body 0 1) = some m) (k : s.sameMode m) :
    s.orderScreenMode = s.answer .screenMode .already [] := by
  simp only [State.orderScreenMode, h]
  exact if_pos k

theorem orderScreenMode_other (h : screenModeOf (s.body 0 1) = some m) (k : ¬ s.sameMode m) : s.orderScreenMode =
    let kept := if m = .listedOnly then s.screen.unlearned else s.screen.entries
    (s.withScreen { s.screen with
      mode := m, learn := learnFlags s.screen.learn (byteOf (s.body 1 1)),
      entries := kept }).answer .screenMode .accepted
      [s.screen.entries.length - kept.length] := by
  simp only [State.orderScreenMode, h]
  exact if_neg k

theorem orderScreenMode_all (h : screenModeOf (s.body 0 1) = some m) (k : ¬ s.sameMode m) (l : m ≠ .listedOnly) :
    s.orderScreenMode = (s.withScreen { s.screen with
      mode := m, learn := learnFlags s.screen.learn (byteOf (s.body 1 1)) }).answer .screenMode .accepted [0] := by
  rw [orderScreenMode_other h k, if_neg l]
  dsimp only
  rw [Nat.sub_self]

theorem orderScreenMode_listed (h : screenModeOf (s.body 0 1) = some m) (k : ¬ s.sameMode m) (l : m = .listedOnly) :
    s.orderScreenMode = (s.withScreen { s.screen with
      mode := m, learn := learnFlags s.screen.learn (byteOf (s.body 1 1)), entries := s.screen.unlearned }).answer
      .screenMode .accepted [s.screen.entries.length - s.screen.unlearned.length] := by
  rw [orderScreenMode_other h k, if_pos l]

end screen

/-- Settles O37: each order by its own case equations. -/
theorem screenOrdersEditTheTable : Obligations.ScreenOrdersEditTheTable := by
  intro s c put
  refine ⟨fun t => ⟨fun h => next_of_taken t (orderScreenAdd_bad h), fun kk k key hkk hk listed desk hkey =>
      ⟨fun i e f => ?_, fun f full => ?_, fun i f free => ?_⟩⟩,
    fun t => ⟨fun h => next_of_taken t (orderScreenRemove_bad h), fun kk h =>
      ⟨fun n => next_of_taken t (orderScreenRemove_noText h n), fun key ht =>
        ⟨fun f => next_of_taken t (orderScreenRemove_noKey h ht f), fun i e f =>
          next_of_taken t (orderScreenRemove_found h ht f)⟩⟩⟩,
    fun t => ⟨fun one => next_of_taken t (orderScreenClear_learned one),
      fun two => next_of_taken t (orderScreenClear_all two), fun h k => next_of_taken t (orderScreenClear_bad h k)⟩,
    fun t => ⟨fun h => next_of_taken t (orderScreenMode_bad h), fun m h => ⟨fun same => ?_, fun other all => ?_,
      fun other listed => ?_⟩⟩,
    fun t => ⟨fun none => next_of_taken t (orderSweep_starts none),
      fun running => next_of_taken t (orderSweep_runs running)⟩⟩
  · exact next_of_taken t ((orderScreenAdd_good hkk hk listed desk hkey).trans (screenAdd_found f))
  · exact next_of_taken t ((orderScreenAdd_good hkk hk listed desk hkey).trans (screenAdd_full f full))
  · exact next_of_taken t ((orderScreenAdd_good hkk hk listed desk hkey).trans (screenAdd_new f free))
  · exact next_of_taken t (orderScreenMode_same h same)
  · exact next_of_taken t (orderScreenMode_all h other all)
  · exact next_of_taken t (orderScreenMode_listed h other listed)

/-! ## Pacing and ageing (R155, R162 to R164) -/

section timers
variable {s : State}

theorem pacingPulse_due (h : s.screen.pacing = some 0) : s.pacingPulse = { s with screen := { s.screen with
    pacing := some (120 * s.screen.pacingPeriod),
    entries := s.screen.entries.map (fun x => (x.1, { x.2 with budgetLeft := x.2.budget })) } } := if_pos h

theorem pacingPulse_early (h : s.screen.pacing ≠ some 0) : s.pacingPulse = s := if_neg h

theorem ageExpiry_due (h : s.screen.age = some 0) : s.ageExpiry = { s with screen := { s.screen with
    age := some (7200 * s.screen.agePeriod),
    sweep := if s.screen.sweep = none then some { cursor := 0, source := .timer, removed := 0 } else s.screen.sweep }
    } := by
  refine (if_pos h).trans ?_
  simp only [State.modScreen, Screen.startSweep, Screen.ageHalves]
  split <;> rfl

theorem ageExpiry_early (h : s.screen.age ≠ some 0) : s.ageExpiry = s := if_neg h

theorem sweepVisit_none (h : s.screen.sweep = none) : s.sweepVisit = s := by
  simp only [State.sweepVisit, h]

theorem sweepVisit_some {w : Sweep} (h : s.screen.sweep = some w) : s.sweepVisit =
    let v := s.screen.visit w.cursor
    if w.cursor < 255 then
      { s with screen := { v.1 with sweep := some { w with cursor := w.cursor + 1, removed := w.removed + v.2 } } }
    else ({ s with screen := { v.1 with sweep := none, fullReported := false } } : State).post .callerScreen
      (.screenSwept w.source (w.removed + v.2) v.1.entries.length) := by
  simp only [State.sweepVisit, h]

/-- An entry that a sweep removes (R163). -/
def Screen.Aged (c : Screen) (i : Nat) : Prop := ∃ e, tget c.entries i = some e ∧ e.kind = .learned ∧ e.touched = false

theorem visit_aged {c : Screen} {i : Nat} (h : c.Aged i) : c.visit i = ({ c with entries := tdel c.entries i }, 1) := by
  obtain ⟨e, he, aged⟩ := h
  simp only [Screen.visit, he]
  exact if_pos aged

theorem visit_kept {c : Screen} {i : Nat} (h : ¬ c.Aged i) :
    c.visit i = (c.modEntry i (fun x => { x with touched := false }), 0) := by
  unfold Screen.visit
  split
  next none => rw [Screen.modEntry, tmod_absent none]
  next e he => exact if_neg fun aged => h ⟨e, he, aged⟩

end timers

/-- Settles O38: the timers by whether they are due, a sweep's visit by whether the entry is aged. -/
theorem screenTimersPaceAndAge : Obligations.ScreenTimersPaceAndAge := by
  intro s c
  refine ⟨fun h => congrArg _ (pacingPulse_due h), fun h => congrArg _ (pacingPulse_early h),
    fun h => congrArg _ (ageExpiry_due h), fun h => congrArg _ (ageExpiry_early h),
    fun h => congrArg _ (sweepVisit_none h), fun w h =>
    ⟨fun more => ⟨fun a => congrArg Host.Outcome.next ?_, fun a => congrArg Host.Outcome.next ?_⟩,
      fun last => ⟨fun a => congrArg Host.Outcome.next ?_, fun a => congrArg Host.Outcome.next ?_⟩⟩⟩
  · rw [sweepVisit_some h, visit_aged (by exact a)]
    exact if_pos more
  · rw [sweepVisit_some h, visit_kept (by exact a)]
    exact if_pos more
  · rw [sweepVisit_some h, visit_aged (by exact a)]
    exact if_neg (by omega)
  · rw [sweepVisit_some h, visit_kept (by exact a)]
    exact if_neg (by omega)

/-! ## The clock (R180, R186) -/

section clock
variable {s : State} {u : UnitId}

theorem settleUnits_none (h : s.meter.recs.get u = none) : s.settleUnits u = s := by
  simp only [State.settleUnits, h]

theorem settleUnits_some {r : MeterRec} (h : s.meter.recs.get u = some r) :
    s.settleUnits u = r.due.foldl (fun t _ => t.settleMeter u) s := by
  simp only [State.settleUnits, h]

theorem settleUnits_quiet (h : ∀ r, s.meter.recs.get u = some r → r.due = []) : s.settleUnits u = s := by
  cases k : s.meter.recs.get u with
  | none => exact settleUnits_none k
  | some r => rw [settleUnits_some k, h r k, List.foldl_nil]

theorem settleEntries_eq : s.settleEntries = (s.sendq.entries.filter (fun x =>
    (x.2.state = .waiting ∨ x.2.state = .retryWait) ∧ x.2.countdown = 0)).foldl (fun t _ => t.countdownExpired) s := by
  rw [State.settleEntries, eachNum, State.entryIds, List.foldl_map]
  refine congrArg (List.foldl _ s) (List.filter_congr fun x _ => ?_)
  rw [Bool.eq_iff_iff, due_iff, decide_eq_true_iff]

theorem settleEntries_quiet (h : ∀ x ∈ s.sendq.entries, (x.2.state = .waiting ∨ x.2.state = .retryWait)
    → x.2.countdown ≠ 0) : s.settleEntries = s := by
  rw [settleEntries_eq, List.filter_eq_nil_iff.2, List.foldl_nil]
  intro x hx due
  obtain ⟨counts, zero⟩ := of_decide_eq_true due
  exact h x hx counts zero

theorem settleDue_quiet (units : ∀ u x, s.meter.recs.get u = some x → x.due = [])
    (entries : ∀ x ∈ s.sendq.entries, (x.2.state = .waiting ∨ x.2.state = .retryWait) → x.2.countdown ≠ 0)
    (pacing : s.screen.pacing ≠ some 0) (age : s.screen.age ≠ some 0) : s.settleDue = s := by
  have each : eachUnit (fun u t => t.settleUnits u) s = s := by
    simp only [eachUnit, allUnits, List.foldl_cons, List.foldl_nil, settleUnits_quiet (units _)]
  rw [State.settleDue, each, settleEntries_quiet entries, pacingPulse_early pacing, ageExpiry_early age]

theorem orderSetClock_bad (h : 6 < s.body 0 1 ∨ 172800 ≤ s.body 4 4) :
    s.orderSetClock = s.answer .setClock .badOrder [] := if_pos h

theorem orderSetClock_good (d : s.body 0 1 ≤ 6) (h : s.body 4 4 < 172800) : s.orderSetClock =
    State.answer { s with meter := { s.meter with
      clock := { s.meter.clock with day := s.body 0 1, half := s.body 4 4, unset := false } } } .setClock .accepted
      [s.now.word] := if_neg (not_or.2 ⟨by omega, Nat.not_le.2 h⟩)

theorem clock_tick (k : Clock) : k.tick = { k with
    half := if k.half + 1 < 172800 then k.half + 1 else 0,
    day := if k.half + 1 < 172800 then k.day else if k.day < 6 then k.day + 1 else 0 } := by
  unfold Clock.tick Config.dayHalves
  by_cases h : k.half + 1 < 172800 <;> simp only [h, if_true, if_false]

theorem meterRec_tick (b : Band) (x : MeterRec) : x.tick b = { x with
    elapsed := min 4294967295 (x.elapsed + 1),
    nextStart := if x.elapsed + 1 = x.nextStart then x.nextStart + x.zone.len.get b else x.nextStart,
    due := if x.elapsed + 1 = x.nextStart then x.due ++ [b] else x.due } := by
  unfold MeterRec.tick satAdd Config.max32
  by_cases h : x.elapsed + 1 = x.nextStart <;> simp only [h, if_true, if_false]

theorem destEntry_tick (e : DestEntry) : e.tick =
    if e.state = .waiting ∨ e.state = .retryWait then { e with countdown := e.countdown - 1 } else e := by
  unfold DestEntry.tick
  cases h : e.state <;> simp [EntryState.counts]

end clock

/-- Settles O39: what is due is carried out by the functions of its own commands, and the step counts (`clock_tick`,
`meterRec_tick`, `destEntry_tick`). -/
theorem clockIsSetAndSteps : Obligations.ClockIsSetAndSteps := by
  intro s
  refine ⟨rfl, fun u => ⟨settleUnits_none, fun r => settleUnits_some, rfl⟩, settleEntries_eq, rfl, rfl, rfl, fun t =>
    ⟨fun h => next_of_taken t (orderSetClock_bad h), fun d h => next_of_taken t (orderSetClock_good d h)⟩, ?_, ?_⟩
  · simp only [State.countStep, clock_tick, Clock.stamp, funext (meterRec_tick _), destEntry_tick]
  · exact fun units entries pacing age =>
      congrArg (fun x => Host.Outcome.next (State.countStep x)) (settleDue_quiet units entries pacing age)

end Sys2Proof.Machine
end

section
/-! SUPPORT. The desks' orders and states, and LINE MODE (R98, R188 to R191). -/

namespace Sys2Proof.Machine

open Sys2Proof

/-! ## SET DESK, CLOSE PERIOD, FLUSH METER, AUDIT CLEAR (R189 to R191) -/

section desks
variable {s : State} {k : Desk}

theorem orderSetDesk_bad (h : 15 < s.body 0 1) : s.orderSetDesk = s.answer .setDesk .badOrder [] := if_pos h

theorem orderSetDesk_good (h : s.body 0 1 ≤ 15) : s.orderSetDesk = ((s.modDesk (s.body 0 1) (fun k =>
    { k with ceiling := s.body 4 4, spent := s.body 8 4, closed := decide (s.body 1 1 = 0) })).deskRecompute
      (s.body 0 1) .setDesk).answer .setDesk .accepted [] := if_neg (Nat.not_lt.2 h)

theorem namedDesks_none {v : Nat} (h : 16 ≤ v) (k : v ≠ 255) : namedDesks v = none := by
  rw [namedDesks, if_neg k, if_pos (by omega)]

/-- The desks that a field names: its own, or all of them (R190). -/
theorem namedDesks_some {v : Nat} {ds : List Nat} (h : (v ≤ 15 ∧ ds = [v]) ∨ (v = 255 ∧ ds = List.range 16)) :
    namedDesks v = some ds := by
  rcases h with ⟨low, rfl⟩ | ⟨rfl, rfl⟩
  · rw [namedDesks, if_neg (by omega), if_neg (by omega)]
  · rfl

theorem unaudited_eq (ds : List Nat) : s.unaudited ds = ds.filter (fun d => (s.desk d).any (fun k => !k.audit)) :=
  List.filter_congr fun d _ => by cases s.desk d <;> rfl

theorem orderClosePeriod_bad (h : namedDesks (s.body 0 1) = none) :
    s.orderClosePeriod = s.answer .closePeriod .badOrder [] := by
  simp only [State.orderClosePeriod, h]

theorem orderClosePeriod_good {ds : List Nat} (h : namedDesks (s.body 0 1) = some ds) : s.orderClosePeriod =
    ((ds.foldl (fun t d => ((t.modDesk d (fun k => { k with spent := 0 })).deskRecompute d .closePeriod).queueBurn d
      .closePeriod) s).startBurn).answer .closePeriod .accepted
      [(ds.filter (fun d => (s.desk d).any (fun k => !k.audit))).length] := by
  rw [← unaudited_eq]
  simp only [State.orderClosePeriod, h]
  rfl

theorem orderFlushMeter_bad (h : namedDesks (s.body 0 1) = none) :
    s.orderFlushMeter = s.answer .flushMeter .badOrder [] := by
  simp only [State.orderFlushMeter, h]

theorem orderFlushMeter_good {ds : List Nat} (h : namedDesks (s.body 0 1) = some ds) : s.orderFlushMeter =
    ((ds.foldl (fun t d => t.queueBurn d .flush) s).startBurn).answer .flushMeter .accepted
      [(ds.filter (fun d => (s.desk d).any (fun k => !k.audit))).length] := by
  rw [← unaudited_eq]
  simp only [State.orderFlushMeter, h]
  rfl

theorem orderAuditClear_bad (h : 15 < s.body 0 1 ∨ 2 ^ 40 ≤ s.body 8 8 ∨ 2 ^ 24 ≤ s.body 4 4) :
    s.orderAuditClear = s.answer .auditClear .badOrder [] := by
  have bad : 15 < s.body 0 1 ∨ Config.max40 < s.body 8 8 ∨ Config.max24 < s.body 4 4 := by
    unfold Config.max40 Config.max24
    omega
  unfold State.orderAuditClear
  dsimp only
  split
  next => rfl
  next => exact if_pos bad

theorem orderAuditClear_good (h : ¬ (15 < s.body 0 1 ∨ 2 ^ 40 ≤ s.body 8 8 ∨ 2 ^ 24 ≤ s.body 4 4))
    (hk : s.desk (s.body 0 1) = some k) : s.orderAuditClear =
      if k.state ≠ .audit then s.answer .auditClear .state []
      else (((((s.modDesk (s.body 0 1) (fun x =>
          { x with working := s.body 8 8, burned := s.body 8 8, calls := s.body 4 4, audit := false })).deskRecompute
          (s.body 0 1) .auditClear).queueBurn (s.body 0 1) .auditClear).startBurn).answer .auditClear .accepted []) :=
            by
  have good : ¬ (15 < s.body 0 1 ∨ Config.max40 < s.body 8 8 ∨ Config.max24 < s.body 4 4) := by
    unfold Config.max40 Config.max24
    omega
  simp only [State.orderAuditClear, hk]
  exact if_neg good

end desks

/-- Settles O41: each order by its own case equations; the desks named by `namedDesks_some`. -/
theorem deskOrdersChangeTheirDesk : Obligations.DeskOrdersChangeTheirDesk := by
  intro s
  refine ⟨fun t => ⟨fun h => next_of_taken t (orderSetDesk_bad h), fun h => next_of_taken t (orderSetDesk_good h)⟩,
    fun t => ⟨fun h k => next_of_taken t (orderClosePeriod_bad (namedDesks_none h k)),
      fun ds h => next_of_taken t (orderClosePeriod_good (namedDesks_some h))⟩,
    fun t => ⟨fun h k => next_of_taken t (orderFlushMeter_bad (namedDesks_none h k)),
      fun ds h => next_of_taken t (orderFlushMeter_good (namedDesks_some h))⟩,
    fun t => ⟨fun h => next_of_taken t (orderAuditClear_bad h), fun k good hk => ⟨fun st => next_of_taken t ?_,
      fun st => next_of_taken t ?_⟩⟩⟩
  · rw [orderAuditClear_good good hk, if_pos st]
  · rw [orderAuditClear_good good hk, if_neg (not_not.2 st)]

/-! ## The desk's state (R145, R146, R188) -/

theorem derived_eq (k : Desk) : k.derived =
    if k.audit then .audit else if k.closed then .closed
    else if k.ceiling ≠ 2 ^ 32 - 1 ∧ k.ceiling ≤ k.spent then .held else .opened := rfl

section state
variable {s : State} {d : Nat} {k : Desk} {c : DeskCause}

theorem deskRecompute_same (h : s.desk d = some k) (e : k.derived = k.state) : s.deskRecompute d c = s := by
  simp only [State.deskRecompute, h]
  exact if_pos e

theorem deskRecompute_changed (h : s.desk d = some k) (e : k.derived ≠ k.state) : s.deskRecompute d c =
    let s1 := (s.modDesk d (fun x => { x with state := k.derived })).post .meter
      (.deskState d k.derived k.state c k.spent k.ceiling)
    if k.derived = .opened then (s1.returnHeld d).arbiterPasses
    else (s.entryIds (fun e => decide (e.state = .ready ∧ e.desk = d))).foldl (fun t i => t.testDesk i) s1 := by
  simp only [State.deskRecompute, h]
  exact if_neg e

end state

/-- Settles O42: the tests of `derived_eq` in their order, and the report of a change by `deskRecompute_changed`. -/
theorem deskStateFollowsItsTotals : Obligations.DeskStateFollowsItsTotals := by
  intro s d k c h
  refine ⟨?_, ?_, ?_, deskRecompute_same h, fun e => ⟨fun o => ?_, fun o => ?_⟩⟩
  · rw [derived_eq]
    cases k.audit <;> cases k.closed <;> simp
    split <;> simp
  · rw [derived_eq]
    cases k.audit <;> cases k.closed <;> simp
    split <;> simp
  · rw [derived_eq]
    cases k.audit <;> cases k.closed <;> simp
  · rw [deskRecompute_changed h e]
    exact if_pos o
  · rw [deskRecompute_changed h e]
    exact if_neg o

/-! ## LINE MODE (R98) -/

theorem countRestart_eq (s : State) (u : UnitId) : s.countRestart u = { s with
    intake := { s.intake with restart := s.intake.restart.map (fun q => q.set u true) } } := by
  unfold State.countRestart
  split
  next none =>
    rw [none, Option.map_none, ← none]
  next q some =>
    rw [some]
    rfl

section lineMode
variable {s : State} {u : UnitId} {m : UnitMode}

/-- A mode that takes effect at once, with LINE_STATE (R98). -/
def State.modeNow (s : State) (u : UnitId) (m : UnitMode) (failures : Nat) : State :=
  let st : CallState := if m = .off then .off else .idle
  State.post { s with
    units := s.units.set u { s.unit u with
      mode := m, pendingMode := none, state := st, timer := none, dialFailures := failures },
    intake := { s.intake with restart := s.intake.restart.map (fun q => q.set u true) } }
    (.unit u) (.lineState u .lineMode st m none)

theorem setMode_eq : s.setMode u m = s.modeNow u m (s.unit u).dialFailures := by
  simp only [State.setMode, State.restUnit, countRestart_eq]
  cases u <;> rfl

theorem setMode_afterFailures : (s.modUnit u (fun x => { x with dialFailures := 0 })).setMode u m = s.modeNow u m 0 :=
    by
  rw [setMode_eq]
  cases u <;> rfl

theorem lineMode_resting (h : (s.unit u).state = .off ∨ (s.unit u).state = .idle) : s.lineMode u m =
    if (s.unit u).mode = m ∧ (s.unit u).pendingMode = none then (.already, s)
    else (.accepted, s.modeNow u m (s.unit u).dialFailures) := by
  rw [← setMode_eq]
  unfold State.lineMode
  dsimp only
  rcases h with h | h <;> rw [h]

theorem lineMode_blocked (h : (s.unit u).state = .blocked) : s.lineMode u m = (.accepted, s.modeNow u m 0) := by
  rw [← setMode_afterFailures]
  unfold State.lineMode
  dsimp only
  rw [h]

theorem lineMode_pending (h : ¬ ((s.unit u).state = .off ∨ (s.unit u).state = .idle))
    (k : (s.unit u).state ≠ .blocked) :
    s.lineMode u m = (.accepted, s.modUnit u (fun x => { x with pendingMode := some m })) := by
  unfold State.lineMode
  dsimp only
  split
  next off => exact absurd (.inl off) h
  next idle => exact absurd (.inr idle) h
  next blocked => exact absurd blocked k
  next => rfl

theorem orderLineMode_unnamed (h : unitOf (s.body 0 1) = none) : s.orderLineMode = s.answer .lineMode .noSuch [] := by
  simp only [State.orderLineMode, h]

theorem orderLineMode_bad (h : unitOf (s.body 0 1) = some u) (k : unitModeOf (s.body 1 1) = none) :
    s.orderLineMode = s.answer .lineMode .badOrder [] := by
  simp only [State.orderLineMode, h, k]

theorem orderLineMode_refused {r : Result} {t : State} (h : unitOf (s.body 0 1) = some u)
    (k : unitModeOf (s.body 1 1) = some m) (e : s.lineMode u m = (r, t)) (no : r ≠ .accepted) :
    s.orderLineMode = t.answer .lineMode r [] := by
  simp only [State.orderLineMode, h, k, e, if_neg no]

theorem orderLineMode_accepted {t : State} (h : unitOf (s.body 0 1) = some u) (k : unitModeOf (s.body 1 1) = some m)
    (e : s.lineMode u m = (.accepted, t)) :
    s.orderLineMode = (t.answer .lineMode .accepted []).arbiterPasses := by
  simp only [State.orderLineMode, h, k, e, if_true]

end lineMode

/-- Settles O44: the unit's state decides (`lineMode_resting`, `lineMode_blocked`, `lineMode_pending`). -/
theorem lineModeFollowsItsTable : Obligations.LineModeFollowsItsTable := by
  intro s taken
  refine ⟨fun h => next_of_taken taken (orderLineMode_unnamed h), fun u h =>
    ⟨fun k => next_of_taken taken (orderLineMode_bad h k), fun m k => ⟨fun rest same none => next_of_taken taken ?_,
      fun rest other => next_of_taken taken ?_, fun blocked => next_of_taken taken ?_,
      fun busy free => next_of_taken taken ?_⟩⟩⟩
  · exact orderLineMode_refused h k ((lineMode_resting rest).trans (if_pos ⟨same, none⟩)) (by simp)
  · exact orderLineMode_accepted h k ((lineMode_resting rest).trans (if_neg other))
  · exact orderLineMode_accepted h k (lineMode_blocked blocked)
  · exact orderLineMode_accepted h k (lineMode_pending busy free)

end Sys2Proof.Machine
end

section
/-! SUPPORT. LOAD TARIFF: the reading of its area, the tests that follow, and the zone of a number (R146, R182,
R183). -/

namespace Sys2Proof.Machine

open Sys2Proof

/-! ## The order (R182) -/

section order
variable {s : State}

theorem orderLoadTariff_outside (h : memBytes s.memSize < s.body 0 4 + 1588) :
    s.orderLoadTariff = s.answer .loadTariff .badOrder [0, 4294967295] := by
  have outside : s.tariffFits = false := by
    rw [Bool.eq_false_iff, ne_eq, tariffFits_iff]
    omega
  rw [State.orderLoadTariff, outside]
  rfl

theorem orderLoadTariff_fits (h : s.body 0 4 + 1588 ≤ memBytes s.memSize) : s.orderLoadTariff =
    if s.path.blocked (s.body 0 4) 1588 then s
    else match readTariff (s.readThrough (s.body 0 4) 1588) with
      | .inl i => s.answer .loadTariff .badOrder [0, i]
      | .inr (t, n) => (State.answer { s with meter := { s.meter with tariff := t } } .loadTariff .accepted
          [n, 4294967295]).retestEntries := by
  rw [State.orderLoadTariff, (tariffFits_iff s).2 h]
  rfl

theorem orderLoadTariff_wrong {i : Nat} (h : s.body 0 4 + 1588 ≤ memBytes s.memSize)
    (b : s.path.blocked (s.body 0 4) 1588 = false) (e : readTariff (s.readThrough (s.body 0 4) 1588) = .inl i) :
    s.orderLoadTariff = s.answer .loadTariff .badOrder [0, i] := by
  rw [orderLoadTariff_fits h, if_neg (Bool.eq_false_iff.1 b), e]

theorem orderLoadTariff_installed {t : Tariff} {n : Nat} (h : s.body 0 4 + 1588 ≤ memBytes s.memSize)
    (b : s.path.blocked (s.body 0 4) 1588 = false) (e : readTariff (s.readThrough (s.body 0 4) 1588) = .inr (t, n)) :
    s.orderLoadTariff = (State.answer { s with meter := { s.meter with tariff := t } } .loadTariff .accepted
      [n, 4294967295]).retestEntries := by
  rw [orderLoadTariff_fits h, if_neg (Bool.eq_false_iff.1 b), e]

end order

/-! ## The area's records (section 12.3) -/

section area
variable (area : List Byte)

/-- A number at an offset of the area. -/
def areaNum (o n : Nat) : Nat := leValue ((area.drop o).take n)

/-- The leading digits of record `i`, as long as its length byte says. -/
def areaDigits (i : Nat) : Text := (area.drop (24 * i + 1)).take (areaNum area (24 * i) 1)

/-- Record `i` as it is read. -/
def areaZone (i : Nat) : ZoneRead := readZone ((area.drop (24 * i)).take 24)

theorem take_drop_take {α : Type} (l : List α) {a o n m : Nat} (h : o + n ≤ m) :
    (((l.drop a).take m).drop o).take n = (l.drop (a + o)).take n := by
  rw [List.drop_take, List.take_take, List.drop_drop, Nat.min_eq_left (by omega)]

theorem areaZone_num {i o n : Nat} (h : o + n ≤ 24) :
    leValue ((((area.drop (24 * i)).take 24).drop o).take n) = areaNum area (24 * i + o) n := by
  rw [take_drop_take area h, areaNum]

theorem areaZone_eq (i : Nat) : areaZone area i =
    { length := areaNum area (24 * i) 1,
      digits := (area.drop (24 * i + 1)).take (min 8 (areaNum area (24 * i) 1)),
      setup := areaNum area (24 * i + 10) 2,
      len := ⟨areaNum area (24 * i + 12) 2, areaNum area (24 * i + 16) 2, areaNum area (24 * i + 20) 2⟩,
      price := ⟨areaNum area (24 * i + 14) 2, areaNum area (24 * i + 18) 2, areaNum area (24 * i + 22) 2⟩ } := by
  unfold areaZone readZone
  dsimp only
  rw [areaZone_num area (by omega), areaZone_num area (by omega), areaZone_num area (by omega),
    areaZone_num area (by omega), areaZone_num area (by omega), areaZone_num area (by omega),
    areaZone_num area (by omega), areaZone_num area (by omega), take_drop_take area (by omega), Nat.add_zero]

theorem readZones_eq (n i : Nat) : readZones n i (area.drop (24 * i)) =
    (List.range' i n).map (fun j => (j, areaZone area j)) := by
  induction n generalizing i with
  | zero => rfl
  | succ n ih =>
    rw [readZones, List.range'_succ, List.map_cons, List.drop_drop, ← ih (i + 1)]
    rfl

/-- The area's records, numbered from 0. -/
theorem readZones_area : readZones 64 0 area = (List.range 64).map (fun i => (i, areaZone area i)) := by
  rw [List.range_eq_range']
  exact readZones_eq area 64 0

/-- A record whose leading digits are too many or that holds a character that is no digit (R182). -/
def AreaBad (i : Nat) : Prop := 8 < areaNum area (24 * i) 1 ∨ ∃ c ∈ areaDigits area i, isDigit c = false

theorem prefixOk_iff (i : Nat) : (areaZone area i).prefixOk = true ↔ ¬ AreaBad area i := by
  rw [areaZone_eq, ZoneRead.prefixOk, AreaBad, Bool.and_eq_true, decide_eq_true_iff, List.all_eq_true]
  dsimp only
  by_cases h : areaNum area (24 * i) 1 ≤ 8
  · rw [Nat.min_eq_right h]
    simp [areaDigits, h, Nat.not_lt.2 h]
  · simp [h, Nat.not_le.1 h]

theorem areaZone_digits {i : Nat} (h : ¬ AreaBad area i) : (areaZone area i).digits = areaDigits area i := by
  have short : areaNum area (24 * i) 1 ≤ 8 := Nat.not_lt.1 fun k => h (.inl k)
  rw [areaZone_eq, areaDigits]
  dsimp only
  rw [Nat.min_eq_right short]

/-! ## The first record found wrong (R182) -/

theorem find_bad : ((List.range 64).map (fun i => (i, areaZone area i))).find? (fun x => !x.2.prefixOk) =
    ((List.range 64).find? (fun i => !(areaZone area i).prefixOk)).map (fun i => (i, areaZone area i)) := by
  rw [List.find?_map]
  rfl

theorem find_bad_some {i : Nat} (hi : i < 64) (bad : AreaBad area i) (first : ∀ j, j < i → ¬ AreaBad area j) :
    (List.range 64).find? (fun i => !(areaZone area i).prefixOk) = some i := by
  rw [List.find?_range_eq_some]
  refine ⟨?_, List.mem_range.2 hi, fun j hj => ?_⟩
  · simpa using (prefixOk_iff area i).not.2 (not_not.2 bad)
  · simpa using (prefixOk_iff area j).2 (first j hj)

theorem find_bad_none (sound : ∀ i, i < 64 → ¬ AreaBad area i) :
    (List.range 64).find? (fun i => !(areaZone area i).prefixOk) = none := by
  rw [List.find?_range_eq_none]
  intro j hj
  simpa using (prefixOk_iff area j).2 (sound j hj)

/-- A record that repeats an earlier one's leading digits (R182). -/
def AreaTwin (i : Nat) : Prop := areaDigits area i ≠ [] ∧ ∃ j, j < i ∧ areaDigits area j = areaDigits area i

/-- A record as read repeats the leading digits of an earlier one as read. -/
def repeatsPrefix (i : Nat) : Bool :=
  decide ((areaZone area i).digits ≠ [] ∧ ∃ j, j < i ∧ (areaZone area j).digits = (areaZone area i).digits)

theorem firstTwin_eq (n k : Nat) (seen : List Text)
    (hseen : ∀ t, t ∈ seen ↔ ∃ j, j < k ∧ (areaZone area j).digits = t) :
    firstTwin seen ((List.range' k n).map (fun i => (i, areaZone area i))) =
      (List.range' k n).find? (repeatsPrefix area) := by
  induction n generalizing k seen with
  | zero => rfl
  | succ n ih =>
    rw [List.range'_succ, List.map_cons, firstTwin]
    split
    next twin => exact (List.find?_cons_of_pos (p := repeatsPrefix area)
        (decide_eq_true (twin.imp_right (hseen _).1))).symm
    next fresh =>
      refine Eq.trans ?_ (List.find?_cons_of_neg (p := repeatsPrefix area)
        fun h => fresh ((of_decide_eq_true h).imp_right (hseen _).2)).symm
      refine ih (k + 1) _ fun t => ?_
      rw [List.mem_cons, hseen]
      constructor
      · rintro (rfl | ⟨j, hj, e⟩)
        · exact ⟨k, by omega, rfl⟩
        · exact ⟨j, by omega, e⟩
      · rintro ⟨j, hj, e⟩
        rcases Nat.lt_succ_iff_lt_or_eq.1 hj with h | rfl
        · exact .inr ⟨j, h, e⟩
        · exact .inl e.symm

theorem firstTwin_area : firstTwin [] ((List.range 64).map (fun i => (i, areaZone area i))) =
    (List.range 64).find? (repeatsPrefix area) := by
  rw [List.range_eq_range']
  exact firstTwin_eq area 64 0 [] (by simp)

section sound
variable (sound : ∀ i, i < 64 → ¬ AreaBad area i)
include sound

theorem repeatsPrefix_iff {i : Nat} (hi : i < 64) : repeatsPrefix area i = true ↔ AreaTwin area i := by
  rw [repeatsPrefix, decide_eq_true_iff, areaZone_digits area (sound i hi)]
  refine and_congr_right fun _ => exists_congr fun j => and_congr_right fun hj => ?_
  rw [areaZone_digits area (sound j (by omega))]

theorem firstTwin_some {i : Nat} (hi : i < 64) (twin : AreaTwin area i) (first : ∀ j, j < i → ¬ AreaTwin area j) :
    firstTwin [] ((List.range 64).map (fun i => (i, areaZone area i))) = some i := by
  rw [firstTwin_area, List.find?_range_eq_some]
  refine ⟨(repeatsPrefix_iff area sound hi).2 twin, List.mem_range.2 hi, fun j hj => ?_⟩
  rw [Bool.not_eq_true', Bool.eq_false_iff]
  exact fun h => first j hj ((repeatsPrefix_iff area sound (by omega)).1 h)

theorem firstTwin_none (fresh : ∀ i, i < 64 → ¬ AreaTwin area i) :
    firstTwin [] ((List.range 64).map (fun i => (i, areaZone area i))) = none := by
  rw [firstTwin_area, List.find?_range_eq_none]
  intro i hi
  rw [Bool.not_eq_true', Bool.eq_false_iff]
  exact fun h => fresh i hi ((repeatsPrefix_iff area sound hi).1 h)

theorem zone0_prefix_iff : ((List.range 64).map (fun i => (i, areaZone area i))).any
    (fun x => decide (x.1 = 0 ∧ x.2.digits ≠ [])) = true ↔ areaDigits area 0 ≠ [] := by
  rw [← areaZone_digits area (sound 0 (by omega)), List.any_eq_true]
  constructor
  · rintro ⟨x, hx, h⟩
    obtain ⟨i, -, rfl⟩ := List.mem_map.1 hx
    obtain ⟨rfl, ne⟩ := of_decide_eq_true h
    exact ne
  · exact fun h => ⟨_, List.mem_map.2 ⟨0, by simp, rfl⟩, decide_eq_true ⟨rfl, h⟩⟩

end sound

/-! ## The band map and the zones (R182, R184) -/

/-- The band of a byte of the map, where it is one of the three codes. -/
def areaBand (b : Byte) : Band := if b = 1 then .peak else if b = 2 then .shoulder else .night

/-- A byte that names a band. -/
def KnownBand (b : Byte) : Prop := b = 1 ∨ b = 2 ∨ b = 3

theorem byte_eq_iff (b : Byte) (n : Nat) (h : n < 256) : b = BitVec.ofNat 8 n ↔ b.toNat = n := by
  rw [BitVec.toNat_eq, BitVec.toNat_ofNat, Nat.mod_eq_of_lt h]

theorem bandOf_known {b : Byte} (h : KnownBand b) : bandOf b.toNat = some (areaBand b) := by
  rcases h with rfl | rfl | rfl <;> rfl

theorem bandOf_unknown {b : Byte} (h : ¬ KnownBand b) : bandOf b.toNat = none := by
  have h1 : b.toNat ≠ 1 := fun e => h (.inl ((byte_eq_iff b 1 (by omega)).2 e))
  have h2 : b.toNat ≠ 2 := fun e => h (.inr (.inl ((byte_eq_iff b 2 (by omega)).2 e)))
  have h3 : b.toNat ≠ 3 := fun e => h (.inr (.inr ((byte_eq_iff b 3 (by omega)).2 e)))
  rw [bandOf, if_neg h1, if_neg h2, if_neg h3]

theorem readBands_known {bs : List Byte} (h : ∀ b ∈ bs, KnownBand b) : readBands bs = some (bs.map areaBand) := by
  induction bs with
  | nil => rfl
  | cons b t ih =>
    rw [readBands, bandOf_known (h b (List.mem_cons_self ..)), ih fun c hc => h c (List.mem_cons_of_mem _ hc)]
    rfl

theorem readBands_unknown {bs : List Byte} (h : ¬ ∀ b ∈ bs, KnownBand b) : readBands bs = none := by
  induction bs with
  | nil => exact absurd (by simp) h
  | cons b t ih =>
    by_cases hb : KnownBand b
    · have ht : ¬ ∀ c ∈ t, KnownBand c := fun ht => h (List.forall_mem_cons.2 ⟨hb, ht⟩)
      rw [readBands, bandOf_known hb, ih ht]
    · rw [readBands, bandOf_unknown hb]

theorem rows_known_iff : (∀ b ∈ (area.drop 1540).take 48, KnownBand b) ↔
    (∀ b ∈ (area.drop 1540).take 24, KnownBand b) ∧ ∀ b ∈ (area.drop 1564).take 24, KnownBand b := by
  have halves : (area.drop 1540).take 48 = (area.drop 1540).take 24 ++ (area.drop 1564).take 24 := by
    rw [show 48 = 24 + 24 from rfl, List.take_add, List.drop_drop]
  rw [halves, List.forall_mem_append]

/-- A used zone as the area gives it (R182). -/
def usedZone (i : Nat) : Zone :=
  { digits := areaDigits area i, setup := areaNum area (24 * i + 10) 2,
    len := ⟨clampTo 1 7200 (areaNum area (24 * i + 12) 2), clampTo 1 7200 (areaNum area (24 * i + 16) 2),
      clampTo 1 7200 (areaNum area (24 * i + 20) 2)⟩,
    price := ⟨areaNum area (24 * i + 14) 2, areaNum area (24 * i + 18) 2, areaNum area (24 * i + 22) 2⟩ }

theorem zone_fst {i : Nat} (h : ¬ AreaBad area i) : (areaZone area i).zone.1 = usedZone area i := by
  have digits := areaZone_digits area h
  rw [areaZone_eq] at digits
  rw [areaZone_eq, usedZone, ← digits]
  rfl

theorem zone_snd (i : Nat) : (areaZone area i).zone.2 =
    [12, 16, 20].countP (fun o => clampTo 1 7200 (areaNum area (24 * i + o) 2) ≠ areaNum area (24 * i + o) 2) := by
  rw [areaZone_eq]
  simp only [ZoneRead.zone, clampLength, List.countP_cons, List.countP_nil, ne_eq, decide_not, Bool.not_eq_true',
    decide_eq_false_iff_not, ite_not]
  omega

/-- The tariff and the count of clamped lengths that a sound area gives, by its map (R182). -/
theorem readTariff_sound (sound : ∀ i, i < 64 → ¬ AreaBad area i) (zero : areaDigits area 0 = [])
    (fresh : ∀ i, i < 64 → ¬ AreaTwin area i) : readTariff area =
      match readBands ((area.drop 1540).take 24), readBands ((area.drop 1564).take 24) with
      | some wd, some we =>
        .inr ({ zones := ((List.range 64).filter (fun i => i = 0 ∨ areaDigits area i ≠ [])).map
                  (fun i => (i, usedZone area i)),
                weekend := area.getD 1536 0, weekdayRow := wd, weekendRow := we },
              ((List.range 64).map (fun i => (areaZone area i).zone.2)).sum)
      | _, _ => .inl 64 := by
  have none0 : ((List.range 64).map (fun i => (i, areaZone area i))).any
      (fun x => decide (x.1 = 0 ∧ x.2.digits ≠ [])) = false := by
    rw [Bool.eq_false_iff, ne_eq, zone0_prefix_iff area sound]
    exact not_not.2 zero
  have used : ((((List.range 64).map (fun i => (i, areaZone area i))).filter
        (fun x => decide (x.1 = 0 ∨ x.2.digits ≠ []))).map (fun x => (x.1, x.2.zone))).map (fun x => (x.1, x.2.1)) =
      ((List.range 64).filter (fun i => i = 0 ∨ areaDigits area i ≠ [])).map (fun i => (i, usedZone area i)) := by
    rw [List.filter_map, List.map_map, List.map_map]
    have same : (List.range 64).filter ((fun x : Nat × ZoneRead => decide (x.1 = 0 ∨ x.2.digits ≠ []))
        ∘ fun i => (i, areaZone area i)) = (List.range 64).filter (fun i => i = 0 ∨ areaDigits area i ≠ []) :=
      List.filter_congr fun i hi => by
        rw [Function.comp_apply, areaZone_digits area (sound i (List.mem_range.1 hi))]
    rw [same]
    refine List.map_congr_left fun i hi => ?_
    exact congrArg (Prod.mk i) (zone_fst area (sound i (List.mem_range.1 (List.mem_filter.1 hi).1)))
  unfold readTariff
  dsimp only
  rw [readZones_area, find_bad, find_bad_none area sound, Option.map_none]
  dsimp only
  rw [none0, firstTwin_none area sound fresh, used, List.map_map]
  rfl

end area

/-! ## The tests after a load (R146, R183) -/

theorem priced_iff (z : Zone) :
    z.priced = true ↔ z.setup ≠ 0 ∨ z.price.peak ≠ 0 ∨ z.price.shoulder ≠ 0 ∨ z.price.night ≠ 0 := by
  rw [Zone.priced, decide_eq_true_iff]
  omega

theorem chargeable_eq (m : Meter) (z : Zone) :
    m.chargeable z = (z.priced || decide (m.logSize ≤ (m.producer - m.consumer).toNat)) := by
  rw [Meter.chargeable, Meter.logRoom, ← decide_not]
  congr 2
  exact propext Nat.not_lt

/-! ## The zone of a number (R183) -/

theorem startsWith_iff {t p : Text} : startsWith t p = true ↔ p <+: t := by
  induction t generalizing p with
  | nil => cases p <;> simp [startsWith]
  | cons a t ih =>
    cases p with
    | nil => simp [startsWith]
    | cons b p =>
      rw [startsWith, Bool.and_eq_true, decide_eq_true_iff, ih, List.cons_prefix_cons]
      exact and_congr_left fun _ => eq_comm

/-- No zone of the list is better than one with no leading digits, where no other zone's digits begin the number. -/
theorem bestZone_none {number : Text} {best : Nat × Zone} (l : Table Zone)
    (h : ∀ x ∈ l, x.2.digits <+: number → x.2.digits = []) : bestZone number best l = best := by
  induction l with
  | nil => rfl
  | cons x l ih =>
    have stays : ¬ (startsWith number x.2.digits ∧ best.2.digits.length < x.2.digits.length) := by
      rintro ⟨begins, longer⟩
      rw [h x (List.mem_cons_self ..) (startsWith_iff.1 begins)] at longer
      exact absurd longer (Nat.not_lt_zero _)
    rw [bestZone, if_neg stays, ih fun y hy => h y (List.mem_cons_of_mem _ hy)]

/-- The zone whose leading digits are more than any other's that begins the number is the best, once it is in reach. -/
theorem bestZone_longest {number : Text} {i : Nat} {z : Zone} (begins : z.digits <+: number) (l : Table Zone)
    {best : Nat × Zone} (h : ∀ x ∈ l, x.2.digits <+: number → x = (i, z) ∨ x.2.digits.length < z.digits.length)
    (reach : best = (i, z) ∨ (best.2.digits.length < z.digits.length ∧ (i, z) ∈ l)) :
    bestZone number best l = (i, z) := by
  induction l generalizing best with
  | nil => exact reach.resolve_right fun r => absurd r.2 (by simp)
  | cons x l ih =>
    rw [bestZone]
    refine ih (fun y hy => h y (List.mem_cons_of_mem _ hy)) ?_
    split
    next better =>
      rcases h x (List.mem_cons_self ..) (startsWith_iff.1 better.1) with rfl | shorter
      · exact .inl rfl
      · refine .inr ⟨shorter, ?_⟩
        rcases reach with rfl | ⟨-, mem⟩
        · exact absurd better.2 (Nat.not_lt.2 (Nat.le_of_lt shorter))
        · exact (List.mem_cons.1 mem).resolve_left fun e => absurd shorter (by rw [← e]; exact Nat.lt_irrefl _)
    next stays =>
      refine reach.imp_right fun ⟨shorter, mem⟩ => ⟨shorter, (List.mem_cons.1 mem).resolve_left ?_⟩
      rintro rfl
      exact stays ⟨startsWith_iff.2 begins, shorter⟩

theorem lookup_eq {t : Tariff} {z0 : Zone} (h : tget t.zones 0 = some z0) (number : Text) :
    t.lookup number = bestZone (number.filter (fun c => decide (c ≠ 0x2C))) (0, z0) t.zones := by
  rw [Tariff.lookup, h]
  rfl

/-- Settles O40: the order by `orderLoadTariff_fits`, the area's first fault by `find_bad_some` and `firstTwin_some`, a
sound area by `readTariff_sound`, and the zone of a number by `bestZone_longest`. -/
theorem loadTariffReplacesTheTariff : Obligations.LoadTariffReplacesTheTariff := by
  refine ⟨fun s taken => ⟨fun h => next_of_taken taken (orderLoadTariff_outside h), fun h b => next_of_taken taken ?_,
    fun h b => ⟨fun i e => next_of_taken taken (orderLoadTariff_wrong h b e),
      fun t n e => next_of_taken taken (orderLoadTariff_installed h b e)⟩⟩,
    fun area _ => ⟨fun i hi bad first => ?_, fun sound zero => ?_, fun i sound zero hi twin first => ?_,
      fun sound zero fresh => ⟨fun unknown => ?_, fun known => ?_⟩⟩,
    fun s => ?_, priced_iff, fun t z0 number h0 empty => ⟨fun none => ?_, fun i z mem ne begins longest => ?_⟩⟩
  · rw [orderLoadTariff_fits h, if_pos b]
  · rw [readTariff, readZones_area, find_bad, find_bad_some area hi bad first]
    rfl
  · rw [readTariff, readZones_area, find_bad, find_bad_none area sound, Option.map_none]
    exact if_pos ((zone0_prefix_iff area sound).2 zero)
  · rw [readTariff, readZones_area, find_bad, find_bad_none area sound, Option.map_none]
    refine (if_neg fun h => (zone0_prefix_iff area sound).1 h zero).trans ?_
    rw [firstTwin_some area sound hi twin first]
  · rw [readTariff_sound area sound zero fresh]
    by_cases front : ∀ b ∈ (area.drop 1540).take 24, KnownBand b
    · have back : ¬ ∀ b ∈ (area.drop 1564).take 24, KnownBand b :=
        fun back => unknown ((rows_known_iff area).2 ⟨front, back⟩)
      rw [readBands_unknown back]
      split
      next e => cases e
      next => rfl
    · rw [readBands_unknown front]
  · obtain ⟨front, back⟩ := (rows_known_iff area).1 known
    rw [readTariff_sound area sound zero fresh, readBands_known front, readBands_known back]
    have front' : ((area.drop 1540).take 48).take 24 = (area.drop 1540).take 24 := by
      rw [List.take_take]
      rfl
    have back' : ((area.drop 1540).take 48).drop 24 = (area.drop 1564).take 24 := by
      rw [List.drop_take, List.drop_drop]
    dsimp only
    rw [front', back', funext (zone_snd area)]
    rfl
  · simp only [State.retestEntries, chargeable_eq]
    rfl
  · rw [lookup_eq h0]
    exact bestZone_none _ none
  · rw [lookup_eq h0]
    refine bestZone_longest begins _ longest (.inr ⟨?_, mem⟩)
    rw [empty]
    exact List.length_pos_iff.2 ne

end Sys2Proof.Machine
end

section
/-! SUPPORT. The Event Reporter: the layouts of the event records, and an event written or missed (R79 to R82). -/

namespace Sys2Proof.Machine

open Sys2Proof

/-! ## Fields of a fixed width -/

theorem fitBytes_of_short {n : Nat} {bs : List Byte} (h : bs.length ≤ n) :
    fitBytes n bs = bs ++ List.replicate (n - bs.length) 0 := by
  rw [fitBytes, List.take_of_length_le h]
  rfl

@[simp] theorem fitBytes_length (n : Nat) (bs : List Byte) : (fitBytes n bs).length = n := by
  simp only [fitBytes, zeroBytes, List.length_append, List.length_take, List.length_replicate]
  omega

@[simp] theorem flagByte_length (b : Bool) : (flagByte b).length = 1 := rfl

theorem leBytes_one (v : Nat) : leBytes 1 v = [byteOf v] := rfl

theorem optText_eq (t : Option Text) : optText t = t.getD [] := by cases t <;> rfl

theorem optId1_eq (o : Option Nat) : optId1 o = o.getD 0xFF := by cases o <;> rfl

theorem optId2_eq (o : Option Nat) : optId2 o = o.getD 0xFFFF := by cases o <;> rfl

theorem optCode_eq {α : Type} (f : α → Nat) (o : Option α) : optCode f o = o.elim 0 f := by cases o <;> rfl

/-- A text field of `n` characters: the length byte, and the characters with zeros behind them. -/
theorem textField_eq (n : Nat) (t : Text) :
    textField (n + 1) t = byteOf t.length :: (t.take n ++ List.replicate (n - t.length) 0) := rfl

/-! ## An event's record (section 12.4) -/

theorem eventBytes_eq {kind : Nat} {fields : List (List Byte)} {head rest : List Byte} (x : Word) (t : Stamp)
    (packed : packEvent [] fields = (head, rest)) (three : head.length = 3) (short : rest.length ≤ 20) :
    eventBytes kind x t fields =
        byteOf kind :: head ++ leBytes 4 x.toNat ++ leBytes 4 t.word ++ rest ++ List.replicate (20 - rest.length) 0
      ∧ (eventBytes kind x t fields).length = 32 := by
  have record : eventBytes kind x t fields = byteOf kind :: head ++ leBytes 4 x.toNat ++ leBytes 4 t.word
      ++ rest ++ List.replicate (20 - rest.length) 0 := by
    rw [eventBytes, packed, fitBytes_of_short short]
    simp only [List.append_assoc]
  refine ⟨record, ?_⟩
  rw [record]
  simp only [List.length_append, List.length_cons, leBytes_length, List.length_replicate, three]
  omega

/-- The fields of an event, placed in bytes 1 to 3 and from byte 12 on, by Table 12-6. -/
def Event.parts : Event → Byte × List Byte × List Byte
  | .ready c m b k => (1, [if c = .powerOn then 1 else 2, byteOf m, 0], leBytes 2 b ++ flagByte k)
  | .orderDone n k r q vs => (2, [byteOf n, k, byteOf (resultCode r)],
    leBytes 4 q.toNat ++ (vs.flatMap (leBytes 4)).take 16)
  | .pageSealed p d i c l n => (3, leBytes 2 p ++ [byteOf d], [byteOf i] ++ flagByte c ++ leBytes 2 l ++ leBytes 4 n)
  | .docClosed d o p f g n => (4, [byteOf d, byteOf (originCode o), byteOf p], flagByte f ++ flagByte g ++ leBytes 4 n)
  | .docFreed d p b => (5, [byteOf d, byteOf p, 0], leBytes 2 b)
  | .windowAbandoned w r d p h =>
    (6, [byteOf (windowNum w), byteOf (abandonCode r), byteOf d], leBytes 2 (p.getD 0xFFFF) ++ leBytes 4 h)
  | .guardHit a n => (7, [1, 0, byteOf (guardKindCode a)], [byteOf ((guardNumber a).getD 0xFF)] ++ leBytes 4 n)
  | .scanState st r d b p l f o => (8, [byteOf (scanStateCode st), byteOf (scanReasonCode r), 0],
      leBytes 2 (d.getD 0xFFFF) ++ leBytes 2 b ++ [byteOf p] ++ leBytes 4 l ++ leBytes 4 f ++ leBytes 4 o)
  | .lineState u r st m p => (9, [byteOf (unitNum u), byteOf (lineReasonCode r), byteOf (callStateCode st)],
      [byteOf (unitModeCode m), byteOf (p.elim 0 unitModeCode)])
  | .callIn u n g c => (10, [byteOf (unitNum u), byteOf n] ++ flagByte g, textField 20 (c.getD []))
  | .callMissed u r q n c => (11, [byteOf (unitNum u), byteOf (missCode r), byteOf (q.elim 0 refuseCode)],
      byteOf n :: textField 19 (c.getD []))
  | .callRefused u r b n c =>
    (12, [byteOf (unitNum u), byteOf (refuseCode r), byteOf (b.elim 0 (fun y => keyKindCode y.keyKind))],
      byteOf ((b.map (fun y => y.entry)).getD 0xFF) :: (textField 9 (n.getD []) ++ textField 10 (c.getD [])))
  | .destResult i d k a u st r c q n h g => (13, leBytes 2 i ++ [byteOf d],
      [byteOf (k % 16 + 16 * a), byteOf (u.elim 7 unitNum + 16 * entryStateCode st), byteOf (attemptCode r), byteOf c]
      ++ leBytes 4 q.toNat ++ leBytes 4 n ++ leBytes 4 h ++ leBytes 4 g)
  | .destHeld i k st z q => (14, leBytes 2 i ++ [byteOf k], [byteOf (deskStateCode st), byteOf z] ++ leBytes 4 q.toNat)
  | .printDone i d r c n => (15, [byteOf i, byteOf d, byteOf (printReasonCode r)], byteOf c :: leBytes 2 n)
  | .printerState st o n a => (16, [byteOf (printerStateCode st), byteOf (printerStateCode o), byteOf n],
      [byteOf ((a.map (fun y => y.1)).getD 0xFF)] ++ leBytes 2 ((a.map (fun y => y.2.1)).getD 0xFFFF)
        ++ [byteOf ((a.map (fun y => y.2.2)).getD 0xFF)])
  | .screenSwept q r o => (17, [byteOf (sweepCode q)] ++ leBytes 2 r, leBytes 2 o)
  | .screenFull u c => (18, [byteOf (unitNum u), 0, 0], textField 20 c)
  | .meterBurn k o r l c q => (19, [byteOf k, byteOf (burnOutcomeCode o), byteOf (r.elim 0 burnReasonCode)],
      leBytes 5 l ++ leBytes 3 c ++ leBytes 2 q)
  | .deskState k st o c p l => (20, [byteOf k, byteOf (deskStateCode st), byteOf (deskStateCode o)],
      byteOf (deskCauseCode c) :: (leBytes 4 p ++ leBytes 4 l))
  | .power w => (21, [if w then 1 else 2, 0, 0], [])

theorem parts_head (e : Event) : e.parts.2.1.length = 3 := by
  cases e <;> simp [Event.parts]

theorem parts_rest (e : Event) : e.parts.2.2.length ≤ 20 := by
  cases e with
  | orderDone n k r q vs =>
    simp only [Event.parts, List.length_append, leBytes_length, List.length_take]
    omega
  | _ => simp [Event.parts, textField]

theorem parts_kind (e : Event) : byteOf (eventCode e) = e.parts.1 := by
  cases e <;> rfl

/-- An event's fields fall into its parts; the values of ORDER_DONE have zeros behind them already (`record_eq`). -/
theorem packEvent_parts (e : Event) (h : ∀ n k r q vs, e ≠ .orderDone n k r q vs) :
    packEvent [] (eventFields e) = (e.parts.2.1, e.parts.2.2) := by
  cases e with
  | orderDone n k r q vs => exact absurd rfl (h n k r q vs)
  | ready c m b k => cases c <;> rfl
  | guardHit a n =>
    rw [Event.parts, ← optId1_eq]
    rfl
  | screenFull u t =>
    have long : ¬ ([byteOf (unitNum u)] : List Byte).length + (textField 20 t).length ≤ 3 := by simp [textField]
    simp only [eventFields, packEvent, ev, leBytes_one, List.nil_append, if_neg long, List.flatten_cons,
      List.flatten_nil,
      List.append_nil]
    rfl
  | power w => cases w <;> rfl
  | destResult i d k a u st r c q n h g => cases u <;> simp [Event.parts, eventFields, packEvent, ev, leBytes,
    fitBytes, zeroBytes]
  | _ =>
    simp [Event.parts, eventFields, packEvent, ev, leBytes, fitBytes, zeroBytes, optText_eq, optId1_eq, optId2_eq,
      optCode_eq, flagByte, textField]

/-- Result words of at most 16 bytes, with zeros up to 16 (Table 12-4). -/
theorem resultWords_eq (vs : List Nat) : resultWords vs = (vs.flatMap (leBytes 4)).take 16
    ++ List.replicate (16 - ((vs.flatMap (leBytes 4)).take 16).length) 0 := by
  rw [resultWords, fitBytes, List.length_take, zeroBytes]
  congr 2
  omega

/-- An event's record is its parts in their places, 32 bytes long (R79). -/
theorem record_eq (e : Event) (x : Word) (t : Stamp) :
    e.record x t = e.parts.1 :: e.parts.2.1 ++ leBytes 4 x.toNat ++ leBytes 4 t.word ++ e.parts.2.2
        ++ List.replicate (20 - e.parts.2.2.length) 0
      ∧ (e.record x t).length = 32 := by
  by_cases h : ∀ n k r q vs, e ≠ .orderDone n k r q vs
  · rw [← parts_kind]
    exact eventBytes_eq x t (packEvent_parts e h) (parts_head e) (parts_rest e)
  · simp only [not_forall, ne_eq, not_not] at h
    obtain ⟨n, k, r, q, vs, rfl⟩ := h
    have packed : packEvent [] (eventFields (.orderDone n k r q vs)) =
        ([byteOf n, k, byteOf (resultCode r)], leBytes 4 q.toNat ++ resultWords vs) := by
      simp [eventFields, packEvent, ev, leBytes, fitBytes, zeroBytes]
    obtain ⟨record, length⟩ := eventBytes_eq (kind := 2) x t packed rfl (by simp)
    refine ⟨record.trans ?_, length⟩
    generalize hv : (vs.flatMap (leBytes 4)).take 16 = v
    have values : v.length ≤ 16 := by simp [← hv]
    have whole : 20 - (leBytes 4 q.toNat ++ (v ++ List.replicate (16 - v.length) 0)).length = 0 := by
      simp only [List.length_append, leBytes_length, List.length_replicate]
      omega
    have zeros : 20 - (leBytes 4 q.toNat ++ v).length = 16 - v.length := by
      simp only [List.length_append, leBytes_length]
      omega
    simp only [Event.parts, resultWords_eq, hv, whole, zeros, List.replicate_zero, List.append_nil,
      List.append_assoc] <;>
      rfl

/-! ## An event written or missed (R51, R79, R80) -/

theorem MemPath.issue_guards (p : MemPath) (blk : Block) (a : Nat) (bs : List Byte) (c : Option Nat) :
    (p.issue blk a bs c).guards = p.guards := by
  rw [MemPath.issue_eq]
  rfl

section posting
variable {s : State} {blk : Block} {e : Event} {rest : List Posting}

theorem takePosting_waits (h : s.reporter.postings = [] ∨ s.part ≠ .running ∨ s.stalled .eventReporter = true) :
    s.takePosting = s := by
  unfold State.takePosting
  split
  next => rfl
  next p t e => exact if_pos ((h.resolve_left (by simp [e])).imp_right .inl)

theorem takePosting_untimely (h : s.reporter.postings = ⟨blk, e⟩ :: rest) (u : s.untimely e = true) :
    s.takePosting = s := by
  simp only [State.takePosting, h]
  exact if_pos (.inr (.inr u))

theorem takePosting_takes (h : s.reporter.postings = ⟨blk, e⟩ :: rest) (run : s.part = .running)
    (free : s.stalled .eventReporter = false) (u : s.untimely e = false) : s.takePosting =
      if s.dropPosting.reporter.unread < 256 then
        (s.dropPosting.writeEvent e).guardWritten s.reporter.producer e
      else s.dropPosting.missEvent := by
  simp only [State.takePosting, h]
  exact if_neg (by simp [run, free, u])

theorem untimely_iff : s.untimely e = true ↔
    s.intake.finish ≠ none ∧ ∃ k r q vs, e = .orderDone s.intake.expected k r q vs := by
  cases e with
  | orderDone n k r q vs =>
    simp only [State.untimely, Bool.and_eq_true, decide_eq_true_iff, Option.isSome_iff_ne_none, Event.orderDone.injEq]
    refine and_congr_right fun _ => ⟨fun h => ⟨k, r, q, vs, h, rfl, rfl, rfl, rfl⟩, ?_⟩
    rintro ⟨_, _, _, _, h, -⟩
    exact h
  | _ => simp [State.untimely]

theorem unread_iff (r : Reporter) : 0 < r.unread ↔ r.producer ≠ r.consumer := by
  rw [Reporter.unread, Nat.pos_iff_ne_zero, ne_eq, ne_eq, not_iff_not, BitVec.toNat_eq, BitVec.toNat_sub]
  have hp := r.producer.isLt
  have hc := r.consumer.isLt
  omega

/-- An event that is missed leaves the line; the count rises and is written, up to 65535 (R80). -/
theorem missEvent_eq (h : s.reporter.missed ≤ 65535) : s.missEvent = { s with
    path := if s.reporter.missed < 65535
      then s.path.issue .eventReporter (s.controlWord 0x808) (leBytes 4 (s.reporter.missed + 1)) none else s.path,
    reporter := { s.reporter with
      missed := if s.reporter.missed < 65535 then s.reporter.missed + 1 else s.reporter.missed } } := by
  unfold State.missEvent
  by_cases full : s.reporter.missed < 65535
  · have up : satAdd 65535 s.reporter.missed 1 = s.reporter.missed + 1 := by unfold satAdd; omega
    dsimp only
    rw [up, if_neg (by omega), if_pos full, if_pos full]
    rfl
  · have stays : satAdd 65535 s.reporter.missed 1 = s.reporter.missed := by unfold satAdd; omega
    dsimp only
    rw [stays, if_pos rfl, if_neg full, if_neg full]

end posting

/-- Settles O47: the layouts by `record_eq`; what becomes of an event by `takePosting_takes` and `missEvent_eq`. -/
theorem eventIsWrittenOrMissed : Obligations.EventIsWrittenOrMissed := by
  intro s
  refine ⟨?_, rfl, fun h => congrArg _ (takePosting_waits h),
    fun blk e rest h u => congrArg _ (takePosting_untimely h u),
    fun e => untimely_iff, fun e x t => ?_, fun blk e rest h run free u => ?_⟩
  · rw [State.interruptLine, Bool.and_eq_true, decide_eq_true_iff, unread_iff, Bool.not_eq_true']
  · have written := record_eq e x t
    cases e <;> exact written
  · intro x p written n missed room low
    have takes := takePosting_takes h run free u
    have unread : (s.dropPosting.reporter.unread < 256) ↔ room := Iff.rfl
    have dropped : s.dropPosting = { s with reporter := { s.reporter with postings := rest } } := by
      rw [State.dropPosting, h]
      rfl
    have writes : s.dropPosting.writeEvent e = written := by
      rw [dropped]
      rfl
    refine ⟨fun r notGuard => congrArg Host.Outcome.next ?_, fun r g a guard => congrArg Host.Outcome.next ?_,
      fun full => congrArg Host.Outcome.next ?_⟩
    · rw [takes, if_pos (unread.2 r), writes]
      cases e with
      | guardHit g a => exact absurd rfl (notGuard g a)
      | _ => rfl
    · subst guard
      rw [takes, if_pos (unread.2 r), writes]
      simp only [State.guardWritten, State.putGuard, written, p, MemPath.issue_guards]
      rfl
    · rw [takes, if_neg (fun k => full (unread.1 k)), dropped, missEvent_eq (by exact low)]
      rfl

end Sys2Proof.Machine
end

section
/-! SUPPORT. RESTART: what it stops on a window, a unit, a send entry and a print entry, and when it completes (R64,
R76 to R78, R115, R153, R179). -/

namespace Sys2Proof.Machine

open Sys2Proof

/-! ## A window (R64) -/

section window
variable {s : State} {w : WindowId} {r : AbandonReason}

theorem restartWindow_idle (i : (s.window w).state = .idle) (p : (s.window w).sealPending = false) :
    s.restartWindow w = s :=
  if_neg (by simp [i, p])

theorem restartWindow_used (h : (s.window w).state ≠ .idle ∨ (s.window w).sealPending = true) :
    s.restartWindow w = s.abandonWindow w .restart :=
  if_pos h

/-- The window and its page as an abandonment leaves them, before the held write is dealt with (R59, R64). -/
def State.windowDropped (s : State) (w : WindowId) (r : AbandonReason) : State :=
  ((((s.abandonSource (.win w)).modWindow w (fun y =>
      { y with slotA := Slot.clear, slotB := Slot.clear, state := .idle, sealPending := false, page := none })).modDoc
    ((s.window w).document.getD 0) (fun y => { y with attached := false })).post .memoryPath
    (.windowAbandoned w r ((s.window w).document.getD 0) (s.window w).page (s.window w).linesHanded))

theorem abandonWindow_quiet (h : ∀ g rest err, s.path.bus ≠ .windowHold w g rest err) :
    s.abandonWindow w r = s.windowDropped w r := by
  unfold State.abandonWindow
  dsimp only
  split
  next v g rest err bus => exact if_neg fun (own : v = w) => h g rest err (own ▸ bus)
  next => rfl

theorem abandonWindow_holding {g : Seg} {rest : List Seg} {err : Bool} (h : s.path.bus = .windowHold w g rest err) :
    s.abandonWindow w r = runSegs rest true (s.windowDropped w r) := by
  unfold State.abandonWindow
  simp only [h, if_true]
  rfl

end window

/-! ## A unit (R77, R115) -/

section unit
variable {s : State} {u : UnitId}

theorem restartUnit_rests {q : Quad Bool} (h : s.intake.restart = some q)
    (rest : (s.unit u).state = .off ∨ (s.unit u).state = .idle ∨ (s.unit u).state = .blocked) :
    s.restartUnit u = State.modUnit { s with intake := { s.intake with restart := some (q.set u true) } } u
      LineUnit.idleRecoders := by
  have counts : s.restartCall u = s.countRestart u := by
    unfold State.restartCall
    rcases rest with e | e | e <;> simp only [e]
  rw [State.restartUnit, counts, countRestart_eq, h]
  rfl

theorem restartUnit_rings (h : (s.unit u).state = .ringing) : s.restartUnit u =
    ((((s.callMissed u .restart none).modUnit u LineUnit.clearRinging).enterIdle u).modUnit u
      LineUnit.idleRecoders) := by
  simp only [State.restartUnit, State.restartCall, h]

theorem restartUnit_receives {a : AnswererSession} (h : (s.unit u).state = .inSession)
    (role : (s.unit u).role = some .answerer) (session : (s.unit u).answerer = some a) :
    s.restartUnit u = ((s.cutReception u a).releaseCall u).modUnit u LineUnit.idleRecoders := by
  simp only [State.restartUnit, State.restartCall, h, role, session]

theorem restartUnit_answers (h : (s.unit u).state = .inSession)
    (role : (s.unit u).role = some .answerer) (session : (s.unit u).answerer = none) :
    s.restartUnit u = (s.releaseCall u).modUnit u LineUnit.idleRecoders := by
  simp only [State.restartUnit, State.restartCall, h, role, session]

/-- An outgoing call is ended with its entry, not here (R153). -/
theorem restartUnit_calls (h : (s.unit u).state = .inSession) (role : (s.unit u).role ≠ some .answerer) :
    s.restartUnit u = s.modUnit u LineUnit.idleRecoders := by
  have stays : s.restartCall u = s := by
    unfold State.restartCall
    simp only [h]
    split
    next e _ => exact absurd e role
    next e _ => exact absurd e role
    next => rfl
  rw [State.restartUnit, stays]

theorem restartUnit_dials (h : (s.unit u).state = .seizing ∨ (s.unit u).state = .dialling
    ∨ (s.unit u).state = .awaitAnswer ∨ (s.unit u).state = .clearing) :
    s.restartUnit u = s.modUnit u LineUnit.idleRecoders := by
  have stays : s.restartCall u = s := by
    unfold State.restartCall
    rcases h with e | e | e | e <;> simp only [e]
  rw [State.restartUnit, stays]

theorem abortUnit_calling (h : (s.unit u).state = .seizing ∨ (s.unit u).state = .dialling
    ∨ (s.unit u).state = .awaitAnswer ∨ ((s.unit u).state = .inSession ∧ (s.unit u).role = some .caller)) :
    s.abortUnit u = s.endCall u .aborted := by
  unfold State.abortUnit
  rcases h with e | e | e | ⟨e, role⟩
  · simp only [e]
  · simp only [e]
  · simp only [e]
  · simp only [e, role, if_true]

theorem abortUnit_rests (h : (s.unit u).state = .off ∨ (s.unit u).state = .idle ∨ (s.unit u).state = .ringing
    ∨ (s.unit u).state = .clearing ∨ (s.unit u).state = .blocked
    ∨ ((s.unit u).state = .inSession ∧ (s.unit u).role ≠ some .caller)) : s.abortUnit u = s := by
  unfold State.abortUnit
  rcases h with e | e | e | e | e | ⟨e, role⟩
  · simp only [e]
  · simp only [e]
  · simp only [e]
  · simp only [e]
  · simp only [e]
  · simp only [e, if_neg role]

end unit

/-! ## The entries (R153, R179) -/

theorem cancelEntry_done {s : State} {i : Nat} {e : DestEntry} (h : s.entry i = some e) (c : e.cancellable = false) :
    s.cancelEntry i = s := by
  simp only [State.cancelEntry, h, c, Bool.not_false, if_true]

theorem printDone_eq {s : State} {i : Nat} {e : PrintEntry} (h : s.printEntry i = some e) (r : PrintReason) :
    s.printDone i r = (State.post { s with print := { s.print with
        entries := tdel s.print.entries i,
        current := if s.print.current = some i then none else s.print.current } } .printEngine
      (.printDone i e.document r e.copiesPrinted e.ejected)).dropPrintRef e.document := by
  simp only [State.printDone, h]

/-! ## Its end (R77) -/

theorem quad_every_iff (q : Quad Bool) : q.every = true ↔ q = ⟨true, true, true, true⟩ := by
  obtain ⟨a, b, c, d⟩ := q
  simp [Quad.every, and_assoc]

theorem restartDone_none {s : State} (h : s.intake.restart = none) : s.restartDone = s := by
  simp only [State.restartDone, h]

section done
variable {s : State} {q : Quad Bool}

theorem restartDone_all (h : s.intake.restart = some q) (all : q.every = true) (told : s.sendq.reports = [])
    (free : s.stalled .orderIntake = false) : s.restartDone =
      ((State.writePartState { s with intake := { s.intake with restart := none } } 1).answer .restart .accepted
        []).arbiterPasses := by
  simp only [State.restartDone, h]
  exact if_pos ⟨all, told, free⟩

theorem restartDone_waits (h : s.intake.restart = some q)
    (wait : ¬ (q.every = true ∧ s.sendq.reports = [] ∧ s.stalled .orderIntake = false)) : s.restartDone = s := by
  simp only [State.restartDone, h]
  exact if_neg wait

end done

/-! ## The print orders leave the Scanner Port (R76) -/

section scanner

theorem returnBlocks_scanner (s : State) (bs : List Nat) : (s.returnBlocks bs).scanner = s.scanner := by
  rw [returnBlocks_eq]

theorem testFree_scanner (s : State) (d : Nat) : (s.testFree d).scanner = s.scanner := by
  unfold State.testFree
  split
  next => rfl
  next r h =>
    split
    next =>
      rw [freeDoc_eq h]
      simp only [State.post_scanner]
      split
      next => exact returnBlocks_scanner s _
      next => exact returnBlocks_scanner s _
    next => rfl

theorem printDone_scanner (s : State) (i : Nat) (r : PrintReason) : (s.printDone i r).scanner = s.scanner := by
  unfold State.printDone
  split
  next => rfl
  next => exact testFree_scanner _ _

theorem foldl_printDone_scanner (ids : List Nat) (r : PrintReason) (s : State) :
    (ids.foldl (fun t i => t.printDone i r) s).scanner = s.scanner := by
  induction ids generalizing s with
  | nil => rfl
  | cons i rest ih => exact (ih _).trans (printDone_scanner s i r)

theorem recomputePrinter_scanner (s : State) (a : Option (Nat × Nat × Nat)) :
    (s.recomputePrinter a).scanner = s.scanner := by
  unfold State.recomputePrinter
  dsimp only
  split
  next => rfl
  next => split <;> rfl

theorem advanceSheet_scanner (s : State) : s.advanceSheet.scanner = s.scanner := by
  unfold State.advanceSheet
  split
  next => rfl
  next d _ =>
    split
    next => rfl
    next =>
      split
      next => rfl
      next => split <;> rfl

theorem printSelect_scanner (s : State) : s.printSelect.scanner = s.scanner := by
  unfold State.printSelect
  split
  next => rfl
  next =>
    split
    next => rfl
    next =>
      dsimp only
      split
      next => exact (advanceSheet_scanner _).trans (recomputePrinter_scanner _ none)
      next => exact recomputePrinter_scanner _ none

theorem restartPrint_scanner (s : State) : s.restartPrint.scanner = s.scanner := by
  have done := foldl_printDone_scanner (s.print.entries.map (fun x => x.1)) .restart s
  refine (printSelect_scanner _).trans ((recomputePrinter_scanner _ none).trans ?_)
  dsimp only
  split
  next => exact done
  next => exact done

end scanner

/-- The part as RESTART's take leaves it, before the blocks stop (R76). -/
def State.restartBegun (s : State) : State :=
  let t := s.issue .orderIntake (s.controlWord 0x810) [2, 0, 0, 0]
  { t with intake := { t.intake with take := .atOwner, restart := some ⟨false, false, false, false⟩ } }

theorem restartBegun_eq (s : State) : State.restartBegun s =
    { (s.writePartState 2).holdAtOwner with
      intake := { (s.writePartState 2).holdAtOwner.intake with restart := some (Quad.all false) } } := by
  have two : leBytes 4 2 = [2, 0, 0, 0] := rfl
  simp only [State.holdAtOwner, State.writePartState, two, State.restartBegun, Quad.all]

theorem restartBegun_scanner (s : State) : s.restartBegun.scanner = s.scanner := by
  simp only [State.restartBegun, State.issue_scanner]

theorem orderRestart_eq (s : State) : s.orderRestart =
    allUnits.foldl (fun t u => t.restartUnit u)
      (((s.restartBegun.restartPrint.restartScan).restartWindow .w0).restartWindow .w1).restartSends := by
  rw [restartBegun_eq]
  rfl

/-- Settles O46: the order of the stops is `orderRestart`; each stop by its own cases. -/
theorem restartStopsAndCompletes : Obligations.RestartStopsAndCompletes := by
  refine ⟨fun s t => ?_, fun s w => ?_, fun s u => ?_, fun s => ?_, fun s => ?_, fun s => ?_⟩
  case refine_1 =>
    intro s1 s2 s3 s4 s5
    refine next_of_taken_retry t ((orderRestart_eq s).trans ?_)
    have begun : s.restartBegun = s2 := by simp only [State.restartBegun, s2, s1]
    have active : s.scanner.active = s3.scanner.active := by
      rw [show s3.scanner = s.scanner by simp only [s3, ← begun, restartPrint_scanner, restartBegun_scanner]]
    rw [begun]
    simp only [s5, s4, active]
    rfl
  case refine_2 =>
    refine ⟨restartWindow_idle, restartWindow_used, fun r d hd => ?_⟩
    intro a b t
    have dropped : s.windowDropped w r = t := by
      simp only [State.windowDropped, hd, Option.getD_some]
      rfl
    refine ⟨fun quiet => (abandonWindow_quiet quiet).trans dropped, fun g rest err bus => ?_⟩
    have goes : s.abandonWindow w r = runSegs rest true t := dropped ▸ abandonWindow_holding bus
    exact ⟨goes, fun e => by rw [goes, e]; rfl⟩
  case refine_3 =>
    refine ⟨fun q => restartUnit_rests, fun h => ?_, fun a => restartUnit_receives, restartUnit_answers,
      restartUnit_calls, restartUnit_dials, abortUnit_calling, abortUnit_rests⟩
    rw [restartUnit_rings h]
    rfl
  case refine_4 =>
    refine ⟨rfl, fun i e h => ⟨fun done => ?_, fun u a c hu => ?_, fun rest c => ?_⟩⟩
    · refine cancelEntry_done h ?_
      rcases done with f | p
      · simp [DestEntry.cancellable, f]
      · simp [DestEntry.cancellable, p]
    · exact cancelEntry_active h (cancellable_iff.2 ⟨by simp [a, EntryState.final], c⟩) a hu
    · have final : e.state.final = false ∧ e.state ≠ .active := by
        rcases rest with a | a | a | a <;> simp [a, EntryState.final]
      exact cancelEntry_resting h (cancellable_iff.2 ⟨final.1, c⟩) final.2
  case refine_5 => exact ⟨rfl, fun i e r h => printDone_eq h r⟩
  case refine_6 =>
    refine ⟨fun h => congrArg Host.Outcome.next (restartDone_none h),
      fun q h => ⟨fun all told free => ?_, fun wait => ?_⟩⟩
    · exact congrArg Host.Outcome.next (restartDone_all h ((quad_every_iff q).2 all) told free)
    · refine congrArg Host.Outcome.next (restartDone_waits h ?_)
      rw [quad_every_iff]
      rintro ⟨all, told, free⟩
      rcases wait with n | n | n
      · exact n all
      · exact n told
      · simp [free] at n

end Sys2Proof.Machine
end

section
/-! SUPPORT. DUMP: the layouts of its records, its take, and its records one by one (R73 to R75, section 12.3). -/

namespace Sys2Proof.Machine

open Sys2Proof

/-! ## Bodies placed field by field (R199) -/

@[simp] theorem placeBody_nil (off : Nat) : placeBody off [] = [] := rfl

@[simp] theorem placeBody_raw (off : Nat) (bs : List Byte) (rest : List Field) :
    placeBody off (.raw bs :: rest) = bs ++ placeBody (off + bs.length) rest := rfl

@[simp] theorem placeBody_num (off n v : Nat) (rest : List Field) : placeBody off (.num n v :: rest) =
    List.replicate ((n - off % n) % n) 0 ++ leBytes n v ++ placeBody (off + (n - off % n) % n + n) rest := rfl

/-- Two-byte numbers from an even offset on stand without padding. -/
theorem placeBody_pairs (vs : List Nat) (rest : List Field) (off : Nat) (even : off % 2 = 0) :
    placeBody off (vs.map (fun p => Field.num 2 p) ++ rest) =
      vs.flatMap (leBytes 2) ++ placeBody (off + 2 * vs.length) rest := by
  induction vs generalizing off with
  | nil => rfl
  | cons v t ih =>
    have next := ih (off + 2) (by omega)
    simp only [List.map_cons, List.cons_append, placeBody_num, even, Nat.sub_zero, Nat.mod_self, List.replicate_zero,
      List.nil_append, Nat.add_zero, List.flatMap_cons, List.append_assoc, List.length_cons]
    rw [next, show off + 2 + 2 * t.length = off + 2 * (t.length + 1) by omega]

@[simp] theorem textField_length (n : Nat) (t : Text) : (textField (n + 1) t).length = n + 1 := by
  rw [textField, List.length_cons, fitBytes_length, Nat.add_sub_cancel]

theorem padRecord_whole {bs : List Byte} (h : bs.length % 4 = 0) : padRecord bs = bs := by
  rw [padRecord, h]
  exact List.append_nil bs

@[simp] theorem verdictBytes_length (v : RingVerdict) : (verdictBytes v).length = 2 := by cases v <;> rfl

/-! ## The records (section 12.3) -/

theorem optStamp_eq (t : Option Stamp) : optStamp t = t.elim 4294967295 (fun x => x.word) := by cases t <;> rfl

section records
variable {s : State} {i : Nat}

theorem dumpRecord_page {p : PageRec} (h : s.page i = some p) : s.dumpRecord .pages i =
    leBytes 2 i ++ [byteOf (pageStateCode p.state), byteOf p.document, byteOf p.position, byteOf (originCode p.origin),
      byteOf (widthCode p.width), byteOf (resolutionCode p.resolution)]
    ++ leBytes 2 p.lines ++ [0, 0] ++ leBytes 4 p.coded ++ leBytes 2 p.first ++ leBytes 2 p.last ++ leBytes 2 p.blocks
    ++ flagByte p.clipped ++ [0] := by
  simp [State.dumpRecord, h, pageFields, padRecord, zeroBytes, leBytes_one]

theorem dumpRecord_entry {e : DestEntry} (h : s.entry i = some e) : s.dumpRecord .sendQueue i =
    leBytes 2 i ++ [0, 0] ++ leBytes 4 e.orderSeq.toNat
    ++ [byteOf e.document, byteOf e.desk, byteOf (priorityCode e.priority)] ++ textField 25 e.number
    ++ [byteOf (e.zone.getD 0xFF), byteOf (entryStateCode e.state), byteOf e.attempts, byteOf e.maxAttempts,
      byteOf e.retryInterval] ++ [0, 0, 0] ++ leBytes 4 e.readyTime ++ leBytes 4 e.countdown
    ++ leBytes 4 e.nextAttempt.word
    ++ [byteOf (e.lastResult.elim 0 attemptCode), byteOf e.confirmed, byteOf (e.unit.elim 0xFF unitNum), 0]
    ++ leBytes 4 e.chargeTotal ++ flagByte e.heldReported ++ flagByte e.cancelPending ++ [0, 0] := by
  have unit : optId1 (e.unit.map unitNum) = e.unit.elim 0xFF unitNum := by cases e.unit <;> rfl
  simp [State.dumpRecord, h, entryFields, padRecord, zeroBytes, leBytes_one, unit, optId1_eq, optCode_eq]

theorem dumpRecord_screen {e : ScreenEntry} (h : tget s.screen.entries i = some e) : s.dumpRecord .screenTable i =
    [byteOf i, 1, byteOf (keyKindCode e.keyKind)] ++ textField 21 e.key
    ++ [byteOf (screenKindCode e.kind), byteOf e.desk, byteOf e.copies] ++ flagByte e.flash
    ++ [byteOf e.budget, byteOf e.budgetLeft] ++ flagByte e.touched ++ [0] ++ leBytes 2 e.calls ++ [0, 0]
    ++ leBytes 4 (e.lastCall.elim 4294967295 (fun t => t.word)) := by
  have one : byteOf 1 = 1 := rfl
  simp [State.dumpRecord, h, screenFields, padRecord, zeroBytes, leBytes_one, optStamp_eq, one]

theorem dumpRecord_desk {k : Desk} (h : s.desk i = some k) : s.dumpRecord .desks i =
    [byteOf (deskStateCode k.state)] ++ flagByte k.audit ++ flagByte k.closed ++ [0] ++ leBytes 4 k.ceiling
    ++ leBytes 4 k.spent ++ [0, 0, 0, 0] ++ leBytes 8 k.working ++ leBytes 8 k.burned ++ leBytes 4 k.calls
    ++ [0, 0, 0, 0] ++ leBytes 8 (k.captured.elim (2 ^ 64 - 1) (fun c => c.1))
    ++ leBytes 4 (k.captured.elim (2 ^ 32 - 1) (fun c => c.2)) ++ [if k.torn then 2 else 1, 0, 0, 0] := by
  have torn : byteOf (if k.torn then 2 else 1) = if k.torn then 2 else 1 := by cases k.torn <;> rfl
  cases hc : k.captured <;>
    simp [State.dumpRecord, h, deskFields, padRecord, zeroBytes, leBytes_one, hc, torn, Config.max32]

theorem dumpRecord_unit {u : UnitId} (h : unitOf i = some u) : s.dumpRecord .lineStatistics i =
    let l := s.unit u
    let c := l.stats
    [byteOf (unitModeCode l.mode), byteOf (l.pendingMode.elim 0 unitModeCode), byteOf (callStateCode l.state),
      byteOf (l.role.elim 0 roleCode)] ++ leBytes 2 (l.entry.getD 0xFFFF) ++ textField 9 l.lead
    ++ [byteOf l.dialFailures, byteOf l.ringCount] ++ textField 25 (l.caller.getD []) ++ verdictBytes l.verdict
    ++ flagByte l.glare ++ flagByte l.answered ++ [byteOf (l.result.elim 0 attemptCode), 0]
    ++ leBytes 4 l.releaseTime.word ++ leBytes 4 l.attemptBytes ++ leBytes 4 (l.timer.getD 0)
    ++ [c.callsOut, c.callsIn, c.bytesSent, c.fillBytes, c.underruns, c.pagesSent, c.pagesReceived, c.redosSent,
        c.redosReceived, c.badLines].flatMap (leBytes 4) := by
  simp [State.dumpRecord, h, unitFields, padRecord, zeroBytes, leBytes_one, optId2_eq, optCode_eq, optText_eq]

/-- The list of a document's pages, filled up with zeros to 250 (Table 1-2). -/
theorem docPages_filled (ps : List Nat) (h : ps.length ≤ 250) (rest : List Field) :
    placeBody 5 ((ps ++ List.replicate (250 - ps.length) 0).map (fun p => Field.num 2 p) ++ rest) =
      0 :: (ps.flatMap (leBytes 2) ++ List.replicate (2 * (250 - ps.length)) 0 ++ placeBody 506 rest) := by
  have zeros : ∀ n, (List.replicate n 0).flatMap (leBytes 2) = List.replicate (2 * n) 0 := by
    intro n
    induction n with
    | zero => rfl
    | succ n ih => rw [List.replicate_succ, List.flatMap_cons, ih]; rfl
  have odd : ∀ vs : List Nat, vs ≠ [] → placeBody 5 (vs.map (fun p => Field.num 2 p) ++ rest) =
      0 :: placeBody 6 (vs.map (fun p => Field.num 2 p) ++ rest) := by
    intro vs some
    obtain ⟨v, t, rfl⟩ := List.exists_cons_of_ne_nil some
    rfl
  have length : (ps ++ List.replicate (250 - ps.length) 0).length = 250 := by
    rw [List.length_append, List.length_replicate]
    omega
  rw [odd _ (List.ne_nil_of_length_pos (by omega)), placeBody_pairs _ _ _ rfl, length, List.flatMap_append, zeros]

theorem docFields_placed (i : Nat) {d : Doc} (short : d.pages.length ≤ 250) : placeBody 0 (docFields i d) =
    [byteOf i, byteOf (docStateCode d.state), byteOf (originCode d.origin), byteOf d.desk, byteOf d.pages.length, 0]
    ++ d.pages.flatMap (fun p => leBytes 2 p) ++ List.replicate (2 * (250 - d.pages.length)) 0
    ++ flagByte d.keep ++ [0] ++ leBytes 2 d.sendRefs ++ [byteOf d.printRefs] ++ flagByte d.truncated
    ++ flagByte d.notQueued ++ flagByte d.deletePending ++ [0, 0] ++ leBytes 4 d.created.word
    ++ textField 21 (d.station.getD []) ++ [0, 0, 0] ++ leBytes 4 d.total := by
  simp only [docFields, List.cons_append, List.nil_append, List.append_assoc, placeBody_num, Config.docPages]
  rw [docPages_filled d.pages short]
  simp [leBytes_one, optText_eq]

theorem docFields_length (i : Nat) {d : Doc} (short : d.pages.length ≤ 250) :
    (placeBody 0 (docFields i d)).length = 548 := by
  rw [docFields_placed i short]
  have pages : (d.pages.flatMap (fun p => leBytes 2 p)).length = 2 * d.pages.length := by
    simp [List.length_flatMap, Nat.mul_comm]
  simp only [List.length_append, List.length_cons, List.length_nil, List.length_replicate, leBytes_length,
    flagByte_length, textField_length, pages]
  omega

theorem dumpRecord_doc {d : Doc} (h : s.doc i = some d) (short : d.pages.length ≤ 250) :
    s.dumpRecord .documents i = placeBody 0 (docFields i d) := by
  simp only [State.dumpRecord, h]
  exact padRecord_whole (by rw [docFields_length i short])

/-- Every record has its kind's length, padding included, but that of a document with more pages than it can have. -/
theorem dumpRecord_length (s : State) (k : DumpKind) (i : Nat) :
    (s.dumpRecord k i).length = dumpLength k ∨ ∃ d, s.doc i = some d ∧ 250 < d.pages.length := by
  cases k with
  | documents =>
    cases h : s.doc i with
    | none => exact .inl (by simp [State.dumpRecord, h, goneRecord])
    | some d =>
      by_cases short : d.pages.length ≤ 250
      · exact .inl ((congrArg List.length (dumpRecord_doc h short)).trans (docFields_length i short))
      · exact .inr ⟨d, rfl, Nat.lt_of_not_le short⟩
  | pages =>
    refine .inl ?_
    cases h : s.page i with
    | none => simp [State.dumpRecord, h, goneRecord]
    | some p => simp [dumpRecord_page h, dumpLength]
  | sendQueue =>
    refine .inl ?_
    cases h : s.entry i with
    | none => simp [State.dumpRecord, h, goneRecord]
    | some e => simp [dumpRecord_entry h, dumpLength]
  | screenTable =>
    refine .inl ?_
    cases h : tget s.screen.entries i with
    | none => simp [State.dumpRecord, h, goneRecord]
    | some e => simp [dumpRecord_screen h, dumpLength]
  | desks =>
    refine .inl ?_
    cases h : s.desk i with
    | none => simp [State.dumpRecord, h, goneRecord, zeroBytes]
    | some d => simp [dumpRecord_desk h, dumpLength]
  | lineStatistics =>
    refine .inl ?_
    cases h : unitOf i with
    | none => simp [State.dumpRecord, h, goneRecord, zeroBytes]
    | some u => simp [dumpRecord_unit h, dumpLength]

/-- A record that is gone: its number and its state unused, with zeros behind them (R74). -/
theorem dumpRecord_gone {k : DumpKind} {head : List Byte} (h : s.dumpRecord k i = fitBytes (dumpLength k) head)
    (short : head.length ≤ dumpLength k) :
    s.dumpRecord k i = head ++ List.replicate (dumpLength k - head.length) 0 :=
  h.trans (fitBytes_of_short short)

end records

theorem dumpHeader_eq (s : State) (k : DumpKind) (total fits : Nat) : s.dumpHeader k total fits =
    [byteOf (dumpCode k), 0, 0, 0] ++ leBytes 4 s.now.word ++ leBytes 4 s.store.blockCount
    ++ leBytes 4 s.store.free.length ++ leBytes 2 total ++ leBytes 2 fits ++ leBytes 2 (dumpLength k) ++ [0, 0] := by
  rw [State.dumpHeader, fitBytes_of_short (by simp)]
  simp

/-! ## The order (R73) -/

theorem overlaps_iff (a n b m : Nat) : overlaps a n b m = true ↔ n ≠ 0 ∧ m ≠ 0 ∧ a < b + m ∧ b < a + n := by
  rw [overlaps, decide_eq_true_iff, Nat.pos_iff_ne_zero, Nat.pos_iff_ne_zero]

theorem dumpOptionsOk_iff (k : DumpKind) (o : Byte) : dumpOptionsOk k o = true ↔
    o.toNat < 4 ∧ (o.getLsbD 0 = true → k = .lineStatistics) ∧ (o.getLsbD 1 = true → k = .sendQueue) := by
  simp only [dumpOptionsOk, Bool.and_eq_true, decide_eq_true_iff, Bool.or_eq_true, Bool.not_eq_true', and_assoc,
    ← Bool.not_eq_true, ← imp_iff_not_or]

theorem dumpAreaOk_iff (s : State) (base len : Nat) : s.dumpAreaOk base len = true ↔
    base + len ≤ memBytes s.memSize ∧ ∀ x ∈ s.keptOut, overlaps base len x.1 x.2 = false := by
  simp only [State.dumpAreaOk, extentsMeet, Bool.and_eq_true, decide_eq_true_iff, List.all_eq_true, Bool.not_eq_true']

section order
variable {s : State} {k : DumpKind}

theorem orderDump_unknown (h : dumpKindOf (s.body 0 1) = none) : s.orderDump = s.answer .dump .badOrder [] := by
  simp only [State.orderDump, h]

theorem orderDump_refused (h : dumpKindOf (s.body 0 1) = some k) (bad : ¬ (dumpOptionsOk k (byteOf (s.body 1 1)) = true
    ∧ s.dumpAreaOk (s.body 4 4) (s.body 8 4) = true ∧ 24 ≤ s.body 8 4)) :
    s.orderDump = s.answer .dump .badOrder [] := by
  simp only [State.orderDump, h]
  exact if_neg bad

theorem orderDump_starts (h : dumpKindOf (s.body 0 1) = some k) (good : dumpOptionsOk k (byteOf (s.body 1 1)) = true
    ∧ s.dumpAreaOk (s.body 4 4) (s.body 8 4) = true ∧ 24 ≤ s.body 8 4) :
    s.orderDump = s.startDump k (byteOf (s.body 1 1)) (s.body 4 4) (s.body 8 4) := by
  simp only [State.orderDump, h]
  exact if_pos good

end order

/-! ## The records one by one (R74, R75) -/

section going
variable {s : State} {d : DumpState}

theorem settleDump_goes (h : s.intake.dump = some d) (more : d.left ≠ [] ∨ s.stalled .dump = true) :
    s.settleDump = s := by
  rw [settleDump_some h]
  refine if_neg ?_
  rintro ⟨none, free⟩
  exact more.elim (fun k => k none) (fun k => by simp [free] at k)

theorem settleDump_ends (h : s.intake.dump = some d) (last : d.left = []) (free : s.stalled .dump = false) :
    s.settleDump = s.finishDump d := by
  rw [settleDump_some h]
  exact if_pos ⟨last, free⟩

theorem dumpRecordWrite_rests (h : s.intake.dump = none ∨ s.path.waiting ≠ [] ∨ 16 ≤ s.path.queue.length) :
    s.dumpRecordWrite = s := by
  unfold State.dumpRecordWrite
  split
  next => rfl
  next d e => exact if_pos (h.resolve_left (by simp [e]))

theorem dumpRecordWrite_none_left (h : s.intake.dump = some d) (left : d.left = []) : s.dumpRecordWrite = s := by
  simp only [State.dumpRecordWrite, h, left]
  split <;> rfl

theorem dumpRecordWrite_next {i : Nat} {rest : List Nat} (h : s.intake.dump = some d) (left : d.left = i :: rest)
    (idle : s.path.waiting = []) (room : s.path.queue.length < 16) : s.dumpRecordWrite = s.dumpOne d i rest := by
  simp only [State.dumpRecordWrite, h, left]
  exact if_neg (by simp [idle, Config.queueWrites, room])

theorem dumpClear_off (h : d.clear = false) (i : Nat) : s.dumpClear d i = s := by
  simp only [State.dumpClear, h, Bool.false_eq_true, if_false]

theorem dumpClear_unit {i : Nat} {u : UnitId} (h : d.clear = true) (hu : unitOf i = some u) :
    s.dumpClear d i = s.modUnit u (fun l => { l with stats := Stats.zero }) := by
  simp only [State.dumpClear, h, hu, if_true]

theorem dumpPurge_stays {i : Nat} (h : d.purge = false ∨ ∀ e, s.entry i = some e → e.state.final = false) :
    s.dumpPurge d i = (0, s) := by
  unfold State.dumpPurge
  split
  next e he =>
    refine if_neg ?_
    rcases h with off | live
    · simp [off]
    · simp [live e he]
  next => rfl

theorem dumpPurge_final {i : Nat} {e : DestEntry} (h : d.purge = true) (he : s.entry i = some e)
    (final : e.state.final = true) : s.dumpPurge d i = (1, { s with
      sendq := { s.sendq with entries := tdel s.sendq.entries i, finals := dropNum i s.sendq.finals } }) := by
  simp only [State.dumpPurge, he, h, final, Bool.and_self, if_true]

/-- The progress of a DUMP after one more record (R74, R75). -/
def DumpState.next (d : DumpState) (rest : List Nat) (n : Nat) : DumpState :=
  { d with addr := d.addr + dumpLength d.kind, left := rest, written := d.written + 1, purged := d.purged + n }

variable {i n : Nat} {rest : List Nat} {t : State}

theorem dumpOne_goes
    (done : ((s.issue .dump d.addr (s.dumpRecord d.kind i)).dumpClear d i).dumpPurge d i = (n, t))
    (more : rest ≠ [] ∨ t.stalled .dump = true) :
    s.dumpOne d i rest = { t with intake := { t.intake with dump := some (d.next rest n) } } := by
  simp only [State.dumpOne, done]
  exact settleDump_goes (d := d.next rest n) rfl more

theorem dumpOne_ends
    (done : ((s.issue .dump d.addr (s.dumpRecord d.kind i)).dumpClear d i).dumpPurge d i = (n, t))
    (last : rest = []) (free : t.stalled .dump = false) :
    s.dumpOne d i rest = State.answer { t with intake := { t.intake with dump := none } } .dump .accepted
      (d.next rest n).values := by
  simp only [State.dumpOne, done]
  exact settleDump_ends (d := d.next rest n) rfl last free

end going

/-- The progress of a DUMP as its take begins it (R74). -/
def State.dumpBegun (s : State) (k : DumpKind) (o : Byte) (base len : Nat) : DumpState :=
  { kind := k, clear := o.getLsbD 0, purge := o.getLsbD 1, addr := base + 24, total := (s.dumpSet k).length,
    left := (s.dumpSet k).take (min (s.dumpSet k).length ((len - 24) / dumpLength k)), written := 0, purged := 0 }

/-- The part with the header of a DUMP issued, and its take held at its owner (R74). -/
def State.headerIssued (s : State) (k : DumpKind) (base len : Nat) : State :=
  s.issue .dump base (s.dumpHeader k (s.dumpSet k).length (min (s.dumpSet k).length ((len - 24) / dumpLength k)))

section start
variable {s : State} {k : DumpKind} {o : Byte} {base len : Nat}

theorem startDump_goes (more : (s.dumpBegun k o base len).left ≠ [] ∨ (s.headerIssued k base len).stalled .dump =
    true) :
    s.startDump k o base len = { s.headerIssued k base len with
      intake := { (s.headerIssued k base len).intake with take := .atOwner, dump := some (s.dumpBegun k o base len) }
      } := by
  rw [State.startDump]
  generalize hs : s.issue .dump base _ = s1
  have issued : s.headerIssued k base len = s1 := hs
  rw [issued] at more ⊢
  exact settleDump_goes (d := s.dumpBegun k o base len) rfl more

theorem startDump_ends (nothing : (s.dumpBegun k o base len).left = [])
    (free : (s.headerIssued k base len).stalled .dump = false) :
    s.startDump k o base len = State.answer { s.headerIssued k base len with
      intake := { (s.headerIssued k base len).intake with take := .atOwner, dump := none } } .dump .accepted
      (s.dumpBegun k o base len).values := by
  rw [State.startDump]
  generalize hs : s.issue .dump base _ = s1
  have issued : s.headerIssued k base len = s1 := hs
  rw [issued] at free ⊢
  exact settleDump_ends (d := s.dumpBegun k o base len) rfl nothing free

theorem dumpBegun_left : (s.dumpBegun k o base len).left = [] ↔
    min (s.dumpSet k).length ((len - 24) / dumpLength k) = 0 := by
  rw [State.dumpBegun, List.take_eq_nil_iff]
  exact or_iff_left_of_imp fun none => by simp [none]

end start

/-- Settles O45: the layouts by `dumpRecord_page` to `dumpRecord_unit`, the take by `settleDump_goes` and
`settleDump_ends`, a record by `dumpOne_goes` and `dumpOne_ends`. -/
theorem dumpWritesHeaderAndRecords : Obligations.DumpWritesHeaderAndRecords := by
  intro s
  refine ⟨fun taken => ?_, rfl, overlaps_iff, rfl, rfl, rfl, rfl, rfl, rfl, dumpHeader_eq s, dumpRecord_length s,
    fun i d h short => (dumpRecord_doc h short).trans (docFields_placed i short), fun i p => dumpRecord_page,
    fun i e => dumpRecord_entry, fun i e => dumpRecord_screen, fun i k => dumpRecord_desk, fun i u => dumpRecord_unit,
    fun i => ?_, fun d h left => congrArg Host.Outcome.next (dumpRecordWrite_none_left h left),
    fun h => congrArg Host.Outcome.next (dumpRecordWrite_rests h), fun d i rest h left idle room => ?_⟩
  · intro o base len
    refine ⟨fun h => next_of_taken taken (orderDump_unknown h), fun k h => ?_⟩
    intro good set fits s1 d
    have checks : good ↔ dumpOptionsOk k o = true ∧ s.dumpAreaOk base len = true ∧ 24 ≤ len := by
      rw [dumpOptionsOk_iff, dumpAreaOk_iff]
      simp only [good, and_assoc]
    refine ⟨fun bad => next_of_taken taken (orderDump_refused h (fun k => bad (checks.2 k))), fun ok more => ?_,
      fun ok none free => ?_⟩
    · exact next_of_taken taken ((orderDump_starts h (checks.1 ok)).trans
        (startDump_goes (more.imp_left (fun n e => n (dumpBegun_left.1 e)))))
    · exact next_of_taken taken ((orderDump_starts h (checks.1 ok)).trans
        (startDump_ends (dumpBegun_left.2 none) free))
  · refine ⟨fun h => ?_, fun h => ?_, fun h => ?_, fun h => ?_⟩
    all_goals exact dumpRecord_gone (by simp only [State.dumpRecord, h, goneRecord, zeroBytes]) (by simp [dumpLength])
  · intro s1 d1 goes
    have next := dumpRecordWrite_next h left idle room
    have steps {t : State} {n : Nat} (done : (s1.dumpClear d i).dumpPurge d i = (n, t))
        (path : t.stalled .dump = s1.stalled .dump) : goes t n :=
      ⟨fun more => congrArg Host.Outcome.next (next.trans (dumpOne_goes done (path ▸ more))),
        fun last free => congrArg Host.Outcome.next (next.trans (dumpOne_ends done last (path.trans free)))⟩
    refine ⟨fun keep purge => steps ?_ rfl, fun clear purge u hu => steps ?_ rfl,
      fun keep purge e he final => steps ?_ rfl⟩
    · rw [dumpClear_off keep]
      exact dumpPurge_stays purge
    · rw [dumpClear_unit clear hu]
      exact dumpPurge_stays (.inl purge)
    · rw [dumpClear_off keep]
      exact dumpPurge_final purge he final

end Sys2Proof.Machine
end

section
/-! SUPPORT. Bytes placed in a page, block by block (R3, R6). -/

namespace Sys2Proof.Machine

open Sys2Proof

section place
variable {s : State} {blk : Block} {p : Nat} {r : PageRec}

/-- The coded bytes of a page end in its last block, or fill it (R6). -/
def PageRec.Within (r : PageRec) : Prop := (r.blocks - 1) * 2048 ≤ r.coded ∧ r.coded ≤ r.blocks * 2048

/-- The place of a page's next byte in its last block. -/
def PageRec.tail (r : PageRec) : Nat := r.coded - (r.blocks - 1) * 2048

/-- Bytes stored behind a page's coded bytes, in its last block (R6). -/
def State.storeBytes (s : State) (blk : Block) (p : Nat) (r : PageRec) (bs : List Byte) : State :=
  (s.issue blk (s.store.base + r.last * 2048 + r.tail) bs).modPage p (fun y => { y with coded := y.coded + bs.length })

/-- A page with one more block, the head of the free list (R3). -/
def State.grown (s : State) (p : Nat) (r : PageRec) (k : Nat) (rest : List Nat) : State :=
  { s with store := { s.store with
    free := rest,
    links := if r.blocks = 0 then tdel s.store.links k else tset (tdel s.store.links k) r.last k,
    pages := tset s.store.pages p { r with
      first := if r.blocks = 0 then k else r.first, last := k, blocks := r.blocks + 1 } } }

/-- A page with a block more. -/
def PageRec.grow (r : PageRec) (k : Nat) : PageRec :=
  { r with first := if r.blocks = 0 then k else r.first, last := k, blocks := r.blocks + 1 }

theorem grown_page (s : State) (p : Nat) (r : PageRec) (k : Nat) (rest : List Nat) :
    (s.grown p r k rest).page p = some (r.grow k) := tget_tset _ _ _

theorem storeBytes_page (h : s.page p = some r) (bs : List Byte) :
    (s.storeBytes blk p r bs).page p = some { r with coded := r.coded + bs.length } := by
  rw [State.storeBytes, State.page_modPage, if_pos rfl]
  exact congrArg (Option.map _) h

theorem allocBlock_grown {k : Nat} {rest : List Nat} (h : s.page p = some r) (free : s.store.free = k :: rest) :
    s.allocBlock p = some (s.grown p r k rest) := by
  simp only [State.allocBlock, free, h]
  rfl

theorem allocBlock_empty (free : s.store.free = []) : s.allocBlock p = none := by
  simp only [State.allocBlock, free]

/-- How many of the bytes go into the last block. -/
def PageRec.chunk (r : PageRec) (bs : List Byte) : Nat := min (2048 - r.tail) bs.length

theorem placeBytes_step {b : Byte} {bs : List Byte} (h : s.page p = some r) (room : r.coded ≠ r.blocks * 2048)
    (fuel : Nat) : placeBytes (fuel + 1) blk p (b :: bs) s =
      placeBytes fuel blk p ((b :: bs).drop (r.chunk (b :: bs)))
        (s.storeBytes blk p r ((b :: bs).take (r.chunk (b :: bs)))) := by
  have size : ((b :: bs).take (r.chunk (b :: bs))).length = r.chunk (b :: bs) := by
    rw [List.length_take, PageRec.chunk]
    omega
  rw [placeBytes, State.storeBytes, size]
  simp only [h, if_neg (show ¬ r.coded = r.blocks * Config.blockBytes from room)]
  rfl

theorem placeBytes_stuck {b : Byte} {bs : List Byte} (h : s.page p = some r) (full : r.coded = r.blocks * 2048)
    (free : s.store.free = []) (fuel : Nat) : placeBytes (fuel + 1) blk p (b :: bs) s = (b :: bs, s) := by
  rw [placeBytes]
  simp only [h, if_pos (show r.coded = r.blocks * Config.blockBytes from full), allocBlock_empty free]

theorem placeBytes_grows {b k : _} {bs : List Byte} {rest : List Nat} (h : s.page p = some r)
    (full : r.coded = r.blocks * 2048) (free : s.store.free = k :: rest) (fuel : Nat) :
    placeBytes (fuel + 1) blk p (b :: bs) s = placeBytes (fuel + 1) blk p (b :: bs) (s.grown p r k rest) := by
  have page := grown_page s p r k rest
  have room : (r.grow k).coded ≠ (r.grow k).blocks * 2048 := by
    show r.coded ≠ (r.blocks + 1) * 2048
    omega
  rw [placeBytes, placeBytes]
  simp only [h, if_pos (show r.coded = r.blocks * Config.blockBytes from full), allocBlock_grown h free, page,
    if_neg (show ¬ (r.grow k).coded = (r.grow k).blocks * Config.blockBytes from room)]

/-- With room in the last block at least one byte goes into it. -/
theorem chunk_pos {b : Byte} {bs : List Byte} (w : r.Within) (room : r.coded ≠ r.blocks * 2048) :
    0 < r.chunk (b :: bs) := by
  obtain ⟨low, high⟩ := w
  simp only [PageRec.chunk, PageRec.tail, List.length_cons]
  omega

theorem within_chunk {bs : List Byte} (w : r.Within) (room : r.coded ≠ r.blocks * 2048) :
    PageRec.Within { r with coded := r.coded + (bs.take (r.chunk bs)).length } := by
  obtain ⟨low, high⟩ := w
  simp only [PageRec.Within, PageRec.chunk, PageRec.tail, List.length_take]
  omega

theorem within_grow {k : Nat} (full : r.coded = r.blocks * 2048) :
    (r.grow k).Within ∧ (r.grow k).coded ≠ (r.grow k).blocks * 2048 := by
  simp only [PageRec.Within, PageRec.grow]
  omega

/-- More fuel than bytes places no more. -/
theorem placeBytes_fuel (n : Nat) : ∀ {bs : List Byte} {s : State} {r : PageRec} {fuel : Nat}, bs.length = n →
    s.page p = some r → r.Within → n < fuel → placeBytes fuel blk p bs s = s.place blk p bs := by
  induction n using Nat.strong_induction_on with
  | _ n ih =>
    intro bs s r fuel size h w more
    obtain ⟨fuel, rfl⟩ : ∃ f, fuel = f + 1 := ⟨fuel - 1, by omega⟩
    cases bs with
    | nil => rfl
    | cons b bs =>
      have roomy {t : State} {x : PageRec} (ht : t.page p = some x) (hw : x.Within)
          (room : x.coded ≠ x.blocks * 2048) : placeBytes (fuel + 1) blk p (b :: bs) t = t.place blk p (b :: bs) := by
        have pos := chunk_pos (b := b) (bs := bs) hw room
        have left : ((b :: bs).drop (x.chunk (b :: bs))).length < n := by
          rw [List.length_drop, ← size, List.length_cons]
          omega
        have page := storeBytes_page (blk := blk) ht ((b :: bs).take (x.chunk (b :: bs)))
        rw [State.place, placeBytes_step ht room, placeBytes_step ht room,
          ih _ left rfl page (within_chunk hw room) (by omega), ih _ left rfl page (within_chunk hw room) (by omega)]
      by_cases full : r.coded = r.blocks * 2048
      · cases free : s.store.free with
        | nil => rw [State.place, placeBytes_stuck h full free, placeBytes_stuck h full free]
        | cons k rest =>
          obtain ⟨hw, room⟩ := within_grow (k := k) full
          have grows := roomy (grown_page s p r k rest) hw room
          rw [placeBytes_grows h full free, grows]
          exact (placeBytes_grows h full free _).symm
      · exact roomy h w full

theorem place_nil : s.place blk p [] = ([], s) := rfl

theorem place_step {b : Byte} {bs : List Byte} (h : s.page p = some r) (w : r.Within)
    (room : r.coded ≠ r.blocks * 2048) : s.place blk p (b :: bs) =
      (s.storeBytes blk p r ((b :: bs).take (r.chunk (b :: bs)))).place blk p ((b :: bs).drop (r.chunk (b :: bs))) := by
  have pos := chunk_pos (b := b) (bs := bs) w room
  rw [State.place, placeBytes_step h room]
  refine placeBytes_fuel _ rfl (storeBytes_page h _) (within_chunk w room) ?_
  rw [List.length_drop, List.length_cons]
  omega

theorem place_stuck {b : Byte} {bs : List Byte} (h : s.page p = some r) (full : r.coded = r.blocks * 2048)
    (free : s.store.free = []) : s.place blk p (b :: bs) = (b :: bs, s) :=
  placeBytes_stuck h full free _

theorem place_grows {b : Byte} {k : Nat} {bs : List Byte} {rest : List Nat} (h : s.page p = some r)
    (full : r.coded = r.blocks * 2048) (free : s.store.free = k :: rest) :
    s.place blk p (b :: bs) = (s.grown p r k rest).place blk p (b :: bs) :=
  placeBytes_grows h full free _

/-- Bytes that the last block holds are stored whole. -/
theorem place_within {bs : List Byte} (nonempty : bs ≠ []) (h : s.page p = some r) (w : r.Within)
    (fits : r.coded + bs.length ≤ r.blocks * 2048) : s.place blk p bs = ([], s.storeBytes blk p r bs) := by
  obtain ⟨b, t, rfl⟩ := List.exists_cons_of_ne_nil nonempty
  obtain ⟨low, high⟩ := w
  have all : r.chunk (b :: t) = (b :: t).length := by
    simp only [PageRec.chunk, PageRec.tail, List.length_cons] at fits ⊢
    omega
  have room : r.coded ≠ r.blocks * 2048 := by
    simp only [List.length_cons] at fits
    omega
  rw [place_step h ⟨low, high⟩ room, all, List.drop_length, List.take_length, place_nil]

end place

end Sys2Proof.Machine
end

section
/-! SUPPORT. The Page Coder's services: its choice, a line coded and placed, a seal, a continuation (R29 to R33). -/

namespace Sys2Proof.Machine

open Sys2Proof

/-! ## A source of the Page Coder -/

theorem source_modSource_same (s : State) (i : SourceId) (f : Source → Source) :
    (s.modSource i f).source i = f (s.source i) := by
  rcases i with _ | w
  · rfl
  · cases w <;> rfl

theorem modSource_modSource (s : State) (i : SourceId) (f g : Source → Source) :
    (s.modSource i f).modSource i g = s.modSource i (fun x => g (f x)) := by
  rcases i with _ | w
  · rfl
  · cases w <;> rfl

theorem modSource_congr {s : State} {i : SourceId} {f g : Source → Source} (h : f (s.source i) = g (s.source i)) :
    s.modSource i f = s.modSource i g := by
  rcases i with _ | w
  · exact congrArg (fun x => { s with coder := { s.coder with scan := x } }) h
  · exact congrArg (fun x => { s with coder := { s.coder with win := s.coder.win.set w x } }) h

theorem eligible_iff (x : Source) : x.eligible = true ↔
    x.wait = none ∧ ((x.page ≠ none ∧ (x.queue ≠ [] ∨ x.endSignal = true)) ∨ x.continuation = true) := by
  rw [Source.eligible, decide_eq_true_iff]

/-! ## The choice (R31) -/

section choice
variable {s : State}

theorem pickSource_scan (h : (s.source .scan).eligible = true) : s.pickSource = some .scan := if_pos h

theorem pickSource_marked (h : ¬ (s.source .scan).eligible = true)
    (k : (s.source (.win s.coder.marker)).eligible = true) : s.pickSource = some (.win s.coder.marker) :=
  (if_neg h).trans (if_pos k)

theorem otherWindow_iff {w v : WindowId} : otherWindow v = w ↔ w ≠ v := by
  cases w <;> cases v <;> decide

theorem pickSource_other (h : ¬ (s.source .scan).eligible = true)
    (k : ¬ (s.source (.win s.coder.marker)).eligible = true) {w : WindowId} (hw : w ≠ s.coder.marker) :
    s.pickSource = if (s.source (.win w)).eligible = true then some (.win w) else none := by
  have other : otherWindow s.coder.marker = w := otherWindow_iff.2 hw
  rw [← other]
  exact (if_neg h).trans (if_neg k)

end choice

/-! ## What a service's preparation leaves -/

section turned
variable (s : State) (i j : SourceId) (p n : Nat)

@[simp] theorem turnMarker_source : (s.turnMarker i).source j = s.source j := by
  rcases i with _ | w
  · rfl
  · rcases j with _ | v <;> rfl

@[simp] theorem turnMarker_page : (s.turnMarker i).page p = s.page p := by rcases i with _ | w <;> rfl

@[simp] theorem turnMarker_lineAt : (s.turnMarker i).lineAt j n = s.lineAt j n := by rcases i with _ | w <;> rfl

@[simp] theorem turnMarker_store : (s.turnMarker i).store = s.store := by rcases i with _ | w <;> rfl

theorem turnMarker_headFits : (s.turnMarker i).headFits j p n = s.headFits j p n := by rcases i with _ | w <;> rfl

@[simp] theorem markCoding_page : (s.markCoding i n).page p = s.page p := by rcases i with _ | w <;> rfl

@[simp] theorem markCoding_store : (s.markCoding i n).store = s.store := by rcases i with _ | w <;> rfl

@[simp] theorem markCoding_source : (s.markCoding i n).source j = s.source j := by rcases i with _ | w <;> rfl

end turned

/-! ## Bytes of a line, and of the END mark (R30, R32) -/

section bytes
variable {s t : State} {i : SourceId} {p n : Nat} {bs left : List Byte} {b : Byte} {ts : List Nat}

theorem placeLine_whole (h : s.place .pageCoder p bs = ([], t)) : s.placeLine i p n bs ts =
    ((t.modPage p (fun y => { y with lines := y.lines + 1 })).modSource i (fun y =>
      { y with ref := ts, held := none, queue := y.queue.tail })).freeLine i n := by
  simp only [State.placeLine, h]

theorem placeLine_rest (h : s.place .pageCoder p bs = (b :: left, t)) : s.placeLine i p n bs ts =
    t.modSource i (fun y => { y with held := some ⟨b :: left, some ts⟩, wait := some .block }) := by
  simp only [State.placeLine, h, State.sourceWaits, modSource_modSource]

theorem placeEnd_whole (h : s.place .pageCoder p bs = ([], t)) : s.placeEnd i p bs =
    (true, (t.sealPage p).modSource i (fun x => { x with page := none, held := none, ref := [] })) := by
  simp only [State.placeEnd, h]

theorem placeEnd_rest (h : s.place .pageCoder p bs = (b :: left, t)) : s.placeEnd i p bs =
    (false, t.modSource i (fun y => { y with held := some ⟨b :: left, none⟩, wait := some .block })) := by
  simp only [State.placeEnd, h, State.sourceWaits, modSource_modSource]

theorem sealAndContinue_whole (h : s.place .pageCoder p bs = ([], t)) : s.sealAndContinue i p n bs =
    ((((t.sealPage p).modSource i (fun y =>
      { y with page := none, held := none, ref := [], continuation := true })).ownerSealed i false).openContinuation i
        n) := by
  simp only [State.sealAndContinue, placeEnd_whole h, modSource_modSource]

theorem sealAndContinue_rest (h : s.place .pageCoder p bs = (b :: left, t)) : s.sealAndContinue i p n bs =
    t.modSource i (fun y => { y with held := some ⟨b :: left, none⟩, wait := some .block }) := by
  simp only [State.sealAndContinue, placeEnd_rest h]

end bytes

/-! ## A continuation (R33) -/

section continuation
variable {s : State} {i : SourceId} {n : Nat}

theorem openContinuation_full
    (h : s.openPage (s.source i).document (s.source i).width (s.source i).resolution = .refused .docFull) :
    s.openContinuation i n = (s.modSource i (fun y => { y with wait := some .documentFull })).ownerDocFull i := by
  simp only [State.openContinuation, State.beginSource, h, State.sourceWaits]

theorem openContinuation_noPage
    (h : s.openPage (s.source i).document (s.source i).width (s.source i).resolution = .refused .noPage) :
    s.openContinuation i n = s.modSource i (fun y => { y with wait := some .pageRecord }) := by
  simp only [State.openContinuation, State.beginSource, h, State.sourceWaits]

theorem openContinuation_noBlock
    (h : s.openPage (s.source i).document (s.source i).width (s.source i).resolution = .refused .noBlock
      ∨ s.openPage (s.source i).document (s.source i).width (s.source i).resolution = .refused .docBusy) :
    s.openContinuation i n = s.modSource i (fun y => { y with wait := some .block }) := by
  rcases h with h | h
  · simp only [State.openContinuation, State.beginSource, h, State.sourceWaits]
  · simp only [State.openContinuation, State.beginSource, h, State.sourceWaits]

theorem openContinuation_opened {p : Nat} {t : State}
    (h : s.openPage (s.source i).document (s.source i).width (s.source i).resolution = .opened p t) :
    s.openContinuation i n = ((t.modSource i (fun y => { y with
      page := some p, document := (s.source i).document, width := (s.source i).width,
      resolution := (s.source i).resolution, ref := [], continuation := false })).ownerPage i (some p)).codeHead i p
        n := by
  simp only [State.openContinuation, State.beginSource, h, modSource_modSource, source_modSource_same]

end continuation

/-! ## A service (R31 to R33) -/

section service
variable {s : State} {i : SourceId} {n p : Nat}

theorem serveLine_continues (none : (s.source i).page = none) (c : (s.source i).continuation = true) :
    s.serveLine i n = s.openContinuation i n := by
  simp only [State.serveLine, none, c, if_true]

theorem serveLine_codes (h : (s.source i).page = some p) (none : (s.source i).held = none)
    (fits : s.headFits i p n = true) : s.serveLine i n = s.codeHead i p n := by
  simp only [State.serveLine, h, none, fits, if_true]

theorem serveLine_goes_on {bs : List Byte} {ts : List Nat} (h : (s.source i).page = some p)
    (held : (s.source i).held = some ⟨bs, some ts⟩) : s.serveLine i n = s.placeLine i p n bs ts := by
  simp only [State.serveLine, h, held]

theorem serveLine_seals {bs : List Byte} (h : (s.source i).page = some p)
    (held : (s.source i).held = some ⟨bs, none⟩
      ∨ ((s.source i).held = none ∧ s.headFits i p n = false ∧ bs = endMark)) :
    s.serveLine i n = s.sealAndContinue i p n bs := by
  rcases held with held | ⟨held, full, rfl⟩
  · simp only [State.serveLine, h, held]
  · simp only [State.serveLine, h, held, full, Bool.false_eq_true, if_false]

theorem serveSeal_whole {t : State} (h : (s.source i).page = some p)
    (k : s.place .pageCoder p ((s.source i).held.elim endMark (fun h => h.bytes)) = ([], t)) :
    s.serveSeal i = ((t.sealPage p).modSource i (fun y =>
      { y with page := none, held := none, ref := [], endSignal := false })).ownerSealed i true := by
  cases held : (s.source i).held with
  | none =>
    have whole : s.place .pageCoder p endMark = ([], t) := by simpa only [held, Option.elim_none] using k
    simp only [State.serveSeal, h, held, placeEnd_whole whole, modSource_modSource]
  | some x =>
    have whole : s.place .pageCoder p x.bytes = ([], t) := by simpa only [held, Option.elim_some] using k
    simp only [State.serveSeal, h, held, placeEnd_whole whole, modSource_modSource]

theorem serveSeal_rest {t : State} {b : Byte} {left : List Byte} (h : (s.source i).page = some p)
    (k : s.place .pageCoder p ((s.source i).held.elim endMark (fun h => h.bytes)) = (b :: left, t)) :
    s.serveSeal i = t.modSource i (fun y => { y with held := some ⟨b :: left, none⟩, wait := some .block }) := by
  cases held : (s.source i).held with
  | none =>
    have rest : s.place .pageCoder p endMark = (b :: left, t) := by simpa only [held, Option.elim_none] using k
    simp only [State.serveSeal, h, held, placeEnd_rest rest]
  | some x =>
    have rest : s.place .pageCoder p x.bytes = (b :: left, t) := by simpa only [held, Option.elim_some] using k
    simp only [State.serveSeal, h, held, placeEnd_rest rest]

theorem coderReady_iff : s.coderReady = true ↔ s.part = .running ∧ s.stalled .pageCoder = false := by
  simp [State.coderReady]

theorem lineService_line {rest : List Nat} (ready : s.coderReady = true) (pick : s.pickSource = some i)
    (q : (s.source i).queue = n :: rest) : s.lineService = ((s.turnMarker i).serveLine i n).scanRetry := by
  simp only [State.lineService, ready, pick, q, Bool.not_true, Bool.false_eq_true, if_false]

theorem sealService_seal (ready : s.coderReady = true) (pick : s.pickSource = some i)
    (q : (s.source i).queue = []) : s.sealService = ((s.turnMarker i).serveSeal i).scanRetry := by
  simp only [State.sealService, ready, pick, q, Bool.not_true, Bool.false_eq_true, if_false]

theorem services_rest (h : s.pickSource = none ∨ s.coderReady = false) :
    s.lineService = s ∧ s.sealService = s := by
  rcases h with none | wait
  · simp only [State.lineService, State.sealService, none]
    exact ⟨ite_self s, ite_self s⟩
  · simp only [State.lineService, State.sealService, wait, Bool.not_false, if_true, and_self]

end service

/-- A coded line has a byte at least. -/
theorem codeFull_ne_nil (w : Nat) (ref ts : List Nat) : codeFull w ref ts ≠ [] := by
  unfold codeFull
  split
  · exact List.cons_ne_nil _ _
  · split <;> exact List.cons_ne_nil _ _

/-- Settles O48: bytes by `place_step` to `place_within`; a service by the cases of `serveLine` and `serveSeal`. -/
theorem coderStoresLinesAndSeals : Obligations.CoderStoresLinesAndSeals := by
  intro s
  refine ⟨?_, rfl, fun w v hv => ?_, fun n => ⟨fun ds held => ?_, rfl⟩, fun w n => ⟨rfl, rfl, rfl⟩, fun b => rfl, rfl,
    fun w => ⟨rfl, rfl, fun none => ?_, fun d some => ?_⟩, fun blk p => rfl, fun blk p r b bs h low high => ?_,
    fun i p n => ?_, fun i n => ?_, fun i run free pick => ?_, fun rest => ?_,
    fun i p r run free pick hp held hr low => ?_⟩
  case refine_1 =>
    intro m eligible
    have el (i : SourceId) : eligible i ↔ (s.source i).eligible = true := (eligible_iff _).symm
    simp only [el]
    refine ⟨pickSource_scan, pickSource_marked, fun h k w hw => ⟨fun e => ?_, fun e => ?_⟩⟩
    · exact (pickSource_other h k hw).trans (if_pos e)
    · exact (pickSource_other h k hw).trans (if_neg e)
  case refine_2 =>
    cases w <;> cases v
    · exact absurd rfl hv
    · rfl
    · rfl
    · exact absurd rfl hv
  case refine_3 =>
    have line : s.lineAt .scan n = ds := by simp only [State.lineAt, held]
    exact ⟨line, by simp only [State.markCoding, line]⟩
  case refine_4 => simp only [State.ownerSealed, State.windowSealed, none, Bool.not_true, Bool.false_eq_true, if_false]
  case refine_5 => simp only [State.ownerSealed, State.windowSealed, some, Bool.not_true, Bool.false_eq_true, if_false]
  case refine_6 =>
    refine ⟨fun room => ?_, fun full free => place_stuck h full free, fun k rest full free => place_grows h full free⟩
    have size : ((b :: bs).take (r.chunk (b :: bs))).length = r.chunk (b :: bs) := by
      rw [List.length_take, PageRec.chunk]
      omega
    rw [place_step h ⟨low, high⟩ room, State.storeBytes, size]
    rfl
  case refine_7 =>
    refine ⟨fun t => placeLine_whole, fun b left t => placeLine_rest, fun r hr => ?_⟩
    simp only [State.headFits, hr]
    exact decide_eq_true_iff
  case refine_8 =>
    refine ⟨openContinuation_full, openContinuation_noPage, openContinuation_noBlock, fun p t h => ?_⟩
    rw [openContinuation_opened h]
    cases i <;> rfl
  case refine_9 =>
    have ready := coderReady_iff.2 ⟨run, free⟩
    intro x s0 runs keeps sealed
    refine ⟨fun n rest q => ?_, fun p bs q hp hbs => ?_⟩
    · have line {t : State} (h : s0.serveLine i n = t) : runs t :=
        congrArg Host.Outcome.next ((lineService_line ready pick q).trans (congrArg State.scanRetry h))
      have source : s0.source i = x := turnMarker_source s i i
      refine ⟨fun none c => line (serveLine_continues (source ▸ none) (source ▸ c)), fun p hp => ?_⟩
      have page : (s0.source i).page = some p := source ▸ hp
      refine ⟨fun none fits => line (serveLine_codes page (source ▸ none) ?_), fun bs ts held => ?_, fun bs held => ?_⟩
      · exact (turnMarker_headFits s i i p n).trans fits
      · have goes := serveLine_goes_on (n := n) page (source ▸ held)
        exact ⟨fun t k => line (goes.trans (placeLine_whole k)), fun b left t k => line (goes.trans (placeLine_rest k))⟩
      · have seals := serveLine_seals (n := n) (bs := bs) page (by
          rw [source, turnMarker_headFits]
          exact held)
        refine ⟨fun t k => line (seals.trans ((sealAndContinue_whole k).trans ?_)),
          fun b left t k => line (seals.trans (sealAndContinue_rest k))⟩
        rfl
    · have service {t : State} (h : s0.serveSeal i = t) : exec .coderSealService s = .next t.scanRetry :=
        congrArg Host.Outcome.next ((sealService_seal ready pick q).trans (congrArg State.scanRetry h))
      have source : s0.source i = x := turnMarker_source s i i
      have page : (s0.source i).page = some p := source ▸ hp
      have bytes : (s0.source i).held.elim endMark (fun h => h.bytes) = bs := by
        rw [source]
        exact hbs.symm
      exact ⟨fun t k => service (serveSeal_whole page (bytes ▸ k)),
        fun b left t k => service (serveSeal_rest page (bytes ▸ k))⟩
  case refine_10 =>
    have quiet : s.pickSource = none ∨ s.coderReady = false := by
      refine rest.imp_right fun h => ?_
      rw [← Bool.not_eq_true, coderReady_iff]
      rintro ⟨run, free⟩
      exact h.elim (fun k => k run) (fun k => by simp [free] at k)
    exact ⟨congrArg Host.Outcome.next (services_rest quiet).1, congrArg Host.Outcome.next (services_rest quiet).2⟩
  case refine_11 =>
    have ready := coderReady_iff.2 ⟨run, free⟩
    intro x off s0 stored
    have source : s0.source i = x := turnMarker_source s i i
    have page : (s0.source i).page = some p := source ▸ hp
    have store {t : State} (bs : List Byte) (e : t.store = s.store) : t.storeBytes .pageCoder p r bs = stored t bs := by
      rw [State.storeBytes, e]
      rfl
    refine ⟨fun n rest q => ?_, fun q room fits => ?_, ?_⟩
    · intro ts bs s1 lines cap
      have fits : s0.headFits i p n = true := by
        rw [turnMarker_headFits]
        simp only [State.headFits, hr]
        exact decide_eq_true ⟨lines, cap⟩
      have marked : s1.page p = some r := (markCoding_page s0 i p n).trans ((turnMarker_page s i p).trans hr)
      have kept : s1.store = s.store := (markCoding_store s0 i n).trans (turnMarker_store s i)
      have codes : s.lineService = (s1.placeLine i p n bs ts).scanRetry := by
        rw [lineService_line ready pick q, serveLine_codes page (source ▸ held) fits, State.codeHead, source,
          State.headLine, turnMarker_lineAt]
      refine ⟨fun room whole => congrArg Host.Outcome.next (codes.trans (congrArg State.scanRetry ?_)),
        fun full free => congrArg Host.Outcome.next (codes.trans (congrArg State.scanRetry ?_))⟩
      · have placed := place_within (blk := .pageCoder) (codeFull_ne_nil _ _ ts) marked ⟨low, room.le⟩ whole
        rw [store bs kept] at placed
        rw [placeLine_whole placed]
        have queue : (s1.source i).queue.tail = rest := by
          rw [markCoding_source, source, q]
          rfl
        refine congrArg (fun t => State.freeLine t i n) (modSource_congr ?_)
        exact congrArg (fun r => { s1.source i with ref := ts, held := none, queue := r }) queue
      · obtain ⟨b, left, e⟩ := List.exists_cons_of_ne_nil (codeFull_ne_nil (widthDots x.width) x.ref ts)
        have stuck := place_stuck (blk := .pageCoder) (b := b) (bs := left) marked full (kept ▸ free)
        rw [show bs = b :: left from e]
        exact placeLine_rest stuck
    · have placed := place_within (s := s0) (blk := .pageCoder) (bs := endMark) (List.cons_ne_nil _ _)
        ((turnMarker_page s i p).trans hr) ⟨low, room.le⟩ fits
      rw [store endMark (turnMarker_store s i)] at placed
      refine congrArg Host.Outcome.next ((sealService_seal ready pick q).trans (congrArg State.scanRetry ?_))
      exact serveSeal_whole page (by rw [source, held]; exact placed)
    · simp only [State.finishSeal, hr]
      rfl

end Sys2Proof.Machine
end

section
/-! SUPPORT. The Scanner Port: its flags, its lines and sheets, its levels, and the end of a session (Chapter 5). -/

namespace Sys2Proof.Machine

open Sys2Proof

/-! ## Flags -/

theorem active_iff (c : Scanner) : c.active = true ↔ c.state = .feeding ∨ c.state = .scanning ∨ c.state = .paused := by
  unfold Scanner.active
  cases c.state <;> simp

theorem feedPause_iff (c : Scanner) : c.feedPause = true ↔
    c.active = false ∨ c.fullPause = true ∨ c.hold = true ∨ c.ackPending = true := by
  simp only [Scanner.feedPause, Bool.or_eq_true, Bool.not_eq_true', or_assoc]

theorem scanOpen_iff (s : State) : s.scanOpen = true ↔ s.part = .running ∧ s.intake.restart = none
    ∧ (s.scanner.state = .feeding ∨ s.scanner.state = .scanning ∨ s.scanner.state = .paused) := by
  simp only [State.scanOpen, State.restarting, Bool.and_eq_true, decide_eq_true_iff, Bool.not_eq_true',
    Option.isSome_eq_false_iff, Option.isNone_iff_eq_none, active_iff, and_assoc]

theorem stallRunning_iff (s : State) : s.stallRunning = true ↔
    (s.scanner.state = .feeding ∨ s.scanner.state = .scanning ∨ s.scanner.state = .paused)
    ∧ (s.scanner.fullPause = true ∨ s.scanner.hold = true)
    ∧ (s.scanner.beginPending = true ∨ s.coder.scan.wait = some .block ∨ s.coder.scan.wait = some .pageRecord) := by
  simp only [State.stallRunning, Bool.and_eq_true, Bool.or_eq_true, decide_eq_true_iff, active_iff, and_assoc, or_assoc]

theorem emptyLines_eq (c : Scanner) : c.emptyLines = c.buffer.countP (fun b => b = .empty) :=
  List.countP_eq_length_filter.symm

/-! ## The next empty buffer line in turn (R84) -/

/-- How far behind the line in turn a buffer line stands. -/
def Scanner.turnOf (c : Scanner) (k : Nat) : Nat := (k + 4 - c.nextIn) % 4

theorem turns (c : Scanner) (h : c.nextIn < 4) :
    ([0, 1, 2, 3].map (fun k => (c.nextIn + k) % 4)).Pairwise (fun x y => c.turnOf x < c.turnOf y)
    ∧ ∀ k, k ∈ [0, 1, 2, 3].map (fun k => (c.nextIn + k) % 4) ↔ k < 4 := by
  unfold Scanner.turnOf
  generalize c.nextIn = n at h
  interval_cases n <;> exact ⟨by decide, fun k => by simp; omega⟩

/-- What is found in a list that stands in order is the first of those that pass. -/
theorem least_of_find? {α : Type} (place : α → Nat) (p : α → Bool) {a : α} :
    ∀ {l : List α}, l.Pairwise (fun x y => place x < place y) → l.find? p = some a →
      ∀ b ∈ l, p b = true → place a ≤ place b
  | x :: t, hs, found, b, hb, pass => by
    obtain ⟨first, rest⟩ := List.pairwise_cons.1 hs
    by_cases hx : p x = true
    · obtain rfl : x = a := Option.some.inj ((List.find?_cons_of_pos hx).symm.trans found)
      rcases List.mem_cons.1 hb with rfl | hb
      · exact Nat.le_refl _
      · exact (first b hb).le
    · rw [List.find?_cons_of_neg hx] at found
      rcases List.mem_cons.1 hb with rfl | hb
      · exact absurd pass hx
      · exact least_of_find? place p rest found b hb pass

theorem nextEmpty_iff (c : Scanner) (h : c.nextIn < 4) :
    (c.nextEmpty = none ↔ ∀ k, ¬ (k < 4 ∧ c.buffer[k]? = some .empty))
    ∧ ∀ n, c.nextEmpty = some n ↔ (n < 4 ∧ c.buffer[n]? = some .empty)
      ∧ ∀ k, (k < 4 ∧ c.buffer[k]? = some .empty) → c.turnOf n ≤ c.turnOf k := by
  obtain ⟨order, mem⟩ := turns c h
  refine ⟨?_, fun n => ⟨fun found => ⟨⟨?_, ?_⟩, fun k empty => ?_⟩, fun ⟨empty, least⟩ => ?_⟩⟩
  · rw [Scanner.nextEmpty, List.find?_eq_none]
    simp only [mem, decide_eq_true_iff, not_and]
  · exact (mem n).1 (List.mem_of_find?_eq_some found)
  · exact of_decide_eq_true (List.find?_some (p := fun k => decide (c.buffer[k]? = some BufLine.empty)) found)
  · exact least_of_find? c.turnOf _ order found k ((mem k).2 empty.1) (decide_eq_true empty.2)
  · exact find?_of_least c.turnOf _ n _ order ((mem n).2 empty.1) (decide_eq_true empty.2)
      fun k hk pass => least k ⟨(mem k).1 hk, of_decide_eq_true pass⟩

/-! ## The pause of a full buffer (R85) -/

section pause
variable {c : Scanner}

theorem pauseIfFull_stays (h : c.active = false ∨ c.emptyLines ≠ 0) : c.pauseIfFull = c := by
  refine if_neg ?_
  rintro ⟨active, full⟩
  exact h.elim (fun k => by simp [active] at k) (fun k => k full)

theorem pauseIfFull_pauses (h : c.active = true) (full : c.emptyLines = 0) : c.pauseIfFull = { c with
    fullPause := true, before := if c.state = .paused then c.before else c.state, state := .paused } :=
  if_pos ⟨h, full⟩

end pause

/-! ## The end of a session (R90) -/

section finish
variable {s : State} {t : ScanState} {r : ScanReason} {b : Bool}

theorem endScan_none (h : s.scanner.document = none) : s.endScan t r b =
    (State.postScanState { s.abandonSource .scan with scanner := s.scanner.close t } s.scanner t r) := by
  simp only [State.endScan, h]

theorem endScan_some {d : Nat} (h : s.scanner.document = some d) : s.endScan t r b =
    (State.closeDocument { s.abandonSource .scan with scanner := s.scanner.close t } d b).postScanState s.scanner t
      r := by
  simp only [State.endScan, h]

end finish

/-! ## A sheet's begin (R88) -/

section sheet
variable {s : State} {d : Nat}

theorem scanRetry_asks (h : s.scanner.active = true) (k : s.scanner.beginPending = true) :
    s.scanRetry = s.beginSheetPage :=
  if_pos (by simp [h, k])

theorem scanRetry_quiet (h : s.scanner.active = false ∨ s.scanner.beginPending = false) : s.scanRetry = s :=
  if_neg (by rcases h with e | e <;> simp [e])

theorem beginSheetPage_none (h : s.scanner.document = none) : s.beginSheetPage = s := by
  simp only [State.beginSheetPage, h]

theorem beginSheetPage_opened {p : Nat} {t : State} (h : s.scanner.document = some d)
    (o : s.openPage d s.scanner.width s.scanner.resolution = .opened p t) : s.beginSheetPage = { t with
      coder := { t.coder with scan := { t.coder.scan with
        page := some p, document := d, width := s.scanner.width, resolution := s.scanner.resolution, ref := [],
        endSignal := s.scanner.endPending || t.coder.scan.endSignal } },
      scanner := { t.scanner with beginPending := false, endPending := false } } := by
  cases e : s.scanner.endPending <;> simp only [State.beginSheetPage, State.beginSource, h, o, e] <;> rfl

theorem beginSheetPage_full (h : s.scanner.document = some d)
    (o : s.openPage d s.scanner.width s.scanner.resolution = .refused .docFull) :
    s.beginSheetPage = s.endScan .idle .docFull true := by
  simp only [State.beginSheetPage, State.beginSource, h, o]

theorem beginSheetPage_waits {r : OpenRefusal} (h : s.scanner.document = some d) (other : r ≠ .docFull)
    (o : s.openPage d s.scanner.width s.scanner.resolution = .refused r) :
    s.beginSheetPage = { s with scanner := { s.scanner with beginPending := true } } := by
  cases r with
  | docFull => exact absurd rfl other
  | _ => simp only [State.beginSheetPage, State.beginSource, h, o]

end sheet

/-! ## Messages and levels -/

section messages
variable {s : State} {ds : List Bool}

theorem scanSealed_last (h : s.scanner.lastSheet = true ∨ s.scanner.sheetPresent = false) :
    s.scanSealed true = State.endScan { s with scanner := { s.scanner with
      pagesSealed := s.scanner.pagesSealed + 1, hold := false } } .idle .done false :=
  if_pos (by simpa using h)

theorem scanSealed_more (h : s.scanner.lastSheet = false) (k : s.scanner.sheetPresent = true) :
    s.scanSealed true = { s with scanner := { s.scanner with
      pagesSealed := s.scanner.pagesSealed + 1, hold := false } } :=
  if_neg (by simp [h, k])

theorem freeBufferLine_stays {n : Nat} (h : s.scanner.fullPause = false
    ∨ (s.scanner.buffer.set n .empty).countP (fun b => b = .empty) < 2) :
    s.freeBufferLine n = { s with scanner := { s.scanner with buffer := s.scanner.buffer.set n .empty } } := by
  refine congrArg (fun c => { s with scanner := c }) (if_neg ?_)
  rw [emptyLines_eq]
  rintro ⟨pause, two⟩
  exact h.elim (fun k => by simp [k] at pause) (fun k => Nat.not_le_of_lt k two)

theorem freeBufferLine_releases {n : Nat} (h : s.scanner.fullPause = true)
    (two : 2 ≤ (s.scanner.buffer.set n .empty).countP (fun b => b = .empty)) :
    s.freeBufferLine n = { s with scanner := { s.scanner with
      buffer := s.scanner.buffer.set n .empty, fullPause := false,
      state := if s.scanner.state = .paused then s.scanner.before else s.scanner.state } } := by
  refine congrArg (fun c => { s with scanner := c }) (if_pos ?_)
  rw [emptyLines_eq]
  exact ⟨h, two⟩

theorem takeScanLine_closed (h : s.scanOpen = false) : s.takeScanLine ds = s :=
  if_pos (by rw [h]; rfl)

theorem takeSheetEnd_closed (h : s.scanOpen = false) : s.takeSheetEnd = s :=
  if_pos (by rw [h]; rfl)

theorem takeScanLine_overrun (h : s.scanOpen = true) (k : s.scanner.hold = true ∨ s.scanner.nextEmpty = none) :
    s.takeScanLine ds = s.scanOverrun := by
  unfold State.takeScanLine
  simp only [h, Bool.not_true, Bool.false_eq_true, if_false]
  rcases k with hold | none
  · exact if_pos hold
  · simp only [none, ite_self]

theorem takeScanLine_takes {n : Nat} (h : s.scanOpen = true) (k : s.scanner.hold = false)
    (e : s.scanner.nextEmpty = some n) : s.takeScanLine ds =
      { (s.storeLine n ds).startSheetIfFeeding with
        scanner := (s.storeLine n ds).startSheetIfFeeding.scanner.pauseIfFull } := by
  simp only [State.takeScanLine, h, k, e, Bool.not_true, Bool.false_eq_true, if_false]

theorem takeSheetEnd_held (h : s.scanner.hold = true) : s.takeSheetEnd = s :=
  if_pos (by simp [h])

theorem takeSheetEnd_empty (h : s.scanOpen = true) (k : s.scanner.hold = false) (f : s.scanner.state = .feeding) :
    s.takeSheetEnd =
      let t : State := { s with scanner := { s.scanner with sheetsBegun := satAdd 65535 s.scanner.sheetsBegun 1 } }
      if s.scanner.sheetPresent then t else t.endScan .idle .done false := by
  simp only [State.takeSheetEnd, h, k, f, Bool.not_true, Bool.or_false, Bool.false_eq_true, if_false, if_true]

theorem takeSheetEnd_ends (h : s.scanOpen = true) (k : s.scanner.hold = false) (f : s.scanner.state ≠ .feeding) :
    s.takeSheetEnd =
      let t : State := { s with scanner := { s.scanner with
        lastSheet := !s.scanner.sheetPresent, state := .feeding, before := .feeding, hold := true,
        endPending := s.scanner.beginPending } }
      if s.scanner.beginPending then t else t.modSource .scan (fun x => { x with endSignal := true }) := by
  simp only [State.takeSheetEnd, h, k, Bool.not_true, Bool.or_false, Bool.false_eq_true, if_false]
  exact if_neg f

end messages

section levels
variable {s : State}

theorem sheetPresentChange_low (h : s.scanner.sheetPresent = true) : s.sheetPresentChange false =
    let t : State := { s with scanner := { s.scanner with sheetPresent := false } }
    if s.scanner.state = .feeding then (if s.scanner.hold then t else t.endScan .idle .done false)
    else if s.scanner.state = .jammed then t.clearJammed
    else t := by
  unfold State.sheetPresentChange
  simp only [h, Bool.false_eq_true, Bool.true_eq_false, or_self, if_false]
  cases s.scanner.state <;> rfl

theorem jamChange_before (h : s.part ≠ .running) (b : Bool) :
    s.jamChange b = { s with scanner := { s.scanner with jam := b } } :=
  if_pos (.inl h)

theorem jamChange_rises (h : s.part = .running) (k : s.scanner.jam = false) (a : s.scanner.active = true) :
    s.jamChange true = State.endScan { s with scanner := { s.scanner with jam := true } } .jammed .jammed true := by
  unfold State.jamChange
  simp only [h, k, ne_eq, not_true_eq_false, Bool.true_eq_false, or_self, if_false, if_true]
  rcases (active_iff _).1 a with e | e | e <;> simp only [e]

theorem jamChange_idle (h : s.part = .running) (k : s.scanner.jam = false) (a : s.scanner.state = .idle) :
    s.jamChange true = State.post { s with scanner := Scanner.close { s.scanner with jam := true } .jammed }
      .scannerPort (.scanState .jammed .jammed none 0 0 0 0 0) := by
  unfold State.jamChange
  simp only [h, k, a, ne_eq, not_true_eq_false, Bool.true_eq_false, or_self, if_false, if_true]

theorem jamChange_falls (h : s.part = .running) (k : s.scanner.jam = true) (a : s.scanner.state = .jammed) :
    s.jamChange false =
      let t : State := { s with scanner := { s.scanner with jam := false } }
      if s.scanner.sheetPresent = false then t.clearJammed else t := by
  unfold State.jamChange
  simp only [h, k, a, ne_eq, not_true_eq_false, Bool.false_eq_true, or_self, if_false, true_and]

end levels

/-- Settles O49: the messages by `takeScanLine_takes` and `takeSheetEnd_ends`, a begin by `beginSheetPage_opened`, the
levels by `sheetPresentChange_low` and `jamChange_rises`. -/
theorem scannerPortFollowsItsSession : Obligations.ScannerPortFollowsItsSession := by
  intro s c put
  refine ⟨scanOpen_iff s, stallRunning_iff s, active_iff c, feedPause_iff c, emptyLines_eq c, nextEmpty_iff c,
    pauseIfFull_stays, pauseIfFull_pauses, rfl, fun st r b => ⟨fun none => ?_, fun d some => ?_⟩, scanRetry_asks,
    scanRetry_quiet, beginSheetPage_none,
    fun d h => ⟨fun p t => beginSheetPage_opened h, beginSheetPage_full h, fun r => beginSheetPage_waits h⟩,
    ⟨rfl, scanSealed_last, scanSealed_more⟩, fun n => ⟨freeBufferLine_stays, freeBufferLine_releases⟩,
    fun closed ds => ⟨?_, ?_⟩, fun opened ds => ⟨fun full => ?_, fun n hold e => ?_⟩, fun _ hold => ?_,
    fun opened hold feeding => ?_, fun opened hold other => ?_, fun a => congrArg Host.Outcome.next (if_pos a),
    fun a => congrArg Host.Outcome.next (if_neg (by simp [c, a])), fun run => congrArg Host.Outcome.next (if_pos run),
    fun run => congrArg Host.Outcome.next (if_neg (by simp [run])), rfl, fun present => ?_,
    fun before b => congrArg Host.Outcome.next (jamChange_before before b), fun run jam => ⟨?_, ?_⟩,
    fun run jam jammed => ?_⟩
  case refine_1 => exact endScan_none none
  case refine_2 => exact endScan_some some
  case refine_3 => exact congrArg (fun t => Host.Outcome.next (State.scanRetry t)) (takeScanLine_closed closed)
  case refine_4 => exact congrArg Host.Outcome.next (takeSheetEnd_closed closed)
  case refine_5 => exact congrArg (fun t => Host.Outcome.next (State.scanRetry t)) (takeScanLine_overrun opened full)
  case refine_6 =>
    have takes := takeScanLine_takes (ds := ds) opened hold e
    intro w c1 c2 queued
    refine ⟨fun other => congrArg (fun t => Host.Outcome.next (State.scanRetry t)) (takes.trans ?_),
      fun feeding => congrArg (fun t => Host.Outcome.next (State.scanRetry t)) (takes.trans ?_)⟩
    · have stays : (s.storeLine n ds).startSheetIfFeeding = s.storeLine n ds := if_neg other
      have active : c1.active = true := (active_iff _).2 ((scanOpen_iff s).1 opened).2.2
      have pause : c1.pauseIfFull = c2 := by
        by_cases full : c1.emptyLines = 0
        · rw [pauseIfFull_pauses active full]
          exact (if_pos full).symm
        · rw [pauseIfFull_stays (.inr full)]
          exact (if_neg full).symm
      rw [stays, ← pause]
      rfl
    · have starts : (s.storeLine n ds).startSheetIfFeeding =
          (queued { c1 with state := .scanning, sheetsBegun := min 65535 (c.sheetsBegun + 1) }).beginSheetPage :=
        if_pos feeding
      rw [starts]
  case refine_7 => exact congrArg Host.Outcome.next (takeSheetEnd_held hold)
  case refine_8 => exact congrArg Host.Outcome.next (takeSheetEnd_empty opened hold feeding)
  case refine_9 => exact congrArg Host.Outcome.next (takeSheetEnd_ends opened hold other)
  case refine_10 =>
    have low := sheetPresentChange_low present
    refine ⟨fun feeding hold => ?_, fun jammed => ?_, fun stays other => ?_⟩
    · refine congrArg Host.Outcome.next (low.trans ((if_pos feeding).trans (if_neg ?_)))
      rw [hold]
      exact Bool.false_ne_true
    · refine congrArg Host.Outcome.next (low.trans ((if_neg ?_).trans (if_pos jammed)))
      rw [jammed]
      exact ScanState.noConfusion
    · refine congrArg Host.Outcome.next (low.trans ?_)
      by_cases feeding : s.scanner.state = .feeding
      · exact (if_pos feeding).trans (if_pos (stays.resolve_left (fun k => k feeding)))
      · exact (if_neg feeding).trans (if_neg other)
  case refine_11 => exact fun a => congrArg Host.Outcome.next (jamChange_rises run jam a)
  case refine_12 => exact fun a => congrArg Host.Outcome.next (jamChange_idle run jam a)
  case refine_13 =>
    have falls := jamChange_falls run jam jammed
    refine ⟨fun none => congrArg Host.Outcome.next (falls.trans (if_pos none)),
      fun some => congrArg Host.Outcome.next (falls.trans (if_neg ?_))⟩
    rw [some]
    exact Bool.noConfusion

end Sys2Proof.Machine
end

section
/-! SUPPORT. The transmit side of a unit: lines merged and fitted, the recoder's output, the link (R35 to R39). -/

namespace Sys2Proof.Machine

open Sys2Proof

/-! ## One unit replaced -/

/-- The part with one unit's record replaced. -/
def State.withUnit (s : State) (u : UnitId) (x : LineUnit) : State := { s with units := s.units.set u x }

section unit
variable (s : State) (u : UnitId) (x y : LineUnit) (f : LineUnit → LineUnit)

@[simp] theorem withUnit_unit : (s.withUnit u x).unit u = x := by cases u <;> rfl

@[simp] theorem withUnit_withUnit : (s.withUnit u x).withUnit u y = s.withUnit u y := by cases u <;> rfl

@[simp] theorem withUnit_same : s.withUnit u (s.unit u) = s := by cases u <;> rfl

theorem modUnit_withUnit : s.modUnit u f = s.withUnit u (f (s.unit u)) := rfl

@[simp] theorem withUnit_modUnit : (s.withUnit u x).modUnit u f = s.withUnit u (f x) := by cases u <;> rfl

theorem sendLink_withUnit (m : LinkMsg) :
    s.sendLink u m = s.withUnit u { s.unit u with out := (s.unit u).out ++ [m] } := rfl

@[simp] theorem withUnit_sendLink (m : LinkMsg) :
    (s.withUnit u x).sendLink u m = s.withUnit u { x with out := x.out ++ [m] } := by cases u <;> rfl

end unit

/-! ## Rows of dots (R36) -/

theorem dotsFrom_length (n i : Nat) (c : Bool) (ts : List Nat) : (dotsFrom n i c ts).length = n := by
  induction n generalizing i c ts with
  | zero => rfl
  | succ n ih =>
    cases ts with
    | nil => simp only [dotsFrom, List.length_cons, ih]
    | cons t ts =>
      unfold dotsFrom
      split
      · rw [List.length_cons, ih]
      · rw [List.length_cons, ih]

@[simp] theorem lineDots_length (w : Nat) (ts : List Nat) : (lineDots w ts).length = w := dotsFrom_length w 0 false ts

theorem lineDots_of_row {w : Nat} {row : List Bool} (h : row.length = w) :
    lineDots w (transitions row) = row ∧ transitions (lineDots w (transitions row)) = transitions row := by
  subst h
  exact ⟨lineDots_transitions row, transitions_lineDots (risingFrom_transitions row)⟩

theorem mergeLines_dots (w : Nat) (a b : List Nat) :
    lineDots w (mergeLines w a b) = List.zipWith (fun x y => x || y) (lineDots w a) (lineDots w b)
      ∧ transitions (lineDots w (mergeLines w a b)) = mergeLines w a b :=
  lineDots_of_row (by simp)

theorem cropPad_length {wp wo : Nat} {row : List Bool} (h : row.length = wp) : (cropPad wp wo row).length = wo := by
  unfold cropPad
  split
  · simp only [List.length_take, List.length_drop]
    omega
  · simp only [List.length_append, List.length_replicate, ceilDiv]
    omega

/-- Half of what is cropped or padded stands on each side (R36). -/
theorem cropPad_get {wp wo i : Nat} {row : List Bool} (h : row.length = wp) (hi : i < wo) :
    (cropPad wp wo row)[i]? = some (if wo < wp then row.getD (i + (wp - wo) / 2) false
      else if (wo - wp) / 2 ≤ i then row.getD (i - (wo - wp) / 2) false else false) := by
  have inside (k : Nat) (hk : k < row.length) : row[k]? = some (row.getD k false) := by
    rw [List.getD_eq_getElem?_getD, List.getElem?_eq_getElem hk, Option.getD_some]
  unfold cropPad
  split
  case isTrue crop =>
    rw [List.getElem?_take_of_lt hi, List.getElem?_drop, Nat.add_comm, inside _ (by omega)]
  case isFalse pad =>
    by_cases left : (wo - wp) / 2 ≤ i
    · rw [if_pos left, List.append_assoc, List.getElem?_append_right (by simpa using left), List.length_replicate]
      by_cases row_here : i - (wo - wp) / 2 < row.length
      · rw [List.getElem?_append_left row_here, inside _ row_here]
      · rw [List.getElem?_append_right (by omega), List.getD_eq_default _ _ (by omega), List.getElem?_replicate,
          if_pos (by simp only [ceilDiv]; omega)]
    · rw [if_neg left, List.append_assoc, List.getElem?_append_left (by simp; omega), List.getElem?_replicate,
        if_pos (by omega)]

theorem fitLine_dots (c o : Width) (ts : List Nat) (h : c ≠ o) :
    lineDots (widthDots o) (fitLine c o ts) = cropPad (widthDots c) (widthDots o) (lineDots (widthDots c) ts)
      ∧ transitions (lineDots (widthDots o) (fitLine c o ts)) = fitLine c o ts := by
  rw [fitLine, if_neg h]
  exact lineDots_of_row (cropPad_length (lineDots_length _ _))

/-! ## A line from the page (R35, R36) -/

section line
variable {s : State} {x : TxRecoder}

/-- The recoder after one stored line of `n` bytes (R35). -/
def TxRecoder.took (x : TxRecoder) (ts : List Nat) (n : Nat) : TxRecoder :=
  { x with storedRef := ts, offset := x.offset + n, linesLeft := x.linesLeft - 1 }

theorem txDecode_none (h : x.linesLeft = 0) : s.txDecode x = none := if_pos h

theorem txDecode_good {p n : Nat} {r : PageRec} {ts : List Nat} (hp : x.page = some p) (hr : s.page p = some r)
    (more : x.linesLeft ≠ 0) (good : takeLine (widthDots x.width) x.storedRef (s.streamFrom r x.offset) = .good ts n) :
    s.txDecode x = some (ts, x.took ts n) := by
  simp only [State.txDecode, if_neg more, hp, Option.bind_some, hr, good, TxRecoder.took]

theorem txDecode_keeps {y : TxRecoder} {ts : List Nat} (h : s.txDecode x = some (ts, y)) :
    y.out = x.out ∧ y.width = x.width := by
  unfold State.txDecode at h
  split at h
  · cases h
  · split at h
    · cases h
    · split at h
      · cases h
        exact ⟨rfl, rfl⟩
      · cases h

theorem txLine_none (h : x.linesLeft = 0) : s.txLine x = none := by
  simp only [State.txLine, txDecode_none h]

theorem txLine_one {y : TxRecoder} {ts : List Nat} (h : s.txDecode x = some (ts, y))
    (single : x.reduces = false ∨ s.txDecode y = none) : s.txLine x = some (ts, y) := by
  simp only [State.txLine, h]
  rcases single with e | e
  · simp only [e, Bool.false_eq_true, if_false]
  · simp only [e, ite_self]

theorem txLine_two {y z : TxRecoder} {a b : List Nat} (h : s.txDecode x = some (a, y)) (r : x.reduces = true)
    (k : s.txDecode y = some (b, z)) : s.txLine x = some (mergeLines (widthDots x.width) a b, z) := by
  simp only [State.txLine, h, r, k, if_true]

/-- What is still to be placed is not touched by reading a line. -/
theorem txLine_out {y : TxRecoder} {ts : List Nat} (h : s.txLine x = some (ts, y)) : y.out = x.out := by
  unfold State.txLine at h
  split at h
  · cases h
  · next a t1 first =>
    have out := (txDecode_keeps first).1
    split at h
    · split at h
      · next b t2 second =>
        cases h
        exact (txDecode_keeps second).1.trans out
      · cases h
        exact out
    · cases h
      exact out

theorem reduces_iff (x : TxRecoder) : x.reduces = true ↔ x.resolution = .fine ∧ x.order.resolution = .normal :=
  decide_eq_true_iff

/-- With no write pending no read is held (R61). -/
theorem txHeld_empty (h : s.path.queue = []) (k : s.path.waiting = []) (t : TxRecoder) : s.txHeld t = false := by
  have open_ (a n : Nat) : s.path.blocked a n = false := by simp [MemPath.blocked, MemPath.pendingWrites, h, k]
  have decode (x : TxRecoder) : s.decodeHeld x = false := by
    unfold State.decodeHeld State.lineHeld State.streamHeld
    simp only [open_]
    split
    · split
      · exact Bool.and_false _
      · split <;> simp
    · rfl
  unfold State.txHeld
  simp only [decode]
  split <;> simp

end line

/-! ## The recoder's output (R37, R38) -/

section recode
variable {s : State} {u : UnitId}

theorem transmitRecode_rests (h : (s.unit u).tx.page = none ∨ 1024 ≤ (s.unit u).txFifo.length
    ∨ s.txHeld (s.unit u).tx = true) : s.transmitRecode u = s :=
  if_pos h

theorem transmitRecode_pumps (page : (s.unit u).tx.page ≠ none) (room : (s.unit u).txFifo.length < 1024)
    (free : s.txHeld (s.unit u).tx = false) : s.transmitRecode u =
      s.withUnit u (LineUnit.pump { s.unit u with
        tx := if (s.unit u).tx.out = [] ∧ (s.unit u).tx.fill = 0 then s.txNext (s.unit u).tx else (s.unit u).tx }) := by
  unfold State.transmitRecode
  refine if_neg ?_
  rintro (e | e | e)
  · exact page e
  · exact Nat.not_le_of_lt room e
  · simp [free] at e

theorem pump_eq (l : LineUnit) : l.pump =
    let room := 1024 - l.txFifo.length
    let k := min (room - l.tx.out.length) l.tx.fill
    { l with
      txFifo := l.txFifo ++ l.tx.out.take room ++ List.replicate k 0x00,
      tx := { l.tx with out := l.tx.out.drop room, fill := l.tx.fill - k },
      stats := { l.stats with fillBytes := min 4294967295 (l.stats.fillBytes + k) } } := by
  have k : min (1024 - l.txFifo.length - min (1024 - l.txFifo.length) l.tx.out.length) l.tx.fill =
      min (1024 - l.txFifo.length - l.tx.out.length) l.tx.fill := by omega
  have take : l.tx.out.take (min (1024 - l.txFifo.length) l.tx.out.length) = l.tx.out.take (1024 - l.txFifo.length) :=
    by
    rw [← List.take_take, List.take_length]
  have drop : l.tx.out.drop (min (1024 - l.txFifo.length) l.tx.out.length) = l.tx.out.drop (1024 - l.txFifo.length) :=
    by
    rcases Nat.le_total (1024 - l.txFifo.length) l.tx.out.length with h | h
    · rw [Nat.min_eq_left h]
    · rw [Nat.min_eq_right h, List.drop_length, List.drop_eq_nil_of_le h]
  simp only [LineUnit.pump, Config.fifoBytes, k, take, drop]
  rfl

theorem txNext_line {t t1 : TxRecoder} {ts : List Nat} (h : t.ended = false) (k : s.txLine t = some (ts, t1)) :
    s.txNext t = t1.emit ts := by
  simp only [State.txNext, h, k, Bool.false_eq_true, if_false]

theorem txNext_end {t : TxRecoder} (h : t.ended = false) (k : s.txLine t = none) :
    s.txNext t = { t with out := t.out ++ endMark, ended := true } := by
  simp only [State.txNext, h, k, Bool.false_eq_true, if_false]

theorem txNext_ended {t : TxRecoder} (h : t.ended = true) : s.txNext t = t := if_pos h

end recode

/-! ## The link (R39) -/

section link
variable {s : State} {u : UnitId} {n : Nat}

/-- A unit after a SEND DATA message of `k` bytes. -/
def LineUnit.sent (l : LineUnit) (k : Nat) (m : LinkMsg) : LineUnit :=
  { l with
    out := l.out ++ [m], attemptBytes := min 4294967295 (l.attemptBytes + k),
    stats := { l.stats with bytesSent := min 4294967295 (l.stats.bytesSent + k) } }

theorem sendData_eq (bs : List Byte) :
    s.sendData u bs = s.withUnit u ((s.unit u).sent bs.length (.sendData bs)) := by
  rw [State.sendData, sendLink_withUnit, withUnit_modUnit]
  rfl

/-- A unit whose FIFO has given `n` bytes to the link. -/
def LineUnit.fed (l : LineUnit) (n : Nat) : LineUnit :=
  { l.sent (l.txFifo.take n).length (.sendData (l.txFifo.take n)) with
    txFifo := l.txFifo.drop n, tx := { l.tx with begun := true, wire := l.tx.wire + (l.txFifo.take n).length } }

theorem fed_last {l : LineUnit} (h : l.txFifo.drop n = []) : l.fed n =
    { l.sent (l.txFifo.take n).length (.sendData (l.txFifo.take n)) with
      txFifo := [], tx := { l.tx with begun := true, wire := l.tx.wire + (l.txFifo.take n).length } } := by
  rw [LineUnit.fed, h]

theorem takeFifo_eq : s.takeFifo u (s.unit u).tx n = s.withUnit u (((s.unit u).fed n).modStats (fun c =>
    if decide ((s.unit u).txFifo.drop n = []) && !(s.unit u).tx.done ((s.unit u).txFifo.drop n)
    then { c with underruns := satAdd Config.max32 c.underruns 1 } else c)) := by
  rw [State.takeFifo, sendData_eq, withUnit_modUnit]
  rfl

theorem takeFifo_plain (h : (s.unit u).txFifo.drop n ≠ [] ∨ (s.unit u).tx.done ((s.unit u).txFifo.drop n) = true) :
    s.takeFifo u (s.unit u).tx n = s.withUnit u ((s.unit u).fed n) := by
  have wet : (decide ((s.unit u).txFifo.drop n = []) && !(s.unit u).tx.done ((s.unit u).txFifo.drop n)) = false := by
    rcases h with e | e
    · rw [decide_eq_false e, Bool.false_and]
    · rw [e, Bool.not_true, Bool.and_false]
  rw [takeFifo_eq, wet]
  rfl

/-- The last byte of the FIFO has gone inside the page's stream: an underrun (R39). -/
theorem takeFifo_dry (h : (s.unit u).txFifo.drop n = []) (k : (s.unit u).tx.done ((s.unit u).txFifo.drop n) = false) :
    s.takeFifo u (s.unit u).tx n = s.withUnit u { (s.unit u).fed n with
      stats := { ((s.unit u).fed n).stats with underruns := min 4294967295 ((s.unit u).stats.underruns + 1) } } := by
  have dry : (decide ((s.unit u).txFifo.drop n = []) && !(s.unit u).tx.done ((s.unit u).txFifo.drop n)) = true := by
    rw [decide_eq_true h, k]
    rfl
  rw [takeFifo_eq, dry]
  rfl

theorem sendFill_eq (t : TxRecoder) : s.sendFill u t n = s.withUnit u
    (let x := (s.unit u).sent n (.sendData (List.replicate n 0x00))
     { x with tx := { t with wire := t.wire + n },
              stats := { x.stats with fillBytes := min 4294967295 ((s.unit u).stats.fillBytes + n) } }) := by
  rw [State.sendFill, sendData_eq, withUnit_modUnit, List.length_replicate]
  rfl

theorem linkTake_bytes (h : (s.unit u).tx.page ≠ none) (one : 1 ≤ n) (most : n ≤ 64) (some : (s.unit u).txFifo ≠ []) :
    s.linkTake u n = s.takeFifo u (s.unit u).tx n := by
  have k : min n 64 = n := Nat.min_eq_left most
  simp only [State.linkTake, k]
  rw [if_neg (by rintro (e | e); exacts [h e, by omega]), if_pos some]

theorem linkTake_fill (h : (s.unit u).tx.page ≠ none) (one : 1 ≤ n) (most : n ≤ 64) (dry : (s.unit u).txFifo = [])
    (inside : (s.unit u).tx.begun = true) (more : (s.unit u).tx.done [] = false) :
    s.linkTake u n = s.sendFill u (s.unit u).tx n := by
  have k : min n 64 = n := Nat.min_eq_left most
  simp only [State.linkTake, k]
  rw [if_neg (by rintro (e | e); exacts [h e, by omega]), if_neg (by simp [dry]), if_pos (by simp [inside, more])]

theorem linkTake_nothing (h : (s.unit u).tx.page = none
    ∨ ((s.unit u).txFifo = [] ∧ (s.unit u).tx.begun = false)) : s.linkTake u n = s := by
  unfold State.linkTake
  dsimp only
  rcases h with e | ⟨dry, before⟩
  · exact if_pos (.inl e)
  · simp only [dry, before, ne_eq, not_true_eq_false, Bool.false_and, Bool.false_eq_true, if_false, ite_self]

theorem done_iff (t : TxRecoder) (fifo : List Byte) :
    t.done fifo = true ↔ fifo = [] ∧ t.ended = true ∧ t.out = [] ∧ t.fill = 0 := by
  simp only [TxRecoder.done, Bool.and_eq_true, decide_eq_true_iff]
  tauto

theorem linkSend_none (h : s.caller u = none) : s.linkSend u n = s := by
  simp only [State.linkSend, h]

theorem linkSend_goes {c : CallerSession} {l : LineUnit} (h : s.caller u = some c) (k : s.linkTake u n = s.withUnit u l)
    (more : l.tx.page = none ∨ l.tx.begun = false ∨ l.tx.done l.txFifo = false) :
    s.linkSend u n = s.withUnit u l := by
  simp only [State.linkSend, h, k, withUnit_unit]
  refine if_neg ?_
  rcases more with e | e | e <;> simp [e]

theorem linkSend_ends {c : CallerSession} {l : LineUnit} (h : s.caller u = some c) (k : s.linkTake u n = s.withUnit u l)
    (page : l.tx.page ≠ none) (begun : l.tx.begun = true) (done : l.tx.done l.txFifo = true) :
    s.linkSend u n = (s.withUnit u l).pageSent u := by
  simp only [State.linkSend, h, k, withUnit_unit]
  refine if_pos ?_
  simp [begun, done, Option.isSome_iff_ne_none, page]

theorem caller_eq_some {c : CallerSession} : s.caller u = some c ↔
    (s.unit u).state = .inSession ∧ (s.unit u).role = some .caller ∧ (s.unit u).callerSession = some c := by
  unfold State.caller
  split
  next h => simp [h.1, h.2]
  next h => simpa using fun a b => absurd ⟨a, b⟩ h

/-- STOP DATA and PAGE END go out with a page's last byte (R122). -/
theorem pageSent_eq {c : CallerSession} {l : LineUnit} (inSession : l.state = .inSession) (role : l.role = some .caller)
    (session : l.callerSession = some c) : (s.withUnit u l).pageSent u = s.withUnit u { l with
      tx := { l.tx with page := none }, out := l.out ++ [.stopData, .sendFrame (.pageEnd c.kind)],
      callerSession := some { c with phase := .awaitVerdict, sends := 1, wait := some .reply },
      stats := { l.stats with pagesSent := min 4294967295 (l.stats.pagesSent + 1) } } := by
  have calls : (s.withUnit u (LineUnit.modStats { l with tx := { l.tx with page := none } }
      (fun t => { t with pagesSent := satAdd Config.max32 t.pagesSent 1 }))).caller u = some c := by
    rw [caller_eq_some, withUnit_unit]
    exact ⟨inSession, role, session⟩
  unfold State.pageSent
  simp only [withUnit_modUnit, calls]
  simp only [State.sendFrame, withUnit_sendLink, State.modCaller, withUnit_modUnit, LineUnit.modStats, session,
    Option.map_some, List.append_assoc, List.cons_append, List.nil_append] <;> rfl

end link

/-- Settles O50: the output by `transmitRecode_pumps` and `pump_eq`, the link by `linkSend_goes` and `linkSend_ends`. -/
theorem transmitSideCodesAndSends : Obligations.TransmitSideCodesAndSends := by
  intro s u l t
  refine ⟨fun h => congrArg Host.Outcome.next (transmitRecode_rests h), fun h k => txHeld_empty h k t,
    fun page room => ?_, fun x => ?_, fun w a b => mergeLines_dots w a b, fun c o ts => ?_,
    fun h n => congrArg Host.Outcome.next (linkSend_none h), fun h n => congrArg Host.Outcome.next ?_,
    fun c n h page one most => ?_⟩
  case refine_1 =>
    intro placed
    have pumps {x : TxRecoder} (free : s.txHeld t = false)
        (form : (if t.out = [] ∧ t.fill = 0 then s.txNext t else t) = x) : placed x x.out x.fill := by
      refine congrArg Host.Outcome.next ((transmitRecode_pumps page room free).trans ?_)
      rw [form, pump_eq]
      rfl
    refine ⟨fun left => pumps ?_ (if_neg ?_), fun out fill free => ?_⟩
    · have busy : ¬ (t.out = [] ∧ t.fill = 0) := fun ⟨o, f⟩ => left.elim (fun k => k o) (fun k => k f)
      simp only [State.txHeld, decide_eq_false busy, Bool.false_and]
    · exact fun ⟨o, f⟩ => left.elim (fun k => k o) (fun k => k f)
    · have form {x : TxRecoder} (e : s.txNext t = x) : placed x x.out x.fill :=
        pumps free ((if_pos ⟨out, fill⟩).trans e)
      refine ⟨fun ts t1 more line => ?_, fun more none => ?_, fun ended => ?_⟩
      · have empty : t1.out = [] := (txLine_out line).trans out
        have emits := form (txNext_line more line)
        rw [TxRecoder.emit, empty, List.nil_append] at emits
        exact emits
      · have ends := form (txNext_end more none)
        rw [out, fill] at ends
        exact ends
      · have stays := form (txNext_ended ended)
        rw [out, fill] at stays
        exact stays
  case refine_2 =>
    refine ⟨txLine_none, fun p r ts n hp hr more good => ?_⟩
    have first := txDecode_good hp hr more good
    refine ⟨fun single => txLine_one first ?_, fun ts2 n2 merged two second => ?_⟩
    · rcases single with keep | last
      · exact .inl (Bool.eq_false_iff.2 (fun k => keep ((reduces_iff x).1 k)))
      · exact .inr (txDecode_none (by simp only [last]))
    · refine txLine_two first ((reduces_iff x).2 merged) ?_
      exact txDecode_good (x := x.took ts n) hp hr (by simp only [TxRecoder.took]; omega) second
  case refine_3 =>
    refine ⟨fun same => by rw [same, fitLine, if_pos rfl], fun other => ⟨(fitLine_dots c o ts other).2, fun i hi => ?_⟩⟩
    rw [(fitLine_dots c o ts other).1]
    exact cropPad_get (lineDots_length _ _) hi
  case refine_4 =>
    have nothing : s.linkTake u n = s.withUnit u l := (linkTake_nothing (.inl h)).trans (withUnit_same s u).symm
    cases e : s.caller u with
    | none => exact linkSend_none e
    | some c => exact (linkSend_goes e nothing (.inl h)).trans (withUnit_same s u)
  case refine_5 =>
    intro bs rest whole sent put
    have done_rest : t.done rest = true ↔ rest = [] ∧ whole := done_iff t rest
    have goes {x : LineUnit} (k : s.linkTake u n = s.withUnit u x)
        (more : x.tx.page = none ∨ x.tx.begun = false ∨ x.tx.done x.txFifo = false) :
        exec (.linkSendData u n) s = .next (put x) :=
      congrArg Host.Outcome.next (linkSend_goes h k more)
    have nonempty (k : bs ≠ []) : l.txFifo ≠ [] := fun e => k (by simp [bs, e])
    refine ⟨fun more => ?_, fun some last inside => ?_, fun some last ends => ?_, fun dry begun inside => ?_,
      fun dry before => ?_⟩
    · have some : l.txFifo ≠ [] := fun e => more (by simp [rest, e])
      have open_ : t.done rest = false := Bool.eq_false_iff.2 fun k => more (done_rest.1 k).1
      exact goes ((linkTake_bytes page one most some).trans (takeFifo_plain (.inl more))) (.inr (.inr open_))
    · have open_ : t.done rest = false := Bool.eq_false_iff.2 fun k => inside (done_rest.1 k).2
      have sends := goes ((linkTake_bytes page one most (nonempty some)).trans (takeFifo_dry last open_))
        (.inr (.inr open_))
      rw [fed_last last] at sends
      exact sends
    · have whole : t.done rest = true := done_rest.2 ⟨last, ends⟩
      obtain ⟨inSession, role, session⟩ := caller_eq_some.1 h
      have takes := (linkTake_bytes page one most (nonempty some)).trans (takeFifo_plain (.inr whole))
      refine congrArg Host.Outcome.next ((linkSend_ends h takes page rfl whole).trans ?_)
      rw [fed_last last]
      exact pageSent_eq (l := { sent bs.length (.sendData bs) with
        txFifo := [], tx := { t with begun := true, wire := t.wire + bs.length } }) inSession role session
    · have open_ : t.done [] = false := Bool.eq_false_iff.2 fun k => inside ((done_iff t []).1 k).2
      have same : ({ t with wire := t.wire + n } : TxRecoder).done l.txFifo = false := by
        rw [dry]
        exact open_
      exact goes ((linkTake_fill page one most dry begun open_).trans (sendFill_eq t)) (.inr (.inr same))
    · have nothing := (linkTake_nothing (n := n) (.inr ⟨dry, before⟩)).trans (withUnit_same s u).symm
      exact congrArg Host.Outcome.next ((linkSend_goes h nothing (.inr (.inl before))).trans (withUnit_same s u))

end Sys2Proof.Machine
end

section
/-! SUPPORT. The receive side of a unit: its FIFO, its recoder, and the lines it decodes (R23 to R25, R41 to R44). -/

namespace Sys2Proof.Machine

open Sys2Proof

/-! ## The FIFO (R42) -/

section fifo

theorem fifoBytesHeld_append (q r : List RxItem) : fifoBytesHeld (q ++ r) = fifoBytesHeld q + fifoBytesHeld r := by
  simp only [fifoBytesHeld, List.filter_append, List.length_append]

theorem fifoBytesHeld_byte (b : Byte) : fifoBytesHeld [.byte b] = 1 := rfl

/-- Bytes for which there is room enter the FIFO. -/
theorem foldl_pushByte_fits {q : List RxItem} {bs : List Byte} (h : fifoBytesHeld q + bs.length ≤ 1024) :
    bs.foldl pushByte q = q ++ bs.map RxItem.byte := by
  induction bs generalizing q with
  | nil => exact (List.append_nil q).symm
  | cons b bs ih =>
    rw [List.length_cons] at h
    have room : pushByte q b = q ++ [.byte b] := if_pos (by show fifoBytesHeld q < 1024; omega)
    rw [List.foldl_cons, room, ih (by rw [fifoBytesHeld_append, fifoBytesHeld_byte]; omega), List.map_cons,
      List.append_assoc]
    rfl

/-- Behind a gap mark of a full FIFO more bytes are lost without another mark. -/
theorem foldl_pushByte_gap {q : List RxItem} (bs : List Byte) (full : ¬ fifoBytesHeld q < 1024)
    (last : q.getLast? = some .gap) : bs.foldl pushByte q = q := by
  induction bs with
  | nil => rfl
  | cons b bs ih =>
    have same : pushByte q b = q := (if_neg full).trans (if_pos last)
    rw [List.foldl_cons, same, ih]

theorem foldl_pushByte_full {q : List RxItem} {bs : List Byte} (full : ¬ fifoBytesHeld q < 1024) (some : bs ≠ []) :
    bs.foldl pushByte q = if q.getLast? = Option.some .gap then q else q ++ [.gap] := by
  obtain ⟨b, t, rfl⟩ := List.exists_cons_of_ne_nil some
  by_cases last : q.getLast? = Option.some .gap
  · rw [if_pos last]
    exact foldl_pushByte_gap _ full last
  · have marks : pushByte q b = q ++ [.gap] := (if_neg full).trans (if_neg last)
    rw [if_neg last, List.foldl_cons, marks]
    refine foldl_pushByte_gap t ?_ List.getLast?_concat
    rw [fifoBytesHeld_append]
    exact fun h => full (Nat.lt_of_le_of_lt (Nat.le_add_right _ _) h)

/-- Bytes beyond the room are lost behind one gap mark. -/
theorem foldl_pushByte_overflow {q : List RxItem} {bs : List Byte} (room : fifoBytesHeld q < 1024)
    (more : 1024 < fifoBytesHeld q + bs.length) :
    bs.foldl pushByte q = q ++ (bs.take (1024 - fifoBytesHeld q)).map RxItem.byte ++ [.gap] := by
  have held (cs : List Byte) : fifoBytesHeld (cs.map RxItem.byte) = cs.length := by
    induction cs with
    | nil => rfl
    | cons c cs ih => rw [List.map_cons, List.length_cons, ← ih]; rfl
  have size : (bs.take (1024 - fifoBytesHeld q)).length = 1024 - fifoBytesHeld q := by
    rw [List.length_take]
    omega
  have some : bs.take (1024 - fifoBytesHeld q) ≠ [] := by
    intro e
    rw [e] at size
    simp only [List.length_nil] at size
    omega
  have drop : bs.drop (1024 - fifoBytesHeld q) ≠ [] := by
    intro e
    have := congrArg List.length e
    rw [List.length_drop, List.length_nil] at this
    omega
  have taken := foldl_pushByte_fits (q := q) (bs := bs.take (1024 - fifoBytesHeld q)) (by omega)
  have full : ¬ fifoBytesHeld (q ++ (bs.take (1024 - fifoBytesHeld q)).map RxItem.byte) < 1024 := by
    rw [fifoBytesHeld_append, held]
    omega
  have noGap : (q ++ (bs.take (1024 - fifoBytesHeld q)).map RxItem.byte).getLast? ≠ Option.some .gap := by
    obtain ⟨init, b, e⟩ := List.eq_nil_or_concat (bs.take (1024 - fifoBytesHeld q)) |>.resolve_left some
    rw [e, List.concat_eq_append, List.map_append, ← List.append_assoc]
    simp
  calc bs.foldl pushByte q
      = (bs.drop (1024 - fifoBytesHeld q)).foldl pushByte ((bs.take (1024 - fifoBytesHeld q)).foldl pushByte q) := by
        rw [← List.foldl_append, List.take_append_drop]
    _ = _ := by rw [taken, foldl_pushByte_full full drop, if_neg noGap]

end fifo

section data
variable {s : State} {u : UnitId} {a : AnswererSession}

theorem receiving_iff (l : LineUnit) : l.receiving = true ↔ l.rx.state = .active ∧ RxItem.carrierLost ∉ l.rxFifo := by
  simp only [LineUnit.receiving, LineUnit.carrierGone, Bool.and_eq_true, decide_eq_true_iff, Bool.not_eq_true',
    decide_eq_false_iff_not]

theorem pushMark_closed (h : (s.unit u).receiving = false) (m : RxItem) : s.pushMark u m = s := by
  have same : (if (s.unit u).receiving then { s.unit u with rxFifo := (s.unit u).rxFifo ++ [m] } else s.unit u) =
      s.unit u := if_neg (by simp [h])
  exact (congrArg (s.withUnit u) same).trans (withUnit_same s u)

theorem pushMark_open (h : (s.unit u).receiving = true) (m : RxItem) :
    s.pushMark u m = s.withUnit u { s.unit u with rxFifo := (s.unit u).rxFifo ++ [m] } :=
  congrArg (s.withUnit u) (if_pos h)

theorem takeData_none (h : s.answering u = none) (bs : List Byte) : s.takeData u bs = s := by
  simp only [State.takeData, h]

theorem takeData_closed (h : s.answering u = some a) (k : (s.unit u).receiving = false) (bs : List Byte) :
    s.takeData u bs = s := by
  simp only [State.takeData, h]
  exact if_pos (.inl k)

theorem takeData_room (h : s.answering u = some a) (k : (s.unit u).receiving = true) {bs : List Byte} (some : bs ≠ [])
    (room : fifoBytesHeld (s.unit u).rxFifo < 1024) : s.takeData u bs = s.withUnit u { s.unit u with
      rxFifo := bs.foldl pushByte (s.unit u).rxFifo, answerer := Option.some { a with dataTaken := true } } := by
  simp only [State.takeData, h]
  rw [if_neg (by simp [k, some]), if_pos (show fifoBytesHeld (s.unit u).rxFifo < Config.fifoBytes from room),
    modUnit_withUnit, State.setAnswerer, withUnit_modUnit]

theorem takeData_full (h : s.answering u = some a) (k : (s.unit u).receiving = true) {bs : List Byte} (some : bs ≠ [])
    (full : ¬ fifoBytesHeld (s.unit u).rxFifo < 1024) : s.takeData u bs = s.withUnit u { s.unit u with
      rxFifo := bs.foldl pushByte (s.unit u).rxFifo } := by
  simp only [State.takeData, h]
  rw [if_neg (by simp [k, some]), if_neg (show ¬ fifoBytesHeld (s.unit u).rxFifo < Config.fifoBytes from full),
    modUnit_withUnit]

theorem takeDataEnd_none (h : s.answering u = none) : s.takeDataEnd u = s := by
  simp only [State.takeDataEnd, h]

theorem takeDataEnd_some (h : s.answering u = some a) : s.takeDataEnd u = s.pushMark u .dataEnd := by
  simp only [State.takeDataEnd, h]

end data

/-! ## A line stored (R44) -/

section store
variable {s : State} {u : UnitId} {ts : List Nat} {p : Nat} {r : PageRec}

theorem rxStore_nothing (h : (s.unit u).rx.page = none ∨ (s.unit u).rx.noRoom ≠ none ∨ (s.unit u).rx.clippedOff =
    true) :
    s.rxStore u ts = s := by
  unfold State.rxStore
  dsimp only
  split
  next => rfl
  next p hp =>
    split
    next => rfl
    next => exact if_pos (h.resolve_left (by simp [hp]))

theorem rxStore_clips (hp : (s.unit u).rx.page = some p) (hr : s.page p = some r) (room : (s.unit u).rx.noRoom = none)
    (whole : (s.unit u).rx.clippedOff = false)
    (beyond : r.fits (codeFull (widthDots (s.unit u).rx.width) (s.unit u).rx.ref ts).length = false) :
    s.rxStore u ts = (s.modPage p (fun y => { y with clipped := true })).modUnit u
      (fun y => { y with rx := { y.rx with clippedOff := true } }) := by
  simp only [State.rxStore, hp, hr, room, whole, beyond, ne_eq, not_true_eq_false, Bool.false_eq_true, or_self,
    if_false,
    Bool.not_false, if_true]

theorem rxStore_fits (hp : (s.unit u).rx.page = some p) (hr : s.page p = some r) (room : (s.unit u).rx.noRoom = none)
    (whole : (s.unit u).rx.clippedOff = false)
    (fits : r.fits (codeFull (widthDots (s.unit u).rx.width) (s.unit u).rx.ref ts).length = true) :
    (∀ t, s.place (.unit u) p (codeFull (widthDots (s.unit u).rx.width) (s.unit u).rx.ref ts) = ([], t) →
      s.rxStore u ts = t.modPage p (fun y => { y with lines := y.lines + 1 }))
    ∧ ∀ b left t, s.place (.unit u) p (codeFull (widthDots (s.unit u).rx.width) (s.unit u).rx.ref ts) = (b :: left, t) →
      s.rxStore u ts = t.modUnit u (fun y => { y with rx := { y.rx with noRoom := some .noBlock } }) := by
  refine ⟨fun t k => ?_, fun b left t k => ?_⟩
  · simp only [State.rxStore, hp, hr, room, whole, fits, k, ne_eq, not_true_eq_false, Bool.false_eq_true, or_self,
      if_false, Bool.not_true]
  · simp only [State.rxStore, hp, hr, room, whole, fits, k, ne_eq, not_true_eq_false, Bool.false_eq_true, or_self,
      if_false, Bool.not_true]

end store

/-! ## An item taken (R42, R43) -/

section take
variable {s : State} {u : UnitId}

theorem receiveDecode_rests (h : s.stalled (.unit u) = true ∨ (s.unit u).rxFifo = []) : s.receiveDecode u = s := by
  unfold State.receiveDecode
  rcases h with wait | dry
  · exact if_pos wait
  · simp only [State.rxTake, dry, ite_self]

theorem receiveDecode_discards {m : RxItem} {rest : List RxItem} (free : s.stalled (.unit u) = false)
    (h : (s.unit u).rxFifo = m :: rest) (k : (s.unit u).rx.state ≠ .active) :
    s.receiveDecode u = s.withUnit u { s.unit u with rxFifo := rest } := by
  simp only [State.receiveDecode, State.rxTake, free, h, if_neg k, Bool.false_eq_true, if_false] <;> rfl

theorem receiveDecode_item {m : RxItem} {rest : List RxItem} {r : Option RxReport} {t : State}
    (free : s.stalled (.unit u) = false) (h : (s.unit u).rxFifo = m :: rest) (k : (s.unit u).rx.state = .active)
    (item : (s.withUnit u { s.unit u with rxFifo := rest }).rxItem u m = (r, t)) :
    s.receiveDecode u = r.elim t (t.takeReport u) := by
  have took : s.rxTake u = (r, t) := by
    simp only [State.rxTake, h, if_pos k]
    exact item
  simp only [State.receiveDecode, free, took, Bool.false_eq_true, if_false]
  cases r <;> rfl

theorem rxItem_end {m : RxItem} (h : m = .dataEnd ∨ m = .carrierLost) : s.rxItem u m =
    if (s.unit u).rx.line = [] then s.rxEnded u false else (s.rxBad u).rxEnded u false := by
  rcases h with rfl | rfl <;> rfl

section byte
variable {b : Byte}

/-- What the bytes of the current line say with one byte more. -/
def State.reads (s : State) (u : UnitId) (b : Byte) : LineRead :=
  takeLine (widthDots (s.unit u).rx.width) (s.unit u).rx.ref ((s.unit u).rx.line ++ [b])

theorem rxByte_more (h : s.reads u b = .more) : s.rxByte u b = (none, s.withUnit u { s.unit u with
    rx := { (s.unit u).rx with line := (s.unit u).rx.line ++ [b] } }) := by
  unfold State.reads at h
  simp only [State.rxByte, h, modUnit_withUnit]

theorem rxByte_fill (h : s.reads u b = .fill) : s.rxByte u b = (none, s.withUnit u { s.unit u with
    rx := { (s.unit u).rx with line := [] } }) := by
  unfold State.reads at h
  simp only [State.rxByte, h, modUnit_withUnit]

theorem rxByte_good {ts : List Nat} {n : Nat} (h : s.reads u b = .good ts n) :
    s.rxByte u b = (none, s.rxGood u ts) := by
  unfold State.reads at h
  simp only [State.rxByte, h]

theorem rxByte_bad {n : Nat} (h : s.reads u b = .bad n) : s.rxByte u b = (none, s.rxBad u) := by
  unfold State.reads at h
  simp only [State.rxByte, h]

theorem rxByte_end (h : s.reads u b = .endTag) : s.rxByte u b = s.rxEnded u true := by
  unfold State.reads at h
  simp only [State.rxByte, h]

end byte

end take

/-! ## Lines decoded (R23 to R25, R43) -/

theorem takeLine_other {w : Nat} {ref : List Nat} {b : Byte} (rest : List Byte) (h : b.toNat ∉ [0, 1, 2, 15])
    (range : b.toNat < 64 ∨ 80 ≤ b.toNat) : takeLine w ref (b :: rest) = .bad 1 := by
  have ne (v : Byte) (hv : v.toNat ∈ [0, 1, 2, 15]) : b ≠ v := fun e => h (e ▸ hv)
  simp only [takeLine, if_neg (ne fillByte (by decide)), if_neg (ne 0x01 (by decide)), if_neg (ne 0x02 (by decide)),
    if_neg (ne 0x0F (by decide))]
  exact if_neg (by omega)

theorem takeLine_shift_white {w : Nat} {ref : List Nat} (rest : List Byte) (h : ref = []) :
    takeLine w ref (0x02 :: rest) = .bad 1 := by
  subst h
  rfl

/-- The shift values of a SHIFT line stand for a rising line: none is 0, and the positions rise within the line. -/
def ShiftSound (w low : Nat) (ref vs : List Nat) : Prop :=
  ∀ i, i < ref.length → vs.getD i 0 ≠ 0 ∧ 8 ≤ ref.getD i 0 + vs.getD i 0
    ∧ (i = 0 → low ≤ ref.getD i 0 + vs.getD i 0 - 8) ∧ ref.getD i 0 + vs.getD i 0 - 8 < w
    ∧ (i + 1 < ref.length → ref.getD i 0 + vs.getD i 0 - 8 < ref.getD (i + 1) 0 + vs.getD (i + 1) 0 - 8)

theorem shiftSound_cons {w low r v : Nat} {ref vs : List Nat} : ShiftSound w low (r :: ref) (v :: vs) ↔
    (v ≠ 0 ∧ 8 ≤ r + v ∧ low ≤ r + v - 8 ∧ r + v - 8 < w) ∧ ShiftSound w (r + v - 8 + 1) ref vs := by
  constructor
  · intro h
    obtain ⟨nonzero, eight, above, inside, -⟩ := h 0 (by simp)
    refine ⟨⟨nonzero, eight, above rfl, inside⟩, fun i hi => ?_⟩
    obtain ⟨a, b, -, d, e⟩ := h (i + 1) (by simpa using hi)
    refine ⟨a, b, fun first => ?_, d, fun next => e (by simpa using next)⟩
    subst first
    exact (h 0 (by simp)).2.2.2.2 (by simpa using hi)
  · rintro ⟨⟨nonzero, eight, above, inside⟩, tail⟩ i hi
    cases i with
    | zero => exact ⟨nonzero, eight, fun _ => above, inside, fun next => (tail 0 (by simpa using next)).2.2.1 rfl⟩
    | succ i =>
      obtain ⟨a, b, -, d, e⟩ := tail i (by simpa using hi)
      exact ⟨a, b, nofun, d, fun next => e (by simpa using next)⟩

open Classical in
theorem shiftLine_eq {w low : Nat} {ref vs : List Nat} (h : ref.length ≤ vs.length) : shiftLine w low ref vs =
    if ShiftSound w low ref vs
    then some ((List.range ref.length).map (fun i => ref.getD i 0 + vs.getD i 0 - 8)) else none := by
  induction ref generalizing low vs with
  | nil => exact (if_pos (fun i hi => absurd hi (Nat.not_lt_zero i))).symm
  | cons r ref ih =>
    cases vs with
    | nil => simp at h
    | cons v vs =>
      have rest := ih (low := r + v - 8 + 1) (vs := vs) (by simpa using h)
      rw [shiftLine]
      by_cases value : v = 0 ∨ r + v < 8
      · rw [if_pos value, if_neg fun k => by obtain ⟨⟨a, b, -⟩, -⟩ := shiftSound_cons.1 k; omega]
      · rw [if_neg value]
        dsimp only
        by_cases place : r + v - 8 < low ∨ w ≤ r + v - 8
        · rw [if_pos place, if_neg fun k => by obtain ⟨⟨-, -, a, b⟩, -⟩ := shiftSound_cons.1 k; omega]
        · rw [if_neg place, rest]
          by_cases sound : ShiftSound w (r + v - 8 + 1) ref vs
          · rw [if_pos sound, if_pos (shiftSound_cons.2 ⟨by omega, sound⟩), List.length_cons, List.range_succ_eq_map,
              List.map_cons, List.map_map]
            rfl
          · rw [if_neg sound, if_neg fun k => sound (shiftSound_cons.1 k).2]

theorem nibbles_getD (body : List Byte) (i : Nat) : (body.flatMap nibbles).getD i 0 =
    let b := (body.getD (i / 2) 0).toNat
    if i % 2 = 0 then b / 16 else b % 16 := by
  induction body generalizing i with
  | nil => simp
  | cons b body ih =>
    match i with
    | 0 => rfl
    | 1 => rfl
    | i + 2 =>
      have step : (i + 2) / 2 = i / 2 + 1 := by omega
      have parity : (i + 2) % 2 = i % 2 := by omega
      rw [List.flatMap_cons, step, parity]
      exact ih i

theorem takeLine_shift_bad {w : Nat} {ref : List Nat} {body : List Byte} (rest : List Byte) (hne : ref ≠ [])
    (hlen : body.length = ceilDiv ref.length 2) (h : shiftLine w 0 ref (body.flatMap nibbles) = none) :
    takeLine w ref (0x02 :: (body ++ rest)) = .bad (1 + body.length) := by
  simp [takeLine, fillByte, hne, ← hlen, h]

/-- The size that the bytes of one run length give (Table 12-8). -/
def runSize : List Byte → Nat
  | [d] => d.toNat
  | [d, e] => (d.toNat - 128) * 256 + e.toNat
  | _ => 0

/-- The bytes of one run length. -/
def RunBytes (r : List Byte) : Prop := (∃ d : Byte, r = [d] ∧ d.toNat < 128) ∨ ∃ d e : Byte, r = [d, e] ∧ 128 ≤ d.toNat

theorem readRuns_run {r : List Byte} (h : RunBytes r) (k : Nat) (bs : List Byte) :
    readRuns (k + 1) (r ++ bs) = (readRuns k bs).map (fun x => (runSize r :: x.1, x.2 + r.length)) := by
  obtain ⟨d, rfl, short⟩ | ⟨d, e, rfl, long⟩ := h
  · simp only [List.cons_append, List.nil_append, readRuns, short, if_true]
    cases readRuns k bs <;> rfl
  · simp only [List.cons_append, List.nil_append, readRuns, if_neg (Nat.not_lt.2 long)]
    cases readRuns k bs <;> rfl

theorem readRuns_run_short {r : List Byte} (h : RunBytes r) (k : Nat) {n : Nat} (hn : n < r.length) :
    readRuns (k + 1) (r.take n) = none := by
  obtain ⟨d, rfl, short⟩ | ⟨d, e, rfl, long⟩ := h
  · obtain rfl : n = 0 := by simpa using hn
    rfl
  · match n, hn with
    | 0, _ => rfl
    | 1, _ => simp only [List.take_succ_cons, List.take_zero, readRuns, if_neg (Nat.not_lt.2 long)]

theorem readRuns_flatten {runs : List (List Byte)} (h : ∀ r ∈ runs, RunBytes r) (rest : List Byte) :
    readRuns runs.length (runs.flatten ++ rest) = some (runs.map runSize, runs.flatten.length) := by
  induction runs with
  | nil => rfl
  | cons r runs ih =>
    obtain ⟨hr, hrs⟩ := List.forall_mem_cons.1 h
    rw [List.flatten_cons, List.append_assoc, List.length_cons, readRuns_run hr, ih hrs, Option.map_some,
      List.length_append, Nat.add_comm]
    rfl

theorem readRuns_flatten_short {runs : List (List Byte)} (h : ∀ r ∈ runs, RunBytes r) {n : Nat}
    (hn : n < runs.flatten.length) : readRuns runs.length (runs.flatten.take n) = none := by
  induction runs generalizing n with
  | nil => simp at hn
  | cons r runs ih =>
    obtain ⟨hr, hrs⟩ := List.forall_mem_cons.1 h
    rw [List.flatten_cons, List.length_append] at hn
    rw [List.flatten_cons, List.length_cons]
    by_cases inside : n < r.length
    · rw [List.take_append_of_le_length inside.le]
      exact readRuns_run_short hr _ inside
    · rw [List.take_append, List.take_of_length_le (by omega), readRuns_run hr, ih hrs (by omega), Option.map_none]

theorem runPositions_eq (from_ : Nat) (rs : List Nat) :
    runPositions from_ rs = (List.range (rs.length - 1)).map (fun i => from_ + (rs.take (i + 1)).sum) := by
  induction rs generalizing from_ with
  | nil => rfl
  | cons r rs ih =>
    cases rs with
    | nil => rfl
    | cons q rs =>
      rw [runPositions, ih]
      simp only [List.length_cons, Nat.add_sub_cancel, List.range_succ_eq_map, List.map_cons, List.map_map]
      refine congrArg₂ List.cons (by simp) (List.map_congr_left fun i _ => ?_)
      simp only [Function.comp, List.take_succ_cons, List.sum_cons]
      omega
      exact nofun

theorem runsGood_iff (w : Nat) (rs : List Nat) : runsGood w rs = true ↔ rs.sum = w ∧ ∀ z ∈ rs.drop 1, z ≠ 0 := by
  simp only [runsGood, Bool.and_eq_true, decide_eq_true_iff, List.all_eq_true, List.drop_one]

/-- The count of a RUNS head gives back its two bytes. -/
theorem runsHead (b c : Byte) (low : 64 ≤ b.toNat) (high : b.toNat < 80) :
    b = byteOf (64 + ((b.toNat - 64) * 256 + c.toNat) / 256) ∧ c = byteOf ((b.toNat - 64) * 256 + c.toNat)
      ∧ (b.toNat - 64) * 256 + c.toNat < 4096 := by
  have hc := c.isLt
  refine ⟨BitVec.eq_of_toNat_eq ?_, BitVec.eq_of_toNat_eq ?_, by omega⟩
  · rw [toNat_byteOf]
    omega
  · rw [toNat_byteOf]
    omega

theorem takeLine_runs_bad {w : Nat} {ref : List Nat} {b c : Byte} (low : 64 ≤ b.toNat) (high : b.toNat < 80)
    (rest : List Byte) (h : (b.toNat - 64) * 256 + c.toNat = 0 ∨ w + 1 < (b.toNat - 64) * 256 + c.toNat) :
    takeLine w ref (b :: c :: rest) = .bad 2 := by
  have ne (v : Byte) (hv : v.toNat < 64) : b ≠ v := fun e => Nat.not_lt.2 low (e ▸ hv)
  simp only [takeLine, if_neg (ne fillByte (by decide)), if_neg (ne 0x01 (by decide)), if_neg (ne 0x02 (by decide)),
    if_neg (ne 0x0F (by decide)), if_pos (And.intro low high)]
  exact if_pos h

/-- The bytes after a RUNS head with a count in range: whole they give their line or a bad one, and fewer want more. -/
theorem takeLine_runBytes {w : Nat} {ref : List Nat} {b c : Byte} (low : 64 ≤ b.toNat) (high : b.toNat < 80)
    {runs : List (List Byte)} (count : runs.length = (b.toNat - 64) * 256 + c.toNat) (one : 1 ≤ runs.length)
    (most : runs.length ≤ w + 1) (h : ∀ r ∈ runs, RunBytes r) :
    (∀ n, n < runs.flatten.length → takeLine w ref (b :: c :: runs.flatten.take n) = .more)
    ∧ ∀ rest, takeLine w ref (b :: c :: runs.flatten ++ rest) =
      if runsGood w (runs.map runSize) then
        .good ((List.range (runs.length - 1)).map (fun i => ((runs.map runSize).take (i + 1)).sum))
          (2 + runs.flatten.length)
      else .bad (2 + runs.flatten.length) := by
  obtain ⟨hb, hc, small⟩ := runsHead b c low high
  rw [← count] at hb hc small
  have read (bytes : List Byte) : takeLine w ref (b :: c :: bytes) =
      (readRuns runs.length bytes).elim .more fun x =>
        if runsGood w x.1 then .good (runPositions 0 x.1) (2 + x.2) else .bad (2 + x.2) := by
    have head := takeLine_runs ref bytes small (by omega) most
    rw [← hb, ← hc] at head
    exact head
  refine ⟨fun n hn => ?_, fun rest => ?_⟩
  · rw [read, readRuns_flatten_short h hn, Option.elim_none]
  · rw [List.cons_append, List.cons_append, read, readRuns_flatten h, Option.elim_some, runPositions_eq,
      List.length_map]
    simp only [Nat.zero_add]

theorem shiftSound_iff {w : Nat} {ref : List Nat} {v : Nat → Nat} {vs : List Nat} (h : ∀ i, vs.getD i 0 = v i) :
    ShiftSound w 0 ref vs ↔ ∀ i, i < ref.length → v i ≠ 0 ∧ 8 ≤ ref.getD i 0 + v i ∧ ref.getD i 0 + v i - 8 < w
      ∧ (i + 1 < ref.length → ref.getD i 0 + v i - 8 < ref.getD (i + 1) 0 + v (i + 1) - 8) := by
  simp only [ShiftSound, h, Nat.zero_le, implies_true, true_and]

/-- Settles O51: the FIFO by `takeData_room` and `takeData_full`, the recoder by `receiveDecode_item`, the lines by
`shiftLine_eq` and `takeLine_runBytes`. -/
theorem receiveSideDecodesAndStores : Obligations.ReceiveSideDecodesAndStores := by
  refine ⟨fun s u => ?_, fun w ref => ?_⟩
  case refine_1 =>
    intro l x put open_
    have receiving : l.receiving = true ↔ open_ := receiving_iff l
    refine ⟨fun none bs => ⟨congrArg Host.Outcome.next (takeData_none none bs),
        congrArg Host.Outcome.next (takeDataEnd_none none)⟩, fun a h closed bs => ?_, fun a h opened => ?_,
          fun ts => ?_,
      fun h => congrArg (fun t => Host.Outcome.next (State.scanRetry t)) (receiveDecode_rests h), rfl,
      fun m rest free h => ?_⟩
    · have shut : l.receiving = false := Bool.eq_false_iff.2 fun k => closed (receiving.1 k)
      exact ⟨congrArg Host.Outcome.next (takeData_closed h shut bs),
        congrArg Host.Outcome.next ((takeDataEnd_some h).trans (pushMark_closed shut _))⟩
    · have on : l.receiving = true := receiving.2 opened
      refine ⟨congrArg Host.Outcome.next ((takeDataEnd_some h).trans (pushMark_open on _)), fun bs some fits => ?_,
        fun bs room more => ?_, fun bs some full => ?_⟩
      · have one : 0 < bs.length := List.length_pos_iff.2 some
        refine congrArg Host.Outcome.next ((takeData_room h on some
          (by show fifoBytesHeld l.rxFifo < 1024; omega)).trans ?_)
        rw [foldl_pushByte_fits fits]
        rfl
      · have some : bs ≠ [] := by
          rintro rfl
          simp only [List.length_nil] at more
          omega
        refine congrArg Host.Outcome.next ((takeData_room h on some room).trans ?_)
        rw [foldl_pushByte_overflow room more]
        rfl
      · have none : ¬ fifoBytesHeld l.rxFifo < 1024 := by omega
        refine congrArg Host.Outcome.next ((takeData_full h on some none).trans ?_)
        rw [foldl_pushByte_full none some]
        rfl
    · intro bs
      refine ⟨rxStore_nothing, fun p r hp hr room whole => ?_⟩
      intro fits
      have caps : r.fits bs.length = true ↔ fits := decide_eq_true_iff
      exact ⟨fun k => rxStore_clips hp hr room whole (Bool.eq_false_iff.2 fun y => k (caps.1 y)),
        fun t k => (rxStore_fits hp hr room whole (caps.2 k)).1 t,
        fun b left t k => (rxStore_fits hp hr room whole (caps.2 k)).2 b left t⟩
    · intro s1 rx
      have unit : s1.unit u = { l with rxFifo := rest } := withUnit_unit s u _
      have line : (s1.unit u).rx = x := by rw [unit]
      have next {r : Option RxReport} {t : State} (k : x.state = .active) (item : s1.rxItem u m = (r, t)) :
          exec (.receiveDecode u) s = .next (r.elim t (t.takeReport u)).scanRetry :=
        congrArg (fun t => Host.Outcome.next (State.scanRetry t)) (receiveDecode_item free h k item)
      have ended (f : Bool) : s1.rxEnded u f = (some ⟨x.received, x.bad, x.longest, f, x.noRoom⟩,
          rx { x with state := .ended, line := [] }) := by
        rw [State.rxEnded, line]
        exact congrArg (Prod.mk _) (withUnit_modUnit s u _ _)
      refine ⟨fun k => congrArg (fun t => Host.Outcome.next (State.scanRetry t)) (receiveDecode_discards free h k),
        fun k => ⟨fun b hm => ?_, fun hm => ?_, fun hm none => ?_, fun hm some => ?_⟩⟩
      · subst hm
        intro got
        have reads : s1.reads u b = got := by rw [State.reads, line]
        have sets (y : RxRecoder) : s1.withUnit u { s1.unit u with rx := y } = rx y := by
          rw [unit]
          exact withUnit_withUnit s u _ _
        refine ⟨fun e => ?_, fun e => ?_, fun ts n e => next k (rxByte_good (reads.trans e)),
          fun n e => next k (rxByte_bad (reads.trans e)),
          fun e => next k ((rxByte_end (reads.trans e)).trans (ended true))⟩
        · have took := rxByte_more (reads.trans e)
          rw [line, sets] at took
          exact next k took
        · have took := rxByte_fill (reads.trans e)
          rw [line, sets] at took
          exact next k took
      · subst hm
        exact next k rfl
      · have item : s1.rxItem u m = (Option.some ⟨x.received, x.bad, x.longest, false, x.noRoom⟩,
            rx { x with state := .ended, line := [] }) := by
          rw [rxItem_end hm, line, if_pos none, ended]
        exact next k item
      · have item : s1.rxItem u m = (s1.rxBad u).rxEnded u false := by
          rw [rxItem_end hm, line]
          exact if_neg some
        exact next k item
  case refine_2 =>
    intro read
    refine ⟨rfl, fun b rest => ⟨?_, ?_, ?_, takeLine_other rest⟩, fun rest => takeLine_shift_white rest,
      fun body hne short => takeLine_shift_more hne short, fun body rest hne size => ?_,
      fun b low high => ⟨?_, fun c => ?_⟩⟩
    · rintro rfl
      rfl
    · rintro rfl
      rfl
    · rintro rfl
      rfl
    · intro v place sound
      have values (i : Nat) : (body.flatMap nibbles).getD i 0 = v i := nibbles_getD body i
      have long : ref.length ≤ (body.flatMap nibbles).length := by
        have two : (body.flatMap nibbles).length = 2 * body.length := by
          simp [List.length_flatMap, nibbles, Nat.mul_comm]
        omega
      have line := shiftLine_eq (w := w) (low := 0) long
      rw [List.cons_append]
      refine ⟨fun ok => takeLine_shift rest hne size (line.trans ?_),
        fun bad => takeLine_shift_bad rest hne size (line.trans ?_)⟩
      · rw [if_pos ((shiftSound_iff values).2 ok)]
        simp only [values]
        rfl
      · exact if_neg fun k => bad ((shiftSound_iff values).1 k)
    · obtain ⟨hb, -, small⟩ := runsHead b 0 low high
      rw [hb]
      exact takeLine_runs_tag_more small
    · intro k
      refine ⟨fun rest => takeLine_runs_bad low high rest, fun one most runs count all => ?_⟩
      intro sizes body sound
      have same : sizes = runs.map runSize := by
        refine List.map_congr_left fun r hr => ?_
        rcases all r hr with ⟨d, rfl, -⟩ | ⟨d, e, rfl, -⟩
        · rfl
        · rfl
      obtain ⟨short, whole⟩ := takeLine_runBytes (w := w) (ref := ref) low high count (by omega) (by omega) all
      refine ⟨short, fun rest => ⟨fun ok => (whole rest).trans ?_, fun bad => (whole rest).trans ?_⟩⟩
      · rw [← same, if_pos ((runsGood_iff w sizes).2 ok), count]
      · rw [← same]
        exact if_neg fun k => bad ((runsGood_iff w sizes).1 k)

end Sys2Proof.Machine
end

section
/-! SUPPORT. Ringing: RING by the unit's state, glare, the answer, the first CALLER, the ring timer (R105 to R109). -/

namespace Sys2Proof.Machine

open Sys2Proof

section ring
variable {s : State} {u : UnitId}

theorem receives_iff (l : LineUnit) : l.receives = true ↔ l.mode = .receive ∨ l.mode = .both := decide_eq_true_iff

theorem refusal_none_iff (v : RingVerdict) : v.refusal = none ↔ ∀ r, v ≠ .refused r := by
  cases v <;> simp [RingVerdict.refusal]

theorem checkRings_answers (h : (s.unit u).ringCount = s.settings.ringsToAnswer)
    (k : ∀ r, (s.unit u).verdict ≠ .refused r) : s.checkRings u = s.answerRing u :=
  if_pos ⟨h, (refusal_none_iff _).2 k⟩

theorem checkRings_waits (h : (∃ r, (s.unit u).verdict = .refused r) ∨
    (s.unit u).ringCount ≠ s.settings.ringsToAnswer) :
    s.checkRings u = s := by
  refine if_neg ?_
  rintro ⟨count, verdict⟩
  exact h.elim (fun ⟨r, e⟩ => (refusal_none_iff _).1 verdict r e) (fun n => n count)

theorem ring_none (h : (s.unit u).state = .off ∨ (s.unit u).state = .dialling ∨ (s.unit u).state = .awaitAnswer
    ∨ (s.unit u).state = .inSession ∨ (s.unit u).state = .clearing ∨ (s.unit u).state = .blocked) : s.ring u = s := by
  unfold State.ring
  rcases h with e | e | e | e | e | e <;> simp only [e]

theorem ring_declined (h : (s.unit u).receives = false)
    (k : (s.unit u).state = .idle ∨ (s.unit u).state = .ringing) : s.ring u = s := by
  unfold State.ring
  rcases k with e | e <;> simp only [e, h, Bool.false_eq_true, if_false]

theorem ring_idle (h : (s.unit u).receives = true) (k : (s.unit u).state = .idle) :
    s.ring u = (s.beginRinging u false).checkRings u := by
  simp only [State.ring, k, h, if_true]

theorem ring_ringing (h : (s.unit u).receives = true) (k : (s.unit u).state = .ringing) :
    s.ring u = (s.withUnit u { s.unit u with
      ringCount := min 255 ((s.unit u).ringCount + 1), timer := some 8000 }).checkRings u := by
  have counts : s.ring u = if (s.unit u).receives then (s.modUnit u (fun x =>
      { x with ringCount := satAdd 255 x.ringCount 1, timer := some 8000 })).checkRings u else s := by
    simp only [State.ring, k]
  exact counts.trans (if_pos h)

theorem ring_seizing (k : (s.unit u).state = .seizing) :
    s.ring u = if (s.unit u).mode = .both then s.glare u else s := by
  simp only [State.ring, k]

/-- A unit's record as a ringing begins (R105, R106). -/
def LineUnit.ringBegun (l : LineUnit) (glare : Bool) : LineUnit :=
  { l with
    state := .ringing, timer := some 8000, ringCount := 1, caller := none, verdict := .none, glare := glare,
    role := none, entry := none }

theorem beginRinging_eq (glare : Bool) : s.beginRinging u glare =
    (s.withUnit u ((s.unit u).ringBegun glare)).modScreen (fun c => c.setMatch u none) := rfl

@[simp] theorem unit_modScreen (f : Screen → Screen) : (s.modScreen f).unit u = s.unit u := rfl

/-- The first RING answers at once where one ring is to be counted (R108). -/
theorem begun_checkRings (glare : Bool) :
    (s.settings.ringsToAnswer ≠ 1 → (s.beginRinging u glare).checkRings u = s.beginRinging u glare)
    ∧ (s.settings.ringsToAnswer = 1 → (s.beginRinging u glare).checkRings u =
      (s.beginRinging u glare).answerRing u) := by
  have unit : (s.beginRinging u glare).unit u = (s.unit u).ringBegun glare := by
    rw [beginRinging_eq, unit_modScreen, withUnit_unit]
  have settings : (s.beginRinging u glare).settings = s.settings := rfl
  refine ⟨fun more => checkRings_waits (.inr ?_), fun one => checkRings_answers ?_ ?_⟩
  · rw [unit, settings]
    exact fun e => more e.symm
  · rw [unit, settings]
    exact one.symm
  · rw [unit]
    exact nofun

/-- The unit rings after a glare, its entry returned (R150). -/
theorem glare_eq : s.glare u =
    let t := (s.sendLink u .release).glareReturn u
    (((t.withUnit u { t.unit u with handOver := none, answered := false, result := none }).beginRinging u
      true).checkRings
      u).arbiterPasses := rfl

theorem glareReturn_none (h : (s.unit u).entry = none) : s.glareReturn u = s := by
  simp only [State.glareReturn, h]

theorem glareReturn_some {i : Nat} {e : DestEntry} (h : (s.unit u).entry = some i) (k : s.entry i = some e) :
    s.glareReturn u =
      let st : EntryState := if e.cancelPending then .cancelled else .ready
      let s1 := (s.modEntry i (fun x => { x with
          attempts := x.attempts - 1, unit := none, lastResult := some .glare, state := st,
          cancelPending := false })).post
        .sendQueue (.destResult i e.document e.desk (e.attempts - 1) (some u) st .glare e.confirmed e.orderSeq 0 0
          e.chargeTotal)
      if e.cancelPending then s1.finishEntry i e.document else s1.testDesk i := by
  simp only [State.glareReturn, h, k]

end ring

/-! ## An entry tested against its desk (R145) -/

section desk
variable {s : State} {i : Nat} {e : DestEntry}

/-- The entry is READY, its zone can cost, and its desk is not OPEN. -/
def State.mustHold (s : State) (e : DestEntry) : Prop :=
  e.state = .ready ∧ ((s.meter.tariff.lookup e.number).2.priced = true ∨ s.meter.logRoom = false)
    ∧ ∃ k, s.desk e.desk = some k ∧ k.state ≠ .opened

theorem chargeable_true_iff {m : Meter} {z : Zone} : m.chargeable z = true ↔ z.priced = true ∨ m.logRoom = false := by
  simp [Meter.chargeable]

theorem testDesk_holds (h : s.entry i = some e) (k : s.mustHold e) : s.testDesk i = s.holdEntry i := by
  obtain ⟨ready, cost, d, hd, shut⟩ := k
  have closed : s.deskOpen e.desk = false := by
    rw [State.deskOpen, hd]
    exact decide_eq_false shut
  simp only [State.testDesk, h]
  exact if_pos ⟨ready, chargeable_true_iff.2 cost, closed⟩

theorem testDesk_passes (h : s.entry i = some e) (k : ¬ s.mustHold e) (some : (s.desk e.desk).isSome) :
    s.testDesk i = s := by
  obtain ⟨d, hd⟩ := Option.isSome_iff_exists.1 some
  simp only [State.testDesk, h]
  refine if_neg ?_
  rintro ⟨ready, cost, closed⟩
  refine k ⟨ready, chargeable_true_iff.1 cost, d, hd, fun opened => ?_⟩
  rw [State.deskOpen, hd] at closed
  exact absurd opened (of_decide_eq_false closed)

end desk

/-! ## The answer (R108, R128) -/

theorem sendOffer_eq (s : State) (u : UnitId) (a : AnswererSession) (n : Nat) : s.sendOffer u a n =
    s.withUnit u { s.unit u with
      out := (s.unit u).out ++ [.sendFrame (.offer s.ownOffer)],
      answerer := some { a with
        phase := if s.readyFlag then .offering else .notReady, sends := n,
        wait := some (if s.readyFlag then .reply else .notReady) } } := by
  rw [State.sendOffer, State.sendFrame, sendLink_withUnit, State.setAnswerer, withUnit_modUnit]

theorem answerRing_eq (s : State) (u : UnitId) : s.answerRing u = (State.post (s.withUnit u { s.unit u with
    out := (s.unit u).out ++ [.answer], timer := none, role := some .answerer, state := .inSession,
    stats := { (s.unit u).stats with callsIn := min 4294967295 ((s.unit u).stats.callsIn + 1) } }) (.unit u)
    (.callIn u (s.unit u).ringCount (s.unit u).glare (s.unit u).caller)).startAnswerer u := by
  rw [State.answerRing, sendLink_withUnit, withUnit_modUnit]
  rfl

/-! ## The first CALLER (R107, R157) -/

section caller
variable {s : State} {u : UnitId} {number : Text}

theorem lookup_number (c : Screen) (h : ¬ (number ≠ [] ∧ number.length ≤ 20 ∧ ∀ x ∈ number, isNumberKey x = true)) :
    c.lookup .number number = none := by
  refine if_pos ?_
  by_contra k
  simp only [not_or, Nat.not_lt, Bool.not_eq_false, List.all_eq_true] at k
  exact h k

theorem lookup_number_key (c : Screen) (h : number ≠ [] ∧ number.length ≤ 20 ∧ ∀ x ∈ number, isNumberKey x = true) :
    c.lookup .number number = findKey .number number c.entries := by
  refine if_neg ?_
  simpa only [not_or, Nat.not_lt, Bool.not_eq_false, List.all_eq_true] using h

section found
variable {c : Screen} {now : Stamp}

theorem lookupRinging_none (h : c.lookup .number number = none) :
    c.lookupRinging u number now = (⟨.none, none⟩, c.setMatch u none) := by
  simp only [Screen.lookupRinging, h]

theorem lookupRinging_deny {i : Nat} {e : ScreenEntry} (h : c.lookup .number number = some (i, e))
    (k : e.kind = .deny) :
    c.lookupRinging u number now =
      (⟨.refused .denied, some ⟨.number, i⟩⟩, (c.modEntry i (ScreenEntry.count now)).setMatch u none) := by
  simp only [Screen.lookupRinging, h, k]

theorem lookupRinging_match {i : Nat} {e : ScreenEntry} (h : c.lookup .number number = some (i, e))
    (k : e.kind ≠ .deny) :
    c.lookupRinging u number now =
      (⟨.matched, none⟩, (c.modEntry i (fun x => { x with touched := true })).setMatch u (some (i, number))) := by
  cases kind : e.kind with
  | deny => exact absurd kind k
  | _ => simp only [Screen.lookupRinging, h, kind]

end found

theorem callerNumber_other (h : (s.unit u).state ≠ .ringing ∨ (s.unit u).caller ≠ none) : s.callerNumber u number =
    s := by
  refine if_neg ?_
  rintro ⟨ringing, first⟩
  exact h.elim (fun k => k ringing) (fun k => k first)

/-- The part after the lookup of a first CALLER (R157). -/
def State.callerTaken (s : State) (u : UnitId) (number : Text) : State :=
  { s.withUnit u { s.unit u with
      caller := some number, verdict := (s.screen.lookupRinging u number s.now).1.verdict } with
    screen := (s.screen.lookupRinging u number s.now).2 }

theorem callerNumber_refused {r : RefuseReason} (h : (s.unit u).state = .ringing) (k : (s.unit u).caller = none)
    (e : (s.screen.lookupRinging u number s.now).1.verdict = .refused r) : s.callerNumber u number =
      (s.callerTaken u number).callRefused u r (s.screen.lookupRinging u number s.now).1.refusing none := by
  unfold State.callerNumber
  dsimp only
  rw [if_pos ⟨h, k⟩]
  split
  next x e' =>
    cases e.symm.trans e'
    rfl
  next no => exact absurd e (no r)

theorem callerNumber_accepted (h : (s.unit u).state = .ringing) (k : (s.unit u).caller = none)
    (e : ∀ r, (s.screen.lookupRinging u number s.now).1.verdict ≠ .refused r) :
    s.callerNumber u number = s.callerTaken u number := by
  unfold State.callerNumber
  dsimp only
  rw [if_pos ⟨h, k⟩]
  split
  next r e' => exact absurd e' (e r)
  next => rfl

end caller

/-! ## The ring timer (R109) -/

theorem ringTimerExpired_rings {s : State} {u : UnitId} (h : (s.unit u).state = .ringing) : s.ringTimerExpired u =
    let q := (s.unit u).verdict.refusal
    ((((s.callMissed u (if q.isSome then .refused else .stopped) q).modUnit u LineUnit.clearRinging).enterIdle
      u).arbiterPasses) :=
  if_neg (by simp [h])

/-- Settles O52: RING by the unit's state (`ring_idle`, `ring_ringing`, `glare_eq`), the first CALLER by
`lookupRinging_deny` and `lookupRinging_match`. -/
theorem ringingCountsAndAnswers : Obligations.RingingCountsAndAnswers := by
  intro s u l put rung takes begun began more
  have rings {t : State} (h : s.ring u = t) : rung t :=
    congrArg (fun t => Host.Outcome.next (State.scanRetry t)) h
  have mode : l.receives = true ↔ takes := receives_iff l
  have ringing_unit : (put more).unit u = more := withUnit_unit s u more
  refine ⟨fun no k => rings (ring_declined (Bool.eq_false_iff.2 fun e => no (mode.1 e)) k),
    fun k no => rings ((ring_seizing k).trans (if_neg no)), fun h => rings (ring_none h), fun yes k => ?_,
    fun yes k => ?_, fun k both => ?_, glareReturn_none, fun i e h k => ?_, fun i e h => ?_, answerRing_eq s u, ?_,
    fun number h k => ?_, fun number => ?_, fun number h => congrArg Host.Outcome.next (callerNumber_other h),
    fun h => congrArg Host.Outcome.next (if_pos h), fun h => ?_⟩
  case refine_1 =>
    have begins := ring_idle (mode.2 yes) k
    exact ⟨fun n => rings (begins.trans ((begun_checkRings false).1 n)),
      fun one => rings (begins.trans ((begun_checkRings false).2 one))⟩
  case refine_2 =>
    have counts := ring_ringing (mode.2 yes) k
    refine ⟨fun wait => rings (counts.trans (checkRings_waits ?_)),
      fun free full => rings (counts.trans (checkRings_answers ?_ ?_))⟩
    · rw [withUnit_unit]
      exact wait
    · rw [withUnit_unit]
      exact full
    · rw [withUnit_unit]
      exact fun r e => free ⟨r, e⟩
  case refine_3 =>
    intro t t1
    have glares : s.ring u = s.glare u := (ring_seizing k).trans (if_pos both)
    have settings : t.settings = s.settings := (owes_glareReturn (s.sendLink u .release) u).same.fixed.settings
    have begins : (t.withUnit u { t.unit u with handOver := none, answered := false, result := none }).beginRinging u
      true =
        t1 := by
      rw [beginRinging_eq, withUnit_unit, withUnit_withUnit]
      rfl
    have checks := begun_checkRings (u := u) (s := t.withUnit u { t.unit u with
      handOver := none, answered := false, result := none }) true
    rw [begins] at checks
    have same : (t.withUnit u { t.unit u with handOver := none, answered := false, result := none }).settings =
      s.settings := settings
    rw [same] at checks
    refine ⟨fun n => rings (glares.trans (glare_eq.trans ?_)), fun one => rings (glares.trans (glare_eq.trans ?_))⟩
    · exact congrArg State.arbiterPasses ((congrArg (fun x => State.checkRings x u) begins).trans (checks.1 n))
    · exact congrArg State.arbiterPasses ((congrArg (fun x => State.checkRings x u) begins).trans (checks.2 one))
  case refine_4 =>
    intro st s1
    exact ⟨fun keep => (glareReturn_some h k).trans (if_neg (by simp [keep])),
      fun cancel => (glareReturn_some h k).trans (if_pos cancel)⟩
  case refine_5 =>
    intro z held
    refine ⟨fun hold first d hd => ?_, fun hold again => ?_, testDesk_passes h⟩
    · rw [testDesk_holds h hold, holdEntry_eq h hd, if_neg (by simp [first])]
    · obtain ⟨-, -, d, hd, -⟩ := id hold
      rw [testDesk_holds h hold, holdEntry_eq h hd, if_pos again]
  case refine_6 =>
    intro ready o
    exact sendOffer_eq s u _ 1
  case refine_7 =>
    intro a t
    refine ⟨fun r e => congrArg Host.Outcome.next ((callerNumber_refused h k e).trans ?_),
      fun free => congrArg Host.Outcome.next (callerNumber_accepted h k free)⟩
    have caller : ((s.callerTaken u number).unit u).caller = some number :=
      congrArg LineUnit.caller (withUnit_unit s u _)
    rw [State.callRefused, caller]
    rfl
  case refine_8 =>
    intro c key ans
    refine ⟨fun none => lookupRinging_none ?_, fun ok i e found => ⟨fun deny => lookupRinging_deny ?_ deny,
      fun other => lookupRinging_match ?_ other⟩⟩
    · by_cases ok : key
      · exact (lookup_number_key c ok).trans (none.resolve_left (fun k => k ok))
      · exact lookup_number c ok
    · exact (lookup_number_key c ok).trans found
    · exact (lookup_number_key c ok).trans found
  case refine_9 =>
    intro t
    have expires := ringTimerExpired_rings h
    refine ⟨fun r e => congrArg Host.Outcome.next (expires.trans ?_),
      fun free => congrArg Host.Outcome.next (expires.trans ?_)⟩
    · have q : (s.unit u).verdict.refusal = some r := congrArg RingVerdict.refusal e
      rw [q]
      rfl
    · have q : (s.unit u).verdict.refusal = none := (refusal_none_iff _).2 free
      rw [q]
      rfl

end Sys2Proof.Machine
end

section
/-! SUPPORT. An outgoing call up to its answer, the start of the caller's session, and the end of a call (R100 to
R103). -/

namespace Sys2Proof.Machine

open Sys2Proof

section call
variable {s : State} {u : UnitId}

theorem dialLimit_eq (t : Text) : dialLimit t = 20000 + 2000 * t.countP (fun c => c = 0x2C) := by
  rw [dialLimit, List.countP_eq_length_filter]
  rfl

theorem dialTone_dials {h : HandOver} (k : (s.unit u).state = .seizing) (e : (s.unit u).handOver = some h) :
    s.dialTone u = (s.sendLink u (.dial ((s.unit u).lead ++ h.number))).modUnit u (fun x =>
      { x with dialFailures := 0, state := .dialling, timer := some (dialLimit ((s.unit u).lead ++ h.number)) }) := by
  simp only [State.dialTone, k, e]

theorem dialTone_other (k : (s.unit u).state ≠ .seizing) : s.dialTone u = s := by
  unfold State.dialTone
  dsimp only
  split
  next e _ => exact absurd e k
  next => rfl

theorem busyTone_ends (k : (s.unit u).state = .dialling ∨ (s.unit u).state = .awaitAnswer) :
    s.busyTone u = s.endCall u .busy := by
  unfold State.busyTone
  rcases k with e | e <;> simp only [e]

theorem busyTone_other (k : (s.unit u).state ≠ .dialling) (l : (s.unit u).state ≠ .awaitAnswer) : s.busyTone u = s := by
  unfold State.busyTone
  split
  next e => exact absurd e k
  next e => exact absurd e l
  next => rfl

theorem startCaller_none (h : (s.unit u).handOver = none) : s.startCaller u = s := by
  simp only [State.startCaller, h]

/-- The caller's session as it starts (R118). -/
def callerStarts (h : HandOver) (total : Nat) : CallerSession :=
  { phase := .awaitOffer, document := h.document, total := total, position := h.confirmed, confirmed := h.confirmed,
    offer := none, ceiling := .r12000, order := none, withCheck := false, kind := .last, resends := 0, sends := 1,
    wait := some .offer }

theorem startCaller_some {h : HandOver} (k : (s.unit u).handOver = some h) : s.startCaller u =
    let total := (s.doc h.document).elim 0 (fun d => d.pages.length)
    let s1 := s.modUnit u (fun l => { l with callerSession := some (callerStarts h total) })
    if total ≤ h.confirmed then s1.callerSuccess u else s1 := by
  unfold State.startCaller
  cases e : s.doc h.document <;> simp only [k, e, Option.elim_none, Option.elim_some] <;> rfl

theorem dropSession_eq (l : LineUnit) : l.dropSession = { l with
    callerSession := none, answerer := none, tx := TxRecoder.reset, txFifo := [],
    rx := if RxItem.carrierLost ∈ l.rxFifo then { l.rx with page := none } else RxRecoder.reset,
    rxFifo := if RxItem.carrierLost ∈ l.rxFifo then l.rxFifo else [] } := by
  by_cases gone : RxItem.carrierLost ∈ l.rxFifo
  · simp only [LineUnit.dropSession, LineUnit.carrierGone, gone, decide_true, if_true]
  · simp only [LineUnit.dropSession, LineUnit.carrierGone, LineUnit.idleRecoders, gone, decide_false, if_false,
      Bool.false_eq_true]

theorem hangUp_eq : s.hangUp u =
    let t := s.withUnit u { s.unit u with out := (s.unit u).out ++ [.release], releaseTime := s.now }
    (if (s.unit u).answered then t.meterRelease u else t).modUnit u LineUnit.dropSession := by
  rw [State.hangUp, sendLink_withUnit, withUnit_modUnit]

theorem releaseCall_eq : s.releaseCall u =
    let t := s.withUnit u { s.unit u with out := (s.unit u).out ++ [.release], releaseTime := s.now }
    (if (s.unit u).answered then t.meterRelease u else t).modUnit u
      (fun x => { x.dropSession with state := .clearing, timer := some 2000 }) := by
  rw [State.releaseCall, hangUp_eq, modUnit_modUnit]

end call

/-- Settles O53: the messages by the unit's state, the session's start by `startCaller_some`, a call's end by
`releaseCall_eq`. -/
theorem outgoingCallStepsByState : Obligations.OutgoingCallStepsByState := by
  intro s u l put dropped
  refine ⟨fun h k e => ?_, fun k => ⟨congrArg Host.Outcome.next (dialTone_other k),
    congrArg Host.Outcome.next (if_neg k)⟩,
    fun k => congrArg Host.Outcome.next (if_pos k),
    fun k => ⟨congrArg Host.Outcome.next (if_pos k), congrArg Host.Outcome.next (if_pos k)⟩,
    fun k => ⟨congrArg Host.Outcome.next (if_neg k), congrArg Host.Outcome.next (if_neg k)⟩,
    fun k => congrArg Host.Outcome.next (busyTone_ends k), fun k m => congrArg Host.Outcome.next (busyTone_other k m),
    fun k => ⟨congrArg Host.Outcome.next (if_pos k), congrArg Host.Outcome.next (if_pos k)⟩,
    fun k => ⟨congrArg Host.Outcome.next (if_neg k), congrArg Host.Outcome.next (if_neg k)⟩, startCaller_none,
    fun h k => ?_, ?_, fun r => rfl, fun type => rfl, rfl⟩
  case refine_1 =>
    refine congrArg Host.Outcome.next ((dialTone_dials k e).trans ?_)
    rw [sendLink_withUnit, withUnit_modUnit, dialLimit_eq]
    rfl
  case refine_2 =>
    have starts := startCaller_some k
    exact ⟨fun more => starts.trans (if_neg (Nat.not_le_of_lt more)), fun none => starts.trans (if_pos none)⟩
  case refine_3 =>
    rw [releaseCall_eq]
    simp only [dropSession_eq]
    rfl

end Sys2Proof.Machine
end

section
/-! SUPPORT. The end of a call: IDLE and BLOCKED, LINE FAULT and LINE OK, and the outcome of an entry (R97, R103, R111,
R112, R147 to R149). -/

namespace Sys2Proof.Machine

open Sys2Proof

section unit
variable {s : State} {u : UnitId}

theorem restUnit_eq (st : CallState) : s.restUnit u st =
    { s.withUnit u { s.unit u with state := st, timer := none } with
      intake := { s.intake with restart := s.intake.restart.map (fun q => q.set u true) } } := by
  rw [State.restUnit, countRestart_eq]
  rfl

theorem enterIdle_none (h : (s.unit u).pendingMode = none) : s.enterIdle u = s.restUnit u .idle := by
  simp only [State.enterIdle, h]

theorem enterIdle_some {m : UnitMode} (h : (s.unit u).pendingMode = some m) : s.enterIdle u =
    let st : CallState := if m = .off then .off else .idle
    ((s.withUnit u { s.unit u with mode := m, pendingMode := none }).restUnit u st).postLineState u .modeApplied := by
  simp only [State.enterIdle, h]
  rfl

theorem postLineState_withUnit (x : LineUnit) (r : LineReason) : (s.withUnit u x).postLineState u r =
    (s.withUnit u x).post (.unit u) (.lineState u r x.state x.mode x.pendingMode) := by
  rw [State.postLineState, withUnit_unit]

theorem clearingDone_other (h : (s.unit u).state ≠ .clearing) : s.clearingDone u = s := if_pos h

theorem clearingDone_answerer (h : (s.unit u).state = .clearing) (k : (s.unit u).role ≠ some .caller) :
    s.clearingDone u = ((s.enterIdle u).modUnit u LineUnit.clearCall).arbiterPasses := by
  have other : decide ((s.unit u).role = some .caller) = false := decide_eq_false k
  unfold State.clearingDone
  simp only [h, other, ne_eq, not_true_eq_false, if_false, Bool.false_eq_true, false_and]

theorem clearingDone_caller (h : (s.unit u).state = .clearing) (k : (s.unit u).role = some .caller) :
    s.clearingDone u = (((if (s.unit u).dialFailures = 3 then (s.restUnit u .blocked).postLineState u .noDialTone
      else s.enterIdle u).outcome u).modUnit u LineUnit.clearCall).arbiterPasses := by
  have caller : decide ((s.unit u).role = some .caller) = true := decide_eq_true k
  unfold State.clearingDone
  simp only [h, caller, ne_eq, not_true_eq_false, if_false, if_true, true_and]

theorem lineFault_other (h : (s.unit u).state = .off ∨ (s.unit u).state = .blocked) : s.lineFault u = s := by
  unfold State.lineFault
  rcases h with e | e <;> simp only [e]

theorem lineFault_ends (h : (s.unit u).state ≠ .off) (k : (s.unit u).state ≠ .blocked) : s.lineFault u =
    let t := ((s.faultEnds u).restUnit u .blocked).postLineState u .lineFault
    ((if (s.unit u).role = some .caller then t.outcome u else t).modUnit u LineUnit.clearCall).arbiterPasses := by
  unfold State.lineFault
  split
  next e => exact absurd e h
  next e => exact absurd e k
  next =>
    dsimp only
    by_cases role : (s.unit u).role = some .caller
    · rw [if_pos role, decide_eq_true role, if_pos rfl]
    · rw [if_neg role, decide_eq_false role, if_neg Bool.false_ne_true]

theorem faultEnds_none (h : (s.unit u).state = .idle ∨ (s.unit u).state = .clearing) : s.faultEnds u = s := by
  unfold State.faultEnds
  rcases h with e | e <;> simp only [e]

theorem faultEnds_ringing (h : (s.unit u).state = .ringing) :
    s.faultEnds u = (s.callMissed u .lineFault none).modUnit u LineUnit.clearRinging := by
  simp only [State.faultEnds, h]

theorem faultEnds_call (h : (s.unit u).state = .seizing ∨ (s.unit u).state = .dialling ∨ (s.unit u).state = .awaitAnswer
    ∨ ((s.unit u).state = .inSession ∧ (s.unit u).role = some .caller)) :
    s.faultEnds u = (s.modUnit u (fun x => { x with result := some .lineFault })).hangUp u := by
  unfold State.faultEnds
  rcases h with e | e | e | ⟨e, role⟩
  · simp only [e]
  · simp only [e]
  · simp only [e]
  · simp only [e, role]

theorem faultEnds_reception {a : AnswererSession} (h : (s.unit u).state = .inSession)
    (k : (s.unit u).role ≠ some .caller) (session : (s.unit u).answerer = some a) :
    s.faultEnds u = (s.cutReception u a).hangUp u := by
  unfold State.faultEnds
  simp only [h]
  split
  next e => exact absurd e k
  next e _ => rw [Option.some.inj (e.symm.trans session)]
  next e _ => exact absurd (e.symm.trans session) nofun

theorem faultEnds_bare (h : (s.unit u).state = .inSession) (k : (s.unit u).role ≠ some .caller)
    (session : (s.unit u).answerer = none) : s.faultEnds u = s.hangUp u := by
  unfold State.faultEnds
  simp only [h]
  split
  next e => exact absurd e k
  next e _ => exact absurd (e.symm.trans session) nofun
  next => rfl

theorem lineOk_blocked (h : (s.unit u).state = .blocked) : s.lineOk u =
    (((s.modUnit u (fun l => { l with dialFailures := 0 })).enterIdle u).postLineState u .lineOk).arbiterPasses :=
  if_neg (by simp [h])

end unit

/-! ## The outcome of an entry (R147 to R149) -/

section outcome
variable {s : State} {u : UnitId}

theorem charges_any (ws : List MeterWork) (i : Nat) : ws.any (MeterWork.charges i) = true ↔
    ∃ c, MeterWork.release c ∈ ws ∧ c.record.entry = i := by
  rw [List.any_eq_true]
  constructor
  · rintro ⟨w, mem, owes⟩
    cases w with
    | release c => exact ⟨c, mem, of_decide_eq_true owes⟩
    | _ => exact absurd owes Bool.false_ne_true
  · rintro ⟨c, mem, owes⟩
    exact ⟨_, mem, decide_eq_true owes⟩

theorem outcome_none (h : (s.unit u).entry = none) : s.outcome u = s := by
  simp only [State.outcome, h]

theorem outcome_kept {i : Nat} (h : (s.unit u).entry = some i) (owed : s.meter.work.any (MeterWork.charges i) = true) :
    s.outcome u = { s with sendq := { s.sendq with reports := s.sendq.reports ++ [s.outcomeReport u i] } } := by
  simp only [State.outcome, h, owed, if_true]

theorem outcome_taken {i : Nat} (h : (s.unit u).entry = some i)
    (paid : ¬ s.meter.work.any (MeterWork.charges i) = true) :
    s.outcome u = s.takeOutcome (s.outcomeReport u i) := by
  simp only [State.outcome, h]
  exact if_neg paid

theorem pagesConfirmed_eq (i : Nat) : s.pagesConfirmed i = (s.entry i).elim 0 (fun e => e.confirmed) := by
  unfold State.pagesConfirmed
  cases s.entry i <;> rfl

theorem takeKept_takes {c : OutcomeReport} {e : DestEntry} (h : s.entry c.entry = some e) (k : e.state = .active
    ∧ e.unit = some c.unit ∧ (s.unit c.unit).entry ≠ some c.entry) : s.takeKept c = s.takeOutcome c := by
  simp only [State.takeKept, h]
  exact if_pos k

theorem takeKept_drops {c : OutcomeReport} (h : ∀ e, s.entry c.entry = some e → ¬ (e.state = .active
    ∧ e.unit = some c.unit ∧ (s.unit c.unit).entry ≠ some c.entry)) : s.takeKept c = s := by
  unfold State.takeKept
  split
  next e he => exact if_neg (h e he)
  next => rfl

theorem outcomeState_eq (e : DestEntry) (r : AttemptResult) : outcomeState e r =
    if e.cancelPending then .cancelled else if r = .success then .done
    else if r = .refused then .failed else if e.attempts < e.maxAttempts then .retryWait else .failed := by
  unfold outcomeState
  cases r <;> rfl

/-- An outcome is final unless a retry is to come (R148). -/
theorem outcomeState_final (e : DestEntry) (r : AttemptResult) :
    (outcomeState e r).final = true ↔ outcomeState e r ≠ .retryWait := by
  rw [outcomeState_eq]
  split
  · simp [EntryState.final]
  · split
    · simp [EntryState.final]
    · split
      · simp [EntryState.final]
      · split <;> simp [EntryState.final]

theorem halvesBetween_eq (a b : Stamp) : halvesBetween a b =
    (b.day * 172800 + b.half + 1209600 - (a.day * 172800 + a.half)) % 1209600 := by
  simp only [halvesBetween, Stamp.halves, Config.dayHalves, Config.weekHalves]

theorem later_eq (t : Stamp) (n : Nat) : t.later n =
    ⟨(t.day * 172800 + t.half + n) / 172800 % 7, (t.day * 172800 + t.half + n) % 172800, t.unset⟩ := by
  simp only [Stamp.later, Stamp.halves, Config.dayHalves]

theorem outcome_retries {e : DestEntry} {c : OutcomeReport} (h : outcomeState e c.result = .retryWait) (now : Stamp) :
    e.outcome c now = fun x => { x with
      unit := none, lastResult := some c.result, state := outcomeState e c.result, cancelPending := false,
      countdown := retryHalves e - halvesBetween c.releaseTime now,
      nextAttempt := c.releaseTime.later (retryHalves e) } :=
  funext fun x => by simp only [DestEntry.outcome, if_pos h]

theorem outcome_ends {e : DestEntry} {c : OutcomeReport} (h : outcomeState e c.result ≠ .retryWait) (now : Stamp) :
    e.outcome c now = fun x => { x with
      unit := none, lastResult := some c.result, state := outcomeState e c.result, cancelPending := false,
      countdown := 0 } :=
  funext fun x => by simp only [DestEntry.outcome, if_neg h]

/-- The part with an outcome in its entry, and DEST_RESULT asked for (R147). -/
def State.outcomeTold (s : State) (c : OutcomeReport) (e : DestEntry) : State :=
  (s.modEntry c.entry (e.outcome c s.now)).post .sendQueue
    (.destResult c.entry e.document e.desk e.attempts (some c.unit) (outcomeState e c.result) c.result c.confirmed
      e.orderSeq c.bytes (c.charge e) e.chargeTotal)

theorem takeOutcome_eq {c : OutcomeReport} {e : DestEntry} (h : s.entry c.entry = some e) : s.takeOutcome c =
    if (outcomeState e c.result).final then (s.outcomeTold c e).finishEntry c.entry e.document
    else if retryHalves e - halvesBetween c.releaseTime s.now = 0 then (s.outcomeTold c e).becomeReady c.entry
    else s.outcomeTold c e := by
  simp only [State.takeOutcome, h]
  rfl

end outcome

/-- Settles O54: the guard's expiry by `clearingDone_caller`, LINE FAULT by `lineFault_ends`, the outcome by
`takeOutcome_eq`. -/
theorem callsEndAndUnitsBlock : Obligations.CallsEndAndUnitsBlock := by
  intro s u l count rest dropped hung clear say
  have goes {t : State} (h : s.clearingDone u = t) : exec (.clearingGuardExpiry u) s = .next t.scanRetry :=
    congrArg (fun t => Host.Outcome.next (State.scanRetry t)) h
  have hangs (t : State) : t.hangUp u = hung t := by
    rw [hangUp_eq]
    refine congrArg (State.modUnit _ u) (funext fun x => ?_)
    exact dropSession_eq x
  have blocked : s.restUnit u .blocked = rest .blocked := restUnit_eq .blocked
  refine ⟨fun h => (enterIdle_none h).trans (restUnit_eq .idle), fun m h => ?_, fun h => goes (clearingDone_other h),
    fun h => ⟨fun k => goes (clearingDone_answerer h k), fun k more => ?_, fun k three => ?_⟩,
    fun h => congrArg (fun t => Host.Outcome.next (State.scanRetry t)) (lineFault_other h),
    fun h k => congrArg (fun t => Host.Outcome.next (State.scanRetry t)) (lineFault_ends h k), faultEnds_none,
    fun h => faultEnds_ringing h, fun h => (faultEnds_call h).trans (hangs _),
    fun a h k session => (faultEnds_reception h k session).trans (hangs _),
    fun h k session => (faultEnds_bare h k session).trans (hangs _), fun h => congrArg Host.Outcome.next (if_pos h),
    fun h => congrArg Host.Outcome.next (lineOk_blocked h), outcome_none, fun i h => ?_, fun i => rfl,
    fun c => ⟨fun e h active unit other => takeKept_takes h ⟨active, unit, other⟩, takeKept_drops⟩,
    fun c i e r hi h hr => ?_⟩
  case refine_1 =>
    intro st
    rw [enterIdle_some h]
    dsimp only
    rw [restUnit_eq, withUnit_unit, withUnit_withUnit]
    exact congrArg (fun x => State.post _ (.unit u) (.lineState u .modeApplied (LineUnit.state x) x.mode x.pendingMode))
      (withUnit_unit s u { l with mode := m, pendingMode := none, state := st, timer := none })
  case refine_2 =>
    refine goes ((clearingDone_caller h k).trans ?_)
    rw [if_neg more]
    rfl
  case refine_3 =>
    refine goes ((clearingDone_caller h k).trans ?_)
    rw [if_pos three, blocked]
    rfl
  case refine_4 =>
    intro told owed
    have report : s.outcomeReport u i = told := by
      rw [State.outcomeReport, pagesConfirmed_eq]
    have owes := charges_any s.meter.work i
    exact ⟨fun k => report ▸ outcome_kept h (owes.2 k), fun k => report ▸ outcome_taken h (fun y => k (owes.1 y))⟩
  case refine_5 =>
    subst hi hr
    intro st at_ due d wait s1
    have state : outcomeState e c.result = st := outcomeState_eq e c.result
    have takes := takeOutcome_eq h
    have left : retryHalves e - halvesBetween c.releaseTime s.now = wait := by
      rw [halvesBetween_eq, retryHalves]
    have next : c.releaseTime.later (retryHalves e) =
        ⟨(due / 172800) % 7, due % 172800, c.releaseTime.unset⟩ := by
      rw [later_eq, retryHalves]
    rw [left] at takes
    have final : (outcomeState e c.result).final = true ↔ st ≠ .retryWait := state ▸ outcomeState_final e c.result
    have told (again : Bool) (same : again = true ↔ st = .retryWait) : s.outcomeTold c e = s1 again := by
      cases again with
      | true =>
        rw [State.outcomeTold, outcome_retries (state.trans (same.1 rfl)), state, left, next, OutcomeReport.charge]
        simp only [s1, if_true]
      | false =>
        have other : st ≠ .retryWait := fun k => Bool.false_ne_true (same.2 k)
        rw [State.outcomeTold, outcome_ends (state ▸ other), state, OutcomeReport.charge]
        simp only [s1, Bool.false_eq_true, if_false]
    refine ⟨fun ended => ?_, fun retry more => ?_, fun retry none => ?_⟩
    · rw [takes, if_pos (final.2 ended), told false ⟨nofun, fun k => absurd k ended⟩]
      rfl
    · rw [takes, if_neg (fun k => final.1 k retry), told true ⟨fun _ => retry, fun _ => rfl⟩]
      exact if_neg more
    · rw [takes, if_neg (fun k => final.1 k retry), told true ⟨fun _ => retry, fun _ => rfl⟩]
      exact if_pos none

end Sys2Proof.Machine
end

section
/-! SUPPORT. The caller's session: OFFER, ORDER, the page and its verdict (R118 to R127). -/

namespace Sys2Proof.Machine

open Sys2Proof

/-! ## The codes of an OFFER (R116) -/

theorem rateOf_iff (n : Nat) (r : Rate) : rateOf n = some r ↔ n = rateCode r := by
  unfold rateOf
  cases r <;> simp only [rateCode] <;> repeat' split
  all_goals simp_all

theorem formOf_iff (n : Nat) (f : Form) : formOf n = some f ↔ n = formCode f := by
  unfold formOf
  cases f <;> simp only [formCode] <;> repeat' split
  all_goals simp_all

theorem lineTimeOk_iff (b : Byte) : lineTimeOk b = true ↔ b.toNat ∈ [0, 5, 10, 20, 40] := by
  simp [lineTimeOk]

theorem flagOf_iff (b : Byte) : flagOf b = true ↔ b ≠ 0 := by
  simp [flagOf]

/-- An OFFER passes when each of its fields is one of its values. -/
theorem checkOffer_iff (f : OfferFields) (o : OfferMode) : checkOffer f = some o ↔
    rateOf f.maxRate.toNat = some o.maxRate ∧ formOf f.forms.toNat = some o.forms
    ∧ widthOf f.maxWidth.toNat = some o.maxWidth ∧ lineTimeOk f.minLineTime = true ∧ o.minLineTime = f.minLineTime.toNat
    ∧ f.station.length ≤ 20 ∧ o.station = f.station ∧ o.fine = flagOf f.fine ∧ o.ready = flagOf f.ready := by
  obtain ⟨station, maxRate, forms, fine, maxWidth, minLineTime, ready⟩ := o
  unfold checkOffer
  cases rateOf f.maxRate.toNat with
  | none => simp
  | some r =>
    cases formOf f.forms.toNat with
    | none => simp
    | some p =>
      cases widthOf f.maxWidth.toNat with
      | none => simp
      | some w =>
        by_cases fits : lineTimeOk f.minLineTime = true ∧ f.station.length ≤ 20
        · simp only [fits.1, fits.2, Option.some.injEq, true_and]
          constructor
          · rintro ⟨rfl, rfl, rfl, rfl, rfl, rfl, rfl⟩
            simp
          · rintro ⟨rfl, rfl, rfl, rfl, rfl, rfl, rfl⟩
            simp
        · simp only [if_neg fits]
          constructor
          · exact nofun
          · rintro ⟨-, -, -, time, -, station, -⟩
            exact absurd ⟨time, station⟩ fits

/-! ## Commands of the caller (R120 to R124) -/

section caller
variable {s : State} {u : UnitId} {c : CallerSession}

/-- The ORDER for a page (R120). -/
def State.orderFor (s : State) (c : CallerSession) (o : OfferMode) (position : Nat) (r : PageRec) : OrderMode :=
  { station := s.settings.station, rate := rateMin c.ceiling o.maxRate, form := o.forms,
    resolution := if r.resolution = .fine ∧ o.fine = false then .normal else r.resolution,
    width := widthMin r.width o.maxWidth, minLineTime := o.minLineTime, pagesToCome := c.total - position }

theorem formOrder_some {o : OfferMode} {position p : Nat} {r : PageRec} (h : c.offer = some o)
    (k : s.readPage c.document position = .isSealed p r) : s.formOrder c position =
      some (s.orderFor c o position r) := by
  simp only [State.formOrder, h, k]
  rfl

/-- A unit after its ORDER, and after SET RATE and SEND CHECK where it carries a check (R120). -/
def LineUnit.ordered (x : LineUnit) (c : CallerSession) (m : OrderMode) (check : Bool) : LineUnit :=
  { x with
    out := x.out ++ ([.sendFrame (.order m)] ++ if check then [.setRate m.rate, .sendCheck] else []),
    callerSession := some { c with
      phase := .checking, order := some m, withCheck := check, sends := 1, wait := some .reply } }

theorem sendOrder_some {m : OrderMode} (check : Bool) (h : s.formOrder c c.position = some m) :
    s.sendOrder u c check = s.withUnit u ((s.unit u).ordered c m check) := by
  simp only [State.sendOrder, h, State.sendFrame, State.sendCheckFor, sendLink_withUnit]
  cases check with
  | false =>
    simp only [Bool.false_eq_true, if_false, withUnit_modUnit]
    rfl
  | true =>
    simp only [if_true, withUnit_unit, withUnit_withUnit, withUnit_modUnit, List.append_assoc]
    rfl

theorem rateStep_fails {o : OrderMode} (h : c.order = some o) (low : o.rate = .r2400) (fail : AttemptResult) :
    s.rateStep u c fail = s.endCall u fail := by
  simp only [State.rateStep, h, low, rateBelow]

theorem rateStep_steps {o : OrderMode} {r : Rate} (h : c.order = some o) (below : rateBelow o.rate = some r)
    (fail : AttemptResult) : s.rateStep u c fail = s.sendOrder u { c with ceiling := r, resends := 0 } true := by
  simp only [State.rateStep, h, below]

theorem minLineBytes_eq (rate ms : Nat) : minLineBytes rate ms = (rate * ms + 7999) / 8000 := by
  rw [minLineBytes, ceilDiv, Nat.add_sub_assoc (by decide)]

theorem beginCallerPage_some {o : OrderMode} {p : Nat} {r : PageRec} (h : c.order = some o)
    (k : s.readPage c.document c.position = .isSealed p r) : s.beginCallerPage u c = s.withUnit u { s.unit u with
      txFifo := [],
      tx := { page := some p, width := r.width, resolution := r.resolution, order := o,
              minimum := minLineBytes (rateBits o.rate) o.minLineTime, offset := 0,
              linesLeft := r.lines, storedRef := [], outRef := [], out := [], fill := 0,
              ended := false, begun := false, wire := 0 },
      callerSession := some { c with phase := .sending, kind := s.pageKind c o, wait := none } } := by
  simp only [State.beginCallerPage, h, State.txStart, k, modUnit_withUnit s u, withUnit_modUnit]

theorem pageKind_last {o : OrderMode} (h : c.total ≤ c.position + 1) : s.pageKind c o = .last := if_pos h

theorem pageKind_next {o n : OrderMode} (h : ¬ c.total ≤ c.position + 1) (k : s.formOrder c (c.position + 1) = some n) :
    s.pageKind c o = if n.resolution = o.resolution ∧ n.width = o.width then .more else .mode := by
  simp only [State.pageKind, if_neg h, k]
  by_cases same : n.resolution = o.resolution ∧ n.width = o.width
  · rw [if_pos same, if_neg (by simp [same])]
  · rw [if_neg same, if_pos (by by_contra other; exact same (by simpa using other))]

theorem confirmPage_eq (n : Nat) : s.confirmPage u n = { s with sendq := { s.sendq with
    entries := match (s.unit u).entry with
      | some i => tmod s.sendq.entries i (fun e => { e with confirmed := n })
      | none => s.sendq.entries } } := by
  unfold State.confirmPage
  cases (s.unit u).entry <;> rfl

end caller

/-! ## Messages by phase -/

section messages
variable {s : State} {u : UnitId} {c : CallerSession}

theorem takeOffer_none {o : OfferMode} (h : (s.unit u).state ≠ .awaitAnswer) (k : s.caller u = none) :
    s.takeOffer u o = s := by
  simp only [State.takeOffer, if_neg h, k]

theorem takeOffer_some {o : OfferMode} (h : (s.unit u).state ≠ .awaitAnswer) (k : s.caller u = some c) :
    s.takeOffer u o = if c.phase = .awaitOffer then s.callerOffer u c o else s := by
  simp only [State.takeOffer, if_neg h, k]

theorem takeOffer_answers_none {o : OfferMode} (h : (s.unit u).state = .awaitAnswer)
    (k : (s.answered u).caller u = none) :
    s.takeOffer u o = s.answered u := by
  simp only [State.takeOffer, if_pos h, k]

theorem takeOffer_answers {o : OfferMode} (h : (s.unit u).state = .awaitAnswer) (k : (s.answered u).caller u = some c) :
    s.takeOffer u o = if c.phase = .awaitOffer then (s.answered u).callerOffer u c o else s.answered u := by
  simp only [State.takeOffer, if_pos h, k]

theorem offer_good {f : OfferFields} {o : OfferMode} (h : checkOffer f = some o) :
    exec (.offer u f) s = .next (s.takeOffer u o) :=
  congrArg Host.Outcome.next (by simp only [h])

theorem offer_bad {f : OfferFields} (h : checkOffer f = none) : exec (.offer u f) s = .next s :=
  congrArg Host.Outcome.next (by simp only [h, State.ignoreFrame])

theorem callerMessages_none (h : s.caller u = none) (r : AttemptResult) : s.callerReady u = s ∧ s.callerSlower u = s
    ∧ s.callerGood u = s ∧ s.callerRedo u = s ∧ s.callerFails u r = s := by
  simp only [State.callerReady, State.callerSlower, State.callerGood, State.callerRedo, State.callerFails, h, and_self]

theorem callerReady_some (h : s.caller u = some c) :
    s.callerReady u = if c.phase = .checking then s.beginCallerPage u c else s := by
  simp only [State.callerReady, h]

theorem callerSlower_some (h : s.caller u = some c) :
    s.callerSlower u = if c.phase = .checking then s.rateStep u c .checkFailed else s := by
  simp only [State.callerSlower, h]

/-- The session after GOOD (R123). -/
def CallerSession.goneOn (c : CallerSession) : CallerSession :=
  { c with confirmed := c.confirmed + 1, position := c.position + 1, resends := 0, wait := none }

theorem callerGood_other (h : s.caller u = some c) (k : c.phase ≠ .awaitVerdict) : s.callerGood u = s := by
  simp only [State.callerGood, h]
  exact if_pos k

/-- The part with the page confirmed (R123). -/
def State.pageKept (s : State) (u : UnitId) (c : CallerSession) : State :=
  (s.confirmPage u (c.confirmed + 1)).modUnit u (fun l => { l with callerSession := some c.goneOn })

theorem callerGood_verdict (h : s.caller u = some c) (k : c.phase = .awaitVerdict) :
    (c.kind = .more → s.callerGood u = (s.pageKept u c).beginCallerPage u c.goneOn)
    ∧ (c.kind = .mode → s.callerGood u = (s.pageKept u c).sendOrder u c.goneOn false)
    ∧ (c.kind = .last → s.callerGood u = (s.pageKept u c).callerSuccess u) := by
  have verdict : ¬ c.phase ≠ .awaitVerdict := fun n => n k
  refine ⟨fun e => ?_, fun e => ?_, fun e => ?_⟩
  all_goals
    unfold State.callerGood
    simp only [h, if_neg verdict]
  · split
    next => rfl
    next m => exact absurd (e.symm.trans m) nofun
    next m => exact absurd (e.symm.trans m) nofun
  · split
    next m => exact absurd (e.symm.trans m) nofun
    next => rfl
    next m => exact absurd (e.symm.trans m) nofun
  · split
    next m => exact absurd (e.symm.trans m) nofun
    next m => exact absurd (e.symm.trans m) nofun
    next => rfl

theorem callerRedo_other (h : s.caller u = some c) (k : c.phase ≠ .awaitVerdict) : s.callerRedo u = s := by
  simp only [State.callerRedo, h]
  exact if_pos k

theorem callerRedo_verdict (h : s.caller u = some c) (k : c.phase = .awaitVerdict) : s.callerRedo u =
    let s1 := s.withUnit u { s.unit u with
      stats := { (s.unit u).stats with redosReceived := min 4294967295 ((s.unit u).stats.redosReceived + 1) } }
    if c.resends < 2 then s1.beginCallerPage u { c with resends := c.resends + 1 } else s1.rateStep u c .pageFailed :=
      by
  simp only [State.callerRedo, h]
  exact if_neg (by simp [k])

theorem callerFails_some (h : s.caller u = some c) (r : AttemptResult) : s.callerFails u r = s.endCall u r := by
  simp only [State.callerFails, h]

/-- A unit whose call has just ended answers nothing any more. -/
theorem endCall_answering (s : State) (u : UnitId) (r : AttemptResult) : (s.endCall u r).answering u = none := by
  have state : ((s.endCall u r).unit u).state = .clearing := by
    rw [State.endCall, State.releaseCall, State.unit_modUnit_same]
  exact if_neg (by simp [state])

end messages

/-- Settles O55: an ORDER by `sendOrder_some`, a page by `beginCallerPage_some`, each message by its phase. -/
theorem callerSessionFollowsItsPhases : Obligations.CallerSessionFollowsItsPhases := by
  intro s u l put
  refine ⟨?_, fun f => offer_bad, fun h f o good => ?_, fun h none f => ?_, fun none => ?_, fun c h => ?_⟩
  case refine_1 =>
    intro rate form wide f o
    have r : rateOf f.maxRate.toNat = some o.maxRate ↔ f.maxRate.toNat = rate o.maxRate := by
      rw [rateOf_iff]
      cases o.maxRate <;> rfl
    have p : formOf f.forms.toNat = some o.forms ↔ f.forms.toNat = form o.forms := by
      rw [formOf_iff]
      cases o.forms <;> rfl
    have w : widthOf f.maxWidth.toNat = some o.maxWidth ↔ f.maxWidth.toNat = wide o.maxWidth :=
      widthOf_iff.trans (by cases o.maxWidth <;> rfl)
    have fine : o.fine = flagOf f.fine ↔ (o.fine = true ↔ f.fine ≠ 0) := by
      rw [← flagOf_iff, Bool.eq_iff_iff]
    have ready : o.ready = flagOf f.ready ↔ (o.ready = true ↔ f.ready ≠ 0) := by
      rw [← flagOf_iff, Bool.eq_iff_iff]
    rw [checkOffer_iff, r, p, w, lineTimeOk_iff, fine, ready]
  case refine_2 =>
    intro t
    refine ⟨fun none => (offer_good good).trans (congrArg Host.Outcome.next (takeOffer_answers_none h none)),
      fun c k => ⟨fun phase => ?_, fun phase => ?_⟩⟩
    · exact (offer_good good).trans (congrArg Host.Outcome.next ((takeOffer_answers h k).trans (if_pos phase)))
    · exact (offer_good good).trans (congrArg Host.Outcome.next ((takeOffer_answers h k).trans (if_neg phase)))
  case refine_3 =>
    cases good : checkOffer f with
    | none => exact offer_bad good
    | some o => exact (offer_good good).trans (congrArg Host.Outcome.next (takeOffer_none h none))
  case refine_4 =>
    obtain ⟨ready, slower, good, redo, stop⟩ := callerMessages_none none .refused
    exact ⟨congrArg Host.Outcome.next ready, congrArg Host.Outcome.next slower, congrArg Host.Outcome.next good,
      congrArg Host.Outcome.next redo, congrArg Host.Outcome.next stop⟩
  case refine_5 =>
    intro sent formed step
    have waiting : l.state ≠ .awaitAnswer := by
      rw [show l.state = .inSession from (caller_eq_some.1 h).1]
      exact nofun
    have fails (r : AttemptResult) : s.callerFails u r = s.endCall u r := callerFails_some h r
    have steps {t : State} {o : OrderMode} (ho : c.order = some o) (read : ∀ d i, t.readPage d i = s.readPage d i)
        (same : t.settings = s.settings) (fail : AttemptResult) : step t o fail (t.rateStep u c fail) := by
      refine ⟨fun low => rateStep_fails ho low fail, fun r q p y below hq hp => (rateStep_steps ho below fail).trans ?_⟩
      have session : ({ c with ceiling := r, resends := 0 } : CallerSession) =
          { c with offer := some q, ceiling := r, resends := 0 } := by rw [← hq]
      have sends := sendOrder_some (u := u) (c := { c with offer := some q, ceiling := r, resends := 0 }) true
        (formOrder_some rfl ((read _ _).trans hp))
      rw [State.orderFor, same] at sends
      rw [session]
      exact sends
    refine ⟨fun phase f => ?_, fun phase f o good => ⟨fun busy => ?_, fun ready p r hp => ?_⟩, fun phase => ⟨?_, ?_⟩,
      fun o phase ho => ⟨?_, ?_, rfl⟩, fun o p r ho hp => ⟨?_, pageKind_last, fun more q p' r' hq hp' => ?_⟩,
      fun phase => ⟨congrArg Host.Outcome.next (callerGood_other h phase),
      congrArg Host.Outcome.next (callerRedo_other h phase)⟩,
      fun phase => ?_, congrArg Host.Outcome.next (fails .refused), ?_, ?_⟩
    · cases good : checkOffer f with
      | none => exact offer_bad good
      | some o =>
        refine (offer_good good).trans (congrArg Host.Outcome.next ?_)
        exact (takeOffer_some waiting h).trans (if_neg phase)
    · refine (offer_good good).trans (congrArg Host.Outcome.next ?_)
      exact (takeOffer_some waiting h).trans ((if_pos phase).trans (if_neg (by simp [busy])))
    · refine (offer_good good).trans (congrArg Host.Outcome.next ?_)
      refine (takeOffer_some waiting h).trans ((if_pos phase).trans ((if_pos ready).trans ?_))
      exact sendOrder_some (c := { c with offer := some o }) true (formOrder_some rfl hp)
    · exact congrArg Host.Outcome.next ((callerReady_some h).trans (if_neg phase))
    · exact congrArg Host.Outcome.next ((callerSlower_some h).trans (if_neg phase))
    · exact congrArg Host.Outcome.next ((callerReady_some h).trans (if_pos phase))
    · rw [callerSlower_some h, if_pos phase]
      exact steps ho (fun _ _ => rfl) rfl .checkFailed
    · rw [beginCallerPage_some ho hp, minLineBytes_eq]
      rfl
    · exact (pageKind_next (Nat.not_le_of_lt more) (formOrder_some hq hp')).trans rfl
    · intro c1 s1 r1 redone
      have kept : s.pageKept u c = s1 := by
        rw [State.pageKept, confirmPage_eq]
        rfl
      obtain ⟨more, mode, last⟩ := callerGood_verdict h phase
      rw [kept] at more mode last
      have redo := callerRedo_verdict h phase
      refine ⟨fun e => congrArg Host.Outcome.next (more e), fun e => congrArg Host.Outcome.next (mode e),
        fun e q p r hq hp => ?_, fun e => congrArg Host.Outcome.next (last e),
        fun few => congrArg Host.Outcome.next (redo.trans (if_pos few)), fun many o ho => ⟨?_, rfl⟩⟩
      · exact sendOrder_some (s := s1) (c := c1) false (formOrder_some hq hp)
      · rw [redo]
        dsimp only
        rw [if_neg (Nat.not_lt.2 many)]
        exact steps (t := put redone) ho (fun _ _ => rfl) rfl .pageFailed
    · refine congrArg (fun t => Host.Outcome.next (State.scanRetry t)) ?_
      rw [fails, State.answererRelease, endCall_answering]
    · refine congrArg (fun t => Host.Outcome.next (State.scanRetry t)) ?_
      rw [fails, State.answererCarrierLost, endCall_answering]

end Sys2Proof.Machine
end

section
/-! SUPPORT. The answering session: ORDER and its lookup, the page and its verdict, the departure (R128 to R134,
R156 to R161). -/

namespace Sys2Proof.Machine

open Sys2Proof

/-- An ORDER passes when each of its fields is one of its values (R116). -/
theorem checkOrder_iff (f : OrderFields) (o : OrderMode) : checkOrder f = some o ↔
    rateOf f.rate.toNat = some o.rate ∧ formOf f.form.toNat = some o.form
    ∧ resolutionOf f.resolution.toNat = some o.resolution ∧ widthOf f.width.toNat = some o.width
    ∧ lineTimeOk f.minLineTime = true ∧ o.minLineTime = f.minLineTime.toNat
    ∧ f.station.length ≤ 20 ∧ o.station = f.station ∧ f.pagesToCome.toNat ≤ 250 ∧ o.pagesToCome =
      f.pagesToCome.toNat := by
  obtain ⟨station, rate, form, resolution, width, minLineTime, pagesToCome⟩ := o
  unfold checkOrder
  cases rateOf f.rate.toNat with
  | none => simp
  | some r =>
    cases formOf f.form.toNat with
    | none => simp
    | some p =>
      cases resolutionOf f.resolution.toNat with
      | none => simp
      | some v =>
        cases widthOf f.width.toNat with
        | none => simp
        | some w =>
          by_cases fits : lineTimeOk f.minLineTime = true ∧ f.station.length ≤ 20 ∧ f.pagesToCome.toNat ≤ 250
          · simp only [fits, Option.some.injEq, true_and, if_true, and_true]
            constructor
            · rintro ⟨rfl, rfl, rfl, rfl, rfl, rfl, rfl⟩
              simp
            · rintro ⟨rfl, rfl, rfl, rfl, rfl, rfl, rfl⟩
              simp
          · simp only [if_neg fits]
            constructor
            · exact nofun
            · rintro ⟨-, -, -, -, time, -, station, -, pages, -⟩
              exact absurd ⟨time, station, pages⟩ fits

/-! ## The lookup at ORDER (R158, R159) -/

section screen
variable {st nm : Option (Nat × ScreenEntry)} {mode : ScreenMode} {i : Nat} {e : ScreenEntry}

theorem matchIs_iff (k : ScreenKind) (x : Option (Nat × ScreenEntry)) :
    matchIs k x = true ↔ ∃ i e, x = some (i, e) ∧ e.kind = k := by
  cases x with
  | none => simp [matchIs]
  | some y =>
    obtain ⟨i, e⟩ := y
    simp [matchIs]

theorem not_matchIs_iff (k : ScreenKind) (x : Option (Nat × ScreenEntry)) :
    matchIs k x = false ↔ ¬ ∃ i e, x = some (i, e) ∧ e.kind = k := by
  rw [← matchIs_iff, Bool.not_eq_true]

theorem decideOrder_denied_station (h : e.kind = .deny) :
    decideOrder mode (some (i, e)) nm = .refused .denied (some ⟨.station, i⟩) :=
  if_pos (decide_eq_true h)

theorem decideOrder_denied_number (h : matchIs .deny st = false) (k : e.kind = .deny) :
    decideOrder mode st (some (i, e)) = .refused .denied (some ⟨.number, i⟩) :=
  (if_neg (by simp [h])).trans (if_pos (decide_eq_true k))

theorem decideOrder_unlisted (h : matchIs .deny st = false) (k : matchIs .deny nm = false) (m : mode = .listedOnly)
    (hs : matchIs .allow st = false) (hn : matchIs .allow nm = false) :
    decideOrder mode st nm = .refused .notListed none :=
  (if_neg (by simp [h])).trans ((if_neg (by simp [k])).trans (if_pos ⟨m, hs, hn⟩))

/-- With no refusal by kind or mode the governing entry decides (R159). -/
theorem decideOrder_listed (h : matchIs .deny st = false) (k : matchIs .deny nm = false)
    (m : mode ≠ .listedOnly ∨ matchIs .allow st = true ∨ matchIs .allow nm = true) :
    (∀ i e, st = some (i, e) ∨ (st = none ∧ nm = some (i, e)) →
      (0 < e.budget ∧ e.budgetLeft = 0 → decideOrder mode st nm = .refused .budget (some ⟨e.keyKind, i⟩))
      ∧ (¬ (0 < e.budget ∧ e.budgetLeft = 0) → decideOrder mode st nm = .accepted (some (i, e))))
    ∧ (st = none → nm = none → decideOrder mode st nm = .accepted none) := by
  have listed : ¬ (mode = .listedOnly ∧ matchIs .allow st = false ∧ matchIs .allow nm = false) := by
    rintro ⟨only, station, number⟩
    obtain other | allowed | allowed := m
    · exact other only
    · exact nomatch station.symm.trans allowed
    · exact nomatch number.symm.trans allowed
  refine ⟨fun i e governs => ?_, fun noStation noNumber => ?_⟩
  · unfold decideOrder
    rw [if_neg (by simp [h]), if_neg (by simp [k]), if_neg listed]
    obtain rfl | ⟨rfl, rfl⟩ := governs
    · exact ⟨fun spent => if_pos spent, fun left => if_neg left⟩
    · exact ⟨fun spent => if_pos spent, fun left => if_neg left⟩
  · unfold decideOrder
    rw [if_neg (by simp [h]), if_neg (by simp [k]), if_neg listed, noStation, noNumber]

theorem numberMatch_none {c : Screen} {u : UnitId} (h : c.ringMatch.get u = none) : c.numberMatch u = none := by
  simp only [Screen.numberMatch, h]

theorem numberMatch_some {c : Screen} {u : UnitId} {n : Text} (h : c.ringMatch.get u = some (i, n)) :
    (∀ e, tget c.entries i = some e → e.keyKind = .number → e.key = n → c.numberMatch u = some (i, e))
    ∧ ((∀ e, tget c.entries i = some e → ¬ (e.keyKind = .number ∧ e.key = n)) → c.numberMatch u = none) := by
  unfold Screen.numberMatch
  simp only [h]
  refine ⟨fun e found kind key => ?_, fun other => ?_⟩
  · simp only [found]
    exact if_pos ⟨kind, key⟩
  · cases found : tget c.entries i with
    | none => rfl
    | some e => exact if_neg (other e found)

end screen

section lookup
variable {s : State} {u : UnitId} {station : Text} {i : Nat} {e : ScreenEntry}

theorem lookupOrder_denied {b : Refusing}
    (h : decideOrder s.screen.mode (s.screen.lookup .station station) (s.screen.numberMatch u) =
      .refused .denied (some b)) :
    s.lookupOrder u station = (.refused .denied (some b), s.modScreen (fun c =>
      (c.modEntry b.entry (ScreenEntry.count s.now)).setMatch u none)) := by
  simp only [State.lookupOrder, h]
  rfl

theorem lookupOrder_refused {r : RefuseReason} {b : Option Refusing} (other : r ≠ .denied)
    (h : decideOrder s.screen.mode (s.screen.lookup .station station) (s.screen.numberMatch u) = .refused r b) :
    s.lookupOrder u station = (.refused r b, s.modScreen (fun c => c.setMatch u none)) := by
  simp only [State.lookupOrder]
  rw [h]
  cases r with
  | denied => exact absurd rfl other
  | _ => rfl

theorem lookupOrder_governed
    (h : decideOrder s.screen.mode (s.screen.lookup .station station) (s.screen.numberMatch u) =
      .accepted (some (i, e))) :
    let t := s.modScreen (fun c => (c.modEntry i (ScreenEntry.accept s.now)).setMatch u none)
    s.lookupOrder u station = (.accepted ⟨e.desk, e.copies, e.flash⟩,
      if s.screen.lookup .station station = none then t.learnCaller u station else t) := by
  simp only [State.lookupOrder, h]
  rfl

theorem lookupOrder_unknown
    (h : decideOrder s.screen.mode (s.screen.lookup .station station) (s.screen.numberMatch u) = .accepted none) :
    let t := s.modScreen (fun c => c.setMatch u none)
    s.lookupOrder u station = (.accepted ⟨0, 1, false⟩,
      if s.screen.lookup .station station = none then t.learnCaller u station else t) := by
  simp only [State.lookupOrder, h]
  rfl

/-- What a caller must show to be learned (R156, R161). -/
theorem learns_iff (c : Screen) (u : UnitId) :
    c.learns u = true ↔ c.mode = .opened ∨ (c.mode = .denyListed ∧ c.learn.get u = true) := by
  unfold Screen.learns
  cases c.mode <;> simp

theorem learnCaller_stays (h : ¬ (station ≠ [] ∧ (∀ x ∈ station, isStationKey x = true) ∧ s.screen.learns u = true)) :
    s.learnCaller u station = s := by
  refine if_pos ?_
  by_contra k
  simp only [not_or, Bool.not_eq_false, List.all_eq_true] at k
  exact h k

theorem learnCaller_learns (h : station ≠ [] ∧ (∀ x ∈ station, isStationKey x = true) ∧ s.screen.learns u = true) :
    (∀ i, lowestFree 256 s.screen.entries = some i → s.learnCaller u station =
      s.modScreen (fun c => { c with entries := tset c.entries i (learnedEntry station s.now) }))
    ∧ (lowestFree 256 s.screen.entries = none → s.learnCaller u station = if s.screen.fullReported then s
      else (s.modScreen (fun c => { c with fullReported := true })).post .callerScreen (.screenFull u station)) := by
  have open_ : ¬ (station = [] ∨ station.all isStationKey = false ∨ s.screen.learns u = false) := by
    simpa only [not_or, Bool.not_eq_false, List.all_eq_true] using h
  unfold State.learnCaller
  dsimp only
  rw [if_neg open_]
  refine ⟨fun i free => ?_, fun full => ?_⟩
  · simp only [show Config.screenEntries = 256 from rfl, free]
  · simp only [show Config.screenEntries = 256 from rfl, full]

end lookup

/-! ## The receive recoder's page (R8, R42) -/

section recoder
variable {s : State} {u : UnitId}

theorem abandonPage_units (s : State) (p : Nat) : (s.abandonPage p).units = s.units := by
  cases h : s.page p with
  | none => simp only [State.abandonPage, h]
  | some x =>
    rw [abandonPage_eq h]
    exact (returnBlocks_units s _).1

/-- A page that is abandoned leaves its unit as it was but for the recoder (R8, R42). -/
theorem rxAbandon_eq : s.rxAbandon u =
    let t : State := match (s.unit u).rx.page with
      | some p => s.abandonPage p
      | none => s
    t.withUnit u { s.unit u with rx := { (s.unit u).rx with
      page := none, state := if RxItem.carrierLost ∈ (s.unit u).rxFifo then (s.unit u).rx.state else .idle } } := by
  have gone (l : LineUnit) (x y : RxState) : (if l.carrierGone then x else y) =
    if .carrierLost ∈ l.rxFifo then x else y :=
    if_congr decide_eq_true_iff rfl rfl
  unfold State.rxAbandon
  simp only [gone]
  cases (s.unit u).rx.page with
  | none => rfl
  | some p =>
    have same : (s.abandonPage p).unit u = s.unit u := congrArg (fun q => Quad.get q u) (abandonPage_units s p)
    rw [modUnit_withUnit, same]

theorem rxSeal_none (h : (s.unit u).rx.page = none) : s.rxSeal u = (false, s) := by
  simp only [State.rxSeal, h]

theorem rxSeal_placed {p : Nat} {t : State} (h : (s.unit u).rx.page = some p)
    (k : s.place (.unit u) p [0x0F, 0x00] = ([], t)) : s.rxSeal u = (true, (t.sealPage p).modUnit u (fun x =>
      { x with rx := { x.rx with page := none, state := .idle } })) := by
  simp only [State.rxSeal, h, show endMark = [0x0F, 0x00] from rfl, k]

theorem rxSeal_left {p : Nat} {b : Byte} {left : List Byte} {t : State} (h : (s.unit u).rx.page = some p)
    (k : s.place (.unit u) p [0x0F, 0x00] = (b :: left, t)) : s.rxSeal u = (false, t) := by
  simp only [State.rxSeal, h, show endMark = [0x0F, 0x00] from rfl, k]

end recoder

/-! ## The session of an answering unit -/

section answerer
variable {s : State} {u : UnitId} {a : AnswererSession}

theorem withUnit_setAnswerer (s : State) (u : UnitId) (x : LineUnit) (b : AnswererSession) :
    (s.withUnit u x).setAnswerer u b = s.withUnit u { x with answerer := some b } := withUnit_modUnit s u x _

/-- A unit's session set leaves it answering with that session. -/
theorem answering_setAnswerer (h : s.answering u = some a) (b : AnswererSession) :
    (s.setAnswerer u b).answering u = some b := by
  have role : (s.unit u).state = .inSession ∧ (s.unit u).role = some .answerer := by
    by_contra other
    exact nomatch (if_neg other).symm.trans h
  rw [State.answering, State.setAnswerer, modUnit_withUnit, withUnit_unit]
  exact if_pos role

theorem answering_caller (h : s.answering u = some a) : s.caller u = none := by
  have role : (s.unit u).role = some .answerer := by
    by_contra other
    exact nomatch (if_neg (fun k => other k.2)).symm.trans h
  exact if_neg (by simp [role])

theorem settleVerdict_due {k : PageEndKind} {r : RxReport} (h : s.answering u = some a) (phase : a.phase = .verdict)
    (kind : a.kind = some k) (report : a.report = some r) :
    s.settleVerdict u = if s.stalled (.unit u) then s else s.giveVerdict u a k r := by
  simp only [State.settleVerdict, h, phase, kind, report]

theorem settleVerdict_waits (h : s.answering u = some a) (k : a.phase ≠ .verdict ∨ a.kind = none ∨ a.report = none) :
    s.settleVerdict u = s := by
  simp only [State.settleVerdict, h]
  split
  next phase kind report =>
    obtain other | none | none := k
    · exact absurd phase other
    · exact nomatch none.symm.trans kind
    · exact nomatch none.symm.trans report
  next => rfl

theorem takeReport_told {r : RxReport} (h : s.answering u = some a)
    (k : a.phase = .receiving ∨ (a.phase = .verdict ∧ a.kind ≠ none)) :
    s.takeReport u r = (s.setAnswerer u { a with report := some r }).settleVerdict u := by
  simp only [State.takeReport, h]
  split
  next => rfl
  next => rfl
  next notReceiving notVerdict =>
    obtain receiving | ⟨verdict, kind⟩ := k
    · exact absurd receiving notReceiving
    · obtain ⟨k, some⟩ := Option.ne_none_iff_exists'.1 kind
      exact absurd some (notVerdict k verdict)

theorem takeReport_other {r : RxReport} (h : s.answering u = some a) (k : a.phase ≠ .receiving)
    (m : a.phase ≠ .verdict ∨ a.kind = none) : s.takeReport u r = s := by
  simp only [State.takeReport, h]
  split
  next verdict kind =>
    obtain other | none := m
    · exact absurd verdict other
    · exact nomatch none.symm.trans kind
  next receiving => exact absurd receiving k
  next => rfl

/-- A page begins with the order in force (R131). -/
theorem beginAnswererPage_opens {t t1 : State} {b : AnswererSession} {o : OrderMode} {d p : Nat} (ho : b.order = some o)
    (hd : b.document = some d) (k : t.openPage d o.width o.resolution = .opened p t1) :
    t.beginAnswererPage u b = t1.withUnit u { t1.unit u with
      rx := { RxRecoder.reset with state := .active, document := d, width := o.width, page := some p }
      rxFifo := []
      answerer := some { b with
        phase := .receiving, kind := none, report := none, dataTaken := false, wait := some .idleLimit } } := by
  simp only [State.beginAnswererPage, ho, hd, State.rxBegin, k, State.setAnswerer, modUnit_withUnit t1 u,
    withUnit_modUnit]

theorem beginAnswererPage_refused {t : State} {b : AnswererSession} {o : OrderMode} {d : Nat} {e : OpenRefusal}
    (ho : b.order = some o) (hd : b.document = some d) (k : t.openPage d o.width o.resolution = .refused e) :
    t.beginAnswererPage u b = t.withUnit u { t.unit u with
      rx := { RxRecoder.reset with state := .active, document := d, width := o.width, noRoom := some e }
      rxFifo := []
      answerer := some { b with
        phase := .receiving, kind := none, report := none, dataTaken := false, wait := some .idleLimit } } := by
  simp only [State.beginAnswererPage, ho, hd, State.rxBegin, k, State.setAnswerer, modUnit_withUnit t u,
    withUnit_modUnit]

/-- STOP and the RELEASE frame enter the link in one (R129, R132). -/
theorem sendStop_eq (s : State) (u : UnitId) : s.sendStop u = s.withUnit u { s.unit u with
    out := (s.unit u).out ++ [.sendFrame .stop] ++ [.sendFrame .release] } := by
  rw [State.sendStop, State.sendFrame, State.sendFrame, sendLink_withUnit s, withUnit_sendLink]

theorem stopReception_eq : s.stopReception u a = ((s.withUnit u { s.unit u with
    out := (s.unit u).out ++ [.sendFrame .stop, .sendFrame .release] }).cutReception u a).releaseCall u := by
  rw [State.stopReception, sendStop_eq, List.append_assoc]
  rfl

/-- A session that ends with STOP and no document (R128, R129). -/
theorem sendStop_refuses (s : State) (u : UnitId) (r : RefuseReason) (b : Option Refusing) (m : Option Text) :
    (s.sendStop u).refuseCall u r b m =
      ((s.withUnit u { s.unit u with out := (s.unit u).out ++ [.sendFrame .stop] ++ [.sendFrame .release] }).post
        (.unit u)
        (.callRefused u r b (s.unit u).caller m)).releaseCall u := by
  rw [sendStop_eq, State.refuseCall, State.callRefused, withUnit_unit]

theorem cutReception_closes {d : Nat} (h : a.document = some d) (k : a.phase ≠ .awaitRelease) :
    s.cutReception u a = (s.rxAbandon u).closeDocument d true := by
  simp only [State.cutReception, h]
  exact if_neg k

theorem cutReception_leaves (h : a.document = none ∨ a.phase = .awaitRelease) : s.cutReception u a = s.rxAbandon u := by
  unfold State.cutReception
  obtain none | left := h
  · simp only [none]
  · cases a.document with
    | none => rfl
    | some d => exact if_pos left

theorem sameRate_iff (o : OrderMode) : a.sameRate o = true ↔ ∃ x, a.order = some x ∧ x.rate = o.rate := by
  unfold AnswererSession.sameRate
  cases a.order with
  | none => simp
  | some x => simp

theorem takeOrderMode_ends {o : OrderMode} (h : o.pagesToCome = 0) : s.takeOrderMode u a o = s.stopReception u a :=
  if_pos h

theorem takeOrderMode_held {o : OrderMode} (h : o.pagesToCome ≠ 0) (k : ∃ x, a.order = some x ∧ x.rate = o.rate)
    (m : a.phase ≠ .checkReply) : s.takeOrderMode u a o =
      (s.sendFrame u .ready).beginAnswererPage u { a with order := some o, asked := none } :=
  (if_neg h).trans (if_pos ⟨(sameRate_iff o).2 k, m⟩)

theorem takeOrderMode_checks {o : OrderMode} (h : o.pagesToCome ≠ 0)
    (k : ¬ (∃ x, a.order = some x ∧ x.rate = o.rate) ∨ a.phase = .checkReply) : s.takeOrderMode u a o =
      s.setAnswerer u { a with phase := .checkReply, asked := some o, wait := some .idleLimit } := by
  refine (if_neg h).trans (if_neg ?_)
  rintro ⟨same, phase⟩
  exact k.elim (fun other => other ((sameRate_iff o).1 same)) phase

/-- The unit after GOOD and after REDO, each counted (R113, R132). -/
def LineUnit.saidGood (x : LineUnit) : LineUnit :=
  { x with
    stats := { x.stats with pagesReceived := min 4294967295 (x.stats.pagesReceived + 1) }
    out := x.out ++ [.sendFrame .good] }

def LineUnit.saidRedo (x : LineUnit) : LineUnit :=
  { x with
    stats := { x.stats with redosSent := min 4294967295 (x.stats.redosSent + 1) }
    out := x.out ++ [.sendFrame .redo] }

/-- The session after GOOD (R132). -/
def AnswererSession.kept (a : AnswererSession) : AnswererSession :=
  { a with lastVerdict := some .good, report := none, kind := none, wait := some .idleLimit }

theorem verdictGood_kind (t : State) (u : UnitId) (a : AnswererSession) :
    let t1 := t.withUnit u (t.unit u).saidGood
    t.verdictGood u a .more = t1.beginAnswererPage u a.kept
    ∧ t.verdictGood u a .mode = t.withUnit u
      { (t.unit u).saidGood with answerer := some { a.kept with phase := .awaitOrder } }
    ∧ (∀ d, a.document = some d → t.verdictGood u a .last =
      (t.withUnit u { (t.unit u).saidGood with
        answerer := some { a.kept with phase := .awaitRelease } }).closeDocument d false) := by
  have sent : (t.modUnit u (fun l => l.modStats (fun x =>
      { x with pagesReceived := satAdd Config.max32 x.pagesReceived 1 }))).sendFrame u .good =
      t.withUnit u (t.unit u).saidGood := by
    rw [State.sendFrame, modUnit_withUnit, withUnit_sendLink]
    rfl
  unfold State.verdictGood
  simp only [sent, withUnit_setAnswerer]
  refine ⟨rfl, rfl, fun d h => ?_⟩
  split
  next e found => exact Option.some.inj (found.symm.trans h) ▸ rfl
  next gone => exact nomatch gone.symm.trans h

theorem verdictRedo_eq (t : State) (u : UnitId) (a : AnswererSession) : t.verdictRedo u a =
    let y := t.rxAbandon u
    (y.withUnit u (y.unit u).saidRedo).beginAnswererPage u { a with lastVerdict := some .redo } := by
  rw [State.verdictRedo, State.sendFrame, modUnit_withUnit, withUnit_sendLink]
  rfl

theorem judge_stop {r : RxReport} (h : r.noRoom ≠ none) (m n : Nat) : judge m n r = .stop := if_pos h

theorem judge_redo {r : RxReport} {m n : Nat} (h : r.noRoom = none)
    (k : r.endSeen = false ∨ r.received * m < r.bad * 100 ∨ n < r.longest) : judge m n r = .redo :=
  (if_neg (fun x => x h)).trans (if_pos k)

theorem judge_good {r : RxReport} {m n : Nat} (h : r.noRoom = none)
    (k : ¬ (r.endSeen = false ∨ r.received * m < r.bad * 100 ∨ n < r.longest)) : judge m n r = .good :=
  (if_neg (fun x => x h)).trans (if_neg k)

theorem giveVerdict_judged {k : PageEndKind} {r : RxReport} :
    (r.noRoom ≠ none → s.giveVerdict u a k r = s.stopReception u a)
    ∧ (r.noRoom = none → r.endSeen = false ∨ r.received * s.settings.badPercent < r.bad * 100
      ∨ s.settings.badRun < r.longest → s.giveVerdict u a k r = s.verdictRedo u a)
    ∧ (r.noRoom = none → ¬ (r.endSeen = false ∨ r.received * s.settings.badPercent < r.bad * 100
      ∨ s.settings.badRun < r.longest) → ∀ t,
        (s.rxSeal u = (true, t) → s.giveVerdict u a k r = t.verdictGood u a k)
        ∧ (s.rxSeal u = (false, t) → s.giveVerdict u a k r = t.stopReception u a)) := by
  refine ⟨fun full => ?_, fun room bad => ?_, fun room good t => ⟨fun kept => ?_, fun lost => ?_⟩⟩
  · simp only [State.giveVerdict, judge_stop full]
  · simp only [State.giveVerdict, judge_redo room bad]
  · simp only [State.giveVerdict, judge_good room good, kept]
  · simp only [State.giveVerdict, judge_good room good, lost]

end answerer

/-! ## Messages by phase -/

section messages
variable {s : State} {u : UnitId} {a : AnswererSession}

theorem orderFrame_bad {f : OrderFields} (h : checkOrder f = none) : exec (.orderFrame u f) s = .next s :=
  congrArg Host.Outcome.next (by simp only [h, State.ignoreFrame])

theorem orderFrame_good {f : OrderFields} {o : OrderMode} (h : checkOrder f = some o) {t : State}
    (k : s.takeOrder u o = t) : exec (.orderFrame u f) s = .next t.scanRetry :=
  congrArg Host.Outcome.next (by simp only [h, k])

theorem pageEnd_bad {b : Byte} (h : pageEndOf b.toNat = none) : exec (.pageEnd u b) s = .next s :=
  congrArg Host.Outcome.next (by simp only [h, State.ignoreFrame])

theorem pageEnd_good {b : Byte} {k : PageEndKind} (h : pageEndOf b.toNat = some k) {t : State}
    (e : s.takePageEnd u k = t) : exec (.pageEnd u b) s = .next t.scanRetry :=
  congrArg Host.Outcome.next (by simp only [h, e])

theorem takeOrder_none {o : OrderMode} (h : s.answering u = none) : s.takeOrder u o = s := by
  simp only [State.takeOrder, h]

theorem takeOrder_phase {o : OrderMode} (h : s.answering u = some a) :
    (a.phase = .offering → s.takeOrder u o = s.firstOrder u a o)
    ∧ (a.phase = .notReady → s.takeOrder u o = s.sendFrame u .stop)
    ∧ (a.phase = .checkReply ∨ a.phase = .awaitOrder → s.takeOrder u o = s.takeOrderMode u a o)
    ∧ (a.phase = .receiving → s.takeOrder u o = if a.dataTaken then s else (s.rxAbandon u).takeOrderMode u a o)
    ∧ (a.phase = .verdict ∨ a.phase = .awaitRelease → s.takeOrder u o = s) := by
  simp only [State.takeOrder, h]
  refine ⟨fun e => by simp only [e], fun e => by simp only [e], fun e => ?_, fun e => by simp only [e], fun e => ?_⟩
  · obtain e | e := e
    · simp only [e]
    · simp only [e]
  · obtain e | e := e
    · simp only [e]
    · simp only [e]

theorem firstOrder_empty {o : OrderMode} (h : o.pagesToCome = 0) : s.firstOrder u a o =
    (s.sendStop u).refuseCall u .badOrder none (some o.station) := if_pos h

theorem firstOrder_refused {o : OrderMode} {r : RefuseReason} {b : Option Refusing} {t : State} (h : o.pagesToCome ≠ 0)
    (k : s.lookupOrder u o.station = (.refused r b, t)) : s.firstOrder u a o =
      (t.sendStop u).refuseCall u r b (some o.station) :=
  (if_neg h).trans (by simp only [k])

theorem firstOrder_accepted {o : OrderMode} {r : Route} {t : State} (h : o.pagesToCome ≠ 0)
    (k : s.lookupOrder u o.station = (.accepted r, t)) :
    (t.openDoc .received r.desk (if o.station = [] then none else some o.station) = none →
      s.firstOrder u a o = (t.sendStop u).refuseCall u .noDocument none (some o.station))
    ∧ (∀ d t1, t.openDoc .received r.desk (if o.station = [] then none else some o.station) = some (d, t1) →
      s.firstOrder u a o = (t1.routeDocument d r).takeOrderMode u { a with document := some d, route := r } o) :=
  ⟨fun full => (if_neg h).trans (by simp only [k, full]),
    fun d t1 opened => (if_neg h).trans (by simp only [k, opened])⟩

theorem checkResult_none (h : s.answering u = none) (g : Bool) : s.checkResult u g = s := by
  simp only [State.checkResult, h]

theorem checkResult_other (h : s.answering u = some a) (k : a.phase ≠ .checkReply) (g : Bool) :
    s.checkResult u g = s := by
  simp only [State.checkResult, h]
  exact if_pos k

theorem checkResult_some (h : s.answering u = some a) (k : a.phase = .checkReply) :
    s.checkResult u true = (s.sendFrame u .ready).beginAnswererPage u { a with order := a.asked, asked := none }
    ∧ s.checkResult u false = s.withUnit u { s.unit u with
      out := (s.unit u).out ++ [.sendFrame .slower]
      answerer := some { a with phase := .awaitOrder, asked := none, wait := some .idleLimit } } := by
  have waits : ¬ a.phase ≠ .checkReply := fun n => n k
  unfold State.checkResult
  simp only [h, if_neg waits, if_true, Bool.false_eq_true, if_false, true_and]
  rw [State.sendFrame, sendLink_withUnit, withUnit_setAnswerer]

theorem takePageEnd_none {k : PageEndKind} (h : s.answering u = none) : s.takePageEnd u k = s := by
  simp only [State.takePageEnd, h]

theorem takePageEnd_receiving {k : PageEndKind} (h : s.answering u = some a) (phase : a.phase = .receiving) :
    s.takePageEnd u k = s.pageEndReceiving u a k := by
  simp only [State.takePageEnd, h, phase]

theorem takePageEnd_repeats {k : PageEndKind} {v : Verdict} (h : s.answering u = some a)
    (phase : a.phase = .awaitOrder ∨ a.phase = .awaitRelease) (last : a.lastVerdict = some v) :
    s.takePageEnd u k = s.sendFrame u (verdictFrame v) := by
  simp only [State.takePageEnd, h]
  obtain phase | phase := phase
  · simp only [phase, last]
  · simp only [phase, last]

theorem takePageEnd_discards {k : PageEndKind} (h : s.answering u = some a)
    (phase : a.phase = .awaitOrder ∨ a.phase = .awaitRelease) (last : a.lastVerdict = none) :
    s.takePageEnd u k = s := by
  simp only [State.takePageEnd, h]
  obtain phase | phase := phase
  · simp only [phase, last]
  · simp only [phase, last]

theorem takePageEnd_other {k : PageEndKind} (h : s.answering u = some a)
    (phase : a.phase = .offering ∨ a.phase = .notReady ∨ a.phase = .checkReply ∨ a.phase = .verdict) :
    s.takePageEnd u k = s := by
  simp only [State.takePageEnd, h]
  obtain phase | phase | phase | phase := phase
  all_goals simp only [phase]

/-- The session with the PAGE END taken, its verdict to come (R131). -/
def AnswererSession.pageEnded (a : AnswererSession) (k : PageEndKind) : AnswererSession :=
  { a with phase := .verdict, kind := some k, wait := some .idleLimit }

theorem pageEndReceiving_repeats {k : PageEndKind} {v : Verdict} (h : a.dataTaken = false)
    (last : a.lastVerdict = some v) :
    s.pageEndReceiving u a k = s.sendFrame u (verdictFrame v) := by
  simp only [State.pageEndReceiving, h, last]

theorem pageEndReceiving_fresh {k : PageEndKind} (h : a.dataTaken = true ∨ a.lastVerdict = none) :
    s.pageEndReceiving u a k =
      if a.report = none then (s.setAnswerer u (a.pageEnded k)).pushMark u .dataEnd
      else (s.setAnswerer u (a.pageEnded k)).settleVerdict u := by
  unfold State.pageEndReceiving
  split
  next taken last =>
    obtain h | h := h
    · exact nomatch taken.symm.trans h
    · exact nomatch last.symm.trans h
  next => rfl

/-- The mark behind a page's bytes, and the session that waits for the report (R131). -/
theorem pageEnded_marks {k : PageEndKind} : (s.setAnswerer u (a.pageEnded k)).pushMark u .dataEnd = s.withUnit u
    { (if (s.unit u).receiving then { s.unit u with rxFifo := (s.unit u).rxFifo ++ [.dataEnd] } else s.unit u) with
      answerer := some (a.pageEnded k) } := by
  rw [State.setAnswerer, modUnit_withUnit, State.pushMark, withUnit_modUnit]
  cases on : (s.unit u).receiving with
  | true => exact congrArg (s.withUnit u) (if_pos on)
  | false => exact congrArg (s.withUnit u) (if_neg (ne_true_of_eq_false on))

/-- With the report there, the verdict follows the PAGE END once no write of the unit waits (R61, R131). -/
theorem pageEnded_settles {k : PageEndKind} {r : RxReport} (h : s.answering u = some a) (report : a.report = some r) :
    (s.setAnswerer u (a.pageEnded k)).settleVerdict u = if s.stalled (.unit u) then s.setAnswerer u (a.pageEnded k)
      else (s.setAnswerer u (a.pageEnded k)).giveVerdict u (a.pageEnded k) k r :=
  settleVerdict_due (answering_setAnswerer h _) rfl rfl report

theorem departed_phase (t : State) :
    (a.phase = .awaitRelease → t.departed u a = t.releaseCall u)
    ∧ (a.phase = .checkReply ∨ a.phase = .receiving ∨ a.phase = .verdict ∨ a.phase = .awaitOrder →
      t.departed u a = (t.cutReception u a).releaseCall u)
    ∧ (a.phase = .offering ∨ a.phase = .notReady → t.departed u a = t) := by
  unfold State.departed
  refine ⟨fun e => by simp only [e], fun e => ?_, fun e => ?_⟩
  · obtain e | e | e | e := e
    all_goals simp only [e]
  · obtain e | e := e
    all_goals simp only [e]

theorem releaseFrame_answers (h : s.answering u = some a) : exec (.releaseFrame u) s =
    .next (s.departed u a).scanRetry := by
  obtain ⟨-, -, -, -, fails⟩ := callerMessages_none (answering_caller h) .refused
  refine congrArg (fun t => Host.Outcome.next (State.scanRetry t)) ?_
  simp only [fails, State.answererRelease, h]

theorem carrierLost_answers (h : s.answering u = some a) :
    (a.phase = .offering → exec (.carrierLost u) s = .next (s.refuseCall u .noOrder none none).scanRetry)
    ∧ (a.phase = .notReady → exec (.carrierLost u) s = .next (s.refuseCall u .notReady none none).scanRetry)
    ∧ (a.phase ≠ .offering → a.phase ≠ .notReady → exec (.carrierLost u) s =
      .next ((s.pushMark u .carrierLost).departed u a).scanRetry) := by
  obtain ⟨-, -, -, -, fails⟩ := callerMessages_none (answering_caller h) .lineLost
  have ends {t : State} (k : s.answererCarrierLost u = t) : exec (.carrierLost u) s = .next t.scanRetry := by
    refine congrArg (fun t => Host.Outcome.next (State.scanRetry t)) ?_
    rw [fails, k]
  unfold State.answererCarrierLost at ends
  simp only [h] at ends
  refine ⟨fun e => ends (by simp only [e]), fun e => ends (by simp only [e]), fun offering notReady => ends ?_⟩
  split
  next e => exact absurd e offering
  next e => exact absurd e notReady
  next => rfl

end messages

/-- Settles O56: the lookup by `decideOrder`'s cases, each message by its phase, the page by
`beginAnswererPage_opens`. -/
theorem answererSessionFollowsItsPhases : Obligations.AnswererSessionFollowsItsPhases := by
  intro s u l say open_ emptied
  have receiving : l.receiving = true ↔ open_ := receiving_iff l
  refine ⟨?_, fun station => ?_, fun station => ?_, fun d r => ?_, ?_, rxSeal_none,
    fun p h => ⟨fun t => rxSeal_placed h,
      fun b left t => rxSeal_left h⟩, fun f => orderFrame_bad, fun b => pageEnd_bad, fun none => ?_, fun none => ?_,
      fun a h => ?_⟩
  case refine_1 =>
    intro rate form fine wide f o
    have r : rateOf f.rate.toNat = some o.rate ↔ f.rate.toNat = rate o.rate := by
      rw [rateOf_iff]
      cases o.rate <;> rfl
    have p : formOf f.form.toNat = some o.form ↔ f.form.toNat = form o.form := by
      rw [formOf_iff]
      cases o.form <;> rfl
    have v : resolutionOf f.resolution.toNat = some o.resolution ↔ f.resolution.toNat = fine o.resolution :=
      resolutionOf_iff.trans (by cases o.resolution <;> rfl)
    have w : widthOf f.width.toNat = some o.width ↔ f.width.toNat = wide o.width :=
      widthOf_iff.trans (by cases o.width <;> rfl)
    rw [checkOrder_iff, r, p, v, w, lineTimeOk_iff]
  case refine_2 =>
    intro c st nm is draws counted learned
    have deny (x) : ¬ is .deny x → matchIs .deny x = false := (not_matchIs_iff .deny x).2
    have allow (x) : is .allow x ↔ matchIs .allow x = true := (matchIs_iff .allow x).symm
    refine ⟨fun i e hs kind => ?_, fun i e hs hn kind => ?_,
      fun hs hn => ⟨fun m as an => ?_, fun m => ⟨fun i e governs => ?_,
      fun noStation noNumber => ?_⟩⟩, numberMatch_none, fun i n => numberMatch_some⟩
    · refine (lookupOrder_denied (b := ⟨.station, i⟩) ?_).trans rfl
      rw [show s.screen.lookup .station station = some (i, e) from hs]
      exact decideOrder_denied_station kind
    · refine (lookupOrder_denied (b := ⟨.number, i⟩) ?_).trans rfl
      rw [show s.screen.numberMatch u = some (i, e) from hn]
      exact decideOrder_denied_number (deny _ hs) kind
    · exact (lookupOrder_refused (by decide)
        (decideOrder_unlisted (deny _ hs) (deny _ hn) m ((not_matchIs_iff _ _).2 as)
        ((not_matchIs_iff _ _).2 an))).trans rfl
    all_goals
      rw [allow, allow] at m
      obtain ⟨governed, unknown⟩ := decideOrder_listed (deny _ hs) (deny _ hn) m
    · obtain ⟨spent, left⟩ := governed i e governs
      exact ⟨fun has gone => (lookupOrder_refused (by decide) (spent ⟨has, gone⟩)).trans rfl,
        fun k => (lookupOrder_governed (left k)).trans rfl⟩
    · exact (lookupOrder_unknown (unknown noStation noNumber)).trans rfl
  case refine_3 =>
    intro c learns e
    have iff : learns ↔ station ≠ [] ∧ (∀ x ∈ station, isStationKey x = true) ∧ s.screen.learns u = true := by
      rw [learns_iff]
    refine ⟨fun k => learnCaller_stays (fun n => k (iff.2 n)), fun i k free => ?_, fun k full told => ?_,
      fun k full new => ?_⟩
    · exact ((learnCaller_learns (iff.1 k)).1 i free).trans rfl
    · exact ((learnCaller_learns (iff.1 k)).2 full).trans (if_pos told)
    · exact ((learnCaller_learns (iff.1 k)).2 full).trans
        (if_neg (by rw [show s.screen.fullReported = false from new]; exact nofun))
  case refine_4 => rfl
  case refine_5 =>
    intro t
    exact rxAbandon_eq.trans rfl
  case refine_6 =>
    exact ⟨settleVerdict_stays (fun a h => nomatch none.symm.trans h), fun r => by simp only [State.takeReport, none]⟩
  case refine_7 =>
    refine ⟨fun f o good => orderFrame_good good (takeOrder_none none),
      fun g => congrArg Host.Outcome.next (checkResult_none none g),
      fun b k good => pageEnd_good good (takePageEnd_none none), fun noCaller => ?_⟩
    obtain ⟨-, -, -, -, refused⟩ := callerMessages_none noCaller .refused
    obtain ⟨-, -, -, -, lost⟩ := callerMessages_none noCaller .lineLost
    refine ⟨congrArg (fun t => Host.Outcome.next (State.scanRetry t)) ?_,
      congrArg (fun t => Host.Outcome.next (State.scanRetry t)) ?_⟩
    · simp only [refused, State.answererRelease, none]
    · simp only [lost, State.answererCarrierLost, none]
  case refine_8 =>
    intro goes stops ends
    have more (x : State) (y : AnswererSession) : x.setAnswerer u y = goes x (x.unit u) y := rfl
    have stopped (t : State) (r : RefuseReason) (b : Option Refusing) (m : Option Text) :
        (t.sendStop u).refuseCall u r b m = stops t r b m := sendStop_refuses t u r b m
    refine ⟨stopReception_eq, fun d => cutReception_closes, cutReception_leaves, fun t b o d ho hd =>
      ⟨fun p t1 k => (beginAnswererPage_opens ho hd k).trans rfl,
        fun e k => (beginAnswererPage_refused ho hd k).trans rfl⟩,
      fun t => ?_, fun f o good => ?_, fun t o =>
      ⟨takeOrderMode_ends, fun some => ⟨fun held other => takeOrderMode_held some held other,
        fun k => takeOrderMode_checks some k⟩⟩, fun other g => congrArg Host.Outcome.next (checkResult_other h other g),
      fun phase => ?_, fun b k good => ?_, fun r => ?_, fun k r => settleVerdict_due h, settleVerdict_waits h,
      fun k r => ?_,
      fun m hm => ?_⟩
    case refine_1 =>
      intro x counted a1
      obtain ⟨more, mode, last⟩ := verdictGood_kind t u a
      exact ⟨more.trans rfl, mode.trans rfl, fun d hd => (last d hd).trans rfl, (verdictRedo_eq t u a).trans rfl⟩
    case refine_2 =>
      intro run
      obtain ⟨offering, notReady, takes, receives, later⟩ := takeOrder_phase (o := o) h
      have runs {t : State} (k : s.takeOrder u o = t) : run t := orderFrame_good good k
      refine ⟨fun phase => ⟨fun empty => ?_, fun pages => ⟨fun r b t refused => ?_, fun r t accepted => ?_⟩⟩,
        fun phase => runs (notReady phase), fun phase => runs (takes phase), fun phase fresh => ?_,
        fun phase taken => ?_,
        fun phase => runs (later phase)⟩
      · exact runs ((offering phase).trans ((firstOrder_empty empty).trans (stopped _ _ _ _)))
      · exact runs ((offering phase).trans ((firstOrder_refused pages refused).trans (stopped _ _ _ _)))
      · obtain ⟨full, opened⟩ := firstOrder_accepted (a := a) pages accepted
        exact ⟨fun none => runs ((offering phase).trans ((full none).trans (stopped _ _ _ _))),
          fun d t1 k => runs ((offering phase).trans (opened d t1 k))⟩
      · exact runs ((receives phase).trans (if_neg (by simp [fresh])))
      · exact runs ((receives phase).trans (if_pos taken))
    case refine_3 =>
      obtain ⟨good, bad⟩ := checkResult_some h phase
      exact ⟨congrArg Host.Outcome.next good, congrArg Host.Outcome.next bad⟩
    case refine_4 =>
      intro run repeated fresh
      have runs {t : State} (e : s.takePageEnd u k = t) : run t := pageEnd_good good e
      have sends (v : Verdict) : s.sendFrame u (verdictFrame v) = repeated v := by
        cases v <;> rfl
      refine ⟨fun v last phase => runs ((takePageEnd_repeats h phase last).trans (sends v)),
        fun v last phase taken => ?_,
        fun last phase => runs (takePageEnd_discards h phase last), fun phase new none => ?_,
        fun r phase new report => ?_,
        fun phase => runs (takePageEnd_other h phase)⟩
      · exact runs ((takePageEnd_receiving h phase).trans ((pageEndReceiving_repeats taken last).trans (sends v)))
      · refine runs ((takePageEnd_receiving h phase).trans
          ((pageEndReceiving_fresh new).trans ((if_pos none).trans ?_)))
        rw [pageEnded_marks]
        exact congrArg (fun x => goes s x (a.pageEnded k)) (if_congr receiving rfl rfl)
      · have takes : s.takePageEnd u k = if s.stalled (.unit u) then s.setAnswerer u (a.pageEnded k)
            else (s.setAnswerer u (a.pageEnded k)).giveVerdict u (a.pageEnded k) k r :=
          (takePageEnd_receiving h phase).trans ((pageEndReceiving_fresh new).trans
            ((if_neg (by rw [report]; exact nofun)).trans (pageEnded_settles h report)))
        exact ⟨fun free => runs (takes.trans (if_neg (ne_true_of_eq_false free))),
          fun waits => runs (takes.trans (if_pos waits))⟩
    case refine_5 =>
      have now := answering_setAnswerer h { a with report := some r }
      refine ⟨fun phase => ?_, fun k phase kind => ?_, fun phase other => takeReport_other h phase other⟩
      · exact (takeReport_told h (.inl phase)).trans (settleVerdict_waits now (.inl (by rw [phase]; decide)))
      · exact (takeReport_told h (.inr ⟨phase, by rw [kind]; exact nofun⟩)).trans (settleVerdict_due now phase kind rfl)
    case refine_6 => exact giveVerdict_judged
    case refine_7 =>
      have carrier : (if open_ then
          ({ s with units := s.units.set u { l with rxFifo := l.rxFifo ++ [.carrierLost] } } : State) else s) =
          s.pushMark u .carrierLost := by
        by_cases on : open_
        · exact (if_pos on).trans (pushMark_open (receiving.2 on) _).symm
        · exact (if_neg on).trans (pushMark_closed (Bool.eq_false_iff.2 fun k => on (receiving.1 k)) _).symm
      obtain ⟨noOrder, notReady, loses⟩ := carrierLost_answers h
      obtain ⟨leaves, cuts, stays⟩ := departed_phase (a := a) s
      have released {t : State} (is : m = .releaseFrame u) (e : s.departed u a = t) : exec m s = .next t.scanRetry := by
        rw [is, releaseFrame_answers h, e]
      refine ⟨fun phase is => released is (leaves phase), fun phase is => released is (cuts phase),
        fun phase is => released is (stays phase), fun phase is => ?_, fun phase is => ?_, ?_⟩
      · rw [is]
        exact noOrder phase
      · rw [is]
        exact notReady phase
      · intro s1
        have s1_eq : s1 = s.pushMark u .carrierLost := carrier
        obtain ⟨leaves, cuts, -⟩ := departed_phase (a := a) s1
        rw [← s1_eq] at loses
        refine ⟨fun phase is => ?_, fun phase is => ?_⟩
        · rw [is, loses (by rw [phase]; decide) (by rw [phase]; decide), leaves phase]
        · rw [is, loses ?_ ?_, cuts phase]
          · rintro other
            simp [other] at phase
          · rintro other
            simp [other] at phase

end Sys2Proof.Machine
end

section
/-! SUPPORT. The waits of a session: what is sent again, and what ends the call (R117, R119, R128, R134). -/

namespace Sys2Proof.Machine

open Sys2Proof

section waits
variable {s : State} {u : UnitId} {c : CallerSession} {a : AnswererSession}

theorem offerWait_none (h : s.caller u = none) : s.offerWaitExpired u = s := by
  simp only [State.offerWaitExpired, h]

theorem offerWait_some (h : s.caller u = some c) :
    s.offerWaitExpired u = if c.phase = .awaitOffer then s.endCall u .notFax else s := by
  simp only [State.offerWaitExpired, h]

theorem notReadyWait_none (h : s.answering u = none) : s.notReadyExpired u = s := by
  simp only [State.notReadyExpired, h]

theorem notReadyWait_some (h : s.answering u = some a) :
    s.notReadyExpired u = if a.phase = .notReady then s.refuseCall u .notReady none none else s := by
  simp only [State.notReadyExpired, h]

theorem idleLimit_none (h : s.answering u = none) : s.idleLimitExpired u = s := by
  simp only [State.idleLimitExpired, h]

theorem idleLimit_some (h : s.answering u = some a) : s.idleLimitExpired u = s.departed u a := by
  simp only [State.idleLimitExpired, h]

theorem replyWait_none (h : s.caller u = none) (k : s.answering u = none) : s.replyWaitExpired u = s := by
  simp only [State.replyWaitExpired, h, k]

theorem replyWait_caller (h : s.caller u = some c) :
    s.replyWaitExpired u = if c.wait = some .reply then s.callerWaitExpired u c else s := by
  simp only [State.replyWaitExpired, h]

theorem replyWait_answerer (h : s.answering u = some a) :
    s.replyWaitExpired u = if a.wait = some .reply then s.answererWaitExpired u a else s := by
  simp only [State.replyWaitExpired, answering_caller h, h]

/-- The caller's frames sent once more (R117). -/
def State.sentAgain (s : State) (u : UnitId) (c : CallerSession) (ms : List LinkMsg) : State :=
  s.withUnit u { s.unit u with
    out := (s.unit u).out ++ ms
    callerSession := some { c with sends := c.sends + 1 } }

theorem callerWait_order {o : OrderMode} (h : s.caller u = some c) (phase : c.phase = .checking) (ho : c.order = some o)
    (few : c.sends < 3) : s.callerWaitExpired u c = s.sentAgain u c
      ([.sendFrame (.order o)] ++ if c.withCheck then [.setRate o.rate, .sendCheck] else []) := by
  obtain ⟨-, -, session⟩ := caller_eq_some.1 h
  have again : s.callerWaitExpired u c = ((s.sendFrame u (.order o)).sendCheckFor u o c.withCheck).modCaller u
      (fun x => { x with sends := x.sends + 1 }) := by
    simp only [State.callerWaitExpired, phase, ho, if_neg (Nat.not_le_of_lt few)]
  rw [again, State.sendFrame, State.sendCheckFor, sendLink_withUnit s, State.sentAgain, State.modCaller]
  by_cases check : c.withCheck = true
  · simp only [if_pos check, withUnit_sendLink, withUnit_modUnit, session, Option.map_some, List.append_assoc]
    rfl
  · simp only [if_neg check, withUnit_modUnit, session, Option.map_some, List.append_nil]

theorem callerWait_pageEnd (h : s.caller u = some c) (phase : c.phase = .awaitVerdict) (few : c.sends < 3) :
    s.callerWaitExpired u c = s.sentAgain u c [.sendFrame (.pageEnd c.kind)] := by
  obtain ⟨-, -, session⟩ := caller_eq_some.1 h
  have again : s.callerWaitExpired u c = (s.sendFrame u (.pageEnd c.kind)).modCaller u
      (fun x => { x with sends := x.sends + 1 }) := by
    simp only [State.callerWaitExpired, phase, if_neg (Nat.not_le_of_lt few)]
  rw [again, State.sendFrame, sendLink_withUnit s, State.sentAgain, State.modCaller, withUnit_modUnit, session,
    Option.map_some]

theorem callerWait_fails (many : 3 ≤ c.sends) :
    (c.phase = .checking → s.callerWaitExpired u c = s.endCall u .checkFailed)
    ∧ (c.phase = .awaitVerdict → s.callerWaitExpired u c = s.endCall u .lineLost) :=
  ⟨fun phase => by simp only [State.callerWaitExpired, phase, if_pos many],
    fun phase => by simp only [State.callerWaitExpired, phase, if_pos many]⟩

theorem answererWait_fails (phase : a.phase = .offering) (many : 3 ≤ a.sends) :
    s.answererWaitExpired u a = s.refuseCall u .noOrder none none :=
  (if_neg (fun n => n phase)).trans (if_pos many)

theorem answererWait_offers (phase : a.phase = .offering) (few : a.sends < 3) :
    s.answererWaitExpired u a = s.sendOffer u a (a.sends + 1) :=
  (if_neg (fun n => n phase)).trans (if_neg (Nat.not_le_of_lt few))

end waits

/-- Settles O57: each expiry by the session it finds, its phase and how often it has been sent. -/
theorem sessionWaitsResendAndFail : Obligations.SessionWaitsResendAndFail := by
  intro s u l put refused
  have now {t t' : State} (e : t = t') : (Host.Outcome.next t : Host.Outcome State Fault Refusal) = .next t' :=
    congrArg _ e
  refine ⟨fun none => now (offerWait_none none), fun none => ⟨now (notReadyWait_none none), ?_⟩,
    fun none no => now (replyWait_none none no),
    fun c h => ⟨fun phase => ?_, fun phase => ?_, fun wait => ?_, fun wait => ?_⟩,
    fun a h => ⟨fun phase => ?_, fun phase => ?_, fun wait => ?_,
    fun wait => ⟨fun phase many => ?_, fun phase few => ?_⟩, ?_⟩⟩
  · exact congrArg (fun t => Host.Outcome.next (State.scanRetry t)) (idleLimit_none none)
  · exact now ((offerWait_some h).trans (if_pos phase))
  · exact now ((offerWait_some h).trans (if_neg phase))
  · exact now ((replyWait_caller h).trans (if_neg wait))
  · intro again
    have expires {t : State} (e : s.callerWaitExpired u c = t) : exec (.replyWaitExpiry u) s = .next t :=
      now ((replyWait_caller h).trans ((if_pos wait).trans e))
    exact ⟨fun o phase ho few => expires (callerWait_order h phase ho few),
      fun phase few => expires (callerWait_pageEnd h phase few),
      fun phase many => expires ((callerWait_fails many).1 phase),
      fun phase many => expires ((callerWait_fails many).2 phase)⟩
  · exact now ((notReadyWait_some h).trans (if_pos phase))
  · exact now ((notReadyWait_some h).trans (if_neg phase))
  · exact now ((replyWait_answerer h).trans (if_neg wait))
  · exact now ((replyWait_answerer h).trans ((if_pos wait).trans (answererWait_fails phase many)))
  · intro ready o
    exact now ((replyWait_answerer h).trans ((if_pos wait).trans ((answererWait_offers phase few).trans
      (sendOffer_eq s u a (a.sends + 1)))))
  · have expires {t : State} (e : s.departed u a = t) : exec (.idleLimitExpiry u) s = .next t.scanRetry :=
      congrArg (fun t => Host.Outcome.next (State.scanRetry t)) ((idleLimit_some h).trans e)
    obtain ⟨leaves, cuts, stays⟩ := departed_phase (a := a) s
    exact ⟨fun phase => expires (leaves phase), fun phase => expires (cuts phase), fun phase => expires (stays phase)⟩

end Sys2Proof.Machine
end

section
/-! SUPPORT. The printer: its state, the selection, the sheet, the levels and the sounder (R170 to R178). -/

namespace Sys2Proof.Machine

open Sys2Proof

/-! ## A page read by position (R9) -/

section reading
variable {s : State} {d i : Nat} {r : Doc}

theorem readPage_noDoc (h : s.doc d = none) : s.readPage d i = .noSuchPage := by
  simp only [State.readPage, h]

theorem readPage_past (h : s.doc d = some r) (k : r.pages.length ≤ i) :
    s.readPage d i = if r.state = .opened then .notReady else .noSuchPage := by
  simp only [State.readPage, h, List.getElem?_eq_none k]

theorem readPage_page {p : Nat} {x : PageRec} (h : s.doc d = some r) (k : r.pages[i]? = some p)
    (m : s.page p = some x) :
    s.readPage d i = if x.state = .sealed then .isSealed p x else .notReady := by
  simp only [State.readPage, h, k, m]

/-- What a reader is answered depends on the page store alone. -/
theorem readPage_congr {t : State} (h : t.store = s.store) (d i : Nat) : t.readPage d i = s.readPage d i := by
  simp only [State.readPage, State.doc, State.page, h]

end reading

/-! ## The printer state (R173) -/

section state
variable {s : State} {a : Option (Nat × Nat × Nat)}

theorem derived_cases (p : PrintEngine) :
    (p.derived = .coverOpen ↔ p.coverClosed = false)
    ∧ (p.derived = .paperOut ↔ p.coverClosed = true ∧ p.paperPresent = false)
    ∧ (p.derived = .headHot ↔ p.coverClosed = true ∧ p.paperPresent = true ∧ p.hot = true)
    ∧ (p.derived = .printing ↔ p.coverClosed = true ∧ p.paperPresent = true ∧ p.hot = false
      ∧ (p.current ≠ none ∨ p.draining = true)) := by
  unfold PrintEngine.derived
  cases p.coverClosed with
  | false => simp
  | true =>
    cases p.paperPresent with
    | false => simp
    | true =>
      cases p.hot with
      | true => simp
      | false => by_cases head : p.current ≠ none ∨ p.draining = true <;> simp [head]

/-- A state whose entry and exit ask for no PRINTER_STATE (R173). -/
theorem posts_iff (x : PrinterState) : x.posts = false ↔ x = .ready ∨ x = .printing := by
  cases x <;> simp [PrinterState.posts]

theorem recomputePrinter_same (h : s.print.derived = s.print.state) : s.recomputePrinter a = s := if_pos h

theorem recomputePrinter_silent (h : s.print.derived ≠ s.print.state) (k : s.print.derived.posts = false)
    (m : s.print.state.posts = false) :
    s.recomputePrinter a = { s with print := { s.print with state := s.print.derived } } :=
  (if_neg h).trans (if_neg (by simp [k, m]))

theorem recomputePrinter_posts (h : s.print.derived ≠ s.print.state)
    (k : ¬ (s.print.derived.posts = false ∧ s.print.state.posts = false)) : s.recomputePrinter a =
      State.post { s with print := { s.print with state := s.print.derived } } .printEngine
        (.printerState s.print.derived s.print.state s.print.temperature a) :=
  (if_neg h).trans (if_pos (by simpa [Bool.or_eq_true, ← Bool.not_eq_false, not_and_or] using k))

theorem recomputePrinter_store (s : State) (a : Option (Nat × Nat × Nat)) : (s.recomputePrinter a).store = s.store := by
  unfold State.recomputePrinter
  dsimp only
  split
  next => rfl
  next => split <;> rfl

end state

/-! ## The selection (R170) -/

section selection

/-- An element that goes before every other one of a list heads the list when it is sorted. -/
theorem sortBy_least {α : Type} {lt : α → α → Bool} {m : α} {l : List α} (hm : m ∈ l) (self : lt m m = false)
    (first : ∀ x ∈ l, x ≠ m → lt m x = true ∧ lt x m = false) : ∃ rest, sortBy lt l = m :: rest := by
  have heads (l acc : List α) (first : ∀ x ∈ l, x ≠ m → lt m x = true ∧ lt x m = false)
      (here : (∃ rest, acc = m :: rest) ∨ (m ∈ l ∧ ∀ x ∈ acc, lt m x = true)) :
      ∃ rest, l.foldl (fun acc a => insertBy lt a acc) acc = m :: rest := by
    induction l generalizing acc with
    | nil => exact here.resolve_right (fun k => nomatch k.1)
    | cons a l ih =>
      refine ih (insertBy lt a acc) (fun x hx => first x (List.mem_cons_of_mem _ hx)) ?_
      obtain ⟨rest, rfl⟩ | ⟨later, before⟩ := here
      · have stays : lt a m = false := by
          by_cases e : a = m
          · rw [e, self]
          · exact (first a (List.mem_cons_self ..) e).2
        exact .inl ⟨insertBy lt a rest, if_neg (by simp [stays])⟩
      · by_cases e : a = m
        · subst e
          cases acc with
          | nil => exact .inl ⟨[], rfl⟩
          | cons b t => exact .inl ⟨b :: t, if_pos (before b (List.mem_cons_self ..))⟩
        · refine .inr ⟨(List.mem_cons.1 later).resolve_left (Ne.symm e), fun x hx => ?_⟩
          rcases mem_insertBy_iff.1 hx with rfl | hx
          · exact (first x (List.mem_cons_self ..) e).1
          · exact before x hx
  exact heads l [] first (.inr ⟨hm, by simp⟩)

variable {s : State}

theorem canStart_iff (e : PrintEntry) :
    s.canStart e = true ↔ e.state = .waiting ∧ ∃ k r, s.readPage e.document e.pageIndex = .isSealed k r := by
  unfold State.canStart
  cases s.readPage e.document e.pageIndex with
  | isSealed k r => simp
  | notReady => simp
  | noSuchPage => simp

theorem printBefore_iff (a b : Nat × PrintEntry) : printBefore a b = true ↔
    (a.2.priority = .flash ∧ b.2.priority = .ordinary)
      ∨ (a.2.priority = b.2.priority ∧ a.2.arrival < b.2.arrival) := by
  refine decide_eq_true_iff.trans (or_congr ?_ Iff.rfl)
  cases a.2.priority <;> cases b.2.priority <;> simp [printPriorityCode]

theorem printBefore_asymm {a b : Nat × PrintEntry} (h : printBefore a b = true) : printBefore b a = false := by
  rw [← Bool.not_eq_true, printBefore_iff]
  rw [printBefore_iff] at h
  rintro (⟨flash, ordinary⟩ | ⟨same, earlier⟩)
  · obtain ⟨-, other⟩ | ⟨equal, -⟩ := h
    · exact nomatch flash.symm.trans other
    · exact nomatch (ordinary.symm.trans equal).trans flash
  · obtain ⟨flash, other⟩ | ⟨-, later⟩ := h
    · exact nomatch (flash.symm.trans same.symm).trans other
    · exact Nat.lt_asymm earlier later

theorem printSelect_busy (h : s.print.current ≠ none ∨ s.print.state ≠ .ready) : s.printSelect = s := if_pos h

theorem printSelect_nothing (h : ∀ x ∈ s.print.entries, s.canStart x.2 = false) : s.printSelect = s := by
  unfold State.printSelect
  have nothing : s.print.entries.filter (fun x => s.canStart x.2) = [] :=
    List.filter_eq_nil_iff.2 fun x hx => by simp [h x hx]
  rw [nothing]
  exact ite_self s

/-- The engine with an entry made the current one (R170). -/
def State.selected (s : State) (i : Nat) : State :=
  { s with print := { s.print with
    current := some i
    entries := tmod s.print.entries i (fun x => { x with state := .printing }) } }

theorem printSelect_selects {i : Nat} {e : PrintEntry} {k : Nat} {r : PageRec} (free : s.print.current = none)
    (ready : s.print.state = .ready) (mem : (i, e) ∈ s.print.entries) (starts : s.canStart e = true)
    (page : s.readPage e.document e.pageIndex = .isSealed k r)
    (first : ∀ x ∈ s.print.entries, x ≠ (i, e) → s.canStart x.2 = true → printBefore (i, e) x = true) :
    s.printSelect = ((s.selected i).recomputePrinter none).startSheet k r := by
  obtain ⟨rest, sorted⟩ := sortBy_least (lt := printBefore) (m := (i, e))
    (l := s.print.entries.filter (fun x => s.canStart x.2)) (List.mem_filter.2 ⟨mem, starts⟩)
    (Bool.eq_false_iff.2 fun h => absurd h (ne_true_of_eq_false (printBefore_asymm h)))
    (fun x hx other => by
      obtain ⟨hx, hs⟩ := List.mem_filter.1 hx
      exact ⟨first x hx other hs, printBefore_asymm (first x hx other hs)⟩)
  have store : ((s.selected i).recomputePrinter none).store = s.store := recomputePrinter_store _ _
  unfold State.printSelect
  rw [if_neg (by simp [free, ready]), sorted]
  show (match ((s.selected i).recomputePrinter none).readPage e.document e.pageIndex with
    | .isSealed p r => ((s.selected i).recomputePrinter none).startSheet p r
    | _ => (s.selected i).recomputePrinter none) = _
  rw [readPage_congr store, page]

end selection

/-! ## The sheet (R171, R172) -/

section sheet
variable {s : State} {d d' : PrintDecoder} {ts : List Nat}

theorem nextHeadLine_again (h : d.again = true) :
    s.nextHeadLine d = some (s.print.ref, { d with again := false }) := if_pos h

theorem nextHeadLine_end (h : d.again = false) (k : d.linesLeft = 0) : s.nextHeadLine d = none :=
  (if_neg (ne_true_of_eq_false h)).trans (if_pos k)

theorem nextHeadLine_good {r : PageRec} {n : Nat} (h : d.again = false) (k : d.linesLeft ≠ 0)
    (page : s.page d.page = some r)
    (good : takeLine (widthDots d.width) s.print.ref (s.streamFrom r d.offset) = .good ts n) :
    s.nextHeadLine d = some (ts,
      { d with offset := d.offset + n, linesLeft := d.linesLeft - 1, again := decide (d.resolution = .normal) }) := by
  refine (if_neg (ne_true_of_eq_false h)).trans ((if_neg k).trans ?_)
  simp only [page, good]

theorem nextHeadLine_width (h : s.nextHeadLine d = some (ts, d')) : d'.width = d.width := by
  unfold State.nextHeadLine at h
  split at h
  · cases h
    rfl
  · split at h
    · cases h
    · split at h
      · cases h
      · split at h
        · cases h
          rfl
        · cases h

theorem headHeld_rests (h : d.again = true ∨ d.linesLeft = 0) : s.headHeld d = false := by
  obtain h | h := h
  · simp [State.headHeld, h]
  · simp [State.headHeld, h]

/-- A read that is held would have found a line. -/
theorem headHeld_finds (h : s.headHeld d = true) : ∃ ts d', s.nextHeadLine d = some (ts, d') := by
  simp only [State.headHeld, Bool.and_eq_true, Bool.not_eq_true', decide_eq_true_iff] at h
  obtain ⟨⟨again, more⟩, held⟩ := h
  unfold State.lineHeld at held
  split at held
  · cases held
  · next r page =>
    split at held
    · next ts n good => exact ⟨_, _, nextHeadLine_good again more page good⟩
    · cases held

theorem lineHeld_empty (h : s.path.queue = []) (k : s.path.waiting = []) (p : Nat) (w : Width) (ref : List Nat)
    (off : Nat) :
    s.lineHeld p w ref off = false := by
  have open_ (a n : Nat) : s.path.blocked a n = false := by simp [MemPath.blocked, MemPath.pendingWrites, h, k]
  unfold State.lineHeld State.streamHeld
  simp only [open_]
  split
  · rfl
  · split <;> simp

theorem headHeld_empty (h : s.path.queue = []) (k : s.path.waiting = []) (d : PrintDecoder) : s.headHeld d = false := by
  rw [State.headHeld, lineHeld_empty h k, Bool.and_false]

theorem advanceSheet_held (h : s.print.decoder = some d) (k : s.headHeld d = true) : s.advanceSheet = s := by
  simp only [State.advanceSheet, h, k, if_true]

theorem advanceSheet_out (h : s.print.decoder = some d) (k : s.nextHeadLine d = none) : s.advanceSheet = s.sheetOut :=
    by
  have free : ¬ s.headHeld d = true := by
    intro held
    obtain ⟨ts, d', found⟩ := headHeld_finds held
    exact nomatch k.symm.trans found
  simp only [State.advanceSheet, h, if_neg free, k]

theorem advanceSheet_line (h : s.print.decoder = some d) (k : s.headHeld d = false)
    (found : s.nextHeadLine d = some (ts, d')) :
    s.advanceSheet = if s.print.state = .printing then s.sendHeadLine ts d' else s := by
  simp only [State.advanceSheet, h, k, Bool.false_eq_true, if_false, found]

end sheet

/-! ## The head's entry (R171, R174, R177) -/

section entry
variable {s : State} {i : Nat} {e : PrintEntry}

theorem stopAsked_iff : s.stopAsked = true ↔
    ∃ i e, s.print.current = some i ∧ tget s.print.entries i = some e ∧ e.stopRequested = true := by
  unfold State.stopAsked State.printEntry
  cases s.print.current with
  | none => simp
  | some i =>
    dsimp only
    cases found : tget s.print.entries i with
    | none => simp [found]
    | some e => simp [found]

theorem stopAsked_entry (h : s.print.current = some i) (k : tget s.print.entries i = some e) :
    s.stopAsked = e.stopRequested := by
  simp only [State.stopAsked, h, State.printEntry, k]

theorem endCopy_more (h : tget s.print.entries i = some e) (k : 2 ≤ e.copiesLeft) : s.endCopy i =
    (State.recomputePrinter { s with print := { s.print with
      current := none
      entries := tmod s.print.entries i (fun x => { x with
        copiesPrinted := x.copiesPrinted + 1, copiesLeft := x.copiesLeft - 1, state := .waiting, pageIndex := 0 }) } }
      none).printSelect := by
  simp only [State.endCopy, State.printEntry, h, if_neg (show ¬ e.copiesLeft ≤ 1 by omega)]
  rfl

theorem endCopy_last (h : tget s.print.entries i = some e) (k : e.copiesLeft ≤ 1) : s.endCopy i =
    ((State.printDone { s with print := { s.print with
      current := none
      entries := tmod s.print.entries i (fun x => { x with
        copiesPrinted := x.copiesPrinted + 1, copiesLeft := x.copiesLeft - 1, state := .waiting, pageIndex := 0 }) } }
      i .complete).recomputePrinter none).printSelect := by
  simp only [State.endCopy, State.printEntry, h, if_pos k]
  rfl

theorem beginPrintPage_sealed {k : Nat} {y : PageRec} (h : s.print.current = some i)
    (m : tget s.print.entries i = some e)
    (page : s.readPage e.document e.pageIndex = .isSealed k y) : s.beginPrintPage =
      if s.print.coverClosed = true ∧ s.print.paperPresent = true then s.startSheet k y else s := by
  simp only [State.beginPrintPage, h, State.printEntry, m, page, Bool.and_eq_true]

theorem beginPrintPage_waits (h : s.print.current = some i) (m : tget s.print.entries i = some e)
    (page : s.readPage e.document e.pageIndex = .notReady) : s.beginPrintPage = s := by
  simp only [State.beginPrintPage, h, State.printEntry, m, page]

theorem beginPrintPage_ends (h : s.print.current = some i) (m : tget s.print.entries i = some e)
    (page : s.readPage e.document e.pageIndex = .noSuchPage) : s.beginPrintPage = s.endCopy i := by
  simp only [State.beginPrintPage, h, State.printEntry, m, page]

theorem rereadCurrent_other (h : s.print.current = some i) (m : tget s.print.entries i = some e) {d : Nat}
    (k : d ≠ e.document ∨ s.print.sheet ≠ .noSheet) (q : Option Nat) : s.rereadCurrent d q = s := by
  simp only [State.rereadCurrent, h, State.printEntry, m]
  exact if_pos (k.imp_left Ne.symm)

theorem rereadCurrent_reads (h : s.print.current = some i) (m : tget s.print.entries i = some e)
    (k : s.print.sheet = .noSheet) (q : Option Nat) :
    (∀ p y, s.readPage e.document e.pageIndex = .isSealed p y →
      s.rereadCurrent e.document q = if q = some p then s.beginPrintPage else s)
    ∧ (s.readPage e.document e.pageIndex = .noSuchPage → s.rereadCurrent e.document q = s.beginPrintPage) := by
  have reads : ¬ (e.document ≠ e.document ∨ s.print.sheet ≠ .noSheet) := by simp [k]
  unfold State.rereadCurrent State.printEntry
  simp only [h, m, if_neg reads]
  exact ⟨fun p y page => by simp only [page], fun page => by simp only [page]⟩

theorem rereadCurrent_waits (h : s.print.current = some i) (m : tget s.print.entries i = some e)
    (page : s.readPage e.document e.pageIndex = .notReady) (q : Option Nat) : s.rereadCurrent e.document q = s := by
  simp only [State.rereadCurrent, h, State.printEntry, m, page]
  exact ite_self s

theorem printerLevelLow_none (h : s.print.sheet = .noSheet) : s.printerLevelLow = s.recomputePrinter none := if_pos h

/-- The engine with its sheet abandoned (R174). -/
def State.sheetAbandoned (s : State) : State :=
  { s with print := { s.print with sheet := .noSheet, decoder := none, draining := false } }

theorem printerLevelLow_free (h : s.print.sheet ≠ .noSheet) (k : s.print.current = none) :
    s.printerLevelLow = s.sheetAbandoned.recomputePrinter none := by
  unfold State.printerLevelLow
  rw [if_neg h, k]
  rfl

theorem printerLevelLow_entry (h : s.print.sheet ≠ .noSheet) (k : s.print.current = some i)
    (m : tget s.print.entries i = some e) : s.printerLevelLow =
      let t := s.sheetAbandoned.recomputePrinter (some (i, e.document, e.pageIndex))
      if e.stopRequested then t.endPrintNow i else t := by
  unfold State.printerLevelLow State.printEntry
  rw [if_neg h]
  split
  next none => exact nomatch k.symm.trans none
  next j here =>
    obtain rfl : j = i := Option.some.inj (here.symm.trans k)
    split
    next none => exact nomatch m.symm.trans none
    next x found =>
      obtain rfl : x = e := Option.some.inj (found.symm.trans m)
      rfl

end entry

/-! ## Messages of the printer -/

section messages
variable {s : State}

theorem lineDone_flight (h : s.part = .running) (k : s.print.sheet = .lineInFlight) (t : Nat) : s.lineDone t =
    let t1 := State.takeTemperature { s with print := { s.print with sheet := .sheetStarted } } t
    if t1.print.draining || t1.stopAsked then t1.sheetOut else t1.advanceSheet :=
  (if_neg (fun n => n h)).trans (if_pos k)

theorem lineDone_other (h : s.part = .running) (k : s.print.sheet ≠ .lineInFlight) (t : Nat) :
    s.lineDone t = (s.takeTemperature t).resumePrinter :=
  (if_neg (fun n => n h)).trans (if_neg k)

theorem takeTemp_running (h : s.part = .running) (t : Nat) : s.takeTemp t = (s.takeTemperature t).resumePrinter :=
  if_neg (fun n => n h)

/-- The engine with its sheet ejected (R172). -/
def State.sheetGone (s : State) : State := { s with print := { s.print with sheet := .noSheet, decoder := none } }

theorem sheetDone_rests (h : s.print.sheet ≠ .feedingOut) : s.sheetDone = s := if_pos (.inr h)

theorem sheetDone_drained (h : s.part = .running) (k : s.print.sheet = .feedingOut) (m : s.print.draining = true) :
    s.sheetDone = (State.recomputePrinter { s.sheetGone with print := { s.sheetGone.print with
      draining := false } } none).printSelect :=
  (if_neg (by simp [h, k])).trans (if_pos m)

theorem sheetDone_free (h : s.part = .running) (k : s.print.sheet = .feedingOut) (m : s.print.draining = false)
    (free : s.print.current = none) : s.sheetDone = s.sheetGone := by
  unfold State.sheetDone
  rw [if_neg (by simp [h, k]), if_neg (ne_true_of_eq_false m)]
  split
  next => rfl
  next j here => exact nomatch free.symm.trans here

theorem sheetDone_entry {i : Nat} (h : s.part = .running) (k : s.print.sheet = .feedingOut)
    (m : s.print.draining = false) (here : s.print.current = some i) : s.sheetDone =
      let t := s.sheetGone.modPrintEntry i (fun e => { e with ejected := e.ejected + 1 })
      if s.stopAsked then t.endPrintNow i
      else (t.modPrintEntry i (fun e => { e with pageIndex := e.pageIndex + 1 })).beginPrintPage := by
  unfold State.sheetDone
  rw [if_neg (by simp [h, k]), if_neg (ne_true_of_eq_false m)]
  split
  next none => exact nomatch here.symm.trans none
  next j found =>
    obtain rfl : j = i := Option.some.inj (found.symm.trans here)
    rfl

end messages

theorem output_flash {d : Sounder} {n : Nat} (h : d.flash = some n) :
    d.output = if n % 2 = 0 ∧ d.flashReload ≠ 0 then some (.flash, d.flashReload) else none := by
  simp only [Sounder.output, h]

theorem output_paper {d : Sounder} (h : d.flash = none) (k : d.paper = some true) :
    d.output = if d.paperReload ≠ 0 then some (.paper, d.paperReload) else none := by
  simp only [Sounder.output, h, k]

theorem output_silent {d : Sounder} (h : d.flash = none) (k : d.paper ≠ some true) : d.output = none := by
  cases paper : d.paper with
  | none => simp only [Sounder.output, h, paper]
  | some on =>
    cases on with
    | true => exact absurd paper k
    | false => simp only [Sounder.output, h, paper]

/-! ## The head goes on (R173 to R175), the levels and the patterns (R174, R178) -/

section levels
variable {s : State}

theorem resumePrinter_paused (h : s.print.state = .printing) (k : s.print.sheet = .sheetStarted) :
    s.resumePrinter = s.advanceSheet := by
  simp only [State.resumePrinter, h, k]

theorem resumePrinter_waiting (h : s.print.state = .printing) (k : s.print.sheet = .noSheet) :
    s.resumePrinter = s.beginPrintPage := by
  simp only [State.resumePrinter, h, k]

theorem resumePrinter_busy (h : s.print.state = .printing)
    (k : s.print.sheet = .lineInFlight ∨ s.print.sheet = .feedingOut) : s.resumePrinter = s := by
  obtain k | k := k
  · simp only [State.resumePrinter, h, k]
  · simp only [State.resumePrinter, h, k]

theorem resumePrinter_ready (h : s.print.state = .ready) : s.resumePrinter = s.printSelect := by
  simp only [State.resumePrinter, h]

theorem resumePrinter_stopped (h : s.print.state = .headHot ∨ s.print.state = .paperOut ∨ s.print.state = .coverOpen) :
    s.resumePrinter = s := by
  obtain h | h | h := h
  all_goals simp only [State.resumePrinter, h]

theorem paperChange_still (h : s.part ≠ .running) (b : Bool) :
    s.paperChange b = { s with print := { s.print with paperPresent := b } } := by
  by_cases same : b = s.print.paperPresent
  · rw [State.paperChange, if_pos same, same]
  · exact (if_neg same).trans (if_pos h)

theorem coverChange_still (h : s.part ≠ .running) (b : Bool) :
    s.coverChange b = { s with print := { s.print with coverClosed := b } } := by
  by_cases same : b = s.print.coverClosed
  · rw [State.coverChange, if_pos same, same]
  · exact (if_neg same).trans (if_pos h)

/-- The engine with a changed level of paper present (R173, R178). -/
def State.paperLevel (s : State) (b : Bool) : State := { s with print := { s.print with
  paperPresent := b
  sounder := { s.print.sounder with paper := if b then none else some true } } }

theorem paperChange_high (h : s.part = .running) (k : s.print.paperPresent = false) :
    s.paperChange true = ((s.paperLevel true).recomputePrinter none).resumePrinter :=
  (if_neg (by simp [k])).trans ((if_neg (fun n => n h)).trans (if_pos rfl))

theorem paperChange_low (h : s.part = .running) (k : s.print.paperPresent = true) :
    s.paperChange false = (s.paperLevel false).printerLevelLow :=
  (if_neg (by simp [k])).trans ((if_neg (fun n => n h)).trans (if_neg (by decide)))

theorem coverChange_high (h : s.part = .running) (k : s.print.coverClosed = false) : s.coverChange true =
    (State.recomputePrinter { s with print := { s.print with coverClosed := true } } none).resumePrinter :=
  (if_neg (by simp [k])).trans ((if_neg (fun n => n h)).trans (if_pos rfl))

theorem coverChange_low (h : s.part = .running) (k : s.print.coverClosed = true) : s.coverChange false =
    State.printerLevelLow { s with print := { s.print with coverClosed := false } } :=
  (if_neg (by simp [k])).trans ((if_neg (fun n => n h)).trans (if_neg (by decide)))

theorem patternTimer_flash {n : Nat} (h : s.print.sounder.flash = some n) : s.patternTimer .flash =
    { s with print := { s.print with sounder := { s.print.sounder with flash := if n < 4 then some (n +
      1) else none } } } := by
  unfold State.patternTimer
  simp only
  rw [h]

theorem patternTimer_flash_quiet (h : s.print.sounder.flash = none) : s.patternTimer .flash = s := by
  have same : ({ s.print.sounder with flash := none } : Sounder) = s.print.sounder := by rw [← h]
  unfold State.patternTimer
  simp only
  rw [h, same]

end levels

/-- Settles O58: a page read by `readPage_page`, the selection by `printSelect_selects`, each message by the state of
the sheet and the head's entry. -/
theorem printerFollowsItsHead : Obligations.PrinterFollowsItsHead := by
  intro s p put heated warm
  have retry {t t' : State} (e : t = t') :
      (Host.Outcome.next t.scanRetry : Host.Outcome State Fault Refusal) = .next t'.scanRetry :=
    congrArg (fun t => Host.Outcome.next (State.scanRetry t)) e
  obtain ⟨coverOpen, paperOut, headHot, printing⟩ := derived_cases p
  refine ⟨fun d i => ⟨readPage_noDoc, fun r h => ⟨readPage_past h, fun k x hk hx => ?page⟩⟩, fun c ts => ?dots,
    ?sounder,
    coverOpen, paperOut, headHot, printing, fun a h => recomputePrinter_same h, fun a h => ?state, fun b k t => rfl,
    fun still t => ?still, fun running t => ?heat, stopAsked_iff, fun k r => rfl, ?select, fun i e h => ?copy, rfl,
    fun d h => ?sheet, fun state sheet => ?paused, fun state sheet => ?waiting, fun state sheet => ?busy,
    fun state => ?ready, fun state => ?stopped, fun i e h m => ?current,
    fun running sheet => retry (sheetDone_rests sheet), fun running sheet => ?done, retry (if_pos rfl),
    retry (if_pos rfl),
    fun still b => ?levels, fun running => ?changes, printerLevelLow_none, fun sheet => ?low, rfl, fun quiet => ?quiet,
    fun n sounds => ?sounds⟩
  case page =>
    have read := readPage_page h hk hx
    exact ⟨fun done => read.trans (if_pos done), fun filling => read.trans (if_neg (by rw [filling]; decide))⟩
  case dots =>
    exact ⟨cropPad_length (lineDots_length _ _), fun i hi => cropPad_get (lineDots_length _ _) hi⟩
  case sounder =>
    intro d
    refine ⟨fun n h => ⟨fun even loud => (output_flash h).trans (if_pos ⟨even, loud⟩),
      fun k => (output_flash h).trans (if_neg ?_)⟩,
      fun h => ⟨fun on loud => (output_paper h on).trans (if_pos loud), fun k => ?_⟩⟩
    · rintro ⟨even, loud⟩
      exact k.elim (fun odd => by omega) loud
    · by_cases on : d.paper = some true
      · exact (output_paper h on).trans (if_neg (fun loud => k.elim (fun off => off on) loud))
      · exact output_silent h on
  case state =>
    intro silent t
    have iff : silent p.derived ∧ silent p.state ↔ p.derived.posts = false ∧ p.state.posts = false :=
      and_congr (posts_iff _).symm (posts_iff _).symm
    exact ⟨fun k => (recomputePrinter_silent h (iff.1 k).1 (iff.1 k).2).trans rfl,
      fun k => (recomputePrinter_posts h (fun x => k (iff.2 x))).trans rfl⟩
  case still =>
    exact ⟨retry (if_pos still), retry (if_pos still), retry (if_pos (.inl still))⟩
  case heat =>
    refine ⟨retry (takeTemp_running running t), fun sheet => retry (lineDone_other running sheet t), fun sheet => ?_⟩
    intro t1
    have line : s.lineDone t = if t1.print.draining || t1.stopAsked then t1.sheetOut else t1.advanceSheet :=
      lineDone_flight running sheet t
    exact ⟨fun k => retry (line.trans (if_pos (by rwa [Bool.or_eq_true]))),
      fun drains stops => retry (line.trans (if_neg (by rw [drains, stops]; decide)))⟩
  case select =>
    intro starts goesFirst
    refine ⟨printSelect_busy, fun none => printSelect_nothing fun x hx => ?_,
      fun i e k r free ready mem waits page first => ?_⟩
    · exact Bool.eq_false_iff.2 fun k => none x hx ((canStart_iff _).1 k)
    · refine (printSelect_selects free ready mem ((canStart_iff e).2 ⟨waits, k, r, page⟩) page fun x hx other can =>
        ?_).trans rfl
      exact (printBefore_iff _ _).2 (first x hx other ((canStart_iff _).1 can))
  case copy =>
    intro t
    exact ⟨fun more => (endCopy_more h more).trans rfl, fun last => (endCopy_last h last).trans rfl, rfl, rfl⟩
  case sheet =>
    refine ⟨advanceSheet_out h, advanceSheet_held h, fun empty none => headHeld_empty empty none d, headHeld_rests,
      fun ts d' free found => ⟨nextHeadLine_width found, fun state => ?_, fun state => ?_⟩, nextHeadLine_again,
      nextHeadLine_end,
      fun r ts n again more page good => nextHeadLine_good again more page good⟩
    · refine (advanceSheet_line h free found).trans ((if_pos state).trans ?_)
      rw [← nextHeadLine_width found]
      rfl
    · exact (advanceSheet_line h free found).trans (if_neg state)
  case paused => exact resumePrinter_paused state sheet
  case waiting => exact resumePrinter_waiting state sheet
  case busy => exact resumePrinter_busy state sheet
  case ready => exact resumePrinter_ready state
  case stopped => exact resumePrinter_stopped state
  case current =>
    refine ⟨fun k y page => ⟨beginPrintPage_sealed h m page,
      fun sheet q => (rereadCurrent_reads h m sheet q).1 k y page⟩,
      fun page => ⟨beginPrintPage_waits h m page, rereadCurrent_waits h m page⟩,
      fun page => ⟨beginPrintPage_ends h m page, fun sheet q => ?_⟩, fun d q k => rereadCurrent_other h m k q⟩
    exact ((rereadCurrent_reads h m sheet q).2 page).trans (beginPrintPage_ends h m page)
  case done =>
    intro q
    refine ⟨fun drains => retry ((sheetDone_drained running sheet drains).trans rfl),
      fun kept free => retry ((sheetDone_free running sheet kept free).trans rfl), fun i e kept here found => ?_⟩
    have asked : s.stopAsked = e.stopRequested := stopAsked_entry here found
    have ends := sheetDone_entry running sheet kept here
    exact ⟨fun stop => retry (ends.trans (if_pos (asked.trans stop))),
      fun goes => retry (ends.trans (if_neg (ne_true_of_eq_false (asked.trans goes))))⟩
  case levels => exact ⟨retry (paperChange_still still b), retry (coverChange_still still b)⟩
  case changes =>
    intro paper cover
    exact ⟨fun gone => retry (paperChange_high running gone), fun here => retry (paperChange_low running here),
      fun up => retry (coverChange_high running up), fun down => retry (coverChange_low running down)⟩
  case low =>
    intro q
    refine ⟨fun free => printerLevelLow_free sheet free, fun i e here found => ?_⟩
    have low := printerLevelLow_entry sheet here found
    exact ⟨fun goes => low.trans (if_neg (ne_true_of_eq_false goes)), fun stop => low.trans (if_pos stop)⟩
  case quiet => exact congrArg Host.Outcome.next (patternTimer_flash_quiet quiet)
  case sounds => exact congrArg Host.Outcome.next (patternTimer_flash sounds)

end Sys2Proof.Machine
end

section
/-! SUPPORT. The Meter: charges, the charge record, burns and the power warning (R185 to R197). -/

namespace Sys2Proof.Machine

open Sys2Proof

/-! ## The units of a call (R186, R187) -/

/-- One unit of a zone charged to a call. -/
def MeterRec.charged (z : Zone) (r : MeterRec) (b : Band) : MeterRec :=
  { r with
    charge := min 4294967295 (r.charge + z.price.get b)
    units := r.units.set b (min 65535 (r.units.get b + 1)) }

theorem settle_due (x : MeterRec) (b : Band) (rest : List Band) :
    MeterRec.settle { x with due := b :: rest } = { x.charged x.zone b with due := rest } := rfl

/-- The units in line are charged one by one, and then none is in line. -/
theorem settleAll_eq (l : List Band) (x : MeterRec) :
    l.foldl (fun t _ => t.settle) { x with due := l } = { l.foldl (MeterRec.charged x.zone) x with due := [] } := by
  induction l generalizing x with
  | nil => rfl
  | cons b rest ih => exact ih (x.charged x.zone b)

/-- Charging units moves the charge and the counts alone. -/
theorem foldl_charged_frame (z : Zone) (l : List Band) (x : MeterRec) :
    l.foldl (MeterRec.charged z) x = { x with
      charge := (l.foldl (MeterRec.charged z) x).charge
      units := (l.foldl (MeterRec.charged z) x).units } := by
  induction l generalizing x with
  | nil => rfl
  | cons b rest ih => exact ih (x.charged z b)

theorem settled_eq (r : MeterRec) : r.settled = { r.due.foldl (MeterRec.charged r.zone) r with due := [] } :=
  settleAll_eq r.due r

theorem settled_frame (r : MeterRec) :
    r.settled = { r with charge := r.settled.charge, units := r.settled.units, due := [] } := by
  rw [settled_eq]
  conv_lhs => rw [foldl_charged_frame]

section charge
variable {s : State} {u : UnitId} {r : MeterRec}

theorem settleMeter_waits (h : s.stalled .meter = true ∨ s.meter.work ≠ []) : s.settleMeter u = s :=
  if_pos (meterWaits_iff.2 h)

theorem settleMeter_quiet (h : ∀ r, s.meter.recs.get u = some r → r.due = []) : s.settleMeter u = s := by
  unfold State.settleMeter
  split
  · rfl
  · split
    · rfl
    · next r found => simp only [h r found]

theorem settleMeter_due {b : Band} {rest : List Band} (h : ¬ (s.stalled .meter = true ∨ s.meter.work ≠ []))
    (found : s.meter.recs.get u = some r) (due : r.due = b :: rest) : s.settleMeter u =
      (s.setMeterRec u (some { r.charged r.zone b with due := rest })).addCharge r.desk (r.zone.price.get b) := by
  have settled : r.settle = { r.charged r.zone b with due := rest } := by
    simp only [MeterRec.settle, due]
    rfl
  unfold State.settleMeter
  rw [if_neg (fun k => h (meterWaits_iff.1 k)), found]
  simp only [due, settled]

theorem chargeDesk_waits (h : s.stalled .meter = true ∨ s.meter.work ≠ []) (d n : Nat) :
    s.chargeDesk d n = s.giveMeter (.charge d n) := if_pos (meterWaits_iff.2 h)

theorem chargeDesk_charges (h : ¬ (s.stalled .meter = true ∨ s.meter.work ≠ [])) (d n : Nat) :
    s.chargeDesk d n = s.addCharge d n := if_neg (fun k => h (meterWaits_iff.1 k))

theorem meterStart_some {h : HandOver} {i : Nat} (hand : (s.unit u).handOver = some h)
    (entry : (s.unit u).entry = some i) :
    let b := s.meter.tariff.bandAt s.now
    let amount := h.zone.setup + h.zone.price.get b
    s.meterStart u = (s.setMeterRec u (some
      { zoneIndex := h.zoneIndex, zone := h.zone, desk := h.desk, entry := i, orderSeq := h.orderSeq,
        number := h.number, answer := s.now, elapsed := 0, nextStart := h.zone.len.get b,
        units := (PerBand.mk 0 0 0).set b 1, charge := min 4294967295 amount,
        due := [] })).chargeDesk h.desk amount := by
  simp only [State.meterStart, hand, entry]
  rfl

theorem meterRelease_none (h : s.meter.recs.get u = none) : s.meterRelease u = s := by
  simp only [State.meterRelease, h]

theorem meterRelease_waits (h : s.stalled .meter = true ∨ s.meter.work ≠ []) (found : s.meter.recs.get u = some r) :
    s.meterRelease u = (s.setMeterRec u none).giveMeter (.release (s.meteredCall u r)) := by
  simp only [State.meterRelease, found]
  exact if_pos (meterWaits_iff.2 h)

theorem meterRelease_forms (h : ¬ (s.stalled .meter = true ∨ s.meter.work ≠ [])) (found : s.meter.recs.get u = some r) :
    s.meterRelease u = (s.formCharge (s.meteredCall u r)).setMeterRec u none := by
  simp only [State.meterRelease, found]
  exact if_neg (fun k => h (meterWaits_iff.1 k))

end charge

/-! ## The charge record (R187, R192) -/

section record
variable {s : State}

/-- The record of a released call, its figures from the units charged. -/
def MeteredCall.formed (c : MeteredCall) (sequence charge : Nat) (units : PerBand Nat) : ChargeRecord :=
  { sequence := sequence, orderSeq := c.record.orderSeq, answer := c.record.answer, duration := c.record.elapsed,
    charge := charge, bytes := c.bytes, entry := c.record.entry, units := units, desk := c.record.desk, unit := c.unit,
    zone := c.record.zoneIndex, result := c.result, confirmed := c.confirmed, number := c.record.number }

theorem charged_eq (c : MeteredCall) (n : Nat) :
    c.charged n = c.formed n c.record.settled.charge c.record.settled.units := by
  unfold MeteredCall.charged
  rw [settled_frame]
  rfl

/-- What the Meter does at a release, in its order (R187). -/
theorem formCharge_eq (c : MeteredCall) : s.formCharge c =
    let t := s.chargeDue c.record
    let t1 := State.placeCharge { t with meter := { t.meter with
      desks := tmod t.meter.desks c.record.desk (fun k => { k with calls := min 16777215 (k.calls + 1) })
      recordSeq := t.meter.recordSeq + 1 } }
      (c.formed t.meter.recordSeq c.record.settled.charge c.record.settled.units)
    { t1 with sendq := { t1.sendq with entries := tmod t1.sendq.entries c.record.entry (fun e => { e with
      chargeTotal := min 4294967295 (e.chargeTotal + c.record.settled.charge)
      attemptCharge := c.record.settled.charge }) } } := by
  have desk : c.record.settled.desk = c.record.desk := by rw [settled_frame]
  have entry : c.record.settled.entry = c.record.entry := by rw [settled_frame]
  unfold State.formCharge
  simp only [charged_eq, desk, entry]
  rfl

theorem placeCharge_full (c : ChargeRecord)
    (h : ¬ (s.meter.overflow = [] ∧ (s.meter.producer - s.meter.consumer).toNat < s.meter.logSize)) :
    s.placeCharge c = { s with meter := { s.meter with overflow := s.meter.overflow ++ [c] } } :=
  if_neg (fun k => h ⟨k.1, logRoom_iff.1 k.2⟩)

theorem placeCharge_writes (c : ChargeRecord)
    (h : s.meter.overflow = [] ∧ (s.meter.producer - s.meter.consumer).toNat < s.meter.logSize) :
    s.placeCharge c = s.writeCharge c := if_pos ⟨h.1, logRoom_iff.2 h.2⟩

/-- A charge record's fields in their order (Table 12-7). -/
theorem record_fields (c : ChargeRecord) : c.record =
    leBytes 4 c.sequence ++ leBytes 4 c.orderSeq.toNat ++ leBytes 4 c.answer.word ++ leBytes 4 c.duration
      ++ leBytes 4 c.charge ++ leBytes 4 c.bytes ++ leBytes 2 c.entry
      ++ leBytes 2 c.units.peak ++ leBytes 2 c.units.shoulder ++ leBytes 2 c.units.night
      ++ [byteOf c.desk, byteOf (unitNum c.unit), byteOf c.zone, byteOf (c.result.elim 0 attemptCode),
        byteOf c.confirmed]
      ++ [0, 0] ++ byteOf c.number.length :: (c.number.take 24 ++ List.replicate (24 - c.number.length) 0) := by
  rw [ChargeRecord.record, optCode_eq, textField_eq]

theorem record_length (c : ChargeRecord) : c.record.length = 64 := by
  simp only [ChargeRecord.record, List.length_append, leBytes_length, textField_length, List.length_cons,
    List.length_nil]

theorem finishWork_charge (d n : Nat) : s.finishWork (.charge d n) =
    { s.addCharge d n with meter := { (s.addCharge d n).meter with work := (s.addCharge d n).meter.work.tail } } := rfl

theorem finishWork_release (c : MeteredCall) : s.finishWork (.release c) = State.settleReports
    { s.formCharge c with meter := { (s.formCharge c).meter with work := (s.formCharge c).meter.work.tail } }
      c.record.entry := rfl

theorem finishWork_consumer (v : Word) : s.finishWork (.consumer v) =
    { s.takeChargeConsumer v with meter :=
      { (s.takeChargeConsumer v).meter with work := (s.takeChargeConsumer v).meter.work.tail } } := rfl

end record

/-! ## The tests of a charge, and burns (R194, R195) -/

section burns
variable {s : State} {d : Nat} {k : Desk} {b : Burn}

theorem pendingAmount_eq (k : Desk) : k.pendingAmount = k.working - k.captured.elim k.burned (fun c => c.1) := by
  unfold Desk.pendingAmount
  cases k.captured <;> rfl

theorem queueBurn_out (h : s.desk d = some k) {r : BurnReason}
    (out : d ∈ s.meter.burnQueue.map (fun x => x.1) ∨ (k.audit = true ∧ r ≠ .auditClear)) : s.queueBurn d r = s := by
  simp only [State.queueBurn, h]
  exact if_pos (out.imp_left (fun mem => by simpa [List.any_eq_true, List.mem_map] using mem))

theorem queueBurn_joins (h : s.desk d = some k) {r : BurnReason}
    (new : ¬ (d ∈ s.meter.burnQueue.map (fun x => x.1) ∨ (k.audit = true ∧ r ≠ .auditClear))) :
    s.queueBurn d r = { s with meter := { s.meter with burnQueue := s.meter.burnQueue ++ [(d, r)] } } := by
  simp only [State.queueBurn, h]
  exact if_neg (fun out => new (out.imp_left (fun any => by simpa [List.any_eq_true, List.mem_map] using any)))

theorem chargeTests_some (h : s.desk d = some k) : s.chargeTests d =
    let t := if s.meter.checkpoint ≤ k.pendingAmount ∧ k.captured = none then s.queueBurn d .threshold else s
    (if s.meter.warning then t.queueBurn d .power else t).startBurn := by
  simp only [State.chargeTests, h]

theorem startBurn_rests (h : s.meter.burn ≠ none ∨ s.meter.burnQueue = []) : s.startBurn = s := by
  unfold State.startBurn
  split
  next d r rest free queue =>
    obtain busy | empty := h
    · exact absurd free busy
    · exact nomatch empty.symm.trans queue
  next => rfl

/-- The next burn begins with the values captured then (R195). -/
theorem startBurn_begins {r : BurnReason} {rest : List (Nat × BurnReason)} (free : s.meter.burn = none)
    (queue : s.meter.burnQueue = (d, r) :: rest) (h : s.desk d = some k) :
    s.startBurn = { s with meter := { s.meter with
      burnQueue := rest
      burnsBegun := s.meter.burnsBegun + 1
      burn := some { number := s.meter.burnsBegun, desk := d, reason := r, lifetime := k.working, calls := k.calls,
                     sequence := ((s.storeCell d).sequence + 1) % 65536 }
      cells := tset s.meter.cells d { s.storeCell d with writing := true }
      desks := tmod s.meter.desks d (fun x => { x with captured := some (x.working, x.calls) }) } } := by
  unfold State.startBurn
  split
  next d' r' rest' _ queue' =>
    obtain ⟨⟨rfl, rfl⟩, rfl⟩ : (d' = d ∧ r' = r) ∧ rest' = rest := by
      simpa using queue'.symm.trans queue
    split
    next none => exact nomatch h.symm.trans none
    next k' found =>
      obtain rfl : k' = k := Option.some.inj (found.symm.trans h)
      rfl
  next other => exact absurd queue (other d r rest free)

theorem burnOf_none {n : Nat} (h : (∀ b, s.meter.burn = some b → b.number ≠ n) ∨ s.stalled .meter = true) :
    s.burnOf n = none := by
  unfold State.burnOf
  split
  · rfl
  · next b found =>
    refine if_neg ?_
    rintro ⟨number, free⟩
    obtain other | waits := h
    · exact other b found number
    · exact nomatch waits.symm.trans free

theorem burnOf_some (h : s.meter.burn = some b) (free : s.stalled .meter = false) : s.burnOf b.number = some b := by
  simp only [State.burnOf, h, free, and_self, if_true]

theorem burnEnds_none {n : Nat} (h : s.burnOf n = none) : s.burnVerified n = s ∧ s.burnFailed n = s := by
  simp only [State.burnVerified, State.burnFailed, h, and_self]

/-- The part with a burn verified (R195). -/
def State.burnt (s : State) (b : Burn) : State :=
  State.post { s with meter := { s.meter with
    burn := none
    cells := tset s.meter.cells b.desk
      { lifetime := b.lifetime, calls := b.calls, sequence := b.sequence, torn := false, writing := false }
    desks := tmod s.meter.desks b.desk (fun x => { x with burned := b.lifetime, torn := false, captured := none }) } }
    .meter (.meterBurn b.desk .done (some b.reason) b.lifetime b.calls b.sequence)

theorem burnVerified_some {n : Nat} (h : s.burnOf n = some b) :
    s.burnVerified n = ((s.burnt b).thresholdTest b.desk).startBurn := by
  simp only [State.burnVerified, h]
  rfl

/-- After a verified burn only what has been charged since is pending (R194). -/
theorem thresholdTest_burnt (h : s.desk b.desk = some k) : (s.burnt b).thresholdTest b.desk =
    if s.meter.checkpoint ≤ k.working - b.lifetime then (s.burnt b).queueBurn b.desk .threshold else s.burnt b := by
  have desk : (s.burnt b).desk b.desk = some { k with burned := b.lifetime, torn := false, captured := none } := by
    have desks : (s.burnt b).desk b.desk = tget (tmod s.meter.desks b.desk (fun x =>
        { x with burned := b.lifetime, torn := false, captured := none })) b.desk := rfl
    rw [desks, tget_tmod, if_pos rfl, show tget s.meter.desks b.desk = some k from h]
    rfl
  simp only [State.thresholdTest, desk]
  rfl

/-- The part with a burn that has failed (R195). -/
def State.burnTorn (s : State) (b : Burn) : State :=
  State.post { s with meter := { s.meter with
    burn := none
    burnQueue := s.meter.burnQueue.filter (fun x => x.1 ≠ b.desk)
    cells := tset s.meter.cells b.desk { s.storeCell b.desk with torn := true, writing := false }
    desks := tmod s.meter.desks b.desk (fun x => { x with torn := true, captured := none, audit := true }) } }
    .meter (.meterBurn b.desk .failed (some b.reason) b.lifetime b.calls b.sequence)

theorem burnFailed_some {n : Nat} (h : s.burnOf n = some b) :
    s.burnFailed n = ((s.burnTorn b).deskRecompute b.desk .burnFailed).startBurn := by
  simp only [State.burnFailed, h]
  rfl

end burns

/-! ## The power warning (R197) -/

section warning
variable {s : State}

theorem warningBegins_rests (h : s.meter.monitor = false ∨ s.meter.supplyLow = false ∨ s.meter.warning = true
    ∨ s.stalled .meter = true) : s.warningBegins = s := by
  refine if_neg ?_
  rintro ⟨monitor, low, quiet, free⟩
  obtain h | h | h | h := h
  · exact nomatch h.symm.trans monitor
  · exact nomatch h.symm.trans low
  · exact nomatch h.symm.trans quiet
  · exact nomatch h.symm.trans free

theorem warningBegins_warns (h : s.meter.monitor = true) (low : s.meter.supplyLow = true)
    (quiet : s.meter.warning = false) (free : s.stalled .meter = false) : s.warningBegins =
      ((s.meter.desks.filter (fun x => 0 < x.2.pendingAmount)).foldl (fun t x => t.queueBurn x.1 .power)
        (State.post { s with meter := { s.meter with warning := true } } .meter (.power true))).startBurn := by
  refine (if_pos ⟨h, low, quiet, free⟩).trans (congrArg State.startBurn ?_)
  rw [eachNum, State.pendingDesks, List.foldl_map]
  rfl

theorem warningEnds_rests (h : s.meter.monitor = false ∨ s.meter.supplyLow = true ∨ s.meter.warning = false
    ∨ s.stalled .meter = true) : s.warningEnds = s := by
  refine if_neg ?_
  rintro ⟨monitor, good, warned, free⟩
  obtain h | h | h | h := h
  · exact nomatch h.symm.trans monitor
  · exact nomatch h.symm.trans good
  · exact nomatch h.symm.trans warned
  · exact nomatch h.symm.trans free

theorem warningEnds_ends (h : s.meter.monitor = true) (good : s.meter.supplyLow = false)
    (warned : s.meter.warning = true) (free : s.stalled .meter = false) : s.warningEnds =
      (State.post { s with meter := { s.meter with warning := false } } .meter (.power false)).arbiterPasses :=
  if_pos ⟨h, good, warned, free⟩

end warning

/-- Settles O59: units by `settleMeter_due`, the record by `formCharge_eq`, burns by `startBurn_begins` and the burn in
progress, the warning by the sensed supply. -/
theorem meterChargesAndBurns : Obligations.MeterChargesAndBurns := by
  intro s m put waits gives
  have now {t t' : State} (e : t = t') : (Host.Outcome.next t : Host.Outcome State Fault Refusal) = .next t' :=
    congrArg _ e
  refine ⟨fun u quiet => now (settleMeter_quiet quiet), fun w u => now (settleMeter_waits w), fun full => ⟨fun n => ?_,
      now (warningBegins_rests (.inr (.inr (.inr full)))), now (warningEnds_rests (.inr (.inr (.inr full))))⟩,
    fun u r b rest free found due => now ((settleMeter_due free found due).trans rfl),
    fun d n => ⟨fun w => chargeDesk_waits w d n, fun free => chargeDesk_charges free d n⟩, fun d n k h => rfl,
    fun d k h => ?tests, fun u h i hand entry => (meterStart_some hand entry).trans rfl, fun u => meterRelease_none,
    fun u r found => ?release, fun call => ?form, fun w => ⟨fun d n e => ?_, fun call e => ?_, fun v e => ?_⟩,
    fun v => ?consumer,
    fun c => ?place, fun n other => ?_, fun b k free burn h => ?ends,
    fun d r rest k free queue h => startBurn_begins free queue h, startBurn_rests, fun low => rfl,
    fun h => now (warningBegins_rests (by tauto)),
    fun free monitor low quiet => now (warningBegins_warns monitor low quiet free),
    fun h => now (warningEnds_rests (by tauto)),
    fun free monitor good warned => now (warningEnds_ends monitor good warned free)⟩
  · obtain ⟨verified, failed⟩ := burnEnds_none (burnOf_none (n := n) (.inr full))
    exact ⟨now verified, now failed⟩
  case tests =>
    intro pending full
    have tests := chargeTests_some h
    have pending_eq : k.pendingAmount = pending := pendingAmount_eq k
    rw [pending_eq] at tests
    refine ⟨fun f w => ?_, fun f w => ?_, fun f w => ?_, fun f w => ?_, fun r => ⟨fun out => queueBurn_out h out,
      fun new => queueBurn_joins h new⟩⟩
    · exact tests.trans (congrArg State.startBurn ((if_pos w).trans (congrArg (State.queueBurn · d .power) (if_pos f))))
    · exact tests.trans (congrArg State.startBurn ((if_neg (ne_true_of_eq_false w)).trans (if_pos f)))
    · exact tests.trans (congrArg State.startBurn ((if_pos w).trans (congrArg (State.queueBurn · d .power) (if_neg f))))
    · exact tests.trans (congrArg State.startBurn ((if_neg (ne_true_of_eq_false w)).trans (if_neg f)))
  case release =>
    intro call
    have call_eq : s.meteredCall u r = call := by
      rw [State.meteredCall, pagesConfirmed_eq]
    rw [← call_eq]
    exact ⟨fun w => (meterRelease_waits w found).trans rfl, fun free => (meterRelease_forms free found).trans rfl⟩
  case form =>
    intro r price one paid t c t1
    have paid_eq : r.settled = paid := settled_eq r
    have c_eq : call.formed t.meter.recordSeq r.settled.charge r.settled.units = c := by rw [paid_eq]; rfl
    have formed := formCharge_eq (s := s) call
    simp only [show call.record.settled = paid from paid_eq] at formed
    exact formed.trans rfl
  · rw [e]
    exact finishWork_charge d n
  · rw [e]
    exact finishWork_release call
  · rw [e]
    exact finishWork_consumer v
  case consumer =>
    intro t
    refine ⟨takeChargeConsumer_outside, fun inside => ?_⟩
    rw [State.takeChargeConsumer, if_neg (Nat.not_lt.2 inside)]
    exact if_congr (and_congr_left' logRoom_iff) rfl rfl
  case place =>
    intro room
    exact ⟨placeCharge_full c, fun h => (placeCharge_writes c h).trans rfl, record_fields c, record_length c⟩
  · obtain ⟨verified, failed⟩ := burnEnds_none (burnOf_none (s := s) (.inl other))
    exact ⟨now verified, now failed⟩
  case ends =>
    intro good done
    have this := burnOf_some burn free
    have verified := burnVerified_some this
    rw [thresholdTest_burnt h] at verified
    exact ⟨fun more => now (verified.trans (congrArg State.startBurn (if_pos more))),
      fun less => now (verified.trans (congrArg State.startBurn (if_neg (Nat.not_le_of_lt less)))),
      now (burnFailed_some this)⟩

end Sys2Proof.Machine
end

section
/-! SUPPORT. The Setup Block: its fields, its checks in their order, and its refusal (R46 to R48). -/

namespace Sys2Proof.Machine

open Sys2Proof

/-! ## The fields and the clamp report (R47) -/

theorem mem_readRegions_iff (s : State) (i : Nat) (r : RawRegion) : (i, r) ∈ s.readRegions ↔
    i < 8 ∧ r.base = s.readNum (0x40 + 12 * i) 4 ∧ r.size = s.readNum (0x44 + 12 * i) 4
      ∧ r.code = s.readNum (0x48 + 12 * i) 1 ∧ r.size ≠ 0 := by
  obtain ⟨base, size, code⟩ := r
  simp only [State.readRegions, List.mem_filter, List.mem_map, List.mem_range, Prod.mk.injEq, RawRegion.mk.injEq,
    decide_eq_true_iff]
  constructor
  · rintro ⟨⟨j, hj, rfl, rfl, rfl, rfl⟩, used⟩
    exact ⟨hj, rfl, rfl, rfl, used⟩
  · rintro ⟨hi, rfl, rfl, rfl, used⟩
    exact ⟨⟨i, hi, rfl, rfl, rfl, rfl⟩, used⟩

theorem clampEntry_eq (code v used : Nat) :
    clampEntry code v used = [(code, v, used)].filter (fun x => x.2.1 ≠ x.2.2) := by
  by_cases same : v = used
  · simp [clampEntry, same]
  · simp [clampEntry, same]

theorem clampReport_eq (s : State) : s.clampReport =
    [(1, s.readNum 0xB4 4, max 256 (min 16384 (s.readNum 0xB4 4))),
      (2, s.readNum 0xBC 1, max 1 (min 9 (s.readNum 0xBC 1))),
      (3, s.readNum 0xC1 1, min 15 (s.readNum 0xC1 1))].filter (fun x => x.2.1 ≠ x.2.2) := by
  simp only [State.clampReport, clampEntry_eq, ← List.filter_append]
  rfl

/-- A report of at most three entries stands whole in the status. -/
theorem statusBytes_eq (outcome code : Nat) {rep : List (Nat × Nat × Nat)} (h : rep.length ≤ 3) :
    statusBytes outcome code rep = [byteOf outcome, byteOf code, byteOf rep.length, 0]
      ++ rep.flatMap (fun x => leBytes 2 x.1 ++ [0, 0] ++ leBytes 4 x.2.1 ++ leBytes 4 x.2.2)
      ++ List.replicate (56 - 12 * rep.length) 0 := by
  have entries : (rep.flatMap (fun x => leBytes 2 x.1 ++ [0, 0] ++ leBytes 4 x.2.1 ++ leBytes 4 x.2.2)).length =
      12 * rep.length := by
    clear h
    induction rep with
    | nil => rfl
    | cons x rest ih =>
      rw [List.flatMap_cons, List.length_append, ih]
      simp only [List.length_append, leBytes_length, List.length_cons, List.length_nil]
      omega
  have whole : (([byteOf outcome, byteOf code, byteOf rep.length, 0] : List Byte)
      ++ rep.flatMap (fun x : Nat × Nat × Nat =>
        leBytes 2 x.1 ++ [0, 0] ++ leBytes 4 x.2.1 ++ leBytes 4 x.2.2)).length =
      4 + 12 * rep.length := by
    rw [List.length_append, entries]
    rfl
  rw [statusBytes, fitBytes_of_short (by omega), whole, show 60 - (4 + 12 * rep.length) = 56 - 12 * rep.length by omega]

/-! ## The checks (R48) -/

/-- Two extents with no byte in common. -/
def Apart (x y : Nat × Nat) : Prop := x.2 = 0 ∨ y.2 = 0 ∨ x.1 + x.2 ≤ y.1 ∨ y.1 + y.2 ≤ x.1

theorem extentsMeet_iff (x y : Nat × Nat) : extentsMeet x y = false ↔ Apart x y := by
  rw [← Bool.not_eq_true, extentsMeet, overlaps_iff, Apart]
  omega

theorem anyMeet_iff (l : List (Nat × Nat)) : anyMeet l = false ↔ l.Pairwise Apart := by
  induction l with
  | nil => simp [anyMeet]
  | cons x t ih =>
    simp only [anyMeet, Bool.or_eq_false_iff, List.any_eq_false, Bool.not_eq_true, ih, List.pairwise_cons,
      extentsMeet_iff]

theorem treatmentOf_isSome_iff (c : Nat) : (treatmentOf c).isSome = true ↔ 1 ≤ c ∧ c ≤ 3 := by
  unfold treatmentOf
  split
  · simp
    omega
  · split
    · simp
      omega
    · split
      · simp
        omega
      · simp
        omega

theorem treatmentOf_raster_iff (c : Nat) : treatmentOf c = some .raster ↔ c = 3 := by
  unfold treatmentOf
  split
  · simp
    omega
  · split
    · simp
      omega
    · simp

theorem poolCount_eq (s : State) : s.readSetup.poolCount = max 256 (min 16384 (s.readNum 0xB4 4)) := by
  rw [State.readSetup, clampTo]

theorem rasters_eq (b : SetupRead) : b.rasters = b.regions.filter (fun x => x.2.code = 3) :=
  List.filter_congr fun _ _ => decide_eq_decide.2 (treatmentOf_raster_iff _)

/-- The checks stand in the order of their codes, each once. -/
theorem setupChecks_rising : setupChecks.Pairwise (fun f g => setupFaultCode f < setupFaultCode g) := by decide

theorem mem_setupChecks (f : SetupFault) : f ∈ setupChecks := by cases f <;> decide

theorem fault_none_iff (b : SetupRead) (mem : Nat) : b.fault mem = none ↔ ∀ f, b.holds mem f = true := by
  rw [SetupRead.fault, List.find?_eq_none]
  exact ⟨fun h f => by simpa using h f (mem_setupChecks f), fun h f _ => by simp [h f]⟩

/-- The first check that fails is reported. -/
theorem fault_some_iff (b : SetupRead) (mem : Nat) (f : SetupFault) : b.fault mem = some f ↔
    b.holds mem f = false ∧ ∀ g, setupFaultCode g < setupFaultCode f → b.holds mem g = true := by
  have least (x : SetupFault) (fails : b.holds mem x = false)
      (before : ∀ g, setupFaultCode g < setupFaultCode x → b.holds mem g = true) : b.fault mem = some x :=
    find?_of_least setupFaultCode _ x setupChecks setupChecks_rising (mem_setupChecks x) (by simp [fails])
      (fun g _ other => Nat.not_lt.1 fun less => by simp [before g less] at other)
  refine ⟨fun h => ?_, fun h => least f h.1 h.2⟩
  refine ⟨by simpa using List.find?_some h, fun g less => ?_⟩
  by_contra fails
  obtain ⟨before, after, split, passed⟩ := (List.find?_eq_some_iff_append.1 h).2
  have place := setupChecks_rising
  rw [split] at place
  have here : g ∈ before ++ f :: after := split ▸ mem_setupChecks g
  rcases List.mem_append.1 here with early | late
  · exact fails (by simpa using passed g early)
  · rcases List.mem_cons.1 late with rfl | late
    · exact Nat.lt_irrefl _ less
    · exact Nat.lt_asymm less ((List.pairwise_cons.1 (List.pairwise_append.1 place).2.1).1 g late)

/-! ## The refusal (R46) -/

section refusal
variable {s : State}

theorem setupReady_iff : s.setupReady = true ↔
    s.part = .setup ∧ s.path.blocked 0x40 0x110 = false ∧ s.stalled .memoryPath = false := by
  simp only [State.setupReady, Bool.and_eq_true, decide_eq_true_iff, Bool.not_eq_true', and_assoc]

theorem setupReadDone_waits (h : s.setupReady = false) : s.setupReadDone = s := if_pos (by simp [h])

theorem setupReadDone_refused (h : s.setupReady = true) {f : SetupFault}
    (k : s.readSetup.fault (memBytes s.memSize) = some f) :
    s.setupReadDone = State.writeStatus { s with part := .unconfigured } 2 (setupFaultCode f) := by
  simp only [State.setupReadDone, h, Bool.not_true, Bool.false_eq_true, if_false, k]

/-- The status and the cleared post word, in this order (R46, R49). -/
theorem writeStatus_eq (s : State) (outcome code : Nat) : s.writeStatus outcome code = { s with
    path := (s.path.issue .memoryPath 4 (statusBytes outcome code s.clampReport) none).issue .memoryPath 0 [0, 0, 0,
    0] none } := by
  have zero : leBytes 4 0 = [0, 0, 0, 0] := rfl
  rw [State.writeStatus, zero, State.issue, State.issue]

theorem setupReadDone_accepted (h : s.setupReady = true) (k : s.readSetup.fault (memBytes s.memSize) = none) :
    s.setupReadDone = s.goRunning s.readSetup := by
  simp only [State.setupReadDone, h, Bool.not_true, Bool.false_eq_true, if_false, k]

end refusal

/-- Settles O9: the fields as read, each check by what it tests, the first failure by `fault_some_iff`. -/
theorem setupRefusedReturnsToUnconfigured : Obligations.SetupRefusedReturnsToUnconfigured := by
  refine ⟨fun s waits => ?_, fun s f part free ready fault => ?_, fun s => ?_, fun b mem => ?_,
    fun outcome code rep few => statusBytes_eq outcome code few⟩
  · refine congrArg Host.Outcome.next (setupReadDone_waits ?_)
    rw [← Bool.not_eq_true, setupReady_iff]
    rintro ⟨part, free, ready⟩
    obtain other | blocked | full := waits
    · exact other part
    · exact nomatch free.symm.trans blocked
    · exact nomatch ready.symm.trans full
  · exact congrArg Host.Outcome.next ((setupReadDone_refused (setupReady_iff.2 ⟨part, free, ready⟩) fault).trans
      (writeStatus_eq _ _ _))
  · exact ⟨rfl, rfl, rfl, rfl, rfl, poolCount_eq s, mem_readRegions_iff s, clampReport_eq s⟩
  · intro regions windows implicit apart passes
    have holds_iff (f : SetupFault) : b.holds mem f = true ↔ passes f := by
      cases f with
      | badTreatment =>
        simp only [SetupRead.holds, List.all_eq_true, treatmentOf_isSome_iff]
        rfl
      | badRegion =>
        show _ ↔ ∀ x ∈ regions, x.1 % 4096 = 0 ∧ x.2 % 4096 = 0
        simp only [SetupRead.holds, List.all_eq_true, Bool.and_eq_true, aligned4k, decide_eq_true_iff, regions,
          List.forall_mem_map]
      | tooManyWindows =>
        show _ ↔ windows.length ≤ 2
        rw [SetupRead.holds, rasters_eq, decide_eq_true_iff, List.length_map]
      | logSize => exact decide_eq_true_iff
      | badBase =>
        show _ ↔ ∀ x ∈ implicit, x.1 % 4096 = 0
        simp only [SetupRead.holds, List.all_eq_true, aligned4k, decide_eq_true_iff]
        rfl
      | outside =>
        show _ ↔ ∀ x ∈ regions ++ implicit, x.1 + x.2 ≤ mem
        simp only [SetupRead.holds, List.all_eq_true, decide_eq_true_iff]
        rfl
      | overlapSetup =>
        show _ ↔ ∀ x ∈ regions ++ implicit, Apart x (0, 4096)
        simp only [SetupRead.holds, List.all_eq_true, Bool.not_eq_true', extentsMeet_iff]
        rfl
      | overlapRegions => exact Bool.not_eq_true' _ ▸ anyMeet_iff _
      | overlapRings => exact Bool.not_eq_true' _ ▸ anyMeet_iff _
      | overlapWindow =>
        show _ ↔ ∀ x ∈ windows, ∀ y ∈ implicit, Apart x y
        simp only [SetupRead.holds, rasters_eq, List.all_eq_true, Bool.not_eq_true', List.any_eq_false,
          Bool.not_eq_true,
          extentsMeet_iff, windows, List.forall_mem_map]
        rfl
    have fails_iff (f : SetupFault) : b.holds mem f = false ↔ ¬ passes f := by
      rw [← holds_iff, Bool.not_eq_true]
    refine ⟨(fault_none_iff b mem).trans (forall_congr' holds_iff), fun f => (fault_some_iff b mem f).trans ?_⟩
    rw [fails_iff]
    exact and_congr_right' (forall_congr' fun g => imp_congr_right fun _ => holds_iff g)


end Sys2Proof.Machine
end

section
/-! SUPPORT. The part goes RUNNING: the settings handed to their owners, the Control Page, the desks' cells (R49, R65,
R196). -/

namespace Sys2Proof.Machine

open Sys2Proof

/-! ## Reads of the Setup Block -/

section reads
variable {s t : State}

/-- A read sees page memory and the pending writes alone (R61). -/
theorem readByte_congr (mem : t.mem = s.mem) (path : t.path.pendingWrites = s.path.pendingWrites) (a : Nat) :
    t.readByte a = s.readByte a := by
  rw [State.readByte, State.readByte, mem, path]

theorem readThrough_congr (mem : t.mem = s.mem) (path : t.path.pendingWrites = s.path.pendingWrites) (a n : Nat) :
    t.readThrough a n = s.readThrough a n := by
  induction n generalizing a with
  | zero => rfl
  | succ n ih => rw [State.readThrough, State.readThrough, readByte_congr mem path, ih]

theorem readNum_congr (mem : t.mem = s.mem) (path : t.path.pendingWrites = s.path.pendingWrites) (a n : Nat) :
    t.readNum a n = s.readNum a n := by
  rw [State.readNum, State.readNum, readThrough_congr mem path]

theorem readNum_one (s : State) (a : Nat) : s.readNum a 1 = (s.readByte a).toNat := by
  simp [State.readNum, State.readThrough, leValue]

end reads

theorem mem_table_iff (b : SetupRead) (i : Nat) (r : Region) : (i, r) ∈ b.table ↔
    ∃ x, (i, x) ∈ b.regions ∧ r.base = x.base ∧ r.size = x.size ∧ treatmentOf x.code = some r.treatment := by
  obtain ⟨base, size, treatment⟩ := r
  simp only [SetupRead.table, List.mem_filterMap, Option.map_eq_some_iff, Prod.mk.injEq, Region.mk.injEq, Prod.exists]
  constructor
  · rintro ⟨j, x, mem, u, code, rfl, rfl, rfl, rfl⟩
    exact ⟨x, mem, rfl, rfl, code⟩
  · rintro ⟨x, mem, rfl, rfl, code⟩
    exact ⟨i, x, mem, treatment, code, rfl, rfl, rfl, rfl⟩

/-! ## The settings handed to their owners (R49) -/

/-- A unit as the Setup Block sets it (R97). -/
def State.unitSet (s : State) (u : UnitId) (l : LineUnit) : LineUnit :=
  let m := setupMode (s.readByte (0xE0 + 12 * unitNum u))
  { l with
    mode := m
    pendingMode := none
    state := if m = .off then .off else .idle
    role := none
    entry := none
    lead := (s.readThrough (0xE0 + 12 * unitNum u + 4) 8).takeWhile isDial
    dialFailures := 0
    glare := false
    answered := false
    timer := none }

theorem setupUnit_withUnit (s : State) (u : UnitId) : s.setupUnit u = s.withUnit u (s.unitSet u (s.unit u)) := rfl

section handing
variable {s t : State} (mem : t.mem = s.mem) (path : t.path.pendingWrites = s.path.pendingWrites)
include mem path

theorem unitSet_congr (u : UnitId) (l : LineUnit) : t.unitSet u l = s.unitSet u l := by
  rw [State.unitSet, State.unitSet, readByte_congr mem path, readThrough_congr mem path]

theorem setupMeter_congr (same : t.meter = s.meter) (b : SetupRead) :
    t.setupMeter b = { t with meter := (s.setupMeter b).meter } := by
  have cell (d : Nat) : t.storeCell d = s.storeCell d := by rw [State.storeCell, State.storeCell, same]
  simp only [State.setupMeter, readNum_congr mem path, same, cell]

theorem setupScreen_congr : t.setupScreen = { t with screen := s.setupScreen.screen } := by
  simp only [State.setupScreen, State.modScreen, readNum_congr mem path, readByte_congr mem path]

theorem setupPrint_congr (same : t.print = s.print) : t.setupPrint = { t with print := s.setupPrint.print } := by
  simp only [State.setupPrint, readNum_congr mem path, same]

theorem setupUnits_congr : eachUnit (fun u t => t.setupUnit u) t = { t with units :=
    ⟨s.unitSet .lu0 t.units.u0, s.unitSet .lu1 t.units.u1, s.unitSet .lu2 t.units.u2, s.unitSet .lu3 t.units.u3⟩ } := by
  have step (x : State) (hm : x.mem = s.mem) (hp : x.path.pendingWrites = s.path.pendingWrites) (u : UnitId) :
      x.setupUnit u = x.withUnit u (s.unitSet u (x.unit u)) := by
    rw [setupUnit_withUnit, unitSet_congr hm hp]
  simp only [eachUnit, allUnits, List.foldl_cons, List.foldl_nil]
  rw [step t mem path .lu0, step _ ?_ ?_ .lu1, step _ ?_ ?_ .lu2, step _ ?_ ?_ .lu3]
  · rfl
  exacts [mem, path, mem, path, mem, path]

end handing

/-- Every owner has its settings, the units theirs, and every table is empty (R49). -/
theorem handSettings_eq (s : State) (b : SetupRead) : s.handSettings b = { s with
    settings := s.takeSettings b
    store := PageStore.build b.poolBase b.poolCount
    path := { s.path with regions := b.table }
    sendq := { SendQueue.reset with keepForReceive := min 3 (s.readNum 0xBD 1) }
    meter := (s.setupMeter b).meter
    units := ⟨s.unitSet .lu0 s.units.u0, s.unitSet .lu1 s.units.u1, s.unitSet .lu2 s.units.u2,
    s.unitSet .lu3 s.units.u3⟩
    screen := s.setupScreen.screen
    print := s.setupPrint.print } := by
  unfold State.handSettings
  dsimp only
  rw [setupMeter_congr (s := s), setupUnits_congr (s := s), setupScreen_congr (s := s), setupPrint_congr (s := s)]
  all_goals rfl

/-! ## The Control Page (R65) -/

/-- Writes issued in order, each by its block. -/
def MemPath.issueAll (p : MemPath) (ws : List (Block × Nat × List Byte)) : MemPath :=
  ws.foldl (fun p w => p.issue w.1 w.2.1 w.2.2 none) p

/-- A write's issue does not see the Region Table. -/
theorem MemPath.issueAll_withRegions (ws : List (Block × Nat × List Byte)) (p : MemPath) (r : Table Region) :
    ({ p with regions := r } : MemPath).issueAll ws = { p.issueAll ws with regions := r } := by
  induction ws generalizing p with
  | nil => rfl
  | cons w rest ih =>
    have first : ({ p with regions := r } : MemPath).issue w.1 w.2.1 w.2.2 none =
        { p.issue w.1 w.2.1 w.2.2 none with regions := r } := by
      simp only [MemPath.issue_eq]
      rfl
    exact (congrArg (MemPath.issueAll · rest) first).trans (ih _)

/-- Zeros issued to words of the Control Page. -/
theorem foldl_issue_words (blk : Block) (f : Nat → Nat) (l : List Nat) (s : State) :
    l.foldl (fun t n => t.issue blk (t.controlWord (f n)) (leBytes 4 0)) s = { s with
      path := s.path.issueAll (l.map (fun n => (blk, s.settings.controlBase + f n, [0, 0, 0, 0]))) } := by
  induction l generalizing s with
  | nil => rfl
  | cons n rest ih => exact ih (s.issue blk (s.controlWord (f n)) (leBytes 4 0))

/-- The words of the Control Page in the order in which they are prepared (R65). -/
def controlWords (base : Nat) : List (Block × Nat × List Byte) :=
  (List.range 32).map (fun n => (.orderIntake, base + (n * 64 + 4), [0, 0, 0, 0]))
    ++ [(.orderIntake, base + 0x800, [0, 0, 0, 0])]
    ++ [0x804, 0x808, 0x80C, 0x840, 0x844].map (fun o => (.eventReporter, base + o, [0, 0, 0, 0]))
    ++ [(.orderIntake, base + 0x810, [1, 0, 0, 0])]

theorem prepareControl_eq (s : State) :
    s.prepareControl = { s with path := s.path.issueAll (controlWords s.settings.controlBase) } := by
  have zero : leBytes 4 0 = [0, 0, 0, 0] := rfl
  have one : leBytes 4 1 = [1, 0, 0, 0] := rfl
  unfold State.prepareControl eachNum
  dsimp only
  rw [foldl_issue_words .orderIntake (fun n => n * 64 + 4), foldl_issue_words .eventReporter (fun o => o), zero, one]
  simp only [State.issue, State.controlWord, controlWords, MemPath.issueAll, List.foldl_append, List.foldl_cons,
    List.foldl_nil]

/-! ## The desks' cells (R196) -/

section cells
variable {s : State}

theorem tget_map_numbers {α : Type} (f : Nat → α) (l : List Nat) (d : Nat) :
    tget (l.map (fun n => (n, f n))) d = if d ∈ l then some (f d) else none := by
  induction l with
  | nil => rfl
  | cons n rest ih =>
    rw [List.map_cons, tget, ih]
    by_cases here : n = d
    · simp [here]
    · simp [here, Ne.symm here]

/-- A desk that a TORN cell puts in AUDIT. -/
def Desk.audited (k : Desk) : Desk := { k with audit := true, state := .audit }

theorem derived_audit (k : Desk) (h : k.audit = true) : k.derived = .audit := if_pos h

/-- With no entry in the Send Queue a desk that falls into AUDIT tells the Event Reporter alone. -/
theorem deskRecompute_audit {d : Nat} {k : Desk} (empty : s.sendq.entries = []) (h : s.desk d = some k)
    (audit : k.audit = true) (c : DeskCause) : ∃ rest desks, s.deskRecompute d c = { s with
      meter := { s.meter with desks := desks }
      reporter := { s.reporter with postings := s.reporter.postings ++ rest } }
      ∧ ∀ e, tget desks e = if e = d then some { k with state := .audit } else tget s.meter.desks e := by
  have derived := derived_audit k audit
  by_cases same : k.derived = k.state
  · refine ⟨[], s.meter.desks, ?_, fun e => ?_⟩
    · rw [deskRecompute_same h same, List.append_nil]
    · by_cases here : e = d
      · rw [if_pos here, here, ← derived, same]
        exact h
      · rw [if_neg here]
  · refine ⟨[⟨.meter, .deskState d k.derived k.state c k.spent k.ceiling⟩],
      tmod s.meter.desks d (fun x => { x with state := k.derived }), ?_, fun e => ?_⟩
    · rw [deskRecompute_changed h same]
      dsimp only
      rw [if_neg (by rw [derived]; decide), State.entryIds, empty]
      rfl
    · rw [tget_tmod, derived]
      by_cases here : e = d
      · rw [if_pos here, if_pos here, here, show tget s.meter.desks d = some k from h]
        rfl
      · rw [if_neg here, if_neg here]

/-- A cell loaded: where it is TORN its desk is in AUDIT, and the Event Reporter is told (R196). -/
theorem loadCell_spec (empty : s.sendq.entries = []) (d : Nat) : ∃ rest desks, s.loadCell d = { s with
    meter := { s.meter with desks := desks }
    reporter := { s.reporter with postings := s.reporter.postings ++ rest } }
    ∧ ∀ e, tget desks e =
      if e = d ∧ (s.storeCell d).torn = true then (tget s.meter.desks e).map Desk.audited else tget s.meter.desks e :=
        by
  cases torn : (s.storeCell d).torn with
  | false =>
    refine ⟨[], s.meter.desks, ?_, fun e => by simp⟩
    rw [State.loadCell, torn, List.append_nil]
    rfl
  | true =>
    let c := s.storeCell d
    let t := (s.modDesk d (fun k => { k with audit := true })).post .meter
      (.meterBurn d .torn none c.lifetime c.calls c.sequence)
    have load : s.loadCell d = t.deskRecompute d .cellTorn := by
      rw [State.loadCell, torn]
      rfl
    have desks (e : Nat) : tget t.meter.desks e =
        if e = d then (tget s.meter.desks e).map (fun k => { k with audit := true }) else tget s.meter.desks e :=
      tget_tmod s.meter.desks d e (fun k => { k with audit := true })
    cases here : tget s.meter.desks d with
    | none =>
      have missing : t.desk d = none := by rw [State.desk, desks, if_pos rfl, here]; rfl
      refine ⟨[⟨.meter, .meterBurn d .torn none c.lifetime c.calls c.sequence⟩], t.meter.desks, ?_, fun e => ?_⟩
      · rw [load, State.deskRecompute, missing]
        rfl
      · rw [desks]
        by_cases same : e = d
        · rw [same, here]
          simp
        · simp [same]
    | some k =>
      have found : t.desk d = some { k with audit := true } := by rw [State.desk, desks, if_pos rfl, here]; rfl
      obtain ⟨rest, ds, eq, get⟩ := deskRecompute_audit (s := t) empty found rfl .cellTorn
      refine ⟨⟨.meter, .meterBurn d .torn none c.lifetime c.calls c.sequence⟩ :: rest, ds, ?_, fun e => ?_⟩
      · rw [load, eq]
        simp only [t, State.post, List.append_assoc, List.singleton_append]
        rfl
      · rw [get, desks]
        by_cases same : e = d
        · rw [if_pos same, if_pos ⟨same, rfl⟩, same, here]
          rfl
        · rw [if_neg same, if_neg same, if_neg (fun x => same x.1)]

/-- The cells loaded one after another (R196). -/
theorem loadCells_spec (l : List Nat) (s : State) (empty : s.sendq.entries = []) : ∃ rest desks,
    eachNum l (fun d t => t.loadCell d) s = { s with
      meter := { s.meter with desks := desks }
      reporter := { s.reporter with postings := s.reporter.postings ++ rest } }
    ∧ ∀ e, tget desks e =
      if e ∈ l ∧ (s.storeCell e).torn = true then (tget s.meter.desks e).map Desk.audited else tget s.meter.desks e :=
        by
  induction l generalizing s with
  | nil => exact ⟨[], s.meter.desks, by rw [List.append_nil]; rfl, fun e => by simp⟩
  | cons d l ih =>
    obtain ⟨r1, ds1, eq1, get1⟩ := loadCell_spec empty d
    obtain ⟨r2, ds2, eq2, get2⟩ := ih (s.loadCell d) (by rw [eq1]; exact empty)
    have cell (e : Nat) : (s.loadCell d).storeCell e = s.storeCell e := by rw [eq1]; rfl
    have base (e : Nat) : tget (s.loadCell d).meter.desks e = tget ds1 e := by rw [eq1]
    refine ⟨r1 ++ r2, ds2, ?_, fun e => ?_⟩
    · rw [show eachNum (d :: l) (fun d t => t.loadCell d) s =
        eachNum l (fun d t => t.loadCell d) (s.loadCell d) from rfl,
        eq2, eq1]
      simp only [List.append_assoc]
    · rw [get2, cell, base, get1]
      by_cases same : e = d
      · subst same
        cases (s.storeCell e).torn with
        | false => simp
        | true =>
          by_cases again : e ∈ l
          · cases tget s.meter.desks e <;> simp [again, Desk.audited]
          · simp [again]
      · simp [same]

end cells

/-! ## Going RUNNING (R49) -/

section running
variable {s : State}

/-- The printer state follows, with at most a report of it (R173). -/
theorem recomputePrinter_eq (s : State) (a : Option (Nat × Nat × Nat)) : ∃ rest, s.recomputePrinter a = { s with
    print := { s.print with state := s.print.derived }
    reporter := { s.reporter with postings := s.reporter.postings ++ rest } } := by
  by_cases same : s.print.derived = s.print.state
  · refine ⟨[], ?_⟩
    rw [recomputePrinter_same same, same, List.append_nil]
  · by_cases silent : s.print.derived.posts = false ∧ s.print.state.posts = false
    · refine ⟨[], ?_⟩
      rw [recomputePrinter_silent same silent.1 silent.2, List.append_nil]
    · refine ⟨[⟨.printEngine, .printerState s.print.derived s.print.state s.print.temperature a⟩], ?_⟩
      rw [recomputePrinter_posts same silent]
      rfl

theorem clampReport_congr {t : State} (mem : t.mem = s.mem) (path : t.path.pendingWrites = s.path.pendingWrites) :
    t.clampReport = s.clampReport := by
  simp only [State.clampReport, readNum_congr mem path]

theorem MemPath.issueAll_append (p : MemPath) (a b : List (Block × Nat × List Byte)) :
    p.issueAll (a ++ b) = (p.issueAll a).issueAll b := List.foldl_append

theorem MemPath.issueAll_nil (p : MemPath) : p.issueAll [] = p := rfl

theorem MemPath.issueAll_cons (p : MemPath) (w : Block × Nat × List Byte) (rest : List (Block × Nat × List Byte)) :
    p.issueAll (w :: rest) = (p.issue w.1 w.2.1 w.2.2 none).issueAll rest := rfl

/-- Every write of the Memory Path, the Order Intake and the Event Reporter as the part goes RUNNING (R49, R65). -/
def State.setupWrites (s : State) (base : Nat) : List (Block × Nat × List Byte) :=
  [(.memoryPath, 4, statusBytes 1 0 s.clampReport), (.memoryPath, 0, [0, 0, 0, 0])] ++ controlWords base

/-- The part with its settings handed out, the Control Page prepared and READY asked for (R49, R65, R83). -/
theorem runningPrepared_eq (s : State) (b : SetupRead) :
    ((State.writeStatus { s.handSettings b with part := .running } 1 0).prepareControl).postReady =
      { s.handSettings b with
        part := .running
        path := { s.path.issueAll (s.setupWrites b.controlBase) with regions := b.table }
        reporter := { s.reporter with postings := s.reporter.postings
          ++ [⟨.eventReporter, .ready s.cause (memMiB s.memSize) b.poolCount (!s.meter.clock.unset)⟩] } } := by
  have report : State.clampReport { s.handSettings b with part := .running } = s.clampReport :=
    clampReport_congr (by rw [handSettings_eq]) (by rw [handSettings_eq]; rfl)
  have path : (s.handSettings b).path = { s.path with regions := b.table } := by rw [handSettings_eq]
  have base : (s.handSettings b).settings.controlBase = b.controlBase := by rw [handSettings_eq]; rfl
  have reporter : (s.handSettings b).reporter = s.reporter := by rw [handSettings_eq]
  have cause : (s.handSettings b).cause = s.cause := by rw [handSettings_eq]
  have size : (s.handSettings b).memSize = s.memSize := by rw [handSettings_eq]
  have count : (s.handSettings b).store.blockCount = b.poolCount := by rw [handSettings_eq]; rfl
  have clock : (s.handSettings b).meter.clock = s.meter.clock := by rw [handSettings_eq]; rfl
  have issued : ((({ s.path with regions := b.table } : MemPath).issue .memoryPath 4
    (statusBytes 1 0 s.clampReport) none).issue
      .memoryPath 0 [0, 0, 0, 0] none).issueAll (controlWords b.controlBase) =
      { s.path.issueAll (s.setupWrites b.controlBase) with regions := b.table } := by
    rw [← MemPath.issueAll_withRegions, State.setupWrites, MemPath.issueAll_append, MemPath.issueAll_cons,
      MemPath.issueAll_cons, MemPath.issueAll_nil]
  rw [writeStatus_eq, report, prepareControl_eq, State.postReady, State.post]
  simp only [path, base, reporter, cause, size, count, clock, issued]

/-- What the part is once its Setup Block has been accepted (R49). -/
theorem goRunning_spec (s : State) (b : SetupRead) : ∃ rest desks, s.goRunning b = { s.handSettings b with
    part := .running
    path := { s.path.issueAll (s.setupWrites b.controlBase) with regions := b.table }
    meter := { (s.handSettings b).meter with desks := desks }
    print := { (s.handSettings b).print with state := (s.handSettings b).print.derived }
    reporter := { s.reporter with postings := s.reporter.postings
      ++ [⟨.eventReporter, .ready s.cause (memMiB s.memSize) b.poolCount (!s.meter.clock.unset)⟩] ++ rest } }
    ∧ ∀ d, tget desks d = if d < 16 ∧ (s.storeCell d).torn =
      true then (tget (s.handSettings b).meter.desks d).map Desk.audited
      else tget (s.handSettings b).meter.desks d := by
  obtain ⟨told, desks, cells, get⟩ := loadCells_spec (List.range 16)
    { s.handSettings b with
      part := .running
      path := { s.path.issueAll (s.setupWrites b.controlBase) with regions := b.table }
      reporter := { s.reporter with postings := s.reporter.postings
        ++ [⟨.eventReporter, .ready s.cause (memMiB s.memSize) b.poolCount (!s.meter.clock.unset)⟩] } }
    (by rw [handSettings_eq]; rfl)
  obtain ⟨state, printer⟩ := recomputePrinter_eq (eachNum (List.range 16) (fun d t => t.loadCell d)
    { s.handSettings b with
      part := .running
      path := { s.path.issueAll (s.setupWrites b.controlBase) with regions := b.table }
      reporter := { s.reporter with postings := s.reporter.postings
        ++ [⟨.eventReporter, .ready s.cause (memMiB s.memSize) b.poolCount (!s.meter.clock.unset)⟩] } }) none
  refine ⟨told ++ state, desks, ?_, fun d => ?_⟩
  · have running : s.goRunning b = (eachNum (List.range 16) (fun d t => t.loadCell d)
        (((State.writeStatus { s.handSettings b with part := .running } 1
          0).prepareControl).postReady)).recomputePrinter none :=
      rfl
    rw [running, runningPrepared_eq, printer, cells]
    simp only [List.append_assoc]
  · have cell : State.storeCell (s.handSettings b) d = s.storeCell d := by rw [handSettings_eq]; rfl
    exact (get d).trans
      (if_congr (and_congr List.mem_range (iff_of_eq (congrArg (fun c : StoreCell => c.torn = true) cell))) rfl rfl)

/-- A desk as its ceiling and its cell give it, in AUDIT where the cell is TORN (R189, R196). -/
theorem loadedDesk_state (ceiling : Nat) (c : StoreCell) :
    (loadedDesk ceiling c).state = if ceiling = 0 then .held else .opened := by
  unfold loadedDesk Desk.derived
  by_cases zero : ceiling = 0
  · simp [zero, Config.max32]
  · simp [zero]

theorem loadedDesk_audited (ceiling : Nat) (c : StoreCell) :
    (if c.torn = true then (some (loadedDesk ceiling c)).map Desk.audited else some (loadedDesk ceiling c)) = some
      { state := if c.torn then .audit else if ceiling = 0 then .held else .opened, audit := c.torn, closed := false,
        ceiling := ceiling, spent := 0, working := c.lifetime, burned := c.lifetime, calls := c.calls, captured := none,
        torn := c.torn } := by
  obtain ⟨lifetime, calls, sequence, torn, writing⟩ := c
  cases torn with
  | true => rfl
  | false =>
    have whole (k : Desk) (x : DeskState) (h : k.state = x) : k = { k with state := x } := by rw [← h]
    exact congrArg some (whole _ _ (loadedDesk_state ceiling _))

theorem burnLimitUsed_eq (v : Nat) : burnLimitUsed v = if v ∈ [2, 4, 8, 16] then v else 16 :=
  if_congr (by simp) rfl rfl

theorem setupDesk (s : State) (b : SetupRead) (d : Nat) (h : d < 16) : tget (s.handSettings b).meter.desks d =
    some (loadedDesk (s.readNum (0x110 + 4 * d) 4) (s.storeCell d)) := by
  rw [handSettings_eq]
  exact (tget_map_numbers _ (List.range 16) d).trans (if_pos (List.mem_range.2 h))

end running

theorem setupMode_known {b : Byte} {m : UnitMode} (h : unitModeOf b.toNat = some m) : setupMode b = m := by
  rw [setupMode, h]

/-- Settles O10: the owners' settings by `handSettings_eq`, the Control Page's words in order, the cells by
`loadCells_spec`. -/
theorem setupAcceptedGoesRunning : Obligations.SetupAcceptedGoesRunning := by
  intro s part free ready passed b num zero age reload word status slots words
  obtain ⟨rest, desks, running, get⟩ := goRunning_spec s b
  have next : exec .setupBlockReadDone s = .next (s.goRunning b) :=
    congrArg Host.Outcome.next (setupReadDone_accepted (setupReady_iff.2 ⟨part, free, ready⟩) passed)
  rw [running, handSettings_eq] at next
  refine ⟨_, next, rfl, rfl, ?path, mem_table_iff b, rfl, rfl, fun u => ?unit, ?screen, rfl, ?print, fun d h => ?desk,
    ?meter,
    rfl, rfl, rfl, rfl, rfl, fun quiet => ?ready⟩
  case path =>
    have issued : s.path.issueAll (s.setupWrites b.controlBase) = word .orderIntake 0x810 1 words := by
      simp only [MemPath.issueAll, State.setupWrites, controlWords, List.foldl_append, List.foldl_map, List.foldl_cons,
        List.foldl_nil, word, words, slots, status]
    exact congrArg (fun p : MemPath => { p with regions := b.table }) issued
  case unit =>
    intro a
    have flags (p : UnitId → Bool) : (Quad.mk (p .lu0) (p .lu1) (p .lu2) (p .lu3)).get u = p u := by cases u <;> rfl
    have unit : State.unit { s with units := ⟨s.unitSet .lu0 s.units.u0, s.unitSet .lu1 s.units.u1,
      s.unitSet .lu2 s.units.u2,
        s.unitSet .lu3 s.units.u3⟩ } u = s.unitSet u (s.unit u) := by cases u <;> rfl
    have mode : (s.unitSet u (s.unit u)).mode = setupMode (s.readByte a) := rfl
    refine ⟨(congrArg LineUnit.mode unit).trans rfl, fun m known => (congrArg LineUnit.mode unit).trans ?_, ?_,
      (congrArg LineUnit.lead unit).trans rfl, ?_⟩
    · exact setupMode_known ((congrArg unitModeOf (readNum_one s a).symm).trans known)
    · exact (congrArg (fun l : LineUnit => l.state) unit).trans (congrArg (fun l : LineUnit =>
        if l.mode = .off then CallState.off else .idle) unit).symm
    · have learn : s.setupScreen.screen.learn.get u = decide (s.readByte (a + 1) ≠ 0) := by cases u <;> rfl
      exact (iff_of_eq (congrArg (· = true) learn)).trans decide_eq_true_iff
  case screen => rfl
  case print => rfl
  case desk =>
    intro c ceiling
    exact (get d).trans ((if_congr (and_iff_right h) (congrArg (Option.map Desk.audited) (setupDesk s b d h))
      (setupDesk s b d h)).trans (loadedDesk_audited ceiling c))
  case meter =>
    have limit : burnLimitUsed (s.readNum 0xC3 1) = if num 0xC3 ∈ [2, 4, 8, 16] then num 0xC3 else 16 :=
      burnLimitUsed_eq (num 0xC3)
    rw [← limit]
    rfl
  case ready =>
    refine ⟨rest, ?_⟩
    show s.reporter.postings ++ [_] ++ rest = _
    rw [quiet]
    rfl

end Sys2Proof.Machine
end
